-- ==== Sys2Proof/Word.lean ====
section
/-! DEFINITION. The word types of the AK-5192 and tables keyed by a number. -/

namespace Sys2Proof

/-- A byte of memory, scratchpad or cellar (R7). -/
abbrev Byte := BitVec 8

/-- A 16-bit element (R17). -/
abbrev Half := BitVec 16

/-- The contents of one register in one lane (R12). -/
abbrev Word := BitVec 32

/-- A 64-bit value: an even/odd pair, a virtual address, a 64-bit control register (R16). -/
abbrev Dword := BitVec 64

/-- A significance tag (R29). -/
abbrev Tag := BitVec 6

/-- A set of lanes of one warp: bit l is lane l (R84). -/
abbrev Lanes := BitVec 64

/-- A set of the four lanes of one slice (R170). -/
abbrev Quad := BitVec 4

/-- A table keyed by a number: pairs in strictly rising order of key. -/
abbrev Tbl (α : Type) := List (Nat × α)

end Sys2Proof
end

