-- ==== Sys2Proof/Syntax.lean ====
section
/-! DEFINITION. The steps of the device: one constructor of `Instr` for each row of the opcode table. The syllables of the
four slots carry their decoded fields (R110 to R113); the other rows are device steps that no syllable encodes and carry
what they are about. -/

namespace Sys2Proof

/-- The system values a syllable may read (R117). -/
inductive SysVal where
  | laneid | sliceid | warpid | warpsper | teamidX | teamidY | teamidZ | width | nteamsX | nteamsY | nteamsZ
  | coreid | roomid | clkratio | timensLo | timensHi | tickcntLo | tickcntHi | lanemask | ctxid | devid | podsize
deriving DecidableEq, Repr

/-- The constants an operand may name (R116). -/
inductive Konst where
  | zero | one | onef | ones
deriving DecidableEq, Repr

/-- An operand (R116): v0 to v767, ln0 to ln7, hq0 to hq3, a system value, a constant, or none (1023). -/
inductive Opnd where
  | reg (n : Nat)
  | ln (n : Nat)
  | hq (n : Nat)
  | sys (v : SysVal)
  | kon (c : Konst)
  | none
deriving DecidableEq, Repr

/-- The fields every R, M and K syllable has (R110). -/
structure Fields where
  d : Opnd
  a : Opnd
  b : Opnd
  c : Opnd
  lua : Bool
  lub : Bool
  luc : Bool
  p : Opnd
  pb : Nat
  pn : Bool
  u : Bool
  gap : Nat
deriving DecidableEq, Repr

/-- Rounding (R21). -/
inductive Rnd where
  | rn | rz | rd | ru
deriving DecidableEq, Repr

/-- The modifiers RND, SAT and FTZ of class FR (R21). -/
structure Fr where
  rnd : Rnd
  sat : Bool
  ftz : Bool
deriving DecidableEq, Repr

/-- The conditions of icmp and cmp64 (R188). -/
inductive ICc where
  | eq | ne | lt | le | gt | ge
deriving DecidableEq, Repr

/-- The conditions of the float compares (R206). -/
inductive FCc where
  | eq | ne | lt | le | gt | ge | un | ord | ltu | leu | gtu | geu
deriving DecidableEq, Repr

/-- How a bit form combines with the old bit (R190). -/
inductive Cmb where
  | set | and | or
deriving DecidableEq, Repr

/-- Element types (R14). -/
inductive EType where
  | s8 | z8 | s16 | z16 | s32 | z32 | f16 | bf16 | f32 | f64 | e4m3 | e5m2 | e2m1 | s4 | sc8
deriving DecidableEq, Repr

/-- The fill of nbr outside the warp (R229). -/
inductive NbrFill where
  | wrap | zero | chain
deriving DecidableEq, Repr

/-- The operations of red and scan (R236). -/
inductive RedOp where
  | add | min | max | and | or | xor | amax
deriving DecidableEq, Repr

/-- The types of red and scan (R236). -/
inductive RedTy where
  | s32 | z32 | f32 | f64
deriving DecidableEq, Repr

/-- Access widths (R126). -/
inductive Sz where
  | b8 | b16 | b32 | b64 | b128
deriving DecidableEq, Repr

/-- Cache attributes of a syllable (R289). -/
inductive Ca where
  | normal | stream | noL1
deriving DecidableEq, Repr

/-- Atomic operations (R291). -/
inductive AOp where
  | add | min | max | and | or | xor | exch | cas
deriving DecidableEq, Repr

/-- Atomic types (R291). -/
inductive ATy where
  | s32 | z32 | f32 | f64 | s64 | z64
deriving DecidableEq, Repr

/-- Reductions of cpys (R304). -/
inductive CpysRed where
  | none | addf | addi
deriving DecidableEq, Repr

/-- The element widths of unpack (R206). -/
inductive UnpW where
  | w16 | w8 | w4
deriving DecidableEq, Repr

/-- The formats of a scratchpad drain (R326). -/
inductive DrFmt where
  | raw | bf16 | e4m3 | e2m1
deriving DecidableEq, Repr

/-- A direct target: line displacement and syllable index (R167). -/
structure Target where
  ldisp : BitVec 13
  sidx : BitVec 3
deriving DecidableEq, Repr

/-- The control registers (R417). -/
inductive Csr where
  | fpsr | fpte | sigthr | shbase | memst | wct | wqbind | refwin | wdog | islhint
  | trcause | trpc | trlanes | trdst | trval | trhand | trdel | trstat | syshand
  | trsav0 | trsav1 | trsav2 | trsav3
deriving DecidableEq, Repr

/-- A request that arrives under a latchkey (R353): kind, source, key, and for each lane its number, offset and data. -/
inductive RemKind where
  | read (sz : Sz) (sx : Bool)
  | write (sz : Sz) (rc : Nat)
  /-- Bits of a byte written: those that the lane's `cmp` marks (R42). -/
  | masked (rc : Nat)
  | atomic (op : AOp) (ty : ATy)
deriving DecidableEq, Repr

/-- One lane of a remote request: its number, the window offset, store data or operand, and the value compared by cas. -/
structure RemLane where
  lane : Nat
  off : Nat
  data : BitVec 128
  cmp : BitVec 64
deriving DecidableEq, Repr

/-- A group of a remote access (R357) as it arrives at the target. -/
structure RemReq where
  src : Nat
  opId : Nat
  key : Dword
  kind : RemKind
  stream : Bool
  /-- Whether offsets are virtual addresses at the target, as a copy engine's are (R314). -/
  byVa : Bool
  lanes : List RemLane
deriving DecidableEq, Repr

/-- What the target answers for one lane (R359, R360): data, or a failure's cause and REASON or poisoned offset. -/
inductive RemAns where
  | data (lane : Nat) (v : BitVec 128) (zeroed : Bool)
  | ack (lane : Nat) (zeroed : Bool)
  | reject (lane reason : Nat)
  | poison (lane off : Nat)
deriving DecidableEq, Repr

/-- A bulk request (R369): the sending device and message identity, key, tag, length, class, prefix. -/
structure BulkReq where
  src : Nat
  msg : Nat
  key : Dword
  mtag : Word
  len : Nat
  prio : Nat
  prefixBytes : List Byte
deriving DecidableEq, Repr

/-- What an uncorrectable error of an island was in (R434, R435): a line buffer; filler; or data of a warp, its lowest operand, the
lanes, whether an Attic entry is meant, and the bundle whose read found it. -/
inductive EccSite where
  | lineBuf
  | filler
  | data (wid opnd : Nat) (lanes : Lanes) (attic : Bool) (found : Option Dword)
deriving DecidableEq, Repr

/-- The steps of the device. -/
inductive Instr where
  -- nops (R127)
  | nopV (gap : Nat)
  | nopM (gap : Nat)
  | nopK (gap : Nat)
  | nopC (gap : Nat)
  -- V slot, integer and address (R188)
  | iadd (f : Fields) (sat uns : Bool)
  | isub (f : Fields) (sat uns : Bool)
  | iaddc (f : Fields) (co sb : Bool) (k j : Nat)
  | imul (f : Fields) (sat uns : Bool)
  | imulhi (f : Fields) (uns : Bool)
  | imad (f : Fields) (sat uns : Bool)
  | imadw (f : Fields) (uns : Bool)
  | imin (f : Fields) (uns : Bool)
  | imax (f : Fields) (uns : Bool)
  | iabs (f : Fields) (sat : Bool)
  | isad (f : Fields) (h sat uns : Bool)
  | idot4 (f : Fields) (au bu sat : Bool)
  | icmp (f : Fields) (cc : ICc) (cmb : Cmb) (uns : Bool) (j : Nat)
  | bool3 (f : Fields) (tbl : BitVec 8)
  | shl (f : Fields) (imm : Option Nat)
  | shr (f : Fields) (imm : Option Nat)
  | sar (f : Fields) (imm : Option Nat)
  | rotl (f : Fields) (imm : Option Nat)
  | fshl (f : Fields) (rt : Bool) (imm : Option Nat)
  | bfx (f : Fields) (uns : Bool) (imm : Option (Nat × Nat))
  | bfi (f : Fields) (imm : Option (Nat × Nat))
  | popc (f : Fields)
  | clz (f : Fields)
  | brev (f : Fields)
  | sel (f : Fields) (k : Nat)
  | mov (f : Fields) (w64 : Bool)
  | movi (d : Opnd) (imm : Word) (u : Bool) (gap : Nat) (w64 : Bool)
  | prmt (f : Fields) (imm : Option Nat)
  | iclamp (f : Fields) (uns : Bool)
  | lea (f : Fields) (uns chk : Bool) (sh : Nat)
  | add64 (f : Fields) (uns chk : Bool)
  | sub64 (f : Fields) (uns chk : Bool)
  | cmp64 (f : Fields) (cc : ICc) (cmb : Cmb) (uns : Bool) (j : Nat)
  | shl64 (f : Fields) (imm : Option Nat)
  | shr64 (f : Fields) (ar : Bool) (imm : Option Nat)
  | mad64 (f : Fields) (uns chk : Bool)
  -- V slot, float, special function, conversion, significance (R205)
  | fadd (f : Fields) (fr : Fr)
  | fsub (f : Fields) (fr : Fr)
  | fmul (f : Fields) (fr : Fr)
  | ffma (f : Fields) (fr : Fr) (np nc : Bool)
  | fmin (f : Fields) (num ftz : Bool)
  | fmax (f : Fields) (num ftz : Bool)
  | fcmp (f : Fields) (cc : FCc) (cmb : Cmb) (ftz : Bool) (j : Nat)
  | fclass (f : Fields) (d64 ftz : Bool)
  | frint (f : Fields) (fr : Fr) (ex : Bool)
  | fscale (f : Fields) (fr : Fr)
  | fexpnE (f : Fields) (ftz : Bool)
  | fexpnM (f : Fields) (ftz : Bool)
  | dadd (f : Fields) (fr : Fr)
  | dmul (f : Fields) (fr : Fr)
  | dfma (f : Fields) (fr : Fr) (np nc : Bool)
  | dcmp (f : Fields) (cc : FCc) (cmb : Cmb) (ftz : Bool) (j : Nat)
  | dmin (f : Fields) (num ftz : Bool)
  | dmax (f : Fields) (num ftz : Bool)
  | hadd2 (f : Fields) (rnd : Rnd) (sat bf : Bool)
  | hmul2 (f : Fields) (rnd : Rnd) (sat bf : Bool)
  | hfma2 (f : Fields) (rnd : Rnd) (sat bf np nc : Bool)
  | hcmp2 (f : Fields) (cc : FCc) (cmb : Cmb) (bf : Bool) (j : Nat)
  | hmin2 (f : Fields) (bf num : Bool)
  | hmax2 (f : Fields) (bf num : Bool)
  | rcp (f : Fields) (ftz : Bool)
  | rsq (f : Fields) (ftz : Bool)
  | sqrt (f : Fields) (ftz : Bool)
  | ex2 (f : Fields) (ftz : Bool)
  | lg2 (f : Fields) (ftz : Bool)
  | sin (f : Fields) (ftz : Bool)
  | cos (f : Fields) (ftz : Bool)
  | tanh (f : Fields) (ftz : Bool)
  | drcp (f : Fields) (ftz : Bool)
  | cvt (f : Fields) (fr : Fr) (dt st : EType) (i : Nat)
  | cvtscScale (f : Fields) (dt : EType)
  | cvtsc (f : Fields) (dt : EType)
  | pack2 (f : Fields)
  | pack4 (f : Fields) (nib : Bool)
  | unpack (f : Fields) (sx : Bool) (wid : UnpW) (k : Nat)
  | sigrd (f : Fields)
  | sigwr (f : Fields) (low : Bool)
  | sigmin (f : Fields)
  -- V slot, cross-lane (R229)
  | nbr (f : Fields) (fill : NbrFill) (dn w64 : Bool) (k : Nat)
  | shflIdx (f : Fields) (w64 : Bool)
  | shflXor (f : Fields) (w64 : Bool) (m : Nat)
  | voteBallot (f : Fields) (k : Nat)
  | voteAny (f : Fields) (k j : Nat) (cmb : Cmb)
  | voteAll (f : Fields) (k j : Nat) (cmb : Cmb)
  | voteEq (f : Fields) (k j : Nat) (cmb : Cmb)
  | red (f : Fields) (op : RedOp) (ty : RedTy)
  | scan (f : Fields) (op : RedOp) (ty : RedTy) (excl : Bool)
  | matchLanes (f : Fields) (w64 : Bool)
  -- M slot (R279, R281, R355)
  | ld (f : Fields) (sz : Sz) (sx stm : Bool) (hook : Nat) (off : Half)
  | st (f : Fields) (sz : Sz) (stm : Bool) (rc hook : Nat) (off : Half)
  | ldr (f : Fields) (sz : Sz) (sx : Bool) (ca : Ca) (rc hook : Nat) (off : Half)
  | lds (f : Fields) (sz : Sz) (sx : Bool) (off : Half)
  | sts (f : Fields) (sz : Sz) (off : Half)
  | ldt (f : Fields) (sz : Sz) (stm : Bool) (hook : Nat) (off : Half)
  | stt (f : Fields) (sz : Sz) (stm : Bool) (hook : Nat) (off : Half)
  | ldw (f : Fields) (sz : Sz) (sx : Bool) (hook : Nat) (off : Half)
  | atom (f : Fields) (op : AOp) (ty : ATy) (hook : Nat) (off : Half)
  | atoms (f : Fields) (op : AOp) (ty : ATy) (hook : Nat) (off : Half)
  | rld (f : Fields) (sz : Sz) (sx stm : Bool) (hook : Nat) (off : Half)
  | rst (f : Fields) (sz : Sz) (stm : Bool) (rc hook : Nat) (off : Half)
  | ratom (f : Fields) (op : AOp) (ty : ATy) (hook : Nat) (off : Half)
  | fenceTeam (f : Fields) (hold : Bool) (hook : Nat)
  | fencePair (f : Fields) (hold : Bool) (hook : Nat)
  | fenceDev (f : Fields) (hold : Bool) (hook : Nat)
  | fenceFab (f : Fields) (hold : Bool) (hook : Nat)
  | afence (f : Fields) (hold : Bool) (hook : Nat)
  | icinv (f : Fields) (hook : Nat)
  | pref (f : Fields) (ca : Ca) (off : Half)
  | spmarkFull (f : Fields) (hook : Nat)
  | spmarkEmpty (f : Fields) (hook : Nat)
  | wqenq (f : Fields) (j hook : Nat)
  | wqdeq (f : Fields) (poll : Bool) (hook : Nat)
  -- K slot, copies (R304)
  | cpyIn (f : Fields) (em stm : Bool) (hook : Nat)
  | cpyOut (f : Fields) (stm : Bool) (rc hook : Nat)
  | cpytIn (f : Fields) (em stm : Bool) (hook : Nat)
  | cpytOut (f : Fields) (stm : Bool) (rc hook : Nat)
  | cpyg (f : Fields) (em stm : Bool) (hook : Nat)
  | cpys (f : Fields) (red : CpysRed) (stm : Bool) (rc hook : Nat)
  | cpyfSp (f : Fields) (em : Bool) (hook : Nat)
  | cpyfMem (f : Fields) (stm : Bool) (rc hook : Nat)
  | cpyw (f : Fields) (em : Bool) (hook : Nat)
  | cpyc (f : Fields) (em : Bool) (hook : Nat)
  -- K slot, bulk transfers (R364)
  | bsend (f : Fields) (hook : Nat)
  | brecv (f : Fields) (hook : Nat)
  | bprobeSnd (f : Fields) (hook : Nat)
  | bprobeRcv (f : Fields) (hook : Nat)
  | bcancelSnd (f : Fields) (hook : Nat)
  | bcancelRcv (f : Fields) (hook : Nat)
  -- K slot, matrix (R326)
  | mcfg (f : Fields) (s32 : Bool) (tile rc cc hook : Nat)
  | mloft (f : Fields) (bt : EType) (lf hook : Nat)
  | mloftw (f : Fields) (bt : EType) (lf hook : Nat)
  | mlofth (f : Fields) (lf hook : Nat)
  | mma (f : Fields) (at_ : EType) (tile lf row0 hook : Nat)
  | mmas (f : Fields) (at_ : EType) (tile lf row0 hook : Nat)
  | mscl (f : Fields) (cl : Bool) (lf hook : Nat)
  | mdrainReg (f : Fields) (tile row0 hook : Nat)
  | mdrainScratch (f : Fields) (fmt : DrFmt) (t z em : Bool) (tile hook : Nat)
  | mzero (f : Fields) (tile hook : Nat)
  | mfence (f : Fields) (hook : Nat)
  -- C slot (R169, R392, R414)
  | bra (f : Fields) (t : Target)
  | brx (f : Fields)
  | call (f : Fields) (t : Target)
  | callx (f : Fields)
  | ret (f : Fields)
  | brp (f : Fields) (t : Target)
  | brany (f : Fields) (t : Target)
  | brall (f : Fields) (t : Target)
  | brsig (f : Fields) (thr : Nat) (t : Target)
  | regang (f : Fields) (t : Target)
  | exit (f : Fields)
  | yield (f : Fields)
  | loop (f : Fields) (step : BitVec 6) (t : Target)
  | trap (f : Fields) (n : Half)
  | rte (f : Fields)
  | syscIcb (f : Fields) (hook : Nat)
  | sysc (f : Fields) (n hook : Nat)
  | wait (f : Fields) (hook : Nat)
  | waitAll (f : Fields)
  | hkadjUp (f : Fields) (hook n : Nat)
  | hkadjDn (f : Fields) (hook n : Nat) (w : Option Nat)
  | bar (f : Fields) (drain : Bool) (k : Nat)
  | bara (f : Fields) (drain : Bool) (k : Nat)
  | barw (f : Fields) (k : Nat)
  | sleepns (f : Fields)
  | waitns (f : Fields)
  | knock (f : Fields) (hook : Nat)
  | csrr (f : Fields) (w64 : Bool) (csr : Csr)
  | csrw (f : Fields) (w64 : Bool) (csr : Csr)
  | csrx (f : Fields) (w64 : Bool) (csr : Csr)
  -- device steps
  | heartbeatTimeout (core : Nat)
  | knockArrival (src port : Nat) (bits : BitVec 128)
  | parserLookaheadRead (qid : Nat)
  | parserSlotReread (qid : Nat)
  | stalledQueueEvent (qid : Nat)
  | packetIssue (qid : Nat)
  | wqUnitBind (lid : Nat)
  | teamAdmission (tid : Nat)
  | activeSetEntry (wid : Nat)
  | fetchLineArrival (wid : Nat) (va : Dword)
  | mergeSelect (core room : Nat)
  | resultLanding (wid seq : Nat)
  | hatchPushResume (wid : Nat)
  | hatchPopResume (wid : Nat)
  | hatchLoadEntryFill (op : Nat)
  | scratchAccessPerform (wid seq : Nat)
  | scratchLineFullResume (wid : Nat)
  | hookDrop (wid h : Nat)
  | homeAccessPerform (op line : Nat)
  | loadDataArrival (op : Nat)
  | storeCompletion (op : Nat)
  | l1LeaseExpiry (core ctx line : Nat)
  | l2Eviction (line : Nat)
  | refreshWindowEnd (wid : Nat)
  | tlbWalkComplete (walk : Nat)
  | tlbInvalidate (ctx : Nat) (va len : Nat)
  /-- `place`: the context that asks, and the offset in the cellar (R255). -/
  | cellarWrite (place : Nat × Nat) (data : List Byte)
  | copyUnitMove (op : Nat)
  | copyFinish (op : Nat)
  | matrixOpPerform (op : Nat)
  | matrixOpFinish (op : Nat)
  | remoteRequestIngress (r : RemReq)
  | remoteReplyArrival (op : Nat) (ans : List RemAns)
  | remoteTimeout (op : Nat)
  | bulkRequestArrival (r : BulkReq)
  | bulkRequestRetry (msg : Nat)
  /-- A token granted for a message received here, or one that arrives from the receiver of a message sent (token, offset, length). -/
  | pullTokenGrant (msg : Nat) (peer : Option (Nat × Nat × Nat))
  | tokenDataArrival (tok : Nat) (off : Nat) (data : List Byte)
  | tokenExpiry (tok : Nat)
  | orphanNoticeArrival (msg : Nat)
  | bulkAckArrival (msg : Nat) (units status : Nat)
  | peerCancelArrival (msg : Nat)
  | settlePoint (wid seq : Nat)
  | barrierRelease (tid k : Nat)
  | hookCreditCommit (wid h n : Nat)
  | waitRelease (wid : Nat)
  | timedWaitExpiry (wid : Nat)
  | wqEntryArrival (unit : Nat)
  | syscReply (op : Nat) (v : Word)
  | trapEntry (wid : Nat)
  | watchdogExpiry (wid : Nat)
  | voltageMachineCheck (wid : Nat)
  | closetSave (ctx : Nat)
  | warpEnd (wid : Nat)
  | launchRetirement (lid : Nat)
  | fillerEnd (core : Nat)
  | islandEnterNt (core room k : Nat)
  | islandEnterRet (core room k : Nat)
  | islandExitNt (core room k : Nat)
  | islandExitRet (core room k : Nat)
  -- device steps that only the supervisors, the management processor, a peer or a fault of the hardware begins
  | managementCancel (lid : Nat)
  | queueCreate (qid : Nat) (qbase : Dword) (qsz ctx slot : Nat) (key : BitVec 128)
  | contextEnable (ctx : Nat)
  /-- The Lintel leaves reset and sv0 reads `img`, the image with its signature, from the flash (R63). -/
  | powerOnBoot (img : List Byte)
  | mailboxStore (src dst mb : Nat) (msg : BitVec 512)
  | supervisorFatal (core : Nat)
  | supervisorRelease (core : Nat)
  | complexReset (img : List Byte)
  | bootTimeoutPark
  /-- sv2 resumes the parked launches, but for those named, which it cannot (R83). -/
  | parkedLaunchResume (lost : List Nat)
  | lockoutClear (src : Nat)
  | contextDisable (ctx : Nat)
  | preemptRequest (ctx : Nat) (cores : List Nat)
  | preemptRestore (tid core : Nat) (spots : List (Nat × Nat))
  | mailboxAck (core mb : Nat)
  | heartbeatWrite (core : Nat)
  /-- sv2 places the next team of a launch on a core (or couple), giving each warp its room and slice base (R94). -/
  | teamPlacement (lid core : Nat) (spots : List (Nat × Nat))
  | hbmUncorrectableError (block : Nat)
  | powerControllerPoison (block : Nat)
  /-- sv3 writes the entry `e` at physical address `pa` and the deferred walk restarts at L0 (R268). -/
  | deferMap (walk pa : Nat) (e : Dword)
  | deferDecline (walk : Nat)
  | keySlotLoad (slot : Nat) (key : BitVec 512)
  | keySlotClear (slot : Nat)
  | cellarWindowGrant (ctx base len : Nat) (zp : Bool)
  | windowEntryWrite (win : Nat) (e : BitVec 256)
  | routeChange (src tgt : Nat) (via : Option Nat)
  | linkFailure (peer : Nat)
  | unsupportedFrameDiscard (peer : Nat)
  | uetPacketDrop (port : Nat)
  /-- sv4 writes registers (operand number, lane, value) and control registers, and resumes the warp (R407). -/
  | sv4Resume (wid : Nat) (regs : List (Nat × Nat × Word)) (csrs : List (Csr × Dword))
  | sv4EnterHandler (wid : Nat)
  | sv4EndLaunch (wid : Nat)
  | coreFreeze (core : Nat)
  /-- A spare takes a frozen core's place; `move`: the core, and the teams whose image cannot be read intact (R425). -/
  | spareMove (move : Nat × List Nat)
  /-- A team placed on other cores; `team`: the team, and whether its image cannot be read intact (R425). -/
  | teamReplace (team : Nat × Bool) (core : Nat) (spots : List (Nat × Nat))
  | clockTransition (cluster ratio stop : Nat)
  /-- An uncorrectable error on an island, and what it was in (R434, R435). -/
  | attributedEccError (core room k : Nat) (lost : EccSite)
  | marginPlanInstall (cluster maxRatio : Nat) (guardMv ntMv : List Nat)
  | counterSnapshot (acct : Option Nat) (core room : Nat)
  | contextReassign (ctx : Nat)
  /-- `by'`: the supervisor core that writes, and its mode (R58). -/
  | controlRegisterWrite (by' : Nat × Nat) (reg : Nat) (v : Dword)
  | pageTableWrite (pa : Nat) (e : Dword)
  | preemptWithdraw (ctx : Nat)
deriving DecidableEq, Repr

end Sys2Proof
end

