-- ==== Sys2Proof/WellFormed.lean ====
section
/-! DEFINITION. Which syllables are well formed: the operand kinds of each field (R116 to R123, and the field tables R169, R188,
R205, R229, R279, R281, R304, R326, R355, R364, R392, R414) and the modifier values each instruction defines (R126). A device
step that no syllable encodes is always well formed. -/

namespace Sys2Proof

/-- The operand number of a system value (R117). -/
def SysVal.num : SysVal → Nat
  | .laneid => 800 | .sliceid => 801 | .warpid => 802 | .warpsper => 803
  | .teamidX => 804 | .teamidY => 805 | .teamidZ => 806 | .width => 807
  | .nteamsX => 808 | .nteamsY => 809 | .nteamsZ => 810 | .coreid => 811
  | .roomid => 812 | .clkratio => 813 | .timensLo => 814 | .timensHi => 815
  | .tickcntLo => 816 | .tickcntHi => 817 | .lanemask => 818 | .ctxid => 819
  | .devid => 820 | .podsize => 821

/-- The operand number of a constant (R116). -/
def Konst.num : Konst → Nat
  | .zero => 1016 | .one => 1017 | .onef => 1018 | .ones => 1019

/-- The 10-bit operand number of an operand (R116). -/
def Opnd.num : Opnd → Nat
  | .reg n => n
  | .ln n => 768 + n
  | .hq n => 776 + n
  | .sys v => v.num
  | .kon c => c.num
  | .none => 1023

/-- The system value of a number (R117). -/
def sysOfNum : Nat → Option SysVal
  | 800 => some .laneid | 801 => some .sliceid | 802 => some .warpid | 803 => some .warpsper
  | 804 => some .teamidX | 805 => some .teamidY | 806 => some .teamidZ | 807 => some .width
  | 808 => some .nteamsX | 809 => some .nteamsY | 810 => some .nteamsZ | 811 => some .coreid
  | 812 => some .roomid | 813 => some .clkratio | 814 => some .timensLo | 815 => some .timensHi
  | 816 => some .tickcntLo | 817 => some .tickcntHi | 818 => some .lanemask | 819 => some .ctxid
  | 820 => some .devid | 821 => some .podsize
  | _ => none

/-- The constant of a number (R116). -/
def konOfNum : Nat → Option Konst
  | 1016 => some .zero | 1017 => some .one | 1018 => some .onef | 1019 => some .ones
  | _ => none

/-- The operand of a 10-bit number; the numbers R116 reserves name none. -/
def Opnd.ofNum (n : Nat) : Option Opnd :=
  if n < 768 then some (.reg n)
  else if n < 776 then some (.ln (n - 768))
  else if n < 780 then some (.hq (n - 776))
  else if n = 1023 then some .none
  else match sysOfNum n with
    | some v => some (.sys v)
    | Option.none => (konOfNum n).map .kon

/-- What a destination field may name. -/
inductive DK where
  | none      -- 1023 (R119)
  | w32       -- register, landing, hatch
  | w32n      -- register or landing
  | w64       -- even register or landing pair (R118)
  | bit       -- register or landing holding a bit (R190)
  | quad      -- four operands (R282)
  | frag      -- eight registers from a multiple of 8 (R329)
deriving DecidableEq, Repr

/-- What a source field may name. -/
inductive SK where
  | none      -- 1023 (R120)
  | s32       -- any 32-bit source, a hatch included
  | s32n      -- any 32-bit source but a hatch
  | s64       -- R118
  | quad      -- R282
  | opt32     -- as s32, or 1023 for none
  | opt32n    -- as s32n, or 1023 for none
  | regln     -- a register or a landing
  | reglnc    -- as regln, but a system value or a constant is a reserved field (R169)
  | rec24     -- a layout record (R44)
  | rec8      -- an eight-word descriptor (R306)
  | frag      -- eight registers from a multiple of 8 (R329)
  | hc        -- not an operand: the field HC (R278, R354)
deriving DecidableEq, Repr

/-- Whether `n` is a hatch's number. -/
def isHatchNum (n : Nat) : Bool := 776 ≤ n && n < 780

/-- Whether `n` names `span` registers from `n` below the warp's register count (R88). -/
def regSpan (n span nreg : Nat) : Bool := n + span ≤ 768 && n + span ≤ nreg

/-- The cause a destination number raises, for a warp of `nreg` registers: 2, 3 or 17; none when it may stand (R116, R119). -/
def DK.bad (k : DK) (nreg n : Nat) : Option Nat :=
  match k with
  | .none => if n = 1023 then .none else some 2
  | .w32 =>
    if n = 1023 || isHatchNum n || regSpan n 1 nreg || (768 ≤ n && n < 776) then .none else some 3
  | .w32n | .bit =>
    if isHatchNum n then some 0x17
    else if n = 1023 || regSpan n 1 nreg || (768 ≤ n && n < 776) then .none else some 3
  | .w64 =>
    if isHatchNum n then some 0x17
    else if n = 1023 || (n % 2 = 0 && (regSpan n 2 nreg || (768 ≤ n && n < 776))) then .none else some 3
  | .quad =>
    if isHatchNum n then some 0x17
    else if n = 1023 || (n % 4 = 0 && (regSpan n 4 nreg || (768 ≤ n && n < 776))) then .none else some 3
  | .frag =>
    if isHatchNum n then some 0x17
    else if n % 8 = 0 && regSpan n 8 nreg then .none else some 3

/-- The cause a source number raises, for a warp of `nreg` registers (R116 to R120, R122). -/
def SK.bad (k : SK) (nreg n : Nat) : Option Nat :=
  let plain := regSpan n 1 nreg || (768 ≤ n && n < 776) || (sysOfNum n).isSome || (konOfNum n).isSome
  match k with
  | .none => if n = 1023 then .none else some 2
  | .hc => .none
  | .s32 => if isHatchNum n || plain then .none else some 3
  | .s32n => if isHatchNum n then some 0x17 else if plain then .none else some 3
  | .opt32 => if n = 1023 || isHatchNum n || plain then .none else some 3
  | .opt32n => if isHatchNum n then some 0x17 else if n = 1023 || plain then .none else some 3
  | .s64 =>
    if isHatchNum n then some 0x17
    else if (n % 2 = 0 && (regSpan n 2 nreg || (768 ≤ n && n < 776))) || n = 814 || n = 816 || n = 818
      || (konOfNum n).isSome then .none else some 3
  | .quad =>
    if isHatchNum n then some 0x17
    else if n % 4 = 0 && (regSpan n 4 nreg || (768 ≤ n && n < 776)) then .none else some 3
  | .regln =>
    if isHatchNum n then some 0x17
    else if regSpan n 1 nreg || (768 ≤ n && n < 776) then .none else some 3
  | .reglnc =>
    if isHatchNum n then some 0x17
    else if regSpan n 1 nreg || (768 ≤ n && n < 776) then .none
    else if (sysOfNum n).isSome || (konOfNum n).isSome then some 2 else some 3
  | .rec24 =>
    if isHatchNum n then some 0x17
    else if n % 2 = 0 && n ≤ 744 && regSpan n 24 nreg then .none else some 3
  | .rec8 =>
    if isHatchNum n then some 0x17
    else if n % 2 = 0 && n ≤ 760 && regSpan n 8 nreg then .none else some 3
  | .frag =>
    if isHatchNum n then some 0x17
    else if n % 8 = 0 && regSpan n 8 nreg then .none else some 3

/-- Whether a predicate number may stand (R123): 1023, a register, a landing or a system value. -/
def predOk (nreg n : Nat) : Bool :=
  n = 1023 || regSpan n 1 nreg || (768 ≤ n && n < 776) || (sysOfNum n).isSome

/-- The operand kinds of a syllable, whether it takes a predicate, and whether U may be set. -/
structure Shape where
  d : DK
  a : SK
  b : SK
  c : SK
  pred : Bool
  uni : Bool
deriving DecidableEq, Repr

/-- The source kind of a data operand of a width (R282). -/
def Sz.src : Sz → SK
  | .b8 | .b16 | .b32 => .s32
  | .b64 => .s64
  | .b128 => .quad

/-- The source kind of a data operand of a remote store, where no hatch may stand (R355). -/
def Sz.srcN : Sz → SK
  | .b8 | .b16 | .b32 => .s32n
  | .b64 => .s64
  | .b128 => .quad

/-- The destination kind of a load that may push a hatch (R286). -/
def Sz.dst : Sz → DK
  | .b8 | .b16 | .b32 => .w32
  | .b64 => .w64
  | .b128 => .quad

/-- The destination kind of a load that may not push a hatch (R279, R286). -/
def Sz.dstN : Sz → DK
  | .b8 | .b16 | .b32 => .w32n
  | .b64 => .w64
  | .b128 => .quad

/-- Whether an atomic type is 64 bits wide (R291). -/
def ATy.wide : ATy → Bool
  | .f64 | .s64 | .z64 => true
  | _ => false

/-- The old-value destination of an atomic (R291). -/
def ATy.dst (t : ATy) : DK := if t.wide then .w64 else .w32n

/-- The operand of an atomic (R291): for cas the new value followed by the expected value. -/
def ATy.src (t : ATy) (op : AOp) (hatch : Bool) : SK :=
  match op, t.wide with
  | .cas, true => .quad
  | .cas, false => .s64
  | _, true => .s64
  | _, false => if hatch then .s32 else .s32n

/-- Whether an atomic operation takes a type (R291). -/
def aopTyOk (op : AOp) (t : ATy) : Bool :=
  match op with
  | .and | .or | .xor => t != .f32 && t != .f64
  | _ => true

/-- Whether red and scan accept an operation with a type (R236). -/
def redOk (op : RedOp) (t : RedTy) : Bool :=
  match op with
  | .add | .min | .max => true
  | .and | .or | .xor => t == .s32 || t == .z32
  | .amax => t == .f32 || t == .f64

/-- The widths of an element type in bits (R14). -/
def EType.bits : EType → Nat
  | .s8 | .z8 | .e4m3 | .e5m2 | .sc8 => 8
  | .s16 | .z16 | .f16 | .bf16 => 16
  | .s32 | .z32 | .f32 => 32
  | .f64 => 64
  | .e2m1 | .s4 => 4

/-- Whether a type is an integer type (R14). -/
def EType.isInt : EType → Bool
  | .s8 | .z8 | .s16 | .z16 | .s32 | .z32 | .s4 => true
  | _ => false

/-- The number of elements of a cvt source (R220). -/
def EType.cvtSlots : EType → Nat
  | .f64 | .s32 | .z32 | .f32 => 1
  | .s16 | .z16 | .f16 | .bf16 => 2
  | .s8 | .z8 | .e4m3 | .e5m2 | .sc8 => 4
  | .e2m1 => 8
  | .s4 => 0

/-- Whether cvt accepts the types and the index (R220). -/
def cvtOk (dt st : EType) (i : Nat) : Bool :=
  st != .s4 && dt != .s4 && dt != .sc8 && (st != .sc8 || dt == .f32 || dt == .f64) && i < st.cvtSlots

/-- The operand classes of matrix multiplication (R321). -/
inductive MClass where
  | i4 | i8 | f4 | f8 | f16
deriving DecidableEq, Repr

/-- The class of a matrix operand type; the other types have none (R321). -/
def EType.mclass : EType → Option MClass
  | .s4 => some .i4
  | .s8 | .z8 => some .i8
  | .e2m1 => some .f4
  | .e4m3 | .e5m2 => some .f8
  | .f16 | .bf16 => some .f16
  | _ => none

/-- Whether the class has block scales (R321). -/
def EType.scaled (t : EType) : Bool := t.mclass == some .f4 || t.mclass == some .f8

/-- The width of a control register (R417). -/
def Csr.wide : Csr → Bool
  | .shbase | .wct | .wqbind | .refwin | .trpc | .trlanes | .trval | .trhand | .trdel | .syshand
  | .trsav0 | .trsav1 | .trsav2 | .trsav3 => true
  | _ => false

/-- A 32-bit V-slot shape: destination, three sources. -/
def vs (d : DK) (a b c : SK) : Shape := ⟨d, a, b, c, true, true⟩

/-- A C-slot shape without a destination. -/
def cs (a b : SK) (pred : Bool) : Shape := ⟨.none, a, b, .none, pred, false⟩

/-- A cross-lane shape. -/
def xs (d : DK) (a b : SK) : Shape := ⟨d, a, b, .none, true, false⟩

/-- A K-slot shape. -/
def ks (d : DK) (a b c : SK) : Shape := ⟨d, a, b, c, true, false⟩

/-- The source kind of an operand that an immediate may replace. -/
def immS {α : Type} (imm : Option α) : SK := if imm.isSome then .none else .s32

/-- The operand kinds of each syllable; a device step has none. -/
def Instr.shape : Instr → Option Shape
  | .nopV _ | .nopM _ | .nopK _ | .nopC _ => some ⟨.none, .none, .none, .none, false, false⟩
  | .iadd .. | .isub .. | .imul .. | .imulhi .. | .imin .. | .imax .. => some (vs .w32 .s32 .s32 .none)
  | .iaddc _ co _ _ _ => some (vs (if co then .bit else .w32) .s32 .s32 .s32)
  | .imad .. | .isad .. | .idot4 .. | .bool3 .. | .sel .. | .iclamp .. => some (vs .w32 .s32 .s32 .s32)
  | .imadw .. => some (vs .w64 .s32 .s32 .s64)
  | .iabs .. | .popc .. | .clz .. | .brev .. => some (vs .w32 .s32 .none .none)
  | .icmp .. => some (vs .bit .s32 .s32 .none)
  | .shl _ i | .shr _ i | .sar _ i | .rotl _ i => some (vs .w32 .s32 (immS i) .none)
  | .fshl _ _ i => some (vs .w32 .s32 .s32 (immS i))
  | .bfx _ _ i => some (vs .w32 .s32 (immS i) .none)
  | .bfi _ i => some (vs .w32 .s32 .s32 (immS i))
  | .mov _ w => some (if w then vs .w64 .s64 .none .none else vs .w32 .s32 .none .none)
  | .movi _ _ _ _ w => some ⟨if w then .w64 else .w32, .none, .none, .none, false, true⟩
  | .prmt _ i => some (vs .w32 .s32 .s32 (immS i))
  | .lea .. => some (vs .w64 .s64 .s32 .none)
  | .add64 .. | .sub64 .. => some (vs .w64 .s64 .s64 .none)
  | .cmp64 .. => some (vs .bit .s64 .s64 .none)
  | .shl64 _ i | .shr64 _ _ i => some (vs .w64 .s64 (immS i) .none)
  | .mad64 .. => some (vs .w64 .s64 .s32 .s32)
  | .fadd .. | .fsub .. | .fmul .. | .fmin .. | .fmax .. | .fscale .. => some (vs .w32 .s32 .s32 .none)
  | .ffma .. | .hfma2 .. => some (vs .w32 .s32 .s32 .s32)
  | .fcmp .. | .hcmp2 .. => some (vs .bit .s32 .s32 .none)
  | .fclass _ w _ => some (vs .w32 (if w then .s64 else .s32) .none .none)
  | .frint .. | .fexpnE .. | .fexpnM .. => some (vs .w32 .s32 .none .none)
  | .dadd .. | .dmul .. | .dmin .. | .dmax .. => some (vs .w64 .s64 .s64 .none)
  | .dfma .. => some (vs .w64 .s64 .s64 .s64)
  | .dcmp .. => some (vs .bit .s64 .s64 .none)
  | .hadd2 .. | .hmul2 .. | .hmin2 .. | .hmax2 .. => some (vs .w32 .s32 .s32 .none)
  | .rcp .. | .rsq .. | .sqrt .. | .ex2 .. | .lg2 .. | .sin .. | .cos .. | .tanh .. =>
    some (vs .w32 .s32 .none .none)
  | .drcp .. => some (vs .w64 .s64 .none .none)
  | .cvt _ _ ty sty _ =>
    some (vs (if ty = .f64 then .w64 else .w32) (if sty = .f64 then .s64 else .s32) .none .none)
  | .cvtscScale .. => some (vs .w32 .s32 .none .none)
  | .cvtsc .. | .pack2 .. => some (vs .w32 .s32 .s32 .none)
  | .pack4 .. => some (vs .w32 .s32 .s32 .s32)
  | .unpack .. => some (vs .w64 .s32 .none .none)
  | .sigrd .. => some (vs .w32 .s32 .none .none)
  | .sigwr .. => some (vs .w32 .s32 .s32 .none)
  | .sigmin .. => some ⟨.w32, .s32, .none, .none, true, false⟩
  | .nbr _ _ _ w _ => some (if w then xs .w64 .s64 .none else xs .w32n .s32n .none)
  | .shflIdx _ w => some (if w then xs .w64 .s64 .s32 else xs .w32n .s32n .s32)
  | .shflXor _ w _ => some (if w then xs .w64 .s64 .none else xs .w32n .s32n .none)
  | .voteBallot .. => some (xs .w64 .s32n .none)
  | .voteAny .. | .voteAll .. | .voteEq .. => some (xs .bit .s32n .none)
  | .red _ _ t | .scan _ _ t _ => some (if t = .f64 then xs .w64 .s64 .none else xs .w32n .s32n .none)
  | .matchLanes _ w => some (xs .w64 (if w then .s64 else .s32n) .none)
  | .ld _ z _ _ _ _ | .ldr _ z _ _ _ _ _ => some ⟨z.dst, .s64, .opt32, .hc, true, true⟩
  | .ldt _ z _ _ _ => some ⟨z.dstN, .s64, .opt32, .hc, true, true⟩
  | .ldw _ z _ _ _ => some ⟨z.dst, .s32n, .opt32, .hc, true, true⟩
  | .st _ z _ _ _ _ | .stt _ z _ _ _ => some ⟨.none, .s64, z.src, .hc, true, true⟩
  | .lds _ z _ _ => some ⟨z.dstN, .s32n, .opt32, .none, true, true⟩
  | .sts _ z _ => some ⟨.none, .s32n, z.src, .none, true, true⟩
  | .atom _ op t _ _ => some ⟨t.dst, .s64, t.src op true, .hc, true, true⟩
  | .atoms _ op t _ _ => some ⟨t.dst, .s32n, t.src op true, .hc, true, true⟩
  | .rld _ z _ _ _ _ => some ⟨z.dstN, .quad, .none, .hc, true, true⟩
  | .rst _ z _ _ _ _ => some ⟨.none, .quad, z.srcN, .hc, true, true⟩
  | .ratom _ op t _ _ => some ⟨t.dst, .quad, t.src op false, .hc, true, true⟩
  | .fenceTeam .. | .fencePair .. | .fenceDev .. | .fenceFab .. | .afence .. =>
    some ⟨.none, .none, .none, .none, true, false⟩
  | .icinv .. => some ⟨.none, .s64, .s32, .none, true, true⟩
  | .pref .. => some ⟨.none, .s64, .opt32, .none, true, true⟩
  | .spmarkFull .. | .spmarkEmpty .. => some ⟨.none, .s32n, .none, .none, true, true⟩
  | .wqenq .. => some ⟨.bit, .s32n, .quad, .none, true, true⟩
  | .wqdeq .. => some ⟨.quad, .s32n, .none, .none, true, true⟩
  | .cpyIn .. | .cpyOut .. => some (ks .none .s64 .s32n .s32n)
  | .cpytIn .. | .cpytOut .. => some (ks .none .none .rec24 .none)
  | .cpyg .. | .cpys .. => some (ks .none .none .rec8 .none)
  | .cpyfSp .. | .cpyw .. | .cpyc .. => some (ks .none .s32n .s32n .s32n)
  | .cpyfMem .. => some (ks .none .s32n .s64 .s32n)
  | .bsend .. | .brecv .. => some (ks .w32n .none .rec8 .none)
  | .bprobeSnd .. | .bprobeRcv .. => some (ks .w32n .s32n .none .none)
  | .bcancelSnd .. | .bcancelRcv .. => some (ks .none .s32n .none .none)
  | .mcfg .. | .mzero .. | .mfence .. => some (ks .none .none .none .none)
  | .mloft .. | .mloftw .. | .mscl .. => some (ks .none .s32n .none .s32n)
  | .mlofth .. => some (ks .none .none .rec24 .none)
  | .mma _ t _ _ _ _ => some (ks .none .frag (if t.scaled then .regln else .none) .s32n)
  | .mmas _ t _ _ _ _ => some (ks .none .s32n (if t.scaled then .s32n else .none) .s32n)
  | .mdrainReg .. => some (ks .frag .none .none .none)
  | .mdrainScratch _ _ t _ _ _ _ => some (ks .none .s32n (if t then .s32n else .none) .none)
  | .bra .. | .brp .. | .brany .. | .brall .. | .exit .. | .trap .. => some (cs .none .none true)
  | .brx .. => some (cs .s64 .none true)
  | .callx .. => some (cs .s64 .none false)
  | .call .. | .ret .. | .regang .. | .yield .. | .rte .. | .waitAll .. | .hkadjUp .. | .hkadjDn .. | .barw .. =>
    some (cs .none .none false)
  | .brsig .. => some (cs .reglnc .none true)
  | .loop .. => some (cs .s32n .s32n true)
  | .syscIcb .. => some (cs .s64 .s32n true)
  | .sysc .. => some ⟨.w32n, .s32n, .s32n, .none, true, false⟩
  | .wait .. | .sleepns .. | .waitns .. => some (cs .s32n .none false)
  | .bar .. | .bara .. => some (cs .none .opt32n false)
  | .knock .. => some ⟨.none, .s32n, .s32n, .s32n, false, false⟩
  | .csrr _ w _ => some ⟨if w then .w64 else .w32n, .none, .none, .none, true, false⟩
  | .csrw _ w _ => some (cs (if w then .s64 else .s32n) .none true)
  | .csrx _ w _ => some ⟨if w then .w64 else .w32n, if w then .s64 else .s32n, .none, .none, true, false⟩
  | _ => none

/-- The common fields of a syllable; movi and the nops are given theirs by R111 and R127. -/
def Instr.fields : Instr → Option Fields
  | .nopV g | .nopM g | .nopK g | .nopC g =>
    some ⟨.none, .none, .none, .none, false, false, false, .none, 0, false, false, g⟩
  | .movi d _ u g _ => some ⟨d, .none, .none, .none, false, false, false, .none, 0, false, u, g⟩
  | .iadd f _ _ | .isub f _ _ | .iaddc f _ _ _ _ | .imul f _ _ | .imulhi f _ | .imad f _ _ | .imadw f _
  | .imin f _ | .imax f _ | .iabs f _ | .isad f _ _ _ | .idot4 f _ _ _ | .icmp f _ _ _ _ | .bool3 f _
  | .shl f _ | .shr f _ | .sar f _ | .rotl f _ | .fshl f _ _ | .bfx f _ _ | .bfi f _ | .popc f | .clz f
  | .brev f | .sel f _ | .mov f _ | .prmt f _ | .iclamp f _ | .lea f _ _ _ | .add64 f _ _ | .sub64 f _ _
  | .cmp64 f _ _ _ _ | .shl64 f _ | .shr64 f _ _ | .mad64 f _ _ | .fadd f _ | .fsub f _ | .fmul f _
  | .ffma f _ _ _ | .fmin f _ _ | .fmax f _ _ | .fcmp f _ _ _ _ | .fclass f _ _ | .frint f _ _ | .fscale f _
  | .fexpnE f _ | .fexpnM f _ | .dadd f _ | .dmul f _ | .dfma f _ _ _ | .dcmp f _ _ _ _ | .dmin f _ _
  | .dmax f _ _ | .hadd2 f _ _ _ | .hmul2 f _ _ _ | .hfma2 f _ _ _ _ _ | .hcmp2 f _ _ _ _ | .hmin2 f _ _
  | .hmax2 f _ _ | .rcp f _ | .rsq f _ | .sqrt f _ | .ex2 f _ | .lg2 f _ | .sin f _ | .cos f _ | .tanh f _
  | .drcp f _ | .cvt f _ _ _ _ | .cvtscScale f _ | .cvtsc f _ | .pack2 f | .pack4 f _ | .unpack f _ _ _
  | .sigrd f | .sigwr f _ | .sigmin f | .nbr f _ _ _ _ | .shflIdx f _ | .shflXor f _ _ | .voteBallot f _
  | .voteAny f _ _ _ | .voteAll f _ _ _ | .voteEq f _ _ _ | .red f _ _ | .scan f _ _ _ | .matchLanes f _
  | .ld f _ _ _ _ _ | .st f _ _ _ _ _ | .ldr f _ _ _ _ _ _ | .lds f _ _ _ | .sts f _ _ | .ldt f _ _ _ _
  | .stt f _ _ _ _ | .ldw f _ _ _ _ | .atom f _ _ _ _ | .atoms f _ _ _ _ | .rld f _ _ _ _ _
  | .rst f _ _ _ _ _ | .ratom f _ _ _ _ | .fenceTeam f _ _ | .fencePair f _ _ | .fenceDev f _ _
  | .fenceFab f _ _ | .afence f _ _ | .icinv f _ | .pref f _ _ | .spmarkFull f _ | .spmarkEmpty f _
  | .wqenq f _ _ | .wqdeq f _ _ | .cpyIn f _ _ _ | .cpyOut f _ _ _ | .cpytIn f _ _ _ | .cpytOut f _ _ _
  | .cpyg f _ _ _ | .cpys f _ _ _ _ | .cpyfSp f _ _ | .cpyfMem f _ _ _ | .cpyw f _ _ | .cpyc f _ _
  | .bsend f _ | .brecv f _ | .bprobeSnd f _ | .bprobeRcv f _ | .bcancelSnd f _ | .bcancelRcv f _
  | .mcfg f _ _ _ _ _ | .mloft f _ _ _ | .mloftw f _ _ _ | .mlofth f _ _ | .mma f _ _ _ _ _
  | .mmas f _ _ _ _ _ | .mscl f _ _ _ | .mdrainReg f _ _ _ | .mdrainScratch f _ _ _ _ _ _ | .mzero f _ _
  | .mfence f _ | .bra f _ | .brx f | .call f _ | .callx f | .ret f | .brp f _ | .brany f _ | .brall f _
  | .brsig f _ _ | .regang f _ | .exit f | .yield f | .loop f _ _ | .trap f _ | .rte f | .syscIcb f _
  | .sysc f _ _ | .wait f _ | .waitAll f | .hkadjUp f _ _ | .hkadjDn f _ _ _ | .bar f _ _ | .bara f _ _
  | .barw f _ | .sleepns f | .waitns f | .knock f _ | .csrr f _ _ | .csrw f _ _ | .csrx f _ _ => some f
  | _ => none

/-- Whether the modifiers held in MOD take values the instruction defines (R126). -/
def Instr.modOk : Instr → Bool
  | .iadd _ sat uns | .isub _ sat uns | .imul _ sat uns | .imad _ sat uns => sat || !uns
  | .red _ op t | .scan _ op t _ => redOk op t
  | .ld _ z sx _ _ _ | .lds _ z sx _ | .ldw _ z sx _ _ | .rld _ z sx _ _ _ | .ldr _ z sx _ _ _ _ =>
    !sx || z == .b8 || z == .b16
  | .ldt _ z _ _ _ | .stt _ z _ _ _ => z != .b8 && z != .b16
  | .atom _ op t _ _ | .atoms _ op t _ _ | .ratom _ op t _ _ => aopTyOk op t
  | .cvt _ fr ty sty _ => !fr.ftz || ty == .f32 || ty == .f64 || sty == .f32 || sty == .f64
  | .mloft _ t _ _ | .mloftw _ t _ _ | .mma _ t _ _ _ _ | .mmas _ t _ _ _ _ => t.mclass.isSome
  | .mdrainScratch _ fmt t _ _ _ _ => !t || fmt == .e4m3 || fmt == .e2m1
  | .brsig _ thr _ => 1 ≤ thr && thr < 64
  | .loop _ s _ => s != 0
  | .csrr _ w c | .csrw _ w c | .csrx _ w c => w == c.wide
  | _ => true

/-- An immediate below a bound, or none. -/
def immOk (i : Option Nat) (n : Nat) : Bool := match i with | none => true | some v => v < n

/-- An immediate bit field (R188): pos below 32 and len at most 32, or none. -/
def fieldImmOk (i : Option (Nat × Nat)) : Bool := match i with | none => true | some (p, l) => p < 32 && l ≤ 32

/-- Whether the values held in X, XK, HOOK and HC lie in their ranges. -/
def Instr.xOk : Instr → Bool
  | .iaddc _ co _ k j => k < 32 && j < 32 && (co || j == 0)
  | .icmp _ _ _ _ j | .cmp64 _ _ _ _ j | .fcmp _ _ _ _ j | .dcmp _ _ _ _ j => j < 32
  | .hcmp2 _ _ _ _ j => j < 31
  | .shl _ i | .shr _ i | .sar _ i | .rotl _ i | .fshl _ _ i => immOk i 64
  | .shl64 _ i | .shr64 _ _ i => immOk i 128
  | .bfx _ _ i | .bfi _ i => fieldImmOk i
  | .sel _ k | .voteBallot _ k => k < 32
  | .voteAny _ k j _ | .voteAll _ k j _ | .voteEq _ k j _ => k < 32 && j < 32
  | .prmt _ i => immOk i 65536
  | .lea _ _ _ s => s < 8
  | .cvt _ _ ty sty i => cvtOk ty sty i
  | .cvtscScale _ dt | .cvtsc _ dt => dt == .e2m1 || dt == .e4m3 || dt == .e5m2
  | .unpack _ _ w k => match w with | .w16 => k == 0 | .w8 => k < 2 | .w4 => k < 4
  | .nbr _ _ _ _ k => 1 ≤ k && k < 64
  | .shflXor _ _ m => m < 64
  | .ld _ _ _ _ h _ | .ldt _ _ _ h _ | .stt _ _ _ h _ | .ldw _ _ _ h _ | .atom _ _ _ h _ | .atoms _ _ _ h _
  | .rld _ _ _ _ h _ | .ratom _ _ _ h _ => h < 16
  | .st _ _ _ rc h _ | .ldr _ _ _ _ rc h _ | .rst _ _ _ rc h _ => rc < 16 && h < 16
  | .fenceTeam _ _ h | .fencePair _ _ h | .fenceDev _ _ h | .fenceFab _ _ h | .afence _ _ h | .icinv _ h
  | .spmarkFull _ h | .spmarkEmpty _ h | .wqdeq _ _ h => h < 16
  | .wqenq f j h => j < 32 && h < 16 && (f.d != .none || j == 0)
  | .cpyIn _ _ _ h | .cpytIn _ _ _ h | .cpyg _ _ _ h | .cpyfSp _ _ h | .cpyw _ _ h | .cpyc _ _ h
  | .bsend _ h | .brecv _ h | .bprobeSnd _ h | .bprobeRcv _ h | .bcancelSnd _ h | .bcancelRcv _ h
  | .mfence _ h => h < 16
  | .cpyOut _ _ rc h | .cpytOut _ _ rc h | .cpyfMem _ _ rc h => rc < 16 && h < 16
  | .cpys _ ro _ rc h => rc < 16 && h < 16 && (ro == .none || rc == 0)
  | .mcfg _ _ t r c h => t < 8 && r < 8 && c < 8 && h < 16
  | .mloft _ _ l h | .mloftw _ _ l h | .mlofth _ l h | .mscl _ _ l h => l < 4 && h < 16
  | .mma _ _ t l r h | .mmas _ _ t l r h => t < 8 && l < 4 && r < 128 && h < 16
  | .mdrainReg _ t r h => t < 8 && r < 128 && h < 16
  | .mdrainScratch _ _ _ _ _ t h | .mzero _ t h => t < 8 && h < 16
  | .syscIcb _ h | .wait _ h | .knock _ h => h < 16
  | .sysc _ n h => 1 ≤ n && n < 256 && h < 16
  | .hkadjUp _ h n => h < 16 && 1 ≤ n && n < 64
  | .hkadjDn _ h n w => h < 16 && 1 ≤ n && n < 64 && immOk w 32
  | .bar _ _ k | .bara _ _ k | .barw _ k => k < 16
  | _ => true

/-- A last-use bit stands only on a field that names a register (R110, R125). -/
def luOk (lu : Bool) (o : Opnd) : Bool := !lu || (match o with | .reg _ => true | _ => false)

/-- Whether a field's operand is one of the operands of R116. -/
def Opnd.ok : Opnd → Bool
  | .reg n => n < 768
  | .ln n => n < 8
  | .hq n => n < 4
  | _ => true

/-- Whether a syllable names one hatch more than once as a source (R122). -/
def Fields.popsTwice (f : Fields) : Bool :=
  (isHatchNum f.a.num && (f.a == f.b || f.a == f.c)) || (isHatchNum f.b.num && f.b == f.c)

/-- Whether the operands of a syllable fit its shape, in a warp of `nreg` registers, and no hatch stands under U (R122). -/
def Fields.fits (f : Fields) (sh : Shape) (nreg : Nat) : Bool :=
  f.d.ok && f.a.ok && f.b.ok && f.c.ok && f.p.ok
    && (sh.d.bad nreg f.d.num).isNone && (sh.a.bad nreg f.a.num).isNone
    && (sh.b.bad nreg f.b.num).isNone && (if sh.c = .hc then f.c == .none else (sh.c.bad nreg f.c.num).isNone)
    && luOk f.lua f.a && luOk f.lub f.b && luOk f.luc f.c
    && predOk nreg f.p.num && (sh.pred || f.p == .none)
    && (if f.p = .none then f.pb == 0 && !f.pn else f.pb < 32)
    && (sh.uni || !f.u) && f.gap < 16
    && (!f.u || !(isHatchNum f.d.num || isHatchNum f.a.num || isHatchNum f.b.num || isHatchNum f.c.num))
    && !f.popsTwice

/-- Fragment and scale registers of mma carry no last-use bit (R325). -/
def Instr.luMma : Instr → Bool
  | .mma f _ _ _ _ _ => !f.lua && !f.lub
  | _ => true

/-- A syllable is well formed when its operands fit and its modifiers are defined. A device step is well formed. -/
def Instr.wf (i : Instr) : Bool :=
  match i.shape, i.fields with
  | some sh, some f => f.fits sh 768 && i.modOk && i.xOk && i.luMma
  | _, _ => true

end Sys2Proof
end

