-- ==== Sys2Proof/Decode.lean ====
section
/-! DEFINITION. Decoding of syllables and lines (R102 to R107, R110 to R134), total on any bits and refusing by cause and field,
and the encoder of well-formed syllables. -/

namespace Sys2Proof

/-- Bits [lo + w − 1 : lo] of a number. -/
def bits (n lo w : Nat) : Nat := n / 2 ^ lo % 2 ^ w

/-- An immediate, when its flag is set. -/
def optBits {α : Type} (present : Bool) (v : α) : Option α := if present then some v else none

/-- The code of an immediate bit field: pos at [4:0] and len at [10:5] (R188). -/
def posLen : Option (Nat × Nat) → Nat
  | some (p, l) => p + 32 * l
  | none => 0

def Rnd.code : Rnd → Nat
  | .rn => 0 | .rz => 1 | .rd => 2 | .ru => 3

def Rnd.ofCode : Nat → Rnd
  | 1 => .rz | 2 => .rd | 3 => .ru | _ => .rn

/-- MOD[3:0] of class FR (R21). -/
def Fr.code (f : Fr) : Nat := f.rnd.code + 4 * f.sat.toNat + 8 * f.ftz.toNat

def Fr.ofCode (m : Nat) : Fr := ⟨Rnd.ofCode (bits m 0 2), m.testBit 2, m.testBit 3⟩

/-- cc of R188. -/
def ICc.code : ICc → Nat
  | .eq => 0 | .ne => 1 | .lt => 2 | .le => 3 | .gt => 4 | .ge => 5

def ICc.ofCode : Nat → ICc
  | 1 => .ne | 2 => .lt | 3 => .le | 4 => .gt | 5 => .ge | _ => .eq

/-- cc of R206. -/
def FCc.code : FCc → Nat
  | .eq => 0 | .ne => 1 | .lt => 2 | .le => 3 | .gt => 4 | .ge => 5
  | .un => 6 | .ord => 7 | .ltu => 8 | .leu => 9 | .gtu => 10 | .geu => 11

def FCc.ofCode : Nat → FCc
  | 1 => .ne | 2 => .lt | 3 => .le | 4 => .gt | 5 => .ge
  | 6 => .un | 7 => .ord | 8 => .ltu | 9 => .leu | 10 => .gtu | 11 => .geu | _ => .eq

/-- cmb of R188. -/
def Cmb.code : Cmb → Nat
  | .set => 0 | .and => 1 | .or => 2

def Cmb.ofCode : Nat → Cmb
  | 1 => .and | 2 => .or | _ => .set

/-- ETYPE (R14). -/
def EType.code : EType → Nat
  | .s8 => 0 | .z8 => 1 | .s16 => 2 | .z16 => 3 | .s32 => 4 | .z32 => 5 | .f16 => 6 | .bf16 => 7
  | .f32 => 8 | .f64 => 9 | .e4m3 => 10 | .e5m2 => 11 | .e2m1 => 12 | .s4 => 13 | .sc8 => 14

def EType.ofCode : Nat → EType
  | 1 => .z8 | 2 => .s16 | 3 => .z16 | 4 => .s32 | 5 => .z32 | 6 => .f16 | 7 => .bf16
  | 8 => .f32 | 9 => .f64 | 10 => .e4m3 | 11 => .e5m2 | 12 => .e2m1 | 13 => .s4 | 14 => .sc8 | _ => .s8

/-- FILL of nbr (R229). -/
def NbrFill.code : NbrFill → Nat
  | .wrap => 0 | .zero => 1 | .chain => 2

def NbrFill.ofCode : Nat → NbrFill
  | 1 => .zero | 2 => .chain | _ => .wrap

/-- op of red and scan (R236). -/
def RedOp.code : RedOp → Nat
  | .add => 0 | .min => 1 | .max => 2 | .and => 3 | .or => 4 | .xor => 5 | .amax => 6

def RedOp.ofCode : Nat → RedOp
  | 1 => .min | 2 => .max | 3 => .and | 4 => .or | 5 => .xor | 6 => .amax | _ => .add

/-- type of red and scan (R236). -/
def RedTy.code : RedTy → Nat
  | .s32 => 0 | .z32 => 1 | .f32 => 2 | .f64 => 3

def RedTy.ofCode : Nat → RedTy
  | 1 => .z32 | 2 => .f32 | 3 => .f64 | _ => .s32

/-- SZ (R126). -/
def Sz.code : Sz → Nat
  | .b8 => 0 | .b16 => 1 | .b32 => 2 | .b64 => 3 | .b128 => 4

def Sz.ofCode : Nat → Sz
  | 1 => .b16 | 2 => .b32 | 3 => .b64 | 4 => .b128 | _ => .b8

/-- CA (R279, R289). -/
def Ca.code : Ca → Nat
  | .normal => 0 | .stream => 1 | .noL1 => 2

def Ca.ofCode : Nat → Ca
  | 1 => .stream | 2 => .noL1 | _ => .normal

/-- AOP (R291). -/
def AOp.code : AOp → Nat
  | .add => 0 | .min => 1 | .max => 2 | .and => 3 | .or => 4 | .xor => 5 | .exch => 6 | .cas => 7

def AOp.ofCode : Nat → AOp
  | 1 => .min | 2 => .max | 3 => .and | 4 => .or | 5 => .xor | 6 => .exch | 7 => .cas | _ => .add

/-- TYPE of atomics (R291). -/
def ATy.code : ATy → Nat
  | .s32 => 0 | .z32 => 1 | .f32 => 2 | .f64 => 3 | .s64 => 4 | .z64 => 5

def ATy.ofCode : Nat → ATy
  | 1 => .z32 | 2 => .f32 | 3 => .f64 | 4 => .s64 | 5 => .z64 | _ => .s32

/-- RED of cpys (R304). -/
def CpysRed.code : CpysRed → Nat
  | .none => 0 | .addf => 1 | .addi => 2

def CpysRed.ofCode : Nat → CpysRed
  | 1 => .addf | 2 => .addi | _ => .none

/-- WID of unpack (R206). -/
def UnpW.code : UnpW → Nat
  | .w16 => 0 | .w8 => 1 | .w4 => 2

def UnpW.ofCode : Nat → UnpW
  | 1 => .w8 | 2 => .w4 | _ => .w16

/-- FMT of a scratchpad drain (R326). -/
def DrFmt.code : DrFmt → Nat
  | .raw => 1 | .bf16 => 2 | .e4m3 => 3 | .e2m1 => 4

def DrFmt.ofCode : Nat → DrFmt
  | 2 => .bf16 | 3 => .e4m3 | 4 => .e2m1 | _ => .raw

/-- A direct target in X (R167). -/
def Target.code (t : Target) : Nat := t.sidx.toNat + 8 * t.ldisp.toNat

def Target.ofCode (x : Nat) : Target := ⟨BitVec.ofNat 13 (bits x 3 13), BitVec.ofNat 3 (bits x 0 3)⟩

/-- The number of a control register (R417). -/
def Csr.num : Csr → Nat
  | .fpsr => 0x000 | .fpte => 0x001 | .sigthr => 0x002 | .shbase => 0x003 | .memst => 0x004 | .wct => 0x005
  | .wqbind => 0x006 | .refwin => 0x007 | .wdog => 0x008 | .islhint => 0x009 | .trcause => 0x010 | .trpc => 0x011
  | .trlanes => 0x012 | .trdst => 0x013 | .trval => 0x014 | .trhand => 0x015 | .trdel => 0x016 | .trstat => 0x017
  | .syshand => 0x018 | .trsav0 => 0x01C | .trsav1 => 0x01D | .trsav2 => 0x01E | .trsav3 => 0x01F

def Csr.ofNum : Nat → Csr
  | 0x001 => .fpte | 0x002 => .sigthr | 0x003 => .shbase | 0x004 => .memst | 0x005 => .wct
  | 0x006 => .wqbind | 0x007 => .refwin | 0x008 => .wdog | 0x009 => .islhint | 0x010 => .trcause | 0x011 => .trpc
  | 0x012 => .trlanes | 0x013 => .trdst | 0x014 => .trval | 0x015 => .trhand | 0x016 => .trdel | 0x017 => .trstat
  | 0x018 => .syshand | 0x01C => .trsav0 | 0x01D => .trsav1 | 0x01E => .trsav2 | 0x01F => .trsav3 | _ => .fpsr

/-- The fields of a syllable as numbers (R110). -/
structure Raw where
  slot : Nat
  op : Nat
  d : Nat
  a : Nat
  b : Nat
  c : Nat
  lua : Bool
  lub : Bool
  luc : Bool
  p : Nat
  pb : Nat
  pn : Bool
  u : Bool
  gap : Nat
  mod : Nat
  x : Nat
  imm : Nat      -- IMM of R111
  ilua : Bool    -- LUA of R111
  irsv : Nat     -- the reserved bits of R111
deriving DecidableEq, Repr

/-- The fields of a 96-bit syllable (R110, R111). -/
def Raw.ofWord (w : Nat) : Raw where
  x := bits w 0 16
  mod := bits w 16 6
  gap := bits w 22 4
  u := w.testBit 26
  pn := w.testBit 27
  pb := bits w 28 5
  p := bits w 33 10
  luc := w.testBit 43
  lub := w.testBit 44
  lua := w.testBit 45
  c := bits w 46 10
  b := bits w 56 10
  a := bits w 66 10
  d := bits w 76 10
  op := bits w 86 8
  slot := bits w 94 2
  irsv := bits w 27 6
  ilua := w.testBit 33
  imm := bits w 34 32

/-- An operand of a field; the numbers that name none are refused by `Raw.faults`. -/
def opndOf (n : Nat) : Opnd := (Opnd.ofNum n).getD .none

/-- The common fields of a syllable. -/
def Raw.fields (r : Raw) : Fields where
  d := opndOf r.d
  a := opndOf r.a
  b := opndOf r.b
  c := opndOf r.c
  lua := r.lua
  lub := r.lub
  luc := r.luc
  p := opndOf r.p
  pb := r.pb
  pn := r.pn
  u := r.u
  gap := r.gap

/-- What an instruction puts in SLOT, OP, MOD, X and, where C is not an operand, HC. -/
structure Enc where
  slot : Nat
  op : Nat
  mod : Nat
  x : Nat
  hc : Option Nat
deriving DecidableEq, Repr

/-- The encoding of each syllable (R127, R128 to R131, R169, R188, R205, R229, R279, R281, R304, R326, R355, R364, R392,
R414); device steps have none. -/
def Instr.enc : Instr → Option Enc
  | .nopV _ => some ⟨0, 0, 0, 0, none⟩
  | .nopM _ => some ⟨1, 0, 0, 0, none⟩
  | .nopK _ => some ⟨2, 0, 0, 0, none⟩
  | .nopC _ => some ⟨3, 0, 0, 0, none⟩
  | .movi _ _ _ _ w => some ⟨0, 0x1B, 4 * Bool.toNat w, 0, none⟩
  | .iadd _ sat uns => some ⟨0, 0x01, Bool.toNat sat + 2 * Bool.toNat uns, 0, none⟩
  | .isub _ sat uns => some ⟨0, 0x02, Bool.toNat sat + 2 * Bool.toNat uns, 0, none⟩
  | .imul _ sat uns => some ⟨0, 0x04, Bool.toNat sat + 2 * Bool.toNat uns, 0, none⟩
  | .imad _ sat uns => some ⟨0, 0x06, Bool.toNat sat + 2 * Bool.toNat uns, 0, none⟩
  | .iaddc _ co sb k j => some ⟨0, 0x03, 4 * Bool.toNat co + 8 * Bool.toNat sb, k + 32 * j, none⟩
  | .imulhi _ uns => some ⟨0, 0x05, 2 * Bool.toNat uns, 0, none⟩
  | .imadw _ uns => some ⟨0, 0x07, 2 * Bool.toNat uns, 0, none⟩
  | .imin _ uns => some ⟨0, 0x08, 2 * Bool.toNat uns, 0, none⟩
  | .imax _ uns => some ⟨0, 0x09, 2 * Bool.toNat uns, 0, none⟩
  | .iabs _ sat => some ⟨0, 0x0A, Bool.toNat sat, 0, none⟩
  | .isad _ h sat uns => some ⟨0, 0x0B, Bool.toNat sat + 2 * Bool.toNat uns + 4 * Bool.toNat h, 0, none⟩
  | .idot4 _ au bu sat => some ⟨0, 0x0C, Bool.toNat sat + 4 * Bool.toNat au + 8 * Bool.toNat bu, 0, none⟩
  | .icmp _ cc cmb uns j => some ⟨0, 0x0D, 2 * Bool.toNat uns + 4 * cc.code, 32 * j + 1024 * cmb.code, none⟩
  | .bool3 _ t => some ⟨0, 0x0E, 0, t.toNat, none⟩
  | .shl _ i => some ⟨0, 0x0F, 4 * Bool.toNat i.isSome, i.getD 0, none⟩
  | .shr _ i => some ⟨0, 0x10, 4 * Bool.toNat i.isSome, i.getD 0, none⟩
  | .sar _ i => some ⟨0, 0x11, 4 * Bool.toNat i.isSome, i.getD 0, none⟩
  | .rotl _ i => some ⟨0, 0x12, 4 * Bool.toNat i.isSome, i.getD 0, none⟩
  | .fshl _ rt i => some ⟨0, 0x13, 4 * Bool.toNat i.isSome + 8 * Bool.toNat rt, i.getD 0, none⟩
  | .bfx _ uns i => some ⟨0, 0x14, 2 * Bool.toNat uns + 4 * Bool.toNat i.isSome, posLen i, none⟩
  | .bfi _ i => some ⟨0, 0x15, 4 * Bool.toNat i.isSome, posLen i, none⟩
  | .popc _ => some ⟨0, 0x16, 0, 0, none⟩
  | .clz _ => some ⟨0, 0x17, 0, 0, none⟩
  | .brev _ => some ⟨0, 0x18, 0, 0, none⟩
  | .sel _ k => some ⟨0, 0x19, 0, k, none⟩
  | .mov _ w => some ⟨0, 0x1A, 4 * Bool.toNat w, 0, none⟩
  | .prmt _ i => some ⟨0, 0x1C, 4 * Bool.toNat i.isSome, i.getD 0, none⟩
  | .iclamp _ uns => some ⟨0, 0x1D, 2 * Bool.toNat uns, 0, none⟩
  | .lea _ uns chk s => some ⟨0, 0x20, 2 * Bool.toNat uns + 4 * Bool.toNat chk, s, none⟩
  | .add64 _ uns chk => some ⟨0, 0x21, 2 * Bool.toNat uns + 4 * Bool.toNat chk, 0, none⟩
  | .sub64 _ uns chk => some ⟨0, 0x22, 2 * Bool.toNat uns + 4 * Bool.toNat chk, 0, none⟩
  | .mad64 _ uns chk => some ⟨0, 0x26, 2 * Bool.toNat uns + 4 * Bool.toNat chk, 0, none⟩
  | .cmp64 _ cc cmb uns j => some ⟨0, 0x23, 2 * Bool.toNat uns + 4 * cc.code, 32 * j + 1024 * cmb.code, none⟩
  | .shl64 _ i => some ⟨0, 0x24, 4 * Bool.toNat i.isSome, i.getD 0, none⟩
  | .shr64 _ ar i => some ⟨0, 0x25, 4 * Bool.toNat i.isSome + 8 * Bool.toNat ar, i.getD 0, none⟩
  | .fadd _ fr => some ⟨0, 0x40, fr.code, 0, none⟩
  | .fsub _ fr => some ⟨0, 0x41, fr.code, 0, none⟩
  | .fmul _ fr => some ⟨0, 0x42, fr.code, 0, none⟩
  | .fscale _ fr => some ⟨0, 0x49, fr.code, 0, none⟩
  | .dadd _ fr => some ⟨0, 0x50, fr.code, 0, none⟩
  | .dmul _ fr => some ⟨0, 0x51, fr.code, 0, none⟩
  | .ffma _ fr np nc => some ⟨0, 0x43, fr.code + 16 * Bool.toNat np + 32 * Bool.toNat nc, 0, none⟩
  | .dfma _ fr np nc => some ⟨0, 0x52, fr.code + 16 * Bool.toNat np + 32 * Bool.toNat nc, 0, none⟩
  | .fmin _ num ftz => some ⟨0, 0x44, 8 * Bool.toNat ftz + 16 * Bool.toNat num, 0, none⟩
  | .fmax _ num ftz => some ⟨0, 0x45, 8 * Bool.toNat ftz + 16 * Bool.toNat num, 0, none⟩
  | .dmin _ num ftz => some ⟨0, 0x54, 8 * Bool.toNat ftz + 16 * Bool.toNat num, 0, none⟩
  | .dmax _ num ftz => some ⟨0, 0x55, 8 * Bool.toNat ftz + 16 * Bool.toNat num, 0, none⟩
  | .fcmp _ cc cmb ftz j => some ⟨0, 0x46, 8 * Bool.toNat ftz, cc.code + 32 * j + 1024 * cmb.code, none⟩
  | .dcmp _ cc cmb ftz j => some ⟨0, 0x53, 8 * Bool.toNat ftz, cc.code + 32 * j + 1024 * cmb.code, none⟩
  | .fclass _ w ftz => some ⟨0, 0x47, 8 * Bool.toNat ftz + 16 * Bool.toNat w, 0, none⟩
  | .frint _ fr ex => some ⟨0, 0x48, fr.code + 16 * Bool.toNat ex, 0, none⟩
  | .fexpnE _ ftz => some ⟨0, 0x4A, 8 * Bool.toNat ftz, 0, none⟩
  | .fexpnM _ ftz => some ⟨0, 0x4A, 8 * Bool.toNat ftz + 16, 0, none⟩
  | .hadd2 _ rnd sat bf => some ⟨0, 0x58, rnd.code + 4 * Bool.toNat sat, 16 * Bool.toNat bf, none⟩
  | .hmul2 _ rnd sat bf => some ⟨0, 0x59, rnd.code + 4 * Bool.toNat sat, 16 * Bool.toNat bf, none⟩
  | .hfma2 _ rnd sat bf np nc => some ⟨0, 0x5A, rnd.code + 4 * Bool.toNat sat + 16 * Bool.toNat np + 32 * Bool.toNat nc, 16 * Bool.toNat bf, none⟩
  | .hcmp2 _ cc cmb bf j => some ⟨0, 0x5B, 0, cc.code + 16 * Bool.toNat bf + 32 * j + 1024 * cmb.code, none⟩
  | .hmin2 _ bf num => some ⟨0, 0x5C, 16 * Bool.toNat num, 16 * Bool.toNat bf, none⟩
  | .hmax2 _ bf num => some ⟨0, 0x5D, 16 * Bool.toNat num, 16 * Bool.toNat bf, none⟩
  | .rcp _ ftz => some ⟨0, 0x60, 8 * Bool.toNat ftz, 0, none⟩
  | .rsq _ ftz => some ⟨0, 0x61, 8 * Bool.toNat ftz, 0, none⟩
  | .sqrt _ ftz => some ⟨0, 0x62, 8 * Bool.toNat ftz, 0, none⟩
  | .ex2 _ ftz => some ⟨0, 0x63, 8 * Bool.toNat ftz, 0, none⟩
  | .lg2 _ ftz => some ⟨0, 0x64, 8 * Bool.toNat ftz, 0, none⟩
  | .sin _ ftz => some ⟨0, 0x65, 8 * Bool.toNat ftz, 0, none⟩
  | .cos _ ftz => some ⟨0, 0x66, 8 * Bool.toNat ftz, 0, none⟩
  | .tanh _ ftz => some ⟨0, 0x67, 8 * Bool.toNat ftz, 0, none⟩
  | .drcp _ ftz => some ⟨0, 0x68, 8 * Bool.toNat ftz, 0, none⟩
  | .cvt _ fr dt ty i => some ⟨0, 0x70, fr.code, ty.code + 16 * dt.code + 256 * i, none⟩
  | .cvtscScale _ dt => some ⟨0, 0x71, 1, 16 * dt.code, none⟩
  | .cvtsc _ dt => some ⟨0, 0x71, 0, 16 * dt.code, none⟩
  | .pack2 _ => some ⟨0, 0x72, 0, 0, none⟩
  | .pack4 _ nib => some ⟨0, 0x73, Bool.toNat nib, 0, none⟩
  | .unpack _ sx wid k => some ⟨0, 0x74, Bool.toNat sx, wid.code + 4 * k, none⟩
  | .sigrd _ => some ⟨0, 0x78, 0, 0, none⟩
  | .sigwr _ low => some ⟨0, 0x79, Bool.toNat low, 0, none⟩
  | .sigmin _ => some ⟨0, 0x7A, 0, 0, none⟩
  | .nbr _ fill dn w k => some ⟨0, 0x80, fill.code + 4 * Bool.toNat dn + 8 * Bool.toNat w, k, none⟩
  | .shflIdx _ w => some ⟨0, 0x81, 8 * Bool.toNat w, 0, none⟩
  | .shflXor _ w k => some ⟨0, 0x81, 1 + 8 * Bool.toNat w, k, none⟩
  | .voteBallot _ k => some ⟨0, 0x82, 0, k, none⟩
  | .voteAny _ k j cmb => some ⟨0, 0x82, 1, k + 32 * j + 1024 * cmb.code, none⟩
  | .voteAll _ k j cmb => some ⟨0, 0x82, 2, k + 32 * j + 1024 * cmb.code, none⟩
  | .voteEq _ k j cmb => some ⟨0, 0x82, 3, k + 32 * j + 1024 * cmb.code, none⟩
  | .red _ op ty => some ⟨0, 0x83, op.code + 8 * ty.code, 0, none⟩
  | .scan _ op ty ex => some ⟨0, 0x84, op.code + 8 * ty.code, Bool.toNat ex, none⟩
  | .matchLanes _ w => some ⟨0, 0x85, 8 * Bool.toNat w, 0, none⟩
  | .ld _ z sx stm k off => some ⟨1, 0x01, z.code + 8 * Bool.toNat sx + 16 * Bool.toNat stm, off.toNat, some (k)⟩
  | .st _ z stm rc k off => some ⟨1, 0x02, z.code + 16 * Bool.toNat stm, off.toNat, some (k + 16 * rc)⟩
  | .ldr _ z sx ca rc k off => some ⟨1, 0x03, z.code + 8 * Bool.toNat sx + 16 * ca.code, off.toNat, some (k + 16 * rc)⟩
  | .lds _ z sx off => some ⟨1, 0x04, z.code + 8 * Bool.toNat sx, off.toNat, none⟩
  | .sts _ z off => some ⟨1, 0x05, z.code, off.toNat, none⟩
  | .ldt _ z stm k off => some ⟨1, 0x06, z.code + 16 * Bool.toNat stm, off.toNat, some (k)⟩
  | .stt _ z stm k off => some ⟨1, 0x07, z.code + 16 * Bool.toNat stm, off.toNat, some (k)⟩
  | .ldw _ z sx k off => some ⟨1, 0x08, z.code + 8 * Bool.toNat sx, off.toNat, some (k)⟩
  | .atom _ op ty k off => some ⟨1, 0x09, op.code + 8 * ty.code, off.toNat, some (k)⟩
  | .atoms _ op ty k off => some ⟨1, 0x0A, op.code + 8 * ty.code, off.toNat, some (k)⟩
  | .rld _ z sx stm k off => some ⟨1, 0x0B, z.code + 8 * Bool.toNat sx + 16 * Bool.toNat stm, off.toNat, some (k)⟩
  | .rst _ z stm rc k off => some ⟨1, 0x0C, z.code + 16 * Bool.toNat stm, off.toNat, some (k + 16 * rc)⟩
  | .ratom _ op ty k off => some ⟨1, 0x0D, op.code + 8 * ty.code, off.toNat, some (k)⟩
  | .fenceTeam _ hold k => some ⟨1, 0x0E, 4 * Bool.toNat hold, k, none⟩
  | .fencePair _ hold k => some ⟨1, 0x0E, 1 + 4 * Bool.toNat hold, k, none⟩
  | .fenceDev _ hold k => some ⟨1, 0x0E, 2 + 4 * Bool.toNat hold, k, none⟩
  | .fenceFab _ hold k => some ⟨1, 0x0E, 3 + 4 * Bool.toNat hold, k, none⟩
  | .afence _ hold k => some ⟨1, 0x0F, 4 * Bool.toNat hold, k, none⟩
  | .icinv _ k => some ⟨1, 0x10, 0, k, none⟩
  | .pref _ ca off => some ⟨1, 0x11, 16 * ca.code, off.toNat, none⟩
  | .spmarkEmpty _ k => some ⟨1, 0x12, 0, k, none⟩
  | .spmarkFull _ k => some ⟨1, 0x12, 1, k, none⟩
  | .wqenq _ j k => some ⟨1, 0x14, 0, k + 16 * j, none⟩
  | .wqdeq _ poll k => some ⟨1, 0x15, Bool.toNat poll, k, none⟩
  | .cpyIn _ em stm k => some ⟨2, 0x01, 2 * Bool.toNat em + 4 * Bool.toNat stm, k, none⟩
  | .cpyOut _ stm rc k => some ⟨2, 0x01, 1 + 4 * Bool.toNat stm, k + 16 * rc, none⟩
  | .cpytIn _ em stm k => some ⟨2, 0x02, 2 * Bool.toNat em + 4 * Bool.toNat stm, k, none⟩
  | .cpytOut _ stm rc k => some ⟨2, 0x02, 1 + 4 * Bool.toNat stm, k + 16 * rc, none⟩
  | .cpyg _ em stm k => some ⟨2, 0x03, 2 * Bool.toNat em + 4 * Bool.toNat stm, k, none⟩
  | .cpys _ ro stm rc k => some ⟨2, 0x04, 4 * Bool.toNat stm + 16 * ro.code, k + 16 * rc, none⟩
  | .cpyfSp _ em k => some ⟨2, 0x05, 2 * Bool.toNat em, k, none⟩
  | .cpyfMem _ stm rc k => some ⟨2, 0x05, 1 + 4 * Bool.toNat stm, k + 16 * rc, none⟩
  | .cpyw _ em k => some ⟨2, 0x06, 2 * Bool.toNat em, k, none⟩
  | .cpyc _ em k => some ⟨2, 0x07, 2 * Bool.toNat em, k, none⟩
  | .bsend _ k => some ⟨2, 0x10, 0, k, none⟩
  | .brecv _ k => some ⟨2, 0x11, 0, k, none⟩
  | .bprobeSnd _ k => some ⟨2, 0x12, 0, k, none⟩
  | .bprobeRcv _ k => some ⟨2, 0x12, 1, k, none⟩
  | .bcancelSnd _ k => some ⟨2, 0x13, 0, k, none⟩
  | .bcancelRcv _ k => some ⟨2, 0x13, 1, k, none⟩
  | .mcfg _ s32 t rc cc k => some ⟨2, 0x20, Bool.toNat s32, k + 16 * t + 128 * rc + 1024 * cc, none⟩
  | .mloft _ ty l k => some ⟨2, 0x21, ty.code, k + 128 * l, none⟩
  | .mloftw _ ty l k => some ⟨2, 0x22, ty.code, k + 128 * l, none⟩
  | .mlofth _ l k => some ⟨2, 0x23, 0, k + 128 * l, none⟩
  | .mma _ ty t l r0 k => some ⟨2, 0x24, ty.code, k + 16 * t + 128 * l + 512 * r0, none⟩
  | .mmas _ ty t l r0 k => some ⟨2, 0x25, ty.code, k + 16 * t + 128 * l + 512 * r0, none⟩
  | .mscl _ cl l k => some ⟨2, 0x26, 16 * Bool.toNat cl, k + 128 * l, none⟩
  | .mdrainReg _ t r0 k => some ⟨2, 0x27, 0, k + 16 * t + 512 * r0, none⟩
  | .mdrainScratch _ fmt tr z em t k => some ⟨2, 0x27, fmt.code + 8 * Bool.toNat tr + 16 * Bool.toNat z + 32 * Bool.toNat em, k + 16 * t, none⟩
  | .mzero _ t k => some ⟨2, 0x28, 0, k + 16 * t, none⟩
  | .mfence _ k => some ⟨2, 0x29, 0, k, none⟩
  | .bra _ t => some ⟨3, 0x01, 0, t.code, none⟩
  | .call _ t => some ⟨3, 0x03, 0, t.code, none⟩
  | .brp _ t => some ⟨3, 0x06, 0, t.code, none⟩
  | .brany _ t => some ⟨3, 0x07, 0, t.code, none⟩
  | .brall _ t => some ⟨3, 0x08, 0, t.code, none⟩
  | .regang _ t => some ⟨3, 0x0A, 0, t.code, none⟩
  | .brx _ => some ⟨3, 0x02, 0, 0, none⟩
  | .callx _ => some ⟨3, 0x04, 0, 0, none⟩
  | .ret _ => some ⟨3, 0x05, 0, 0, none⟩
  | .exit _ => some ⟨3, 0x0B, 0, 0, none⟩
  | .yield _ => some ⟨3, 0x0F, 0, 0, none⟩
  | .rte _ => some ⟨3, 0x0D, 0, 0, none⟩
  | .sleepns _ => some ⟨3, 0x15, 0, 0, none⟩
  | .waitns _ => some ⟨3, 0x16, 0, 0, none⟩
  | .brsig _ thr t => some ⟨3, 0x09, thr, t.code, none⟩
  | .trap _ n => some ⟨3, 0x0C, 0, n.toNat, none⟩
  | .syscIcb _ k => some ⟨3, 0x0E, 0, 256 * k, none⟩
  | .sysc _ n k => some ⟨3, 0x0E, 0, n + 256 * k, none⟩
  | .wait _ k => some ⟨3, 0x10, 0, k, none⟩
  | .waitAll _ => some ⟨3, 0x10, 1, 0, none⟩
  | .hkadjUp _ k n => some ⟨3, 0x11, 0, k + 16 * n, none⟩
  | .hkadjDn _ k n w => some ⟨3, 0x11, 1 + 2 * Bool.toNat w.isSome, k + 16 * n + 1024 * w.getD 0, none⟩
  | .bar _ dr k => some ⟨3, 0x12, Bool.toNat dr, k, none⟩
  | .bara _ dr k => some ⟨3, 0x13, Bool.toNat dr, k, none⟩
  | .barw _ k => some ⟨3, 0x14, 0, k, none⟩
  | .knock _ k => some ⟨3, 0x17, 0, k, none⟩
  | .csrr _ w c => some ⟨3, 0x18, Bool.toNat w, c.num, none⟩
  | .csrw _ w c => some ⟨3, 0x19, Bool.toNat w, c.num, none⟩
  | .csrx _ w c => some ⟨3, 0x1A, Bool.toNat w, c.num, none⟩
  | .loop _ s t => some ⟨3, 0x1B, s.toNat, t.code, none⟩
  | _ => none

/-- The V-slot instruction of an opcode and its fields; codes that name no value read as the first one, and the comparison
of the encodings refuses them. -/
def buildV (op : Nat) (r : Raw) : Option Instr :=
  let f := r.fields
  let m := r.mod
  let x := r.x
  match op with
  | 0x00 => some (.nopV r.gap)
  | 0x01 => some (.iadd f (m.testBit 0) (m.testBit 1))
  | 0x02 => some (.isub f (m.testBit 0) (m.testBit 1))
  | 0x03 => some (.iaddc f (m.testBit 2) (m.testBit 3) (bits x 0 5) (bits x 5 5))
  | 0x04 => some (.imul f (m.testBit 0) (m.testBit 1))
  | 0x05 => some (.imulhi f (m.testBit 1))
  | 0x06 => some (.imad f (m.testBit 0) (m.testBit 1))
  | 0x07 => some (.imadw f (m.testBit 1))
  | 0x08 => some (.imin f (m.testBit 1))
  | 0x09 => some (.imax f (m.testBit 1))
  | 0x0A => some (.iabs f (m.testBit 0))
  | 0x0B => some (.isad f (m.testBit 2) (m.testBit 0) (m.testBit 1))
  | 0x0C => some (.idot4 f (m.testBit 2) (m.testBit 3) (m.testBit 0))
  | 0x0D => some (.icmp f (ICc.ofCode (bits m 2 3)) (Cmb.ofCode (bits x 10 2)) (m.testBit 1) (bits x 5 5))
  | 0x0E => some (.bool3 f (BitVec.ofNat 8 (bits x 0 8)))
  | 0x0F => some (.shl f (optBits (m.testBit 2) (bits x 0 6)))
  | 0x10 => some (.shr f (optBits (m.testBit 2) (bits x 0 6)))
  | 0x11 => some (.sar f (optBits (m.testBit 2) (bits x 0 6)))
  | 0x12 => some (.rotl f (optBits (m.testBit 2) (bits x 0 6)))
  | 0x13 => some (.fshl f (m.testBit 3) (optBits (m.testBit 2) (bits x 0 6)))
  | 0x14 => some (.bfx f (m.testBit 1) (optBits (m.testBit 2) (bits x 0 5, bits x 5 6)))
  | 0x15 => some (.bfi f (optBits (m.testBit 2) (bits x 0 5, bits x 5 6)))
  | 0x16 => some (.popc f)
  | 0x17 => some (.clz f)
  | 0x18 => some (.brev f)
  | 0x19 => some (.sel f (bits x 0 5))
  | 0x1A => some (.mov f (m.testBit 2))
  | 0x1B => some (.movi f.d (BitVec.ofNat 32 r.imm) r.u r.gap (m.testBit 2))
  | 0x1C => some (.prmt f (optBits (m.testBit 2) x))
  | 0x1D => some (.iclamp f (m.testBit 1))
  | 0x20 => some (.lea f (m.testBit 1) (m.testBit 2) (bits x 0 3))
  | 0x21 => some (.add64 f (m.testBit 1) (m.testBit 2))
  | 0x22 => some (.sub64 f (m.testBit 1) (m.testBit 2))
  | 0x23 => some (.cmp64 f (ICc.ofCode (bits m 2 3)) (Cmb.ofCode (bits x 10 2)) (m.testBit 1) (bits x 5 5))
  | 0x24 => some (.shl64 f (optBits (m.testBit 2) (bits x 0 7)))
  | 0x25 => some (.shr64 f (m.testBit 3) (optBits (m.testBit 2) (bits x 0 7)))
  | 0x26 => some (.mad64 f (m.testBit 1) (m.testBit 2))
  | 0x40 => some (.fadd f (Fr.ofCode m))
  | 0x41 => some (.fsub f (Fr.ofCode m))
  | 0x42 => some (.fmul f (Fr.ofCode m))
  | 0x43 => some (.ffma f (Fr.ofCode m) (m.testBit 4) (m.testBit 5))
  | 0x44 => some (.fmin f (m.testBit 4) (m.testBit 3))
  | 0x45 => some (.fmax f (m.testBit 4) (m.testBit 3))
  | 0x46 => some (.fcmp f (FCc.ofCode (bits x 0 4)) (Cmb.ofCode (bits x 10 2)) (m.testBit 3) (bits x 5 5))
  | 0x47 => some (.fclass f (m.testBit 4) (m.testBit 3))
  | 0x48 => some (.frint f (Fr.ofCode m) (m.testBit 4))
  | 0x49 => some (.fscale f (Fr.ofCode m))
  | 0x4A => some (if !m.testBit 4 then .fexpnE f (m.testBit 3) else .fexpnM f (m.testBit 3))
  | 0x50 => some (.dadd f (Fr.ofCode m))
  | 0x51 => some (.dmul f (Fr.ofCode m))
  | 0x52 => some (.dfma f (Fr.ofCode m) (m.testBit 4) (m.testBit 5))
  | 0x53 => some (.dcmp f (FCc.ofCode (bits x 0 4)) (Cmb.ofCode (bits x 10 2)) (m.testBit 3) (bits x 5 5))
  | 0x54 => some (.dmin f (m.testBit 4) (m.testBit 3))
  | 0x55 => some (.dmax f (m.testBit 4) (m.testBit 3))
  | 0x58 => some (.hadd2 f (Rnd.ofCode (bits m 0 2)) (m.testBit 2) (x.testBit 4))
  | 0x59 => some (.hmul2 f (Rnd.ofCode (bits m 0 2)) (m.testBit 2) (x.testBit 4))
  | 0x5A => some (.hfma2 f (Rnd.ofCode (bits m 0 2)) (m.testBit 2) (x.testBit 4) (m.testBit 4) (m.testBit 5))
  | 0x5B => some (.hcmp2 f (FCc.ofCode (bits x 0 4)) (Cmb.ofCode (bits x 10 2)) (x.testBit 4) (bits x 5 5))
  | 0x5C => some (.hmin2 f (x.testBit 4) (m.testBit 4))
  | 0x5D => some (.hmax2 f (x.testBit 4) (m.testBit 4))
  | 0x60 => some (.rcp f (m.testBit 3))
  | 0x61 => some (.rsq f (m.testBit 3))
  | 0x62 => some (.sqrt f (m.testBit 3))
  | 0x63 => some (.ex2 f (m.testBit 3))
  | 0x64 => some (.lg2 f (m.testBit 3))
  | 0x65 => some (.sin f (m.testBit 3))
  | 0x66 => some (.cos f (m.testBit 3))
  | 0x67 => some (.tanh f (m.testBit 3))
  | 0x68 => some (.drcp f (m.testBit 3))
  | 0x70 => some (.cvt f (Fr.ofCode m) (EType.ofCode (bits x 4 4)) (EType.ofCode (bits x 0 4)) (bits x 8 4))
  | 0x71 => some (if m.testBit 0 then .cvtscScale f (EType.ofCode (bits x 4 4)) else .cvtsc f (EType.ofCode (bits x 4 4)))
  | 0x72 => some (.pack2 f)
  | 0x73 => some (.pack4 f (m.testBit 0))
  | 0x74 => some (.unpack f (m.testBit 0) (UnpW.ofCode (bits x 0 2)) (bits x 2 2))
  | 0x78 => some (.sigrd f)
  | 0x79 => some (.sigwr f (m.testBit 0))
  | 0x7A => some (.sigmin f)
  | 0x80 => some (.nbr f (NbrFill.ofCode (bits m 0 2)) (m.testBit 2) (m.testBit 3) (bits x 0 6))
  | 0x81 => some (if !m.testBit 0 then .shflIdx f (m.testBit 3) else .shflXor f (m.testBit 3) (bits x 0 6))
  | 0x82 => some (
    if bits m 0 2 == 0 then .voteBallot f (bits x 0 5)
    else if bits m 0 2 == 1 then .voteAny f (bits x 0 5) (bits x 5 5) (Cmb.ofCode (bits x 10 2))
    else if bits m 0 2 == 2 then .voteAll f (bits x 0 5) (bits x 5 5) (Cmb.ofCode (bits x 10 2))
    else .voteEq f (bits x 0 5) (bits x 5 5) (Cmb.ofCode (bits x 10 2)))
  | 0x83 => some (.red f (RedOp.ofCode (bits m 0 3)) (RedTy.ofCode (bits m 3 3)))
  | 0x84 => some (.scan f (RedOp.ofCode (bits m 0 3)) (RedTy.ofCode (bits m 3 3)) (x.testBit 0))
  | 0x85 => some (.matchLanes f (m.testBit 3))
  | _ => none

/-- The M-slot instruction of an opcode and its fields; codes that name no value read as the first one, and the comparison
of the encodings refuses them. -/
def buildM (op : Nat) (r : Raw) : Option Instr :=
  let f := r.fields
  let m := r.mod
  let x := r.x
  let h := r.c
  let g := { f with c := Opnd.none }
  match op with
  | 0x00 => some (.nopM r.gap)
  | 0x01 => some (.ld g (Sz.ofCode (bits m 0 3)) (m.testBit 3) (m.testBit 4) (bits h 0 4) (BitVec.ofNat 16 x))
  | 0x02 => some (.st g (Sz.ofCode (bits m 0 3)) (m.testBit 4) (bits h 4 4) (bits h 0 4) (BitVec.ofNat 16 x))
  | 0x03 => some (.ldr g (Sz.ofCode (bits m 0 3)) (m.testBit 3) (Ca.ofCode (bits m 4 2)) (bits h 4 4) (bits h 0 4) (BitVec.ofNat 16 x))
  | 0x04 => some (.lds f (Sz.ofCode (bits m 0 3)) (m.testBit 3) (BitVec.ofNat 16 x))
  | 0x05 => some (.sts f (Sz.ofCode (bits m 0 3)) (BitVec.ofNat 16 x))
  | 0x06 => some (.ldt g (Sz.ofCode (bits m 0 3)) (m.testBit 4) (bits h 0 4) (BitVec.ofNat 16 x))
  | 0x07 => some (.stt g (Sz.ofCode (bits m 0 3)) (m.testBit 4) (bits h 0 4) (BitVec.ofNat 16 x))
  | 0x08 => some (.ldw g (Sz.ofCode (bits m 0 3)) (m.testBit 3) (bits h 0 4) (BitVec.ofNat 16 x))
  | 0x09 => some (.atom g (AOp.ofCode (bits m 0 3)) (ATy.ofCode (bits m 3 3)) (bits h 0 4) (BitVec.ofNat 16 x))
  | 0x0A => some (.atoms g (AOp.ofCode (bits m 0 3)) (ATy.ofCode (bits m 3 3)) (bits h 0 4) (BitVec.ofNat 16 x))
  | 0x0B => some (.rld g (Sz.ofCode (bits m 0 3)) (m.testBit 3) (m.testBit 4) (bits h 0 4) (BitVec.ofNat 16 x))
  | 0x0C => some (.rst g (Sz.ofCode (bits m 0 3)) (m.testBit 4) (bits h 4 4) (bits h 0 4) (BitVec.ofNat 16 x))
  | 0x0D => some (.ratom g (AOp.ofCode (bits m 0 3)) (ATy.ofCode (bits m 3 3)) (bits h 0 4) (BitVec.ofNat 16 x))
  | 0x0E => some (
    if bits m 0 2 == 0 then .fenceTeam f (m.testBit 2) (bits x 0 4)
    else if bits m 0 2 == 1 then .fencePair f (m.testBit 2) (bits x 0 4)
    else if bits m 0 2 == 2 then .fenceDev f (m.testBit 2) (bits x 0 4)
    else .fenceFab f (m.testBit 2) (bits x 0 4))
  | 0x0F => some (.afence f (m.testBit 2) (bits x 0 4))
  | 0x10 => some (.icinv f (bits x 0 4))
  | 0x11 => some (.pref f (Ca.ofCode (bits m 4 2)) (BitVec.ofNat 16 x))
  | 0x12 => some (if !m.testBit 0 then .spmarkEmpty f (bits x 0 4) else .spmarkFull f (bits x 0 4))
  | 0x14 => some (.wqenq f (bits x 4 5) (bits x 0 4))
  | 0x15 => some (.wqdeq f (m.testBit 0) (bits x 0 4))
  | _ => none

/-- The K-slot instruction of an opcode and its fields; codes that name no value read as the first one, and the comparison
of the encodings refuses them. -/
def buildK (op : Nat) (r : Raw) : Option Instr :=
  let f := r.fields
  let m := r.mod
  let x := r.x
  match op with
  | 0x00 => some (.nopK r.gap)
  | 0x01 => some (
    if !m.testBit 0 then .cpyIn f (m.testBit 1) (m.testBit 2) (bits x 0 4)
    else .cpyOut f (m.testBit 2) (bits x 4 4) (bits x 0 4))
  | 0x02 => some (
    if !m.testBit 0 then .cpytIn f (m.testBit 1) (m.testBit 2) (bits x 0 4)
    else .cpytOut f (m.testBit 2) (bits x 4 4) (bits x 0 4))
  | 0x03 => some (.cpyg f (m.testBit 1) (m.testBit 2) (bits x 0 4))
  | 0x04 => some (.cpys f (CpysRed.ofCode (bits m 4 2)) (m.testBit 2) (bits x 4 4) (bits x 0 4))
  | 0x05 => some (
    if !m.testBit 0 then .cpyfSp f (m.testBit 1) (bits x 0 4)
    else .cpyfMem f (m.testBit 2) (bits x 4 4) (bits x 0 4))
  | 0x06 => some (.cpyw f (m.testBit 1) (bits x 0 4))
  | 0x07 => some (.cpyc f (m.testBit 1) (bits x 0 4))
  | 0x10 => some (.bsend f (bits x 0 4))
  | 0x11 => some (.brecv f (bits x 0 4))
  | 0x12 => some (if !m.testBit 0 then .bprobeSnd f (bits x 0 4) else .bprobeRcv f (bits x 0 4))
  | 0x13 => some (if !m.testBit 0 then .bcancelSnd f (bits x 0 4) else .bcancelRcv f (bits x 0 4))
  | 0x20 => some (.mcfg f (m.testBit 0) (bits x 4 3) (bits x 7 3) (bits x 10 3) (bits x 0 4))
  | 0x21 => some (.mloft f (EType.ofCode (bits m 0 4)) (bits x 7 2) (bits x 0 4))
  | 0x22 => some (.mloftw f (EType.ofCode (bits m 0 4)) (bits x 7 2) (bits x 0 4))
  | 0x23 => some (.mlofth f (bits x 7 2) (bits x 0 4))
  | 0x24 => some (.mma f (EType.ofCode (bits m 0 4)) (bits x 4 3) (bits x 7 2) (bits x 9 7) (bits x 0 4))
  | 0x25 => some (.mmas f (EType.ofCode (bits m 0 4)) (bits x 4 3) (bits x 7 2) (bits x 9 7) (bits x 0 4))
  | 0x26 => some (.mscl f (m.testBit 4) (bits x 7 2) (bits x 0 4))
  | 0x27 => some (
    if bits m 0 3 == 0 then .mdrainReg f (bits x 4 3) (bits x 9 7) (bits x 0 4)
    else .mdrainScratch f (DrFmt.ofCode (bits m 0 3)) (m.testBit 3) (m.testBit 4) (m.testBit 5) (bits x 4 3) (bits x 0 4))
  | 0x28 => some (.mzero f (bits x 4 3) (bits x 0 4))
  | 0x29 => some (.mfence f (bits x 0 4))
  | _ => none

/-- The C-slot instruction of an opcode and its fields; codes that name no value read as the first one, and the comparison
of the encodings refuses them. -/
def buildC (op : Nat) (r : Raw) : Option Instr :=
  let f := r.fields
  let m := r.mod
  let x := r.x
  match op with
  | 0x00 => some (.nopC r.gap)
  | 0x01 => some (.bra f (Target.ofCode x))
  | 0x02 => some (.brx f)
  | 0x03 => some (.call f (Target.ofCode x))
  | 0x04 => some (.callx f)
  | 0x05 => some (.ret f)
  | 0x06 => some (.brp f (Target.ofCode x))
  | 0x07 => some (.brany f (Target.ofCode x))
  | 0x08 => some (.brall f (Target.ofCode x))
  | 0x09 => some (.brsig f m (Target.ofCode x))
  | 0x0A => some (.regang f (Target.ofCode x))
  | 0x0B => some (.exit f)
  | 0x0C => some (.trap f (BitVec.ofNat 16 x))
  | 0x0D => some (.rte f)
  | 0x0E => some (if bits x 0 8 == 0 then .syscIcb f (bits x 8 4) else .sysc f (bits x 0 8) (bits x 8 4))
  | 0x0F => some (.yield f)
  | 0x10 => some (if !m.testBit 0 then .wait f (bits x 0 4) else .waitAll f)
  | 0x11 => some (
    if !m.testBit 0 then .hkadjUp f (bits x 0 4) (bits x 4 6)
    else .hkadjDn f (bits x 0 4) (bits x 4 6) (optBits (m.testBit 1) (bits x 10 5)))
  | 0x12 => some (.bar f (m.testBit 0) (bits x 0 4))
  | 0x13 => some (.bara f (m.testBit 0) (bits x 0 4))
  | 0x14 => some (.barw f (bits x 0 4))
  | 0x15 => some (.sleepns f)
  | 0x16 => some (.waitns f)
  | 0x17 => some (.knock f (bits x 0 4))
  | 0x18 => some (.csrr f (m.testBit 0) (Csr.ofNum (bits x 0 12)))
  | 0x19 => some (.csrw f (m.testBit 0) (Csr.ofNum (bits x 0 12)))
  | 0x1A => some (.csrx f (m.testBit 0) (Csr.ofNum (bits x 0 12)))
  | 0x1B => some (.loop f (BitVec.ofNat 6 m) (Target.ofCode x))
  | _ => none
/-- The instruction a syllable's SLOT, OP, MOD and X name; none for a reserved opcode (R128 to R131). -/
def Raw.build (r : Raw) : Option Instr :=
  match r.slot with
  | 0 => buildV r.op r
  | 1 => buildM r.op r
  | 2 => buildK r.op r
  | _ => buildC r.op r

/-- A fault of one field: its cause and its FLD code (R134). -/
abbrev FieldFault := Nat × Nat

/-- Whether a number names a hatch under U, or in a warp without a hatch pair (R92, R122). -/
def hatchBad (hpair u : Bool) (n : Nat) : Bool := isHatchNum n && (u || !hpair)

/-- The fault of a source or destination field: its kind's, or hatch misuse (R116 to R122). -/
def opndFault (bad : Option Nat) (hpair u : Bool) (n fld : Nat) : List FieldFault :=
  match bad with
  | some c => [(c, fld)]
  | none => if hatchBad hpair u n then [(0x17, fld)] else []

/-- A reserved-field fault of a field when a required value is broken (02). -/
def need (ok : Bool) (fld : Nat) : List FieldFault := if ok then [] else [(2, fld)]

/-- A register or landing that another field of the syllable or bundle already popped (R122). -/
def popFault (popped : List Nat) (n fld : Nat) : List FieldFault :=
  if isHatchNum n && popped.contains n then [(0x17, fld)] else []

/-- Whether a syllable is movi, whose immediate stands where others have B and C (R111). -/
def Raw.isMovi (r : Raw) : Bool := r.slot == 0 && r.op == 0x1B

/-- The hatches a syllable pops, in the order A, B, C. -/
def Raw.pops (sh : Shape) (r : Raw) : List Nat :=
  if r.isMovi then []
  else [r.a, r.b].filter isHatchNum ++ (if sh.c = .hc then [] else [r.c].filter isHatchNum)

/-- Whether j of wqenq may be any: it must be 0 only where D is 1023, and a reserved D is the fault of its own field (R281). -/
def Raw.jFree (r : Raw) (i : Instr) (bad : Option Nat) : Bool :=
  match i with
  | .wqenq _ j h => j < 32 && h < 16 && r.d ≠ 1023 && bad.isSome
  | _ => false

/-- Whether a syllable is nbr.chain, whose MOD is a reserved field in a paired launch (R232). -/
def Instr.isChain : Instr → Bool
  | .nbr _ .chain _ _ _ => true
  | _ => false

/-- Every fault of a syllable's fields (R110 to R126), for a warp of `nreg` registers that is, or is not, in a hatch pair,
in a bundle whose earlier syllables popped `popped`, closing the bundle or not (R115), in a paired launch or not. -/
def Raw.faults (r : Raw) (i : Instr) (nreg : Nat) (hpair : Bool) (popped : List Nat) (closing : Bool) (paired : Bool := false) :
    List FieldFault :=
  match i.shape, i.enc with
  | some sh, some e =>
    let hcForm := sh.c == .hc
    let reg (n : Nat) : Bool := n < 768
    let common :=
      need (closing || r.gap == 0) 10 ++ need (sh.uni || !r.u) 9 ++ need (e.mod == r.mod && i.modOk) 11
        ++ need (!(paired && i.isChain)) 11 ++ need (e.x == r.x && (i.xOk || r.jFree i (sh.d.bad nreg r.d))) 12
        ++ opndFault (sh.d.bad nreg r.d) hpair r.u r.d 1 ++ opndFault (sh.a.bad nreg r.a) hpair r.u r.a 2
    if r.isMovi then
      common ++ need (!r.ilua) 5 ++ need (r.irsv == 0) 13
    else
      common ++ opndFault (sh.b.bad nreg r.b) hpair r.u r.b 3
        ++ (if hcForm then need (e.hc == some r.c) 12 else opndFault (sh.c.bad nreg r.c) hpair r.u r.c 4)
        ++ need ((!r.lua || reg r.a) && (!r.lub || reg r.b) && (!r.luc || (reg r.c && !hcForm)) && i.luMma) 5
        ++ (if r.p = 1023 then need (r.pb == 0) 7 ++ need (!r.pn) 8
            else if sh.pred then (if predOk nreg r.p then [] else [(3, 6)]) else [(2, 6)])
        ++ popFault popped r.a 2 ++ popFault (popped ++ [r.a]) r.b 3
        ++ (if hcForm then [] else popFault (popped ++ [r.a, r.b]) r.c 4)
  | _, _ => [(1, 0)]

/-- Whether one fault is reported before another: 01 before 02 before 03 before 17, then the lower FLD (R133). -/
def faultBefore (f g : FieldFault) : Bool := f.1 < g.1 || (f.1 == g.1 && f.2 ≤ g.2)

/-- The fault reported, of several (R133). -/
def firstFault : List FieldFault → Option FieldFault
  | [] => none
  | f :: fs =>
    match firstFault fs with
    | some g => if faultBefore f g then some f else some g
    | none => some f

/-- A syllable decoded: its instruction, or the cause and FLD of the fault it raises. -/
def decodeRaw (r : Raw) (nreg : Nat) (hpair : Bool) (popped : List Nat) (closing : Bool) (paired : Bool := false) :
    Except FieldFault Instr :=
  match r.build with
  | none => .error (1, 0)
  | some i =>
    match firstFault (r.faults i nreg hpair popped closing paired) with
    | some f => .error f
    | none => .ok i

/-- The instruction of a 96-bit syllable that closes its bundle, in a warp that has every register and a hatch pair. -/
def decode (w : Nat) : Option Instr :=
  match decodeRaw (Raw.ofWord w) 768 true [] true with
  | .ok i => some i
  | .error _ => none

/-- A word from fields laid from bit 0 upwards: values and widths. -/
def packBits : List (Nat × Nat) → Nat
  | [] => 0
  | (v, w) :: rest => v % 2 ^ w + 2 ^ w * packBits rest

/-- The 96-bit word of a syllable (R110, R111); none for a device step. -/
def encode (i : Instr) : Option Nat :=
  match i, i.enc, i.fields with
  | .movi d imm u g _, some e, _ =>
    some (packBits [(e.x, 16), (e.mod, 6), (g, 4), (u.toNat, 1), (0, 6), (0, 1), (imm.toNat, 32), (1023, 10), (d.num, 10),
      (e.op, 8), (e.slot, 2)])
  | _, some e, some f =>
    some (packBits [(e.x, 16), (e.mod, 6), (f.gap, 4), (f.u.toNat, 1), (f.pn.toNat, 1), (f.pb, 5), (f.p.num, 10),
      (f.luc.toNat, 1), (f.lub.toNat, 1), (f.lua.toNat, 1), (e.hc.getD f.c.num, 10), (f.b.num, 10), (f.a.num, 10),
      (f.d.num, 10), (e.op, 8), (e.slot, 2)])
  | _, _, _ => none

/-- The instruction the decoder reads from an instruction whose first `nbits` bits are `w`: a syllable is 96 bits, the bits
above `nbits` zero (R102). -/
def decodeTableWord (nbits w : Nat) : Option Instr := if nbits ≤ 96 then decode w else none

/-- A fetch line as one 512-bit number, bit 0 being bit 0 of byte 0 (R102). -/
abbrev LineImage := Nat

/-- Syllable Si of a line. -/
def lineSyl (line : LineImage) (i : Nat) : Nat := bits line (96 * i) 96

/-- The line word (R103). -/
def lineWord (line : LineImage) : Nat := bits line 480 32

/-- The parity of a number's low `n` bits. -/
def parityBits : Nat → Nat → Bool
  | 0, _ => false
  | n + 1, v => xor (v.testBit n) (parityBits n v)

/-- The mask of the groups of R104 whose PAR bit disagrees. -/
def parityFails (line : LineImage) : Nat :=
  packBits ((List.range 8).map fun g =>
    ((xor (parityBits 60 (bits line (60 * g) 60)) ((lineWord line).testBit (24 + g))).toNat, 1))

/-- Whether syllable i closes a bundle (R103). -/
def closes (line : LineImage) (i : Nat) : Bool := i == 4 || (lineWord line).testBit (20 + i)

/-- Whether a bundle begins at syllable i (R105). -/
def begins (line : LineImage) (i : Nat) : Bool := i == 0 || closes line (i - 1)

/-- Whether the bundle that begins at syllable i may be entered by a branch (R103). -/
def isTarget (line : LineImage) (i : Nat) : Bool := (lineWord line).testBit (15 + i)

/-- Whether the line word breaks a rule of R103 or R106. -/
def lineWordBad (line : LineImage) : Bool :=
  bits (lineWord line) 12 3 != 1 || bits (lineWord line) 0 12 != 0
    || (List.range 5).any fun i => isTarget line i && !begins line i

/-- The last syllable of the bundle that begins at syllable i (R105); at most four steps from i. -/
def bundleEnd (line : LineImage) : Nat → Nat → Nat
  | 0, i => i
  | n + 1, i => if closes line i then i else bundleEnd line n (i + 1)

/-- The cause and TRVAL of a decode fault (R134). -/
def fldVal (syl fld : Nat) : Nat := syl + 8 * fld

/-- The syllables from `i` on to `last`, decoded in order (R133): the first fault, with its syllable. -/
def decodeSyls (line : LineImage) (nreg : Nat) (hpair paired : Bool) (last : Nat) :
    Nat → Nat → List Nat → Except (Nat × Nat) (List Instr)
  | 0, _, _ => .ok []
  | n + 1, i, popped =>
    if last < i then .ok []
    else
      let r := Raw.ofWord (lineSyl line i)
      match decodeRaw r nreg hpair popped (i == last) paired with
      | .error (c, f) => .error (c, fldVal i f)
      | .ok ins =>
        let pops := match ins.shape with
          | some sh => r.pops sh
          | none => []
        match decodeSyls line nreg hpair paired last n (i + 1) (popped ++ pops) with
        | .error e => .error e
        | .ok is => .ok (ins :: is)

/-- Whether two syllables of the list are of one slot. -/
def repeatsSlot : List Instr → Bool
  | [] => false
  | i :: is => is.any (fun k => k.enc.map Enc.slot == i.enc.map Enc.slot) || repeatsSlot is

/-- The bundle at offset `i` of a line (an offset above 4 starts no bundle, R132), entered by a branch when `entered` (R133): its syllables, or the cause and TRVAL of
its fault. TRVAL of a target fault is that of R135 and is set by the context. -/
def decodeBundle (line : LineImage) (i nreg : Nat) (hpair entered : Bool) (paired : Bool := false) : Except (Nat × Nat) (List Instr) :=
  if parityFails line ≠ 0 then .error (5, parityFails line)
  else if lineWordBad line then .error (2, fldVal 7 14)
  else if 4 < i || (entered && !isTarget line i) then .error (4, 0)
  else
    match decodeSyls line nreg hpair paired (bundleEnd line 4 i) 5 i [] with
    | .error e => .error e
    | .ok is => if repeatsSlot is then .error (2, fldVal 7 15) else .ok is

end Sys2Proof
end

