-- ==== Sys2Proof/Config.lean ====
section
/-! DEFINITION. What the spec leaves open and the model leaves open with it: opaque constants, none of which can be evaluated or
proved equal to a value. -/

namespace Sys2Proof.Config

/-- The bits an undefined 32-bit value shows when it is read: of the n-th free value, for an operand and a lane (R10, log 5). -/
opaque freeWord : Nat → Nat → Nat → Word

/-- The tag an undefined register shows when it is read (R10, log 5). -/
opaque freeTag : Nat → Nat → Nat → Tag

/-- An undefined byte of a consumed line, or of a copy's destination under way (R10, R249, log 5). -/
opaque freeByte : Nat → Nat → Byte

/-- The base clock cycles that one item of variable-latency work takes beyond the cycles the spec requires (log 4). -/
opaque delay : Nat → Nat

/-- Which of a full structure's entries is given up (R462, log 11): a position, taken modulo the number of candidates. -/
opaque victim : Nat → Nat

/-- The die that holds a line's home (R248): a line number, taken modulo 2. -/
opaque homeDie : Nat → Nat

/-- REFWIN.OFFSET, chosen by the hardware at device reset (R256, log 10): taken modulo 32,000. -/
opaque refwinOffset : Nat

/-- Whether an image's signature verifies (R63, log 8). -/
opaque signatureOk : List Byte → Bool

/-- The configuration section of an image, as the list of numbers the model reads from it (R64, log 8). -/
opaque imageConfig : List Byte → Nat → Nat

/-- The energy in nJ charged for one event of a kind at a voltage in mV and a RATIO (R442, log 19). -/
opaque energy : Nat → Nat → Nat → Nat

/-- The guard-band voltage in mV of an island before the first margin plan (R436, log 19). -/
opaque bootMv : Nat

/-- The nanoseconds that the package current takes to follow the n-th change of load at a slope in A per µs (R62, R432, log 9). -/
opaque slopeNs : Nat → Nat → Nat

/-- Whether the Closet has no room for the n-th team saved (R421, log 34). -/
opaque closetFull : Nat → Bool

/-- How many requests the fabric queue of the device holds before a remote or bulk syllable cannot enter it (R166, log 70). -/
opaque fabricQueue : Nat

/-- The reply of a firmware service (R416, log 15). -/
opaque firmwarePolicy : Nat → Nat

end Sys2Proof.Config
end

