-- ==== Sys2Proof/Machine/State.lean ====
section
/-! DEFINITION. The state of the device as plain data, and the state after reset. Chapters are cited by the rules of spec/. -/

namespace Sys2Proof.Machine

/-- Why a step ends without a next state. The spec gives every step of the table an effect, so no meaning raises one. -/
inductive Fault where
  /-- Raised by nothing: the spec describes no stop of the device itself (safe). -/
  | stuck
deriving DecidableEq, Repr

/-- Why a step is refused. -/
inductive Refusal where
  /-- An instruction that has no meaning yet; raised by exec's arms only (safe). -/
  | notModelled (mnemonic : String)
deriving DecidableEq, Repr

/-! ## Registers, paths and slices -/

/-- One register or landing in one lane (R88, R121): the bits, which of them are undefined, the tag, and whether it is
undefined. A cell that is not listed is as placement leaves it (R78). -/
structure RegCell where
  val : Word := 0
  undef : Word := 0xFFFFFFFF
  tag : Tag := 63
  tagU : Bool := false
deriving DecidableEq, Repr

/-- What keeps a path's next bundle from issuing (R394, R398, R400). -/
inductive Hold where
  | none
  | hook (h limit : Nat)
  | hookAll
  | bar (k : Nat) (lanes : Lanes)
  | barw (k : Nat) (lanes : Lanes)
  | asleep (untilNs : Nat) (sleep : Bool)
  /-- Released, but not before a cycle of the core's clock (R398) or an instant (R401); the code it counts. -/
  | wake (cycle ns code : Nat)
deriving DecidableEq, Repr

/-- One path of a slice (R170): its PC, its lanes, its unchecked transfer, its holds and its earliest issue tick, which already
holds the register penalty when `noPen` is set (R412). -/
structure Path where
  pc : Dword
  mask : Quad
  tchk : Bool
  tsrc : Dword
  hold : Hold := .none
  /-- The fence whose work must finish before the next bundle issues (R294). -/
  fence : Option Nat := none
  earliest : Nat := 0
  noPen : Bool := false
  /-- A wait on hooks that has been met once and is tested again in the clock cycle in which the next bundle issues (R394). -/
  wait : Hold := .none
deriving DecidableEq, Repr

/-- A fetched line (R108): its image, or the fault its fetch found, with its TRVAL. -/
structure LineBuf where
  va : Nat
  img : Nat
  fault : Option (Nat × Nat)
deriving DecidableEq, Repr

/-- The per-slice state (R170), with the issue tick and GAP of the slice's last bundle (R175) and its line buffer (R434). -/
structure Slice where
  cur : Path
  depth : Nat := 0
  pend0 : Option Path := none
  pend1 : Option Path := none
  pend2 : Option Path := none
  tgt1 : Dword := 0
  tgt2 : Dword := 0
  sav1 : Quad := 0
  sav2 : Quad := 0
  stack : List (Dword × Nat) := []
  /-- Paths that have arrived at TARGET under a hold or a fence, with their level: the slice does not go on below that level until it
  has ended (R172, R294, R394, R398). -/
  waits : List (Nat × Path) := []
  lastT : Nat := 0
  lastGap : Nat := 0
  line : Option LineBuf := none
deriving DecidableEq, Repr

/-! ## Results in flight -/

/-- Where a result goes: a number of consecutive operands, or bits j and up of one operand with a combine (R190, R208). -/
inductive Dst where
  | regs (opnd span : Nat)
  | bits (opnd j count : Nat) (cmb : Cmb)
deriving DecidableEq, Repr

/-- The result in one lane: up to four words with their tags, the exception flags of R25 it raises with bit 5 for an
address out of range (R203), and whether it is a checked
float result (R38). For bits, word 0 holds the bits. -/
structure LaneRes where
  lane : Nat
  vals : List (Word × Tag)
  flags : BitVec 6 := 0
  checked : Bool := false
  /-- The tag the check looks at when it is not that of word 0 (R240). -/
  chkTag : Option Tag := none
deriving DecidableEq, Repr

/-- A fixed-latency result (R154); scratchpad loads are filled when they are performed (R160). -/
structure Flight where
  seq : Nat
  land : Nat
  pc : Dword
  dst : Dst
  mask : Lanes
  lanes : List LaneRes
deriving DecidableEq, Repr

/-- A trap that is due (R404, R408): class 0 B, 1 I, 2 L, 3 H, 4 A; the tick from which it may be taken; the issue order of
the syllable that caused it; whether a handler's own syllable raised it (R410); the slices whose bundle faulted. -/
structure TrapDue where
  cause : Nat
  cls : Nat
  pc : Dword
  lanes : Lanes
  val : Dword
  dst : Nat := 1023
  bit : Nat := 0
  bitf : Bool := false
  pair : Bool := false
  seq : Nat
  tick : Nat
  inHandler : Bool := false
  slices : List Nat := []
deriving DecidableEq, Repr

/-- One item of work on a hook (R162, R395): the base cycle from which it counts as finished, once it is; what it has still to do
to its warp when the hook drops past it. -/
structure HookItem where
  id : Nat
  token : Bool := false
  fin : Option Nat := none
  pc : Dword := 0
  dst : Dst := .regs 1023 0
  lanes : Lanes := 0
  fault : Option TrapDue := none
  zr : Bool := false
  zw : Bool := false
  /-- Results written when the hook drops past the work (R300, R416), or as soon as it has finished (R285, R331). -/
  res : List LaneRes := []
  early : Bool := false
deriving DecidableEq, Repr

/-- A hook: its outstanding items, oldest first, its credit (R395), the credit issued to it and not yet committed, and of that the
credit on its way, with the core clock cycle at whose end it commits. -/
structure HookSt where
  items : List HookItem := []
  credit : Nat := 0
  promised : Nat := 0
  coming : List (Nat × Nat) := []
deriving DecidableEq, Repr

/-- One lane of a scratchpad access: offset and store data or operand, and the value compared by cas. -/
structure ScrLane where
  lane : Nat
  off : Nat
  data : BitVec 128
  cmp : Dword := 0
deriving DecidableEq, Repr

/-- What a scratchpad access does (R287, R288, R292, R299). -/
inductive ScrKind where
  | load (bytes : Nat) (sx : Bool)
  | store (bytes : Nat)
  | atomic (op : AOp) (ty : ATy) (item : Nat)
  | mark (full : Bool) (item : Nat)
deriving DecidableEq, Repr

/-- A scratchpad access issued and not yet performed (R160): its issue order, access tick, lanes, the lanes that receive a
result, and the bank cycles it has taken. -/
structure ScrAcc where
  seq : Nat
  tick : Nat
  kind : ScrKind
  lanes : List ScrLane
  enabled : Lanes
  done : Nat := 0
deriving DecidableEq, Repr

/-- What an access needs of its leaf (R269); `x` is a fetch. -/
inductive Need where
  | r | w | rw | x
deriving DecidableEq, Repr

/-- How long a freeze lasts: to a core clock cycle, after which the warp either counts again or goes on at the tick it stands at
(`retry`); until a hatch queue can be popped, or pushed (R122); until a scratchpad access finds its lines full (R160); until every
page it needs is translated (R270); until a refresh window has passed (R257). -/
inductive FreezeWhy where
  | timed (til : Nat) (retry : Bool)
  | pop (key : Nat)
  | push (key : Nat)
  | line (seq : Nat)
  | walk (pages : List (Nat × Need))
  | refresh (ns : Nat)
deriving DecidableEq, Repr

/-- A reason the warp's tick does not advance (R150), with its stall code. -/
structure Freeze where
  code : Nat
  why : FreezeWhy
deriving DecidableEq, Repr

/-- What waits for its settle point (R393): an arrival's position in a barrier's record, or a credit. -/
inductive Settle where
  | arrive (seq k : Nat) (drain : Bool)
  | credit (seq target hook n : Nat)
deriving DecidableEq, Repr

/-- The control registers of a warp (R417), at the widths of that table. -/
structure Csrs where
  fpsr : Word := 0
  fpte : Word := 0
  sigthr : Word := 0
  shbase : Dword := 0
  memst : Word := 0
  wct : Dword := 0
  wqbind : Dword := 0xFFFFFFFFFFFFFFFF
  wdog : Word := 0
  islhint : Word := 0
  trcause : Word := 0
  trpc : Dword := 0
  trlanes : Dword := 0
  trdst : Word := 0x3FF
  trval : Dword := 0
  trhand : Dword := 0
  trdel : Dword := 0
  trstat : Word := 0
  syshand : Dword := 0
  trsav0 : Dword := 0
  trsav1 : Dword := 0
  trsav2 : Dword := 0
  trsav3 : Dword := 0
deriving DecidableEq, Repr

/-- The trap set of the Attic (R409): the results that were in flight with the ticks they still owed, the per-slice state with
each path's gap in place of its earliest tick, the slices whose bundle faulted, and the TRPC written at entry. -/
structure Attic where
  flights : List Flight
  slices : List Slice
  classB : List Nat
  trpc : Dword
  seq : Nat
deriving DecidableEq, Repr

/-- A warp (R84 to R89, R150 to R184, R394 to R419). -/
structure Warp where
  wid : Nat
  team : Nat
  w : Nat
  core : Nat
  room : Nat
  base : Nat
  width : Nat
  nreg : Nat
  tick : Nat := 0
  regs : Tbl RegCell := []
  slices : List Slice
  retired : Lanes := 0
  flight : List Flight := []
  csr : Csrs
  csrSeen : Csrs
  /-- Writes not yet committed (R418): the tick at which each commits. -/
  csrPend : List (Nat × Csr × Dword) := []
  scr : List ScrAcc := []
  /-- The warp's last performed scratchpad access and the core clock cycle in which it was performed (R393). -/
  scrDone : Option (Nat × Nat) := none
  /-- Destinations of results that landed in this clock cycle (R232). -/
  recent : List (Dst × Lanes) := []
  hooks : List HookSt
  /-- The counts of the hooks as committed by the end of the previous clock cycle (R394). -/
  hooksSeen : List Nat := []
  /-- Last uses of this tick: tick, operand and lanes, undefined from the next tick on (R125). -/
  kills : List (Nat × Nat × Lanes) := []
  freezes : List Freeze := []
  /-- Whether the current clock cycle of the core is frozen for the warp (R150). -/
  frozen : Bool := false
  apos : Option Nat := none
  lastIss : Nat := 0
  issued : Bool := false
  yielded : Bool := false
  /-- Contexts that a remote syllable of several groups keeps from issuing an M syllable: lowest slice, and the tick to which (R357). -/
  mBusy : List (Nat × Nat) := []
  moved : Nat := 0
  due : List TrapDue := []
  attic : Option Attic := none
  /-- Set while an entry drains the warp's scratchpad accesses (R409). -/
  entering : Bool := false
  stopped : Bool := false
  settles : List Settle := []
  /-- Failed translations kept for the bundle or fetch that needs them (R271): page, REASON, LEVEL. -/
  walkRes : List (Nat × Nat × Nat) := []
  /-- The nanoseconds that count towards the watchdog (R419). -/
  wdogNs : Nat := 0
  /-- The identity of the latest write issued to each operand, and of the latest mfence (R331). -/
  lastWr : Tbl Nat := []
  lastFence : Nat := 0
  /-- Data lost to an attributed error (R435): the lowest operand, the island, the lanes, and whether an Attic entry lost some. -/
  lost : Option (Nat × Nat × Lanes × Bool) := none
  /-- The bundle whose read found that error, if one did (R435). -/
  lostPc : Option Dword := none
  /-- The instant before which the islands on which it was placed at retention voltage are not back (R430). -/
  wakeNs : Nat := 0
  ended : Bool := false
deriving DecidableEq, Repr

/-! ## The matrix engine (R320 to R324) -/

/-- A loft macro: its B type, its 64 KiB of cells by 128-byte blocks (unlisted: 0), and its scales by 256 × block + column
(unlisted: 0x7F). -/
structure Macro where
  btype : Option EType := none
  cells : Tbl (BitVec 1024) := []
  scales : Tbl Byte := []
  /-- The core clock cycle to which it is busy with a multiplication (R343). -/
  busy : Nat := 0
deriving DecidableEq, Repr

inductive TileSt where
  | free | zero | live | poison
deriving DecidableEq, Repr

/-- A drain that has read a tile (R331): its identity, its warp, the first register it writes or the ranges of scratchpad it has
written, and the operation that had last zeroed the tile. -/
structure Drained where
  id : Nat
  wid : Nat
  opnd : Option Nat
  put : List (Nat × Nat)
  zeroId : Nat
deriving DecidableEq, Repr

/-- A tile register: its shape, its state and its accumulators by 128 × row + column (unlisted: zero). -/
structure Tile where
  rows : Nat := 16
  cols : Nat := 16
  f32 : Bool := true
  st : TileSt := .free
  acc : Tbl RegCell := []
  /-- The operation that last made every accumulator zero, and the drains that have read the tile since (R331). -/
  zeroId : Nat := 0
  drains : List Drained := []
deriving DecidableEq, Repr

/-- A core's matrix engine and the team that holds it. -/
structure Engine where
  holder : Option Nat := none
  macros : List Macro := [{}, {}, {}, {}]
  tiles : List Tile := [{}, {}, {}, {}, {}, {}, {}, {}]
deriving DecidableEq, Repr

/-! ## Teams and launches -/

/-- An entry of a hatch queue (R258): the value and tag of each lane, and the base cycle in which it was completed, if it was. -/
structure HatchEnt where
  id : Nat
  lanes : List LaneRes
  done : Option Nat
deriving DecidableEq, Repr

/-- An arrival in a barrier's record (R397). -/
structure Arrival where
  seq : Nat
  w : Nat
  lanes : Lanes
  count : Nat
  counted : Bool
deriving DecidableEq, Repr

/-- A named barrier (R396, R397): the phase, whether one is open, its count E, the record, and the lanes of each warp that
have ever arrived. -/
structure Barrier where
  phase : Nat := 0
  isOpen : Bool := false
  e : Nat := 0
  record : List Arrival := []
  /-- The core of the last arrival or retirement. -/
  core : Nat := 0
  ever : Tbl Lanes := []
deriving DecidableEq, Repr

/-- Where a team's state stands (R420 to R425). -/
inductive Place where
  | resident
  | halting
  | saved
deriving DecidableEq, Repr

/-- The rows of scratchpad that a copy in flight writes, and the line below which it has marked its lines (R164, R308, R311). -/
structure CopyDest where
  id : Nat
  lo : Nat
  pitch : Nat
  len : Nat
  rows : Nat
  marked : Nat
deriving DecidableEq, Repr

/-- A team (R84, R90 to R92, R242 to R245, R258, R396). Scratchpad bytes read 0 and lines are full unless listed. -/
structure Team where
  tid : Nat
  launch : Nat
  lin : Nat
  core : Nat
  paired : Bool
  rows : Nat
  /-- The first row of its allocation on its core, and on the odd core of its couple (R90, R91). -/
  row0 : Nat := 0
  row1 : Nat := 0
  scratch : List Host.Cell := []
  empty : List Nat := []
  /-- Marks of this clock cycle, committed at its end: the line, 0 for an engine's full-mark, 1 for a clear by EM, 2 for an spmark,
  and the value (R245, R299, R308). -/
  marks : List (Nat × Nat × Bool) := []
  /-- Destinations of copies in flight, undefined until they are marked (R311). -/
  dests : List CopyDest := []
  /-- Hatch queues by 8 × pair + i for the down queue and 8 × pair + 4 + i for the up queue of hq i. -/
  hatches : Tbl (List HatchEnt) := []
  barriers : List Barrier
  place : Place := .resident
  /-- Set while a core freeze has taken it from its core and neither a spare nor another core has taken it on (R100, R101). -/
  moving : Bool := false
  /-- Set while a spare has its core's place and a pre-emption that met the freeze keeps it saved (R423). -/
  barred : Bool := false
  /-- Its saved state is in its context's save area in HBM: the Closet had no room (R421). -/
  inHbm : Bool := false
  admitted : Bool := false
  live : Nat
  /-- The matrix-engine state of a saved team, by core of its couple (R344). -/
  engines : List (Nat × Engine) := []
deriving DecidableEq, Repr

/-- The fields of a LAUNCH packet (R76), with the bits that are not fields for the checks of R77. -/
abbrev Packet := BitVec 1024

/-- How far a launch has come (R76 to R83, R439). -/
inductive LPhase where
  | queued      -- accepted by sv2; NWQ units not bound
  | placing     -- teams may be placed
  | retiring    -- every team has retired, or the launch was ended or rejected
  | recorded    -- its record is written, and its knock waits until that is complete (R80)
  | done
deriving DecidableEq, Repr

structure Launch where
  lid : Nat
  packet : Packet
  qid : Nat
  pseq : Nat
  phase : LPhase := .queued
  units : List Nat := []
  next : Nat := 0
  teamsDone : Nat := 0
  wct : Nat := 0
  tstart : Nat
  /-- STATUS and DETAIL of a launch that was ended (R79). -/
  fatal : Option (Nat × Nat) := none
  /-- Of a launch that was ended, the work with requests at other devices that are not answered yet (R440). -/
  waits : List Nat := []
  parked : Bool := false
deriving DecidableEq, Repr

/-! ## Issue -/

/-- A context picked by the merge stage whose bundle is being issued, syllable by syllable (R109, R165). -/
structure Issue where
  wid : Nat
  slices : List Nat
  lanes : Lanes
  tick : Nat
  /-- The identity next to be given when the bundle issued: results and work of the bundle itself come later (R109). -/
  seq0 : Nat
  pc : Nat
  img : LineImage
  first : Nat
  syl : Nat
  last : Nat
  primary : Bool
  /-- A control syllable of the bundle has set the slices' paths. -/
  ctl : Bool := false
  /-- The GAP added to the earliest tick (R153): GAP, and 1 more after a yield. -/
  gap : Nat
  /-- Operands and lanes whose last use this bundle makes (R125). -/
  dead : List (Nat × Lanes) := []
  /-- The free values its syllables read where a source is undefined: the first, and one on for each syllable index. -/
  fresh0 : Nat := 0
  /-- The destinations of the syllables that another context of the warp issues in the same tick: undefined for it (R154, R230). -/
  opens : List (Dst × Lanes) := []
deriving DecidableEq, Repr

/-! ## Memory and translation -/

/-- An L2 line (R248 to R250, R277, R381, R462): its plaintext, owner tag, consumable count with the base cycle in which it
reached 0, horizon H, recorded key, replacement priority, and the 64-byte blocks of it whose fill met an empty key slot (R276). -/
structure L2Line where
  data : BitVec 1024
  dirty : Bool := false
  owner : Nat := 0
  count : Nat := 0
  spent : Option Nat := none
  horizon : Nat := 0
  bad : BitVec 2 := 0
  enc : Bool := false
  keyid : Nat := 0
  low : Bool := false
deriving DecidableEq, Repr

/-- The attributes of a leaf (R265, R274). -/
structure Leaf where
  pa : Nat
  size : Nat
  r : Bool
  w : Bool
  x : Bool
  zp : Bool
  ca : Nat
  enc : Bool
  keyid : Nat
  level : Nat
deriving DecidableEq, Repr

/-- A TLB entry (R270). -/
structure TlbEnt where
  ctx : Nat
  page : Nat
  leaf : Leaf
deriving DecidableEq, Repr

/-- Who waits for a walk: a warp's M-slot access, a warp's fetch, engine work, or a request from the fabric. -/
inductive WalkReq where
  | warp (wid : Nat)
  | fetch (wid : Nat)
  | op (id : Nat)
  | ingress
deriving DecidableEq, Repr

/-- A walk in flight (R266, R268, R270), with the kind of the access that began it. -/
structure Walk where
  id : Nat
  ctx : Nat
  va : Nat
  die : Nat
  deferred : Bool := false
  reqs : List WalkReq
  /-- sv3 has answered a deferral of it (R268, R441). -/
  retried : Bool := false
  need : Need := .r
deriving DecidableEq, Repr

/-- A request that a deferring walk has sent to sv3: the walk, its context, virtual address and access kind (R268). -/
structure DeferReq where
  walk : Nat
  ctx : Nat
  va : Nat
  need : Need
deriving DecidableEq, Repr

/-- An L1 line (R246, R247). -/
structure L1Line where
  ctx : Nat
  va : Nat
  data : BitVec 1024
  undef : BitVec 128
  fill : Nat
  lease : Nat
  count : Nat
  reads : Nat
deriving DecidableEq, Repr

/-- A fetch-cache line (R296). -/
structure FLine where
  ctx : Nat
  va : Nat
  img : LineImage
deriving DecidableEq, Repr

/-! ## Work in flight -/

/-- One lane of a memory access: virtual address, physical address and attributes, data, and for ldt and stt the shadow. -/
structure MemLane where
  lane : Nat
  va : Nat
  leaf : Leaf
  pa : Nat
  data : BitVec 128 := 0
  cmp : Dword := 0
  sva : Nat := 0
  spa : Nat := 0
  sleaf : Option Leaf := none
  /-- Tag bytes of the words (stt writes them). -/
  tags : List Tag := []
deriving DecidableEq, Repr

/-- What a memory access does (R287, R288, R292, R298). -/
inductive MemKind where
  | load
  | loadL1
  | loadTag
  | store
  | storeTag
  | atomic (op : AOp) (ty : ATy)
  | pref (l1 : Bool)
  | cellar
deriving DecidableEq, Repr

/-- A memory access in flight (R285): the lanes, those still to be performed at a line's home, and the results so far. -/
structure MemOp where
  kind : MemKind
  bytes : Nat
  sx : Bool
  stream : Bool
  rc : Nat
  fillL1 : Bool
  enabled : Lanes
  uni : Bool
  lanes : List MemLane
  /-- Line addresses not yet performed; a shadow line counts as 2 × line + 1, a data line as 2 × line. -/
  todo : List Nat
  results : List LaneRes := []
  /-- Tag bytes that ldt has read, of each lane. -/
  tagRes : List (Nat × Nat) := []
  /-- Lowest poisoned address of each lane that failed (R251). -/
  poisoned : List (Nat × Nat) := []
  zr : Bool := false
  zw : Bool := false
  wct : Nat := 0
  /-- The LEASE of the launch that issued it, for the L1 lines it fills (R246, R298). -/
  lease : Nat := 400
  /-- The hatch queue in which the load has reserved an entry (R259). -/
  hatch : Option Nat := none
  /-- The engine work of this device for which it reads (R311). -/
  reader : Option Nat := none
deriving DecidableEq, Repr

/-- What a copy does (R304). -/
inductive CopyKind where
  | linIn | linOut | fillSp | fillMem | cellar | scr
  | tenIn | tenOut
  | gather
  | scatter (red : CpysRed)
  /-- mloftw and mlofth: into the rows of a macro (R333, R334). -/
  | loftCellar (bt : EType) (lf : Nat)
  | loftTen (lf : Nat)
deriving DecidableEq, Repr

/-- A copy in flight (R305): its operands, how far it has come, and what it has found. -/
structure CopyOp where
  kind : CopyKind
  em : Bool := false
  stm : Bool := false
  half : Bool := false
  rc : Nat := 0
  a : Nat := 0
  b : Nat := 0
  len : Nat := 0
  /-- The words of the layout record or descriptor. -/
  words : List Word := []
  lanes : Lanes
  /-- The row and the position within it that move next. -/
  row : Nat := 0
  pos : Nat := 0
  /-- Scratchpad lines below this one are marked. -/
  marked : Nat := 0
  /-- The source of a cpyc, read before any write; of cpyg and cpys, the part of the index list read so far. -/
  buf : List Byte := []
  /-- Block extents and the address of the first entry or key of the owner table in use (R53, R56). -/
  table : Option (List Nat) := none
  /-- The entry in use: block number, BBASE and KEY. -/
  entry : Option (Nat × Nat × Dword) := none
  /-- The instant at which the remote request not yet answered was sent. -/
  asked : Option Nat := none
  /-- Whether the transfer has counted as a half-speed one (R52, R307). -/
  counted : Bool := false
  zr : Bool := false
  zw : Bool := false
  wct : Nat := 0
  /-- Cause and TRVAL of the failure that stopped it (R312). -/
  fault : Option (Nat × Nat) := none
  /-- The answers to its remote request, to be landed (R312, R314). -/
  ans : Option (List RemAns) := none
  /-- The bytes of memory it writes, undefined from its issue until its hook has dropped past it (R164, R311): by line. -/
  claim : Tbl (BitVec 128) := []
  /-- Of those, the ones in pages that are not mapped yet: context and address. -/
  unmapped : List (Nat × Nat) := []
  /-- The nibbles of memory it has written so far, by line: another write to them leaves open which value stays (R41, R311). -/
  put : Tbl (BitVec 256) := []
  finished : Bool := false
deriving DecidableEq, Repr

/-- A matrix syllable in flight (R328): the syllable, the scalars and record words read at issue, the identity of its warp's most
recent mfence, whether it has been performed, and the core clock cycle at which it finishes. -/
structure MatOp where
  ins : Instr
  a : Nat := 0
  b : Nat := 0
  c : Nat := 0
  words : List Word := []
  lanes : Lanes
  fenced : Nat
  issued : Nat
  copy : Option CopyOp := none
  /-- The core clock cycle in which the engine began it (R343, R344). -/
  begun : Option Nat := none
  performed : Bool := false
  finishAt : Nat := 0
  finished : Bool := false
  fault : Option (Nat × Nat) := none
  zr : Bool := false
  /-- Its rows have been left undefined by a write to an operand (R331). -/
  tainted : Bool := false
  /-- The ranges of scratchpad that a performed drain has written: offset and length (R332). -/
  put : List (Nat × Nat) := []
deriving DecidableEq, Repr

/-- A remote access in flight (R357 to R360): the lanes not yet answered with their keys and offsets, the results, and the lanes
that failed with cause and REASON or offset. -/
structure RemOp where
  load : Bool
  bytes : Nat
  sx : Bool
  enabled : Lanes
  uni : Bool
  waiting : List (Nat × Dword × Nat)
  results : List LaneRes := []
  fails : List (Nat × Nat × Dword × Nat) := []
  zr : Bool := false
  zw : Bool := false
deriving DecidableEq, Repr

/-- How a bulk message ended: STATUS, UNITS, and the base cycle (R368, R373). -/
structure BulkEnd where
  status : Nat
  units : Nat
  cycle : Nat
deriving DecidableEq, Repr

/-- A send-table slot in use (R365). -/
structure SendOp where
  slot : Nat
  key : Dword
  src : Nat
  len : Nat
  mtag : Word
  prio : Nat
  lanes : Lanes
  /-- Whether its request has been sent, and not refused since. -/
  sent : Bool := false
  /-- The instant at which its request was last sent (R349). -/
  sentNs : Nat := 0
  /-- Whether a token has arrived. -/
  moving : Bool := false
  /-- The ranges of a message to another device that no token has asked for (R368, R374). -/
  left : List (Nat × Nat) := []
  units : Nat := 0
  /-- Hook items of bcancels that end with it: warp, hook and item (R373). -/
  cancels : List (Nat × Nat × Nat) := []
  done : Option BulkEnd := none
deriving DecidableEq, Repr

/-- A receive-table slot in use (R366). -/
structure RecvOp where
  slot : Nat
  dst : Nat
  cap : Nat
  mtag : Word
  win : Nat
  srcdev : Nat
  any : Bool
  lanes : Lanes
  msg : Option Nat := none
  wct : Nat := 0
  zw : Bool := false
  /-- The bytes of its buffer, undefined from its issue until its hook has dropped past it (R372): by line. -/
  claim : Tbl (BitVec 128) := []
  /-- Of those, the ones in pages that are not mapped yet: context and address. -/
  unmapped : List (Nat × Nat) := []
  done : Option BulkEnd := none
deriving DecidableEq, Repr

/-- What a piece of hooked work is (R162). -/
inductive OpKind where
  | mem (m : MemOp)
  /-- fence (scope 0 team, 1 pair, 2 dev, 3 fab), and afence as scope 4 (R294, R295). -/
  | fence (scope : Nat) (seq : Nat)
  /-- Lanes waiting at a work-queue unit (R301): lane and unit, and the quads taken so far. -/
  | wqdeq (waiting : List (Nat × Nat)) (got : List LaneRes)
  | sysc (n a b : Nat)
  | knock (dev : Nat)
  | copy (c : CopyOp)
  | matrix (m : MatOp)
  | remote (r : RemOp)
  | bsend (b : SendOp)
  | brecv (b : RecvOp)
  /-- The completion record of a launch on its way under its latchkey, with the halves acknowledged (R79, R80); it has no warp. -/
  | record (lid : Nat) (key : Dword) (acks : Nat)
deriving DecidableEq, Repr

/-- A piece of hooked work in flight (R162, R285): its identity is that of its hook item. -/
structure Op where
  id : Nat
  wid : Nat
  hook : Nat
  core : Nat
  ctx : Nat
  kind : OpKind
  /-- Whether a secondary issued it (R377). -/
  sec : Bool := false
  /-- Failed translations of engine work: page, REASON, LEVEL (R272). -/
  walkRes : List (Nat × Nat × Nat) := []
  /-- Clock cycles for which it has waited for scratchpad banks, as (core, bank), and the bank cycles it has taken (R161). -/
  waited : Nat := 0
  want : List (Nat × Nat) := []
  banked : Nat := 0
deriving DecidableEq, Repr

/-- A message that has reached this device (R369 to R375): its sender, and once matched its receive, the ranges not yet granted, the
bytes written, and the tokens that expired in a row. -/
structure BulkMsg where
  src : Nat
  srcMsg : Nat
  ctx : Nat
  win : Nat
  mtag : Word
  len : Nat
  prio : Nat
  prefixBytes : List Byte
  recv : Option Nat := none
  need : List (Nat × Nat) := []
  got : Nat := 0
  expired : Nat := 0
  /-- Whether a token of it has been granted (R374). -/
  granted : Bool := false
deriving DecidableEq, Repr

/-- A pull token (R370): its message, the ranges not yet arrived, its expiry, and the ranges that have arrived and wait for a
translation of the receive buffer. -/
structure Token where
  msg : Nat
  miss : List (Nat × Nat)
  expires : Nat
  held : List (Nat × Nat) := []
deriving DecidableEq, Repr

/-! ## Cores -/

/-- A room of a core (R158, R165, R161): the round-robin pointer, the warp that holds the V pipe and the tick to which it does,
with the core clock cycle in which it took it; for each remote syllable of several groups its warp, the lowest slice of its context and
the core clock cycle to which the room's other contexts may not use the M pipe (R357). -/
structure Room where
  pointer : Nat := 0
  /-- The core clock cycle of the room's last scratchpad bank cycle (R161). -/
  scrAt : Option Nat := none
  vHold : Option (Nat × Nat × Nat) := none
  mHold : List (Nat × Nat × Nat) := []
  /-- The primary that has issued in this clock cycle: warp, slices and slots. -/
  prim : Option (Nat × List Nat × List Nat) := none
  /-- The secondary of this clock cycle: its number, warp and slices, and whether it has issued. -/
  sec : Option (Nat × Nat × List Nat × Bool) := none
deriving DecidableEq, Repr

/-- The mode of a voltage island (R429): NT may have an end of pacing (R430); RET keeps the mode it returns to. -/
inductive IslMode where
  | nom
  | nt (exitAt : Option Nat)
  | ret (wasNt : Bool)
deriving DecidableEq, Repr

/-- A voltage island (R429 to R434): its mode, the clock cycle at which pacing begins, and whether sv6 must install a new plan
before it leaves guard band. -/
structure Island where
  mode : IslMode := .nom
  ntFrom : Nat := 0
  heldNom : Bool := false
  /-- The instant to which the island's recovery (R434) lasts. -/
  recoverNs : Nat := 0
  /-- The last instant at which it was below guard band (R434). -/
  lowNs : Option Nat := none
  /-- The instant to which its way back from retention keeps its lanes from issuing (R401, R430). -/
  wakeNs : Nat := 0
  /-- At retention voltage, and a lane of it has been released (R430). -/
  waking : Bool := false
deriving DecidableEq, Repr

/-- A core position (R2): its rooms, islands, caches, translations and counters. -/
structure Core where
  rooms : List Room
  islands : List Island
  l1 : List L1Line := []
  fcache : List FLine := []
  tlb : List TlbEnt := []
  /-- Banks that warp accesses have taken in this clock cycle (R161). -/
  bankUse : List Nat := []
  /-- Banks kept in this clock cycle for engine work that has waited long: bank and work (R161). -/
  engUse : List (Nat × Nat) := []
  /-- 16 stall counters for each of the four rooms (R443). -/
  stalls : List Nat
  frozen : Bool := false
  /-- Out of service (R100, R101). -/
  out : Bool := false
  /-- Filler in its idle pipes: the context it is charged to, and the instant from which it has run (R433). -/
  filler : Option (Nat × Nat) := none
  engine : Engine := {}
  /-- The clock cycle from which its copy engine may move the next unit (R307). -/
  copyFree : Nat := 0
deriving DecidableEq, Repr

/-- A cluster's clock (R426, R427, R436): RATIO, EPOCH, the phase of its clock cycles against the nominal ones, the base cycle
to which the clock is stopped with the RATIO that follows, its last transition, its highest RATIO, and its clock cycles. -/
structure Cluster where
  ratio : Nat := 0x1000
  epoch : Nat := 0
  phase : Nat := 0
  stop : Option (Nat × Nat) := none
  lastNs : Option Nat := none
  maxRatio : Nat := 0x1000
  cycles : Nat := 0
  /-- Whether a clock cycle of it has begun in this base clock cycle. -/
  ticked : Bool := false
deriving DecidableEq, Repr

/-- A margin plan (R436): the highest RATIO of a cluster, and the guard-band and NT voltages of each island of it in mV, by 16 × core
of the cluster + 4 × room + island. -/
structure Plan where
  maxRatio : Nat
  guardMv : List Nat
  ntMv : List Nat
deriving DecidableEq, Repr

/-! ## Supervisor complex -/

/-- A work queue (R66 to R74): the packets held with their index, and what it waits for. -/
structure Queue where
  qbase : Dword
  qsz : Nat
  ctx : Nat
  keySlot : Nat
  head : Nat := 0
  tail : Nat := 0
  stale : Nat := 0
  /-- Packets parsed and held: index and the 128 bytes (R72). -/
  held : List (Nat × Packet) := []
  /-- The slot being re-read, and the instant its mismatch began (R72). -/
  mismatch : Option (Nat × Nat) := none
  stalled : Bool := false
deriving DecidableEq, Repr

/-- A supervisor core (R57 to R59, R61, R65, R83): its RV64GC state, of which the firmware that runs on it is the only user (log 67). -/
structure Sv where
  inReset : Bool := true
  lastBeat : Nat := 0
  /-- The instant at which the Lintel's restart is due. -/
  restart : Option Nat := none
  /-- Its privilege mode: 3 M, 1 S, 0 U. -/
  mode : Nat := 3
  pc : Dword := 0
  x : List Dword := List.replicate 32 0
  f : List Dword := List.replicate 32 0
  fcsr : Word := 0
  /-- Its privileged control and status registers, by their RISC-V number; one that is not listed is 0. -/
  csrs : Tbl Dword := []
  /-- The register of device control space whose access from U mode raised its last access fault (R58). -/
  accessFault : Option Nat := none
  /-- Its mailbox interrupt (R59). -/
  mailIrq : Bool := false
  /-- The protected image that the Lintel holds for it (R65). -/
  image : List Byte := []
deriving DecidableEq, Repr

/-- A receive mailbox (R59). -/
structure Mailbox where
  full : Bool := false
  msg : BitVec 512 := 0
deriving DecidableEq, Repr

/-- An event for sv4 (R70, R72, R75, R79, R80): kind, and the numbers it carries. -/
inductive Sv4Event where
  | overrun (qid src : Nat)
  | stalledQueue (qid : Nat)
  | reservedType (qid pseq : Nat)
  | recordFailed (lid : Nat)
  | noKnock (lid : Nat)
  | trapStopped (wid : Nat)
  | orphan (ctx slot src : Nat)
deriving DecidableEq, Repr

/-- A work-queue unit (R81, R300 to R302): launch and context it is bound to, entries, and lanes waiting: op and lane. -/
structure WqUnit where
  owner : Option (Nat × Nat) := none
  entries : List (BitVec 128) := []
  waiters : List (Nat × Nat) := []
deriving DecidableEq, Repr

/-- A context's entry in sv3's table (R77, R264, R405), with its Closet state (R420). -/
structure Ctx where
  enabled : Bool := false
  root : Nat := 0
  trdel : Dword := 0
  syshand : Dword := 0
  preempted : Bool := false
deriving DecidableEq, Repr

/-- An account (R442, R443): 64 counters and 16 stall counters; counters not listed read 0. -/
structure Account where
  counters : Tbl Nat := []
  stalls : Tbl Nat := []
deriving DecidableEq, Repr

/-- A grant of a cellar window to a context (R254). -/
structure CellarWin where
  ctx : Nat
  base : Nat
  len : Nat
  zp : Bool
deriving DecidableEq, Repr

/-- A window of this device (R352), as its 256-bit entry. -/
abbrev WinEntry := BitVec 256

/-- A frame this device has sent (R357, R369, R80). -/
inductive Frame where
  | remote (dev : Nat) (r : RemReq)
  /-- An answer, with the instant from which it leaves (R359). -/
  | reply (dev opId ns : Nat) (ans : List RemAns)
  | knock (dev : Nat) (bits : BitVec 128)
  | record (dev : Nat) (key : Dword) (data : BitVec 256)
  | bulk (dev : Nat) (r : BulkReq)
  | token (dev msg tok off len : Nat)
  | data (dev tok off : Nat) (bytes : List Byte)
  | ack (dev msg units status : Nat)
  | cancel (dev msg : Nat)
  | orphan (dev msg : Nat)
  | refused (dev msg : Nat)
deriving DecidableEq, Repr

/-- An event still to come: the base clock cycle from which it may happen. -/
structure Pend where
  due : Nat
  ev : Instr
deriving DecidableEq, Repr

/-! ## The device -/

structure State where
  -- time
  base : Nat
  clusters : List Cluster
  -- boot and supervisors
  booted : Bool
  bootFailed : Bool
  bootStatus : Nat
  parkedDev : Bool
  flash : List Byte
  devid : Nat
  podsize : Nat
  hbtoNs : Nat
  /-- IVER of the image, as the Lintel reports it (R65). -/
  iver : Nat
  /-- The peer of each of the 72 scale-up lanes, none for a spare one (R348). -/
  laneMap : List (Option Nat)
  svs : List Sv
  mailboxes : Tbl Mailbox
  busy : List Bool
  events : List Sv4Event
  devRegs : Tbl Dword
  queues : Tbl Queue
  queueKeys : Tbl (BitVec 128)
  /-- Knock keys sv5 holds for (CTX, device, QID), by (ctx × 64 + device) × 1024 + QID (R402). -/
  knockKeys : Tbl (BitVec 128)
  /-- Knock keys for (CQDEV, CQID), by device × 1024 + QID (R80). -/
  cqKeys : Tbl (BitVec 128)
  wqUnits : List WqUnit
  contexts : Tbl Ctx
  -- work
  launches : Tbl Launch
  teams : Tbl Team
  warps : Tbl Warp
  issuing : List Issue
  ops : Tbl Op
  cores : List Core
  spares : List Nat
  preempts : List (Nat × List Nat)
  -- memory
  hbm : List Host.Cell
  l2 : Tbl L2Line
  undefined : Tbl (BitVec 128)
  poison : List Nat
  dieE : List Nat
  keySlots : Tbl (BitVec 512)
  cellar : List Host.Cell
  cellarPoison : List Nat
  cellarWins : List CellarWin
  /-- Cellar writes that wait: the context asking, offset and bytes (R255). -/
  cellarReqs : List (Nat × Nat × List Byte)
  dieTlb : List (List TlbEnt)
  walks : List Walk
  /-- What deferring walks have asked of sv3 and it has not answered (R268). -/
  deferReqs : List DeferReq
  -- fabric
  windows : Tbl WinEntry
  /-- Peer slots 16 to 63 of sv5's peer table that are mapped, with their address (R347). -/
  peerTable : Tbl Nat
  /-- Intermediate peer of a (source, target) pair, by 64 × source + target (R349). -/
  routes : Tbl Nat
  peersLost : List Nat
  /-- By peer, the work whose requests have been sent on a path that is no longer its route, and not answered (R349). -/
  oldPath : Tbl (List Nat)
  /-- Requests that wait for that, with the peer (R349). -/
  heldOut : List (Nat × Frame)
  linkErrors : Tbl Nat
  uetDrops : Nat
  discards : Nat
  rejections : Tbl (List Nat)
  lockouts : List Nat
  outbox : List Frame
  /-- Requests held at the ingress until sv3 answers a deferred walk, each source's in the order of arrival (R268, R361). -/
  ingressQ : List RemReq
  msgs : Tbl BulkMsg
  /-- Bulk requests refused and not repeated yet, in order: source, its message, and the window (R369). -/
  refusals : List (Nat × Nat × Nat)
  tokens : Tbl Token
  /-- The PRIO class whose turn of the weighted round robin it is, and the tokens it may still grant in it (R371). -/
  turn : Nat × Nat
  /-- Failed translations of requests from the fabric: context, page, REASON, LEVEL. -/
  ingressRes : List (Nat × Nat × Nat × Nat)
  -- accounts
  accounts : Tbl Account
  devAcct : Account
  snapshots : List (Option Nat × Nat × Nat × Account)
  reassigned : List (Nat × Account)
  -- power
  plans : Tbl Plan
  plansInForce : Tbl Plan
  /-- The instants before which the package current may not rise, and may not fall, by another change of load (R62, R432). -/
  slopeUp : Nat
  slopeDown : Nat
  -- steps to make
  agenda : List Instr
  pending : List Pend
  inputs : List Pend
  -- the model's own
  fresh : Nat
  nextId : Nat
  /-- The identity that was next when the base clock cycle began (R232). -/
  cycleId : Nat
  /-- The L2 fills of this base clock cycle: line, and the place in R445's order and the context of the request charged with it. -/
  fills : List (Nat × Nat × Nat)
deriving DecidableEq, Repr

/-- A room at reset (R165): its round-robin pointer at 0, which the spec leaves open (DESIGN CHOICE, log 8). -/
def Room.reset : Room := {}

/-- A core at reset: no line, no translation, counters 0 (R443). -/
def Core.reset : Core where
  rooms := List.replicate 4 {}
  islands := List.replicate 16 {}
  stalls := List.replicate 64 0

/-- The device after reset (R61, R63, R77, R256, R426, R428, R442): what the spec gives, and what log 5 to 8 and 20 name. -/
def State.reset : State where
  base := 0
  clusters := List.replicate 24 {}
  booted := false
  bootFailed := false
  bootStatus := 0
  parkedDev := false
  flash := []
  devid := 0
  podsize := 1
  hbtoNs := 10000000
  iver := 0
  laneMap := []
  svs := List.replicate 8 {}
  mailboxes := []
  busy := List.replicate 8 false
  events := []
  devRegs := []
  queues := []
  queueKeys := []
  knockKeys := []
  cqKeys := []
  wqUnits := List.replicate 128 {}
  contexts := []
  launches := []
  teams := []
  warps := []
  issuing := []
  ops := []
  cores := List.replicate 192 Core.reset
  spares := [2, 2]
  preempts := []
  hbm := []
  l2 := []
  undefined := []
  poison := []
  dieE := [0, 0]
  keySlots := []
  cellar := []
  cellarPoison := []
  cellarWins := []
  cellarReqs := []
  dieTlb := [[], []]
  walks := []
  deferReqs := []
  windows := []
  peerTable := []
  routes := []
  peersLost := []
  oldPath := []
  heldOut := []
  linkErrors := []
  uetDrops := 0
  discards := 0
  rejections := []
  lockouts := []
  outbox := []
  ingressQ := []
  msgs := []
  refusals := []
  tokens := []
  turn := (0, 0)
  ingressRes := []
  accounts := []
  devAcct := {}
  snapshots := []
  reassigned := []
  plans := []
  plansInForce := []
  slopeUp := 0
  slopeDown := 0
  agenda := []
  pending := []
  inputs := []
  fresh := 0
  nextId := 0
  cycleId := 0
  fills := []

end Sys2Proof.Machine
end

