-- ==== Sys2Proof/Machine/Tables.lean ====
section
/-! DEFINITION. Tables keyed by a number and byte memories in their canonical form, and the small bit-field and lane-set
operations the meanings use. -/

namespace Sys2Proof.Machine

/-! ## Tables: strictly rising keys -/

/-- The entry of a key. -/
def tget {α : Type} : Tbl α → Nat → Option α
  | [], _ => none
  | (k, v) :: t, n => if n = k then some v else if n < k then none else tget t n

/-- The table with a key set. -/
def tset {α : Type} : Tbl α → Nat → α → Tbl α
  | [], n, v => [(n, v)]
  | (k, x) :: t, n, v => if n = k then (n, v) :: t else if n < k then (n, v) :: (k, x) :: t else (k, x) :: tset t n v

/-- The table without a key. -/
def tdel {α : Type} : Tbl α → Nat → Tbl α
  | [], _ => []
  | (k, x) :: t, n => if n = k then t else if n < k then (k, x) :: t else (k, x) :: tdel t n

/-- The table with a key's entry changed, if it has one. -/
def tmod {α : Type} (t : Tbl α) (n : Nat) (f : α → α) : Tbl α :=
  match tget t n with
  | some v => tset t n (f v)
  | none => t

/-- A list with the entry at a position changed, if it has one. -/
def lmod {α : Type} : List α → Nat → (α → α) → List α
  | [], _, _ => []
  | x :: xs, 0, f => f x :: xs
  | x :: xs, n + 1, f => x :: lmod xs n f

/-! ## Byte memories: addresses strictly rising, no byte 0 listed -/

/-- A byte; an unlisted one reads 0 (log 6). -/
def cget (m : List Host.Cell) (a : Nat) : Byte := (tget m a).getD 0

/-- A byte written; 0 unlists it. -/
def cset (m : List Host.Cell) (a : Nat) (b : Byte) : List Host.Cell := if b = 0 then tdel m a else tset m a b

/-- Whether addresses rise strictly from `lo` on and no entry is 0. -/
def cwfFrom : Nat → List Host.Cell → Bool
  | _, [] => true
  | lo, (a, b) :: m => lo ≤ a && b != 0 && cwfFrom (a + 1) m

/-- The canonical form of a byte memory. -/
def cwf (m : List Host.Cell) : Bool := cwfFrom 0 m

/-- `n` bytes written from `a` up, the lowest first, from the low bits of a number. -/
def csetN (m : List Host.Cell) (a : Nat) : Nat → Nat → List Host.Cell
  | 0, _ => m
  | n + 1, v => csetN (cset m a (BitVec.ofNat 8 v)) (a + 1) n (v / 256)

/-- `n` bytes from `a` up as a number, the lowest in the low bits (R7). -/
def cgetN (m : List Host.Cell) (a : Nat) : Nat → Nat
  | 0 => 0
  | n + 1 => (cget m a).toNat + 256 * cgetN m (a + 1) n

/-- The bytes of a list written from `a` up. -/
def csetL (m : List Host.Cell) (a : Nat) : List Byte → List Host.Cell
  | [] => m
  | b :: bs => csetL (cset m a b) (a + 1) bs

/-! ## Lines of 128 bytes -/

/-- Byte i of a line. -/
def lineByte (d : BitVec 1024) (i : Nat) : Byte := BitVec.ofNat 8 (d.toNat / 2 ^ (8 * i))

/-- A line with byte i replaced. -/
def lineSet (d : BitVec 1024) (i : Nat) (b : Byte) : BitVec 1024 :=
  (d &&& ~~~(BitVec.ofNat 1024 (255 * 2 ^ (8 * i)))) ||| BitVec.ofNat 1024 (b.toNat * 2 ^ (8 * i))

/-! ## Lane sets -/

/-- The lanes of a set, lowest first. -/
def lanesOf (m : Lanes) : List Nat := (List.range 64).filter fun l => m.getLsbD l

/-- The set of one lane. -/
def lane1 (l : Nat) : Lanes := BitVec.ofNat 64 (2 ^ l)

/-- The set of a list of lanes. -/
def laneSet (ls : List Nat) : Lanes := ls.foldl (fun m l => m ||| lane1 l) 0

/-- The lanes 0 to w − 1. -/
def allLanes (w : Nat) : Lanes := BitVec.ofNat 64 (2 ^ w - 1)

/-- The lowest lane of a set. -/
def lowLane (m : Lanes) : Option Nat := (lanesOf m).head?

/-- The lanes of slice i given by its four bits. -/
def quadLanes (i : Nat) (q : Quad) : Lanes := BitVec.ofNat 64 (q.toNat * 2 ^ (4 * i))

/-- The four bits of slice i in a set of lanes. -/
def laneQuad (i : Nat) (m : Lanes) : Quad := BitVec.ofNat 4 (m.toNat / 2 ^ (4 * i))

/-! ## Numbers -/

/-- A number read as a signed one of `w` bits. -/
def sextN (w n : Nat) : Int := let v := n % 2 ^ w; if v < 2 ^ (w - 1) then (v : Int) else (v : Int) - 2 ^ w

/-- The low `w` bits of an integer, in two's complement. -/
def wrapN (w : Nat) (x : Int) : Nat := (x % (2 ^ w : Int)).toNat

/-- An integer clamped to a range. -/
def clampI (lo hi x : Int) : Int := if x < lo then lo else if hi < x then hi else x

/-- Whether a predicate bit of a word is set. -/
def wbit (w : Word) (k : Nat) : Bool := w.getLsbD k

/-- The low and high words of 64 bits. -/
def loWord (d : Dword) : Word := BitVec.ofNat 32 d.toNat
def hiWord (d : Dword) : Word := BitVec.ofNat 32 (d.toNat / 2 ^ 32)

/-- 64 bits from two words (R16). -/
def pairWord (lo hi : Word) : Dword := BitVec.ofNat 64 (lo.toNat + 2 ^ 32 * hi.toNat)

/-- The first element of a list that a test accepts, with its position. -/
def findPos {α : Type} (p : α → Bool) : List α → Nat → Option (Nat × α)
  | [], _ => none
  | x :: xs, n => if p x then some (n, x) else findPos p xs (n + 1)

end Sys2Proof.Machine
end

