-- ==== Sys2Proof/Machine/Aes.lean ====
section
/-! DEFINITION. XTS-AES-256 over 64-byte blocks, for memory encryption (R276), and SipHash-2-4, for latchkeys and knocks (R68, R351). -/

namespace Sys2Proof.Machine

/-! ## AES-256 -/

/-- Multiplication by x in GF(2^8) with AES's polynomial. -/
def gx (a : Nat) : Nat := if a < 128 then 2 * a else (2 * a) % 256 ^^^ 0x1B

/-- Multiplication in GF(2^8); `n` bits of b are used. -/
def gmul (a b : Nat) : Nat → Nat
  | 0 => 0
  | n + 1 => (if b % 2 = 1 then a else 0) ^^^ gmul (gx a) (b / 2) n

/-- a^254, the inverse, by squaring: exponents 2, 4, … 128 multiplied together. -/
def ginvFrom (sq : Nat) : Nat → Nat
  | 0 => 1
  | n + 1 => let q := gmul sq sq 8; gmul q (ginvFrom q n) 8

def ginv (a : Nat) : Nat := ginvFrom a 7

/-- An 8-bit rotation to the left. -/
def rot8 (a n : Nat) : Nat := (a * 2 ^ n) % 256 + a / 2 ^ (8 - n)

/-- The S-box and its inverse. -/
def sbox (a : Nat) : Nat := let b := ginv a; b ^^^ rot8 b 1 ^^^ rot8 b 2 ^^^ rot8 b 3 ^^^ rot8 b 4 ^^^ 0x63
def invSbox (a : Nat) : Nat := ginv (rot8 a 1 ^^^ rot8 a 3 ^^^ rot8 a 6 ^^^ 0x05)

def xorL (a b : List Nat) : List Nat := List.zipWith (· ^^^ ·) a b

/-- The round keys' words, built from the eight key words: word i from words i − 1 and i − 8. `ws` is in reverse. -/
def expandKey : Nat → Nat → Nat → List (List Nat) → List (List Nat)
  | 0, _, _, ws => ws
  | n + 1, i, rcon, ws =>
    let prev := ws.headD []
    let back := ws.getD 7 []
    let t := if i % 8 = 0 then
        match prev.map sbox with
        | [a, b, c, d] => [b ^^^ rcon, c, d, a]
        | _ => []
      else if i % 8 = 4 then prev.map sbox else prev
    expandKey n (i + 1) (if i % 8 = 0 then gx rcon else rcon) (xorL back t :: ws)

/-- The sixteen bytes of each round key. -/
def groups4 : Nat → List (List Nat) → List (List Nat)
  | 0, _ => []
  | n + 1, ws => (ws.take 4).flatten :: groups4 n (ws.drop 4)

def bytesOf (n : Nat) : Nat → List Nat
  | 0 => []
  | k + 1 => n % 256 :: bytesOf (n / 256) k

def natOf : List Nat → Nat
  | [] => 0
  | b :: bs => b + 256 * natOf bs

def chunk4 (l : List Nat) : Nat → List (List Nat)
  | 0 => []
  | n + 1 => l.take 4 :: chunk4 (l.drop 4) n

/-- The 15 round keys of a 256-bit key whose byte 0 is in the low bits. -/
def roundKeys (key : Nat) : List (List Nat) :=
  groups4 15 (expandKey 52 8 1 (chunk4 (bytesOf key 32) 8).reverse).reverse

/-- ShiftRows over the column-major state: byte r of column c comes from column c + r · dir. -/
def shiftRows (dir : Nat) (s : List Nat) : List Nat :=
  (List.range 16).map fun i => s.getD (((i / 4 + (i % 4) * dir) % 4) * 4 + i % 4) 0

def mixCol (m : List Nat) (col : List Nat) : List Nat :=
  (List.range 4).map fun r => (List.range 4).foldl (fun a k => a ^^^ gmul (col.getD k 0) (m.getD ((k + 4 - r) % 4) 0) 8) 0

def mixAll (m : List Nat) (s : List Nat) : List Nat := (chunk4 s 4).flatMap (mixCol m)

def encRounds : List (List Nat) → List Nat → List Nat
  | [], s => s
  | [k], s => xorL (shiftRows 1 (s.map sbox)) k
  | k :: ks, s => encRounds ks (xorL (mixAll [2, 3, 1, 1] (shiftRows 1 (s.map sbox))) k)

def decRounds : List (List Nat) → List Nat → List Nat
  | [], s => s
  | [k], s => xorL ((shiftRows 3 s).map invSbox) k
  | k :: ks, s => decRounds ks (mixAll [14, 11, 13, 9] (xorL ((shiftRows 3 s).map invSbox) k))

/-- One 16-byte block encrypted or decrypted. -/
def aesEnc (key : Nat) (blk : List Nat) : List Nat :=
  match roundKeys key with
  | k :: ks => encRounds ks (xorL blk k)
  | [] => blk

def aesDec (key : Nat) (blk : List Nat) : List Nat :=
  match (roundKeys key).reverse with
  | k :: ks => decRounds ks (xorL blk k)
  | [] => blk

/-- The next tweak: multiplication by α in GF(2^128). -/
def xtsNext (t : Nat) : Nat := (2 * t) % 2 ^ 128 ^^^ (if t < 2 ^ 127 then 0 else 0x87)

def xtsBlocks (enc : Bool) (key : Nat) : Nat → Nat → List Nat → List Nat
  | 0, _, _ => []
  | n + 1, t, d =>
    let tb := bytesOf t 16
    let b := xorL (d.take 16) tb
    xorL (if enc then aesEnc key b else aesDec key b) tb ++ xtsBlocks enc key n (xtsNext t) (d.drop 16)

/-- A 64-byte block under a 512-bit key pair, data key in the low half, with its tweak PA[47:6] (R276). -/
def xtsBlock (enc : Bool) (pair : Nat) (blk : Nat) (d : List Nat) : List Nat :=
  xtsBlocks enc (pair % 2 ^ 256) 4 (natOf (aesEnc (pair / 2 ^ 256) (bytesOf blk 16))) d

/-- A 128-byte line as a number, both of its blocks converted. -/
def xtsLine (enc : Bool) (pair : Nat) (line : Nat) (d : BitVec 1024) : BitVec 1024 :=
  let bs := bytesOf d.toNat 128
  BitVec.ofNat 1024 (natOf (xtsBlock enc pair (2 * line) (bs.take 64) ++ xtsBlock enc pair (2 * line + 1) (bs.drop 64)))

/-! ## SipHash-2-4 -/

abbrev SipState := Dword × Dword × Dword × Dword

def sipRound : SipState → SipState
  | (v0, v1, v2, v3) =>
    let v0 := v0 + v1
    let v1 := v1.rotateLeft 13 ^^^ v0
    let v0 := v0.rotateLeft 32
    let v2 := v2 + v3
    let v3 := v3.rotateLeft 16 ^^^ v2
    let v0 := v0 + v3
    let v3 := v3.rotateLeft 21 ^^^ v0
    let v2 := v2 + v1
    let v1 := v1.rotateLeft 17 ^^^ v2
    let v2 := v2.rotateLeft 32
    (v0, v1, v2, v3)

/-- SipHash-2-4 of a message of `len` bytes given as a number, byte 0 in the low bits, under a 128-bit key. -/
def sipAbsorb : Nat → Nat → SipState → SipState
  | 0, _, v => v
  | n + 1, m, (v0, v1, v2, v3) =>
    let w : Dword := BitVec.ofNat 64 m
    let (a, b, c, d) := sipRound (sipRound (v0, v1, v2, v3 ^^^ w))
    sipAbsorb n (m / 2 ^ 64) (a ^^^ w, b, c, d)

def sipHash (key : BitVec 128) (len msg : Nat) : Dword :=
  let k0 : Dword := key.setWidth 64
  let k1 : Dword := (key >>> 64).setWidth 64
  let v : SipState := (k0 ^^^ 0x736f6d6570736575, k1 ^^^ 0x646f72616e646f6d, k0 ^^^ 0x6c7967656e657261, k1 ^^^ 0x7465646279746573)
  let words := len / 8
  let last := msg / 2 ^ (64 * words) % 2 ^ 56 + (len % 256) * 2 ^ 56
  let (a, b, c, d) := sipAbsorb (words + 1) (msg % 2 ^ (64 * words) + last * 2 ^ (64 * words)) v
  let (a, b, c, d) := sipRound (sipRound (sipRound (sipRound (a, b, c ^^^ 0xff, d))))
  a ^^^ b ^^^ c ^^^ d

end Sys2Proof.Machine
end

