-- ==== Sys2Proof/Machine/Ops.lean ====
section
/-! DEFINITION. The shared operations: time, the records of the state, registers and landings, results in flight, hooks, control
registers, and taking a trap and returning from one. -/

namespace Sys2Proof.Machine

abbrev Result := Host.Outcome State Fault Refusal

/-! ## Time -/

/-- TIMENS: the nanoseconds since reset, of base cycles of 0.8 ns (R3, R5, R428). -/
def timens (s : State) : Nat := s.base * 4 / 5

/-- The first base cycle at which TIMENS is at least `ns`. -/
def baseAt (ns : Nat) : Nat := (ns * 5 + 3) / 4

/-- The clock of a core's cluster (R2, R426). -/
def clusterOf (s : State) (core : Nat) : Cluster := s.clusters.getD (core / 8) {}

/-- The clock cycle of a core. -/
def coreCycle (s : State) (core : Nat) : Nat := (clusterOf s core).cycles

/-- The die of a core (R2). -/
def dieOf (core : Nat) : Nat := core / 96

/-! ## Records -/

def State.warp? (s : State) (wid : Nat) : Option Warp := tget s.warps wid
/-- The room of a warp; 0 for one that does not exist. -/
def roomOf (s : State) (wid : Nat) : Nat := (s.warp? wid).elim 0 Warp.room
def State.team? (s : State) (tid : Nat) : Option Team := tget s.teams tid
def State.launch? (s : State) (lid : Nat) : Option Launch := tget s.launches lid
def State.core (s : State) (c : Nat) : Core := s.cores.getD c Core.reset
def State.putWarp (s : State) (w : Warp) : State := { s with warps := tset s.warps w.wid w }
def State.putTeam (s : State) (t : Team) : State := { s with teams := tset s.teams t.tid t }
def State.putLaunch (s : State) (l : Launch) : State := { s with launches := tset s.launches l.lid l }
def State.modWarp (s : State) (wid : Nat) (f : Warp → Warp) : State := { s with warps := tmod s.warps wid f }
def State.modTeam (s : State) (tid : Nat) (f : Team → Team) : State := { s with teams := tmod s.teams tid f }
def State.modLaunch (s : State) (lid : Nat) (f : Launch → Launch) : State := { s with launches := tmod s.launches lid f }
def State.modCore (s : State) (c : Nat) (f : Core → Core) : State := { s with cores := lmod s.cores c f }
def State.modOp (s : State) (id : Nat) (f : Op → Op) : State := { s with ops := tmod s.ops id f }
def State.delOp (s : State) (id : Nat) : State := { s with ops := tdel s.ops id }
def State.ctx (s : State) (c : Nat) : Ctx := (tget s.contexts c).getD {}

/-- A supervisor core's record (R57). -/
def State.sv (s : State) (k : Nat) : Sv := s.svs.getD k {}
def State.modSv (s : State) (k : Nat) (f : Sv → Sv) : State := { s with svs := lmod s.svs k f }

/-- Whether a supervisor runs (R63, R83). -/
def State.svUp (s : State) (k : Nat) : Bool := s.booted && !(s.sv k).inReset

/-- The launch of a warp, and its context. -/
def launchOf (s : State) (w : Warp) : Option Launch := (s.team? w.team).bind fun t => s.launch? t.launch

/-- Bits [lo + n − 1 : lo] of a packet (R76). -/
def Packet.fld (p : Packet) (lo n : Nat) : Nat := (p.toNat >>> lo) % 2 ^ n

/-- CTX of a launch (R76). -/
def Launch.ctx (l : Launch) : Nat := Packet.fld l.packet 192 9

/-- The context of a warp. -/
def ctxOf (s : State) (w : Warp) : Nat :=
  match launchOf s w with
  | some l => l.ctx
  | none => 0

/-- A step to make at once, before the rest of this cycle's. -/
def State.soon (s : State) (i : Instr) : State := { s with agenda := i :: s.agenda }

/-- An event that may happen `n` base cycles from now, at the earliest. -/
def State.later (s : State) (n : Nat) (i : Instr) : State := { s with pending := s.pending ++ [⟨s.base + n, i⟩] }

/-- An event of variable latency: at least `n` base cycles from now, and a free number more (log 4). -/
def State.laterFree (s : State) (n : Nat) (i : Instr) : State :=
  { s with pending := s.pending ++ [⟨s.base + n + Config.delay s.fresh, i⟩], fresh := s.fresh + 1 }

/-- A new identity. -/
def State.bump (s : State) : State := { s with nextId := s.nextId + 1 }

/-- The next free value. -/
def State.used (s : State) : State := { s with fresh := s.fresh + 1 }

/-! ## Requests on their way to a peer (R347, R349) -/

/-- Target device and window of a latchkey (R350). -/
def keyDev (k : Dword) : Nat := bits k.toNat 58 6
def keyWin (k : Dword) : Nat := bits k.toNat 48 10

/-- Whether the copy of a piece of work waits for an answer of a device. -/
def CopyOp.awaits (c : CopyOp) (dev : Nat) : Bool := c.asked.isSome && c.entry.any fun e => keyDev e.2.2 = dev

/-- Whether work has a request to a device that has not been answered (R349); that of a bulk transfer is answered by its first token, and
counts as timed out after 1 ms like the others (R360; log 46). -/
def OpKind.awaits (k : OpKind) (now dev : Nat) : Bool :=
  match k with
  | .remote r => r.waiting.any fun w => keyDev w.2.1 = dev
  | .copy c => c.awaits dev
  | .matrix m => m.copy.any fun c => c.awaits dev
  | .knock d => d = dev
  | .record _ key _ => keyDev key = dev
  | .bsend b => b.sent && !b.moving && b.done.isNone && keyDev b.key = dev && now < b.sentNs + 1000000
  | .mem _ | .fence _ _ | .wqdeq _ _ | .sysc _ _ _ | .brecv _ => false

/-- The work whose request a frame carries. -/
def Frame.work : Frame → Option Nat
  | .remote _ r => some r.opId
  | .bulk _ r => some r.msg
  | .reply _ _ _ _ | .knock _ _ | .record _ _ _ | .token _ _ _ _ _ | .data _ _ _ _ | .ack _ _ _ _ | .cancel _ _ | .orphan _ _
  | .refused _ _ => none

/-- The work whose requests to a device have been sent and not been answered. -/
def awaiting (s : State) (dev : Nat) : List Nat :=
  (s.ops.filter fun e => e.2.kind.awaits (timens s) dev && !(s.heldOut.any fun h => h.2.work = some e.1)).map Prod.fst

/-- Work on an old path that has been answered, or has timed out, forgotten, and the requests that waited for it sent (R349). -/
def releaseHeld (s : State) : State :=
  if s.oldPath.isEmpty then s
  else
    let left := (s.oldPath.map fun e => (e.1, e.2.filter fun id => (awaiting s e.1).contains id)).filter fun e => !e.2.isEmpty
    let stays (h : Nat × Frame) : Bool := (tget left h.1).isSome
    { s with
      oldPath := left
      heldOut := s.heldOut.filter stays
      outbox := s.outbox ++ (s.heldOut.filter fun h => !stays h).map Prod.snd }

/-- A frame sent to another device: held while a request sent on an earlier path has no answer. -/
def State.emit (s : State) (dev : Nat) (f : Frame) : State :=
  if (tget s.oldPath dev).isSome then { s with heldOut := s.heldOut ++ [(dev, f)] } else { s with outbox := s.outbox ++ [f] }

/-- A frame that has not left taken back. -/
def State.unsend (s : State) (f : Frame) : State :=
  { s with outbox := s.outbox.filter (· != f), heldOut := s.heldOut.filter fun h => h.2 != f }

/-! ## Ranges -/

/-- Ranges, as start and length, without the bytes from `a` on of length `n`. -/
def cutRange (a n : Nat) (rs : List (Nat × Nat)) : List (Nat × Nat) :=
  rs.flatMap fun r =>
    (if r.1 < a then [(r.1, min r.2 (a - r.1))] else [])
      ++ (if a + n < r.1 + r.2 then [(max r.1 (a + n), r.1 + r.2 - max r.1 (a + n))] else [])

/-- What of some ranges lies among the bytes from `a` on of length `n`. -/
def meetRange (a n : Nat) (rs : List (Nat × Nat)) : List (Nat × Nat) :=
  rs.filterMap fun r =>
    let lo := max r.1 a
    let hi := min (r.1 + r.2) (a + n)
    if lo < hi then some (lo, hi - lo) else none

/-- What the drains of a matrix engine have put into scratchpad, without bytes that have been written again since (R331). -/
def Engine.overwritten (e : Engine) (ws : List (Nat × Nat)) : Engine :=
  let cut (d : Drained) : Drained := { d with put := ws.foldl (fun rs w => cutRange w.1 w.2 rs) d.put }
  { e with tiles := e.tiles.map fun y => { y with drains := y.drains.map cut } }

/-- Ranges of a team's scratchpad written again: its matrix engines, on its cores or in its saved image, no longer count them among what
their drains have put there. -/
def overwrite (s : State) (t : Team) (ws : List (Nat × Nat)) : State :=
  if t.place = .saved then s.modTeam t.tid fun t => { t with engines := t.engines.map fun e => (e.1, e.2.overwritten ws) }
  else (if t.paired then [t.core, t.core + 1] else [t.core]).foldl (fun s c => s.modCore c fun k =>
    if k.engine.holder = some t.tid then { k with engine := k.engine.overwritten ws } else k) s

/-! ## Registers and landings (R88, R121) -/

/-- The key of an operand in a lane. -/
def regKey (n lane : Nat) : Nat := n * 64 + lane

/-- The cell of a register or landing in a lane: a landing that nothing has written has no tag either (R78, R121). -/
def Warp.cell (w : Warp) (n lane : Nat) : RegCell := (tget w.regs (regKey n lane)).getD { tagU := decide (768 ≤ n) }

/-- The bits of operand `n` in `lane` that a destination covers. -/
def Dst.covers (d : Dst) (n : Nat) : Word :=
  match d with
  | .regs o span => if o ≤ n && n < o + span && n < 776 then 0xFFFFFFFF else 0
  | .bits o j count _ => if o = n && n < 776 then BitVec.ofNat 32 ((2 ^ count - 1) * 2 ^ j) else 0

/-- Whether a destination is the whole of operands, so that its tag is undefined too while it is in flight (R154, R190). -/
def Dst.whole : Dst → Bool
  | .regs _ _ => true
  | .bits _ _ _ _ => false

/-- The destinations that are undefined, with their lanes: results in flight (R154), results in the Attic (R411) and hooked work
not dropped past (R164). -/
def Warp.openDsts (w : Warp) : List (Dst × Lanes) :=
  w.flight.map (fun f => (f.dst, f.mask))
    ++ (match w.attic with
        | some a => a.flights.map fun f => (f.dst, f.mask)
        | none => [])
    ++ (w.hooks.flatMap fun h => h.items.map fun i => (i.dst, i.lanes))

/-- The bits of an operand in a lane that work in flight leaves undefined. -/
def openBits (ds : List (Dst × Lanes)) (n lane : Nat) : Word :=
  ds.foldl (fun m d => if d.2.getLsbD lane then m ||| d.1.covers n else m) 0

/-- Whether work in flight leaves the tag of an operand in a lane undefined. -/
def openTag (ds : List (Dst × Lanes)) (n lane : Nat) : Bool :=
  ds.any fun d => d.2.getLsbD lane && d.1.whole && d.1.covers n != 0

/-- A register or landing read in a lane: the value and tag last written, with free bits where they are undefined (R10, R155). -/
def regRead (s : State) (w : Warp) (n lane : Nat) : Word × Tag :=
  let c := w.cell n lane
  let ds := w.openDsts
  let m := c.undef ||| openBits ds n lane
  (if m = 0 then c.val else (c.val &&& ~~~m) ||| (Config.freeWord s.fresh n lane &&& m),
    if c.tagU || openTag ds n lane then Config.freeTag s.fresh n lane else c.tag)

/-- A tag as it is stored: 54 to 61 are never stored (R29). -/
def storeTag (t : Tag) : Tag := if 54 ≤ t.toNat && t.toNat ≤ 61 then 0 else t

/-- A register or landing written in a lane; operand 1023 and the hatches hold nothing here (R119, R122). -/
def Warp.write (w : Warp) (n lane : Nat) (v : Word) (t : Tag) : Warp :=
  if n < 776 then { w with regs := tset w.regs (regKey n lane) ⟨v, 0, storeTag t, false⟩ } else w

/-- The old bit combined with the new one (R190). -/
def combine (c : Cmb) (old new : Bool) : Bool :=
  match c with
  | .set => new
  | .and => old && new
  | .or => old || new

/-- Bit `j` of an operand written in a lane, the old bit free where it is undefined, the tag 63 (R190). -/
def Warp.writeBit (w : Warp) (fresh n lane j : Nat) (r : Bool) (cmb : Cmb) : Warp :=
  if n < 776 then
    let c := w.cell n lane
    let m : Word := BitVec.ofNat 32 (2 ^ j)
    let old := if c.undef.getLsbD j then (Config.freeWord fresh n lane).getLsbD j else c.val.getLsbD j
    let v := if combine cmb old r then c.val ||| m else c.val &&& ~~~m
    { w with regs := tset w.regs (regKey n lane) ⟨v, c.undef &&& ~~~m, 63, false⟩ }
  else w

/-- A register whose last use has passed (R125): value and tag undefined. -/
def Warp.kill (w : Warp) (n lane : Nat) : Warp :=
  if n < 768 then { w with regs := tset w.regs (regKey n lane) ⟨0, 0xFFFFFFFF, 0, true⟩ } else w

/-- Last uses of ticks before one make their registers undefined (R125). -/
def Warp.applyKills (w : Warp) (tick : Nat) : Warp :=
  let gone := w.kills.filter fun k => k.1 < tick
  let w := gone.foldl (fun w k => (lanesOf k.2.2).foldl (fun w l => w.kill k.2.1 l) w) w
  { w with kills := w.kills.filter fun k => tick ≤ k.1 }

/-- The words of one lane's result written to consecutive operands. -/
def Warp.writeVals (w : Warp) (n lane : Nat) : List (Word × Tag) → Warp
  | [] => w
  | (v, t) :: vs => (w.write n lane v t).writeVals (n + 1) lane vs

/-- One lane's result written to its destination; bits of a bit form are those of word 0 (R190, R208). -/
def Warp.writeRes (w : Warp) (fresh : Nat) (d : Dst) (r : LaneRes) : Warp :=
  match d with
  | .regs n _ => w.writeVals n r.lane r.vals
  | .bits n j count cmb =>
    (List.range count).foldl
      (fun w k => w.writeBit fresh n r.lane (j + k) (wbit (match r.vals with
        | (v, _) :: _ => v
        | [] => 0) k) cmb) w

/-- Last uses of an operand that have not taken effect yet, taking effect in the lanes that are about to be written: the write comes
after the last use, and counts (R125). -/
def Warp.killNow (w : Warp) (lanes : Lanes) (n : Nat) : Warp :=
  let hit (k : Nat × Nat × Lanes) : Lanes := if k.2.1 = n then k.2.2 &&& lanes else 0
  let v := w.kills.foldl (fun v k => (lanesOf (hit k)).foldl (fun v l => v.kill n l) v) w
  { v with kills := w.kills.map fun k => (k.1, k.2.1, k.2.2 &&& ~~~(hit k)) }

/-- The operands of a destination. -/
def Dst.opnds : Dst → List Nat
  | .regs n span => if n < 776 then (List.range span).map (n + ·) else []
  | .bits n _ _ _ => if n < 776 then [n] else []

/-- Results of several lanes written. -/
def Warp.writeAll (w : Warp) (fresh : Nat) (d : Dst) (rs : List LaneRes) : Warp :=
  let w := if w.kills.isEmpty then w else d.opnds.foldl (Warp.killNow · (laneSet (rs.map LaneRes.lane))) w
  rs.foldl (fun w r => w.writeRes fresh d r) w

/-! ## Hooks (R162, R163) -/

/-- A hook of a warp. -/
def Warp.hook (w : Warp) (h : Nat) : HookSt := w.hooks.getD h {}

/-- The count of a hook. -/
def Warp.hookCount (w : Warp) (h : Nat) : Nat := (w.hook h).items.length

/-- Whether every hook reads zero. -/
def Warp.hooksZero (w : Warp) : Bool := w.hooks.all fun h => h.items.isEmpty

/-- A write to a destination noted under its identity (R331). -/
def Warp.noteWrite (w : Warp) (d : Dst) (lanes : Lanes) (id : Nat) : Warp :=
  if lanes = 0 then w else { w with lastWr := d.opnds.foldl (fun t n => tset t n id) w.lastWr }

/-- A hook raised by an item of work (R162). -/
def Warp.raise (w : Warp) (h : Nat) (i : HookItem) : Warp :=
  Warp.noteWrite { w with hooks := lmod w.hooks h fun k => { k with items := k.items ++ [i] } } i.dst i.lanes i.id

/-- An item of a hook changed. -/
def Warp.modItem (w : Warp) (h id : Nat) (f : HookItem → HookItem) : Warp :=
  { w with hooks := lmod w.hooks h fun k => { k with items := k.items.map fun i => if i.id = id then f i else i } }

/-- Token items finish while credit lasts, the oldest first (R395). -/
def settleTokens (base : Nat) : Nat → List HookItem → Nat × List HookItem
  | c, [] => (c, [])
  | c, i :: is =>
    if c = 0 then (0, i :: is)
    else if i.token && i.fin.isNone then
      let r := settleTokens base (c - 1) is
      (r.1, { i with fin := some base } :: r.2)
    else
      let r := settleTokens base c is
      (r.1, i :: r.2)

/-- The oldest items that have finished, and the rest (R163). -/
def splitDone (base : Nat) : List HookItem → List HookItem × List HookItem
  | [] => ([], [])
  | i :: is => if i.fin.any (· ≤ base) then let r := splitDone base is; (i :: r.1, r.2) else ([], i :: is)

/-! ## Control registers (R417, R418) -/

/-- A control register read; REFWIN is the device's (R256). -/
def Csrs.get (c : Csrs) (r : Csr) (refwin : Dword) : Dword :=
  match r with
  | .fpsr => c.fpsr.setWidth 64 | .fpte => c.fpte.setWidth 64 | .sigthr => c.sigthr.setWidth 64
  | .shbase => c.shbase | .memst => c.memst.setWidth 64 | .wct => c.wct | .wqbind => c.wqbind
  | .refwin => refwin | .wdog => c.wdog.setWidth 64 | .islhint => c.islhint.setWidth 64
  | .trcause => c.trcause.setWidth 64 | .trpc => c.trpc | .trlanes => c.trlanes | .trdst => c.trdst.setWidth 64
  | .trval => c.trval | .trhand => c.trhand | .trdel => c.trdel | .trstat => c.trstat.setWidth 64
  | .syshand => c.syshand | .trsav0 => c.trsav0 | .trsav1 => c.trsav1 | .trsav2 => c.trsav2 | .trsav3 => c.trsav3

/-- REFWIN of the device (R256). -/
def refwinOffset : Nat := Config.refwinOffset % 32000
def refwinVal : Dword := BitVec.ofNat 64 (0x081007D07D00 + refwinOffset * 2 ^ 48)

/-- Whether the warp runs in system mode (R406, R408). -/
def Csrs.system (c : Csrs) : Bool := c.trstat.getLsbD 1

/-- One field of TRDEL after a write of `v` over `old` (R405). -/
def trdelField (sys : Bool) (c old v : Nat) : Nat :=
  if c = 0x19 || c = 0x1A then 2
  else if sys then (if v = 3 then 2 else v)
  else if old = 1 then old
  else if v = 1 then old
  else if v = 3 then 2 else v

/-- TRDEL after a write (R405). -/
def trdelWrite (sys : Bool) (old v : Dword) : Dword :=
  BitVec.ofNat 64 ((List.range 0x1B).foldl (fun a k =>
    let c := k + 1
    a + trdelField sys c (bits old.toNat (2 * c) 2) (bits v.toNat (2 * c) 2) * 2 ^ (2 * c)) 0)

/-- A control register written by csrw or csrx: reserved bits stay 0 (R9), read-only registers ignore the write, and the
field rules of R38, R405 and R431 apply. -/
def Csrs.set (c : Csrs) (r : Csr) (v : Dword) : Csrs :=
  let v32 : Word := v.setWidth 32
  match r with
  | .fpsr => { c with fpsr := v32 &&& 0x3F }
  | .fpte => { c with fpte := v32 &&& 0x1F }
  | .sigthr => { c with sigthr := let t := v32 &&& 0x3F; if 54 ≤ t.toNat then 53 else t }
  | .shbase => { c with shbase := v &&& 0xFFFFFFFFFFFF0000 }
  | .memst => { c with memst := v32 &&& 3 }
  | .wdog => { c with wdog := v32 }
  | .islhint => { c with islhint := let h := v32 &&& 3; if h = 3 then 0 else h }
  | .trpc => { c with trpc := v }
  | .trhand => { c with trhand := v }
  | .trdel => { c with trdel := trdelWrite c.system c.trdel v }
  | .syshand => if c.system then { c with syshand := v } else c
  | .trsav0 => { c with trsav0 := v }
  | .trsav1 => { c with trsav1 := v }
  | .trsav2 => { c with trsav2 := v }
  | .trsav3 => { c with trsav3 := v }
  | .wct | .wqbind | .refwin | .trcause | .trlanes | .trdst | .trval | .trstat => c

/-- The control-register writes that commit at a tick or before (R418). -/
def Warp.commitCsrs (w : Warp) (tick : Nat) : Warp :=
  let now := w.csrPend.filter fun p => p.1 ≤ tick
  { w with
    csr := now.foldl (fun c p => c.set p.2.1 p.2.2) w.csr
    csrPend := w.csrPend.filter fun p => tick < p.1 }

/-! ## Freezes (R150) -/

/-- Whether a freeze holds the warp in the clock cycle in which it begins; the others hold it from the next one on. -/
def FreezeWhy.atOnce : FreezeWhy → Bool
  | .timed _ retry => retry
  | _ => true

/-- A warp frozen under a code. -/
def Warp.freezeFor (w : Warp) (code : Nat) (why : FreezeWhy) : Warp :=
  { w with
    freezes := ⟨code, why⟩ :: w.freezes.filter fun f => f.why != why
    frozen := w.frozen || why.atOnce }

/-- A warp frozen under a code to the end of a core clock cycle; `retry` when it then goes on at the tick it stands at. -/
def Warp.freeze (w : Warp) (code til : Nat) (retry : Bool) : Warp := w.freezeFor code (.timed til retry)

/-- A freeze ended: the warp goes on at the tick it stands at once no other freeze holds it. -/
def Warp.thaw (w : Warp) (p : FreezeWhy → Bool) : Warp :=
  let fs := w.freezes.filter fun f => !p f.why
  { w with freezes := fs, frozen := w.frozen && !fs.isEmpty }

/-- Freezes of bundles that have not issued, which do not outlive a trap entry (R409). -/
def FreezeWhy.unissued : FreezeWhy → Bool
  | .pop _ | .walk _ | .refresh _ | .push _ => true
  | .timed _ _ | .line _ => false

/-! ## Islands (R87, R429) -/

/-- The islands of a warp, by their numbers in its room (R87). -/
def Warp.islands (w : Warp) : List Nat := (List.range ((w.width + 15) / 16)).map (w.base / 4 + ·)

/-- The position of an island in its core's list. -/
def islandIx (room k : Nat) : Nat := 4 * room + k

def State.island (s : State) (core room k : Nat) : Island := (s.core core).islands.getD (islandIx room k) {}

def IslMode.isRet : IslMode → Bool
  | .ret _ => true
  | _ => false

/-- Whether an island keeps its warps from counting in a clock cycle (R429, R434). -/
def Island.paced (ns cycle : Nat) (i : Island) : Bool :=
  ns < i.recoverNs || (match i.mode with
    | .nt _ => i.ntFrom ≤ cycle && cycle % 4 ≠ 0
    | .nom | .ret _ => false)

/-- Whether an island of a warp still recovers (R434, R435). -/
def recovering (s : State) (w : Warp) : Bool := w.islands.any fun k => timens s < (s.island w.core w.room k).recoverNs

/-- Whether the islands of a warp keep it from counting in this clock cycle (R429, R430, R434). -/
def islandsHold (s : State) (w : Warp) : Bool :=
  timens s < w.wakeNs || w.islands.any fun k => (s.island w.core w.room k).paced (timens s) (coreCycle s w.core)

/-- The voltage of an island under the plan in force: of guard band, or of NT; retention, which no plan gives, has its own kind of
energy (R436, R442). -/
def islandMv (s : State) (core room k : Nat) : Nat :=
  let of (f : Plan → List Nat) : Nat :=
    ((tget s.plansInForce (core / 8)).bind fun p => (f p)[16 * (core % 8) + 4 * room + k]?).getD Config.bootMv
  match (s.island core room k).mode with
  | .nom => of Plan.guardMv
  | .nt _ => of Plan.ntMv
  | .ret _ => 0

/-- The voltage of a warp's lowest island, at which what it issues and what its work does is charged (R442, log 19). -/
def warpMv (s : State) (w : Warp) : Nat := islandMv s w.core w.room (w.base / 4)
def opMv (s : State) (o : Op) : Nat := (s.warp? o.wid).elim 0 (warpMv s)

/-! ## Traps (R404 to R412) -/

/-- Whether a trap is nested: the syllable that raised it was issued by a handler (R410). -/
def Warp.nests (w : Warp) (t : TrapDue) : Bool :=
  match w.attic with
  | some a => a.seq ≤ t.seq && (w.csr.trstat.getLsbD 0)
  | none => false

/-- PEND set for a trap that becomes due while a handler runs and waits for its return (R408, R410). -/
def Csrs.pend (c : Csrs) (waits : Bool) : Csrs := if waits then { c with trstat := c.trstat ||| 16 } else c

/-- A trap made due (R410). -/
def Warp.post (w : Warp) (t : TrapDue) : Warp :=
  { w with
    due := w.due ++ [{ t with inHandler := w.nests t }]
    csr := w.csr.pend (w.attic.isSome && !w.nests t) }

/-- Whether a due trap may be taken now: its tick has come, and it was not raised before a handler that still runs (R410). -/
def Warp.canTake (w : Warp) (t : TrapDue) : Bool := t.tick ≤ w.tick && (w.attic.isNone || t.inHandler)

/-- The due trap to take: of those that may be taken, the one whose syllable issued earliest (R410). -/
def Warp.nextTrap (w : Warp) : Option TrapDue :=
  (w.due.filter w.canTake).foldl (fun b t => match b with
    | none => some t
    | some u => if t.seq < u.seq then some t else some u) none

/-- The route of a cause: 0 user, 1 system, 2 sv4 (R404, R405, R410). -/
def trapRoute (c : Csrs) (cause : Nat) (nested : Bool) : Nat :=
  if nested || cause = 0x19 || cause = 0x1A then 2
  else
    let d := bits c.trdel.toNat (2 * cause) 2
    if d = 0 && c.trhand != 0 then 0 else if d = 1 && c.syshand != 0 then 1 else 2

/-- CLASS of TRCAUSE (R408) of a trap's class. -/
def classCode (cls : Nat) : Nat := if cls ≤ 1 then 0 else cls - 1

/-- TRSTAT from its bits (R408). -/
def trstatOf (inh mode pmode nest pend : Bool) : Word :=
  BitVec.ofNat 32 (inh.toNat + 2 * mode.toNat + 4 * pmode.toNat + 8 * nest.toNat + 16 * pend.toNat)

/-- The trap registers a trap writes (R408). -/
def trapCsrs (c : Csrs) (t : TrapDue) (route : Nat) (pend : Bool) : Csrs :=
  let inh := c.trstat.getLsbD 0
  { c with
    trcause := BitVec.ofNat 32 (t.cause + 64 * route + 256 * classCode t.cls)
    trpc := t.pc
    trlanes := t.lanes
    trdst := BitVec.ofNat 32 (t.dst + 1024 * t.bit + 2 ^ 15 * t.bitf.toNat + 2 ^ 16 * t.pair.toNat)
    trval := t.val
    trstat :=
      if t.inHandler then trstatOf inh c.system (c.trstat.getLsbD 2) true pend
      else trstatOf (route ≠ 2) (if route = 2 then c.system else route = 1) c.system false pend }

/-- A path with its earliest tick made relative to T (R409 step 4): the ticks it still owes, the penalty of its next bundle
included. -/
def Path.owe (p : Path) (tick pen : Nat) : Path :=
  { p with earliest := (p.earliest + (if p.noPen then 0 else pen)) - tick, noPen := true }

/-- A path whose owed ticks count from u again (R412), but which issues no earlier than the returning bundle lets it (R153). -/
def Path.due (p : Path) (u first : Nat) : Path :=
  if u + p.earliest < first then { p with earliest := first, noPen := false } else { p with earliest := u + p.earliest }

/-- A result of the trap set that lands again from tick u (R412). -/
def Flight.after (u : Nat) (f : Flight) : Flight := { f with land := u + f.land }

/-- A slice at the start of a handler (R406): its unretired lanes at the handler's first bundle, which is checked against TGT
with TRPC as its TRVAL. -/
def Slice.handler (hand trpc : Dword) (tick : Nat) (q : Quad) : Slice :=
  { cur := { pc := hand, mask := q, tchk := true, tsrc := trpc, earliest := tick } }

/-- Entry to a user or system handler (R406): every unretired lane of the warp as one gang at the handler. -/
def Warp.toHandler (w : Warp) (hand : Dword) : Warp :=
  { w with slices := (List.range w.slices.length).map fun i =>
      Slice.handler hand w.csr.trpc w.tick (laneQuad i (allLanes w.width &&& ~~~w.retired)) }

/-- A trap taken, once the warp's scratchpad accesses are performed (R409 steps 2 to 6): commits the pending control-register
writes, puts the results in flight and the per-slice state into the trap set, writes the trap registers and enters the
handler or stops at sv4. `pens` are the penalties of the slices' next bundles. A nested trap keeps the first one's trap set (R410); one
that has waited until sv4 resumed the handler's warp finds none, and has a trap set of its own. -/
def Warp.enterTrap (w : Warp) (t : TrapDue) (pens : List Nat) (cycle seq : Nat) : Warp :=
  let w := (w.commitCsrs (w.tick + 1000000000)).applyKills (w.tick + 1)
  let rest := w.due.filter fun u => u != t && u.cls != 0
  let route := trapRoute w.csr t.cause t.inHandler
  let kept := t.inHandler && w.attic.isSome
  let csr := trapCsrs w.csr { t with inHandler := kept } route (!rest.isEmpty)
  let csr := if t.inHandler then { csr with trstat := csr.trstat ||| 8 } else csr
  let w := { w with csr := csr, due := rest, entering := false }
  if kept then { w with stopped := true }
  else
    let late := w.flight
    let owed := (w.slices.zip pens).map fun p => { p.1 with cur := p.1.cur.owe w.tick p.2, lastT := w.tick - p.1.lastT }
    let saved : Attic := ⟨late.map (fun f => { f with land := f.land - w.tick }), owed, t.slices, t.pc, seq⟩
    let w := { w with flight := [], attic := some saved }.thaw FreezeWhy.unissued
    if route = 2 then { w with stopped := true }
    else (w.toHandler (if route = 1 then csr.syshand else csr.trhand)).freeze 12 (cycle + 8) true

/-- A slice without its line buffer: a line entered again is fetched again (R108). -/
def Slice.refetch (sl : Slice) : Slice := { sl with line := none }

/-- The return from a trap at tick `t` (R412): the per-slice state restored, the faulting context at TRPC, the trap set's
entries landing at u + r, and the warp frozen for 4 clock cycles. `src` is the bundle that returns and `gap` its GAP. -/
def Warp.leaveTrap (w : Warp) (t gap cycle : Nat) (src : Dword) : Warp :=
  match w.attic with
  | none => w
  | some a =>
    let u := t + 3
    let fix (i : Nat) (sl : Slice) : Slice :=
      let sl := { sl.refetch with cur := sl.cur.due u (t + 1 + max gap 2), lastT := u - sl.lastT }
      if a.classB.contains i then
        { sl with cur := { sl.cur with pc := w.csr.trpc, tchk := w.csr.trpc != a.trpc, tsrc := src } }
      else sl
    let pm := w.csr.trstat.getLsbD 2
    ({ w with
      slices := (List.range a.slices.length).zipWith fix a.slices
      flight := w.flight ++ a.flights.map (Flight.after u)
      attic := none
      stopped := false
      csr := { w.csr with trstat := trstatOf false pm pm (w.csr.trstat.getLsbD 3) (!w.due.isEmpty) } }).freeze
        12 (cycle + 4) false

end Sys2Proof.Machine
end

