-- ==== Sys2Proof/Machine/Memory.lean ====
section
/-! DEFINITION. Memory at its homes (R248 to R253, R276, R277, R377 to R382): the L2 lines over HBM, poison, consumable lines,
owner tags, horizons and completion times, encryption, and the charges of R441 and R442. Physical addresses are bytes; a line
number is an address divided by 128. -/

namespace Sys2Proof.Machine

/-! ## Charges (R441 to R443) -/

/-- A counter of an account raised. -/
def Account.add (a : Account) (k n : Nat) : Account := { a with counters := tset a.counters k ((tget a.counters k).getD 0 + n) }

/-- The number under which the device's own account stands beside the contexts'. -/
def devCtx : Nat := 512

/-- A counter of a context's account raised, or of DEVACCT (R442). -/
def charge (s : State) (ctx k n : Nat) : State :=
  if devCtx ≤ ctx then { s with devAcct := s.devAcct.add k n }
  else { s with accounts := tset s.accounts ctx (((tget s.accounts ctx).getD {}).add k n) }

/-- A counter of DEVACCT raised. -/
def chargeDev (s : State) (k n : Nat) : State := { s with devAcct := s.devAcct.add k n }

/-- Energy charged to a context for one event of a kind at a voltage and a RATIO (R442, log 19): 0 a bundle, 1 a unit of a copy, 2 a
matrix operation, 3 an L2 fill, 4 the range of a pull token, 8 a recovery, 9 filler, 10 to 12 a clock cycle of an island in NOM, NT and
RET, 13 a refresh window of the cellar. -/
def chargeEnergy (s : State) (ctx kind mv ratio : Nat) : State := charge s ctx 2 (Config.energy kind mv ratio)

/-- An account with a counter lowered: a charge that another request takes over (R445). -/
def Account.sub (a : Account) (k n : Nat) : Account := { a with counters := tset a.counters k ((tget a.counters k).getD 0 - n) }

/-- A charge taken off an account. -/
def uncharge (s : State) (ctx k n : Nat) : State :=
  if devCtx ≤ ctx then { s with devAcct := s.devAcct.sub k n }
  else { s with accounts := tset s.accounts ctx (((tget s.accounts ctx).getD {}).sub k n) }

/-- Who asks a home for a line: the context that is charged, and its place among the requests that share a fill (R445, log 19): warps by
core, room and primary before secondary, then walks, then engines by core, then arrivals by source, then the device itself. -/
structure Asker where
  ctx : Nat
  place : Nat := 2 ^ 23
deriving DecidableEq, Repr

/-- The place of a warp's access. -/
def warpPlace (core room : Nat) (sec : Bool) : Nat := 2 * (4 * core + room) + sec.toNat

/-- The place of a walk, of an engine's access and of an arrival. -/
def walkPlace : Nat := 2 ^ 20
def enginePlace (core : Nat) : Nat := 2 ^ 21 + core
def linkPlace (src : Nat) : Nat := 2 ^ 22 + src

/-! ## Lines -/

/-- The bytes of HBM that hold a line, as HBM holds them. -/
def hbmLine (s : State) (line : Nat) : BitVec 1024 := BitVec.ofNat 1024 (cgetN s.hbm (128 * line) 128)

def dieOfLine (line : Nat) : Nat := Config.homeDie line % 2

/-- Whether HBM has the address (R265). -/
def hbmTop : Nat := 0xC000000000

/-- The blocks of a line that `bad` names as in `old`, the others as in `new`. -/
def mixBlocks (bad : BitVec 2) (old new : BitVec 1024) : BitVec 1024 :=
  let half (b : Nat) : Nat := (if bad.getLsbD b then old else new).toNat / 2 ^ (512 * b) % 2 ^ 512
  BitVec.ofNat 1024 (half 0 + half 1 * 2 ^ 512)

/-- A dirty line written back to HBM under its recorded key and charged to its owner tag (R248, R250, R276, R277); under a
cleared slot the write-back is discarded. A block that reads as poisoned holds no plaintext and leaves HBM as it is. -/
def writeBack (s : State) (line : Nat) (l : L2Line) : State :=
  if !l.dirty then s
  else
    let s := charge (charge s l.owner 6 1) l.owner 8 128
    if l.enc then
      match tget s.keySlots l.keyid with
      | some k => { s with hbm := csetN s.hbm (128 * line) 128 (mixBlocks l.bad (hbmLine s line) (xtsLine true k.toNat line l.data)).toNat }
      | none => s
    else { s with hbm := csetN s.hbm (128 * line) 128 (mixBlocks l.bad (hbmLine s line) l.data).toNat }

/-- A line that leaves L2: written back when dirty, its horizon joining its die's (R381). -/
def dropLine (s : State) (line : Nat) (l : L2Line) : State :=
  let s := writeBack s line l
  let d := dieOfLine line
  { s with l2 := tdel s.l2 line, dieE := lmod s.dieE d fun e => max e l.horizon }

/-- A line filled from HBM under a key (R248, R276, R381). -/
def fillLine (s : State) (line : Nat) (enc : Bool) (keyid : Nat) (low : Bool) : State :=
  let raw := hbmLine s line
  let key := tget s.keySlots keyid
  let data := if enc then (match key with
    | some k => xtsLine false k.toNat line raw
    | none => raw) else raw
  let l : L2Line := { data := data, horizon := s.dieE.getD (dieOfLine line) 0, bad := if enc && key.isNone then 3 else 0, enc := enc,
                      keyid := if enc then keyid else 0, low := low }
  { s with l2 := tset s.l2 line l }

/-- A consumable line whose count reached 0 discarded without write-back, its bytes undefined (R249). -/
def discardLine (s : State) (line : Nat) (l : L2Line) : State :=
  let d := dieOfLine line
  { s with
    l2 := tdel s.l2 line
    undefined := tset s.undefined line (BitVec.allOnes 128)
    dieE := lmod s.dieE d fun e => max e l.horizon }

/-- A line given up: discarded when it is spent, else written back when dirty (R248, R249, R462). -/
def evictLine (s : State) (line : Nat) : State :=
  match tget s.l2 line with
  | some l => if l.spent.isSome then discardLine s line l else dropLine s line l
  | none => s

/-- The lines of a die's half of the L2: 96 MiB (R1, R248). -/
def l2DieLines : Nat := 786432

/-- The lines of L2 whose home is on a die. -/
def dieLines (s : State) (die : Nat) : Tbl L2Line := s.l2.filter fun e => dieOfLine e.1 = die

/-- Whether the L2 of a die is full; below one die's lines in all, neither is. -/
def dieFull (s : State) (die : Nat) : Bool := l2DieLines ≤ s.l2.length && l2DieLines ≤ (dieLines s die).length

/-- The line that the L2 of a die gives up: a free one of those at the lowest priority, or of all (R462). -/
def l2Victim (s : State) (die : Nat) : Option Nat :=
  let low := (dieLines s die).filter fun e => e.2.low
  let cands := if low.isEmpty then dieLines s die else low
  (cands[Config.victim s.fresh % cands.length]?).map Prod.fst

/-- A place made for a line in a full L2 of its die. -/
def makeRoom (s : State) (line : Nat) : State :=
  if dieFull s (dieOfLine line) then
    match l2Victim s (dieOfLine line) with
    | some n => evictLine s.used n
    | none => s
  else s

/-- An access that leaves the L2 of a die full has it give a line up next. -/
def trimL2 (s : State) : State :=
  [0, 1].foldl (fun s die => if dieFull s die then (match l2Victim s die with
    | some n => s.used.soon (.l2Eviction n)
    | none => s) else s) s

/-- A spent line discarded, when `p` says that it is to go now. -/
def dropSpent (s : State) (line : Nat) (p : L2Line → Bool) : State :=
  match tget s.l2 line with
  | some l => if p l then discardLine s line l else s
  | none => s

/-- An L2 fill charged with its HBM read and its energy (R441, R442). -/
def chargeFill (s : State) (ctx : Nat) : State := chargeEnergy (charge (charge s ctx 4 1) ctx 7 128) ctx 3 0 0

/-- The charge of an L2 fill taken off a context. -/
def unchargeFill (s : State) (ctx : Nat) : State := uncharge (uncharge (uncharge s ctx 4 1) ctx 7 128) ctx 2 (Config.energy 3 0 0)

/-- A fill charged to the request that made it, and noted for those that share it in this clock cycle. -/
def noteFill (s : State) (line : Nat) (who : Asker) : State :=
  { chargeFill s who.ctx with
    fills := (line, who.place, who.ctx) :: s.fills.filter fun e => e.1 ≠ line }

/-- A hit charged. Of the requests that share a fill of this clock cycle the first in R445's order is charged with it, whichever was
performed first; the others are charged with hits. -/
def chargeHit (s : State) (line : Nat) (who : Asker) : State :=
  match s.fills.find? fun e => e.1 = line && who.place < e.2.1 with
  | some e => noteFill (charge (unchargeFill s e.2.2) e.2.2 5 1) line who
  | none => charge s who.ctx 5 1

/-- A line present at its home under a key, for an access: a hit, a fill, or after a write-back under another key a
refill (R248, R277, R441). A line spent in an earlier cycle is discarded first (R249). -/
def homeLine (s : State) (line : Nat) (enc : Bool) (keyid : Nat) (who : Asker) (low : Bool) : State :=
  let s := dropSpent s line (·.spent.any (· < s.base))
  match tget s.l2 line with
  | some l =>
    if l.enc = enc && (!enc || l.keyid = keyid) then chargeHit s line who
    else noteFill (fillLine (dropLine s line l) line enc keyid low) line who
  | none => noteFill (fillLine (makeRoom s line) line enc keyid low) line who

/-- A line of L2, or what it would be filled with. -/
def l2Data (s : State) (line : Nat) : BitVec 1024 :=
  match tget s.l2 line with
  | some l => l.data
  | none => hbmLine s line

/-- The byte a line's home holds at an address: that of L2, or of HBM. -/
def byteAt (s : State) (a : Nat) : Byte := lineByte (l2Data s (a / 128)) (a % 128)

/-- The bytes of a line that work in flight writes (R164, R311, R372). -/
def OpKind.claims (k : OpKind) (line : Nat) : BitVec 128 :=
  match k with
  | .copy c => (tget c.claim line).getD 0
  | .brecv r => (tget r.claim line).getD 0
  | .mem _ | .fence _ _ | .wqdeq _ _ | .sysc _ _ _ | .knock _ | .matrix _ | .remote _ | .bsend _ | .record _ _ _ => 0

/-- Whether work adds to memory word by word: what its words hold meanwhile is what its additions have made them (R317). -/
def OpKind.adds (k : OpKind) : Bool :=
  match k with
  | .copy c => (match c.kind with
    | .scatter red => red != .none
    | .linIn | .linOut | .fillSp | .fillMem | .cellar | .scr | .tenIn | .tenOut | .gather | .loftCellar _ _ | .loftTen _ => false)
  | .mem _ | .fence _ _ | .wqdeq _ _ | .sysc _ _ _ | .knock _ | .matrix _ | .remote _ | .bsend _ | .brecv _ | .record _ _ _ => false

/-- The bytes of a line that work whose hook has not dropped past it leaves undefined; without those of additions for an atomic. For
engine work that reads, its source bytes hold what they held at its issue or what later writes have given them (R311, R372): only what
was in flight at its issue leaves them undefined. -/
def claimMask (s : State) (line : Nat) (atomic : Bool) (own : Option Nat) : BitVec 128 :=
  s.ops.foldl (fun m e => if (atomic && e.2.kind.adds) || own.any (· ≤ e.1) then m else m ||| e.2.kind.claims line) 0

/-- The bytes of a line that a discarded line left undefined (R249). -/
def lostMask (s : State) (line : Nat) : BitVec 128 := (tget s.undefined line).getD 0

/-- Which bytes of a line are undefined (R164, R249, R311). -/
def undefMask (s : State) (line : Nat) : BitVec 128 := lostMask s line ||| claimMask s line false none

/-- Byte i of a line as a read returns it, by engine work `own` or by another party: free where it is undefined (R10). -/
def readByte (s : State) (own : Option Nat) (line i : Nat) : Byte :=
  if (lostMask s line ||| claimMask s line false own).getLsbD i then Config.freeByte s.fresh (128 * line + i) else byteAt s (128 * line + i)

/-- Byte i of a line as an atomic reads it: words that only additions in flight write hold what those have made them (R10, R317). -/
def atomByte (s : State) (line i : Nat) : Byte :=
  if (lostMask s line ||| claimMask s line true none).getLsbD i then Config.freeByte s.fresh (128 * line + i) else byteAt s (128 * line + i)

/-- Whether the block that holds byte i of a line is poisoned (R251). -/
def poisonedAt (s : State) (line i : Nat) : Bool :=
  s.poison.contains (2 * line + i / 64) || (match tget s.l2 line with
    | some l => l.bad.getLsbD (i / 64)
    | none => false)

/-- Whether bringing a line in under a key finds a poisoned block, in memory or for want of the key (R251, R276). -/
def wouldPoison (s : State) (line : Nat) (enc : Bool) (keyid : Nat) : Bool :=
  s.poison.contains (2 * line) || s.poison.contains (2 * line + 1) || (match tget s.l2 line with
    | some l => if l.enc = enc && (!enc || l.keyid = keyid) then l.bad != 0 else enc && (tget s.keySlots keyid).isNone
    | none => enc && (tget s.keySlots keyid).isNone)

/-- One read of a line counted (R249): at 0 the line is spent, and is discarded after this clock cycle's reads. -/
def L2Line.read (l : L2Line) (base : Nat) : L2Line :=
  { l with count := l.count - 1, spent := if l.count = 1 then some base else l.spent }

/-- One read of a line of L2 counted (R249). -/
def countRead (s : State) (line : Nat) : State :=
  match tget s.l2 line with
  | some l => if l.count = 0 then s else { s with l2 := tset s.l2 line (l.read s.base) }
  | none => s

/-- The horizon of a line raised by a fill for a lease (R381). -/
def raiseHorizon (s : State) (line lease : Nat) : State :=
  let up (l : L2Line) : L2Line := { l with horizon := max l.horizon (timens s + lease) }
  { s with l2 := tmod s.l2 line up }

/-- Bytes of a line: a number whose low bits are byte `i`, `n` bytes, as a read returns them, poisoned bytes read as zero. -/
def readBytes (s : State) (own : Option Nat) (line : Nat) (zeroPoison : Bool) : Nat → Nat → Nat
  | _, 0 => 0
  | i, n + 1 =>
    (if zeroPoison && poisonedAt s line i then 0 else (readByte s own line i).toNat) + 256 * readBytes s own line zeroPoison (i + 1) n

/-- Bytes of a line as an atomic reads them, poisoned bytes as zero. -/
def atomBytes (s : State) (line : Nat) : Nat → Nat → Nat
  | _, 0 => 0
  | i, n + 1 => (if poisonedAt s line i then 0 else (atomByte s line i).toNat) + 256 * atomBytes s line (i + 1) n

/-- Byte i of a line as a write to one of its nibbles keeps it (R42): its bits at the line's home, zero in a poisoned block, free where
a discarded line left them undefined. -/
def keptByte (s : State) (line i : Nat) : Byte :=
  if poisonedAt s line i then 0
  else if (lostMask s line).getLsbD i then Config.freeByte s.fresh (128 * line + i) else byteAt s (128 * line + i)

/-- What a write at a home leads to. -/
structure WriteOut where
  s : State
  /-- The completion time C (R381). -/
  ctime : Nat
  zw : Bool
  /-- Blocks, 0 or 1 of the line, whose bytes were discarded. -/
  lost : List Nat

/-- Whether a write covers a whole block. -/
def coversBlock (ws : List (Nat × Byte)) (b : Nat) : Bool :=
  (List.range 64).all fun i => ws.any fun w => w.1 = 64 * b + i

def touchesBlock (ws : List (Nat × Byte)) (b : Nat) : Bool := ws.any fun w => w.1 / 64 = b

/-- A line's data with bytes written, in order. -/
def putBytes (d : BitVec 1024) (ws : List (Nat × Byte)) : BitVec 1024 := ws.foldl (fun d w => lineSet d w.1 w.2) d

/-- The undefined bytes that remain after a write. -/
def clearUndef (m : BitVec 128) (ws : List (Nat × Byte)) : BitVec 128 :=
  ws.foldl (fun m w => m &&& ~~~(BitVec.ofNat 128 (2 ^ w.1))) m

def zeroBlock (b : Nat) : List (Nat × Byte) := (List.range 64).map fun i => (64 * b + i, 0)

/-- The poison of a block cleared. -/
def clearPoison (s : State) (line b : Nat) : State := { s with poison := s.poison.filter fun p => p ≠ 2 * line + b }

/-- A write of bytes to a line present at its home: which bytes, given as position and value in order, later ones over earlier ones. A
partial write to a poisoned block is merged into zeros under ZP and is discarded otherwise; a covering write clears the poison
(R252). The line becomes consumable with count `rc`, or ordinary at 0; it takes the writer's owner tag (R249, R250). -/
def homePut (s : State) (line ctx : Nat) (zp : Bool) (rc : Nat) (ws : List (Nat × Byte)) (rewrite : List Nat := []) : WriteOut :=
  let hit := [0, 1].filter fun b => (touchesBlock ws b || rewrite.contains b) && poisonedAt s line (64 * b)
  let part := hit.filter fun b => !coversBlock ws b
  let lost := if zp then [] else part
  let zeros := if zp then part else []
  let ws := ws.filter fun w => !lost.contains (w.1 / 64)
  let s := (hit.filter fun b => !lost.contains b).foldl (fun s b => clearPoison s line b) s
  let all := zeros.flatMap zeroBlock ++ ws
  match tget s.l2 line with
  | none => ⟨s, timens s, false, lost⟩
  | some l =>
    let c := max (timens s) l.horizon
    if all.isEmpty then ⟨s, c, false, lost⟩
    else
      let l := { l with data := putBytes l.data all, dirty := true, owner := ctx, count := rc, spent := none,
                        bad := (hit.filter fun b => !lost.contains b).foldl (fun m b => m &&& ~~~(BitVec.ofNat 2 (2 ^ b))) l.bad }
      let m := clearUndef (lostMask s line) all
      ⟨{ s with l2 := tset s.l2 line l, undefined := if m = 0 then tdel s.undefined line else tset s.undefined line m },
        c, !zeros.isEmpty, lost⟩

/-- A line present at its home for a write or an atomic of this clock cycle, which comes after the cycle's reads: a line that those have
spent is discarded first (R249, R377). -/
def writeLine (s : State) (line : Nat) (enc : Bool) (keyid : Nat) (who : Asker) (low : Bool) : State :=
  homeLine (dropSpent s line (·.spent.isSome)) line enc keyid who low

/-- A write of bytes to a line at its home, which it brings in. -/
def homeWrite (s : State) (line : Nat) (enc : Bool) (keyid : Nat) (who : Asker) (low zp : Bool) (rc : Nat) (ws : List (Nat × Byte)) :
    WriteOut :=
  homePut (writeLine s line enc keyid who low) line who.ctx zp rc ws

/-- The bytes of a number, lowest first, as a write from position `i` on. -/
def bytesFrom (i : Nat) : Nat → Nat → List (Nat × Byte)
  | 0, _ => []
  | n + 1, v => (i, BitVec.ofNat 8 v) :: bytesFrom (i + 1) n (v / 256)

end Sys2Proof.Machine
end

