-- ==== Sys2Proof/Machine/Float.lean ====
section
/-! DEFINITION. Floating-point numbers: the formats of R18, exact values, rounding, overflow, saturation and flush to zero of R20 to
R24. A computation is made on exact values and rounded once. -/

namespace Sys2Proof.Machine

/-- A format (R18): fraction bits, bias, largest biased exponent of a finite value, and what it has beside finite values. -/
structure Fmt where
  ebits : Nat
  fbits : Nat
  bias : Nat
  hasInf : Bool
  hasNan : Bool
deriving DecidableEq, Repr

def fmtF64 : Fmt := ⟨11, 52, 1023, true, true⟩
def fmtF32 : Fmt := ⟨8, 23, 127, true, true⟩
def fmtBf16 : Fmt := ⟨8, 7, 127, true, true⟩
def fmtF16 : Fmt := ⟨5, 10, 15, true, true⟩
def fmtE5m2 : Fmt := ⟨5, 2, 15, true, true⟩
def fmtE4m3 : Fmt := ⟨4, 3, 7, false, true⟩
def fmtE2m1 : Fmt := ⟨2, 1, 1, false, false⟩

/-- The format of a float element type (R14, R18). -/
def fmtOf : EType → Option Fmt
  | .f64 => some fmtF64 | .f32 => some fmtF32 | .bf16 => some fmtBf16 | .f16 => some fmtF16
  | .e5m2 => some fmtE5m2 | .e4m3 => some fmtE4m3 | .e2m1 => some fmtE2m1
  | _ => none

/-- Significand bits, the hidden bit included (R18). -/
def Fmt.p (f : Fmt) : Nat := f.fbits + 1
/-- The exponent of the smallest normal value. -/
def Fmt.emin (f : Fmt) : Int := 1 - (f.bias : Int)
/-- The width of a code. -/
def Fmt.width (f : Fmt) : Nat := 1 + f.ebits + f.fbits
/-- The largest finite magnitude as a code without its sign (R18). -/
def Fmt.maxCode (f : Fmt) : Nat :=
  if f.hasInf then (2 ^ f.ebits - 1) * 2 ^ f.fbits - 1
  else if f.hasNan then 2 ^ (f.ebits + f.fbits) - 2 else 2 ^ (f.ebits + f.fbits) - 1
/-- The code of infinity without its sign. -/
def Fmt.infCode (f : Fmt) : Nat := (2 ^ f.ebits - 1) * 2 ^ f.fbits
/-- The canonical NaN (R20). -/
def Fmt.nanCode (f : Fmt) : Nat :=
  if f.hasInf then (2 ^ f.ebits - 1) * 2 ^ f.fbits + 2 ^ (f.fbits - 1) else if f.hasNan then 2 ^ (f.ebits + f.fbits) - 1 else 0
/-- The canonical NaN: e5m2's is 0x7E, as the table of R20 has it. -/
def Fmt.nan (f : Fmt) : Nat := f.nanCode

/-- A value: a NaN, signalling or not; an infinity; or (−1)^neg × m × 2^e. -/
inductive Fv where
  | nan (sig : Bool)
  | inf (neg : Bool)
  | fin (neg : Bool) (m : Nat) (e : Int)
deriving DecidableEq, Repr

/-- The value of a code (R18, R20): e5m2 and e4m3 have no signalling NaN. -/
def Fmt.decode (f : Fmt) (code : Nat) : Fv :=
  let neg := code.testBit (f.ebits + f.fbits)
  let ex := code / 2 ^ f.fbits % 2 ^ f.ebits
  let fr := code % 2 ^ f.fbits
  let top := 2 ^ f.ebits - 1
  if f.hasInf && ex = top then
    if fr = 0 then .inf neg else .nan (f.fbits ≠ 2 && !fr.testBit (f.fbits - 1))
  else if !f.hasInf && f.hasNan && ex = top && fr = 2 ^ f.fbits - 1 then .nan false
  else if ex = 0 then .fin neg fr (f.emin - f.fbits)
  else .fin neg (2 ^ f.fbits + fr) ((ex : Int) - f.bias - f.fbits)

/-- Exception flags as R25 numbers them. -/
abbrev Flags := BitVec 6
def fNV : Flags := 1
def fDZ : Flags := 2
def fOF : Flags := 4
def fUF : Flags := 8
def fNX : Flags := 16
def fAO : Flags := 32

/-- A rounded result: its code, the flags, and whether it overflowed or was infinite when exact (R30). -/
structure Rounded where
  code : Nat
  flags : Flags := 0
  ovf : Bool := false
deriving DecidableEq, Repr

/-- A sign's bit of a code. -/
def Fmt.signBit (f : Fmt) (neg : Bool) : Nat := if neg then 2 ^ (f.ebits + f.fbits) else 0

/-- Whether rounding goes away from zero, given the last kept bit and the discarded part against half a unit (R21). -/
def roundsUp (r : Rnd) (neg odd : Bool) (rest half : Nat) : Bool :=
  match r with
  | .rn => half < rest || (rest = half && odd)
  | .rz => false
  | .rd => neg && rest ≠ 0
  | .ru => !neg && rest ≠ 0

/-- m × 2^e rounded to a multiple of 2^q: the multiple, and whether it is inexact. A shift past every bit of m leaves less than
half a unit. -/
def roundAt (r : Rnd) (neg : Bool) (m : Nat) (e q : Int) : Nat × Bool :=
  if q ≤ e then (m * 2 ^ (e - q).toNat, false)
  else
    let k := (q - e).toNat
    if Nat.log2 m + 2 < k then ((if roundsUp r neg false (if m = 0 then 0 else 1) 2 then 1 else 0), m ≠ 0)
    else
      let n := m / 2 ^ k
      let rest := m % 2 ^ k
      (if roundsUp r neg (n % 2 = 1) rest (2 ^ (k - 1)) then n + 1 else n, rest ≠ 0)

/-- The exponent of the leading bit of m × 2^e, for m not 0. -/
def binade (m : Nat) (e : Int) : Int := (Nat.log2 m : Int) + e

/-- The result of an overflow (R22). -/
def Fmt.overflow (f : Fmt) (r : Rnd) (neg : Bool) : Nat :=
  let toInf := match r with
    | .rn => true
    | .rz => false
    | .rd => neg
    | .ru => !neg
  f.signBit neg + (if f.hasInf && toInf then f.infCode else f.maxCode)

/-- A code from a multiple n of 2^q with n below 2^p, where 2^q is the unit of n's binade or the smallest unit. -/
def Fmt.encodeAt (f : Fmt) (neg : Bool) (n : Nat) (q : Int) : Nat :=
  f.signBit neg + (if n < 2 ^ f.fbits then n
    else (q + f.fbits + f.bias).toNat * 2 ^ f.fbits + (n - 2 ^ f.fbits))

/-- SAT: an infinite result becomes the largest finite one (R23). -/
def Fmt.saturate (f : Fmt) (sat : Bool) (code : Nat) : Nat :=
  if sat && f.hasInf && code % 2 ^ (f.ebits + f.fbits) = f.infCode then
    code - f.infCode + f.maxCode
  else code

/-- A nonzero exact value rounded once to a format (R22), then SAT (R23), then FTZ (R24). `sticky` says that the exact value lies
strictly between m × 2^e and (m + 1) × 2^e. -/
def Fmt.round (f : Fmt) (r : Rnd) (sat ftz neg : Bool) (m0 : Nat) (e0 : Int) (sticky : Bool := false) : Rounded :=
  let m := if sticky then 2 * m0 + 1 else m0
  let e := if sticky then e0 - 1 else e0
  let b := binade m e
  let top : Int := (2 ^ f.ebits : Int) - 1 - f.bias   -- above every binade of the format
  if top + 1 < b then ⟨f.saturate sat (f.overflow r neg), fOF ||| fNX, true⟩
  else
    let qn : Int := b - f.fbits
    let qs : Int := f.emin - f.fbits
    let q := if qn < qs then qs else qn
    let rd := roundAt r neg m e q
    let carry := rd.1 = 2 ^ f.p
    let n := if carry then 2 ^ f.fbits else rd.1
    let q := if carry then q + 1 else q
    let code := f.encodeAt neg n q
    let inexact := rd.2 || sticky
    if f.maxCode < code - f.signBit neg then ⟨f.saturate sat (f.overflow r neg), fOF ||| fNX, true⟩
    else
      let un := roundAt r neg m e qn
      let tiny := qn < qs && binade (if un.1 = 0 then 1 else un.1) qn < f.emin
      let sub := n < 2 ^ f.fbits && q = qs && n ≠ 0
      if ftz && sub then ⟨f.signBit neg, fUF ||| fNX, false⟩
      else ⟨code, (if inexact then fNX else 0) ||| (if tiny && inexact then fUF else 0), false⟩

/-- A value rounded to a format; a zero keeps its sign, a NaN is canonical, and an infinity is the format's, or the largest
finite value with OF and NX where the format has none (R20, R22). -/
def Fmt.ofFv (f : Fmt) (r : Rnd) (sat ftz : Bool) : Fv → Rounded
  | .nan s => ⟨f.nan, if s then fNV else 0, false⟩
  | .inf neg => if f.hasInf then ⟨f.saturate sat (f.signBit neg + f.infCode), 0, true⟩
      else ⟨f.signBit neg + f.maxCode, fOF ||| fNX, true⟩
  | .fin neg m e => if m = 0 then ⟨f.signBit neg, 0, false⟩ else f.round r sat ftz neg m e

/-- A subnormal f32 or f64 input read as a zero of its sign under FTZ (R24). -/
def Fmt.flushIn (f : Fmt) (ftz : Bool) (code : Nat) : Nat :=
  if ftz && code / 2 ^ f.fbits % 2 ^ f.ebits = 0 then f.signBit (code.testBit (f.ebits + f.fbits)) else code

/-- A value with its sign changed. -/
def Fv.negIf (b : Bool) : Fv → Fv
  | .nan s => .nan s
  | .inf n => .inf (xor n b)
  | .fin n m e => .fin (xor n b) m e

def Fv.isNan : Fv → Bool
  | .nan _ => true
  | _ => false

def Fv.isSig : Fv → Bool
  | .nan s => s
  | _ => false

def Fv.isZero : Fv → Bool
  | .fin _ m _ => m = 0
  | _ => false

def Fv.isInf : Fv → Bool
  | .inf _ => true
  | _ => false

/-- The binade of a nonzero finite value (R30). -/
def Fv.e? : Fv → Option Int
  | .fin _ m e => if m = 0 then none else some (binade m e)
  | _ => none

/-- A signed sum of two finite values as an exact value; a zero sum takes the sign of R20. -/
def finAdd (r : Rnd) (n1 : Bool) (m1 : Nat) (e1 : Int) (n2 : Bool) (m2 : Nat) (e2 : Int) : Fv :=
  if m1 = 0 && m2 = 0 then .fin (if n1 = n2 then n1 else r = .rd) 0 0
  else if m1 = 0 then .fin n2 m2 e2
  else if m2 = 0 then .fin n1 m1 e1
  else
    let e := if e1 < e2 then e1 else e2
    let a : Int := (if n1 then -1 else 1) * (m1 * 2 ^ (e1 - e).toNat : Nat)
    let b : Int := (if n2 then -1 else 1) * (m2 * 2 ^ (e2 - e).toNat : Nat)
    let x := a + b
    if x = 0 then .fin (r = .rd) 0 0 else .fin (x < 0) x.natAbs e

/-- The exact sum of two values; infinities of opposite signs give a NaN (R209). -/
def Fv.add (r : Rnd) : Fv → Fv → Fv
  | .nan a, .nan b => .nan (a || b)
  | .nan a, _ => .nan a
  | _, .nan b => .nan b
  | .inf a, .inf b => if a = b then .inf a else .nan true
  | .inf a, _ => .inf a
  | _, .inf b => .inf b
  | .fin n1 m1 e1, .fin n2 m2 e2 => finAdd r n1 m1 e1 n2 m2 e2

/-- The exact product of two values; zero times infinity gives a NaN that raises NV (R209). -/
def Fv.mul : Fv → Fv → Fv
  | .nan a, .nan b => .nan (a || b)
  | .nan a, _ => .nan a
  | _, .nan b => .nan b
  | .inf a, .inf b => .inf (xor a b)
  | .inf a, .fin n m _ => if m = 0 then .nan true else .inf (xor a n)
  | .fin n m _, .inf b => if m = 0 then .nan true else .inf (xor n b)
  | .fin n1 m1 e1, .fin n2 m2 e2 => .fin (xor n1 n2) (m1 * m2) (e1 + e2)

/-- a × b + c as one exact value; zero times infinity raises NV whatever c holds (R209). -/
def Fv.fma (r : Rnd) (a b c : Fv) : Fv :=
  match a.mul b with
  | .nan true => .nan true
  | x => x.add r c

/-- How two values that are no NaN compare: less, equal or greater; −0 equals +0. -/
def Fv.cmp : Fv → Fv → Ordering
  | .inf a, .inf b => if a = b then .eq else if a then .lt else .gt
  | .inf a, _ => if a then .lt else .gt
  | _, .inf b => if b then .gt else .lt
  | .fin n1 m1 e1, .fin n2 m2 e2 =>
    match finAdd .rn n1 m1 e1 (!n2) m2 e2 with
    | .fin n m _ => if m = 0 then .eq else if n then .lt else .gt
    | _ => .eq
  | _, _ => .eq

/-- The sign of a value. -/
def Fv.neg : Fv → Bool
  | .nan _ => false
  | .inf n => n
  | .fin n _ _ => n

/-- Whether a value is below another when −0 is below +0 (R211). -/
def Fv.below (a b : Fv) : Bool :=
  match a.cmp b with
  | .lt => true
  | .gt => false
  | .eq => a.isZero && b.isZero && a.neg && !b.neg

/-- Which of two inputs a minimum or maximum selects (R211): none for a canonical NaN, else whether the second, and the flags. -/
def minMaxPick (isMax num : Bool) (a b : Fv) : Option Bool × Flags :=
  let fl := if a.isSig || b.isSig then fNV else 0
  if !num && (a.isNan || b.isNan) then (none, fl)
  else if a.isNan && b.isNan then (none, fl)
  else if a.isNan then (some true, fl)
  else if b.isNan then (some false, fl)
  else (some (if isMax then a.below b else b.below a), fl)

/-- A float comparison (R212): its result and flags. -/
def fcmpVal (cc : FCc) (a b : Fv) : Bool × Flags :=
  let unord := a.isNan || b.isNan
  let o := a.cmp b
  let lt := o = .lt
  let eq := o = .eq
  let signalling := a.isSig || b.isSig
  let (r, quietBad) : Bool × Bool := match cc with
    | .eq => (!unord && eq, false)
    | .ne => (unord || !eq, false)
    | .lt => (!unord && lt, true)
    | .le => (!unord && (lt || eq), true)
    | .gt => (!unord && !lt && !eq, true)
    | .ge => (!unord && !lt, true)
    | .un => (unord, false)
    | .ord => (!unord, false)
    | .ltu => (unord || lt, false)
    | .leu => (unord || lt || eq, false)
    | .gtu => (unord || (!lt && !eq), false)
    | .geu => (unord || !lt, false)
  (r, if signalling || (quietBad && unord) then fNV else 0)

/-- The class mask of a code (R213). -/
def Fmt.classOf (f : Fmt) (code : Nat) : Nat :=
  let neg := code.testBit (f.ebits + f.fbits)
  let sub := code / 2 ^ f.fbits % 2 ^ f.ebits = 0
  match f.decode code with
  | .nan true => 2 ^ 8
  | .nan false => 2 ^ 9
  | .inf n => if n then 1 else 2 ^ 7
  | .fin _ m _ =>
    if m = 0 then (if neg then 2 ^ 3 else 2 ^ 4)
    else if sub then (if neg then 2 ^ 2 else 2 ^ 5)
    else if neg then 2 else 2 ^ 6

end Sys2Proof.Machine
end

