-- ==== Sys2Proof/Machine/Flags.lean ====
section
/-! DEFINITION. Exception flags and significance tags: effective tags (R30), the tag rules of R31 to R34 and R36, the flags a
landing sets in FPSR and the traps it raises (R25 to R28, R38, R203). -/

namespace Sys2Proof.Machine

/-- An effective tag: exact, or a number of trustworthy bits (R30). -/
inductive Eff where
  | exact
  | bits (n : Nat)
deriving DecidableEq, Repr

/-- The full tag of a type: 24 for f32, 53 for f64. -/
def fullTag (d64 : Bool) : Nat := if d64 then 53 else 24

/-- The effective tag of a stored tag (R30). -/
def effTag (d64 : Bool) (t : Tag) : Eff :=
  let n := t.toNat
  if n = 62 then .exact
  else if n = 63 then .bits (fullTag d64)
  else if d64 then .bits n
  else .bits (if n ≤ 24 then n else 24)

/-- An effective tag as a number, exact counting as full (R34's SFU row). -/
def Eff.count (full : Nat) : Eff → Nat
  | .exact => full
  | .bits n => n

def tagOf (n : Nat) : Tag := BitVec.ofNat 6 n

def clampTag (x : Int) (full : Nat) : Tag := tagOf (if x < 0 then 0 else if (full : Int) < x then full else x.toNat)

/-- The add rule (R31): inputs as values with effective tags, the result as written, whether it overflowed and is inexact. -/
def addTag (d64 : Bool) (inputs : List (Fv × Eff)) (res : Fv) (ovf inexact : Bool) : Tag :=
  let full := fullTag d64
  let open' := inputs.filterMap fun i => match i.2 with
    | .bits n => some (i.1, n)
    | .exact => none
  if res.isNan || res.isInf || ovf then 0
  else if open'.isEmpty then (if inexact then tagOf full else 62)
  else match res.e? with
    | none =>
      if open'.all fun i => i.1.isZero then tagOf (open'.foldl (fun m i => min m i.2) 63) else 0
    | some er =>
      let worst := open'.foldl (fun (w : Option Int) i =>
        let x := (i.1.e?.getD er) - (i.2 : Int)
        match w with
        | none => some x
        | some y => some (if y < x then x else y)) none
      clampTag (er - worst.getD 0) full

/-- The multiply rule (R32) before the inexact test: the tag of the exact product. -/
def mulEff (d64 : Bool) (a b : Eff) : Eff :=
  let full := fullTag d64
  match a, b with
  | .exact, .exact => .exact
  | .exact, .bits n | .bits n, .exact => .bits n
  | .bits x, .bits y =>
    if x = full && y = full then .bits full
    else if x = full || y = full then .bits (min x y)
    else .bits (min x y - 1)

/-- The multiply rule (R32). -/
def mulTag (d64 : Bool) (a b : Eff) (res : Fv) (ovf inexact : Bool) : Tag :=
  if res.isNan || res.isInf || ovf then 0
  else match mulEff d64 a b with
    | .exact => if inexact then tagOf (fullTag d64) else 62
    | .bits n => tagOf n

/-- The tag that keeps an input's trust: frint, fscale, conversions between floats (R34). -/
def keepTag (full : Nat) (s : Eff) (res : Fv) (ovf inexact : Bool) : Tag :=
  if res.isNan || res.isInf || ovf then 0
  else match s with
    | .exact => if inexact then tagOf full else 62
    | .bits n => tagOf (min n full)

/-- The tag of a special function's result (R34). -/
def sfuTag (d64 : Bool) (s : Eff) (res : Fv) (ovf : Bool) : Tag :=
  if res.isNan || res.isInf || ovf then 0
  else tagOf (min (s.count (fullTag d64)) (if d64 then 51 else 22))

/-- The tag a loaded word takes (R35), for an access of `bytes` bytes: 24 for a 32-bit word and each word of 128 bits; 53 and 63
for 64 bits; 63 for narrower ones. -/
def loadTags (bytes : Nat) : List Tag :=
  if bytes = 4 then [24] else if bytes = 8 then [53, 63] else if bytes = 16 then [24, 24, 24, 24] else [63]

/-- FPSR after flags are ORed in (R25, R28). -/
def orFlags (c : Csrs) (f : Flags) (sg : Bool) : Csrs :=
  { c with fpsr := c.fpsr ||| BitVec.ofNat 32 (f.toNat % 32 + 32 * sg.toNat) }

/-- Whether a lane's checked result lies below SIGTHR (R38). -/
def belowThr (thr : Word) (r : LaneRes) : Bool :=
  r.checked && thr != 0 && (match r.vals with
    | (_, t) :: _ => (r.chkTag.getD t).toNat < thr.toNat && (r.chkTag.getD t).toNat < 62
    | [] => false)

/-- The lanes in which a result raises a flag. -/
def flagLanes (rs : List LaneRes) (f : Flags) : Lanes :=
  laneSet ((rs.filter fun r => r.flags &&& f != 0).map LaneRes.lane)

/-- The cause a landing result raises, with its lanes: the lowest of an address overflow (0A), the enabled floating-point
exceptions (0E to 12) and significance (13) (R27, R38, R203). -/
def landCause (c : Csrs) (rs : List LaneRes) : Option (Nat × Lanes) :=
  let ao := flagLanes rs fAO
  if ao != 0 then some (0x0A, ao)
  else
    let try' (k : Nat) : Option (Nat × Lanes) :=
      let l := flagLanes rs (BitVec.ofNat 6 (2 ^ k))
      if c.fpte.getLsbD k && l != 0 then some (0x0E + k, l) else none
    match (List.range 5).findSome? try' with
    | some x => some x
    | none =>
      let l := laneSet ((rs.filter (belowThr c.sigthr)).map LaneRes.lane)
      if l != 0 then some (0x13, l) else none

/-- TRDST's fields of a destination (R408): operand, bit, whether it is a bit form, whether it is 64 bits or wider. -/
def Dst.report : Dst → Nat × Nat × Bool × Bool
  | .regs n span => (n, 0, false, 1 < span)
  | .bits n j _ _ => (n, j, true, false)

/-- A floating-point result of one format in one lane. -/
def rounded32 (r : Rounded) (t : Tag) : List (Word × Tag) := [(BitVec.ofNat 32 r.code, t)]

/-- An f64 in a pair: the tag on the even register, 63 on the odd one (R29). -/
def rounded64 (r : Rounded) (t : Tag) : List (Word × Tag) :=
  [(BitVec.ofNat 32 r.code, t), (BitVec.ofNat 32 (r.code / 2 ^ 32), 63)]

end Sys2Proof.Machine
end

