-- ==== Sys2Proof/Machine/Operands.lean ====
section
/-! DEFINITION. Every operand form: registers, landings, hatches, system values and constants as 32-bit, 64-bit and quad sources
(R116 to R122, R282), predicates (R123), the lanes a syllable acts in (R123, R124), and the hatch queues (R258 to R262). -/

namespace Sys2Proof.Machine

/-! ## Packet fields (R76) and system values (R86, R117) -/

def Launch.width (l : Launch) : Nat := 16 * 2 ^ Packet.fld l.packet 10 2
def Launch.paired (l : Launch) : Bool := l.packet.getLsbD 9
def Launch.code (l : Launch) : Dword := BitVec.ofNat 64 (Packet.fld l.packet 64 64)
def Launch.gx (l : Launch) : Nat := Packet.fld l.packet 256 31
def Launch.gy (l : Launch) : Nat := Packet.fld l.packet 288 31
def Launch.gz (l : Launch) : Nat := Packet.fld l.packet 320 31
def Launch.warps (l : Launch) : Nat := Packet.fld l.packet 352 6
def Launch.regblk (l : Launch) : Nat := Packet.fld l.packet 358 5
def Launch.hpairs (l : Launch) : Nat := Packet.fld l.packet 363 5
def Launch.nbar (l : Launch) : Nat := Packet.fld l.packet 368 5
def Launch.scratchK (l : Launch) : Nat := Packet.fld l.packet 373 11
def Launch.lease (l : Launch) : Nat := let n := Packet.fld l.packet 384 16; if n = 0 then 400 else n
def Launch.nwq (l : Launch) : Nat := Packet.fld l.packet 656 4

/-- A launch that stands for a warp without one; no reachable warp is without its launch. -/
def Launch.none : Launch := { lid := 0, packet := 0, qid := 0, pseq := 0, tstart := 0 }

/-- The team and launch of a warp. -/
def teamOf (s : State) (w : Warp) : Option Team := s.team? w.team
def launchD (s : State) (w : Warp) : Launch := (launchOf s w).getD Launch.none

/-- CLKRATIO of a core's cluster (R426). -/
def clkratio (s : State) (core : Nat) : Nat :=
  let c := clusterOf s core
  c.ratio + 2 ^ 16 * (c.epoch % 2 ^ 16)

/-- A system value in a lane, for a context with active lanes `act` that issues at `tick` (R86, R117). -/
def sysVal (s : State) (w : Warp) (act : Lanes) (tick : Nat) (v : SysVal) (lane : Nat) : Word :=
  let l := launchD s w
  let lin := match teamOf s w with
    | some t => t.lin
    | none => 0
  BitVec.ofNat 32 (match v with
    | .laneid => lane
    | .sliceid => w.base + lane / 4
    | .warpid => w.w
    | .warpsper => l.warps
    | .teamidX => lin % l.gx
    | .teamidY => lin / l.gx % l.gy
    | .teamidZ => lin / l.gx / l.gy
    | .width => w.width
    | .nteamsX => l.gx
    | .nteamsY => l.gy
    | .nteamsZ => l.gz
    | .coreid => w.core
    | .roomid => w.room
    | .clkratio => clkratio s w.core
    | .timensLo => timens s
    | .timensHi => timens s / 2 ^ 32
    | .tickcntLo => tick
    | .tickcntHi => tick / 2 ^ 32
    | .lanemask => act.toNat
    | .ctxid => l.ctx
    | .devid => s.devid
    | .podsize => s.podsize)

/-- A constant as a 32-bit source, with its tag (R116). -/
def konWord : Konst → Word × Tag
  | .zero => (0, 62)
  | .one => (1, 62)
  | .onef => (0x3F800000, 62)
  | .ones => (0xFFFFFFFF, 63)

/-- A constant as a 64-bit source (R118). -/
def konDword : Konst → Dword × Tag
  | .zero => (0, 62)
  | .one => (1, 62)
  | .onef => (0x3FF0000000000000, 62)
  | .ones => (0xFFFFFFFFFFFFFFFF, 63)

/-! ## The issuing context as its syllables read it -/

/-- What a syllable reads: the state, its warp, the warp as it stood when its bundle issued, its bundle, and the hatch entries it
pops: hatch number and lanes. -/
structure Rd where
  s : State
  w : Warp
  old : Warp
  iss : Issue
  pops : List (Nat × List LaneRes)

/-- The value and tag of a popped entry in a lane; an element a push left undefined is free (R259, R261). -/
def popVal (rd : Rd) (h lane : Nat) : Word × Tag :=
  match rd.pops.lookup h with
  | some ls =>
    match ls.find? fun r => r.lane = lane with
    | some r => r.vals.headD (Config.freeWord rd.s.fresh (776 + h) lane, Config.freeTag rd.s.fresh (776 + h) lane)
    | none => (Config.freeWord rd.s.fresh (776 + h) lane, Config.freeTag rd.s.fresh (776 + h) lane)
  | none => (Config.freeWord rd.s.fresh (776 + h) lane, Config.freeTag rd.s.fresh (776 + h) lane)

/-- A 32-bit source in a lane, with its stored tag (R116, R117). -/
def src32 (rd : Rd) (o : Opnd) (lane : Nat) : Word × Tag :=
  match o with
  | .reg n => regRead rd.s rd.old n lane
  | .ln n => regRead rd.s rd.old (768 + n) lane
  | .hq h => popVal rd h lane
  | .sys v => (sysVal rd.s rd.w rd.iss.lanes rd.iss.tick v lane, 63)
  | .kon c => konWord c
  | .none => (0, 63)

/-- Consecutive operands in a lane, from a register or a landing (R118, R282, R329). -/
def srcSpan (rd : Rd) (n lane : Nat) : Nat → List (Word × Tag)
  | 0 => []
  | k + 1 => regRead rd.s rd.old n lane :: srcSpan rd (n + 1) lane k

/-- The 64 bits of a system value that has them in one sample (R118). -/
def sysDword (rd : Rd) (v : SysVal) : Dword :=
  match v with
  | .timensLo => BitVec.ofNat 64 (timens rd.s)
  | .tickcntLo => BitVec.ofNat 64 rd.iss.tick
  | .lanemask => rd.iss.lanes
  | _ => 0

/-- A 64-bit source in a lane: low and high word with their tags (R118). -/
def src64 (rd : Rd) (o : Opnd) (lane : Nat) : List (Word × Tag) :=
  match o with
  | .reg n => srcSpan rd n lane 2
  | .ln n => srcSpan rd (768 + n) lane 2
  | .sys v => let d := sysDword rd v; [(loWord d, 63), (hiWord d, 63)]
  | .kon c => let d := konDword c; [(loWord d.1, d.2), (hiWord d.1, 63)]
  | .hq _ | .none => [(0, 63), (0, 63)]

/-- A quad in a lane (R282). -/
def srcQuad (rd : Rd) (o : Opnd) (lane : Nat) : List (Word × Tag) :=
  match o with
  | .reg n => srcSpan rd n lane 4
  | .ln n => srcSpan rd (768 + n) lane 4
  | _ => [(0, 63), (0, 63), (0, 63), (0, 63)]

/-- Words as one number, the first in the low bits. -/
def wordsNat : List (Word × Tag) → Nat
  | [] => 0
  | (w, _) :: ws => w.toNat + 2 ^ 32 * wordsNat ws

/-- A 32-bit source as a bit pattern. -/
def val32 (rd : Rd) (o : Opnd) (lane : Nat) : Word := (src32 rd o lane).1
/-- A 64-bit source as a bit pattern. -/
def val64 (rd : Rd) (o : Opnd) (lane : Nat) : Dword := BitVec.ofNat 64 (wordsNat (src64 rd o lane))

/-- The stored tag of a 64-bit source: its low half's (R29). -/
def tag64 (rd : Rd) (o : Opnd) (lane : Nat) : Tag := ((src64 rd o lane).headD (0, 63)).2

/-! ## Predicates and lanes (R123, R124) -/

/-- Whether P enables a lane. -/
def enabledAt (rd : Rd) (f : Fields) (lane : Nat) : Bool :=
  match f.p with
  | .none => true
  | o => xor (wbit (val32 rd o lane) f.pb) f.pn

/-- The active lanes that P enables. -/
def enabled (rd : Rd) (f : Fields) : Lanes :=
  laneSet ((lanesOf rd.iss.lanes).filter (enabledAt rd f))

/-- The lanes in which a syllable is evaluated: under U the lowest enabled lane alone. -/
def evalLanes (rd : Rd) (f : Fields) : List Nat :=
  let en := lanesOf (enabled rd f)
  if f.u then en.take 1 else en

/-! ## Hatches (R258 to R262) -/

/-- Whether a warp belongs to a hatch pair (R92). -/
def hasPair (s : State) (w : Warp) : Bool := w.w < 2 * (launchD s w).hpairs

/-- The queue a warp pops for hq h: the compute warp, the odd one of the pair, pops the down queue. -/
def popKey (w : Warp) (h : Nat) : Nat := 8 * (w.w / 2) + (if w.w % 2 = 1 then 0 else 4) + h

/-- The queue a warp pushes for hq h. -/
def pushKey (w : Warp) (h : Nat) : Nat := 8 * (w.w / 2) + (if w.w % 2 = 1 then 4 else 0) + h

/-- The depth of a queue (R258). -/
def hatchDepth (key : Nat) : Nat := if key % 8 < 4 then 16 else 8

def Team.queue (t : Team) (key : Nat) : List HatchEnt := (tget t.hatches key).getD []

/-- Whether the other warp of a warp's pair has ended (R262). -/
def partnerEnded (s : State) (w : Warp) : Bool :=
  let p := if w.w % 2 = 0 then w.w + 1 else w.w - 1
  !(s.warps.any fun e => e.2.team == w.team && e.2.w == p && !e.2.ended)

/-- The hatches a syllable names as sources, in the order A, B, C. -/
def popList (f : Fields) : List Nat :=
  [f.a, f.b, f.c].filterMap fun o => match o with
    | .hq h => some h
    | _ => none

/-- The oldest entry of a queue, when it was complete at the end of the previous clock cycle (R155, R260). -/
def headEntry (t : Team) (key base : Nat) : Option HatchEnt :=
  match t.queue key with
  | e :: _ => if e.done.any (· < base) then some e else none
  | [] => none

/-- The entries a syllable pops, where they are complete. -/
def peekPops (s : State) (w : Warp) (f : Fields) : List (Nat × List LaneRes) :=
  match s.team? w.team with
  | some t => (popList f).filterMap fun h => (headEntry t (popKey w h) s.base).map fun e => (h, e.lanes)
  | none => []

/-- The oldest entries popped (R260). -/
def Team.popAll (t : Team) (w : Warp) (hs : List Nat) : Team :=
  hs.foldl (fun t h => let k := popKey w h; { t with hatches := tset t.hatches k ((t.queue k).drop 1) }) t

/-- An entry taken at the end of a queue (R259). -/
def Team.push (t : Team) (key : Nat) (e : HatchEnt) : Team :=
  { t with hatches := tset t.hatches key (t.queue key ++ [e]) }

/-- Whether a queue has a free entry. -/
def Team.hasRoom (t : Team) (key : Nat) : Bool := (t.queue key).length < hatchDepth key

/-- A reserved entry completed (R261). -/
def Team.fillEntry (t : Team) (key id base : Nat) (lanes : List LaneRes) : Team :=
  { t with hatches := tmod t.hatches key fun q => q.map fun e =>
      if e.id = id then { e with lanes := lanes, done := some base } else e }

/-! ## Barriers (R397) -/

/-- The lanes of a warp that have arrived in a barrier's open phase. -/
def Barrier.arrived (b : Barrier) (w : Nat) : Lanes :=
  b.record.foldl (fun m a => if a.w = w && a.counted then m ||| a.lanes else m) 0

/-- The warps of a team that have arrived: every lane has arrived or retired. -/
def arrivedWarps (s : State) (t : Team) (b : Barrier) : Nat :=
  (s.warps.filter fun e => e.2.team = t.tid && (e.2.ended || allLanes e.2.width &&& ~~~(b.arrived e.2.w ||| e.2.retired) = 0)).length

/-- Whether the open phase of a barrier has its arrivals (R397). -/
def Barrier.met (b : Barrier) (s : State) (t : Team) : Bool := b.isOpen && (b.record.any fun a => a.counted) && b.e ≤ arrivedWarps s t b

/-- A barrier after an arrival or a retirement on a core, which is the one where its phase completes unless it was complete before
(R398). -/
def Barrier.touch (b : Barrier) (s : State) (t : Team) (core : Nat) : Barrier := if b.met s t then b else { b with core := core }

/-! ## Destinations -/

/-- The destination of a syllable by its shape (R119, R190). -/
def dstOf (d : Opnd) (k : DK) : Dst :=
  match k with
  | .none => .regs 1023 0
  | .w32 | .w32n => .regs d.num 1
  | .w64 => .regs d.num 2
  | .quad => .regs d.num 4
  | .frag => .regs d.num 8
  | .bit => .regs d.num 1

/-- A bit destination (R190). -/
def bitDst (d : Opnd) (j count : Nat) (cmb : Cmb) : Dst := .bits d.num j count cmb

/-! ## What issuing a syllable may meet -/

/-- The outcome of a syllable's checks at issue: it issues; its bundle is not ready, counting a code (R152, R166); its warp is
frozen for some core clock cycles (R150); translations are asked for (R270); or a class B trap is raised (R404). -/
inductive Pre where
  | ok
  | hold (code : Nat)
  | freeze (code : Nat) (why : FreezeWhy)
  /-- Pages of which a walk must find the translation, and beside them pages found in the die TLB. -/
  | walk (pages : List (Nat × Need)) (fills : List Nat)
  /-- Pages found in the die TLB, copied to the core TLB in 6 clock cycles (R270). -/
  | fillTlb (pages : List Nat)
  | trap (cause : Nat) (lanes : Lanes) (val : Nat)
deriving DecidableEq, Repr

/-- The first outcome that is not ok. -/
def Pre.andThen (a b : Pre) : Pre :=
  match a with
  | .ok => b
  | x => x

/-- The hooks a syllable raises: hook and number of items (R162, R395). -/
def raisesOf : Instr → Option (Nat × Nat)
  | .ld _ _ _ _ h _ | .st _ _ _ _ h _ | .ldr _ _ _ _ _ h _ | .ldt _ _ _ h _ | .stt _ _ _ h _ | .ldw _ _ _ h _
  | .atom _ _ _ h _ | .atoms _ _ _ h _ | .rld _ _ _ _ h _ | .rst _ _ _ _ h _ | .ratom _ _ _ h _
  | .fenceTeam _ _ h | .fencePair _ _ h | .fenceDev _ _ h | .fenceFab _ _ h | .afence _ _ h | .icinv _ h
  | .spmarkFull _ h | .spmarkEmpty _ h | .wqenq _ _ h | .wqdeq _ _ h
  | .cpyIn _ _ _ h | .cpyOut _ _ _ h | .cpytIn _ _ _ h | .cpytOut _ _ _ h | .cpyg _ _ _ h | .cpys _ _ _ _ h
  | .cpyfSp _ _ h | .cpyfMem _ _ _ h | .cpyw _ _ h | .cpyc _ _ h
  | .bsend _ h | .brecv _ h | .bprobeSnd _ h | .bprobeRcv _ h | .bcancelSnd _ h | .bcancelRcv _ h
  | .mcfg _ _ _ _ _ h | .mloft _ _ _ h | .mloftw _ _ _ h | .mlofth _ _ h | .mma _ _ _ _ _ h | .mmas _ _ _ _ _ h
  | .mscl _ _ _ h | .mdrainReg _ _ _ h | .mdrainScratch _ _ _ _ _ _ h | .mzero _ _ h | .mfence _ h
  | .syscIcb _ h | .sysc _ _ h | .knock _ h => some (h, 1)
  | .hkadjUp _ h n => some (h, n)
  | _ => none

/-- Whether a hook would pass 63 (R162). -/
def hookFull (w : Warp) (i : Instr) : Bool :=
  match raisesOf i with
  | some (h, n) => 63 < w.hookCount h + n
  | none => false

/-- The checks every syllable makes: hooks (R162), and hatches popped (R260, R262). -/
def commonPre (i : Instr) (s : State) (w : Warp) (iss : Issue) : Pre :=
  if hookFull w i then .hold 3
  else
    match i.fields, s.team? w.team with
    | some f, some t =>
      match (popList f).find? fun h => (headEntry t (popKey w h) s.base).isNone with
      | some h =>
        if (t.queue (popKey w h)).isEmpty && partnerEnded s w then .trap 0x17 iss.lanes (fldVal iss.syl
          (if f.a = .hq h then 2 else if f.b = .hq h then 3 else 4))
        else .freeze 5 (.pop (popKey w h))
      | none => .ok
    | _, _ => .ok

/-- Work that leaves destinations undefined, as a hook that no syllable names. -/
def openHook (ds : List (Dst × Lanes)) : List HookSt :=
  if ds.isEmpty then [] else [{ items := ds.map fun d => { id := 0, dst := d.1, lanes := d.2 } }]

/-- A warp as the syllables of a bundle read it: without the results and work of the bundle itself (R109), and with those of the
context that issues beside it (R154). -/
def Warp.atIssue (w : Warp) (seq0 : Nat) (opens : List (Dst × Lanes)) : Warp :=
  let old (h : HookSt) : HookSt := { h with items := h.items.filter fun i => i.id < seq0 }
  { w with flight := w.flight.filter (fun f => f.seq < seq0), hooks := w.hooks.map old ++ openHook opens }

/-- What the syllable at the head of `issuing` reads. -/
def rdOf (i : Instr) (s : State) (w : Warp) (iss : Issue) : Rd :=
  let s := { s with fresh := iss.fresh0 + iss.syl }
  match i.fields with
  | some f => ⟨s, w, w.atIssue iss.seq0 iss.opens, iss, peekPops s w f⟩
  | none => ⟨s, w, w.atIssue iss.seq0 iss.opens, iss, []⟩

/-- The hatch entries a syllable pops removed (R260). -/
def Rd.taken (rd : Rd) (s : State) : State :=
  s.modTeam rd.w.team fun t => t.popAll rd.w (rd.pops.map Prod.fst)

end Sys2Proof.Machine
end

