-- ==== Sys2Proof/Machine/Translate.lean ====
section
/-! DEFINITION. Address translation (R264 to R277): the walk over the page tables, the core and die TLBs, the walks in flight, the
rights of an access, and the faults a bundle's addresses raise. -/

namespace Sys2Proof.Machine

def Need.ok (n : Need) (l : Leaf) : Bool :=
  match n with
  | .r => l.r
  | .w => l.w
  | .rw => l.r && l.w
  | .x => l.x

/-- The physical address of a virtual one under its leaf. -/
def Leaf.phys (l : Leaf) (va : Nat) : Nat := l.pa + va % 2 ^ l.size

/-- The outcome of a walk (R266). -/
inductive WalkOut where
  | leaf (l : Leaf)
  | fault (reason level : Nat)
  | defer
deriving DecidableEq, Repr

/-- The 8 bytes of a page-table entry at its home (R266). What a walk does with an entry in a poisoned block is not in the spec: here its
bytes read as zero, so that the entry is invalid (DESIGN CHOICE, log 77). -/
def readEntry (s : State) (pa : Nat) : Nat := readBytes s none (pa / 128) true (pa % 128) 8

/-- log2 of what a leaf at a level maps (R264). -/
def leafBits (level : Nat) : Nat := if level = 1 then 30 else if level = 2 then 21 else 16

/-- The index of a level (R264). -/
def levelIndex (level va : Nat) : Nat :=
  if level = 0 then bits va 39 9 else if level = 1 then bits va 30 9 else if level = 2 then bits va 21 9 else bits va 16 5

/-- Whether a required value of R265, other than a leaf's CA 11, is broken. The CA bits of a pointer must be 00; whether a pointer that
breaks nothing but those, with CA 11, gives REASON 3 or 7 is left open by R265 and R266: here 3 (DESIGN CHOICE, log 77). -/
def entryBroken (level e : Nat) : Bool :=
  let addr := bits e 8 40 * 256
  if bits e 1 1 = 1 then
    (bits e 57 1 = 0 && bits e 48 9 ≠ 0) || (level ≠ 0 && addr % 2 ^ leafBits level ≠ 0)
  else
    bits e 2 6 ≠ 0 || bits e 48 10 ≠ 0 || (level ≠ 3 && addr % (if level = 2 then 256 else 4096) ≠ 0)

/-- The leaf an entry holds. -/
def leafOf (level e : Nat) : Leaf :=
  { pa := bits e 8 40 * 256, size := leafBits level, r := bits e 2 1 = 1, w := bits e 3 1 = 1, x := bits e 4 1 = 1,
    zp := bits e 5 1 = 1, ca := bits e 6 2, enc := bits e 57 1 = 1, keyid := bits e 48 9, level := level }

/-- A walk from a table on, with the levels still to go (R266). -/
def walkFrom (s : State) (va : Nat) : Nat → Nat → Nat → WalkOut
  | 0, _, _ => .fault 2 3
  | n + 1, level, table =>
    let e := readEntry s (table + 8 * levelIndex level va)
    if bits e 0 1 = 0 then (if bits e 1 1 = 1 then .defer else .fault 1 level)
    else if entryBroken level e then .fault 3 level
    else if bits e 1 1 = 1 && bits e 6 2 = 3 then .fault 7 level
    else if hbmTop ≤ bits e 8 40 * 256 then .fault 4 level
    else if bits e 1 1 = 1 then (if level = 0 then .fault 2 0 else .leaf (leafOf level e))
    else if level = 3 then .fault 2 3
    else walkFrom s va n (level + 1) (bits e 8 40 * 256)

/-- The walk of an address in a context (R266). -/
def walk (s : State) (ctx va : Nat) : WalkOut :=
  if 2 ^ 48 ≤ va then .fault 0 0 else walkFrom s va 4 0 (s.ctx ctx).root

/-- The lines of a walk's entries brought to their homes, charged to the context that walks, or the device (R266, R441). -/
def bringWalk (s : State) (va ctx : Nat) : Nat → Nat → Nat → State
  | 0, _, _ => s
  | n + 1, level, table =>
    let pa := table + 8 * levelIndex level va
    let s := homeLine s (pa / 128) false 0 ⟨ctx, walkPlace⟩ false
    let e := readEntry s pa
    if bits e 0 1 = 0 || bits e 1 1 = 1 || entryBroken level e || hbmTop ≤ bits e 8 40 * 256 then s
    else bringWalk s va ctx n (level + 1) (bits e 8 40 * 256)

/-! ## TLBs (R270) -/

/-- The entry of a TLB that holds an address. -/
def tlbFind (t : List TlbEnt) (ctx va : Nat) : Option Leaf :=
  (t.find? fun e => e.ctx = ctx && va / 2 ^ e.leaf.size = e.page).map TlbEnt.leaf

/-- A full list with a free one of its entries given up (R462, log 11). -/
def giveUp {α : Type} (l : List α) (cap n : Nat) : List α :=
  if l.length < cap then l else l.eraseIdx (Config.victim n % l.length)

/-- A TLB with an entry added. -/
def tlbAdd (t : List TlbEnt) (cap n ctx va : Nat) (l : Leaf) : List TlbEnt :=
  if (tlbFind t ctx va).isSome then t else ⟨ctx, va / 2 ^ l.size, l⟩ :: giveUp t cap n

def Core.tlbFill (c : Core) (n ctx va : Nat) (l : Leaf) : Core := { c with tlb := tlbAdd c.tlb 256 n ctx va l }

/-- A translation put into a core's TLB. -/
def coreTlbAdd (s : State) (core ctx va : Nat) (l : Leaf) : State :=
  (s.modCore core fun c => c.tlbFill s.fresh ctx va l).used

/-- A translation put into a die's TLB. -/
def dieTlbAdd (s : State) (die ctx va : Nat) (l : Leaf) : State :=
  { s with dieTlb := lmod s.dieTlb die fun t => tlbAdd t 8192 s.fresh ctx va l, fresh := s.fresh + 1 }

/-- What is known of an address's translation. -/
inductive Tr where
  | hit (l : Leaf)
  | die (l : Leaf)
  | none
  | failed (reason level : Nat)
deriving DecidableEq, Repr

/-- A translation looked up for a core: failed walks kept for the requester, then the core's TLB, then its die's. -/
def lookupTr (s : State) (core ctx va : Nat) (res : List (Nat × Nat × Nat)) : Tr :=
  if 2 ^ 48 ≤ va then .failed 0 0
  else match res.find? fun r => r.1 = va / 65536 with
    | some r => .failed r.2.1 r.2.2
    | none => match tlbFind (s.core core).tlb ctx va with
      | some l => .hit l
      | none => match tlbFind (s.dieTlb.getD (dieOf core) []) ctx va with
        | some l => .die l
        | none => .none

/-! ## Walks in flight (R270) -/

/-- Whether two addresses of a context lie in one page as its tables stand; no page is smaller than 64 KiB. -/
def samePage (s : State) (ctx va va' : Nat) : Bool :=
  va / 65536 = va' / 65536 || (match walk s ctx va with
    | .leaf l => va / 2 ^ l.size = va' / 2 ^ l.size
    | .fault _ _ | .defer => false)

/-- Whether a walk serves a requester: misses of a die to the same context and page share one (R270). -/
def Walk.serves (s : State) (k : Walk) (ctx die va : Nat) : Bool := k.ctx = ctx && k.die = die && samePage s ctx k.va va

/-- The walks in flight for the warps of a room. -/
def roomWalks (s : State) (core room : Nat) : Nat :=
  (s.walks.filter fun k => k.reqs.any fun r => match r with
    | .warp wid => match s.warp? wid with
      | some w => w.core = core && w.room = room
      | none => false
    | _ => false).length

/-- A walk joined or begun. -/
def joinWalk (s : State) (who : WalkReq) (core ctx va : Nat) (need : Need) : State :=
  let die := dieOf core
  if s.walks.any fun k => k.serves s ctx die va then
    { s with walks := s.walks.map fun k =>
        if k.serves s ctx die va && !k.reqs.contains who then { k with reqs := k.reqs ++ [who] } else k }
  else
    let k : Walk := ⟨s.nextId, ctx, va, die, false, [who], false, need⟩
    ({ s with walks := s.walks ++ [k] }.bump).laterFree 3 (.tlbWalkComplete k.id)

/-- The translations a warp asks for, of which a room holds at most 8 (R270). -/
def askWalks (s : State) (w : Warp) (pages : List (Nat × Need)) : State :=
  pages.foldl (fun s p =>
    if (s.walks.any fun k => k.serves s (ctxOf s w) (dieOf w.core) p.1 && k.reqs.contains (.warp w.wid))
        || 8 ≤ roomWalks s w.core w.room then s
    else joinWalk s (.warp w.wid) w.core (ctxOf s w) p.1 p.2) s

/-- The pages of a list that a warp still needs translated: by a walk, or by a copy from the die TLB. -/
def pagesLeft (s : State) (w : Warp) (pages : List (Nat × Need)) (die : Bool) : List (Nat × Need) :=
  pages.filter fun p => match lookupTr s w.core (ctxOf s w) p.1 w.walkRes with
    | .hit _ | .failed _ _ => false
    | .die _ => die
    | .none => !die

/-- One of each page among addresses; no page is smaller than 64 KiB. -/
def onePerPage (pages : List (Nat × Need)) : List (Nat × Need) :=
  pages.foldl (fun ps p => if ps.any fun q => q.1 / 65536 = p.1 / 65536 then ps else ps ++ [p]) []

/-- Pages of the die TLB copied to a core's. -/
def fillPages (s : State) (core ctx : Nat) (pages : List Nat) : State :=
  pages.foldl (fun s va => match tlbFind (s.dieTlb.getD (dieOf core) []) ctx va with
    | some l => coreTlbAdd s core ctx va l
    | none => s) s

/-! ## The addresses of a syllable (R271, R275, R284) -/

/-- One lane's access to virtual memory. -/
structure XReq where
  lane : Nat
  va : Int
  width : Nat
  need : Need

/-- What is known of an access: its leaf, a translation to ask for or to copy from the die TLB, or its fault with TRVAL. -/
inductive XRes where
  | ok (l : Leaf)
  | ask (va : Nat) (need : Need)
  | fill (va : Nat)
  | bad (cause val : Nat)
deriving DecidableEq, Repr

/-- TRVAL of causes 0B and 0C (R267). -/
def xlateVal (va reason level : Nat) : Nat := va % 2 ^ 48 + 2 ^ 48 * reason + 2 ^ 52 * level

/-- The leaf of an access checked: its key slot, its rights, its alignment (R269, R276, R284). -/
def checkLeaf (s : State) (va width : Nat) (need : Need) (l : Leaf) : XRes :=
  if l.enc && (tget s.keySlots l.keyid).isNone then .bad 0x0B (xlateVal va 5 l.level)
  else if !need.ok l then .bad 0x0C (xlateVal va 8 l.level)
  else if va % width ≠ 0 then .bad 0x0D 0
  else .ok l

/-- One access translated and checked for a warp. -/
def xReq (s : State) (w : Warp) (r : XReq) : XRes :=
  if r.va < 0 || 2 ^ 64 ≤ r.va then .bad 0x0A 0
  else
    let va := r.va.toNat
    match lookupTr s w.core (ctxOf s w) va w.walkRes with
    | .failed reason level => .bad 0x0B (xlateVal va reason level)
    | .none => .ask va r.need
    | .die _ => .fill va
    | .hit l => checkLeaf s va r.width r.need l

/-- The outcome of a syllable's accesses: address overflow before any walk, then every lane's translation, then the lowest cause
with its lanes and the TRVAL of the lowest of them (R271, R275). -/
def xPre (rs : List (Nat × XRes)) : Pre :=
  let bad (c : Nat) := rs.filterMap fun r => match r.2 with
    | .bad c' v => if c' = c then some (r.1, v) else none
    | _ => none
  let report (c : Nat) : Option Pre := match bad c with
    | [] => none
    | (l, v) :: t => some (.trap c (laneSet (l :: t.map Prod.fst)) v)
  match report 0x0A with
  | some p => p
  | none =>
    let fills := rs.filterMap fun r => match r.2 with
      | .fill va => some va
      | _ => none
    match rs.filterMap fun r => match r.2 with
      | .ask va n => some (va, n)
      | _ => none with
    | va :: t => .walk (va :: t) fills
    | [] =>
      match fills with
      | va :: t => .fillTlb (va :: t)
      | [] => ((report 0x0B).or ((report 0x0C).or (report 0x0D))).getD .ok

/-- The outcome of the accesses a syllable makes. -/
def xlatePre (s : State) (w : Warp) (rs : List XReq) : Pre := xPre (rs.map fun r => (r.lane, xReq s w r))

/-- The leaf of an access that passed its checks. -/
def leafAt (s : State) (w : Warp) (va : Nat) : Leaf :=
  match lookupTr s w.core (ctxOf s w) va w.walkRes with
  | .hit l | .die l => l
  | _ => ⟨0, 16, false, false, false, false, 0, false, 0, 0⟩

/-! ## Engine work (R272) -/

/-- The translation of an address for engine work or a fetch: a leaf, a wait for its walk, or a fault. -/
inductive EngX where
  | ok (s : State) (l : Leaf)
  | wait (s : State)
  | bad (cause val : Nat)

/-- An address translated for a requester that no freeze holds; a die-TLB hit is copied to the core TLB. -/
def engXlate (s : State) (who : WalkReq) (core ctx va : Nat) (need : Need) (res : List (Nat × Nat × Nat)) : EngX :=
  match lookupTr s core ctx va res with
  | .failed reason level => .bad 0x0B (xlateVal va reason level)
  | .none => .wait (joinWalk s who core ctx va need)
  | .die l => match checkLeaf s va 1 need l with
    | .bad c v => .bad c v
    | _ => .ok (coreTlbAdd s core ctx va l) l
  | .hit l => match checkLeaf s va 1 need l with
    | .bad c v => .bad c v
    | _ => .ok s l

end Sys2Proof.Machine
end

