-- ==== Sys2Proof/Machine/Issue.lean ====
section
/-! DEFINITION. Issuing a syllable: the fixed latencies (R157), the checks and what they lead to (R150, R152, R404), a result put in
flight (R154), the register-read penalty (R156), the slices of a warp at a bundle boundary (R172, R173), and the end of a bundle
(R125, R153). -/

namespace Sys2Proof.Machine

/-! ## Latencies and occupancy (R157) -/

/-- A latency for W16, W32 and W64. -/
def byWidth (width a b c : Nat) : Nat := if width = 16 then a else if width = 32 then b else c

/-- The fixed latency of a syllable, in ticks; 0 for those that write nothing at a fixed latency. -/
def latency (i : Instr) (width : Nat) : Nat :=
  match i with
  | .iadd .. | .isub .. | .iaddc .. | .imin .. | .imax .. | .iabs .. | .icmp .. | .bool3 .. | .shl .. | .shr ..
  | .sar .. | .rotl .. | .fshl .. | .bfx .. | .bfi .. | .popc .. | .clz .. | .brev .. | .sel .. | .mov .. | .movi ..
  | .prmt .. | .iclamp .. | .sigrd .. | .sigwr .. => 2
  | .lea .. | .add64 .. | .sub64 .. | .cmp64 .. | .shl64 .. | .shr64 .. | .mad64 .. | .fclass .. | .frint ..
  | .fscale .. | .fexpnE .. | .fexpnM .. | .cvt .. | .pack2 .. | .pack4 .. | .unpack .. | .nbr .. | .voteBallot ..
  | .voteAny .. | .voteAll .. | .voteEq .. | .csrr .. | .csrx .. => 3
  | .imul .. | .imulhi .. | .imad .. | .imadw .. | .idot4 .. | .isad .. | .fadd .. | .fsub .. | .fmul .. | .ffma ..
  | .fmin .. | .fmax .. | .fcmp .. | .hadd2 .. | .hmul2 .. | .hfma2 .. | .hcmp2 .. | .hmin2 .. | .hmax2 .. => 4
  | .shflIdx .. | .shflXor .. => 5
  | .cvtscScale .. | .cvtsc .. | .sigmin .. => 6
  | .matchLanes .. => 8
  | .dadd .. | .dmul .. | .dfma .. | .dcmp .. | .dmin .. | .dmax .. => byWidth width 8 9 11
  | .rcp .. | .rsq .. | .sqrt .. | .ex2 .. | .lg2 .. | .sin .. | .cos .. | .tanh .. | .drcp .. => byWidth width 10 11 13
  | .red .. => byWidth width 8 10 12
  | .scan .. => byWidth width 10 12 14
  | .lds .. | .sts .. => 12
  | _ => 0

/-- The ticks for which a V syllable holds the V pipe. -/
def occupancy (i : Instr) (width : Nat) : Nat :=
  match i with
  | .dadd .. | .dmul .. | .dfma .. | .dcmp .. | .dmin .. | .dmax .. | .rcp .. | .rsq .. | .sqrt .. | .ex2 .. | .lg2 ..
  | .sin .. | .cos .. | .tanh .. | .drcp .. => width / 16
  | _ => 1

/-! ## The checks of a syllable and what they lead to -/

/-- A warp frozen for the clock cycles in which pages of the die TLB are copied to its core's (R270). -/
def fillDie (s : State) (w : Warp) (pages : List Nat) : State :=
  fillPages (s.putWarp (w.freeze 12 (coreCycle s w.core + 6) true)) w.core (ctxOf s w) pages

/-- What a failed check does to the warp: nothing for a bundle that is not ready; a freeze; walks; a class B trap due at the
warp's tick (R409), taken at once. -/
def stopFor (p : Pre) (s : State) (w : Warp) (iss : Issue) : State :=
  match p with
  | .ok | .hold _ => s
  | .freeze c why => s.putWarp (w.freezeFor c why)
  | .walk pages fills =>
    let ps := onePerPage pages
    let w := w.freezeFor 12 (.walk ps)
    askWalks (if fills.isEmpty then s.putWarp w else fillDie s w fills) w ps
  | .fillTlb pages => fillDie s w pages
  | .trap cause lanes val =>
    let t : TrapDue := { cause := cause, cls := 0, pc := BitVec.ofNat 64 iss.pc, lanes := lanes, val := BitVec.ofNat 64 val,
                         seq := s.nextId, tick := w.tick, slices := iss.slices }
    ((s.putWarp { w.post t with walkRes := [] }).bump).soon (.trapEntry w.wid)

/-- A syllable at the head of `issuing`: its checks, and its effect when they pass. `chk` looks at what the syllable reads; `eff`
is applied to the state with the popped hatch entries removed (R260). -/
def withIssue (i : Instr) (chk : Rd → Pre) (eff : Rd → State → State) (s : State) : Result :=
  match s.issuing with
  | [] => .next s
  | iss :: rest =>
    match s.warp? iss.wid with
    | none => .next { s with issuing := rest }
    | some w =>
      let rd := rdOf i s w iss
      match (commonPre i s w iss).andThen (chk rd) with
      | .ok => .next (eff rd (rd.taken s))
      | p => .next (stopFor p { s with issuing := rest } w iss)

/-- The checks of a syllable that has none of its own. -/
def noChk : Rd → Pre := fun _ => .ok

/-! ## Results (R154, R124) -/

/-- The results of a syllable: evaluated in each enabled lane, or under U once in the lowest one and written to all, its flags
being those of that one evaluation (R25, R124). -/
def evalRes (rd : Rd) (f : Fields) (comp : Nat → LaneRes) : List LaneRes :=
  let en := lanesOf (enabled rd f)
  if f.u then
    match en with
    | [] => []
    | l :: _ =>
      let r := comp l
      en.map fun k => { r with lane := k, flags := if k = l then r.flags else r.flags &&& fAO }
  else en.map comp

/-- A fixed-latency result put in flight. -/
def launchFlight (rd : Rd) (dst : Dst) (mask : Lanes) (lat : Nat) (rs : List LaneRes) (s : State) : State :=
  let fl : Flight := ⟨s.nextId, rd.iss.tick + lat, BitVec.ofNat 64 rd.iss.pc, dst, mask, rs⟩
  (s.putWarp (Warp.noteWrite { rd.w with flight := rd.w.flight ++ [fl] } dst mask s.nextId)).bump

/-- The V pipe of the warp's room held to a tick of the warp (R157, R158). -/
def holdV (rd : Rd) (occ : Nat) (s : State) : State :=
  s.modCore rd.w.core fun c => { c with rooms := lmod c.rooms rd.w.room fun r =>
    { r with vHold := some (rd.w.wid, rd.iss.tick + occ, coreCycle s rd.w.core) } }

/-- The effect of a V syllable: its results land `latency` ticks on. -/
def vEff (i : Instr) (f : Fields) (dst : Dst) (comp : Rd → Nat → LaneRes) (rd : Rd) (s : State) : State :=
  holdV rd (occupancy i rd.w.width)
    (launchFlight rd dst (enabled rd f) (latency i rd.w.width) (evalRes rd f (comp rd)) s)

/-- A V syllable that writes a whole destination. -/
def vIssue (i : Instr) (f : Fields) (dst : Dst) (comp : Rd → Nat → LaneRes) (s : State) : Result :=
  withIssue i noChk (vEff i f dst comp) s

/-- One word with its tag as a lane's result. -/
def res1 (lane : Nat) (v : Word) (t : Tag) : LaneRes := { lane := lane, vals := [(v, t)] }

/-- A 64-bit value with the tag 63 (R29, R191). -/
def res2 (lane : Nat) (v : Dword) (flags : BitVec 6 := 0) : LaneRes :=
  { lane := lane, vals := [(loWord v, 63), (hiWord v, 63)], flags := flags }

/-- A bit as a lane's result; it carries the tag 63 (R190). -/
def resBit (lane : Nat) (b : Bool) (flags : BitVec 6 := 0) : LaneRes :=
  { lane := lane, vals := [(if b then 1 else 0, 63)], flags := flags }

/-! ## The register-read penalty (R147, R156) -/

/-- How many registers a source reads through the bank ports. -/
def SK_span (k : SK) : Nat :=
  match k with
  | .s64 => 2
  | .quad => 4
  | .none | .hc => 0
  | _ => 1

def opndRegs (o : Opnd) (span : Nat) : List Nat :=
  match o with
  | .reg n => (List.range span).map (n + ·)
  | _ => []

/-- The registers a syllable reads through the bank ports. -/
def regsRead (i : Instr) : List Nat :=
  match i.fields, i.shape with
  | some f, some sh => opndRegs f.a (SK_span sh.a) ++ opndRegs f.b (SK_span sh.b) ++ opndRegs f.c (SK_span sh.c) ++ opndRegs f.p 1
  | _, _ => []

/-- The penalty of a bundle (R156). -/
def penalty (is : List Instr) : Nat :=
  let regs := (is.flatMap regsRead).eraseDups
  (List.range 4).foldl (fun m b => max m (((regs.filter fun r => r % 4 = b).length - 2 + 1) / 2)) 0

/-- The registers a marked last use covers: all that the field names (R125), but of a record its first only (R303, R325, R363). -/
def luSpan (k : SK) : Nat :=
  match k with
  | .s64 => 2
  | .quad => 4
  | .frag => 8
  | .none | .hc => 0
  | _ => 1

/-- The registers whose last use a syllable makes (R125). -/
def deadRegs (i : Instr) : List Nat :=
  match i.fields, i.shape with
  | some f, some sh =>
    (if f.lua then opndRegs f.a (luSpan sh.a) else []) ++ (if f.lub then opndRegs f.b (luSpan sh.b) else [])
      ++ (if f.luc then opndRegs f.c (luSpan sh.c) else [])
  | _, _ => []

/-! ## Slices at a bundle boundary (R172, R173) -/

/-- The lanes of a path that have not retired. -/
def Warp.live (w : Warp) (i : Nat) (m : Quad) : Quad := m &&& ~~~(laneQuad i w.retired)

def Slice.pend (sl : Slice) : Option Path :=
  if sl.depth = 0 then sl.pend0 else if sl.depth = 1 then sl.pend1 else sl.pend2

def Slice.setPend (sl : Slice) (p : Option Path) : Slice :=
  if sl.depth = 0 then { sl with pend0 := p } else if sl.depth = 1 then { sl with pend1 := p } else { sl with pend2 := p }

def Slice.tgt (sl : Slice) : Dword := if sl.depth = 1 then sl.tgt1 else sl.tgt2
def Slice.sav (sl : Slice) : Quad := if sl.depth = 1 then sl.sav1 else sl.sav2

/-- The code a hold counts while it lasts (R166). -/
def Hold.code (h : Hold) (cycle ns : Nat) : Option Nat :=
  match h with
  | .none => Option.none
  | .hook _ _ | .hookAll => some 3
  | .bar _ _ | .barw _ _ => some 4
  | .asleep _ _ => some 11
  | .wake c n code => if cycle < c || ns < n then some code else Option.none

/-- Whether a path under a hold is runnable (R98). -/
def Hold.runnable : Hold → Bool
  | .none | .wake _ _ _ => true
  | .hook _ _ | .hookAll | .bar _ _ | .barw _ _ | .asleep _ _ => false

/-- The address of the line that holds a code address. -/
def lineOf (pc : Nat) : Nat := pc / 64 * 64

/-- The line buffer of a slice if it holds the line of a PC. A line left is kept until the slice reads another, so that a path
resumed in the line of its slice's last bundle goes on from the same read (R108, R172). -/
def keepLine (b : Option LineBuf) (pc : Dword) : Option LineBuf :=
  match b with
  | some l => if l.va = lineOf pc.toNat then some l else none
  | none => none

/-- A path made the slice's running one (R172, R175): its first bundle keeps the forced gap after the slice's last bundle. -/
def Slice.resume (sl : Slice) (p : Path) : Slice :=
  { sl with cur := { p with earliest := sl.lastT + 1 + max sl.lastGap 2, noPen := false } }

/-- The hold of a path that arrives at TARGET kept for the slice (log 35). -/
def Slice.keepHold (sl : Slice) (live : Quad → Quad) : Slice :=
  if sl.cur.hold == .none && sl.cur.fence.isNone && sl.cur.wait == .none then sl
  else { sl with waits := sl.waits ++ [(sl.depth, { sl.cur with mask := live sl.cur.mask })] }

/-- The first part of R172: arrived levels popped and pending paths resumed, in place of which an arrived path is dropped. -/
def Slice.arrive (sl : Slice) (live : Quad → Quad) : Nat → Slice
  | 0 => sl
  | n + 1 =>
    let empty := live sl.cur.mask = 0
    let there := 0 < sl.depth && sl.cur.pc == sl.tgt
    if !(empty || there) then sl
    else match sl.pend with
      | some p =>
        Slice.arrive (((if empty then sl else sl.keepHold live).setPend none).resume p) live n
      | none =>
        if 0 < sl.depth then
          Slice.arrive { sl with cur := { sl.cur with mask := live sl.sav }, depth := sl.depth - 1 } live n
        else sl

/-- The paths of a slice. -/
def Slice.paths (sl : Slice) : List Path := [some sl.cur, sl.pend0, sl.pend1, sl.pend2].filterMap id

/-- The lanes of a slice that no hold stops: of its paths, and those that have arrived at a TARGET and stand in SAVED alone. -/
def Slice.runnable (sl : Slice) : Quad :=
  let all := sl.paths.foldl (fun m p => m ||| p.mask) ((if 1 ≤ sl.depth then sl.sav1 else 0) ||| (if 2 ≤ sl.depth then sl.sav2 else 0))
  let stopped := (sl.paths.filter fun p => !p.hold.runnable).foldl (fun m p => m ||| p.mask) 0
  let waiting := (sl.waits.filter fun x => !x.2.hold.runnable).foldl (fun m x => m ||| x.2.mask) 0
  all &&& ~~~(stopped ||| waiting)

/-- The lowest runnable lane of a slice (R98). -/
def Slice.lowRunnable (sl : Slice) (live : Quad → Quad) : Option Nat := (List.range 4).find? fun k => (live sl.runnable).getLsbD k

/-- The second part of R172: the pending path that holds the slice's lowest runnable lane is exchanged with the running one. -/
def Slice.exchange (sl : Slice) (live : Quad → Quad) : Slice :=
  match sl.pend, sl.lowRunnable live with
  | some p, some k =>
    if (live p.mask).getLsbD k && p.hold.runnable then (sl.setPend (some sl.cur)).resume p else sl
  | _, _ => sl

/-- R172 for a slice; with no runnable lane in the warp nothing is exchanged. -/
def Slice.boundary (sl : Slice) (live : Quad → Quad) (runnable : Bool) : Slice :=
  let a := sl.arrive live 8
  if runnable then a.exchange live else a

/-- R172 for every slice of a warp. -/
def Warp.boundary (w : Warp) : Warp :=
  let go (i : Nat) (sl : Slice) : Slice := sl.boundary (w.live i) (w.freezes.isEmpty && !w.stopped)
  { w with slices := (List.range w.slices.length).zipWith go w.slices }

/-- A gang: slices of equal PC and DEPTH, one context (R173). -/
structure Gang where
  pc : Dword
  depth : Nat
  slices : List Nat
  lanes : Lanes
deriving DecidableEq, Repr

/-- A slice put into its gang. -/
def addGang (gs : List Gang) (i : Nat) (sl : Slice) (lanes : Lanes) : List Gang :=
  match gs with
  | [] => [⟨sl.cur.pc, sl.depth, [i], lanes⟩]
  | g :: gs =>
    if g.pc = sl.cur.pc && g.depth = sl.depth then ⟨g.pc, g.depth, g.slices ++ [i], g.lanes ||| lanes⟩ :: gs
    else g :: addGang gs i sl lanes

/-- The contexts of a warp, by their lowest slice, of the slices not in `out`. -/
def Warp.gangsBut (w : Warp) (out : List Nat) : List Gang :=
  ((List.range w.slices.length).zip w.slices).foldl (fun gs p =>
    let q := w.live p.1 p.2.cur.mask
    if q = 0 || out.contains p.1 then gs else addGang gs p.1 p.2 (quadLanes p.1 q)) []

/-- The contexts of a warp. -/
def Warp.gangs (w : Warp) : List Gang := w.gangsBut []

/-- The slices of a gang. -/
def Warp.gangSlices (w : Warp) (g : Gang) : List Slice := g.slices.filterMap fun i => w.slices[i]?

/-! ## Lines of code (R108, R296) -/

/-- The line buffer of a gang: that of its lowest slice that has the line of its PC. -/
def Warp.gangLine (w : Warp) (g : Gang) : Option LineBuf :=
  (w.gangSlices g).findSome? fun sl => match sl.line with
    | some b => if b.va = lineOf g.pc.toNat then some b else none
    | none => none

/-- Whether the line of a context waits for a walk. -/
def fetchWalks (s : State) (w : Warp) (g : Gang) : Bool :=
  s.walks.any fun k => k.serves s (ctxOf s w) (dieOf w.core) g.pc.toNat && k.reqs.contains (.fetch w.wid)

/-- A line put into the buffers of the slices of a warp whose PC lies in it and that have none. -/
def Warp.putLine (w : Warp) (b : LineBuf) : Warp :=
  let put (sl : Slice) : Slice :=
    if lineOf sl.cur.pc.toNat = b.va && (keepLine sl.line sl.cur.pc).isNone then { sl with line := some b } else sl
  { w with slices := w.slices.map put }

/-- A fetch-cache line of a context. -/
def fcFind (s : State) (core ctx va : Nat) : Option FLine := (s.core core).fcache.find? fun l => l.ctx = ctx && l.va = va

/-- The lines that the contexts of a warp in the active set lack: taken from the fetch cache at once, or asked for. -/
def requestFetch (s : State) (wid : Nat) : State :=
  match s.warp? wid with
  | none => s
  | some w =>
    if w.apos.isNone then s
    else w.gangs.foldl (fun s g =>
      let ev : Instr := .fetchLineArrival wid (BitVec.ofNat 64 (lineOf g.pc.toNat))
      let va := lineOf g.pc.toNat
      if (w.gangLine g).isSome || s.pending.any (fun p => p.ev = ev) || s.agenda.contains ev || fetchWalks s w g then s
      else match fcFind s w.core (ctxOf s w) va with
        | some l => s.modWarp wid fun w => w.putLine ⟨va, l.img, none⟩
        | none => s.laterFree 0 ev) s

/-! ## The end of a bundle (R153, R125) -/

/-- The fall-through address of a bundle whose last syllable is `last` (R107). -/
def fallThrough (pc last : Nat) : Dword :=
  BitVec.ofNat 64 (if last = 4 then lineOf pc + 64 else lineOf pc + last + 1)

/-- A slice that falls through. -/
def Slice.fall (sl : Slice) (pc : Dword) (earliest : Nat) : Slice :=
  { sl with
    cur := { sl.cur with pc := pc, tchk := false, earliest := earliest, noPen := false } }

/-- The warp at the end of a bundle: slices that no control syllable moved fall through, the slices remember the bundle's tick and
GAP (R175) and the line it came from (R108), the failed translations kept for it are forgotten, and the registers whose last use it made are
undefined from the next tick on (R125). -/
def Warp.endBundle (w : Warp) (iss : Issue) : Warp :=
  let step (i : Nat) (sl : Slice) : Slice :=
    if iss.slices.contains i then
      let sl := if iss.ctl then sl else sl.fall (fallThrough iss.pc iss.last) (iss.tick + 1 + iss.gap)
      { sl with lastT := iss.tick, lastGap := iss.gap, line := some ⟨lineOf iss.pc, iss.img, none⟩ }
    else sl
  let w := { w with slices := (List.range w.slices.length).zipWith step w.slices, walkRes := [] }
  { w with kills := w.kills ++ iss.dead.map fun d => (iss.tick, d.1, d.2) }

/-- The hooks of a warp that may drop in this clock cycle, put at the end of its agenda (R163, R395). -/
def dropSoon (s : State) (wid : Nat) : State :=
  match s.warp? wid with
  | none => s
  | some w =>
    let ready (h : Nat) : Bool := let k := w.hook h; !k.items.isEmpty && (k.credit != 0 || (k.items.head?.bind HookItem.fin).isSome)
    let evs : List Instr := ((List.range 16).filter ready).map fun h => .hookDrop wid h
    { s with agenda := s.agenda ++ evs.filter fun e => !s.agenda.contains e }

/-- The syllable at the head of `issuing` has been executed: on to the next, or the end of the bundle. -/
def advanceIssue (i : Instr) (s : State) : State :=
  match s.issuing with
  | [] => s
  | iss :: rest =>
    let iss := { iss with dead := iss.dead ++ (deadRegs i).map fun r => (r, iss.lanes) }
    if iss.syl < iss.last then { s with issuing := { iss with syl := iss.syl + 1 } :: rest }
    else dropSoon (requestFetch (({ s with issuing := rest }).modWarp iss.wid fun w => w.endBundle iss) iss.wid) iss.wid

end Sys2Proof.Machine
end

