-- ==== Sys2Proof/Machine/VFloat.lean ====
section
/-! DEFINITION. The V-slot floating-point and packed 16-bit instructions (R204 to R218): for each its result in one lane, and its
meaning. -/

namespace Sys2Proof.Machine

/-! ## Operands and results -/

/-- The format of the f-forms, or of the d-forms. -/
def fmtD (d64 : Bool) : Fmt := if d64 then fmtF64 else fmtF32

/-- A source as a code with its stored tag. -/
def fsrc (d64 : Bool) (rd : Rd) (o : Opnd) (l : Nat) : Nat × Tag :=
  if d64 then ((val64 rd o l).toNat, tag64 rd o l) else let p := src32 rd o l; (p.1.toNat, p.2)

/-- A code as it is read: under FTZ a subnormal is a zero of its sign (R24). -/
def fread (d64 ftz : Bool) (code : Nat) : Fv := (fmtD d64).decode ((fmtD d64).flushIn ftz code)

/-- A rounded result of a lane with its tag. -/
def fout (d64 : Bool) (l : Nat) (r : Rounded) (t : Tag) (checked : Bool) : LaneRes :=
  { lane := l, vals := if d64 then rounded64 r t else rounded32 r t, flags := r.flags, checked := checked }

/-- Whether rounding changed the value: of a result rounded without FTZ, which raises NX for an exact subnormal too (R24, R30). -/
def Rounded.inexact (r : Rounded) : Bool := r.flags &&& fNX != 0

/-- Whether an exact value is inexact in a format (R30). -/
def inexactIn (fm : Fmt) (fr : Fr) (v : Fv) : Bool := (fm.ofFv fr.rnd fr.sat false v).inexact

/-- The operand kinds of the d-forms and f-forms. -/
def fdst (d64 : Bool) (d : Opnd) : Dst := dstOf d (if d64 then .w64 else .w32)

/-! ## Arithmetic (R210) -/

/-- a + b, or a − b, with its tag (R31). -/
def addVal (d64 : Bool) (fr : Fr) (sub : Bool) (a b : Nat × Tag) : Rounded × Tag :=
  let fm := fmtD d64
  let x := fread d64 fr.ftz a.1
  let y := (fread d64 fr.ftz b.1).negIf sub
  let v := x.add fr.rnd y
  let r := fm.ofFv fr.rnd fr.sat fr.ftz v
  (r, addTag d64 [(x, effTag d64 a.2), (y, effTag d64 b.2)] (fm.decode r.code) r.ovf (inexactIn fm fr v))

/-- a × b with its tag (R32). -/
def mulVal (d64 : Bool) (fr : Fr) (a b : Nat × Tag) : Rounded × Tag :=
  let fm := fmtD d64
  let v := (fread d64 fr.ftz a.1).mul (fread d64 fr.ftz b.1)
  let r := fm.ofFv fr.rnd fr.sat fr.ftz v
  (r, mulTag d64 (effTag d64 a.2) (effTag d64 b.2) (fm.decode r.code) r.ovf (inexactIn fm fr v))

/-- ±a × b ± c rounded once, with its tag (R33). -/
def fmaVal (d64 : Bool) (fr : Fr) (np nc : Bool) (a b c : Nat × Tag) : Rounded × Tag :=
  let fm := fmtD d64
  let x := (fread d64 fr.ftz a.1).negIf np
  let y := fread d64 fr.ftz b.1
  let z := (fread d64 fr.ftz c.1).negIf nc
  let v := x.fma fr.rnd y z
  let r := fm.ofFv fr.rnd fr.sat fr.ftz v
  let ep := mulEff d64 (effTag d64 a.2) (effTag d64 b.2)
  (r, addTag d64 [(x.mul y, ep), (z, effTag d64 c.2)] (fm.decode r.code) r.ovf (inexactIn fm fr v))

def addRes (d64 : Bool) (f : Fields) (fr : Fr) (sub : Bool) (rd : Rd) (l : Nat) : LaneRes :=
  let r := addVal d64 fr sub (fsrc d64 rd f.a l) (fsrc d64 rd f.b l)
  fout d64 l r.1 r.2 true
def mulRes (d64 : Bool) (f : Fields) (fr : Fr) (rd : Rd) (l : Nat) : LaneRes :=
  let r := mulVal d64 fr (fsrc d64 rd f.a l) (fsrc d64 rd f.b l)
  fout d64 l r.1 r.2 true
def fmaRes (d64 : Bool) (f : Fields) (fr : Fr) (np nc : Bool) (rd : Rd) (l : Nat) : LaneRes :=
  let r := fmaVal d64 fr np nc (fsrc d64 rd f.a l) (fsrc d64 rd f.b l) (fsrc d64 rd f.c l)
  fout d64 l r.1 r.2 true

/-! ## Minimum, maximum, compare, class (R211 to R213) -/

/-- The code and tag a minimum or maximum gives. -/
def minMaxVal (d64 isMax num ftz : Bool) (a b : Nat × Tag) : Rounded × Tag :=
  let fm := fmtD d64
  let ca := fm.flushIn ftz a.1
  let cb := fm.flushIn ftz b.1
  match minMaxPick isMax num (fm.decode ca) (fm.decode cb) with
  | (none, fl) => (⟨fm.nan, fl, false⟩, 0)
  | (some second, fl) =>
    let c := if second then cb else ca
    (⟨c, fl, false⟩, if (fm.decode c).isInf then 0 else if second then b.2 else a.2)

def minMaxRes (d64 isMax num ftz : Bool) (f : Fields) (rd : Rd) (l : Nat) : LaneRes :=
  let r := minMaxVal d64 isMax num ftz (fsrc d64 rd f.a l) (fsrc d64 rd f.b l)
  fout d64 l r.1 r.2 false

def cmpRes (d64 : Bool) (cc : FCc) (ftz : Bool) (f : Fields) (rd : Rd) (l : Nat) : LaneRes :=
  let r := fcmpVal cc (fread d64 ftz (fsrc d64 rd f.a l).1) (fread d64 ftz (fsrc d64 rd f.b l).1)
  resBit l r.1 r.2

def classRes (d64 ftz : Bool) (f : Fields) (rd : Rd) (l : Nat) : LaneRes :=
  let fm := fmtD d64
  res1 l (BitVec.ofNat 32 (fm.classOf (fm.flushIn ftz (fsrc d64 rd f.a l).1))) 63

/-! ## Rounding to integral, scaling, exponents (R214 to R216) -/

/-- An f32 rounded to an integral value: the result, and whether it differs from the input. -/
def rintVal (fr : Fr) (code : Nat) : Rounded × Bool :=
  match fread false fr.ftz code with
  | .fin neg m e =>
    let r := roundAt fr.rnd neg m e 0
    if r.2 then (fmtF32.ofFv fr.rnd fr.sat fr.ftz (.fin neg r.1 0), true)
    else (fmtF32.ofFv fr.rnd fr.sat fr.ftz (.fin neg m e), false)
  | v => (fmtF32.ofFv fr.rnd fr.sat fr.ftz v, false)

def rintRes (f : Fields) (fr : Fr) (ex : Bool) (rd : Rd) (l : Nat) : LaneRes :=
  let a := fsrc false rd f.a l
  let r := rintVal fr a.1
  let q := { r.1 with flags := r.1.flags ||| (if ex && r.2 then fNX else 0) }
  fout false l q (keepTag 24 (effTag false a.2) (fmtF32.decode q.code) q.ovf r.2) true

/-- a × 2^n exactly, for a as it is read (R215). -/
def scaleExact (ftz : Bool) (code : Nat) (n : Int) : Fv :=
  match fread false ftz code with
  | .fin neg m e => .fin neg m (e + n)
  | v => v

/-- a × 2^n rounded once (R215). -/
def scaleVal (fr : Fr) (code : Nat) (n : Int) : Rounded := fmtF32.ofFv fr.rnd fr.sat fr.ftz (scaleExact fr.ftz code n)

def scaleRes (f : Fields) (fr : Fr) (rd : Rd) (l : Nat) : LaneRes :=
  let a := fsrc false rd f.a l
  let n := (val32 rd f.b l).toInt
  let r := scaleVal fr a.1 n
  fout false l r (keepTag 24 (effTag false a.2) (fmtF32.decode r.code) r.ovf (inexactIn fmtF32 fr (scaleExact fr.ftz a.1 n))) true

/-- fexpn.e (R216). -/
def expnEVal (ftz : Bool) (code : Nat) : Word × Flags :=
  match fread false ftz code with
  | .nan s => (0x80000000, if s then fNV else 0)
  | .inf _ => (0x7FFFFFFF, 0)
  | .fin _ m e => (if m = 0 then 0x80000001 else BitVec.ofInt 32 (binade m e), 0)

def expnERes (f : Fields) (ftz : Bool) (rd : Rd) (l : Nat) : LaneRes :=
  let r := expnEVal ftz (fsrc false rd f.a l).1
  { lane := l, vals := [(r.1, 63)], flags := r.2 }

/-- fexpn.m (R216). -/
def expnMVal (ftz : Bool) (code : Nat) : Rounded :=
  match fread false ftz code with
  | .fin neg m e => fmtF32.ofFv .rn false false (.fin neg m (if m = 0 then e else -(Nat.log2 m : Int)))
  | v => fmtF32.ofFv .rn false false v

def expnMRes (f : Fields) (ftz : Bool) (rd : Rd) (l : Nat) : LaneRes :=
  let a := fsrc false rd f.a l
  let r := expnMVal ftz a.1
  fout false l r (keepTag 24 (effTag false a.2) (fmtF32.decode r.code) false false) true

/-! ## Packed 16-bit forms (R217, R218) -/

def fmtH (bf : Bool) : Fmt := if bf then fmtBf16 else fmtF16

/-- Element i of a word. -/
def halfOf (w : Word) (i : Nat) : Nat := w.toNat / 2 ^ (16 * i) % 65536

/-- An operation on each of the two elements: tag 63, the flags of both (R25, R218). -/
def half2 (op : Nat → Nat → Nat → Rounded) (f : Fields) (rd : Rd) (l : Nat) : LaneRes :=
  let a := val32 rd f.a l
  let b := val32 rd f.b l
  let c := val32 rd f.c l
  let r0 := op (halfOf a 0) (halfOf b 0) (halfOf c 0)
  let r1 := op (halfOf a 1) (halfOf b 1) (halfOf c 1)
  { lane := l, vals := [(BitVec.ofNat 32 (r0.code + 65536 * r1.code), 63)], flags := r0.flags ||| r1.flags }

def haddVal (bf : Bool) (rnd : Rnd) (sat : Bool) (a b : Nat) : Rounded :=
  (fmtH bf).ofFv rnd sat false (((fmtH bf).decode a).add rnd ((fmtH bf).decode b))
def hmulVal (bf : Bool) (rnd : Rnd) (sat : Bool) (a b : Nat) : Rounded :=
  (fmtH bf).ofFv rnd sat false (((fmtH bf).decode a).mul ((fmtH bf).decode b))
def hfmaVal (bf : Bool) (rnd : Rnd) (sat np nc : Bool) (a b c : Nat) : Rounded :=
  (fmtH bf).ofFv rnd sat false
    ((((fmtH bf).decode a).negIf np).fma rnd ((fmtH bf).decode b) (((fmtH bf).decode c).negIf nc))
def hminmaxVal (bf isMax num : Bool) (a b : Nat) : Rounded :=
  match minMaxPick isMax num ((fmtH bf).decode a) ((fmtH bf).decode b) with
  | (none, fl) => ⟨(fmtH bf).nan, fl, false⟩
  | (some second, fl) => ⟨if second then b else a, fl, false⟩

/-- hcmp2: bit j from element 0 and bit j + 1 from element 1 (R212). -/
def hcmpRes (f : Fields) (cc : FCc) (bf : Bool) (rd : Rd) (l : Nat) : LaneRes :=
  let a := val32 rd f.a l
  let b := val32 rd f.b l
  let r (i : Nat) := fcmpVal cc ((fmtH bf).decode (halfOf a i)) ((fmtH bf).decode (halfOf b i))
  { lane := l, vals := [(BitVec.ofNat 32 ((r 0).1.toNat + 2 * (r 1).1.toNat), 63)], flags := (r 0).2 ||| (r 1).2 }

/-! ## Meanings -/

def execFadd (f : Fields) (fr : Fr) (s : State) : Result :=
  vIssue (.fadd f fr) f (fdst false f.d) (addRes false f fr false) s
def execFsub (f : Fields) (fr : Fr) (s : State) : Result :=
  vIssue (.fsub f fr) f (fdst false f.d) (addRes false f fr true) s
def execFmul (f : Fields) (fr : Fr) (s : State) : Result := vIssue (.fmul f fr) f (fdst false f.d) (mulRes false f fr) s
def execFfma (f : Fields) (fr : Fr) (np nc : Bool) (s : State) : Result :=
  vIssue (.ffma f fr np nc) f (fdst false f.d) (fmaRes false f fr np nc) s
def execFmin (f : Fields) (num ftz : Bool) (s : State) : Result :=
  vIssue (.fmin f num ftz) f (fdst false f.d) (minMaxRes false false num ftz f) s
def execFmax (f : Fields) (num ftz : Bool) (s : State) : Result :=
  vIssue (.fmax f num ftz) f (fdst false f.d) (minMaxRes false true num ftz f) s
def execFcmp (f : Fields) (cc : FCc) (cmb : Cmb) (ftz : Bool) (j : Nat) (s : State) : Result :=
  vIssue (.fcmp f cc cmb ftz j) f (bitDst f.d j 1 cmb) (cmpRes false cc ftz f) s
def execFclass (f : Fields) (d64 ftz : Bool) (s : State) : Result :=
  vIssue (.fclass f d64 ftz) f (dstOf f.d .w32) (classRes d64 ftz f) s
def execFrint (f : Fields) (fr : Fr) (ex : Bool) (s : State) : Result :=
  vIssue (.frint f fr ex) f (dstOf f.d .w32) (rintRes f fr ex) s
def execFscale (f : Fields) (fr : Fr) (s : State) : Result :=
  vIssue (.fscale f fr) f (dstOf f.d .w32) (scaleRes f fr) s
def execFexpnE (f : Fields) (ftz : Bool) (s : State) : Result :=
  vIssue (.fexpnE f ftz) f (dstOf f.d .w32) (expnERes f ftz) s
def execFexpnM (f : Fields) (ftz : Bool) (s : State) : Result :=
  vIssue (.fexpnM f ftz) f (dstOf f.d .w32) (expnMRes f ftz) s
def execDadd (f : Fields) (fr : Fr) (s : State) : Result :=
  vIssue (.dadd f fr) f (fdst true f.d) (addRes true f fr false) s
def execDmul (f : Fields) (fr : Fr) (s : State) : Result := vIssue (.dmul f fr) f (fdst true f.d) (mulRes true f fr) s
def execDfma (f : Fields) (fr : Fr) (np nc : Bool) (s : State) : Result :=
  vIssue (.dfma f fr np nc) f (fdst true f.d) (fmaRes true f fr np nc) s
def execDcmp (f : Fields) (cc : FCc) (cmb : Cmb) (ftz : Bool) (j : Nat) (s : State) : Result :=
  vIssue (.dcmp f cc cmb ftz j) f (bitDst f.d j 1 cmb) (cmpRes true cc ftz f) s
def execDmin (f : Fields) (num ftz : Bool) (s : State) : Result :=
  vIssue (.dmin f num ftz) f (fdst true f.d) (minMaxRes true false num ftz f) s
def execDmax (f : Fields) (num ftz : Bool) (s : State) : Result :=
  vIssue (.dmax f num ftz) f (fdst true f.d) (minMaxRes true true num ftz f) s
def execHadd2 (f : Fields) (rnd : Rnd) (sat bf : Bool) (s : State) : Result :=
  vIssue (.hadd2 f rnd sat bf) f (dstOf f.d .w32) (half2 (fun a b _ => haddVal bf rnd sat a b) f) s
def execHmul2 (f : Fields) (rnd : Rnd) (sat bf : Bool) (s : State) : Result :=
  vIssue (.hmul2 f rnd sat bf) f (dstOf f.d .w32) (half2 (fun a b _ => hmulVal bf rnd sat a b) f) s
def execHfma2 (f : Fields) (rnd : Rnd) (sat bf np nc : Bool) (s : State) : Result :=
  vIssue (.hfma2 f rnd sat bf np nc) f (dstOf f.d .w32) (half2 (hfmaVal bf rnd sat np nc) f) s
def execHcmp2 (f : Fields) (cc : FCc) (cmb : Cmb) (bf : Bool) (j : Nat) (s : State) : Result :=
  vIssue (.hcmp2 f cc cmb bf j) f (bitDst f.d j 2 cmb) (hcmpRes f cc bf) s
def execHmin2 (f : Fields) (bf num : Bool) (s : State) : Result :=
  vIssue (.hmin2 f bf num) f (dstOf f.d .w32) (half2 (fun a b _ => hminmaxVal bf false num a b) f) s
def execHmax2 (f : Fields) (bf num : Bool) (s : State) : Result :=
  vIssue (.hmax2 f bf num) f (dstOf f.d .w32) (half2 (fun a b _ => hminmaxVal bf true num a b) f) s

end Sys2Proof.Machine
end

