-- ==== Sys2Proof/Machine/CrossLane.lean ====
section
/-! DEFINITION. The cross-lane instructions and the fixed reduction tree (R228 to R240). -/

namespace Sys2Proof.Machine

/-! ## Moving values (R231 to R233) -/

/-- Operand A at a lane: one word, or the two of a pair, with their stored tags. -/
def laneVal (rd : Rd) (o : Opnd) (w64 : Bool) (l : Nat) : List (Word × Tag) :=
  if w64 then src64 rd o l else [src32 rd o l]

/-- The zero a lane receives from outside (R231). -/
def laneZero (w64 : Bool) : List (Word × Tag) := if w64 then [(0, 62), (0, 63)] else [(0, 62)]

/-- The operands of a destination as whole registers. -/
def Dst.wholly : Dst → Dst
  | .regs n span => .regs n span
  | .bits n _ _ _ => .regs n 1

/-- The warp as another warp of its team reads it (R232): as it stood at the end of the previous clock cycle, without the results and
work it has issued since `id`; a register with work in flight then, also work that lands in this clock cycle, is undefined. -/
def Warp.before (w : Warp) (id : Nat) : Warp :=
  let ds := (w.atIssue id []).openDsts ++ w.recent
  { w with flight := [], attic := none, hooks := openHook (ds.map fun d => (d.1.wholly, d.2)) }

/-- The chain read of R232 at a position of the team's sequence of lanes. Where A is a system value, the lane gives its own warpid,
laneid and tick, but the LANEMASK of the issuing context, which the spec leaves open (DESIGN CHOICE, log 75). -/
def chainVal (rd : Rd) (o : Opnd) (w64 : Bool) (g : Int) : List (Word × Tag) :=
  let width := rd.w.width
  let n : Int := (launchD rd.s rd.w).warps * width
  if g < 0 || n ≤ g then laneZero w64
  else
    let w := g.toNat / width
    match rd.s.warps.find? fun e => e.2.team == rd.w.team && e.2.w == w && !e.2.ended with
    | some (_, v) =>
      laneVal ⟨rd.s, v, v.before rd.s.cycleId, { rd.iss with wid := v.wid, tick := v.tick }, []⟩ o w64 (g.toNat % width)
    | none => laneZero w64

def nbrRes (f : Fields) (fill : NbrFill) (dn w64 : Bool) (k : Nat) (rd : Rd) (l : Nat) : LaneRes :=
  let width := rd.w.width
  let x : Int := if dn then (l : Int) + k else (l : Int) - k
  { lane := l
    vals := if 0 ≤ x && x < width then laneVal rd f.a w64 x.toNat
      else match fill with
        | .wrap => laneVal rd f.a w64 (x % width).toNat
        | .zero => laneZero w64
        | .chain => chainVal rd f.a w64 ((rd.w.w * width : Nat) + x) }

/-- nbr.chain in a paired launch raises 02 at MOD (R134, R232). -/
def nbrChk (fill : NbrFill) (rd : Rd) : Pre :=
  if fill = .chain && (launchD rd.s rd.w).paired then .trap 2 rd.iss.lanes (fldVal rd.iss.syl 11) else .ok

def shflRes (f : Fields) (w64 : Bool) (src : Rd → Nat → Nat) (rd : Rd) (l : Nat) : LaneRes :=
  let x := src rd l
  { lane := l, vals := if x < rd.w.width then laneVal rd f.a w64 x else laneZero w64 }

/-! ## Voting and matching (R234, R235) -/

/-- Bit k of A in the participating lanes. -/
def votes (f : Fields) (k : Nat) (rd : Rd) : List (Nat × Bool) :=
  (lanesOf (enabled rd f)).map fun l => (l, wbit (val32 rd f.a l) k)

def ballotRes (f : Fields) (k : Nat) (rd : Rd) (l : Nat) : LaneRes :=
  res2 l (laneSet (((votes f k rd).filter Prod.snd).map Prod.fst))
def voteRes (f : Fields) (k : Nat) (test : List Bool → Bool) (rd : Rd) (l : Nat) : LaneRes :=
  resBit l (test ((votes f k rd).map Prod.snd))

def matchRes (f : Fields) (w64 : Bool) (rd : Rd) (l : Nat) : LaneRes :=
  let v (n : Nat) := wordsNat (laneVal rd f.a w64 n)
  res2 l (laneSet ((lanesOf (enabled rd f)).filter fun n => v n = v l))

/-! ## Reduction (R236 to R240) -/

/-- A node of the tree: its bits and its tag. -/
abbrev NodeV := Nat × Tag

/-- The width of a reduction type. -/
def redBits : RedTy → Nat
  | .f64 => 64
  | _ => 32

/-- An integer combine (R236). -/
def redInt (op : RedOp) (signed : Bool) (x y : Nat) : Nat :=
  let e (v : Nat) : Int := if signed then sextN 32 v else v
  match op with
  | .add => (x + y) % 2 ^ 32
  | .min => if e x ≤ e y then x else y
  | .max | .amax => if e y ≤ e x then x else y
  | .and => x &&& y
  | .or => x ||| y
  | .xor => x ^^^ y

/-- A float combine (R236, R240): the node and its flags. Which operand amax selects, and so whose tag is kept, when both magnitudes are
equal is not in the spec, whose tie rule (R211) is for min and max: here the first, that of the lower lanes (DESIGN CHOICE, log 77). -/
def redFloat (op : RedOp) (d64 : Bool) (x y : NodeV) : NodeV × Flags :=
  match op with
  | .add =>
    let r := addVal d64 ⟨.rn, false, false⟩ false x y
    ((r.1.code, r.2), r.1.flags)
  | .amax =>
    let fm := fmtD d64
    let mag (c : Nat) := c % 2 ^ (fm.width - 1)
    let r := minMaxVal d64 true false false (mag x.1, x.2) (mag y.1, y.2)
    ((r.1.code, r.2), r.1.flags)
  | op =>
    let r := minMaxVal d64 (op = .max) false false x y
    ((r.1.code, r.2), r.1.flags)

/-- A combine of two nodes that are present. -/
def redNode (op : RedOp) (ty : RedTy) (x y : NodeV) : NodeV × Flags :=
  match ty with
  | .s32 => ((redInt op true x.1 y.1, 63), 0)
  | .z32 => ((redInt op false x.1 y.1, 63), 0)
  | .f32 => redFloat op false x y
  | .f64 => redFloat op true x y

/-- A combine in which either node may be absent (R237). -/
def redOpt (op : RedOp) (ty : RedTy) : Option NodeV → Option NodeV → Option NodeV × Flags
  | some x, some y => let r := redNode op ty x y; (some r.1, r.2)
  | some x, none => (some x, 0)
  | none, some y => (some y, 0)
  | none, none => (none, 0)

/-- The next level of the tree, and its flags. -/
def redLevel (op : RedOp) (ty : RedTy) : List (Option NodeV) → List (Option NodeV) × Flags
  | x :: y :: r =>
    let n := redOpt op ty x y
    let m := redLevel op ty r
    (n.1 :: m.1, n.2 ||| m.2)
  | l => (l, 0)

/-- The levels of the tree from the leaves up, and the flags of all nodes. -/
def redTree (op : RedOp) (ty : RedTy) : Nat → List (Option NodeV) → List (List (Option NodeV)) × Flags
  | 0, l => ([l], 0)
  | n + 1, l =>
    let m := redLevel op ty l
    let t := redTree op ty n m.1
    (l :: t.1, m.2 ||| t.2)

/-- The number of levels above the leaves: log2 W. -/
def treeHeight (width : Nat) : Nat := Nat.log2 width

/-- A node of a value and its tag: 0 for a NaN or an infinity, whatever its tag was (R34, R240). -/
def leafNode (fm : Fmt) (v : Nat) (t : Tag) : NodeV := (v, if (fm.decode v).isNan || (fm.decode v).isInf then 0 else t)

/-- The leaves: A in the participating lanes; an integer carries the tag 63 (R240). -/
def redLeaves (f : Fields) (ty : RedTy) (rd : Rd) : List (Option NodeV) :=
  (List.range rd.w.width).map fun l =>
    if (enabled rd f).getLsbD l then
      match ty with
      | .f64 => some (leafNode fmtF64 (wordsNat (src64 rd f.a l)) (tag64 rd f.a l))
      | .f32 => let p := src32 rd f.a l; some (leafNode fmtF32 p.1.toNat p.2)
      | .s32 | .z32 => some ((val32 rd f.a l).toNat, 63)
    else none

/-- A node of the tree. -/
def treeAt (t : List (List (Option NodeV))) (k i : Nat) : Option NodeV := ((t.getD k []).getD i none)

/-- The blocks of the prefix of `n` lanes: level and index, from the left (R239). -/
def prefixBlocks : Nat → Nat → Nat → List (Nat × Nat)
  | 0, start, n => if n % 2 = 1 then [(0, start)] else []
  | k + 1, start, n =>
    if 2 ^ (k + 1) ≤ n then (k + 1, start / 2 ^ (k + 1)) :: prefixBlocks k (start + 2 ^ (k + 1)) (n - 2 ^ (k + 1))
    else prefixBlocks k start n

/-- The prefix of `n` lanes: its blocks combined left to right (R239). -/
def prefixVal (op : RedOp) (ty : RedTy) (t : List (List (Option NodeV))) (n : Nat) : Option NodeV × Flags :=
  (prefixBlocks 6 0 n).foldl (fun a b =>
    let r := redOpt op ty a.1 (treeAt t b.1 b.2)
    (r.1, a.2 ||| r.2)) (none, 0)

/-- The identity of `.excl` (R236). -/
def redIdentity (op : RedOp) (ty : RedTy) : NodeV :=
  match ty, op with
  | .s32, .min => (0x7FFFFFFF, 63) | .z32, .min => (0xFFFFFFFF, 63)
  | .s32, .max => (0x80000000, 63) | .z32, .max => (0, 63)
  | .s32, .and | .z32, .and => (0xFFFFFFFF, 63)
  | .s32, _ | .z32, _ => (0, 63)
  | .f32, .min => (0x7F800000, 0) | .f32, .max => (0xFF800000, 0)
  | .f64, .min => (0x7FF0000000000000, 0) | .f64, .max => (0xFFF0000000000000, 0)
  | .f32, _ | .f64, _ => (0, 62)

/-- A node as a lane's result; `chk` is the least tag of the lanes written, which the check of R38 looks at for all of them. -/
def nodeRes (ty : RedTy) (l : Nat) (v : NodeV) (fl : Flags) (chk : Option Tag) : LaneRes :=
  { lane := l
    vals := if redBits ty = 64 then [(BitVec.ofNat 32 v.1, v.2), (BitVec.ofNat 32 (v.1 / 2 ^ 32), 63)]
      else [(BitVec.ofNat 32 v.1, v.2)]
    flags := fl, checked := ty = .f32 || ty = .f64, chkTag := chk }

def redRes (f : Fields) (op : RedOp) (ty : RedTy) (rd : Rd) (l : Nat) : LaneRes :=
  let h := treeHeight rd.w.width
  let t := redTree op ty h (redLeaves f ty rd)
  nodeRes ty l ((treeAt t.1 h 0).getD (0, 63)) t.2 none

/-- The value of a scan in a lane. -/
def scanAt (op : RedOp) (ty : RedTy) (excl : Bool) (t : List (List (Option NodeV))) (l : Nat) : NodeV × Flags :=
  let r := prefixVal op ty t (if excl then l else l + 1)
  (r.1.getD (redIdentity op ty), r.2)

/-- The results of a scan in all lanes: the flags of all combines, and the least tag, belong to every lane written (R240). -/
def scanRes (f : Fields) (op : RedOp) (ty : RedTy) (excl : Bool) (rd : Rd) (l : Nat) : LaneRes :=
  let t := redTree op ty (treeHeight rd.w.width) (redLeaves f ty rd)
  let all := (lanesOf (enabled rd f)).map fun k => scanAt op ty excl t.1 k
  let fl := all.foldl (fun a r => a ||| r.2) t.2
  let least := all.foldl (fun (m : Tag) r => if r.1.2.toNat < m.toNat then r.1.2 else m) 63
  nodeRes ty l (scanAt op ty excl t.1 l).1 fl (some least)

/-! ## Meanings -/

def execNbr (f : Fields) (fill : NbrFill) (dn w64 : Bool) (k : Nat) (s : State) : Result :=
  withIssue (.nbr f fill dn w64 k) (nbrChk fill)
    (vEff (.nbr f fill dn w64 k) f (dstOf f.d (if w64 then .w64 else .w32n)) (nbrRes f fill dn w64 k)) s
def execShflIdx (f : Fields) (w64 : Bool) (s : State) : Result :=
  vIssue (.shflIdx f w64) f (dstOf f.d (if w64 then .w64 else .w32n))
    (shflRes f w64 fun rd l => (val32 rd f.b l).toNat % 64) s
def execShflXor (f : Fields) (w64 : Bool) (m : Nat) (s : State) : Result :=
  vIssue (.shflXor f w64 m) f (dstOf f.d (if w64 then .w64 else .w32n)) (shflRes f w64 fun _ l => l ^^^ m) s
def execVoteBallot (f : Fields) (k : Nat) (s : State) : Result :=
  vIssue (.voteBallot f k) f (dstOf f.d .w64) (ballotRes f k) s
def execVoteAny (f : Fields) (k j : Nat) (cmb : Cmb) (s : State) : Result :=
  vIssue (.voteAny f k j cmb) f (bitDst f.d j 1 cmb) (voteRes f k fun bs => bs.any id) s
def execVoteAll (f : Fields) (k j : Nat) (cmb : Cmb) (s : State) : Result :=
  vIssue (.voteAll f k j cmb) f (bitDst f.d j 1 cmb) (voteRes f k fun bs => bs.all id) s
def execVoteEq (f : Fields) (k j : Nat) (cmb : Cmb) (s : State) : Result :=
  vIssue (.voteEq f k j cmb) f (bitDst f.d j 1 cmb) (voteRes f k fun bs => bs.all id || bs.all not) s
def execRed (f : Fields) (op : RedOp) (ty : RedTy) (s : State) : Result :=
  vIssue (.red f op ty) f (dstOf f.d (if ty = .f64 then .w64 else .w32n)) (redRes f op ty) s
def execScan (f : Fields) (op : RedOp) (ty : RedTy) (excl : Bool) (s : State) : Result :=
  vIssue (.scan f op ty excl) f (dstOf f.d (if ty = .f64 then .w64 else .w32n)) (scanRes f op ty excl) s
def execMatchLanes (f : Fields) (w64 : Bool) (s : State) : Result :=
  vIssue (.matchLanes f w64) f (dstOf f.d .w64) (matchRes f w64) s

end Sys2Proof.Machine
end

