-- ==== Sys2Proof/Machine/Sfu.lean ====
section
/-! DEFINITION. The special functions of R219, correctly rounded: algebraic functions exactly with a sticky bit, transcendental ones
from fixed-point bounds so close that they round alike for every input (log 13). -/

namespace Sys2Proof.Machine

/-- The special functions. -/
inductive SfuFn where
  | rcp | rsq | sqrt | ex2 | lg2 | sin | cos | tanh
deriving DecidableEq, Repr

/-- One step of Newton's integer square root, repeated while it falls. -/
def isqrtFrom (n : Nat) : Nat → Nat → Nat
  | 0, x => x
  | fuel + 1, x =>
    let y := (x + n / x) / 2
    if y < x then isqrtFrom n fuel y else x

/-- The integer square root. -/
def isqrt (n : Nat) : Nat := if n = 0 then 0 else isqrtFrom n 600 (2 ^ (Nat.log2 n / 2 + 1))

/-- Fraction bits of the fixed-point bounds. -/
def fixP : Nat := 448

/-- Terms summed in a series. -/
def fixN : Nat := 160

/-- The error of a series' sum, in units of its last place. -/
def fixE : Int := 2048

/-- The sum of z^(2k+1) / (2k+1) from term k on, with the sign of a alternating series when `alt`: `t` is z^(2k+1), `zz` z². -/
def oddSeries (alt : Bool) (zz : Int) : Nat → Int → Int → Bool → Int
  | 0, _, _, _ => 0
  | n + 1, t, k, neg =>
    (if neg then -(t / k) else t / k) + oddSeries alt zz n (t * zz / 2 ^ fixP) (k + 2) (alt && !neg)

/-- atanh z for z in [0, 1/2], and atan z: fixed point in, within `fixE` out. -/
def atanhFix (z : Int) : Int := oddSeries false (z * z / 2 ^ fixP) fixN z 1 false
def atanFix (z : Int) : Int := oddSeries true (z * z / 2 ^ fixP) fixN z 1 false

/-- ln 2 = 2 atanh (1/3). -/
def ln2Fix : Int := 2 * atanhFix (2 ^ fixP / 3)

/-- π = 16 atan (1/5) − 4 atan (1/239). -/
def piFix : Int := 16 * atanFix (2 ^ fixP / 5) - 4 * atanFix (2 ^ fixP / 239)

/-- The sum of x^k / k! from term k on, every `stride`-th term of sign `neg`, alternating when `alt`. -/
def expSeries (x : Int) (alt : Bool) : Nat → Int → Int → Bool → Int
  | 0, _, _, _ => 0
  | n + 1, t, k, neg =>
    (if neg then -t else t) +
      (if alt then expSeries x alt n (t * x / 2 ^ fixP * x / 2 ^ fixP / ((k + 1) * (k + 2))) (k + 2) (!neg)
       else expSeries x alt n (t * x / 2 ^ fixP / (k + 1)) (k + 1) neg)

/-- e^x for x in [0, 1). -/
def expFix (x : Int) : Int := expSeries x false fixN (2 ^ fixP) 0 false
/-- sin x and cos x for x in [−1, 1]. -/
def sinFix (x : Int) : Int := expSeries x true fixN x 1 false
def cosFix (x : Int) : Int := expSeries x true fixN (2 ^ fixP) 0 false

/-- A finite value as fixed point, bits below the last place dropped. -/
def toFix (neg : Bool) (m : Nat) (e : Int) : Int :=
  let s := e + fixP
  let v : Int := if 0 ≤ s then (m * 2 ^ s.toNat : Nat) else (m / 2 ^ (-s).toNat : Nat)
  if neg then -v else v

/-- A function value whose magnitude lies strictly between those of v − err and v + err, times 2^sc in fixed point, rounded. For no input
does a value midway between two results lie between the bounds (DEDUCED, log 13), so that the lower one rounds as the value does, with
something below it. -/
def roundBounds (ftz : Bool) (v err sc : Int) : Rounded :=
  fmtF32.round .rn false ftz (v < 0) (v.natAbs - err.toNat) (sc - fixP) true

/-- 2^a for a finite a not 0 (R219). -/
def ex2Val (ftz : Bool) (neg : Bool) (m : Nat) (e : Int) : Rounded :=
  if !neg && 7 ≤ binade m e then ⟨fmtF32.infCode, fOF ||| fNX, true⟩
  else if neg && 8 ≤ binade m e then fmtF32.round .rn false ftz false 1 (-200) true
  else if binade m e < -40 then
    -- between 1 − 2^−40 and 1 + 2^−40, on the side of a's sign
    if neg then fmtF32.round .rn false ftz false (2 ^ 60 - 1) (-60) true else fmtF32.round .rn false ftz false (2 ^ 60) (-60) true
  else
    let a := toFix neg m e
    let n := a / 2 ^ fixP
    let f := a - n * 2 ^ fixP
    if f = 0 then fmtF32.round .rn false ftz false 1 n
    else roundBounds ftz (expFix (f * ln2Fix / 2 ^ fixP)) (4 * fixE) n

/-- log2 of a positive value (R219). -/
def lg2Val (ftz : Bool) (m : Nat) (e : Int) : Rounded :=
  let b := binade m e
  if m = 2 ^ Nat.log2 m then
    if b = 0 then ⟨0, 0, false⟩ else fmtF32.round .rn false ftz (b < 0) b.natAbs 0
  else
    let y := toFix false m (-(Nat.log2 m : Int))   -- in (1, 2)
    let z := (y - 2 ^ fixP) * 2 ^ fixP / (y + 2 ^ fixP)
    let l := 2 * atanhFix z * 2 ^ fixP / ln2Fix
    roundBounds ftz (b * 2 ^ fixP + l) (16 * fixE) 0

/-- sin or cos of a finite value whose argument is reduced exactly (R219). -/
def sinCosVal (ftz isCos : Bool) (neg : Bool) (m : Nat) (e : Int) : Rounded :=
  let a := toFix false m e
  let half := piFix / 2
  let k := (a + half / 2) / half
  let r := a - k * half
  let err := fixE * 64 + k.natAbs * fixE * 16
  let q := (k + (if isCos then 1 else 0)) % 4
  let v := if q = 0 then sinFix r else if q = 1 then cosFix r else if q = 2 then -sinFix r else -cosFix r
  roundBounds ftz (if neg && !isCos then -v else v) err 0

/-- tanh of a finite value of at least 2^−12 (R219). -/
def tanhVal (ftz : Bool) (neg : Bool) (m : Nat) (e : Int) : Rounded :=
  if 5 ≤ binade m e then
    let r := fmtF32.round .rn false ftz neg (2 ^ 60 - 1) (-60) true
    r
  else
    let y := -(2 * toFix false m e)
    let n := y * 2 ^ fixP / ln2Fix / 2 ^ fixP
    let r := y - n * ln2Fix
    let t := expFix r / 2 ^ n.natAbs
    let v := (2 ^ fixP - t) * 2 ^ fixP / (2 ^ fixP + t)
    roundBounds ftz (if neg then -v else v) (64 * fixE) 0

/-- A result returned unchanged for a small argument that is not the exact value: inexact, and tiny when subnormal (R219, R20). -/
def selfVal (neg : Bool) (m : Nat) (e : Int) : Rounded :=
  let r := fmtF32.round .rn false false neg m e
  ⟨r.code, if binade m e < fmtF32.emin then fNX ||| fUF else fNX, false⟩

/-- A reciprocal in a format, correctly rounded (R219). -/
def rcpVal (f : Fmt) (ftz : Bool) (neg : Bool) (m : Nat) (e : Int) : Rounded :=
  let k := Nat.log2 m + 2 * f.p + 8
  f.round .rn false ftz neg (2 ^ k / m) (-(k : Int) - e) (2 ^ k % m ≠ 0)

/-- A square root of m × 2^e, correctly rounded. -/
def sqrtVal (ftz : Bool) (m : Nat) (e : Int) : Rounded :=
  let odd : Bool := e % 2 ≠ 0
  let m := if odd then 2 * m else m
  let e := if odd then e - 1 else e
  let n := m * 2 ^ 80
  let q := isqrt n
  fmtF32.round .rn false ftz false q ((e - 80) / 2) (q * q ≠ n)

/-- A reciprocal square root, correctly rounded. -/
def rsqVal (ftz : Bool) (m : Nat) (e : Int) : Rounded :=
  let odd : Bool := e % 2 ≠ 0
  let m := if odd then 2 * m else m
  let e := if odd then e - 1 else e
  let q := isqrt (2 ^ 160 / m)
  fmtF32.round .rn false ftz false q (-80 - e / 2) (q * q * m ≠ 2 ^ 160)

/-- A special function of an f32 code (R219); the input is flushed first under FTZ. -/
def sfu32 (fn : SfuFn) (ftz : Bool) (code0 : Nat) : Rounded :=
  let code := fmtF32.flushIn ftz code0
  let nan (fl : Flags) : Rounded := ⟨fmtF32.nan, fl, false⟩
  let inf (neg : Bool) (fl : Flags) : Rounded := ⟨fmtF32.signBit neg + fmtF32.infCode, fl, true⟩
  let zero (neg : Bool) : Rounded := ⟨fmtF32.signBit neg, 0, false⟩
  let one (neg : Bool) : Rounded := ⟨fmtF32.signBit neg + 0x3F800000, 0, false⟩
  match fmtF32.decode code with
  | .nan s => nan (if s then fNV else 0)
  | .inf neg =>
    match fn with
    | .rcp => zero neg
    | .rsq => if neg then nan fNV else zero false
    | .sqrt => if neg then nan fNV else inf false 0
    | .ex2 => if neg then zero false else inf false 0
    | .lg2 => if neg then nan fNV else inf false 0
    | .sin | .cos => nan fNV
    | .tanh => one neg
  | .fin neg m e =>
    if m = 0 then
      match fn with
      | .rcp => inf neg fDZ
      | .rsq => inf neg 0
      | .sqrt => zero neg
      | .ex2 => one false
      | .lg2 => inf true fDZ
      | .sin | .tanh => zero neg
      | .cos => one false
    else
      match fn with
      | .rcp => rcpVal fmtF32 ftz neg m e
      | .rsq => if neg then nan fNV else rsqVal ftz m e
      | .sqrt => if neg then nan fNV else sqrtVal ftz m e
      | .ex2 => ex2Val ftz neg m e
      | .lg2 => if neg then nan fNV else lg2Val ftz m e
      | .sin => if binade m e < -12 then selfVal neg m e else sinCosVal ftz false neg m e
      | .cos => sinCosVal ftz true neg m e
      | .tanh => if binade m e < -12 then selfVal neg m e else tanhVal ftz neg m e

/-- drcp of an f64 code (R219). -/
def drcpVal (ftz : Bool) (code0 : Nat) : Rounded :=
  let code := fmtF64.flushIn ftz code0
  match fmtF64.decode code with
  | .nan s => ⟨fmtF64.nan, if s then fNV else 0, false⟩
  | .inf neg => ⟨fmtF64.signBit neg, 0, false⟩
  | .fin neg m e =>
    if m = 0 then ⟨fmtF64.signBit neg + fmtF64.infCode, fDZ, true⟩ else rcpVal fmtF64 ftz neg m e

end Sys2Proof.Machine
end

