-- ==== Sys2Proof/Machine/VConvert.lean ====
section
/-! DEFINITION. The special functions, conversions, packing and significance instructions of the V slot (R219 to R227). -/

namespace Sys2Proof.Machine

/-! ## Special functions (R219) -/

def sfuRes (fn : SfuFn) (ftz : Bool) (f : Fields) (rd : Rd) (l : Nat) : LaneRes :=
  let a := fsrc false rd f.a l
  let r := sfu32 fn ftz a.1
  fout false l r (sfuTag false (effTag false a.2) (fmtF32.decode r.code) r.ovf) true

def drcpRes (ftz : Bool) (f : Fields) (rd : Rd) (l : Nat) : LaneRes :=
  let a := fsrc true rd f.a l
  let r := drcpVal ftz a.1
  fout true l r (sfuTag true (effTag true a.2) (fmtF64.decode r.code) r.ovf) true

/-! ## Conversion (R220, R221) -/

/-- Whether an integer type is signed. -/
def etSigned : EType → Bool
  | .s8 | .s16 | .s32 | .s4 => true
  | _ => false

/-- Whether a type is f32 or f64, on which FTZ acts. -/
def etWideFloat : EType → Bool
  | .f32 | .f64 => true
  | _ => false

/-- The element of a type at an index of a source. -/
def cvtElem (st : EType) (i code : Nat) : Nat := code / 2 ^ (st.bits * i) % 2 ^ st.bits

/-- The range of an integer type. -/
def etMin (t : EType) : Int := if etSigned t then -(2 ^ (t.bits - 1)) else 0
def etMax (t : EType) : Int := if etSigned t then 2 ^ (t.bits - 1) - 1 else 2 ^ t.bits - 1

/-- An integer as a destination register shows it: extended to 32 bits by its sign. -/
def intCode (dt : EType) (x : Int) : Nat := (BitVec.ofInt 32 (if etSigned dt then sextN dt.bits (wrapN dt.bits x) else wrapN dt.bits x)).toNat

/-- A float rounded to an integer type (R221). -/
def floatToInt (dt : EType) (rnd : Rnd) (v : Fv) : Rounded :=
  match v with
  | .nan _ => ⟨0, fNV, false⟩
  | .inf n => ⟨intCode dt (if n then etMin dt else etMax dt), fNV, false⟩
  | .fin neg m e =>
    let lim := binade m e
    if m ≠ 0 && 40 < lim then ⟨intCode dt (if neg then etMin dt else etMax dt), fNV, false⟩
    else
      let r := roundAt rnd neg m e 0
      let x : Int := if neg then -(r.1 : Int) else r.1
      if x < etMin dt then ⟨intCode dt (etMin dt), fNV, false⟩
      else if etMax dt < x then ⟨intCode dt (etMax dt), fNV, false⟩
      else ⟨intCode dt x, if r.2 then fNX else 0, false⟩

/-- A conversion of one element (R221). -/
def cvtVal (fr : Fr) (dt st : EType) (code : Nat) : Rounded :=
  if st = .sc8 then
    if code = 0xFF then ⟨((fmtOf dt).getD fmtF32).nan, 0, false⟩
    else ((fmtOf dt).getD fmtF32).ofFv .rn false fr.ftz (.fin false 1 ((code : Int) - 127))
  else match fmtOf st, fmtOf dt with
    | some sf, some df =>
      let v := sf.decode (if etWideFloat st then sf.flushIn fr.ftz code else code)
      let r := df.ofFv fr.rnd fr.sat (fr.ftz && etWideFloat dt) v
      if dt = .e2m1 && v.isNan then ⟨0, fNV, false⟩ else r
    | some sf, none => floatToInt dt fr.rnd (sf.decode (if etWideFloat st then sf.flushIn fr.ftz code else code))
    | none, some df =>
      let x : Int := if etSigned st then sextN st.bits code else code
      df.ofFv fr.rnd fr.sat (fr.ftz && etWideFloat dt) (.fin (x < 0) x.natAbs 0)
    | none, none =>
      let x : Int := if etSigned st then sextN st.bits code else code
      ⟨intCode dt (if fr.sat then clampI (etMin dt) (etMax dt) x else x), 0, false⟩

/-- Whether a conversion's rounding changes the value (R30). -/
def cvtInexact (fr : Fr) (dt st : EType) (code : Nat) : Bool :=
  match fmtOf st, fmtOf dt with
  | some sf, some df => inexactIn df fr (sf.decode (if etWideFloat st then sf.flushIn fr.ftz code else code))
  | _, _ => (cvtVal fr dt st code).inexact

/-- The tag of a conversion (R34). -/
def cvtTag (dt st : EType) (t : Tag) (r : Rounded) (inexact : Bool) : Tag :=
  if !etWideFloat dt then 63
  else
    let full := if dt = .f64 then 53 else 24
    let res := ((fmtOf dt).getD fmtF32).decode r.code
    if etWideFloat st then keepTag full (effTag (st = .f64) t) res r.ovf inexact
    else if res.isNan || res.isInf || r.ovf then 0
    else if st = .sc8 then 62
    else match fmtOf st with
      | some sf => tagOf sf.p
      | none => if inexact then tagOf full else 62

def cvtRes (f : Fields) (fr : Fr) (dt st : EType) (i : Nat) (rd : Rd) (l : Nat) : LaneRes :=
  let a := fsrc (st = .f64) rd f.a l
  let code := cvtElem st i a.1
  let r := cvtVal fr dt st code
  fout (dt = .f64) l r (cvtTag dt st a.2 r (cvtInexact fr dt st code)) (etWideFloat dt)

/-! ## Block scaling (R222) -/

/-- emax of a type (R222). -/
def scEmax (dt : EType) : Int := if dt = .e2m1 then 2 else if dt = .e4m3 then 8 else 15

/-- The scale of a block from its largest magnitude. -/
def cvtscScaleVal (dt : EType) (a : Nat) : Nat × Flags :=
  match fmtF32.decode a with
  | .nan s => (0xFF, if s then fNV else 0)
  | .inf _ => (0xFE, 0)
  | .fin _ m e => (if m = 0 then 0 else (clampI 0 254 (binade m e - scEmax dt + 127)).toNat, 0)

/-- An element quantised under a scale. -/
def cvtscVal (dt : EType) (a e8 : Nat) : Nat × Flags :=
  let df := (fmtOf dt).getD fmtE4m3
  let v := fmtF32.decode a
  let fl := if v.isSig then fNV else 0
  if e8 = 0xFF || v.isNan then (df.nan, fl)
  else match v with
    | .fin neg m e => ((df.ofFv .rn true false (.fin neg m (e - ((e8 : Int) - 127)))).code, fl)
    | v => (df.signBit v.neg + df.maxCode, fl)

def cvtscScaleRes (f : Fields) (dt : EType) (rd : Rd) (l : Nat) : LaneRes :=
  let r := cvtscScaleVal dt (val32 rd f.a l).toNat
  { lane := l, vals := [(BitVec.ofNat 32 r.1, 63)], flags := r.2 }
def cvtscRes (f : Fields) (dt : EType) (rd : Rd) (l : Nat) : LaneRes :=
  let r := cvtscVal dt (val32 rd f.a l).toNat ((val32 rd f.b l).toNat % 256)
  { lane := l, vals := [(BitVec.ofNat 32 r.1, 63)], flags := r.2 }

/-! ## Packing (R223, R224) -/

def pack2Val (a b : Word) : Word := BitVec.ofNat 32 (b.toNat % 65536 * 65536 + a.toNat % 65536)
def pack4Val (nib : Bool) (a b c : Word) : Word :=
  if nib then (c <<< 8) ||| BitVec.ofNat 32 (b.toNat % 16 * 16 + a.toNat % 16)
  else (c <<< 16) ||| BitVec.ofNat 32 (b.toNat % 256 * 256 + a.toNat % 256)

/-- The bits of an unpack width. -/
def unpBits : UnpW → Nat
  | .w16 => 16
  | .w8 => 8
  | .w4 => 4

/-- Element e of a word, extended (R224). -/
def unpackElem (sx : Bool) (wid : UnpW) (a : Word) (e : Nat) : Word :=
  let n := unpBits wid
  let x := a.toNat / 2 ^ (n * e) % 2 ^ n
  BitVec.ofInt 32 (if sx then sextN n x else x)
def unpackRes (f : Fields) (sx : Bool) (wid : UnpW) (k : Nat) (rd : Rd) (l : Nat) : LaneRes :=
  let a := val32 rd f.a l
  { lane := l, vals := [(unpackElem sx wid a (2 * k), 63), (unpackElem sx wid a (2 * k + 1), 63)] }

/-! ## Significance (R225 to R227) -/

def sigrdRes (f : Fields) (rd : Rd) (l : Nat) : LaneRes := res1 l ((src32 rd f.a l).2.setWidth 32) 63
def sigwrRes (f : Fields) (low : Bool) (rd : Rd) (l : Nat) : LaneRes :=
  let a := src32 rd f.a l
  let b : Tag := BitVec.ofNat 6 (val32 rd f.b l).toNat
  let t := if low then (if a.2.toNat < b.toNat then a.2 else b) else b
  res1 l a.1 (storeTag t)

/-- The smallest stored tag of an operand over some lanes, 62 and 63 counting as 64 (R179, R227). -/
def minTag (rd : Rd) (o : Opnd) (lanes : List Nat) : Nat :=
  lanes.foldl (fun m l => let t := (src32 rd o l).2.toNat; min m (if 62 ≤ t then 64 else t)) 64

def sigminRes (f : Fields) (rd : Rd) (l : Nat) : LaneRes :=
  res1 l (BitVec.ofNat 32 (minTag rd f.a (lanesOf (enabled rd f)))) 63

/-! ## Meanings -/

def execRcp (f : Fields) (ftz : Bool) (s : State) : Result := vIssue (.rcp f ftz) f (fdst false f.d) (sfuRes .rcp ftz f) s
def execRsq (f : Fields) (ftz : Bool) (s : State) : Result := vIssue (.rsq f ftz) f (fdst false f.d) (sfuRes .rsq ftz f) s
def execSqrt (f : Fields) (ftz : Bool) (s : State) : Result :=
  vIssue (.sqrt f ftz) f (fdst false f.d) (sfuRes .sqrt ftz f) s
def execEx2 (f : Fields) (ftz : Bool) (s : State) : Result := vIssue (.ex2 f ftz) f (fdst false f.d) (sfuRes .ex2 ftz f) s
def execLg2 (f : Fields) (ftz : Bool) (s : State) : Result := vIssue (.lg2 f ftz) f (fdst false f.d) (sfuRes .lg2 ftz f) s
def execSin (f : Fields) (ftz : Bool) (s : State) : Result := vIssue (.sin f ftz) f (fdst false f.d) (sfuRes .sin ftz f) s
def execCos (f : Fields) (ftz : Bool) (s : State) : Result := vIssue (.cos f ftz) f (fdst false f.d) (sfuRes .cos ftz f) s
def execTanh (f : Fields) (ftz : Bool) (s : State) : Result :=
  vIssue (.tanh f ftz) f (fdst false f.d) (sfuRes .tanh ftz f) s
def execDrcp (f : Fields) (ftz : Bool) (s : State) : Result := vIssue (.drcp f ftz) f (fdst true f.d) (drcpRes ftz f) s
def execCvt (f : Fields) (fr : Fr) (dt st : EType) (i : Nat) (s : State) : Result :=
  vIssue (.cvt f fr dt st i) f (fdst (dt = .f64) f.d) (cvtRes f fr dt st i) s
def execCvtscScale (f : Fields) (dt : EType) (s : State) : Result :=
  vIssue (.cvtscScale f dt) f (dstOf f.d .w32) (cvtscScaleRes f dt) s
def execCvtsc (f : Fields) (dt : EType) (s : State) : Result :=
  vIssue (.cvtsc f dt) f (dstOf f.d .w32) (cvtscRes f dt) s
def execPack2 (f : Fields) (s : State) : Result :=
  vIssue (.pack2 f) f (dstOf f.d .w32) (fun rd l => res1 l (pack2Val (val32 rd f.a l) (val32 rd f.b l)) 63) s
def execPack4 (f : Fields) (nib : Bool) (s : State) : Result :=
  vIssue (.pack4 f nib) f (dstOf f.d .w32)
    (fun rd l => res1 l (pack4Val nib (val32 rd f.a l) (val32 rd f.b l) (val32 rd f.c l)) 63) s
def execUnpack (f : Fields) (sx : Bool) (wid : UnpW) (k : Nat) (s : State) : Result :=
  vIssue (.unpack f sx wid k) f (dstOf f.d .w64) (unpackRes f sx wid k) s
def execSigrd (f : Fields) (s : State) : Result := vIssue (.sigrd f) f (dstOf f.d .w32) (sigrdRes f) s
def execSigwr (f : Fields) (low : Bool) (s : State) : Result := vIssue (.sigwr f low) f (dstOf f.d .w32) (sigwrRes f low) s
def execSigmin (f : Fields) (s : State) : Result := vIssue (.sigmin f) f (dstOf f.d .w32) (sigminRes f) s

end Sys2Proof.Machine
end

