-- ==== Sys2Proof/Machine/Control.lean ====
section
/-! DEFINITION. The control-slot instructions that move program counters and masks (R167 to R185). -/

namespace Sys2Proof.Machine

/-! ## Moving a slice -/

/-- A direct target (R167). -/
def directTarget (pc : Nat) (t : Target) : Dword :=
  BitVec.ofInt 64 ((lineOf pc : Int) + 64 * t.ldisp.toInt) ||| BitVec.ofNat 64 t.sidx.toNat

/-- What a control syllable knows of its bundle: its address, its fall-through address, tick and GAP. -/
structure Ctl where
  pc : Dword
  fall : Dword
  tick : Nat
  gap : Nat

def ctlOf (rd : Rd) : Ctl := ⟨BitVec.ofNat 64 rd.iss.pc, fallThrough rd.iss.pc rd.iss.last, rd.iss.tick, rd.iss.gap⟩

/-- The running path of a slice sent to an address by a taken transfer (R153, R174). -/
def Slice.take (sl : Slice) (c : Ctl) (target : Dword) (mask : Quad) : Slice :=
  { sl with
    cur := { sl.cur with pc := target, mask := mask, tchk := true, tsrc := c.pc,
                         earliest := c.tick + 1 + max c.gap 2, noPen := false } }

/-- The running path of a slice that goes on at an address reached by no taken transfer. -/
def Slice.goOn (sl : Slice) (c : Ctl) (pc : Dword) (mask : Quad) : Slice :=
  { sl with
    cur := { sl.cur with pc := pc, mask := mask, tchk := false, earliest := c.tick + 1 + c.gap, noPen := false } }

/-- A slice resolves a per-lane branch (R171): `t` goes to the target, the rest of the active lanes to `next`. -/
def Slice.branch (sl : Slice) (c : Ctl) (active t : Quad) (target next : Dword) : Slice :=
  let n := active &&& ~~~t
  if t = 0 then sl.goOn c next active
  else if n = 0 then sl.take c target active
  else
    let low := (List.range 4).find? fun k => active.getLsbD k
    if (low.map fun k => t.getLsbD k) = some true then
      ((sl.setPend (some { sl.cur with pc := next, mask := n, tchk := false })).take c target t)
    else
      ((sl.setPend (some { sl.cur with pc := target, mask := t, tchk := true, tsrc := c.pc })).goOn c next n)

/-- Whether a branch diverges in a slice whose pending slot is taken (R171). -/
def Slice.blocked (sl : Slice) (active t : Quad) : Bool := t ≠ 0 && active &&& ~~~t ≠ 0 && sl.pend.isSome

/-- A level opened at a target (R176, R180). -/
def Slice.openLevel (sl : Slice) (target : Dword) : Slice :=
  if sl.depth = 0 then { sl with depth := 1, tgt1 := target, sav1 := sl.cur.mask, pend1 := none }
  else { sl with depth := 2, tgt2 := target, sav2 := sl.cur.mask, pend2 := none }

/-- A slice's active lanes in the issuing context. -/
def activeQuad (rd : Rd) (i : Nat) : Quad := laneQuad i rd.iss.lanes

/-- The slices of the issuing context changed by a control syllable. -/
def ctlEff (go : Nat → Slice → Slice) (rd : Rd) (s : State) : State :=
  let step (i : Nat) (sl : Slice) : Slice := if rd.iss.slices.contains i then go i sl else sl
  let w := { rd.w with slices := (List.range rd.w.slices.length).zipWith step rd.w.slices }
  { s.putWarp w with issuing := match s.issuing with
    | iss :: rest => { iss with ctl := true } :: rest
    | [] => [] }

/-- The control-stack fault of the lowest slice that breaks a rule (R184). -/
def stackChk (bad : Nat → Slice → Option Nat) (rd : Rd) : Pre :=
  match rd.iss.slices.findSome? fun i => (rd.w.slices[i]?).bind fun sl => (bad i sl).map fun c => (c, i) with
  | some (c, i) => .trap 0x1B rd.iss.lanes (c + 8 * (rd.w.base + i))
  | none => .ok

/-! ## Per-lane branches (R176 to R178) -/

/-- The lanes of a slice that P enables. -/
def enabledQuad (rd : Rd) (f : Fields) (i : Nat) : Quad := laneQuad i (enabled rd f)

def divChk (t : Rd → Nat → Quad) (rd : Rd) : Pre :=
  stackChk (fun i sl => if sl.blocked (activeQuad rd i) (t rd i) then some 1 else none) rd

def braEff (f : Fields) (t : Target) (rd : Rd) : State → State :=
  let c := ctlOf rd
  ctlEff (fun i sl => sl.branch c (activeQuad rd i) (enabledQuad rd f i) (directTarget rd.iss.pc t) c.fall) rd

def execBra (f : Fields) (t : Target) (s : State) : Result :=
  withIssue (.bra f t) (divChk fun rd i => enabledQuad rd f i) (braEff f t) s

def depthChk (rd : Rd) : Pre := stackChk (fun _ sl => if 2 ≤ sl.depth then some 0 else none) rd

def brpEff (f : Fields) (t : Target) (rd : Rd) : State → State :=
  let c := ctlOf rd
  let tgt := directTarget rd.iss.pc t
  ctlEff (fun i sl => (sl.openLevel tgt).branch c (activeQuad rd i) (enabledQuad rd f i) tgt c.fall) rd

def execBrp (f : Fields) (t : Target) (s : State) : Result := withIssue (.brp f t) depthChk (brpEff f t) s

/-- Whether loop is taken in a lane (R177). -/
def loopTaken (a b : Word) (step : BitVec 6) : Bool :=
  let n := a.toInt + step.toInt
  if 0 < step.toInt then n < b.toInt else b.toInt < n

def loopQuad (f : Fields) (step : BitVec 6) (rd : Rd) (i : Nat) : Quad :=
  laneQuad i (laneSet ((lanesOf (enabled rd f)).filter fun l => loopTaken (val32 rd f.a l) (val32 rd f.b l) step))

def loopEff (f : Fields) (step : BitVec 6) (t : Target) (rd : Rd) : State → State :=
  let c := ctlOf rd
  ctlEff (fun i sl => sl.branch c (activeQuad rd i) (loopQuad f step rd i) (directTarget rd.iss.pc t) c.fall) rd

def execLoop (f : Fields) (step : BitVec 6) (t : Target) (s : State) : Result :=
  withIssue (.loop f step t) (divChk (loopQuad f step)) (loopEff f step t) s

/-- The lanes a slice's indirect branch serves first, with their target, and whether further enabled lanes remain (R178). -/
def brxSet (rd : Rd) (f : Fields) (en : Quad) (i : Nat) : Quad × Dword × Bool :=
  match (List.range 4).filter fun k => en.getLsbD k with
  | [] => (0, 0, false)
  | k :: ks =>
    let tgt (k : Nat) : Dword := val64 rd f.a (4 * i + k)
    let same := (k :: ks).filter fun j => tgt j = tgt k
    (BitVec.ofNat 4 (same.foldl (fun m j => m + 2 ^ j) 0), tgt k, ks.any fun j => tgt j ≠ tgt k)

/-- An indirect branch in a slice: the lanes of further targets come back to the bundle. -/
def brxSlice (rd : Rd) (f : Fields) (en : Quad) (i : Nat) (sl : Slice) : Slice :=
  let c := ctlOf rd
  let t := brxSet rd f en i
  sl.branch c (activeQuad rd i) t.1 t.2.1 (if t.2.2 then c.pc else c.fall)

def execBrx (f : Fields) (s : State) : Result :=
  withIssue (.brx f) (divChk fun rd i => (brxSet rd f (enabledQuad rd f i) i).1)
    (fun rd => ctlEff (fun i sl => brxSlice rd f (enabledQuad rd f i) i sl) rd) s

/-! ## Gang-uniform branches (R179) -/

/-- Every active lane of the context goes to the target, or every one falls through. -/
def gangEff (taken : Rd → Bool) (t : Target) (rd : Rd) : State → State :=
  let c := ctlOf rd
  ctlEff (fun i sl =>
    if taken rd then sl.take c (directTarget rd.iss.pc t) (activeQuad rd i) else sl.goOn c c.fall (activeQuad rd i)) rd

def anyLane (f : Fields) (rd : Rd) : Bool := (lanesOf rd.iss.lanes).any (enabledAt rd f)
def allLane (f : Fields) (rd : Rd) : Bool := (lanesOf rd.iss.lanes).all (enabledAt rd f)
def sigBelow (f : Fields) (thr : Nat) (rd : Rd) : Bool := minTag rd f.a (lanesOf (enabled rd f)) < thr

def execBrany (f : Fields) (t : Target) (s : State) : Result := withIssue (.brany f t) noChk (gangEff (anyLane f) t) s
def execBrall (f : Fields) (t : Target) (s : State) : Result := withIssue (.brall f t) noChk (gangEff (allLane f) t) s
def execBrsig (f : Fields) (thr : Nat) (t : Target) (s : State) : Result :=
  withIssue (.brsig f thr t) noChk (gangEff (sigBelow f thr) t) s

/-! ## Regions, calls and returns (R180, R181) -/

def execRegang (f : Fields) (t : Target) (s : State) : Result :=
  withIssue (.regang f t) depthChk
    (fun rd => let c := ctlOf rd
      ctlEff (fun i sl => (sl.openLevel (directTarget rd.iss.pc t)).goOn c c.fall (activeQuad rd i)) rd) s

/-- A return address pushed with the DEPTH at the call. -/
def Slice.push (sl : Slice) (c : Ctl) : Slice := { sl with stack := (c.fall, sl.depth) :: sl.stack }

def callChk (rd : Rd) : Pre := stackChk (fun _ sl => if 16 ≤ sl.stack.length then some 2 else none) rd

def execCall (f : Fields) (t : Target) (s : State) : Result :=
  withIssue (.call f t) callChk
    (fun rd => let c := ctlOf rd
      ctlEff (fun i sl => (sl.push c).take c (directTarget rd.iss.pc t) (activeQuad rd i)) rd) s

/-- callx: a full stack of any slice, then a divergence that finds the pending slot taken. -/
def callxChk (f : Fields) (rd : Rd) : Pre :=
  (callChk rd).andThen (divChk (fun rd i => (brxSet rd f (activeQuad rd i) i).1) rd)

def execCallx (f : Fields) (s : State) : Result :=
  withIssue (.callx f) (callxChk f)
    (fun rd => ctlEff (fun i sl => brxSlice rd f (activeQuad rd i) i (sl.push (ctlOf rd))) rd) s

def retChk (rd : Rd) : Pre :=
  stackChk (fun _ sl => match sl.stack with
    | [] => some 3
    | (_, d) :: _ => if d ≠ sl.depth then some 4 else none) rd

/-- ret in a slice. -/
def Slice.ret (sl : Slice) (c : Ctl) (active : Quad) : Slice :=
  match sl.stack with
  | [] => sl
  | (a, _) :: st => { sl with stack := st }.take c a active

def execRet (f : Fields) (s : State) : Result :=
  withIssue (.ret f) retChk (fun rd => ctlEff (fun i sl => sl.ret (ctlOf rd) (activeQuad rd i)) rd) s

/-! ## exit and yield (R182, R183) -/

def execExit (f : Fields) (s : State) : Result :=
  withIssue (.exit f) noChk
    (fun rd s =>
      let s' := s.putWarp { rd.w with retired := rd.w.retired ||| enabled rd f }
      if enabled rd f = 0 then s'
      else s'.modTeam rd.w.team fun t => { t with barriers := t.barriers.map fun b => b.touch s t rd.w.core }) s

def execYield (f : Fields) (s : State) : Result :=
  withIssue (.yield f) noChk
    (fun rd s =>
      let c := ctlOf rd
      (ctlEff (fun i sl => sl.goOn { c with gap := c.gap + 1 } c.fall (activeQuad rd i)) rd s).modWarp rd.w.wid
        fun w => { w with yielded := true }) s

end Sys2Proof.Machine
end

