-- ==== Sys2Proof/Machine/Scratch.lean ====
section
/-! DEFINITION. The scratchpad: lds, sts, atoms and spmark at issue (R242, R278 to R293, R299), and an access at its banks (R159 to
R161). -/

namespace Sys2Proof.Machine

/-! ## Data of an access -/

/-- The bytes of an access width (R126). -/
def szBytes : Sz → Nat
  | .b8 => 1 | .b16 => 2 | .b32 => 4 | .b64 => 8 | .b128 => 16

/-- What a load of `bytes` bytes writes (R35, R282). -/
def loadVals (bytes : Nat) (sx : Bool) (n : Nat) : List (Word × Tag) :=
  if bytes < 4 then [(BitVec.ofInt 32 (if sx then sextN (8 * bytes) n else (n % 2 ^ (8 * bytes) : Nat)), 63)]
  else
    let ws := (List.range (bytes / 4)).map fun i => (BitVec.ofNat 32 (n / 2 ^ (32 * i)) : Word)
    ws.zip (loadTags bytes)

/-- The store data of an access (R282). -/
def storeData (rd : Rd) (o : Opnd) (sz : Sz) (l : Nat) : Nat :=
  match sz with
  | .b128 => wordsNat (srcQuad rd o l)
  | .b64 => (val64 rd o l).toNat
  | _ => (val32 rd o l).toNat % 2 ^ (8 * szBytes sz)

/-- The index operand of an access: 0 when there is none (R283). -/
def idxVal (rd : Rd) (o : Opnd) (l : Nat) : Int :=
  match o with
  | .none => 0
  | o => (val32 rd o l).toInt

/-! ## Atomics (R291, R292) -/

/-- The bytes of an atomic type. -/
def atyBytes (t : ATy) : Nat := if t.wide then 8 else 4

/-- The operand of an atomic and, for `.cas`, the expected value (R291). -/
def atomArgs (rd : Rd) (o : Opnd) (op : AOp) (ty : ATy) (l : Nat) : Nat × Nat :=
  if op = .cas then
    let n := wordsNat (if ty.wide then srcQuad rd o l else src64 rd o l)
    (n % 2 ^ (8 * atyBytes ty), n / 2 ^ (8 * atyBytes ty))
  else (if ty.wide then (val64 rd o l).toNat else (val32 rd o l).toNat, 0)

/-- Whether an atomic type orders as signed integers. -/
def atySigned : ATy → Bool
  | .s32 | .s64 => true
  | _ => false

/-- The format of a float atomic type. -/
def atyFmt : ATy → Option Fmt
  | .f32 => some fmtF32
  | .f64 => some fmtF64
  | _ => none

/-- The new value of an atomic (R291). -/
def atomNew (op : AOp) (ty : ATy) (old b cmp : Nat) : Nat :=
  let w := 8 * atyBytes ty
  let key (x : Nat) : Int := if atySigned ty then sextN w x else x
  let pick (isMax : Bool) : Nat := match atyFmt ty with
    | some fm => match (minMaxPick isMax false (fm.decode old) (fm.decode b)).1 with
      | none => fm.nan
      | some second => if second then b else old
    | none => if isMax then (if key old < key b then b else old) else (if key b < key old then b else old)
  match op with
  | .add => match atyFmt ty with
    | some fm => (fm.ofFv .rn false false ((fm.decode old).add .rn (fm.decode b))).code
    | none => (old + b) % 2 ^ w
  | .min => pick false
  | .max => pick true
  | .and => old &&& b
  | .or => old ||| b
  | .xor => old ^^^ b
  | .exch => b
  | .cas => if old = cmp then b else old

/-- Whether an atomic writes: a `.cas` that leaves the bits as they are does not (R292). -/
def atomWrites (op : AOp) (old new : Nat) : Bool := !(op = .cas && new = old)

/-! ## Offsets (R90, R91, R242, R283) -/

/-- The bytes of a team's allocation. -/
def Team.bytes (t : Team) : Nat := (if t.paired then 3072 else 1536) * t.rows

/-- The core that holds an offset. -/
def Team.coreAt (t : Team) (off : Nat) : Nat := if t.paired && 1536 * t.rows ≤ off then t.core + 1 else t.core

/-- One lane's offset with what it breaks: 0C outside the allocation, 0D misaligned. -/
def scrBad (t : Team) (width : Nat) (o : Int) : Option Nat :=
  if o < 0 || (t.bytes : Int) < o + width then some 0x0C else if o % width ≠ 0 then some 0x0D else none

/-- The checks of a syllable's offsets: the lowest cause with its lanes (R275), then a partner core that is frozen (R425). -/
def scrPre (s : State) (t : Team) (w : Warp) (bad : Int → Option Nat) (os : List (Nat × Int)) : Pre :=
  let at' (c : Nat) := (os.filter fun p => bad p.2 = some c).map Prod.fst
  if !(at' 0x0C).isEmpty then .trap 0x0C (laneSet (at' 0x0C)) 0
  else if !(at' 0x0D).isEmpty then .trap 0x0D (laneSet (at' 0x0D)) 0
  else if os.any fun p => t.coreAt p.2.toNat ≠ w.core && (s.core (t.coreAt p.2.toNat)).frozen then .hold 15
  else .ok

/-- The offsets of the lanes that access. -/
def scrOffs (rd : Rd) (f : Fields) (idx : Opnd) (x : Int) : List (Nat × Int) :=
  (evalLanes rd f).map fun l => (l, ((val32 rd f.a l).toNat : Int) + idxVal rd idx l + x)

/-- The checks of lds, sts and atoms. -/
def scrChk (f : Fields) (idx : Opnd) (x : Int) (width : Nat) (rd : Rd) : Pre :=
  match teamOf rd.s rd.w with
  | some t => scrPre rd.s t rd.w (scrBad t width) (scrOffs rd f idx x)
  | none => .ok

/-- The checks of spmark: the allocation alone (R299). -/
def markChk (f : Fields) (rd : Rd) : Pre :=
  match teamOf rd.s rd.w with
  | some t => scrPre rd.s t rd.w (fun o => if (t.bytes : Int) ≤ o then some 0x0C else none) (scrOffs rd f .none 0)
  | none => .ok

/-! ## At issue -/

/-- An access queued for its access tick (R160), under the identity `s.nextId`. -/
def queueScr (rd : Rd) (f : Fields) (kind : ScrKind) (lanes : List ScrLane) (w : Warp) (s : State) : State :=
  (s.putWarp { w with scr := w.scr ++ [⟨s.nextId, rd.iss.tick + 11, kind, lanes, enabled rd f, 0⟩] }).bump

def scrLanes (os : List (Nat × Int)) (data : Nat → Nat) (cmp : Nat → Nat) : List ScrLane :=
  os.map fun p => ⟨p.1, p.2.toNat, BitVec.ofNat 128 (data p.1), BitVec.ofNat 64 (cmp p.1)⟩

def ldsEff (f : Fields) (sz : Sz) (sx : Bool) (off : Half) (rd : Rd) (s : State) : State :=
  let fl : Flight := ⟨s.nextId, rd.iss.tick + 12, BitVec.ofNat 64 rd.iss.pc, .regs f.d.num ((szBytes sz + 3) / 4), enabled rd f, []⟩
  queueScr rd f (.load (szBytes sz) sx) (scrLanes (scrOffs rd f f.b off.toInt) (fun _ => 0) (fun _ => 0))
    (Warp.noteWrite { rd.w with flight := rd.w.flight ++ [fl] } fl.dst fl.mask s.nextId) s

def stsEff (f : Fields) (sz : Sz) (off : Half) (rd : Rd) (s : State) : State :=
  queueScr rd f (.store (szBytes sz)) (scrLanes (scrOffs rd f .none off.toInt) (storeData rd f.b sz) (fun _ => 0)) rd.w s

/-- A hook item for work of the syllable, under the identity `s.nextId`. -/
def hookItem (rd : Rd) (s : State) (dst : Dst) (lanes : Lanes) (fin : Option Nat) : HookItem :=
  { id := s.nextId, fin := fin, pc := BitVec.ofNat 64 rd.iss.pc, dst := dst, lanes := lanes }

/-- With no lane enabled the work completes at once (R162). -/
def doneIfNone (rd : Rd) (f : Fields) (s : State) : Option Nat := if enabled rd f = 0 then some s.base else none

def atomsEff (f : Fields) (op : AOp) (ty : ATy) (hook : Nat) (off : Half) (rd : Rd) (s : State) : State :=
  let it := hookItem rd s (.regs f.d.num (if ty.wide then 2 else 1)) (enabled rd f) (doneIfNone rd f s)
  let w := rd.w.raise hook it
  if enabled rd f = 0 then (s.putWarp w).bump
  else queueScr rd f (.atomic op ty s.nextId)
    (scrLanes (scrOffs rd f .none off.toInt) (fun l => (atomArgs rd f.b op ty l).1) (fun l => (atomArgs rd f.b op ty l).2)) w s

def markEff (f : Fields) (full : Bool) (hook : Nat) (rd : Rd) (s : State) : State :=
  let it := hookItem rd s (.regs 1023 0) (enabled rd f) (doneIfNone rd f s)
  let w := rd.w.raise hook it
  if enabled rd f = 0 then (s.putWarp w).bump
  else queueScr rd f (.mark full s.nextId) (scrLanes (scrOffs rd f .none 0) (fun _ => 0) (fun _ => 0)) w s

def execLds (f : Fields) (sz : Sz) (sx : Bool) (off : Half) (s : State) : Result :=
  withIssue (.lds f sz sx off) (scrChk f f.b off.toInt (szBytes sz)) (ldsEff f sz sx off) s
def execSts (f : Fields) (sz : Sz) (off : Half) (s : State) : Result :=
  withIssue (.sts f sz off) (scrChk f .none off.toInt (szBytes sz)) (stsEff f sz off) s
def execAtoms (f : Fields) (op : AOp) (ty : ATy) (hook : Nat) (off : Half) (s : State) : Result :=
  withIssue (.atoms f op ty hook off) (scrChk f .none off.toInt (atyBytes ty)) (atomsEff f op ty hook off) s
def execSpmarkFull (f : Fields) (hook : Nat) (s : State) : Result :=
  withIssue (.spmarkFull f hook) (markChk f) (markEff f true hook) s
def execSpmarkEmpty (f : Fields) (hook : Nat) (s : State) : Result :=
  withIssue (.spmarkEmpty f hook) (markChk f) (markEff f false hook) s

/-! ## At the banks (R159 to R161) -/

/-- The bytes each lane of an access covers. -/
def ScrKind.width : ScrKind → Nat
  | .load n _ | .store n => n
  | .atomic _ ty _ => atyBytes ty
  | .mark _ _ => 0

/-- The words of an access, as (core, word): equal words of several lanes once, but for atomics (R159, R293). -/
def scrWords (t : Team) (a : ScrAcc) : List (Nat × Nat) :=
  let ws := a.lanes.flatMap fun l =>
    (List.range ((a.kind.width + 3) / 4)).map fun i => (t.coreAt l.off, l.off / 4 + i)
  match a.kind with
  | .atomic _ _ _ => ws
  | _ => ws.eraseDups

/-- The banks of an access, as (core, bank), each as often as it has words. -/
def scrBanks (t : Team) (a : ScrAcc) : List (Nat × Nat) := (scrWords t a).map fun p => (p.1, p.2 % 384)

/-- The greatest number of words in one bank of a list that names each word's bank. -/
def mostWords (bs : List (Nat × Nat)) : Nat := bs.foldl (fun m b => max m (bs.count b)) 0

/-- The number of bank cycles (R159). -/
def scrCycles (t : Team) (a : ScrAcc) : Nat := max 1 (mostWords (scrBanks t a))

/-- The banks that each bank cycle of an access takes: all of them (R161, log 22). -/
def banksOf (t : Team) (a : ScrAcc) : List (Nat × Nat) := (scrBanks t a).eraseDups

/-- Whether an access touches a line marked empty (R244). -/
def touchesEmpty (t : Team) (a : ScrAcc) : Bool :=
  match a.kind with
  | .mark _ _ => false
  | _ => a.lanes.any fun l => t.empty.contains (l.off / 128)

/-- The result of a lane of an access that loads: its own lane's, or under U the one evaluated. -/
def laneOr {α : Type} (ls : List (Nat × α)) (l : Nat) : Option α :=
  match ls.lookup l with
  | some x => some x
  | none => ls.head?.map Prod.snd

/-- Lanes with values spread over the lanes that receive them. -/
def spread (en : Lanes) (vs : List (Nat × List (Word × Tag))) : List LaneRes :=
  (lanesOf en).filterMap fun l => (laneOr vs l).map fun v => { lane := l, vals := v }

/-- A flight's results set. -/
def Warp.fillFlight (w : Warp) (seq : Nat) (rs : List LaneRes) : Warp :=
  { w with flight := w.flight.map fun f => if f.seq = seq then { f with lanes := rs } else f }

/-- Whether a byte is in the destination of a copy that has not marked its line. -/
def CopyDest.covers (d : CopyDest) (off : Nat) : Bool :=
  d.lo ≤ off && d.marked ≤ off / 128 && (off - d.lo) / d.pitch < d.rows && (off - d.lo) % d.pitch < d.len

/-- One byte of scratchpad as it is read, by engine work `own` or by a warp: free in the destination of a copy that has not marked its
line, but for engine work issued earlier than that copy, whose source holds its value at issue or one written since (R311, R332). -/
def scrByte (s : State) (t : Team) (own : Option Nat) (off : Nat) : Byte :=
  if t.dests.any fun d => own.all (d.id < ·) && d.covers off then Config.freeByte s.fresh off else cget t.scratch off

/-- `n` bytes of scratchpad as a load reads them. -/
def scrRead (s : State) (t : Team) (off : Nat) : Nat → Nat
  | 0 => 0
  | n + 1 => (scrByte s t none off).toNat + 256 * scrRead s t (off + 1) n

/-- The lanes of an atomic in ascending order: memory and old values, each word first read by `get` and then as the earlier lanes have
left it (R292). -/
def atomScr (op : AOp) (ty : ATy) (get : Nat → Nat) : List ScrLane → List Host.Cell → List Nat → List Host.Cell × List (Nat × Nat)
  | [], m, _ => (m, [])
  | l :: ls, m, put =>
    let old := if put.contains l.off then cgetN m l.off (atyBytes ty) else get l.off
    let new := atomNew op ty old l.data.toNat l.cmp.toNat
    let w := atomWrites op old new
    let r := atomScr op ty get ls (if w then csetN m l.off (atyBytes ty) new else m) (if w then l.off :: put else put)
    (r.1, (l.lane, old) :: r.2)

/-- What an access does in its last bank cycle. -/
def performScr (s : State) (w : Warp) (t : Team) (a : ScrAcc) : State :=
  let w := { w with scr := w.scr.filter (fun b => b.seq ≠ a.seq), scrDone := some (a.seq, coreCycle s w.core) }
  match a.kind with
  | .load n sx =>
    let vs := a.lanes.map fun l => (l.lane, loadVals n sx (scrRead s t l.off n))
    (s.putWarp (w.fillFlight a.seq (spread a.enabled vs))).used
  | .store n =>
    overwrite ((s.putWarp w).putTeam { t with scratch := a.lanes.foldl (fun m l => csetN m l.off n l.data.toNat) t.scratch }) t
      (a.lanes.map fun l => (l.off, n))
  | .atomic op ty item =>
    let r := atomScr op ty (fun off => scrRead s t off (atyBytes ty)) a.lanes t.scratch []
    let vs := r.2.map fun p => (p.1, loadVals (atyBytes ty) false p.2)
    let dst := ((w.hooks.flatMap HookSt.items).find? fun i => i.id = item).map HookItem.dst
    let w := w.writeAll s.fresh (dst.getD (.regs 1023 0)) (spread a.enabled vs)
    let w := { w with hooks := w.hooks.map fun h => { h with items := h.items.map fun i =>
      if i.id = item then { i with fin := some (s.base + 1) } else i } }
    let s := ((s.putWarp w).putTeam { t with scratch := r.1 }).used
    if op = .exch then overwrite s t (a.lanes.map fun l => (l.off, atyBytes ty)) else s
  | .mark full item =>
    let w := { w with hooks := w.hooks.map fun h => { h with items := h.items.map fun i =>
      if i.id = item then { i with fin := some s.base } else i } }
    (s.putWarp w).putTeam { t with marks := t.marks ++ a.lanes.map fun l => (l.off / 128, 2, full) }

/-- The oldest scratchpad access of a room (R161). -/
def roomOldest (s : State) (core room : Nat) : Option Nat :=
  let seqs := s.warps.flatMap fun e => if e.2.core = core && e.2.room = room then e.2.scr.map ScrAcc.seq else []
  seqs.foldl (fun m n => match m with
    | none => some n
    | some k => some (min k n)) none

/-- Whether one of the banks is taken in this clock cycle, or kept for engine work other than `own`. -/
def banksBusy (s : State) (own : Option Nat) (bs : List (Nat × Nat)) : Bool :=
  bs.any fun b => (s.core b.1).bankUse.contains b.2 || (s.core b.1).engUse.any fun e => e.1 = b.2 && some e.2 ≠ own

/-- Banks taken for the rest of this clock cycle. -/
def takeBanks (s : State) (bs : List (Nat × Nat)) : State :=
  bs.foldl (fun s b => s.modCore b.1 fun c => { c with bankUse := b.2 :: c.bankUse }) s

/-- An access that waits for a bank in this clock cycle (R161): its warp is frozen under code 2. -/
def scrWait (s : State) (w : Warp) (a : ScrAcc) : State :=
  s.putWarp (w.freeze 2 (coreCycle s w.core + 1) (a.done = 0))

/-- One bank cycle of a scratchpad access, if it is due and its banks are free. -/
def scrStep (s : State) (w : Warp) (t : Team) (a : ScrAcc) : State :=
  let cycle := coreCycle s w.core
  if !(w.entering || t.place == .halting || (s.core w.core).frozen || a.tick ≤ w.tick) then s
  else if roomOldest s w.core w.room ≠ some a.seq || (((s.core w.core).rooms.getD w.room {}).scrAt = some cycle) then
    scrWait s w a
  else if a.done = 0 && touchesEmpty t a then s.putWarp (w.freezeFor 7 (.line a.seq))
  else if banksBusy s none (banksOf t a) then scrWait s w a
  else
    let s := takeBanks s (banksOf t a)
    let used (r : Room) : Room := { r with scrAt := some cycle }
    let s := s.modCore w.core fun c => { c with rooms := lmod c.rooms w.room used }
    if a.done + 1 < scrCycles t a then
      let more (b : ScrAcc) : ScrAcc := if b.seq = a.seq then { b with done := a.done + 1 } else b
      s.putWarp (Warp.freeze { w with scr := w.scr.map more } 2 (cycle + 1) false)
    else
      let far := a.lanes.any fun l => t.coreAt l.off ≠ w.core
      performScr s (if far then w.freeze 2 (cycle + 4) false else w) t a

/-- An access of a warp at its banks (R160). -/
def execScratchAccessPerform (wid seq : Nat) (s : State) : Result :=
  match s.warp? wid with
  | none => .next s
  | some w =>
    match teamOf s w, w.scr.find? fun a => a.seq = seq with
    | some t, some a => .next (scrStep s w t a)
    | _, _ => .next s

/-- The lines of an access are full: its warp goes on (R160). -/
def execScratchLineFullResume (wid : Nat) (s : State) : Result :=
  match s.warp? wid with
  | none => .next s
  | some w =>
    match teamOf s w with
    | none => .next s
    | some t =>
      .next (s.putWarp (w.thaw fun y => match y with
        | .line seq => !(w.scr.any fun a => a.seq = seq && touchesEmpty t a)
        | _ => false))

end Sys2Proof.Machine
end

