-- ==== Sys2Proof/Machine/MemSlot.lean ====
section
/-! DEFINITION. The M-slot instructions that reach memory, the cellar and the work-queue units, at issue: loads, stores, atomics,
prefetch, fences, icinv, wqenq and wqdeq (R278 to R302). -/

namespace Sys2Proof.Machine

/-! ## Addresses (R283, R284) -/

/-- The exact virtual address of a lane. -/
def vaOf (rd : Rd) (f : Fields) (idx : Opnd) (off : Half) (l : Nat) : Int :=
  ((val64 rd f.a l).toNat : Int) + idxVal rd idx l + off.toInt

/-- The shadow address of a virtual address (R36). -/
def shadowOf (rd : Rd) (va : Int) : Int := (rd.w.csr.shbase.toNat : Int) + (if va < 0 then 0 else va / 4)

/-- The accesses of a load, store or atomic, lane by lane; with a shadow access for ldt and stt. Which address TRVAL holds when both
accesses of a lane fail with one cause is not in the spec: here the data's (DESIGN CHOICE, log 77). -/
def memReqs (rd : Rd) (f : Fields) (idx : Opnd) (off : Half) (bytes : Nat) (need : Need) (shadow : Bool) : List XReq :=
  (evalLanes rd f).flatMap fun l =>
    let va := vaOf rd f idx off l
    ⟨l, va, bytes, need⟩ :: (if shadow then [⟨l, shadowOf rd va, 1, need⟩] else [])

/-- The checks of an access to virtual memory. -/
def memChk (f : Fields) (idx : Opnd) (off : Half) (bytes : Nat) (need : Need) (shadow : Bool) (rd : Rd) : Pre :=
  xlatePre rd.s rd.w (memReqs rd f idx off bytes need shadow)

/-- A load whose destination is a hatch: only in the access warp of a pair (R262, R286). -/
def hatchWarpChk (f : Fields) (rd : Rd) : Pre :=
  match f.d with
  | .hq _ => if rd.w.w % 2 = 0 then .ok else .trap 0x17 rd.iss.lanes (fldVal rd.iss.syl 1)
  | _ => .ok

/-- A load whose destination is a hatch needs a free entry at issue (R259). -/
def hatchRoomChk (f : Fields) (rd : Rd) : Pre :=
  match f.d, teamOf rd.s rd.w with
  | .hq h, some t => if t.hasRoom (pushKey rd.w h) then .ok else .freeze 6 (.push (pushKey rd.w h))
  | _, _ => .ok

def loadChk (f : Fields) (idx : Opnd) (off : Half) (bytes : Nat) (shadow : Bool) (rd : Rd) : Pre :=
  ((hatchWarpChk f rd).andThen (memChk f idx off bytes .r shadow rd)).andThen (hatchRoomChk f rd)

/-! ## Work in flight -/

/-- The lanes of an access with their translations. -/
def memLanes (rd : Rd) (f : Fields) (idx : Opnd) (off : Half) (shadow : Bool) (data cmp : Nat → Nat) (tags : Nat → List Tag) :
    List MemLane :=
  (evalLanes rd f).map fun l =>
    let va := (vaOf rd f idx off l).toNat
    let leaf := leafAt rd.s rd.w va
    let sva := (shadowOf rd va).toNat
    let sleaf := leafAt rd.s rd.w sva
    { lane := l, va := va, leaf := leaf, pa := leaf.phys va, data := BitVec.ofNat 128 (data l), cmp := BitVec.ofNat 64 (cmp l),
      sva := if shadow then sva else 0, spa := if shadow then sleaf.phys sva else 0,
      sleaf := if shadow then some sleaf else none, tags := tags l }

/-- The lines an access reaches: a data line as 2 × line, a shadow line as 2 × line + 1. -/
def linesOf (ls : List MemLane) : List Nat :=
  (ls.flatMap fun l => 2 * (l.pa / 128) :: (if l.sleaf.isSome then [2 * (l.spa / 128) + 1] else [])).eraseDups

/-- The entry that a load reserves in a hatch queue (R259), complete at once when no lane is enabled. -/
def reserveEntry (rd : Rd) (f : Fields) (id : Nat) (s : State) : State :=
  match f.d with
  | .hq h => s.modTeam rd.w.team fun t => t.push (pushKey rd.w h) ⟨id, [], doneIfNone rd f s⟩
  | _ => s

def hatchKeyOf (rd : Rd) (d : Opnd) : Option Nat :=
  match d with
  | .hq h => some (pushKey rd.w h)
  | _ => none

/-- The arrival of a load's data, or of its hatch entry. -/
def arrivalOf (m : MemOp) (id : Nat) : Instr := if m.hatch.isSome then .hatchLoadEntryFill id else .loadDataArrival id

/-- An access to perform at the home of each line it reaches, its data and its shadow there as one (R378). -/
def postLines (s : State) (id : Nat) (m : MemOp) : State :=
  ((m.todo.map fun c => 2 * (c / 2)).eraseDups).foldl (fun s line => s.laterFree 1 (.homeAccessPerform id line)) s

/-- A memory access sent out: its hook item, its record, and an access to perform at the home of each line; one with nothing to
perform is answered in its turn. -/
def launchMem (rd : Rd) (f : Fields) (hook : Nat) (dst : Dst) (m : MemOp) (s : State) : State :=
  let id := s.nextId
  let w := rd.w.raise hook (hookItem rd s dst (enabled rd f) (doneIfNone rd f s))
  let s := (reserveEntry rd f id (s.putWarp w)).bump
  if enabled rd f = 0 then s
  else
    let op : Op := { id := id, wid := rd.w.wid, hook := hook, core := rd.w.core, ctx := ctxOf s rd.w, kind := .mem m,
                     sec := !rd.iss.primary }
    let s := { s with ops := tset s.ops id op }
    if m.todo.isEmpty then s.laterFree 1 (arrivalOf m id) else postLines s id m

/-- The record of an access whose lines are all to be performed at their homes. -/
def memOpOf (rd : Rd) (f : Fields) (kind : MemKind) (bytes : Nat) (sx stm : Bool) (rc : Nat) (ls : List MemLane) : MemOp :=
  { kind := kind, bytes := bytes, sx := sx, stream := stm, rc := rc, fillL1 := false, enabled := enabled rd f, uni := f.u,
    lease := (launchD rd.s rd.w).lease,
    lanes := ls, todo := linesOf ls, hatch := hatchKeyOf rd f.d }

def none0 : Nat → Nat := fun _ => 0
def noTags : Nat → List Tag := fun _ => []

/-! ## Loads and stores (R287, R288) -/

/-- The destination of a load. -/
def loadDst (f : Fields) (bytes : Nat) : Dst := .regs f.d.num ((bytes + 3) / 4)

def ldEff (f : Fields) (sz : Sz) (sx stm : Bool) (hook : Nat) (off : Half) (rd : Rd) (s : State) : State :=
  launchMem rd f hook (loadDst f (szBytes sz))
    (memOpOf rd f .load (szBytes sz) sx stm 0 (memLanes rd f f.b off false none0 none0 noTags)) s

def execLd (f : Fields) (sz : Sz) (sx stm : Bool) (hook : Nat) (off : Half) (s : State) : Result :=
  withIssue (.ld f sz sx stm hook off) (loadChk f f.b off (szBytes sz) false) (ldEff f sz sx stm hook off) s

def stEff (f : Fields) (sz : Sz) (stm : Bool) (rc hook : Nat) (off : Half) (rd : Rd) (s : State) : State :=
  launchMem rd f hook (.regs 1023 0)
    (memOpOf rd f .store (szBytes sz) false stm rc (memLanes rd f .none off false (storeData rd f.b sz) none0 noTags)) s

def execSt (f : Fields) (sz : Sz) (stm : Bool) (rc hook : Nat) (off : Half) (s : State) : Result :=
  withIssue (.st f sz stm rc hook off) (memChk f .none off (szBytes sz) .w false) (stEff f sz stm rc hook off) s

def ldtEff (f : Fields) (sz : Sz) (stm : Bool) (hook : Nat) (off : Half) (rd : Rd) (s : State) : State :=
  launchMem rd f hook (loadDst f (szBytes sz))
    (memOpOf rd f .loadTag (szBytes sz) false stm 0 (memLanes rd f f.b off true none0 none0 noTags)) s

def execLdt (f : Fields) (sz : Sz) (stm : Bool) (hook : Nat) (off : Half) (s : State) : Result :=
  withIssue (.ldt f sz stm hook off) (loadChk f f.b off (szBytes sz) true) (ldtEff f sz stm hook off) s

/-- The stored tags of store data, a word at a time; 63 for the high word of a 64-bit store, that of an f64 (R36). -/
def storeTags (rd : Rd) (o : Opnd) (sz : Sz) (l : Nat) : List Tag :=
  match sz with
  | .b128 => (srcQuad rd o l).map Prod.snd
  | .b64 => ((src64 rd o l).take 1).map Prod.snd ++ [63]
  | _ => [(src32 rd o l).2]

def sttEff (f : Fields) (sz : Sz) (stm : Bool) (hook : Nat) (off : Half) (rd : Rd) (s : State) : State :=
  launchMem rd f hook (.regs 1023 0)
    (memOpOf rd f .storeTag (szBytes sz) false stm 0
      (memLanes rd f .none off true (storeData rd f.b sz) none0 (storeTags rd f.b sz))) s

def execStt (f : Fields) (sz : Sz) (stm : Bool) (hook : Nat) (off : Half) (s : State) : Result :=
  withIssue (.stt f sz stm hook off) (memChk f .none off (szBytes sz) .w true) (sttEff f sz stm hook off) s

/-! ## ldr (R246, R247, R289) -/

/-- The L1 line that serves an address, while its lease lasts (R246). -/
def l1Find (s : State) (core ctx va : Nat) : Option L1Line :=
  (s.core core).l1.find? fun l => l.ctx = ctx && l.va = va / 128 && timens s < l.fill + l.lease

/-- The bytes of an L1 line at an address. -/
def l1Bytes (s : State) (l : L1Line) (i : Nat) : Nat → Nat
  | 0 => 0
  | n + 1 =>
    (if l.undef.getLsbD i then Config.freeByte s.fresh (128 * l.va + i) else lineByte l.data i).toNat
      + 256 * l1Bytes s l (i + 1) n

/-- Whether a lane of an ldr reads through the L1: neither the instruction nor the page forbids it. -/
def l1Uses (ca : Ca) (m : MemLane) : Bool := ca ≠ .noL1 && m.leaf.ca ≠ 2

/-- One read counted on each L1 line that an ldr touches (R247). -/
def l1Count (s : State) (core ctx : Nat) (vas : List Nat) : State :=
  let up (l : L1Line) : L1Line := if l.ctx = ctx && vas.contains l.va then { l with reads := l.reads + 1 } else l
  s.modCore core fun c => { c with l1 := c.l1.map up }

/-- Whether an older ldr of a warp has still to read the line of an address at its home: a younger one then reads it there too, after
it, so that it returns no older value (R290, R380). -/
def ldrWaits (s : State) (wid va : Nat) : Bool :=
  s.ops.any fun e => e.2.wid = wid && (match e.2.kind with
    | .mem m => m.kind = .loadL1 && m.lanes.any fun l => l.va / 128 = va / 128 && m.todo.contains (2 * (l.pa / 128))
    | _ => false)

def ldrEff (f : Fields) (sz : Sz) (sx : Bool) (ca : Ca) (rc hook : Nat) (off : Half) (rd : Rd) (s : State) : State :=
  let ls := memLanes rd f f.b off false none0 none0 noTags
  let ctx := ctxOf s rd.w
  let hit (m : MemLane) : Option L1Line := if l1Uses ca m && !ldrWaits s rd.w.wid m.va then l1Find s rd.w.core ctx m.va else none
  let hits := ls.filterMap fun m => (hit m).map fun l =>
    ({ lane := m.lane, vals := loadVals (szBytes sz) sx (l1Bytes s l (m.va % 128) (szBytes sz)) } : LaneRes)
  let miss := ls.filter fun m => (hit m).isNone
  let m := { memOpOf rd f .loadL1 (szBytes sz) sx (ca = .stream) rc ls with
    todo := linesOf miss, results := hits, fillL1 := ca ≠ .noL1 }
  launchMem rd f hook (loadDst f (szBytes sz)) m
    (l1Count s rd.w.core ctx ((ls.filter fun m => (hit m).isSome).map fun m => m.va / 128))

def execLdr (f : Fields) (sz : Sz) (sx : Bool) (ca : Ca) (rc hook : Nat) (off : Half) (s : State) : Result :=
  withIssue (.ldr f sz sx ca rc hook off) (loadChk f f.b off (szBytes sz) false) (ldrEff f sz sx ca rc hook off) s

/-! ## atom (R291, R292) -/

def atomEff (f : Fields) (op : AOp) (ty : ATy) (hook : Nat) (off : Half) (rd : Rd) (s : State) : State :=
  launchMem rd f hook (.regs f.d.num (if ty.wide then 2 else 1))
    (memOpOf rd f (.atomic op ty) (atyBytes ty) false false 0
      (memLanes rd f .none off false (fun l => (atomArgs rd f.b op ty l).1) (fun l => (atomArgs rd f.b op ty l).2) noTags)) s

def execAtom (f : Fields) (op : AOp) (ty : ATy) (hook : Nat) (off : Half) (s : State) : Result :=
  withIssue (.atom f op ty hook off) (memChk f .none off (atyBytes ty) .rw false) (atomEff f op ty hook off) s

/-! ## pref (R298) -/

/-- The lanes of a pref that translate with the right to read; the others are discarded (R269). -/
def prefOk (rd : Rd) (f : Fields) (off : Half) (l : Nat) : Bool :=
  match xReq rd.s rd.w ⟨l, vaOf rd f f.b off l, 1, .r⟩ with
  | .ok _ => true
  | _ => false

/-- A pref faults nothing; it waits for its translations (R270). -/
def prefChk (f : Fields) (off : Half) (rd : Rd) : Pre :=
  let rs := (evalLanes rd f).map fun l => (l, xReq rd.s rd.w ⟨l, vaOf rd f f.b off l, 1, .r⟩)
  xPre (rs.filter fun r => match r.2 with
    | .ask _ _ | .fill _ => true
    | _ => false)

def prefEff (f : Fields) (ca : Ca) (off : Half) (rd : Rd) (s : State) : State :=
  let ls := (memLanes rd f f.b off false none0 none0 noTags).filter fun m => prefOk rd f off m.lane
  let m := memOpOf rd f (.pref (ca = .noL1)) 1 false (ca = .stream) 0 ls
  if ls.isEmpty then s
  else
    let id := s.nextId
    let op : Op := { id := id, wid := rd.w.wid, hook := 0, core := rd.w.core, ctx := ctxOf s rd.w, kind := .mem m,
                     sec := !rd.iss.primary }
    postLines ({ s with ops := tset s.ops id op }.bump) id m

def execPref (f : Fields) (ca : Ca) (off : Half) (s : State) : Result :=
  withIssue (.pref f ca off) (prefChk f off) (prefEff f ca off) s

/-! ## ldw (R254, R257) -/

/-- The cellar offset of a lane. -/
def cellarOff (rd : Rd) (f : Fields) (off : Half) (l : Nat) : Int :=
  ((val32 rd f.a l).toNat : Int) + idxVal rd f.b l + off.toInt

/-- The window of a context that holds a range of the cellar (R254). -/
def cellarWin (s : State) (ctx : Nat) (c : Int) (width : Nat) : Option CellarWin :=
  s.cellarWins.find? fun v => v.ctx = ctx && (v.base : Int) ≤ c && c + width ≤ v.base + v.len

/-- The end of the refresh window that holds an access to a bank group, if one does (R256, R257). -/
def refreshEnd (s : State) (c : Nat) : Option Nat :=
  let g := bits c 24 4
  let t := timens s
  let r := (t + 32000 - refwinOffset) % 32000
  let start := 2000 * g
  let back := (r + 64 + 32000 - start) % 32000
  if back < 64 + 256 then some (t + (320 - back)) else none

/-- The checks of ldw: its hatch, the windows and the alignment of each lane, then the refresh windows. -/
def ldwChk (f : Fields) (sz : Sz) (off : Half) (rd : Rd) : Pre :=
  let cs := (evalLanes rd f).map fun l => (l, cellarOff rd f off l)
  let out := cs.filter fun c => (cellarWin rd.s (ctxOf rd.s rd.w) c.2 (szBytes sz)).isNone
  let mis := cs.filter fun c => c.2 % (szBytes sz : Int) ≠ 0
  let held := cs.filterMap fun c => refreshEnd rd.s c.2.toNat
  (hatchWarpChk f rd).andThen
    (if !out.isEmpty then .trap 0x0C (laneSet (out.map Prod.fst)) 0
     else if !mis.isEmpty then .trap 0x0D (laneSet (mis.map Prod.fst)) 0
     else match held with
       | n :: _ => .freeze 13 (.refresh n)
       | [] => hatchRoomChk f rd)

def ldwEff (f : Fields) (sz : Sz) (sx : Bool) (hook : Nat) (off : Half) (rd : Rd) (s : State) : State :=
  let ls : List MemLane := (evalLanes rd f).map fun l =>
    { lane := l, va := (cellarOff rd f off l).toNat, pa := (cellarOff rd f off l).toNat,
      leaf := ⟨0, 28, true, false, false, match cellarWin s (ctxOf s rd.w) (cellarOff rd f off l) (szBytes sz) with
        | some v => v.zp
        | none => false, 0, false, 0, 0⟩ }
  launchMem rd f hook (loadDst f (szBytes sz)) { memOpOf rd f .cellar (szBytes sz) sx false 0 ls with todo := [] } s

def execLdw (f : Fields) (sz : Sz) (sx : Bool) (hook : Nat) (off : Half) (s : State) : Result :=
  withIssue (.ldw f sz sx hook off) (ldwChk f sz off) (ldwEff f sz sx hook off) s

/-! ## Fences (R294, R295) -/

/-- The running paths of the issuing context changed. -/
def Warp.mapCur (w : Warp) (slices : List Nat) (f : Path → Path) : Warp :=
  let go (i : Nat) (sl : Slice) : Slice := if slices.contains i then { sl with cur := f sl.cur } else sl
  { w with slices := (List.range w.slices.length).zipWith go w.slices }

/-- A fence of a scope: 0 team, 1 pair, 2 dev, 3 fab, 4 for afence. With no lane enabled its work is done at once. -/
def fenceEff (f : Fields) (scope : Nat) (hold : Bool) (hook : Nat) (rd : Rd) (s : State) : State :=
  let id := s.nextId
  let w := rd.w.raise hook (hookItem rd s (.regs 1023 0) (enabled rd f) (doneIfNone rd f s))
  if enabled rd f = 0 then (s.putWarp w).bump
  else
    let w := if hold then w.mapCur rd.iss.slices (fun p => { p with fence := some id }) else w
    let op : Op := { id := id, wid := w.wid, hook := hook, core := w.core, ctx := ctxOf s w, kind := .fence scope id }
    { s with ops := tset s.ops id op }.putWarp w |>.bump

def execFenceTeam (f : Fields) (hold : Bool) (hook : Nat) (s : State) : Result :=
  withIssue (.fenceTeam f hold hook) noChk (fenceEff f 0 hold hook) s
def execFencePair (f : Fields) (hold : Bool) (hook : Nat) (s : State) : Result :=
  withIssue (.fencePair f hold hook) noChk (fenceEff f 1 hold hook) s
def execFenceDev (f : Fields) (hold : Bool) (hook : Nat) (s : State) : Result :=
  withIssue (.fenceDev f hold hook) noChk (fenceEff f 2 hold hook) s
def execFenceFab (f : Fields) (hold : Bool) (hook : Nat) (s : State) : Result :=
  withIssue (.fenceFab f hold hook) noChk (fenceEff f 3 hold hook) s
def execAfence (f : Fields) (hold : Bool) (hook : Nat) (s : State) : Result :=
  withIssue (.afence f hold hook) noChk (fenceEff f 4 hold hook) s

/-! ## icinv (R296) -/

/-- The range of a lane: none for a length of 0. -/
def icRange (rd : Rd) (f : Fields) (l : Nat) : Option (Nat × Nat) :=
  let n := (val32 rd f.b l).toNat
  if n = 0 then none else some ((val64 rd f.a l).toNat, (val64 rd f.a l).toNat + n - 1)

/-- A range that ends beyond 2^64 − 1 raises 0A. -/
def icChk (ls : List Nat) (f : Fields) (rd : Rd) : Pre :=
  let bad := ls.filter fun l => match icRange rd f l with
    | some r => 2 ^ 64 ≤ r.2
    | none => false
  if bad.isEmpty then .ok else .trap 0x0A (laneSet bad) 0

/-- The fetch-cache lines of a context that overlap a range invalidated. -/
def icFilter (c : Core) (ctx : Nat) (rs : List (Nat × Nat)) : Core :=
  { c with fcache := c.fcache.filter fun l => !(l.ctx = ctx && rs.any fun r => r.1 ≤ l.va + 63 && l.va ≤ r.2) }

def icinvEff (f : Fields) (hook : Nat) (rd : Rd) (s : State) : State :=
  let rs := (evalLanes rd f).filterMap (icRange rd f)
  let w := rd.w.raise hook (hookItem rd s (.regs 1023 0) (enabled rd f) (some s.base))
  ((s.putWarp w).modCore rd.w.core fun c => icFilter c (ctxOf s rd.w) rs).bump

def execIcinv (f : Fields) (hook : Nat) (s : State) : Result :=
  withIssue (.icinv f hook) (fun rd => icChk (evalLanes rd f) f rd) (icinvEff f hook) s

/-! ## Work-queue units (R300 to R302) -/

/-- Whether a number names a unit bound to a context. -/
def unitBound (s : State) (ctx : Nat) (n : Nat) : Bool :=
  n < 128 && (match s.wqUnits[n]? with
    | some u => u.owner.any fun o => o.2 = ctx
    | none => false)

def wqChk (f : Fields) (rd : Rd) : Pre :=
  let bad := (evalLanes rd f).filter fun l => !unitBound rd.s (ctxOf rd.s rd.w) (val32 rd f.a l).toNat
  if bad.isEmpty then .ok else .trap 0x0C (laneSet bad) 0

/-- An entry with word 3 all ones is the empty entry. -/
def wqEmpty : BitVec 128 := BitVec.ofNat 128 (0xFFFFFFFF * 2 ^ 96)

/-- An entry appended, or refused (R300). -/
def wqPut (s : State) (n : Nat) (e : BitVec 128) : State × Bool :=
  match s.wqUnits[n]? with
  | none => (s, false)
  | some u =>
    if 1024 ≤ u.entries.length - u.waiters.length || e.toNat / 2 ^ 96 = 0xFFFFFFFF then (s, false)
    else
      let s := { s with wqUnits := lmod s.wqUnits n fun u => { u with entries := u.entries ++ [e] } }
      (if u.waiters.isEmpty then s else s.later 0 (.wqEntryArrival n), true)

/-- The lanes of a wqenq in ascending order. -/
def wqPutAll (rd : Rd) (f : Fields) : List Nat → State → State × List (Nat × Bool)
  | [], s => (s, [])
  | l :: ls, s =>
    let r := wqPut s (val32 rd f.a l).toNat (BitVec.ofNat 128 (wordsNat (srcQuad rd f.b l)))
    let t := wqPutAll rd f ls r.1
    (t.1, (l, r.2) :: t.2)

def wqenqEff (f : Fields) (j hook : Nat) (rd : Rd) (s : State) : State :=
  let r := wqPutAll rd f (evalLanes rd f) s
  let res := (lanesOf (enabled rd f)).filterMap fun l => (laneOr r.2 l).map fun b => resBit l b
  let it := { hookItem rd s (bitDst f.d j 1 .set) (enabled rd f) (some s.base) with res := res }
  (r.1.putWarp (rd.w.raise hook it)).bump

def execWqenq (f : Fields) (j hook : Nat) (s : State) : Result :=
  withIssue (.wqenq f j hook) (wqChk f) (wqenqEff f j hook) s

/-- The quad of an entry, with the tag 63 (R301). -/
def entryVals (e : BitVec 128) : List (Word × Tag) :=
  (List.range 4).map fun i => (BitVec.ofNat 32 (e.toNat / 2 ^ (32 * i)), 63)

/-- The lanes of a wqdeq in ascending order: those served at once, and the rest waiting at their units. The oldest entries of a unit
are on their way to the lanes that wait there, each the next one's (R302); a request takes the entry behind them. -/
def wqTake (rd : Rd) (f : Fields) (poll : Bool) (id : Nat) : List Nat → State → State × List LaneRes × List (Nat × Nat)
  | [], s => (s, [], [])
  | l :: ls, s =>
    let n := (val32 rd f.a l).toNat
    let u := s.wqUnits.getD n {}
    match u.entries[u.waiters.length]? with
    | some e =>
      let r := wqTake rd f poll id ls
        { s with wqUnits := lmod s.wqUnits n fun u => { u with entries := u.entries.eraseIdx u.waiters.length } }
      (r.1, { lane := l, vals := entryVals e } :: r.2.1, r.2.2)
    | none =>
      if poll then
        let r := wqTake rd f poll id ls s
        (r.1, { lane := l, vals := entryVals wqEmpty } :: r.2.1, r.2.2)
      else
        let r := wqTake rd f poll id ls { s with wqUnits := lmod s.wqUnits n fun u => { u with waiters := u.waiters ++ [(id, l)] } }
        (r.1, r.2.1, (l, n) :: r.2.2)

/-- The quads of a wqdeq that has them all, given to every lane that receives one. -/
def wqDone (s : State) (w : Warp) (hook id : Nat) (en : Lanes) (got : List LaneRes) : State :=
  let rs := spread en (got.map fun r => (r.lane, r.vals))
  let fin (i : HookItem) : HookItem := { i with fin := some s.base, res := rs, early := true }
  s.putWarp (w.modItem hook id fin)

def wqdeqEff (f : Fields) (poll : Bool) (hook : Nat) (rd : Rd) (s : State) : State :=
  let id := s.nextId
  let r := wqTake rd f poll id (evalLanes rd f) s
  let w := rd.w.raise hook (hookItem rd s (.regs f.d.num 4) (enabled rd f) none)
  let s := r.1.bump
  if r.2.2.isEmpty then wqDone s w hook id (enabled rd f) r.2.1
  else
    let op : Op := { id := id, wid := w.wid, hook := hook, core := w.core, ctx := ctxOf s w, kind := .wqdeq r.2.2 r.2.1 }
    { s with ops := tset s.ops id op }.putWarp w

def execWqdeq (f : Fields) (poll : Bool) (hook : Nat) (s : State) : Result :=
  withIssue (.wqdeq f poll hook) (wqChk f) (wqdeqEff f poll hook) s

end Sys2Proof.Machine
end

