-- ==== Sys2Proof/Machine/Sync.lean ====
section
/-! DEFINITION. Hooks, barriers and timed waits: wait, hkadj, bar, bara, barw, sleepns and waitns at issue, and the events that
settle, complete and release them (R391 to R403). -/

namespace Sys2Proof.Machine

/-! ## Scalars and paths -/

/-- A scalar operand: the z32 of the lowest active lane (R391). -/
def scalar (rd : Rd) (o : Opnd) : Nat :=
  match lowLane rd.iss.lanes with
  | some l => (val32 rd o l).toNat
  | none => 0

def Slice.mapPaths (f : Path → Path) (sl : Slice) : Slice :=
  { sl with cur := f sl.cur, pend0 := sl.pend0.map f, pend1 := sl.pend1.map f, pend2 := sl.pend2.map f
            waits := sl.waits.map fun x => (x.1, f x.2) }

/-- Every slice of a warp changed, by its number in the warp. -/
def Warp.mapSlices (f : Nat → Slice → Slice) (w : Warp) : Warp :=
  { w with slices := (List.range w.slices.length).zipWith f w.slices }

/-- Every slice that a warp has saved in the Attic changed. -/
def Warp.mapSaved (f : Nat → Slice → Slice) (w : Warp) : Warp :=
  let save (a : Attic) : Attic := { a with slices := (List.range a.slices.length).zipWith f a.slices }
  { w with attic := w.attic.map save }

def Path.setHold (h : Hold) (p : Path) : Path := { p with hold := h }

/-- The next bundle of the issuing context held. -/
def holdEff (h : Hold) (rd : Rd) (s : State) : State := s.putWarp (rd.w.mapCur rd.iss.slices (Path.setHold h))

/-! ## wait (R394) -/

def execWait (f : Fields) (hook : Nat) (s : State) : Result :=
  withIssue (.wait f hook) noChk
    (fun rd => holdEff (if 63 ≤ scalar rd f.a then .none else .hook hook (scalar rd f.a)) rd) s

def execWaitAll (f : Fields) (s : State) : Result := withIssue (.waitAll f) noChk (holdEff .hookAll) s

/-! ## hkadj (R395) -/

/-- Token items raised on a hook, one identity each. -/
def raiseTokens (s : State) (wid hook : Nat) (pc : Dword) : Nat → State
  | 0 => s
  | n + 1 =>
    let it : HookItem := { id := s.nextId, token := true, pc := pc }
    raiseTokens ((s.modWarp wid fun w => w.raise hook it).bump) wid hook pc n

def execHkadjUp (f : Fields) (hook n : Nat) (s : State) : Result :=
  withIssue (.hkadjUp f hook n) noChk
    (fun rd s => raiseTokens (s.putWarp rd.w) rd.w.wid hook (BitVec.ofNat 64 rd.iss.pc) n) s

/-- The warp that receives the credit. -/
def dnTarget (rd : Rd) (w : Option Nat) : Option Warp :=
  match w with
  | none => some rd.w
  | some k => (rd.s.warps.find? fun e => e.2.team = rd.w.team && e.2.w = k).map Prod.snd

/-- TRVAL of cause 18 (R403). -/
def barVal (sub num : Nat) : Nat := sub + 8 * num

def hkadjDnChk (hook n : Nat) (w : Option Nat) (rd : Rd) : Pre :=
  if w.any fun k => (launchD rd.s rd.w).warps ≤ k then .trap 0x18 rd.iss.lanes (barVal 6 hook)
  else match dnTarget rd w with
    | none => .ok
    | some t =>
      if t.ended then .ok
      else if t.core ≠ rd.w.core && (rd.s.core t.core).frozen then .hold 15
      else if 63 < (t.hook hook).credit + (t.hook hook).promised + n then .trap 0x18 rd.iss.lanes (barVal 5 hook)
      else .ok

/-- Credit promised to a hook. -/
def Warp.promise (w : Warp) (hook n : Nat) : Warp :=
  { w with hooks := lmod w.hooks hook fun k => { k with promised := k.promised + n } }

def hkadjDnEff (hook n : Nat) (w : Option Nat) (rd : Rd) (s : State) : State :=
  match dnTarget rd w with
  | none => s
  | some t =>
    let seq := s.nextId
    let add (v : Warp) : Warp := { v with settles := v.settles ++ [.credit seq t.wid hook n] }
    let s := s.modWarp rd.w.wid add
    ((if t.ended then s else s.modWarp t.wid fun v => v.promise hook n).bump).soon (.settlePoint rd.w.wid seq)

def execHkadjDn (f : Fields) (hook n : Nat) (w : Option Nat) (s : State) : Result :=
  withIssue (.hkadjDn f hook n w) (hkadjDnChk hook n w) (hkadjDnEff hook n w) s

/-! ## Barriers (R396 to R398, R403) -/

/-- The count of an arrival: B, or WARPS (R397). -/
def barCount (rd : Rd) (f : Fields) : Nat :=
  match f.b with
  | .none => (launchD rd.s rd.w).warps
  | o => scalar rd o

/-- The partner core of a paired team is frozen (R425). -/
def partnerFrozen (s : State) (t : Team) (core : Nat) : Bool :=
  t.paired && (s.core (if core = t.core then t.core + 1 else t.core)).frozen

/-- An arrival of lanes of a warp that is still in a barrier's record. -/
def Barrier.waiting (b : Barrier) (w : Nat) (lanes : Lanes) : Bool := b.record.any fun a => a.w = w && a.lanes &&& lanes != 0

def barChk (f : Fields) (k : Nat) (rd : Rd) : Pre :=
  match teamOf rd.s rd.w with
  | none => .ok
  | some t =>
    let l := launchD rd.s rd.w
    let c := barCount rd f
    let b := t.barriers.getD k {}
    let bad (sub : Nat) : Pre := .trap 0x18 rd.iss.lanes (barVal sub k)
    if partnerFrozen rd.s t rd.w.core then .hold 15
    else if l.nbar ≤ k then bad 0
    else if c = 0 || l.warps < c then bad 1
    else if b.record.any fun a => a.count ≠ c then bad 2
    else if b.waiting rd.w.w rd.iss.lanes then bad 3
    else .ok

def Team.modBar (t : Team) (k : Nat) (f : Barrier → Barrier) : Team := { t with barriers := lmod t.barriers k f }

/-- An arrival put into a barrier's record at issue. -/
def Barrier.enter (b : Barrier) (seq w : Nat) (lanes : Lanes) (count : Nat) : Barrier :=
  { b with
    record := b.record ++ [⟨seq, w, lanes, count, false⟩]
    ever := tset b.ever w (((tget b.ever w).getD 0) ||| lanes) }

def barEff (f : Fields) (drain hold : Bool) (k : Nat) (rd : Rd) (s : State) : State :=
  let seq := s.nextId
  let w := { rd.w with settles := rd.w.settles ++ [.arrive seq k drain] }
  let w := if hold then w.mapCur rd.iss.slices (Path.setHold (.bar k rd.iss.lanes)) else w
  let s := (s.putWarp w).modTeam w.team fun t => t.modBar k fun b => b.enter seq w.w rd.iss.lanes (barCount rd f)
  s.bump.soon (.settlePoint w.wid seq)

def execBar (f : Fields) (drain : Bool) (k : Nat) (s : State) : Result :=
  withIssue (.bar f drain k) (barChk f k) (barEff f drain true k) s
def execBara (f : Fields) (drain : Bool) (k : Nat) (s : State) : Result :=
  withIssue (.bara f drain k) (barChk f k) (barEff f drain false k) s

def barwChk (k : Nat) (rd : Rd) : Pre :=
  match teamOf rd.s rd.w with
  | none => .ok
  | some t =>
    if (launchD rd.s rd.w).nbar ≤ k then .trap 0x18 rd.iss.lanes (barVal 0 k)
    else if rd.iss.lanes &&& ~~~((tget (t.barriers.getD k {}).ever rd.w.w).getD 0) != 0 then
      .trap 0x18 rd.iss.lanes (barVal 4 k)
    else .ok

def barwEff (k : Nat) (rd : Rd) (s : State) : State :=
  match teamOf s rd.w with
  | none => s
  | some t => if (t.barriers.getD k {}).waiting rd.w.w rd.iss.lanes then holdEff (.barw k rd.iss.lanes) rd s else s

def execBarw (f : Fields) (k : Nat) (s : State) : Result := withIssue (.barw f k) (barwChk k) (barwEff k) s

/-! ## Timed waits (R400) -/

def sleepEff (f : Fields) (sleep : Bool) (rd : Rd) (s : State) : State :=
  if scalar rd f.a = 0 then s else holdEff (.asleep (timens s + scalar rd f.a) sleep) rd s

def execSleepns (f : Fields) (s : State) : Result := withIssue (.sleepns f) noChk (sleepEff f true) s
def execWaitns (f : Fields) (s : State) : Result := withIssue (.waitns f) noChk (sleepEff f false) s

/-! ## Release of a held path -/

/-- The islands of a warp that are at retention voltage. -/
def retIslands (s : State) (w : Warp) : List Nat := w.islands.filter fun k => (s.island w.core w.room k).mode.isRet

/-- The island of a slice of a warp, by its number in the room. -/
def Warp.islandOf (w : Warp) (i : Nat) : Nat := (w.base + i) / 4

/-- The instant to which an island's wake keeps its lanes from issuing: at most 400 ns from now for one at retention voltage, what is
left of its wake for one on its way back, 0 for another (R401, R430). -/
def islandWake (s : State) (core room k : Nat) : Nat :=
  let i := s.island core room k
  if i.mode.isRet then timens s + Config.delay (s.fresh + k) % 401 else if timens s < i.wakeNs then i.wakeNs else 0

def State.modIsland (s : State) (core room k : Nat) (f : Island → Island) : State :=
  s.modCore core fun c => { c with islands := lmod c.islands (islandIx room k) f }

/-- Islands brought back from retention at the first release of a lane of a warp on them (R430). -/
def wakeIslands (s : State) (core room : Nat) (ks : List Nat) : State :=
  let ret := ks.filter fun k => (s.island core room k).mode.isRet
  if ret.isEmpty then s
  else
    let wake (s' : State) (k : Nat) : State :=
      let put (i : Island) : Island := { i with wakeNs := islandWake s core room k, waking := true }
      (s'.modIsland core room k put).soon (.islandExitRet core room k)
    { ret.foldl wake s with fresh := s.fresh + 4 }

/-- The hold that follows a release: none, or the wake (R398, R401). -/
def released (cycle ns code : Nat) : Hold := if cycle = 0 && ns = 0 then .none else .wake cycle ns code

/-- Whether the end of a hold waits for the island of its lanes: a wait in waitns is exact (R400). -/
def Hold.wakes : Hold → Bool
  | .asleep _ false => false
  | .none | .hook _ _ | .hookAll | .bar _ _ | .barw _ _ | .asleep _ true | .wake _ _ _ => true

/-- What is tested again at issue once a hold has ended (R394). -/
def Hold.again (h : Hold) : Hold :=
  match h with
  | .hook _ _ | .hookAll => h
  | .none | .bar _ _ | .barw _ _ | .asleep _ _ | .wake _ _ _ => .none

/-- What a hold that a test ends leaves: none, or the wake of its island. -/
def Hold.after (cyc ns : Nat) (ends : Hold → Option Nat) (h : Hold) : Hold :=
  match ends h with
  | some code => released cyc (if h.wakes then ns else 0) code
  | Option.none => h

/-- A slice whose holds a test ends; `ns` is its island's wake. -/
def Slice.release (cyc ns : Nat) (ends : Hold → Option Nat) (sl : Slice) : Slice :=
  let go (p : Path) : Path :=
    { p with hold := p.hold.after cyc ns ends, wait := if (ends p.hold).isSome then p.hold.again else p.wait }
  sl.mapPaths go

/-- The instant to which the islands of a warp that wake keep it from issuing: a warp on several counts only where each would let it
(R429, log 76). -/
def warpWake (s : State) (w : Warp) : Nat := w.islands.foldl (fun n k => max n (islandWake s w.core w.room k)) 0

/-- The islands of a warp of which a test ends a hold that the wake delays: all of them, as it issues nothing while one is at retention
voltage (R429, R430, log 76). -/
def releasedOn (w : Warp) (ends : Hold → Option Nat) : List Nat :=
  let hit (sl : Slice) : Bool := (sl.paths ++ sl.waits.map Prod.snd).any fun x => (ends x.hold).isSome && x.hold.wakes
  if w.slices.any hit then w.islands else []

/-- The paths of a warp whose hold a test ends, released; `cyc` is the first clock cycle in which they may issue. Holds saved in the
Attic resume after rte (R409), but a phase that completes ends them there too (R398). -/
def releasePaths (s : State) (w : Warp) (cyc : Nat) (saved : Bool) (ends : Hold → Option Nat) : State :=
  let go (_ : Nat) (sl : Slice) : Slice := sl.release cyc (warpWake s w) ends
  let w' := w.mapSlices go
  let s' := s.putWarp (if saved then w'.mapSaved go else w')
  wakeIslands s' w.core w.room (releasedOn w ends)

/-- Whether a hook hold is met (R394), with the code it counted. -/
def Warp.waitMet (w : Warp) (h : Hold) : Option Nat :=
  match h with
  | .hook n limit => if w.hookCount n ≤ limit then some 3 else none
  | .hookAll => if w.hooksZero then some 3 else none
  | .none | .bar _ _ | .barw _ _ | .asleep _ _ | .wake _ _ _ => none

/-- Whether a wait tested again at issue is met by the counts committed by the end of the previous clock cycle (R394). -/
def Warp.waitHolds (w : Warp) (h : Hold) : Bool :=
  match h with
  | .hook n limit => limit < w.hooksSeen.getD n 0
  | .hookAll => w.hooksSeen.any (· ≠ 0)
  | .none | .bar _ _ | .barw _ _ | .asleep _ _ | .wake _ _ _ => false

/-- The paths that wait on hooks, as these stood at the end of the previous clock cycle (R394). -/
def execWaitRelease (wid : Nat) (s : State) : Result :=
  match s.warp? wid with
  | none => .next s
  | some w => .next (releasePaths s w 0 false w.waitMet)

/-- Whether a timed wait is over (R400). -/
def sleepOver (ns : Nat) (h : Hold) : Option Nat :=
  match h with
  | .asleep til _ => if til ≤ ns then some 11 else none
  | .none | .hook _ _ | .hookAll | .bar _ _ | .barw _ _ | .wake _ _ _ => none

def execTimedWaitExpiry (wid : Nat) (s : State) : Result :=
  match s.warp? wid with
  | none => .next s
  | some w => .next (releasePaths s w 0 false (sleepOver (timens s)))

/-! ## The settle point (R393) -/

/-- Whether a warp has reached the settle point of the syllable issued under an identity: every earlier fixed-latency result has
landed, and every earlier scratchpad access was performed in an earlier clock cycle. -/
def Warp.settled (w : Warp) (seq cycle : Nat) : Bool :=
  !(w.flight.any fun f => f.seq < seq)
    && !(w.attic.any fun a => a.flights.any fun f => f.seq < seq)
    && !(w.scr.any fun a => a.seq < seq)
    && !(w.scrDone.any fun d => d.1 < seq && d.2 = cycle)

def Settle.seq : Settle → Nat
  | .arrive n _ _ => n
  | .credit n _ _ _ => n

/-- An arrival counted (R397): the first in a phase opens it. -/
def Barrier.countIn (b : Barrier) (seq : Nat) : Barrier :=
  let one (a : Arrival) : Arrival := if a.seq = seq then { a with counted := true } else a
  { b with
    record := b.record.map one
    e := if b.isOpen then b.e else match b.record.find? fun a => a.seq = seq with
      | some a => a.count
      | none => b.e
    isOpen := true }

/-- Credit on its way to a hook. -/
def Warp.sendCredit (w : Warp) (hook cycle n : Nat) : Warp :=
  { w with hooks := lmod w.hooks hook fun k => { k with coming := k.coming ++ [(cycle, n)] } }

/-- The test of a barrier's phase at the end of the clock cycle (R397). -/
def endPhase (s : State) (tid k : Nat) : State := { s with agenda := s.agenda ++ [.barrierRelease tid k] }

/-- A settle point reached. -/
def settleDo (s : State) (w : Warp) (x : Settle) : State :=
  let drop (v : Warp) : Warp := { v with settles := v.settles.filter fun y => y.seq != x.seq }
  match x with
  | .arrive seq k drain =>
    if drain && !w.hooksZero then s
    else endPhase ((s.modWarp w.wid drop).modTeam w.team fun t => t.modBar k fun b => (b.touch s t w.core).countIn seq) w.team k
  | .credit _ target hook n =>
    let s := s.modWarp w.wid drop
    match s.warp? target with
    | none => s
    | some t =>
      let c := coreCycle s w.core
      if t.ended then s
      else if t.core = w.core then
        (s.putWarp (t.sendCredit hook c n)).soon (.hookCreditCommit target hook n)
      else s.putWarp (t.sendCredit hook (c + 4) n)

/-- The settle point of one syllable of a warp, once it is reached. -/
def execSettlePoint (wid seq : Nat) (s : State) : Result :=
  match s.warp? wid with
  | none => .next s
  | some w =>
    match w.settles.find? fun x => x.seq = seq with
    | none => .next s
    | some x => .next (if w.settled seq (coreCycle s w.core) then settleDo s w x else s)

/-- One entry of a list removed. -/
def eraseOne (c n : Nat) : List (Nat × Nat) → List (Nat × Nat)
  | [] => []
  | p :: ps => if p.1 ≤ c && p.2 = n then ps else p :: eraseOne c n ps

/-- Credit committed to a hook (R395); that of a warp that has ended is discarded. -/
def HookSt.commit (k : HookSt) (c n : Nat) : HookSt :=
  if k.coming.any fun p => p.1 ≤ c && p.2 = n then
    { k with coming := eraseOne c n k.coming, credit := k.credit + n, promised := k.promised - n }
  else k

def execHookCreditCommit (wid h n : Nat) (s : State) : Result :=
  match s.warp? wid with
  | none => .next s
  | some w =>
    let c := coreCycle s w.core
    let put (k : HookSt) : HookSt := k.commit c n
    if w.ended then .next s
    else .next (dropSoon (s.putWarp { w with hooks := lmod w.hooks h put }) wid)

/-! ## Completion of a phase (R397, R398) -/

/-- A completed phase: the arrivals counted in it leave the record. -/
def Barrier.complete (b : Barrier) : Barrier :=
  { b with phase := b.phase + 1, isOpen := false, record := b.record.filter fun a => !a.counted }

/-- Whether a hold at a barrier ends, for lanes that no longer wait in its record. -/
def barOver (b : Barrier) (w k : Nat) (h : Hold) : Option Nat :=
  match h with
  | .bar k' lanes | .barw k' lanes => if k' = k && !b.waiting w lanes then some 4 else none
  | .none | .hook _ _ | .hookAll | .asleep _ _ | .wake _ _ _ => none

/-- The warps held at a barrier released: in the clock cycle after completion on the core where the phase completed, 4 clock cycles
later on the partner core. -/
def releaseBar (s : State) (t : Team) (b : Barrier) (k : Nat) : State :=
  s.warps.foldl (fun s e =>
    if e.2.team = t.tid && !e.2.ended then
      releasePaths s e.2 (if e.2.core = b.core then 0 else coreCycle s e.2.core + 5) true (barOver b e.2.w k)
    else s) s

/-- The open phase of a barrier completed, if it has enough arrivals. -/
def execBarrierRelease (tid k : Nat) (s : State) : Result :=
  match s.team? tid with
  | none => .next s
  | some t =>
    let b := t.barriers.getD k {}
    if b.met s t then
      let done := b.complete
      .next (releaseBar (s.modTeam tid fun t => t.modBar k fun _ => done) t done k)
    else .next s

end Sys2Proof.Machine
end

