-- ==== Sys2Proof/Machine/System.lean ====
section
/-! DEFINITION. trap, rte, sysc, the control registers (R412 to R418) and knock (R402). -/

namespace Sys2Proof.Machine

/-! ## trap and rte -/

/-- trap raises cause 14 in its enabled lanes, once its bundle has issued (R415). -/
def trapEff (f : Fields) (n : Half) (rd : Rd) (s : State) : State :=
  let en := enabled rd f
  if en = 0 then s
  else
    let t : TrapDue := { cause := 0x14, cls := 1, pc := BitVec.ofNat 64 rd.iss.pc, lanes := en, val := n.setWidth 64,
                         seq := s.nextId, tick := rd.iss.tick + 1 }
    (s.putWarp (rd.w.post t)).bump

def execTrap (f : Fields) (n : Half) (s : State) : Result := withIssue (.trap f n) noChk (trapEff f n) s

/-- rte outside a handler faults; inside one it waits for the handler's own results and scratchpad accesses (R412). -/
def rteChk (rd : Rd) : Pre :=
  if !rd.w.csr.trstat.getLsbD 0 then .trap 0x0C rd.iss.lanes 0
  else if !rd.old.flight.isEmpty || rd.w.scr.any (fun a => a.seq < rd.iss.seq0) then .hold 1
  else .ok

/-- rte ends the handler for the whole warp; the slices of its bundle are replaced by the restored ones. -/
def rteEff (rd : Rd) (s : State) : State :=
  let w := rd.w.leaveTrap rd.iss.tick rd.iss.gap (coreCycle s rd.w.core) (BitVec.ofNat 64 rd.iss.pc)
  { s.putWarp w with issuing := match s.issuing with
    | iss :: rest => { iss with ctl := true, slices := [] } :: rest
    | [] => [] }

def execRte (f : Fields) (s : State) : Result := withIssue (.rte f) rteChk rteEff s

/-! ## sysc (R416) -/

/-- The lowest enabled lane, as a list. -/
def leadLane (rd : Rd) (f : Fields) : List Nat := (lanesOf (enabled rd f)).take 1

/-- Service 0: the icinv of the lowest enabled lane, on every core. -/
def icbEff (f : Fields) (hook : Nat) (rd : Rd) (s : State) : State :=
  let rs := (leadLane rd f).filterMap (icRange rd f)
  let ctx := ctxOf s rd.w
  let w := rd.w.raise hook (hookItem rd s (.regs 1023 0) (enabled rd f) (some s.base))
  ({ s with cores := s.cores.map fun c => icFilter c ctx rs }.putWarp w).bump

def execSyscIcb (f : Fields) (hook : Nat) (s : State) : Result :=
  withIssue (.syscIcb f hook) (fun rd => icChk (leadLane rd f) f rd) (icbEff f hook) s

/-- Services 1 to 255: a request to sv4, answered from outside. -/
def syscEff (f : Fields) (n hook : Nat) (rd : Rd) (s : State) : State :=
  let id := s.nextId
  let s := (s.putWarp (rd.w.raise hook (hookItem rd s (.regs f.d.num 1) (enabled rd f) (doneIfNone rd f s)))).bump
  match leadLane rd f with
  | [] => s
  | l :: _ =>
    let op : Op := { id := id, wid := rd.w.wid, hook := hook, core := rd.w.core, ctx := ctxOf s rd.w,
                     kind := .sysc n (val32 rd f.a l).toNat (val32 rd f.b l).toNat }
    { s with ops := tset s.ops id op }

def execSysc (f : Fields) (n hook : Nat) (s : State) : Result := withIssue (.sysc f n hook) noChk (syscEff f n hook) s

/-- An item of hooked work finished, with what is written when the hook drops past it. -/
def finishItem (s : State) (wid hook id : Nat) (res : List LaneRes) (fault : Option TrapDue) : State :=
  let fin (i : HookItem) : HookItem := { i with fin := some s.base, res := res, fault := fault }
  s.modWarp wid fun w => w.modItem hook id fin

/-- The item of a piece of hooked work. -/
def itemOf (s : State) (o : Op) : Option HookItem :=
  (s.warp? o.wid).bind fun w => (w.hook o.hook).items.find? fun i => i.id = o.id

/-- The reply of a firmware service, written to every enabled lane (R416). The request waits while sv4 restarts (R83). -/
def execSyscReply (op : Nat) (v : Word) (s : State) : Result :=
  match tget s.ops op with
  | none => .next s
  | some o =>
    if !s.svUp 4 then .next (s.later 1250 (.syscReply op v))
    else match o.kind, itemOf s o with
    | .sysc _ _ _, some it => .next ((finishItem s o.wid o.hook op ((lanesOf it.lanes).map fun l => res1 l v 63) none).delOp op)
    | _, _ => .next s

/-! ## Control registers (R417, R418) -/

/-- The value csrr returns: the register as it stood at the end of the previous clock cycle; SYSHAND is hidden in user mode. -/
def csrVal (rd : Rd) (r : Csr) : Dword :=
  if r = .syshand && !rd.w.csr.system then 0 else rd.w.csrSeen.get r refwinVal

/-- A write to SYSHAND in user mode faults. -/
def csrChk (f : Fields) (r : Csr) (rd : Rd) : Pre :=
  if r = .syshand && !rd.w.csr.system && enabled rd f != 0 then .trap 0x0C (enabled rd f) 0x018 else .ok

def csrrRes (w64 : Bool) (v : Dword) (l : Nat) : LaneRes := if w64 then res2 l v else res1 l (loWord v) 63

def csrrEff (f : Fields) (w64 : Bool) (r : Csr) (rd : Rd) (s : State) : State :=
  let en := enabled rd f
  launchFlight rd (.regs f.d.num (if w64 then 2 else 1)) en 3 ((lanesOf en).map (csrrRes w64 (csrVal rd r))) s

def execCsrr (f : Fields) (w64 : Bool) (csr : Csr) (s : State) : Result :=
  withIssue (.csrr f w64 csr) noChk (csrrEff f w64 csr) s

/-- A write that commits in the clock cycle in which the warp reaches the next tick. -/
def csrwEff (f : Fields) (w64 : Bool) (r : Csr) (rd : Rd) (s : State) : State :=
  match leadLane rd f with
  | [] => s
  | l :: _ =>
    let v : Dword := if w64 then val64 rd f.a l else (val32 rd f.a l).setWidth 64
    s.modWarp rd.w.wid fun w => { w with csrPend := w.csrPend ++ [(rd.iss.tick + 1, r, v)] }

def execCsrw (f : Fields) (w64 : Bool) (csr : Csr) (s : State) : Result :=
  withIssue (.csrw f w64 csr) (csrChk f csr) (csrwEff f w64 csr) s

def execCsrx (f : Fields) (w64 : Bool) (csr : Csr) (s : State) : Result :=
  withIssue (.csrx f w64 csr) (csrChk f csr) (fun rd s => csrwEff f w64 csr rd (csrrEff f w64 csr rd s)) s

/-! ## knock (R402) -/

/-- Whether a number names a peer to which there is a route (R347, R349, R360). -/
def reaches (s : State) (dev : Nat) : Bool :=
  if dev < s.podsize then dev = s.devid || !s.peersLost.contains dev || (tget s.routes (64 * s.devid + dev)).isSome
  else 16 ≤ dev && dev < 64 && (tget s.peerTable dev).isSome

/-- n of R351. -/
def keyTime (s : State) : Nat := timens s / 2 ^ 20 % 2 ^ 13

/-- The low 32 bits of the MAC of a knock (R68). -/
def knockMac (key : BitVec 128) (low96 src : Nat) : Nat := (sipHash key 16 (low96 % 2 ^ 96 + src % 64 * 2 ^ 96)).toNat % 2 ^ 32

/-- A knock made by this device (R68, R80, R402). -/
def makeKnock (s : State) (key : BitVec 128) (tail qid : Nat) : BitVec 128 :=
  let low := tail % 2 ^ 32 + qid % 1024 * 2 ^ 32 + (keyTime s + 8) % 2 ^ 13 * 2 ^ 48
  BitVec.ofNat 128 (low + knockMac key low s.devid * 2 ^ 96)

def knockKeyAt (ctx dev qid : Nat) : Nat := (ctx * 64 + dev) * 1024 + qid

def knockChk (f : Fields) (rd : Rd) : Pre :=
  let dev := scalar rd f.a
  let qid := scalar rd f.c
  if 1024 ≤ qid then .trap 0x09 rd.iss.lanes 0x70
  else if 64 ≤ dev || (tget rd.s.knockKeys (knockKeyAt (ctxOf rd.s rd.w) dev qid)).isNone then
    .trap 0x0C rd.iss.lanes (qid + 1024 * (dev % 64))
  else .ok

/-- 1 ms in base cycles (R360). -/
def timeout1ms : Nat := 1250000

/-- The ingress port under which a knock of this device itself arrives: above those of the fabric, and naming its work. -/
def ownPort (op : Nat) : Nat := 1024 + op

def knockEff (f : Fields) (hook : Nat) (rd : Rd) (s : State) : State :=
  let id := s.nextId
  let dev := scalar rd f.a
  let qid := scalar rd f.c
  let w := rd.w.raise hook (hookItem rd s (.regs 1023 0) rd.iss.lanes none)
  let op : Op := { id := id, wid := w.wid, hook := hook, core := w.core, ctx := ctxOf s w, kind := .knock dev }
  let bits := makeKnock s ((tget s.knockKeys (knockKeyAt (ctxOf s w) dev qid)).getD 0) (scalar rd f.b) qid
  let s := { s with ops := tset s.ops id op }.putWarp w |>.bump
  if !reaches s dev then s.later 1 (.remoteReplyArrival id [.reject 0 7])
  else if dev = s.devid then (s.later 1 (.knockArrival dev (ownPort id) bits)).later timeout1ms (.remoteTimeout id)
  else
    (s.emit dev (Frame.knock dev bits)).later timeout1ms (.remoteTimeout id)

def execKnock (f : Fields) (hook : Nat) (s : State) : Result := withIssue (.knock f hook) (knockChk f) (knockEff f hook) s

/-! ## Completion records and knocks (R76, R79, R80) -/

def Launch.craddr (l : Launch) : Nat := Packet.fld l.packet 480 64
def Launch.crkey (l : Launch) : Dword := BitVec.ofNat 64 (Packet.fld l.packet 544 64)
def Launch.cqdev (l : Launch) : Nat := Packet.fld l.packet 608 6
def Launch.cqid (l : Launch) : Nat := Packet.fld l.packet 614 10
def Launch.ctail (l : Launch) : Nat := Packet.fld l.packet 624 32

def State.event (s : State) (e : Sv4Event) : State := { s with events := s.events ++ [e] }

/-- A knock sent by the device: to its own doorbell, or out (R80). -/
def sendKnock (s : State) (dev : Nat) (bits : BitVec 128) : State :=
  if dev = s.devid then s.later 1 (.knockArrival dev 1023 bits)
  else s.emit dev (Frame.knock dev bits)

/-- The completion knock (R80); with no key for the queue there is none. -/
def completionKnock (s : State) (l : Launch) : State :=
  match tget s.cqKeys (l.cqdev * 1024 + l.cqid) with
  | none => s.event (.noKnock l.lid)
  | some k => sendKnock s l.cqdev (makeKnock s k l.ctail l.cqid)

/-- TRVAL of cause 15 (R360). -/
def rejectVal (reason dev win lane : Nat) : Nat := reason + 16 * dev + 1024 * win + 2 ^ 20 * lane

/-- The fault of an item of hooked work, taken when the hook drops past it (class H). -/
def itemFault (it : HookItem) (cause : Nat) (lanes : Lanes) (val : Nat) : TrapDue :=
  let r := it.dst.report
  { cause := cause, cls := 3, pc := it.pc, lanes := lanes, val := BitVec.ofNat 64 val, dst := r.1, bit := r.2.1, bitf := r.2.2.1,
    pair := r.2.2.2, seq := it.id, tick := 0 }

/-- A knock's work finished: applied, or rejected with a REASON (R402). -/
def knockDone (s : State) (o : Op) (dev : Nat) (reason : Option Nat) : State :=
  match itemOf s o with
  | none => s.delOp o.id
  | some it =>
    let lane := (lowLane it.lanes).getD 0
    (finishItem s o.wid o.hook o.id [] (reason.map fun r => itemFault it 0x15 it.lanes (rejectVal r dev 0 lane))).delOp o.id

end Sys2Proof.Machine
end

