-- ==== Sys2Proof/Machine/Home.lean ====
section
/-! DEFINITION. M-slot accesses at their homes and what follows (R246 to R254, R285 to R302, R376 to R383): performing a line,
the arrival of a load's data, the completion of a store, replacement, work-queue entries, walks and invalidations. -/

namespace Sys2Proof.Machine

/-! ## Order within a warp (R290, R383) -/

def overlaps (a n b m : Nat) : Bool := a < b + m && b < a + n

/-- The shadow bytes of an access. -/
def tagBytes (bytes : Nat) : Nat := (bytes + 3) / 4

/-- The virtual bytes of a lane that an access performs at one of its lines. -/
def MemOp.bytesAt (m : MemOp) (l : MemLane) (line : Nat) : Option (Nat × Nat) :=
  if line = 2 * (l.pa / 128) then some (l.va, m.bytes)
  else if l.sleaf.isSome && line = 2 * (l.spa / 128) + 1 then some (l.sva, tagBytes m.bytes)
  else none

/-- The ranges of virtual bytes an access performs at a set of its lines. -/
def MemOp.ranges (m : MemOp) (lines : List Nat) : List (Nat × Nat) :=
  lines.flatMap fun line => m.lanes.filterMap fun l => m.bytesAt l line

/-- Accesses that take part in the order of R290. -/
def MemKind.ordered : MemKind → Bool
  | .pref _ | .cellar => false
  | .load | .loadL1 | .loadTag | .store | .storeTag | .atomic _ _ => true

/-- Whether an older access of the warp still has bytes of these ranges to perform. -/
def olderFirst (s : State) (o : Op) (rs : List (Nat × Nat)) : Bool :=
  s.ops.any fun e => e.1 < o.id && e.2.wid == o.wid && (match e.2.kind with
    | .mem m => m.kind.ordered && (m.ranges m.todo).any fun r => rs.any fun q => overlaps r.1 r.2 q.1 q.2
    | _ => false)

/-! ## Replacement (R462) -/

/-- A line evicted (R248, R249, R381). -/
def execL2Eviction (line : Nat) (s : State) : Result := .next (evictLine s line)

/-! ## Reading at a home -/

/-- Who asks a home for an access: a warp, in the order of R445, or a request of another device at its ingress. -/
def Op.asker (s : State) (o : Op) : Asker :=
  ⟨o.ctx, match o.kind with
    | .knock src => linkPlace src
    | .copy _ | .matrix _ | .bsend _ | .brecv _ => enginePlace o.core
    | .mem _ | .fence _ _ | .wqdeq _ _ | .sysc _ _ _ | .remote _ | .record _ _ _ => warpPlace o.core (roomOf s o.wid) o.sec⟩

/-- The poisoned bytes among `n` from position `i` of a line, lowest first. -/
def poisonedFrom (s : State) (line i n : Nat) : List Nat := ((List.range n).map (i + ·)).filter fun k => poisonedAt s line k

/-- The poisoned blocks a set of byte ranges of a line touches. -/
def poisonBlocks (s : State) (line : Nat) (rs : List (Nat × Nat)) : Nat :=
  ([0, 1].filter fun b => poisonedAt s line (64 * b) && rs.any fun r => overlaps r.1 r.2 (64 * b) 64).length

/-- A whole line as it is read, with its undefined bytes. -/
def lineImage (s : State) (line : Nat) : BitVec 1024 := l2Data s line

/-- The L1 line of an address given up (R462). -/
def giveUpL1 (s : State) (o : Op) (va : Nat) : State :=
  s.modCore o.core fun c => { c with l1 := c.l1.filter fun x => !(x.ctx = o.ctx && x.va = va / 128) }

/-- An L1 line installed by the ldr or pref that missed (R246, R247, R381, R441). Another fill of the same line that came first has set
its read count and has its reads; the bytes and the lease are those of the latest fill, so that no later hit returns an older value
(R380, log 66). A line with poison is not filled, and an older copy of it is given up (R251, R380). -/
def fillL1 (s : State) (o : Op) (va line lease rc reads : Nat) : State :=
  if poisonedAt s line 0 || poisonedAt s line 64 then giveUpL1 s o va
  else
    let cr := match l1Find s o.core o.ctx va with
      | some x => (x.count, x.reads + reads)
      | none => (rc, reads)
    let l : L1Line := { ctx := o.ctx, va := va / 128, data := lineImage s line, undef := undefMask s line, fill := timens s,
                        lease := lease, count := cr.1, reads := cr.2 }
    let put (c : Core) : Core :=
      { c with l1 := l :: giveUp (c.l1.filter fun x => !(x.ctx = o.ctx && x.va = va / 128)) 512 (Config.victim s.fresh) }
    charge (raiseHorizon ((s.modCore o.core put).used) line lease) o.ctx 11 1

/-- Whether an access fills an L1 line for a lane's page. -/
def MemOp.fills (m : MemOp) (l : MemLane) : Bool :=
  l.leaf.ca ≠ 2 && (match m.kind with
    | .loadL1 => m.fillL1
    | .pref l1 => l1
    | .load | .loadTag | .store | .storeTag | .atomic _ _ | .cellar => false)

/-- Whether an access allocates at the lowest priority (R289). -/
def MemOp.low (m : MemOp) (l : Leaf) : Bool := m.stream || l.ca = 1

/-- One lane read at a line: its bytes under its page's attributes, or its poison. -/
def readLane (s : State) (line : Nat) (m : MemOp) (l : MemLane) (leaf : Leaf) (pa n va : Nat) (tag : Bool) :
    State × MemOp :=
  let bad := poisonedFrom s line (pa % 128) n
  let v := readBytes s m.reader line true (pa % 128) n
  let s := s.used
  if !bad.isEmpty && !leaf.zp then
    (s, { m with poisoned := m.poisoned ++ [(l.lane, va + (bad.headD 0 - pa % 128))] })
  else
    let m := { m with zr := m.zr || !bad.isEmpty }
    let m := if tag then { m with tagRes := m.tagRes ++ [(l.lane, v)] }
      else { m with results := m.results ++ [{ lane := l.lane, vals := loadVals m.bytes m.sx v }] }
    (s, m)

/-- The lanes of an access that read a line, ascending; the line is brought in under each lane's key. -/
def readLanes (s : State) (o : Op) (line : Nat) (tag : Bool) (m : MemOp) (key : Option (Bool × Nat)) : List MemLane → State × MemOp
  | [] => (s, m)
  | l :: ls =>
    let leaf := if tag then l.sleaf.getD l.leaf else l.leaf
    let k := some (leaf.enc, leaf.keyid)
    let s := if key = k then s else homeLine s line leaf.enc leaf.keyid (o.asker s) (m.low leaf)
    let pa := if tag then l.spa else l.pa
    let r := readLane s line m l leaf pa (if tag then tagBytes m.bytes else m.bytes) (if tag then l.sva else l.va) tag
    readLanes r.1 o line tag r.2 k ls

/-- What an ldr that has read a line at its home does to its core's L1, once for each virtual line of its lanes: a fill that counts
one read, or, where it fills none, an older copy given up (R247, R289, R380). -/
def ldrFills (s : State) (o : Op) (line : Nat) (m : MemOp) (ls : List MemLane) : State :=
  match m.kind with
  | .loadL1 => ((ls.map fun l => (l.va / 128, m.fills l)).eraseDups).foldl (fun s v =>
      if v.2 then fillL1 s o (128 * v.1) line m.lease m.rc 1 else giveUpL1 s o (128 * v.1)) s
  | .load | .loadTag | .store | .storeTag | .atomic _ _ | .pref _ | .cellar => s

/-- A prefetch at a line: it brings the line in and may fill the L1; one that meets poison has no effect (R251, R298), and a line
already in the L1 is left as it is. -/
def prefLine (s : State) (o : Op) (line : Nat) (m : MemOp) (ls : List MemLane) : State :=
  ls.foldl (fun s l =>
    if wouldPoison s line l.leaf.enc l.leaf.keyid then s
    else
      let s := homeLine s line l.leaf.enc l.leaf.keyid (o.asker s) (m.low l.leaf)
      if m.fills l && (l1Find s o.core o.ctx l.va).isNone then fillL1 s o l.va line m.lease 0 0 else s) s

/-! ## Writing at a home -/

/-- The bytes that a lane of a store writes into a line: position and value. -/
def storeBytes (m : MemOp) (tag : Bool) (l : MemLane) : List (Nat × Byte) :=
  if tag then (l.tags.zip (List.range l.tags.length)).map fun t => ((l.spa + t.2) % 128, t.1.setWidth 8)
  else bytesFrom (l.pa % 128) m.bytes l.data.toNat

/-- The attributes under which a lane's bytes are written. -/
def wattr (tag : Bool) (l : MemLane) : Bool × Nat × Bool :=
  let f := if tag then l.sleaf.getD l.leaf else l.leaf
  (f.enc, f.keyid, f.zp)

/-- The lanes whose bytes met a discarded block, with the lowest of those addresses (R252). -/
def lostLanes (tag : Bool) (lost : List Nat) (ws : MemLane → List (Nat × Byte)) (ls : List MemLane) : List (Nat × Nat) :=
  ls.filterMap fun l =>
    let base := if tag then l.sva else l.va
    ((ws l).zip (List.range 16)).findSome? fun w => if lost.contains (w.1.1 / 64) then some (l.lane, base + w.2) else none

/-- The lanes of one store that share their attributes, written to a line together (R288). -/
def storeGroup (s : State) (o : Op) (line : Nat) (tag : Bool) (m : MemOp) (a : Bool × Nat × Bool) (ls : List MemLane) : State × MemOp :=
  let low := ls.any fun l => m.low (if tag then l.sleaf.getD l.leaf else l.leaf)
  let r := homeWrite s line a.1 a.2.1 (o.asker s) low a.2.2 m.rc (ls.flatMap (storeBytes m tag))
  (r.s, { m with wct := max m.wct r.ctime, zw := m.zw || r.zw, poisoned := m.poisoned ++ lostLanes tag r.lost (storeBytes m tag) ls })

def storeLine (s : State) (o : Op) (line : Nat) (tag : Bool) (m : MemOp) (ls : List MemLane) : State × MemOp :=
  ((ls.map (wattr tag)).eraseDups).foldl
    (fun r a => storeGroup r.1 o line tag r.2 a (ls.filter fun l => wattr tag l = a)) (s, m)

/-- A line made ordinary by an atomic (R249). -/
def ordinary (s : State) (line : Nat) : State :=
  let plain (l : L2Line) : L2Line := { l with count := 0, spent := none }
  { s with l2 := tmod s.l2 line plain }

/-- One lane of an atomic at its home (R252, R292). -/
def atomLane (s : State) (o : Op) (line : Nat) (op : AOp) (ty : ATy) (m : MemOp) (l : MemLane) : State × MemOp :=
  let n := atyBytes ty
  let i := l.pa % 128
  let s := writeLine s line l.leaf.enc l.leaf.keyid (o.asker s) (m.low l.leaf)
  let bad := poisonedFrom s line i n
  let s := if bad.isEmpty then s else charge s o.ctx 13 1
  if !bad.isEmpty && !l.leaf.zp then
    (s.used, { m with poisoned := m.poisoned ++ [(l.lane, l.va + (bad.headD 0 - i))] })
  else
    let old := atomBytes s line i n
    let new := atomNew op ty old l.data.toNat l.cmp.toNat
    let ws := if atomWrites op old new then bytesFrom i n new else []
    let r := homePut s.used line o.ctx l.leaf.zp 0 ws (if bad.isEmpty then [] else [i / 64])
    (ordinary r.s line,
      { m with wct := max m.wct r.ctime, zr := m.zr || !bad.isEmpty, zw := m.zw || r.zw,
               results := m.results ++ [{ lane := l.lane, vals := loadVals n false old }] })

def atomLine (s : State) (o : Op) (line : Nat) (op : AOp) (ty : ATy) (m : MemOp) (ls : List MemLane) : State × MemOp :=
  ls.foldl (fun r l => atomLane r.1 o line op ty r.2 l) (s, m)

/-! ## An access at a home (R377, R378) -/

/-- One line of an access performed. -/
def performLine (s : State) (o : Op) (m : MemOp) (line : Nat) : State × MemOp :=
  let tag := line % 2 = 1
  let n := line / 2
  let ls := m.lanes.filter fun l => (m.bytesAt l line).isSome
  let s := match tget s.l2 n with
    | some l => if l.spent.any (· < s.base) then discardLine s n l else s
    | none => s
  match m.kind with
  | .load | .loadL1 | .loadTag =>
    let r := readLanes s o n tag m none ls
    let k := poisonBlocks r.1 n (ls.map fun l => if tag then (l.spa % 128, tagBytes m.bytes) else (l.pa % 128, m.bytes))
    let s := ldrFills (countRead r.1 n) o n m ls
    (if k = 0 then s else charge s o.ctx 13 k, r.2)
  | .store | .storeTag => storeLine s o n tag m ls
  | .atomic op ty => atomLine s o n op ty m ls
  | .pref _ => (prefLine s o n m ls, m)
  | .cellar => (s, m)

/-- What follows the last line of an access. -/
def lastLine (s : State) (o : Op) (m : MemOp) : State :=
  match m.kind with
  | .load | .loadL1 | .loadTag | .cellar => s.laterFree 1 (arrivalOf m o.id)
  | .store | .storeTag | .atomic _ _ => s.laterFree 1 (.storeCompletion o.id)
  | .pref _ => s.delOp o.id

/-- One line of an access performed at its home, its data and its shadow bytes there together (R378), after the older accesses of its
warp to the same bytes (R290). -/
def execHomeAccessPerform (op line : Nat) (s : State) : Result :=
  match tget s.ops op with
  | none => .next s
  | some o =>
    match o.kind with
    | .mem m =>
      let here := m.todo.filter fun c => c / 2 = line / 2
      if here.isEmpty then .next s
      else if m.kind.ordered && olderFirst s o (m.ranges here) then .next (s.later 1 (.homeAccessPerform op line))
      else
        let r := here.foldl (fun r c => performLine r.1 o r.2 c) (s, m)
        let m := { r.2 with todo := m.todo.filter fun c => !here.contains c }
        let s := trimL2 (r.1.modOp op fun o => { o with kind := .mem m })
        .next (if m.todo.isEmpty then lastLine s o m else s)
    | _ => .next s

/-! ## Completion (R251 to R254, R261, R285, R382) -/

/-- The values of an ldw, read from the cellar when its data arrives (R254). -/
def cellarLane (s : State) (m : MemOp) (l : MemLane) : MemOp :=
  let bad := ((List.range m.bytes).filter fun i => s.cellarPoison.contains ((l.pa + i) / 64))
  if !bad.isEmpty && !l.leaf.zp then { m with poisoned := m.poisoned ++ [(l.lane, l.pa + bad.headD 0)] }
  else
    let v := (List.range m.bytes).foldl (fun a i => a + (if bad.contains i then 0 else (cget s.cellar (l.pa + i)).toNat) * 256 ^ i) 0
    { m with zr := m.zr || !bad.isEmpty, results := m.results ++ [{ lane := l.lane, vals := loadVals m.bytes m.sx v }] }

def MemOp.fetched (m : MemOp) (s : State) : MemOp :=
  match m.kind with
  | .cellar => m.lanes.foldl (cellarLane s) m
  | .load | .loadL1 | .loadTag | .store | .storeTag | .atomic _ _ | .pref _ => m

/-- Tag bytes put in place of a load's tags; the odd register of a 64-bit load, the high word of an f64, takes 63 (R36). -/
def withTags (t : Nat) (vs : List (Word × Tag)) : List (Word × Tag) :=
  (vs.zip (List.range vs.length)).map fun v =>
    (v.1.1, if vs.length = 2 && v.2 = 1 then 63 else storeTag (BitVec.ofNat 6 (t / 256 ^ v.2)))

/-- The lanes of an access that failed, in ascending order, with their lowest poisoned addresses. -/
def MemOp.failed (m : MemOp) : List (Nat × Nat) :=
  (List.range 64).filterMap fun l =>
    (m.poisoned.filter fun p => p.1 = l).foldl (fun b p => match b with
      | none => some p
      | some q => some (if p.2 < q.2 then p else q)) none

/-- The values of the lanes that succeeded. -/
def MemOp.good (m : MemOp) : List (Nat × List (Word × Tag)) :=
  (m.results.filter fun r => !(m.poisoned.any fun p => p.1 = r.lane)).map fun r =>
    (r.lane, match m.tagRes.lookup r.lane with
      | some t => withTags t r.vals
      | none => r.vals)

/-- Each enabled lane's result, where it has one: its own, or under U the one evaluated (R124). -/
def MemOp.spreadRes (m : MemOp) : List LaneRes :=
  if m.uni then spread m.enabled m.good
  else m.good.filterMap fun r => if m.enabled.getLsbD r.1 then some { lane := r.1, vals := r.2 } else none

/-- The destination operands of a failed lane made undefined. -/
def Warp.killDst (w : Warp) (d : Dst) (lane : Nat) : Warp :=
  match d with
  | .regs n span => (List.range span).foldl (fun w k =>
      if n + k < 776 then { w with regs := tset w.regs (regKey (n + k) lane) ⟨0, 0xFFFFFFFF, 0, true⟩ } else w) w
  | .bits _ _ _ _ => w

/-- A warp with the results of an access written, and its item finished. -/
def Warp.complete (w : Warp) (o : Op) (m : MemOp) (it : HookItem) (fresh base : Nat) : Warp :=
  let rs := m.spreadRes
  let w := w.writeAll fresh it.dst rs
  let dead := (lanesOf it.lanes).filter fun l => !(rs.any fun r => r.lane = l)
  let w := dead.foldl (fun w l => w.killDst it.dst l) w
  let fault := match m.failed with
    | [] => none
    | p :: ps => some (itemFault it 0x16 (laneSet (p.1 :: ps.map Prod.fst)) p.2)
  let fin (i : HookItem) : HookItem := { i with fin := some base, zr := m.zr, zw := m.zw, fault := fault }
  (Warp.modItem w o.hook o.id fin)

/-- The largest completion time merged into WCT (R382). -/
def Warp.mergeWct (w : Warp) (t : Nat) : Warp :=
  { w with csr := { w.csr with wct := BitVec.ofNat 64 (max w.csr.wct.toNat t) } }

/-- The work of an access finished: its results, its completion time, its flags and fault for the drop. -/
def completeMem (s : State) (o : Op) (m : MemOp) : State :=
  match s.warp? o.wid, itemOf s o with
  | some w, some it => ((s.putWarp ((w.complete o m it s.fresh s.base).mergeWct m.wct)).delOp o.id).used
  | _, _ => s.delOp o.id

/-- The poisoned blocks of the cellar that an ldw reads, charged (R442). -/
def chargeCellar (s : State) (o : Op) (m : MemOp) : State :=
  match m.kind with
  | .cellar =>
    let bs := ((m.lanes.flatMap fun l => (List.range m.bytes).map fun i => (l.pa + i) / 64).eraseDups).filter s.cellarPoison.contains
    if bs.isEmpty then s else charge s o.ctx 13 bs.length
  | .load | .loadL1 | .loadTag | .store | .storeTag | .atomic _ _ | .pref _ => s

def execLoadDataArrival (op : Nat) (s : State) : Result :=
  match tget s.ops op with
  | some o => match o.kind with
    | .mem m => .next (completeMem (chargeCellar s o m) o (m.fetched s))
    | _ => .next s
  | none => .next s

def execStoreCompletion (op : Nat) (s : State) : Result :=
  match tget s.ops op with
  | some o => match o.kind with
    | .mem m => .next (completeMem s o m)
    | _ => .next s
  | none => .next s

/-- A reserved hatch entry filled by its load, with undefined elements where a lane failed (R259, R261). -/
def execHatchLoadEntryFill (op : Nat) (s : State) : Result :=
  match tget s.ops op with
  | some o => match o.kind with
    | .mem m =>
      let m := m.fetched s
      match s.warp? o.wid, m.hatch with
      | some w, some key =>
        .next (completeMem ((chargeCellar s o m).modTeam w.team fun t => t.fillEntry key op s.base m.spreadRes) o m)
      | _, _ => .next s
    | _ => .next s
  | none => .next s

/-! ## L1 leases, refresh windows, the cellar -/

/-- A line whose lease has ended is invalid (R246). -/
def execL1LeaseExpiry (core ctx line : Nat) (s : State) : Result :=
  let aged (l : L1Line) : Bool := l.ctx = ctx && l.va = line && l.fill + l.lease ≤ timens s
  .next (s.modCore core fun c => { c with l1 := c.l1.filter fun l => !aged l })

/-- A warp held by a refresh window goes on once the window has ended (R257). -/
def execRefreshWindowEnd (wid : Nat) (s : State) : Result :=
  .next (s.modWarp wid fun w => w.thaw fun y => match y with
    | .refresh ns => ns ≤ timens s
    | _ => false)

/-- Whether a launch of a context that holds a cellar range is placed (R255). -/
def cellarInUse (s : State) (off len : Nat) : Bool :=
  s.cellarWins.any fun v => overlaps v.base v.len off len && s.launches.any fun e => e.2.ctx = v.ctx && e.2.phase = .placing

/-- Blocks of the cellar a write touches, poisoned ones first treated as R252 does. -/
def cellarPut (s : State) (off : Nat) (data : List Byte) (zp : Bool) : State :=
  let n := data.length
  let blocks := (s.cellarPoison.filter fun b => overlaps (64 * b) 64 off n)
  let full (b : Nat) : Bool := off ≤ 64 * b && 64 * b + 64 ≤ off + n
  let lost := if zp then [] else blocks.filter fun b => !full b
  let cell := blocks.foldl (fun m b => if lost.contains b then m else csetN m (64 * b) 64 0) s.cellar
  let ws := ((List.range n).map (off + ·)).zip data
  { s with
    cellar := ws.foldl (fun m w => if lost.contains (w.1 / 64) then m else cset m w.1 w.2) cell
    cellarPoison := s.cellarPoison.filter fun b => !(blocks.contains b && !lost.contains b) }

/-- sv3 writes a cellar window at the request of a context that holds it, or waits while a launch that could read it is placed, or
while it is restarting (R83, R255). A range in no window of the context is not written. -/
def execCellarWrite (place : Nat × Nat) (data : List Byte) (s : State) : Result :=
  let ctx := place.1
  let off := place.2
  match s.cellarWins.find? fun v => v.ctx = ctx && v.base ≤ off && off + data.length ≤ v.base + v.len with
  | none => .next s
  | some v =>
    if !s.svUp 3 || cellarInUse s off data.length then .next { s with cellarReqs := s.cellarReqs ++ [(ctx, off, data)] }
    else .next (cellarPut s off data v.zp)

/-! ## Work-queue entries (R301, R302) -/

/-- The oldest waiting lane of a unit given its oldest entry. -/
def serveUnit (s : State) (n : Nat) : Nat → State
  | 0 => s
  | fuel + 1 =>
    match (s.wqUnits.getD n {}).waiters, (s.wqUnits.getD n {}).entries with
    | (op, l) :: ws, e :: es =>
      let s := { s with wqUnits := lmod s.wqUnits n fun u => { u with waiters := ws, entries := es } }
      let s := match tget s.ops op with
        | some o => match o.kind, s.warp? o.wid with
          | .wqdeq waiting got, some w =>
            let waiting := waiting.filter fun p => p.1 ≠ l
            let got := got ++ [{ lane := l, vals := entryVals e }]
            if waiting.isEmpty then
              (wqDone s w o.hook op (match itemOf s o with
                | some it => it.lanes
                | none => 0) got).delOp op
            else s.modOp op fun o => { o with kind := .wqdeq waiting got }
          | _, _ => s
        | none => s
      serveUnit s n fuel
    | _, _ => s

def execWqEntryArrival (unit : Nat) (s : State) : Result := .next (serveUnit s unit 1024)

/-! ## Walks and invalidations (R266 to R273) -/

/-- The cores of the requesters of a walk. -/
def walkCores (s : State) (k : Walk) : List Nat :=
  (k.reqs.filterMap fun r => match r with
    | .warp wid | .fetch wid => (s.warp? wid).map Warp.core
    | .op id => (tget s.ops id).map Op.core
    | .ingress => none).eraseDups

/-- A failed translation kept for a requester (R271, R272). -/
def keepFault (s : State) (ctx va reason level : Nat) (r : WalkReq) : State :=
  let e := (va / 65536, reason, level)
  match r with
  | .warp wid | .fetch wid => s.modWarp wid fun w => { w with walkRes := w.walkRes ++ [e] }
  | .op id => s.modOp id fun o => { o with walkRes := o.walkRes ++ [e] }
  | .ingress => { s with ingressRes := s.ingressRes ++ [(ctx, e)] }

/-- The pages a freeze waits for. -/
def Freeze.pages (f : Freeze) : List (Nat × Need) :=
  match f.why with
  | .walk ps => ps
  | .timed _ _ | .pop _ | .push _ | .line _ | .refresh _ => []

/-- A warp of which every page is translated: it goes on in the next clock cycle, at the tick it stands at (R270). -/
def Warp.walked (w : Warp) (cycle : Nat) : Warp :=
  let stop (f : Freeze) : Freeze := match f.why with
    | .walk _ => { f with why := .timed cycle true }
    | .timed _ _ | .pop _ | .push _ | .line _ | .refresh _ => f
  { w with freezes := w.freezes.map stop }

/-- A warp frozen for translations, once one of them may have come: pages that the die TLB has got meanwhile are copied, the others
asked for as its room has place, and with none left it goes on (R270). -/
def wakeWalker (s : State) (w : Warp) : State :=
  let ps := w.freezes.flatMap Freeze.pages
  let dies := pagesLeft s w ps true
  match pagesLeft s w ps false with
  | [] =>
    let w := w.walked (coreCycle s w.core)
    if dies.isEmpty then s.putWarp w else fillDie s w (dies.map Prod.fst)
  | left => askWalks (if dies.isEmpty then s else fillDie s w (dies.map Prod.fst)) w left

/-- A fetch whose walk has ended is asked for again. -/
def wakeReq (s : State) (r : WalkReq) : State :=
  match r with
  | .fetch wid => requestFetch s wid
  | .warp _ | .op _ | .ingress => s

/-- Warps frozen for translations looked at again, after a walk has ended: it may have been one of theirs, and its room may hold fewer
than 8 now (R270). -/
def wakeWalkers (s : State) : State :=
  s.warps.foldl (fun s e => match s.warp? e.1 with
    | some w => if (w.freezes.flatMap Freeze.pages).isEmpty then s else wakeWalker s w
    | none => s) s

/-- A walk ended, with its translation or its fault. -/
def endWalk (s : State) (k : Walk) (f : State → State) : State :=
  let s := f { s with walks := s.walks.filter fun x => x.id ≠ k.id }
  wakeWalkers (k.reqs.foldl wakeReq s)

def walkFault (s : State) (k : Walk) (reason level : Nat) : State :=
  endWalk s k fun s => k.reqs.foldl (fun s r => keepFault s k.ctx k.va reason level r) s

/-- A walk that meets a deferring entry sends sv3 the context, the virtual address and the access kind, and waits (R268). -/
def deferWalk (s : State) (k : Walk) : State :=
  let hold (x : Walk) : Walk := if x.id = k.id then { x with deferred := true } else x
  { s with walks := s.walks.map hold, deferReqs := s.deferReqs ++ [⟨k.id, k.ctx, k.va, k.need⟩] }

/-- A walk that reaches its end (R266, R268). -/
def execTlbWalkComplete (walk : Nat) (s : State) : Result :=
  match s.walks.find? fun k => k.id = walk with
  | none => .next s
  | some k =>
    let s := if k.deferred || 2 ^ 48 ≤ k.va then s
      else trimL2 (bringWalk s k.va (if k.retried then devCtx else k.ctx) 4 0 (s.ctx k.ctx).root).used
    if k.deferred then .next s
    else match Sys2Proof.Machine.walk s k.ctx k.va with
      | .leaf l => .next (endWalk s k fun s =>
          (walkCores s k).foldl (fun s c => coreTlbAdd s c k.ctx k.va l) (dieTlbAdd s k.die k.ctx k.va l))
      | .fault reason level => .next (walkFault s k reason level)
      | .defer => .next (deferWalk s k)

/-- Whether an entry lies in a range of a context. -/
def TlbEnt.inRange (e : TlbEnt) (ctx va len : Nat) : Bool :=
  e.ctx = ctx && overlaps (e.page * 2 ^ e.leaf.size) (2 ^ e.leaf.size) va len

/-- Whether an access translated in a range is still to be performed. -/
def opInRange (ctx va len : Nat) (o : Op) : Bool :=
  o.ctx = ctx && (match o.kind with
    | .mem m => !m.todo.isEmpty && m.kind != .cellar && m.lanes.any fun l => overlaps l.va m.bytes va len
        || (l.sleaf.isSome && overlaps l.sva (tagBytes m.bytes) va len)
    | _ => false)

/-- Failed translations kept for a requester, without those of a range: a walk that read a replaced entry restarts (R273). -/
def keepRes (va len : Nat) (rs : List (Nat × Nat × Nat)) : List (Nat × Nat × Nat) :=
  rs.filter fun r => !overlaps (65536 * r.1) 65536 va len

/-- A line buffer without the fault a fetch in a range has found. -/
def keepFetch (va len : Nat) (b : LineBuf) : Option LineBuf := if b.fault.isSome && overlaps b.va 64 va len then none else some b

/-- The walks of a context that wait for sv3 in a range started again from the first level, and what they have asked of sv3 taken back: an
entry they read may have been replaced (R273). One that only a request at the ingress waits for ends; that request walks again itself. -/
def restartWalks (s : State) (ctx va len : Nat) : State :=
  let hit (k : Walk) : Bool := k.deferred && k.ctx = ctx && overlaps (65536 * (k.va / 65536)) 65536 va len
  let ids := (s.walks.filter hit).map Walk.id
  let again (k : Walk) : Walk := if hit k then { k with deferred := false } else k
  let on := s.walks.filter fun k => !(hit k && k.reqs.all fun r => r == .ingress)
  let s' : State := { s with walks := on.map again, deferReqs := s.deferReqs.filter fun q => !ids.contains q.walk }
  (on.filter hit).foldl (fun s k => s.laterFree 3 (.tlbWalkComplete k.id)) s'

/-- The failed walks of a context in a range forgotten, with the fetches they failed, which begin again (R273). -/
def forgetWalks (s : State) (ctx va len : Nat) : State :=
  let slice (sl : Slice) : Slice := { sl with line := sl.line.bind (keepFetch va len) }
  let warp (w : Warp) : Warp := { w with walkRes := keepRes va len w.walkRes, slices := w.slices.map slice }
  let op (o : Op) : Op := if o.ctx = ctx then { o with walkRes := keepRes va len o.walkRes } else o
  let mine := s.warps.filter fun e => ctxOf s e.2 = ctx
  let s := { s with
    ops := s.ops.map fun e => (e.1, op e.2)
    ingressRes := s.ingressRes.filter fun r => !(r.1 = ctx && overlaps (65536 * r.2.1) 65536 va len) }
  restartWalks (mine.foldl (fun s e => requestFetch (s.modWarp e.1 warp) e.1) s) ctx va len

end Sys2Proof.Machine
end

