-- ==== Sys2Proof/Machine/Engine.lean ====
section
/-! DEFINITION. The matrix engine's operand classes (R321), its macros and tiles as they are read and written (R322, R323), and the
rows that a write to an operand of a multiplication in flight leaves undefined (R331). -/

namespace Sys2Proof.Machine

/-! ## Operand classes (R321) -/

/-- K rows of a macro. -/
def mcKl : MClass → Nat
  | .f16 => 256
  | .i4 | .i8 | .f4 | .f8 => 512
/-- Columns of a macro. -/
def mcNc : MClass → Nat
  | .i4 | .f4 => 256
  | .i8 | .f8 | .f16 => 128
/-- Bytes of a B row. -/
def mcRb : MClass → Nat
  | .f16 => 256
  | .i4 | .i8 | .f4 | .f8 => 128
/-- Bytes of an A row. -/
def mcRl : MClass → Nat
  | .i4 | .f4 => 256
  | .i8 | .f8 | .f16 => 512
def mcScaled : MClass → Bool
  | .f4 | .f8 => true
  | .i4 | .i8 | .f16 => false
/-- Whether the accumulator is f32. -/
def mcAcc32 : MClass → Bool
  | .f4 | .f8 | .f16 => true
  | .i4 | .i8 => false
/-- The width of an element. -/
def mcWidth : MClass → Nat
  | .i4 | .f4 => 4
  | .i8 | .f8 => 8
  | .f16 => 16
/-- The range of p. -/
def mcPOk (c : MClass) (p : Nat) : Bool :=
  match c with
  | .i4 => 2 ≤ p && p ≤ 4
  | .i8 => 2 ≤ p && p ≤ 8
  | .f4 => p = 4
  | .f8 => p = 8
  | .f16 => p = 16

/-! ## Macros (R322) -/

/-- Bits [8i + 7 : 8i] of the cells. -/
def Macro.byte (m : Macro) (i : Nat) : Byte := lineByte ((tget m.cells (i / 128)).getD 0) (i % 128)

/-- A byte of the cells written. -/
def Macro.setByte (m : Macro) (i : Nat) (b : Byte) : Macro :=
  { m with cells := tset m.cells (i / 128) (lineSet ((tget m.cells (i / 128)).getD 0) (i % 128) b) }

def Macro.setBytes (m : Macro) (i : Nat) : List Byte → Macro
  | [] => m
  | b :: bs => (m.setByte i b).setBytes (i + 1) bs

/-- Cell (k, n) of a macro, as its element's bits (R333). -/
def Macro.cell (m : Macro) (c : MClass) (k n : Nat) : Nat :=
  let row := k * mcRb c
  if mcWidth c = 4 then (m.byte (row + n / 2)).toNat / 16 ^ (n % 2) % 16
  else if mcWidth c = 8 then (m.byte (row + n)).toNat
  else (m.byte (row + 2 * n)).toNat + 256 * (m.byte (row + 2 * n + 1)).toNat

/-- Scale (j, n) of a macro. -/
def Macro.scale (m : Macro) (j n : Nat) : Nat := ((tget m.scales (256 * j + n)).getD 0x7F).toNat

/-! ## Tiles (R323) -/

/-- The accumulator of state ZERO. -/
def Tile.zeroCell (t : Tile) : RegCell := ⟨0, 0, if t.f32 then 62 else 63, false⟩

def Tile.cell (t : Tile) (r c : Nat) : RegCell := (tget t.acc (128 * r + c)).getD t.zeroCell

def Tile.set (t : Tile) (r c : Nat) (x : RegCell) : Tile := { t with acc := tset t.acc (128 * r + c) x }

/-- Rows whose accumulators and tags are undefined. -/
def Tile.taint (t : Tile) (r0 n : Nat) : Tile :=
  { t with acc := (List.range n).foldl (fun a i => (List.range t.cols).foldl
      (fun a c => tset a (128 * (r0 + i) + c) ⟨0, 0xFFFFFFFF, 0, true⟩) a) t.acc }

def Engine.macro' (e : Engine) (i : Nat) : Macro := e.macros.getD i {}
def Engine.tile (e : Engine) (i : Nat) : Tile := e.tiles.getD i {}
def Engine.modMacro (e : Engine) (i : Nat) (f : Macro → Macro) : Engine := { e with macros := lmod e.macros i f }
def Engine.modTile (e : Engine) (i : Nat) (f : Tile → Tile) : Engine := { e with tiles := lmod e.tiles i f }

/-- The engine that serves a warp: its core's, or that of its team's saved image (R344). -/
def engineOf (s : State) (w : Warp) : Engine :=
  match s.team? w.team with
  | some t => if t.place = .saved then (t.engines.lookup (w.core - t.core)).getD {} else (s.core w.core).engine
  | none => (s.core w.core).engine

def modEngine (s : State) (w : Warp) (f : Engine → Engine) : State :=
  match s.team? w.team with
  | some t =>
    if t.place = .saved then
      s.putTeam { t with engines := t.engines.map fun e => if e.1 = w.core - t.core then (e.1, f e.2) else e }
    else s.modCore w.core fun c => { c with engine := f c.engine }
  | none => s

/-! ## Operands written too early (R331) -/

/-- The operand registers of a multiplication. -/
def mmaOpnds : Instr → List Nat
  | .mma f _ _ _ _ _ => (List.range 8).map (f.a.num + ·) ++ (if f.b = .none then [] else [f.b.num])
  | _ => []

/-- Whether an operand of a multiplication was written after the mfence that precedes it. -/
def MatOp.spoiled (m : MatOp) (w : Warp) : Bool := (mmaOpnds m.ins).any fun n => (tget w.lastWr n).any (m.fenced < ·)

/-- What a drain gave made undefined: the registers it writes, whether it has written them yet or not, unless a later write has taken
their place, and the bytes it has put into scratchpad. -/
def spoilDrain (s : State) (d : Drained) : State :=
  match s.warp? d.wid with
  | none => s
  | some w =>
    let kill (w : Warp) (n : Nat) : Warp :=
      if tget w.lastWr n = some d.id then
        { w with regs := (List.range w.width).foldl (fun r l => tset r (regKey n l) ⟨0, 0xFFFFFFFF, 0, true⟩) w.regs } else w
    let free (n : Nat) (r : LaneRes) : LaneRes :=
      { r with vals := (List.range r.vals.length).map fun k => (Config.freeWord s.fresh (n + k) r.lane, Config.freeTag s.fresh (n + k) r.lane) }
    let item (n : Nat) (i : HookItem) : HookItem := if i.id = d.id then { i with res := i.res.map (free n) } else i
    let w := match d.opnd with
      | none => w
      | some n => (List.range 8).foldl (fun w k => kill w (n + k))
          { w with hooks := w.hooks.map fun h => { h with items := h.items.map (item n) } }
    let offs := d.put.flatMap fun r => (List.range r.2).map (r.1 + ·)
    (s.putWarp w).modTeam w.team fun t =>
      { t with scratch := offs.foldl (fun m off => cset m off (Config.freeByte s.fresh (2 ^ 64 + off))) t.scratch }

/-- What a multiplication has left in a tile made undefined: its rows, unless an operation has zeroed them since, and what drains have
taken from them meanwhile. -/
def spoilTile (s : State) (w : Warp) (id tile row0 : Nat) : State :=
  let y := (engineOf s w).tile tile
  let s := if y.zeroId < id then modEngine s w fun e => e.modTile tile fun t => t.taint row0 (w.width / 16) else s
  (y.drains.filter fun d => id < d.id && d.zeroId < id).foldl spoilDrain s

/-- The effects of a multiplication from registers left undefined, when one of its operands was written too early (R331). -/
def taintMma (s : State) (w : Warp) (id : Nat) (m : MatOp) : State :=
  match m.ins with
  | .mma _ at' tile _ row0 _ =>
    if m.performed && !m.tainted && m.fault.isNone && m.spoiled w then
      let s := spoilTile s w id tile row0
      let s := if (at'.mclass).any (fun c => mcNc c = 256) then spoilTile s w id (tile + 1) row0 else s
      (s.modOp id fun o => { o with kind := .matrix { m with tainted := true } }).used
    else s
  | _ => s

/-- Every multiplication of a warp that its hook has not dropped past, looked at again. -/
def taintAll (s : State) (w : Warp) : State :=
  s.ops.foldl (fun s e => match e.2.kind with
    | .matrix m => if e.2.wid = w.wid then taintMma s w e.1 m else s
    | _ => s) s

end Sys2Proof.Machine
end

