-- ==== Sys2Proof/Machine/Layout.lean ====
section
/-! DEFINITION. Layout records and row-list descriptors (R40 to R56, R315): their fields and checks, the rows of a window, where an
element lies in memory, in its block and in scratchpad, and its fill. -/

namespace Sys2Proof.Machine

/-! ## The record (R45) -/

/-- Word k of a record. -/
def recW (ws : List Word) (k : Nat) : Nat := (ws.getD k 0).toNat

/-- The fields of a layout record. -/
structure Layout where
  base : Nat
  etype : EType
  rank : Nat
  fillMode : Nat
  swz : Nat
  swzArg : Nat
  fill : Nat
  dims : List Nat
  strides : List Nat
  starts : List Int
  boxes : List Nat
  dest : Nat
  form : Nat
  otaddr : Nat
deriving DecidableEq, Repr

def layoutOf (ws : List Word) : Layout :=
  { base := recW ws 0 + 2 ^ 32 * recW ws 1
    etype := EType.ofCode (bits (recW ws 2) 0 4)
    rank := bits (recW ws 2) 4 3
    fillMode := bits (recW ws 2) 8 4
    swz := bits (recW ws 2) 12 4
    swzArg := bits (recW ws 2) 16 8
    fill := recW ws 3
    dims := (List.range 5).map fun k => recW ws (4 + k)
    strides := (List.range 5).map fun k => if k = 0 then 0 else recW ws (8 + k)
    starts := (List.range 5).map fun k => (ws.getD (13 + k) 0).toInt
    boxes := (List.range 5).map fun k => bits (recW ws (18 + k / 2)) (16 * (k % 2)) 16
    dest := bits (recW ws 21) 0 24
    form := bits (recW ws 22) 0 2
    otaddr := recW ws 22 / 64 * 64 + 2 ^ 32 * recW ws 23 }

/-- A window extent, 1 at or above RANK. -/
def Layout.box (y : Layout) (k : Nat) : Nat := if k < y.rank then y.boxes.getD k 1 else 1
def Layout.dim (y : Layout) (k : Nat) : Nat := if k < y.rank then y.dims.getD k 1 else 1
def Layout.start (y : Layout) (k : Nat) : Int := if k < y.rank then y.starts.getD k 0 else 0
def Layout.stride (y : Layout) (k : Nat) : Nat := if k < y.rank then y.strides.getD k 0 else 0
def Layout.ebits (y : Layout) : Nat := y.etype.bits

/-- Bytes of a window row before padding, and with it: P of R48. -/
def Layout.rowBytes (y : Layout) : Nat := (y.box 0 * y.ebits + 7) / 8
def Layout.pitch (y : Layout) : Nat := (y.rowBytes + 15) / 16 * 16
/-- P' of R49. -/
def Layout.pitch' (y : Layout) : Nat := if y.swz = 1 then y.pitch + 16 * y.swzArg else y.pitch
/-- The number of window rows. -/
def Layout.rows (y : Layout) : Nat := y.box 1 * y.box 2 * y.box 3 * y.box 4

/-- Whether a type has a NaN (R46). -/
def etHasNan : EType → Bool
  | .f16 | .bf16 | .f32 | .f64 | .e4m3 | .e5m2 | .sc8 => true
  | .s8 | .z8 | .s16 | .z16 | .s32 | .z32 | .e2m1 | .s4 => false

/-- Whether a SWZ argument violates R50. -/
def Layout.swzBad (y : Layout) : Bool :=
  y.swz = 2 && (!([1, 2, 4, 8, 16, 32, 64, 128].contains y.swzArg) || (y.pitch / 16) % y.swzArg ≠ 0)

/-- Whether word k of a record fails R46, for an allocation of `alloc` bytes. BASE spans words 0 and 1; which of them fails beside an
OTADDR is not in the spec: here the ones that are not 0 (DESIGN CHOICE, log 42). -/
def recBad (ws : List Word) (alloc k : Nat) : Bool :=
  let y := layoutOf ws
  let w := recW ws k
  let below (d : Nat) : Bool := d < y.rank
  let box (d : Nat) : Bool := if below d then y.boxes.getD d 0 = 0 else y.boxes.getD d 0 ≠ 0
  if k = 0 then w % 16 ≠ 0 || (w ≠ 0 && y.otaddr ≠ 0)
  else if k = 1 then w ≠ 0 && y.otaddr ≠ 0
  else if k = 2 then
    bits w 0 4 = 15 || y.rank = 0 || 5 < y.rank || bits w 7 1 ≠ 0 || 3 < y.fillMode || 3 < y.swz
      || (y.swz = 0 && y.swzArg ≠ 0) || bits w 24 8 ≠ 0 || (y.fillMode = 3 && !etHasNan y.etype) || y.swzBad
  else if k = 3 then false
  else if k < 9 then (if below (k - 4) then w = 0 else w ≠ 0)
  else if k < 13 then (if below (k - 8) then w = 0 || w % 16 ≠ 0 else w ≠ 0)
  else if k < 18 then !below (k - 13) && w ≠ 0
  else if k = 18 then box 0 || box 1
  else if k = 19 then box 2 || box 3
  else if k = 20 then box 4 || bits w 16 16 ≠ 0
  else if k = 21 then y.dest % 16 ≠ 0 || bits w 24 8 ≠ 0 || alloc < y.dest + y.pitch' * y.rows
  else if k = 22 then 1 < y.form || bits w 2 4 ≠ 0
  else false

/-- The lowest failing word of a record (R46). -/
def recFault (ws : List Word) (alloc : Nat) : Option Nat := (List.range 24).find? (recBad ws alloc)

/-- Whether a window moves at half the rate by its own base and strides (R52). -/
def Layout.slowStride (y : Layout) : Bool := (List.range 4).any fun k => k + 1 < y.rank && y.stride (k + 1) % 128 ≠ 0
def Layout.slow (y : Layout) : Bool := y.slowStride || (y.otaddr = 0 && y.base % 128 ≠ 0)

/-! ## Elements (R40, R47 to R49) -/

/-- j1 to j4 of a window row (R48). -/
def Layout.rowIx (y : Layout) (q : Nat) : List Nat :=
  [q % y.box 1, q / y.box 1 % y.box 2, q / (y.box 1 * y.box 2) % y.box 3, q / (y.box 1 * y.box 2 * y.box 3)]

/-- The coordinates of element j0 of row q. -/
def Layout.coord (y : Layout) (q j0 : Nat) : List Int :=
  (List.range 5).map fun k => y.start k + ((j0 :: y.rowIx q).getD k 0 : Nat)

/-- Whether coordinates lie in the tensor. -/
def Layout.inside (y : Layout) (c : List Int) : Bool :=
  (List.range 5).all fun k => 0 ≤ c.getD k 0 && c.getD k 0 < (y.dim k : Int)

/-- Coordinates brought to the nearest element. -/
def Layout.clamped (y : Layout) (c : List Int) : List Nat :=
  (List.range 5).map fun k => (clampI 0 ((y.dim k : Int) - 1) (c.getD k 0)).toNat

/-- The coordinates whose element a window element takes, if it takes one (R47). -/
def Layout.source (y : Layout) (q j0 : Nat) : Option (List Nat) :=
  let c := y.coord q j0
  if y.inside c || y.fillMode = 2 then some (y.clamped c) else none

/-- Byte of dimension 0, and the nibble for 4-bit types (R40). -/
def Layout.off0 (y : Layout) (i : Nat) : Nat := i * y.ebits / 8
def Layout.nib (y : Layout) (i : Nat) : Option Nat := if y.ebits = 4 then some (i % 2) else none

/-- The bits of a fill (R47). -/
def Layout.fillBits (y : Layout) : Nat :=
  if y.fillMode = 1 then
    (if y.etype = .f64 then (fmtF64.ofFv .rn false false (fmtF32.decode y.fill)).code else y.fill % 2 ^ y.ebits)
  else if y.fillMode = 3 then
    (match fmtOf y.etype with
      | some f => f.nan
      | none => 0xFF)
  else 0

/-- The byte of a row at which element j0 begins, moved by SWZ (R48, R49): its scratchpad offset. -/
def Layout.place (y : Layout) (q b : Nat) : Nat :=
  let c := b / 16
  let c' := if y.swz = 2 then c ^^^ (q % y.swzArg) else if y.swz = 3 then (c + q * y.swzArg) % (y.pitch / 16) else c
  y.dest + q * y.pitch' + 16 * c' + b % 16

/-- The elements from j0 on that one unit moves: to the next 128 bytes of dimension 0, to the end of a block, and to the end of the
row. -/
def Layout.run (y : Layout) (j0 blk0 : Nat) : Nat :=
  let i : Int := y.start 0 + (j0 : Int)
  let per : Int := ((1024 / y.ebits : Nat) : Int)
  let b : Int := (blk0 : Int)
  let i' : Int := if 0 ≤ i && 0 < b then i % b else i
  let n1 := (per - i' % per).toNat
  let n2 := if 0 < b && 0 ≤ i then (b - i').toNat else if i < 0 then (-i).toNat else n1
  min (y.box 0 - j0) (max 1 (min n1 n2))

/-! ## Owner tables (R53 to R56) -/

/-- NB of a dimension. -/
def nbOf (dim blk : Nat) : Nat := (dim + blk - 1) / blk

/-- A converted or native table: BLK0 to BLK4, the address of the first entry or key, whether it holds AK-3 keys, CBASE, and SHARD0
to SHARD4. -/
def tableOf (blk : List Nat) (first ak3 cbase : Nat) (shard : List Nat) : List Nat := blk ++ [first, ak3, cbase] ++ shard

def tblBlk (t : List Nat) (k : Nat) : Nat := t.getD k 1
def tblFirst (t : List Nat) : Nat := t.getD 5 0
def tblAk3 (t : List Nat) : Bool := t.getD 6 0 = 1
def tblCbase (t : List Nat) : Nat := t.getD 7 0
def tblShard (t : List Nat) (k : Nat) : Nat := t.getD (8 + k) 1

/-- The table of a native header of 32 bytes, if it satisfies R53. -/
def nativeTable (y : Layout) (h : Nat) : Option (List Nat) :=
  let blk := (List.range 5).map fun k => bits h (32 * k) 32
  let ok := (List.range 5).all fun k => if k < y.rank then blk.getD k 0 ≠ 0 else blk.getD k 0 = 1
  let n := (List.range 5).foldl (fun p k => p * nbOf (y.dim k) (max 1 (blk.getD k 1))) 1
  if ok && bits h 160 32 = n && n ≤ 65536 && bits h 192 64 = 0 && (y.ebits ≠ 4 || blk.getD 0 1 % 2 = 0) then
    some (tableOf blk (y.otaddr + 32) 0 0 [])
  else none

/-- The table that an AK-3 header of 16 bytes converts to, if it satisfies R55 and R53. -/
def shardTable (y : Layout) (h : Nat) : Option (List Nat) :=
  let sh := (List.range 5).map fun k => bits h (8 * k) 8
  let ok := (List.range 5).all fun k => if k < y.rank then 1 ≤ sh.getD k 0 && sh.getD k 0 ≤ 64 else sh.getD k 0 = 1
  let n := sh.foldl (· * ·) 1
  let blk := (List.range 5).map fun k => nbOf (y.dim k) (max 1 (sh.getD k 1))
  let cbase := bits h 64 64
  if ok && n ≤ 4096 && bits h 40 24 = 0 && cbase % 16 = 0 && (y.ebits ≠ 4 || blk.getD 0 1 % 2 = 0) then
    some (tableOf blk (y.otaddr + 16) 1 cbase sh)
  else none

/-- The number of the block that holds an element (R53). -/
def blockOf (y : Layout) (t : List Nat) (c : List Nat) : Nat :=
  ((List.range 5).reverse).foldl (fun b k => b * nbOf (y.dim k) (tblBlk t k) + c.getD k 0 / tblBlk t k) 0

/-- The address of a block's entry, or of its latchkey, with its bytes (R53, R55, R56). -/
def entryAddr (t : List Nat) (b : Nat) (c : List Nat) : Nat × Nat :=
  if tblAk3 t then
    let s := ((List.range 5).reverse).foldl (fun n k => n * tblShard t k + c.getD k 0 / tblBlk t k) 0
    (tblFirst t + 8 * s, 8)
  else (tblFirst t + 16 * b, 16)

/-- The address of an element: of a local tensor, or in its block. -/
def elemAddr (y : Layout) (t : Option (List Nat)) (base : Nat) (c : List Nat) : Nat :=
  let m (k : Nat) : Nat := match t with
    | some t => c.getD k 0 % tblBlk t k
    | none => c.getD k 0
  base + y.off0 (m 0) + m 1 * y.stride 1 + m 2 * y.stride 2 + m 3 * y.stride 3 + m 4 * y.stride 4

/-! ## Row lists (R315) -/

structure RowList where
  base : Nat
  stride : Nat
  rowb : Nat
  count : Nat
  idx : Nat
  data : Nat
  limit : Nat
deriving DecidableEq, Repr

def rowListOf (ws : List Word) : RowList :=
  { base := recW ws 0 + 2 ^ 32 * recW ws 1, stride := recW ws 2, rowb := bits (recW ws 3) 0 16, count := bits (recW ws 4) 0 16,
    idx := recW ws 5, data := recW ws 6, limit := recW ws 7 }

/-- The lowest failing word of a row-list descriptor. -/
def rowListFault (ws : List Word) (alloc : Nat) : Option Nat :=
  let r := rowListOf ws
  let bad (k : Nat) : Bool :=
    if k = 0 then recW ws 0 % 16 ≠ 0
    else if k = 2 then r.stride % 16 ≠ 0
    else if k = 3 then r.rowb < 16 || 4096 < r.rowb || r.rowb % 16 ≠ 0 || bits (recW ws 3) 16 16 ≠ 0
    else if k = 4 then bits (recW ws 4) 16 16 ≠ 0
    else if k = 5 then r.idx % 4 ≠ 0 || (0 < r.count && alloc < r.idx + 4 * r.count)
    else if k = 6 then r.data % 16 ≠ 0 || (0 < r.count && alloc < r.data + r.count * r.rowb)
    else false
  (List.range 8).find? bad

end Sys2Proof.Machine
end

