-- ==== Sys2Proof/Machine/EngMem.lean ====
section
/-! DEFINITION. Memory, scratchpad and the fabric as the engines reach them (R161, R272, R307 to R309, R353): ranges translated line by
line, bytes read and written at their homes, scratchpad bytes with their banks and full bits, and a request sent under a latchkey. -/

namespace Sys2Proof.Machine

/-! ## Memory -/

/-- A range cut at line boundaries: address and length of each piece. -/
def segs : Nat → Nat → Nat → List (Nat × Nat)
  | 0, _, _ => []
  | f + 1, va, n => if n = 0 then [] else (va, min n (128 - va % 128)) :: segs f (va + min n (128 - va % 128)) (n - min n (128 - va % 128))

def segsOf (va n : Nat) : List (Nat × Nat) := segs (n / 128 + 2) va n

/-- The translation of the lines an engine reaches: a leaf for each line, a wait for a walk, or a fault. -/
inductive EngLines where
  | ok (s : State) (ls : List (Nat × Leaf))
  | wait (s : State)
  | bad (cause val : Nat)

/-- The lines of a list of addresses translated for a piece of work (R270, R272). -/
def engLines (s : State) (id core ctx : Nat) (need : Need) (res : List (Nat × Nat × Nat)) : List Nat → EngLines
  | [] => .ok s []
  | va :: vas =>
    match engXlate s (.op id) core ctx va need res with
    | .bad c v => .bad c v
    | .wait s => .wait s
    | .ok s l =>
      match engLines s id core ctx need res vas with
      | .ok s ls => .ok s ((va / 128, l) :: ls)
      | .wait s => .wait s
      | .bad c v => .bad c v

/-- One address of each line of a list of addresses. -/
def lineReps (vas : List Nat) : List Nat :=
  vas.foldl (fun a v => if a.any fun u => u / 128 = v / 128 then a else a ++ [v]) []

/-- The leaf of an address among translated lines. -/
def leafFor (ls : List (Nat × Leaf)) (va : Nat) : Leaf :=
  ((ls.find? fun e => e.1 = va / 128).map Prod.snd).getD ⟨0, 16, false, false, false, false, 0, false, 0, 0⟩

/-- The lines brought to their homes for a read, each counted once (R249). -/
def bringLines (s : State) (o : Op) (stm : Bool) (ls : List (Nat × Leaf)) : State :=
  ls.foldl (fun s e =>
    let l := e.2.phys (128 * e.1) / 128
    countRead (homeLine s l e.2.enc e.2.keyid (o.asker s) (stm || e.2.ca = 1)) l) s

/-- One byte of memory as the engine work `own` reads it: its value, whether it is poisoned, and whether its page has ZP set. -/
structure EByte where
  val : Byte
  bad : Bool
  zp : Bool

def engByte (s : State) (own : Nat) (ls : List (Nat × Leaf)) (va : Nat) : EByte :=
  let l := leafFor ls va
  let pa := l.phys va
  let bad := poisonedAt s (pa / 128) (pa % 128)
  ⟨if bad then 0 else readByte s (some own) (pa / 128) (pa % 128), bad, l.zp⟩

/-- Bytes read: their values, whether zeros stood for poison, or the lowest poisoned address (R312). -/
def engBytes (s : State) (own : Nat) (ls : List (Nat × Leaf)) (vas : List Nat) : List Byte × Bool × Option Nat :=
  let es := vas.map fun va => (va, engByte s own ls va)
  let lost := (es.filter fun e => e.2.bad && !e.2.zp).map Prod.fst
  (es.map fun e => e.2.val, es.any fun e => e.2.bad && e.2.zp, lost.foldl (fun m v => match m with
    | none => some v
    | some u => some (min u v)) none)

/-- What a write by an engine leads to: the state, the completion time, whether it was merged into a zeroed block, and the lowest
address whose bytes a poisoned block discarded. -/
structure EngWrite where
  s : State
  ctime : Nat := 0
  zw : Bool := false
  lost : Option Nat := none

/-- Bytes written by an engine at their homes, line by line (R252, R307, R310, R312). -/
def engWrite (s : State) (o : Op) (rc : Nat) (stm : Bool) (ls : List (Nat × Leaf)) (ws : List (Nat × Byte)) : EngWrite :=
  ls.foldl (fun r e =>
    let mine := ws.filter fun w => w.1 / 128 = e.1
    if mine.isEmpty then r
    else
      let h := homeWrite r.s (e.2.phys (128 * e.1) / 128) e.2.enc e.2.keyid (o.asker r.s) (stm || e.2.ca = 1) e.2.zp rc
        (mine.map fun w => (w.1 % 128, w.2))
      let lost := (mine.filter fun w => h.lost.contains (w.1 % 128 / 64)).map Prod.fst
      { s := h.s, ctime := max r.ctime h.ctime, zw := r.zw || h.zw,
        lost := lost.foldl (fun m v => match m with
          | none => some v
          | some u => some (min u v)) r.lost }) { s := s }

/-! ## Scratchpad (R161, R309) -/

/-- The bank of each word of a byte range of a team's scratchpad. -/
def engBanks (t : Team) (off n : Nat) : List (Nat × Nat) :=
  if n = 0 then []
  else (List.range ((off + n - 1) / 4 + 1 - off / 4)).map fun i => (t.coreAt (4 * (off / 4 + i)), (off / 4 + i) % 384)

/-- The lines of a byte range. -/
def linesFrom (off n : Nat) : List Nat :=
  if n = 0 then [] else (List.range ((off + n - 1) / 128 + 1 - off / 128)).map (off / 128 + ·)

/-- The bytes of a range of a team's scratchpad as the work `own` reads them. -/
def engRead (s : State) (t : Team) (own off n : Nat) : List Byte := (List.range n).map fun i => scrByte s t (some own) (off + i)

def Team.put (t : Team) (ws : List (Nat × Byte)) : Team := { t with scratch := ws.foldl (fun m w => cset m w.1 w.2) t.scratch }

/-- Whether work uses the matrix engine's port to the scratchpad, or the copy engine's. -/
def OpKind.matPort (k : OpKind) : Bool :=
  match k with
  | .matrix m => m.copy.isNone
  | .mem _ | .fence _ _ | .wqdeq _ _ | .sysc _ _ _ | .knock _ | .copy _ | .remote _ | .bsend _ | .brecv _ | .record _ _ _ => false

/-- Whether other work of the same engine waits for banks: an engine has one access at its banks at a time (log 22). -/
def portBusy (s : State) (o : Op) : Bool :=
  s.ops.any fun e => e.1 ≠ o.id && e.2.core = o.core && !e.2.want.isEmpty && e.2.kind.matPort = o.kind.matPort

/-- An engine access tried at its banks in this clock cycle (R161). -/
inductive AtBanks where
  /-- Its last bank cycle: it is performed. -/
  | done (s : State)
  /-- It waits for banks, or has bank cycles to come. -/
  | again (s : State)

/-- One clock cycle of an access of engine work to words, given as each word's bank: at once for a saved image; else, once no other
work of its engine is at banks, all of its banks are taken in each of as many clock cycles as one bank has of its words. -/
def atBanks (s : State) (t : Team) (o : Op) (ws : List (Nat × Nat)) : AtBanks :=
  let bs := ws.eraseDups
  if t.place = .saved || ws.isEmpty then .done s
  else if portBusy s o then .again s
  else if banksBusy s (some o.id) bs then
    .again (s.modOp o.id fun o => { o with waited := o.waited + 1, want := bs })
  else
    let s := takeBanks s bs
    if o.banked + 1 < mostWords ws then .again (s.modOp o.id fun o => { o with waited := 0, want := bs, banked := o.banked + 1 })
    else .done s

/-- Work that no longer waits for banks. -/
def Op.offBanks (o : Op) : Op := { o with waited := 0, want := [], banked := 0 }

/-- The clock cycles of waiting after which engine work keeps its banks: three others at most go before it (R161, log 22). -/
def bankPatience : Nat := 4

/-- The banks kept at the start of a clock cycle for engine work that has waited long, oldest first, none of them for two. -/
def keepBanks (s : State) : State :=
  s.ops.foldl (fun s e =>
    if bankPatience ≤ e.2.waited && !(e.2.want.any fun b => (s.core b.1).engUse.any fun x => x.1 = b.2) then
      e.2.want.foldl (fun s b => s.modCore b.1 fun c => { c with engUse := (b.2, e.1) :: c.engUse }) s
    else s) s

/-- Full-marks or clears put down for this clock cycle. -/
def Team.mark (t : Team) (cls : Nat) (full : Bool) (ls : List Nat) : Team :=
  { t with marks := t.marks ++ ls.map fun l => (l, cls, full) }

/-! ## The fabric (R347, R352, R353, R357) -/

/-- A window of this device: whether it is valid, its context, and the one that a latchkey names. -/
def winValid (e : WinEntry) : Bool := e.getLsbD 0
def winCtx (e : WinEntry) : Nat := bits e.toNat 1 9
def winAt (s : State) (key : Dword) : WinEntry := (tget s.windows (keyWin key)).getD 0

/-- Payload bytes of a request (R442). -/
def reqBytes (r : RemReq) : Nat :=
  match r.kind with
  | .read _ _ => 0
  | .write sz _ => r.lanes.length * szBytes sz
  | .masked _ => r.lanes.length
  | .atomic _ ty => r.lanes.length * atyBytes ty

/-- A request sent under its key: to this device's own ingress, or out; it times out after 1 ms (R360). -/
def sendReq (s : State) (ctx : Nat) (r : RemReq) : State :=
  let dev := keyDev r.key
  if dev = s.devid then (s.later 1 (.remoteRequestIngress r)).later timeout1ms (.remoteTimeout r.opId)
  else
    ((charge s ctx 9 (reqBytes r)).emit dev (Frame.remote dev r)).later timeout1ms (.remoteTimeout r.opId)

end Sys2Proof.Machine
end

