-- ==== Sys2Proof/Machine/Landing.lean ====
section
/-! DEFINITION. Results that land (R154, R27, R28, R259), frozen hatch operands that go on, and hooks that drop (R162 to R164,
R294, R295, R395). -/

namespace Sys2Proof.Machine

/-! ## Landing -/

/-- The hatch a destination names. -/
def Dst.hatch : Dst → Option Nat
  | .regs n _ => if 776 ≤ n && n < 780 then some (n - 776) else none
  | .bits _ _ _ _ => none

/-- A flight without its entry. -/
def Warp.dropFlight (w : Warp) (seq : Nat) : Warp := { w with flight := w.flight.filter fun f => f.seq ≠ seq }

/-- The trap a landing raises (R27, R38, R203). -/
def landTrap (w : Warp) (f : Flight) : Option TrapDue :=
  (landCause w.csr f.lanes).map fun c =>
    let r := f.dst.report
    { cause := c.1, cls := 2, pc := f.pc, lanes := c.2, val := 0, dst := r.1, bit := r.2.1, bitf := r.2.2.1, pair := r.2.2.2,
      seq := f.seq, tick := f.land }

/-- A result written with its flags, and its trap made due. -/
def Warp.landing (w : Warp) (f : Flight) (fresh : Nat) : Warp :=
  let t := landTrap w f
  let flags := f.lanes.foldl (fun m r => m ||| r.flags) 0
  let w := w.dropFlight f.seq
  let w := w.writeAll fresh f.dst f.lanes
  let w := { w with csr := orFlags w.csr flags (f.lanes.any (belowThr w.csr.sigthr)), recent := w.recent ++ [(f.dst, f.mask)] }
  match t with
  | some t => w.post t
  | none => w

/-- A fixed-latency result at its landing tick; one that a hatch takes freezes its warp while the queue is full (R259). -/
def execResultLanding (wid seq : Nat) (s : State) : Result :=
  match s.warp? wid with
  | none => .next s
  | some w =>
    match w.flight.find? fun f => f.seq = seq with
    | none => .next s
    | some f =>
      match f.dst.hatch, teamOf s w with
      | some h, some t =>
        let key := pushKey w h
        if t.hasRoom key then
          .next ((s.putWarp (w.landing f s.fresh)).putTeam (t.push key ⟨seq, f.lanes, some s.base⟩)).used
        else .next (s.putWarp (w.freezeFor 6 (.push key)))
      | _, _ => .next (s.putWarp (w.landing f s.fresh)).used

/-- A push that found its queue full takes its entry once one is free (R259). -/
def execHatchPushResume (wid : Nat) (s : State) : Result :=
  match s.warp? wid with
  | none => .next s
  | some w =>
    match teamOf s w with
    | none => .next s
    | some t => .next (s.putWarp (w.thaw fun y => match y with
      | .push key => t.hasRoom key
      | _ => false))

/-- A pop that found its queue empty goes on once the oldest entry is complete, or never can be (R260, R262). -/
def execHatchPopResume (wid : Nat) (s : State) : Result :=
  match s.warp? wid with
  | none => .next s
  | some w =>
    match teamOf s w with
    | none => .next s
    | some t => .next (s.putWarp (w.thaw fun y => match y with
      | .pop key => (headEntry t key s.base).isSome || ((t.queue key).isEmpty && partnerEnded s w)
      | _ => false))

/-! ## Fences (R294, R295) -/

/-- Whether an operation is an M-slot access to memory, or a wait at a work-queue unit. -/
def OpKind.mslot : OpKind → Bool
  | .mem m => m.kind.ordered || m.kind == .cellar
  | .wqdeq _ _ => true
  | .fence _ _ | .sysc _ _ _ | .knock _ | .copy _ | .matrix _ | .remote _ | .bsend _ | .brecv _ | .record _ _ _ => false

def OpKind.isRemote : OpKind → Bool
  | .remote _ => true
  | .mem _ | .wqdeq _ _ | .fence _ _ | .sysc _ _ _ | .knock _ | .copy _ | .matrix _ | .bsend _ | .brecv _ | .record _ _ _ => false

/-- Whether a fence's condition holds (R294): its warp's earlier accesses have finished, then the condition of its scope. -/
def fenceMet (s : State) (w : Warp) (scope id : Nat) : Bool :=
  !(s.ops.any fun e => e.2.wid == w.wid && e.1 < id && e.2.kind.mslot)
    && !(w.scr.any fun a => a.seq < id)
    && !(w.hooks.any fun h => h.items.any fun i => i.id < id && i.fin.any (s.base < ·))
    && (!(scope = 2 || scope = 3) || w.csr.wct.toNat ≤ timens s)
    && (scope ≠ 3 || !(s.ops.any fun e => e.2.wid == w.wid && e.1 < id && e.2.kind.isRemote))

/-- The L1 lines of a context invalidated on a core (R295). -/
def dropL1 (s : State) (core ctx : Nat) : State := s.modCore core fun c => { c with l1 := c.l1.filter fun l => l.ctx ≠ ctx }

/-- A fence finished: its item, its hold, and for afence the L1. -/
def fenceDone (s : State) (w : Warp) (h scope id : Nat) : State :=
  let free (p : Path) : Path := if p.fence = some id then { p with fence := none } else p
  let fin (i : HookItem) : HookItem := { i with fin := some s.base }
  let w := ((w.mapSlices fun _ => Slice.mapPaths free).mapSaved fun _ => Slice.mapPaths free).modItem h id fin
  let s := (s.putWarp w).delOp id
  if scope = 4 then dropL1 s w.core (ctxOf s w) else s

/-- The fences of a hook whose conditions hold, finished. -/
def fencesDone (s : State) (wid h : Nat) : List HookItem → State
  | [] => s
  | i :: is =>
    let s := match tget s.ops i.id, s.warp? wid with
      | some o, some w => match o.kind with
        | .fence scope id => if fenceMet s w scope id then fenceDone s w h scope id else s
        | _ => s
      | _, _ => s
    fencesDone s wid h is

/-! ## Drops (R163, R164) -/

/-- What one item does to its warp when the hook drops past it: results, flags of MEMST, and its fault. -/
def Warp.passItem (w : Warp) (fresh : Nat) (i : HookItem) : Warp :=
  let w := w.writeAll fresh i.dst i.res
  let w := { w with csr := { w.csr with memst := w.csr.memst ||| BitVec.ofNat 32 (i.zr.toNat + 2 * i.zw.toNat) } }
  match i.fault with
  | some t => w.post { t with tick := w.tick }
  | none => w

/-- Whether an item has finished with results that are written at its finish. -/
def HookItem.writesNow (base : Nat) (i : HookItem) : Bool := i.early && !i.res.isEmpty && i.fin.any (· ≤ base)

/-- The results of a hook's work that are written at its finish, not at the drop: a fixed-latency result that commits between the two
is the last write (R164, R285, R331). -/
def Warp.writeFinished (w : Warp) (h fresh base : Nat) : Warp :=
  let w := ((w.hook h).items.filter (HookItem.writesNow base)).foldl (fun w i => w.writeAll fresh i.dst i.res) w
  let wrote (i : HookItem) : HookItem := if i.writesNow base then { i with res := [] } else i
  { w with hooks := lmod w.hooks h fun k => { k with items := k.items.map wrote } }

/-- A hook dropped past its finished items. -/
def Warp.dropHook (w : Warp) (h fresh base : Nat) : Warp × List HookItem :=
  let w := w.writeFinished h fresh base
  let k := w.hook h
  let r := settleTokens base k.credit k.items
  let d := splitDone base r.2
  let k' : HookSt := { k with items := d.2, credit := r.1 }
  let put (_ : HookSt) : HookSt := k'
  let w := { w with hooks := lmod w.hooks h put }
  (d.1.foldl (fun w i => w.passItem fresh i) w, d.1)

/-- Work that a hook has dropped past: its record goes, and with it the claim on what it wrote to memory, which is defined from now
on (R164, R311). -/
def retireOp (s : State) (id : Nat) : State :=
  match tget s.ops id with
  | some o => match o.kind with
    | .brecv r =>
      let s := match r.msg with
        | some m => { s with msgs := tdel s.msgs m, tokens := s.tokens.filter fun e => e.2.msg ≠ m }
        | none => s
      s.delOp id
    | _ => s.delOp id
  | none => s

/-- A hook at the end of a clock cycle. -/
def execHookDrop (wid h : Nat) (s : State) : Result :=
  match s.warp? wid with
  | none => .next s
  | some w =>
    let s := taintAll (fencesDone s wid h (w.hook h).items) w
    match s.warp? wid with
    | none => .next s
    | some w =>
      let r := w.dropHook h s.fresh s.base
      .next (r.2.foldl (fun s i => retireOp s i.id) (s.putWarp r.1)).used

end Sys2Proof.Machine
end

