-- ==== Sys2Proof/Machine/Copy.lean ====
section
/-! DEFINITION. The copy engine (R303 to R319): the copy instructions at issue, a unit moved, and the end of a copy. -/

namespace Sys2Proof.Machine

/-! ## What a copy covers -/

def copyOf : OpKind → Option CopyOp
  | .copy c => some c
  | .matrix m => m.copy
  | .mem _ | .fence _ _ | .wqdeq _ _ | .sysc _ _ _ | .knock _ | .remote _ | .bsend _ | .brecv _ | .record _ _ _ => none

def withCopy (k : OpKind) (c : CopyOp) : OpKind :=
  match k with
  | .copy _ => .copy c
  | .matrix m => .matrix { m with copy := some c }
  | .mem _ | .fence _ _ | .wqdeq _ _ | .sysc _ _ _ | .knock _ | .remote _ | .bsend _ | .brecv _ | .record _ _ _ => k

/-- Whether a copy writes memory. -/
def CopyKind.writesMem : CopyKind → Bool
  | .linOut | .fillMem | .tenOut | .scatter _ => true
  | .linIn | .fillSp | .cellar | .scr | .tenIn | .gather | .loftCellar _ _ | .loftTen _ => false

/-- The rows of scratchpad a copy writes: start, distance, length, number. -/
def CopyOp.scrRows (c : CopyOp) : Nat × Nat × Nat × Nat :=
  match c.kind with
  | .linIn | .fillSp | .cellar | .scr => (c.b, max 1 c.len, c.len, if c.len = 0 then 0 else 1)
  | .tenIn => let y := layoutOf c.words; (y.dest, max 1 y.pitch', y.pitch, y.rows)
  | .gather => let r := rowListOf c.words; (r.data, max 1 r.rowb, r.rowb, r.count)
  | .linOut | .fillMem | .tenOut | .scatter _ | .loftCellar _ _ | .loftTen _ => (0, 1, 0, 0)

/-- Whether a copy writes a byte of a line. -/
def CopyOp.writesLine (c : CopyOp) (line : Nat) : Bool :=
  let (lo, pitch, len, rows) := c.scrRows
  let k := (128 * line - lo) / pitch
  [k, k + 1].any fun k => k < rows && overlaps (lo + k * pitch) len (128 * line) 128

/-- The lines from `a` up to, not including, `b` that a copy writes. -/
def CopyOp.linesIn (c : CopyOp) (a b : Nat) : List Nat := ((List.range (b - a)).map (a + ·)).filter c.writesLine

/-- One past the last line a copy writes. -/
def CopyOp.lineEnd (c : CopyOp) : Nat :=
  let (lo, pitch, len, rows) := c.scrRows
  if rows = 0 then 0 else (lo + (rows - 1) * pitch + len + 127) / 128

/-- The first line a copy writes. -/
def CopyOp.lineStart (c : CopyOp) : Nat := c.scrRows.1 / 128

/-- The rows a copy goes through, and the length of each in its own positions. -/
def CopyOp.rows (c : CopyOp) : Nat :=
  match c.kind with
  | .linIn | .linOut | .fillSp | .fillMem | .cellar | .scr | .loftCellar _ _ => if c.len = 0 then 0 else 1
  | .tenIn | .tenOut | .loftTen _ => (layoutOf c.words).rows
  | .gather => (rowListOf c.words).count
  | .scatter _ => (rowListOf c.words).count

def CopyOp.rowLen (c : CopyOp) : Nat :=
  match c.kind with
  | .linIn | .linOut | .fillSp | .fillMem | .cellar | .scr | .loftCellar _ _ => c.len
  | .tenIn | .tenOut | .loftTen _ => (layoutOf c.words).box 0
  | .gather | .scatter _ => (rowListOf c.words).rowb

/-- The lines below this one hold all of their data. -/
def CopyOp.landed (c : CopyOp) : Nat :=
  match c.kind with
  | .linIn | .fillSp | .cellar | .scr => (c.b + c.pos) / 128
  | .tenIn => ((layoutOf c.words).dest + c.row * (layoutOf c.words).pitch') / 128
  | .gather => ((rowListOf c.words).data + c.row * (rowListOf c.words).rowb + c.pos) / 128
  | .linOut | .fillMem | .tenOut | .scatter _ | .loftCellar _ _ | .loftTen _ => 0

/-- A copy advanced by `n` positions. -/
def CopyOp.advance (c : CopyOp) (n : Nat) : CopyOp :=
  if c.rowLen ≤ c.pos + n then { c with row := c.row + 1, pos := 0 } else { c with pos := c.pos + n }

def CopyOp.isLoft (c : CopyOp) : Bool :=
  match c.kind with
  | .loftCellar _ _ | .loftTen _ => true
  | .linIn | .linOut | .fillSp | .fillMem | .cellar | .scr | .tenIn | .tenOut | .gather | .scatter _ => false

/-- Whether a copy reaches scratchpad (R309). -/
def CopyOp.usesScratch (c : CopyOp) : Bool := !c.isLoft && c.kind != .fillMem

/-- Whether a scratchpad range the copy reads holds an empty line, other than one its own EM cleared (R309). -/
def CopyOp.held (c : CopyOp) (t : Team) (off n : Nat) : Bool :=
  (linesFrom off n).any fun l => t.empty.contains l && !(c.em && c.writesLine l)

/-- Whether a scratchpad access of a warp that engine work must see is still to be performed, or was in this clock cycle, whose marks
commit at its end (R245, R309, R332). -/
def olderScr (s : State) (w : Warp) (id : Nat) : Bool :=
  (w.scr.any fun a => a.seq < id) || w.scrDone.any fun p => p.1 < id && p.2 = coreCycle s w.core

/-! ## Moves -/

/-- One byte, or nibble of a byte, that a unit moves: its memory address, if it has one, its place in scratchpad or in a macro, and
the value it takes where no memory is read. -/
structure Mv where
  va : Option Nat := none
  nib : Option Nat := none
  off : Nat
  onib : Option Nat := none
  val : Byte := 0

/-- A nibble put into a byte: the low one clears the high one (R48). -/
def putNib (old : Byte) (onib : Option Nat) (v : Byte) : Byte :=
  match onib with
  | none => v
  | some 0 => v &&& 15
  | some _ => (old &&& 15) ||| (v <<< 4)

/-- The value a byte or one of its nibbles gives. -/
def getNib (b : Byte) : Option Nat → Byte
  | none => b
  | some 0 => b &&& 15
  | some _ => b >>> 4

/-- A byte with one of its nibbles, or all of it, replaced. -/
def setNib (old : Byte) (nib : Option Nat) (v : Byte) : Byte :=
  match nib with
  | none => v
  | some 0 => (old &&& 0xF0) ||| (v &&& 15)
  | some _ => (old &&& 15) ||| (v <<< 4)

/-- The outcome of one step of a copy: a unit moved, with the bytes it took of the engine's rate; a wait, of a number of base cycles,
for banks or for something else; a request sent to another device; or a failure (R312). -/
inductive UnitRes where
  | moved (s : State) (c : CopyOp) (bytes : Nat)
  | wait (s : State) (n : Nat) (bank : Bool)
  | sent (s : State) (c : CopyOp) (bytes : Nat)
  | fail (s : State) (c : CopyOp) (cause val : Nat)

/-- Macro bytes written by moves. -/
def Macro.apply (k : Macro) (ms : List (Mv × Byte)) : Macro :=
  ms.foldl (fun k m => k.setByte m.1.off (putNib (k.byte m.1.off) m.1.onib m.2)) k

def CopyOp.macro' (c : CopyOp) : Option Nat :=
  match c.kind with
  | .loftCellar _ lf | .loftTen lf => some lf
  | .linIn | .linOut | .fillSp | .fillMem | .cellar | .scr | .tenIn | .tenOut | .gather | .scatter _ => none

/-- Whether a copy has written a byte of scratchpad so far. -/
def CopyOp.scrPut (c : CopyOp) (off : Nat) : Bool :=
  let (lo, pitch, len, rows) := c.scrRows
  let k := (off - lo) / pitch
  let b := (off - lo) % pitch
  lo ≤ off && k < rows && b < len && (match c.kind with
    | .linIn | .fillSp | .cellar | .scr => c.rows ≤ c.row || off < c.b + c.pos
    | .gather => k < c.row || (k = c.row && b < c.pos)
    | .tenIn =>
      let y := layoutOf c.words
      k < c.row || (k = c.row && (List.range ((c.pos * y.ebits + 7) / 8)).any fun i => y.place c.row i = off)
    | .linOut | .fillMem | .tenOut | .scatter _ | .loftCellar _ _ | .loftTen _ => false)

/-- Whether engine work has written a byte of scratchpad so far. -/
def OpKind.scrPut (k : OpKind) (off : Nat) : Bool :=
  match k with
  | .copy c => c.scrPut off
  | .matrix m => m.put.any fun r => r.1 ≤ off && off < r.1 + r.2
  | .mem _ | .fence _ _ | .wqdeq _ _ | .sysc _ _ _ | .knock _ | .remote _ | .bsend _ | .brecv _ | .record _ _ _ => false

/-- Whether other engine work in flight for a team has written a byte of its scratchpad (R311, R332). -/
def othersPut (s : State) (id tid off : Nat) : Bool :=
  s.ops.any fun e => e.1 ≠ id && (s.warp? e.2.wid).any (fun w => w.team = tid) && e.2.kind.scrPut off

/-- A bit that no rule gives: which of two writes in flight a byte keeps. -/
def keepsOld (s : State) (key bit : Nat) : Bool := (Config.freeByte s.fresh key).getLsbD bit

/-- Bytes put into a team's scratchpad by engine work; where other work in flight has written a byte, which of the two values stays is
open (R311, R332). -/
def engTakes (s : State) (id : Nat) (t : Team) (ws : List (Nat × Byte)) : List (Nat × Byte) :=
  ws.filter fun w => !(othersPut s id t.tid w.1 && keepsOld s (2 ^ 64 + w.1) 0)
def engPut (s : State) (id : Nat) (t : Team) (ws : List (Nat × Byte)) : Team :=
  { t with scratch := (engTakes s id t ws).foldl (fun m w => cset m w.1 w.2) t.scratch }

/-- The places that take new bytes, as ranges. -/
def engRanges (s : State) (id : Nat) (t : Team) (ws : List (Nat × Byte)) : List (Nat × Nat) :=
  (engTakes s id t ws).map fun w => (w.1, 1)

/-- The bytes that moves give scratchpad, those of one byte joined. -/
def scrBytes (t : Team) (ms : List (Mv × Byte)) : List (Nat × Byte) :=
  ms.foldl (fun ws m =>
    let old := (ws.lookup m.1.off).getD (cget t.scratch m.1.off)
    (m.1.off, putNib old m.1.onib m.2) :: ws.filter fun w => w.1 ≠ m.1.off) []

/-- Values landed at their destination. -/
def landMoves (s : State) (w : Warp) (id : Nat) (c : CopyOp) (ms : List (Mv × Byte)) : State :=
  match c.macro' with
  | some lf => modEngine s w fun e => e.modMacro lf fun k => k.apply ms
  | none => match teamOf s w with
    | some t => overwrite (s.putTeam (engPut s id t (scrBytes t ms))) t (engRanges s id t (scrBytes t ms))
    | none => s

/-- The banks of a move list, one for each word. -/
def moveWords (t : Team) (c : CopyOp) (ms : List Mv) : List (Nat × Nat) :=
  if c.usesScratch then ((ms.map fun m => m.off / 4).eraseDups).map fun i => (t.coreAt (4 * i), i % 384) else []

/-- The bytes a move list moves. -/
def moveSize (ms : List Mv) : Nat := ((ms.map Mv.off).eraseDups).length

/-- The poisoned blocks among addresses read, for the charge of R442. -/
def chargePoison (s : State) (o : Op) (ls : List (Nat × Leaf)) (vas : List Nat) : State :=
  let n := ((vas.filter fun va => (engByte s o.id ls va).bad).map (· / 64)).eraseDups.length
  if n = 0 then s else charge s o.ctx 13 n

/-- Memory, or given values, moved into scratchpad or a macro. -/
def moveIn (s : State) (o : Op) (c : CopyOp) (w : Warp) (t : Team) (ms : List Mv) (n : Nat) : UnitRes :=
  let vas := ms.filterMap Mv.va
  match engLines s o.id o.core o.ctx .r o.walkRes (lineReps vas) with
  | .bad cause val => .fail s c cause val
  | .wait s => .wait s 1 false
  | .ok s ls =>
    match atBanks s t o (moveWords t c ms) with
    | .again s => .wait s 1 true
    | .done s =>
      let s := chargePoison (bringLines s o c.stm ls) o ls vas
      match engBytes s o.id ls vas with
      | (_, _, some va) => .fail s c 0x16 va
      | (_, zr, none) =>
        let vals := ms.map fun m => (m, match m.va with
          | some va => getNib (engByte s o.id ls va).val m.nib
          | none => m.val)
        .moved (landMoves s w o.id c vals).used ({ c with zr := c.zr || zr }.advance n) (moveSize ms)

/-! ## Memory written -/

/-- A byte of a line put into a table of them. -/
def addByte (m : Tbl (BitVec 128)) (pa : Nat) : Tbl (BitVec 128) :=
  tset m (pa / 128) ((tget m (pa / 128)).getD 0 ||| BitVec.ofNat 128 (2 ^ (pa % 128)))

/-- A byte or nibble put into a table of nibbles. -/
def addNib (m : Tbl (BitVec 256)) (pa : Nat) (nib : Option Nat) : Tbl (BitVec 256) :=
  let k := 2 * (pa % 128)
  tset m (pa / 128) ((tget m (pa / 128)).getD 0 ||| BitVec.ofNat 256 (match nib with
    | none => 3 * 2 ^ k
    | some i => 2 ^ (k + i % 2)))

/-- Whether a byte or nibble of memory stands in a table of nibbles. -/
def hasNib (m : Tbl (BitVec 256)) (pa : Nat) (nib : Option Nat) : Bool :=
  let v := (tget m (pa / 128)).getD 0
  let k := 2 * (pa % 128)
  match nib with
  | none => v.getLsbD k || v.getLsbD (k + 1)
  | some i => v.getLsbD (k + i % 2)

/-- Whether a byte or nibble has already been written by another element of the same window (R41), or by another copy in flight
(R311). -/
def rewrites (s : State) (id : Nat) (c : CopyOp) (pa : Nat) (nib : Option Nat) : Bool :=
  (c.kind == .tenOut && hasNib c.put pa nib)
    || s.ops.any fun e => e.1 ≠ id && (match e.2.kind with
      | .copy d => hasNib d.put pa nib
      | .mem _ | .fence _ _ | .wqdeq _ _ | .sysc _ _ _ | .knock _ | .matrix _ | .remote _ | .bsend _ | .brecv _ | .record _ _ _ => false)

/-- The bytes that moves give memory, those of one byte joined. A nibble keeps the other one, as the line holds it at its home (R42);
where a byte is written again, which value stays is open (R10, R41, R311; log 40). -/
def outBytes (s : State) (o : Op) (c : CopyOp) (ls : List (Nat × Leaf)) (src : Mv → Byte) (ms : List Mv) : List (Nat × Byte) :=
  let home := ls.foldl (fun s e => homeLine s (e.2.phys (128 * e.1) / 128) e.2.enc e.2.keyid (o.asker s) c.stm) s
  ms.foldl (fun ws m => match m.va with
    | none => ws
    | some va =>
      let pa := (leafFor ls va).phys va
      let old := (ws.lookup va).getD (keptByte home (pa / 128) (pa % 128))
      let new := if rewrites s o.id c pa m.nib && keepsOld s (2 ^ 65 + pa) (m.nib.getD 0) then old else setNib old m.nib (src m)
      (va, new) :: ws.filter fun w => w.1 ≠ va) []

/-- A copy that has written moves to memory. -/
def CopyOp.wrote (c : CopyOp) (ls : List (Nat × Leaf)) (ms : List Mv) : CopyOp :=
  ms.foldl (fun c m => match m.va with
    | none => c
    | some va =>
      let pa := (leafFor ls va).phys va
      { c with claim := addByte c.claim pa, put := addNib c.put pa m.nib }) c

/-- Scratchpad, or given values, moved into memory. -/
def moveOut (s : State) (o : Op) (c : CopyOp) (t : Team) (ms : List Mv) (n : Nat) : UnitRes :=
  let fixed := c.kind == .fillMem
  if !fixed && ms.any fun m => c.held t m.off 1 then .wait s 1 false
  else match engLines s o.id o.core o.ctx .w o.walkRes (lineReps (ms.filterMap Mv.va)) with
    | .bad cause val => .fail s c cause val
    | .wait s => .wait s 1 false
    | .ok s ls =>
      match atBanks s t o (moveWords t c ms) with
      | .again s => .wait s 1 true
      | .done s =>
        let src (m : Mv) : Byte := if fixed then m.val else getNib (scrByte s t (some o.id) m.off) m.onib
        let r := engWrite s o c.rc c.stm ls (outBytes s o c ls src ms)
        let c := CopyOp.wrote { c with wct := max c.wct r.ctime, zw := c.zw || r.zw } ls ms
        match r.lost with
        | some va => .fail r.s.used c 0x16 va
        | none => .moved r.s.used (c.advance n) (moveSize ms)

/-! ## Linear copies (R313) -/

/-- The bytes of a linear unit that starts at an address or offset `x`. -/
def CopyOp.piece (c : CopyOp) (x : Nat) : Nat := min (c.len - c.pos) (128 - x % 128)

def byteMoves (n : Nat) (va : Option Nat) (off : Nat) (val : Nat → Byte) : List Mv :=
  (List.range n).map fun i => { va := va.map (· + i), off := off + i, val := val i }

/-- Byte i of a fill pattern (R7, R313). -/
def patByte (pat i : Nat) : Byte := BitVec.ofNat 8 (pat / 256 ^ (i % 4))

/-- A piece of the cellar, after its refresh window, moved in. -/
def cellarUnit (s : State) (o : Op) (c : CopyOp) (w : Warp) (t : Team) : UnitRes :=
  let x := c.a + c.pos
  let n := c.piece x
  match refreshEnd s x with
  | some ns => .wait s (max 1 (baseAt ns - s.base)) false
  | none =>
    let bad := (List.range n).filter fun i => s.cellarPoison.contains ((x + i) / 64)
    let zp := match cellarWin s o.ctx c.a c.len with
      | some v => v.zp
      | none => false
    let note (s : State) : State := if bad.isEmpty then s else charge s o.ctx 13 ((bad.map fun i => (x + i) / 64).eraseDups).length
    if !bad.isEmpty && !zp then .fail (note s) c 0x16 (x + bad.headD 0)
    else
      let c := { c with zr := c.zr || !bad.isEmpty }
      let off := if c.isLoft then c.pos else c.b + c.pos
      match moveIn s o c w t (byteMoves n none off fun i => if bad.contains i then 0 else cget s.cellar (x + i)) n with
      | .moved s c n => .moved (note s) c n
      | r => r

/-- A line's piece of scratchpad read on into a copy's buffer, up to `total` bytes from `start` on (R309, R313, R315). -/
def bufUnit (s : State) (o : Op) (c : CopyOp) (t : Team) (start total : Nat) : UnitRes :=
  let x := start + c.buf.length
  let n := min (total - c.buf.length) (128 - x % 128)
  if c.held t x n then .wait s 1 false
  else match atBanks s t o (engBanks t x n) with
    | .again s => .wait s 1 true
    | .done s => .moved s.used { c with buf := c.buf ++ engRead s t o.id x n } n

/-- cpyc: the whole source is read before any byte is written. -/
def scrUnit (s : State) (o : Op) (c : CopyOp) (w : Warp) (t : Team) : UnitRes :=
  if c.buf.length < c.len then bufUnit s o c t c.a c.len
  else
    let n := c.piece (c.b + c.pos)
    moveIn s o c w t (byteMoves n none (c.b + c.pos) fun i => c.buf.getD (c.pos + i) 0) n

/-! ## Tensor windows (R314, R334) -/

/-- The place of byte b of row q: in scratchpad, or in the row of a macro. -/
def CopyOp.rowPlace (c : CopyOp) (y : Layout) (q b : Nat) : Nat :=
  if c.isLoft then q * (match y.etype.mclass with
    | some k => mcRb k
    | none => 128) + b
  else y.place q b

/-- The moves of element j0 of row q, from or to the address of its source element. -/
def elemMoves (c : CopyOp) (y : Layout) (q j0 : Nat) (addr : List Nat → Nat) : List Mv :=
  let b := j0 * y.ebits / 8
  match y.source q j0 with
  | some ix =>
    if y.ebits = 4 then [{ va := some (addr ix), nib := y.nib (ix.getD 0 0), off := c.rowPlace y q b, onib := some (j0 % 2) }]
    else (List.range (y.ebits / 8)).map fun i => { va := some (addr ix + i), off := c.rowPlace y q (b + i) }
  | none =>
    if y.ebits = 4 then [{ off := c.rowPlace y q b, onib := some (j0 % 2), val := BitVec.ofNat 8 y.fillBits }]
    else (List.range (y.ebits / 8)).map fun i => { off := c.rowPlace y q (b + i), val := BitVec.ofNat 8 (y.fillBits / 256 ^ i) }

/-- Whether a copy moves element j0 of row q: one that writes memory discards elements out of the tensor (R47, R314). R43 does not say
whether a discarded element under FILLMODE 2 forms its clamped address: here it forms none, so that none overflows (DESIGN CHOICE,
log 78). -/
def CopyOp.takes (c : CopyOp) (y : Layout) (q j0 : Nat) : Bool := c.kind != .tenOut || y.inside (y.coord q j0)

/-- The padding of a row, written as zero at its end: to P in scratchpad, to all columns in a macro (R48, R334). -/
def padMoves (c : CopyOp) (y : Layout) (q : Nat) : List Mv :=
  let top := if c.isLoft then (match y.etype.mclass with
    | some k => mcRb k
    | none => 128) else y.pitch
  (List.range (top - y.rowBytes)).map fun i => { off := c.rowPlace y q (y.rowBytes + i) }

/-- A number from its bytes, lowest first. -/
def bytesNat (bs : List Byte) : Nat := bs.foldr (fun b a => b.toNat + 256 * a) 0

/-- The table that the bytes of a header give, if they satisfy R53 or R55. -/
def headerTable (y : Layout) (h : Nat) : Option (List Nat) := if y.form = 1 then shardTable y h else nativeTable y h

def headerSize (y : Layout) : Nat := if y.form = 1 then 16 else 32

/-- BBASE and KEY of an entry from its bytes (R53, R55, R56). -/
def entryOf (tb : List Nat) (e : Nat) : Nat × Dword :=
  if tblAk3 tb then (tblCbase tb, BitVec.ofNat 64 e) else (e % 2 ^ 64, BitVec.ofNat 64 (e / 2 ^ 64))

/-- The header of an owner table or sharding descriptor read and checked (R53 to R56). -/
def headerUnit (s : State) (o : Op) (c : CopyOp) (y : Layout) : UnitRes :=
  let n := headerSize y
  match engLines s o.id o.core o.ctx .r o.walkRes [y.otaddr] with
  | .bad cause val => .fail s c cause val
  | .wait s => .wait s 1 false
  | .ok s ls =>
    let vas := (List.range n).map (y.otaddr + ·)
    let s := chargePoison (bringLines s o c.stm ls) o ls vas
    match engBytes s o.id ls vas with
    | (_, _, some va) => .fail s c 0x16 va
    | (bs, zr, none) =>
      match headerTable y (bytesNat bs) with
      | none => .fail s c 0x09 0xFFFFFFFF
      | some tb => .moved s.used { c with table := some tb, zr := c.zr || zr } n

/-- The entry of a block read and checked. -/
def entryUnit (s : State) (o : Op) (c : CopyOp) (y : Layout) (tb : List Nat) (blk : Nat) (ix : List Nat) : UnitRes :=
  let (a, n) := entryAddr tb blk ix
  match engLines s o.id o.core o.ctx .r o.walkRes [a] with
  | .bad cause val => .fail s c cause val
  | .wait s => .wait s 1 false
  | .ok s ls =>
    let vas := (List.range n).map (a + ·)
    let s := chargePoison (bringLines s o c.stm ls) o ls vas
    match engBytes s o.id ls vas with
    | (_, _, some va) => .fail s c 0x16 va
    | (bs, zr, none) =>
      let (base, key) := entryOf tb (bytesNat bs)
      if base % 16 ≠ 0 then .fail s c 0x09 blk
      else
        let slow := !c.half && (base % 128 ≠ 0 || y.slowStride)
        let s := if slow && !c.counted then charge s o.ctx 12 1 else s
        .moved s.used { c with entry := some (blk, base, key), half := c.half || slow, counted := c.counted || slow, zr := c.zr || zr } n

/-- The elements of the next unit, positions and their moves: of the next `n`, those whose bytes lie in one line of memory. -/
def tenMoves (c : CopyOp) (y : Layout) (n : Nat) (addr : List Nat → Nat) : List (Nat × List Mv) :=
  let es := (List.range n).map fun i => (c.pos + i, if c.takes y c.row (c.pos + i) then elemMoves c y c.row (c.pos + i) addr else [])
  let line := (es.findSome? fun e => e.2.findSome? Mv.va).map (· / 128)
  es.takeWhile fun e => e.2.all fun m => m.va.all fun v => some (v / 128) = line

/-- A request to the owner of a block: the 16-byte units a read covers, or the elements a write holds. -/
def blockReq (s : State) (o : Op) (c : CopyOp) (y : Layout) (t : Team) (key : Dword) (ms : List Mv) : RemReq :=
  let src (m : Mv) : Nat := (getNib (scrByte s t (some o.id) m.off) m.onib).toNat
  let base : RemReq := { src := s.devid, opId := o.id, key := key, kind := .read .b128 false, stream := c.stm, byVa := true, lanes := [] }
  match c.kind with
  | .tenOut =>
    if y.ebits = 4 then
      { base with kind := .masked c.rc, lanes := ms.filterMap fun m => m.va.map fun va =>
          let k := if m.nib = some 1 then 16 else 1
          ⟨0, va, BitVec.ofNat 128 (src m * k), BitVec.ofNat 64 (15 * k)⟩ }
    else { base with kind := .write .b8 c.rc, lanes := ms.filterMap fun m => m.va.map fun va => ⟨0, va, BitVec.ofNat 128 (src m), 0⟩ }
  | _ => { base with lanes := ((ms.filterMap Mv.va).map fun va => va / 16 * 16).eraseDups.map fun a => ⟨0, a, 0, 0⟩ }

/-- The lanes of a request numbered in order. -/
def numberLanes (r : RemReq) : RemReq :=
  { r with lanes := (r.lanes.zip (List.range r.lanes.length)).map fun l => { l.1 with lane := l.2 } }

/-- The byte that an answer gives for an address. -/
def ansByte (r : RemReq) (ans : List RemAns) (va : Nat) : Byte :=
  match r.lanes.find? fun l => l.off = va / 16 * 16 with
  | none => 0
  | some l => match ans.findSome? fun a => match a with
      | .data k v _ => if k = l.lane then some v else none
      | .ack _ _ | .reject _ _ | .poison _ _ => none with
    | some v => BitVec.ofNat 8 (v.toNat / 256 ^ (va % 16))
    | none => 0

def ansZero (a : RemAns) : Bool :=
  match a with
  | .data _ _ z | .ack _ z => z
  | .reject _ _ | .poison _ _ => false

/-- The failure of one lane of an answer: the lane, the cause and TRVAL; lanes stand in position order (R312). -/
def ansFail (blk : Nat) (key : Dword) (a : RemAns) : Option (Nat × Nat × Nat) :=
  match a with
  | .reject l _ => some (l, 0x15, blk + 2 ^ 32 * keyDev key)
  | .poison l off => some (l, 0x16, off)
  | .data _ _ _ | .ack _ _ => none

/-- The failure of the lowest lane. -/
def firstFail (fs : List (Nat × Nat × Nat)) : Option (Nat × Nat) :=
  (fs.foldl (fun b f => match b with
    | none => some f
    | some x => some (if f.1 < x.1 then f else x)) none).map Prod.snd

/-- A unit of a block of another device, answered (R312, R314): its bytes landed, or its failure. -/
def answerUnit (s : State) (o : Op) (c : CopyOp) (w : Warp) (t : Team) (y : Layout) (blk : Nat) (key : Dword) (ms : List Mv) (n : Nat)
    (ans : List RemAns) : UnitRes :=
  let c' := { c with ans := none }
  match firstFail (ans.filterMap (ansFail blk key)) with
  | some (cause, val) => .fail s c' cause val
  | none =>
    let z := ans.any ansZero
    if c.kind == .tenOut then .moved s ({ c' with zw := c.zw || z }.advance n) 0
    else match atBanks s t o (moveWords t c ms) with
      | .again s => .wait s 1 true
      | .done s =>
        let r := numberLanes (blockReq s o c y t key ms)
        let vals := ms.map fun m => (m, match m.va with
          | some va => getNib (ansByte r ans va) m.nib
          | none => m.val)
        .moved (landMoves s w o.id c vals).used ({ c' with zr := c.zr || z }.advance n) (moveSize ms)

/-- A unit of a block of another device, asked for: a write takes its bytes from scratchpad first. In a block reached under a latchkey on
this device, of overlapping elements a byte keeps the one written last, where R41 leaves open which (DESIGN CHOICE, log 78). -/
def askUnit (s : State) (o : Op) (c : CopyOp) (t : Team) (y : Layout) (blk : Nat) (key : Dword) (ms : List Mv) : UnitRes :=
  if !reaches s (keyDev key) then .fail s c 0x15 (blk + 2 ^ 32 * keyDev key)
  else if c.kind == .tenOut then
    if ms.any fun m => c.held t m.off 1 then .wait s 1 false
    else match atBanks s t o (moveWords t c ms) with
      | .again s => .wait s 1 true
      | .done s =>
        .sent (sendReq s o.ctx (numberLanes (blockReq s o c y t key ms))).used { c with asked := some (timens s) } (moveSize ms)
  else .sent (sendReq s o.ctx (numberLanes (blockReq s o c y t key ms))) { c with asked := some (timens s) } 0

/-- The elements of a unit moved, here or at their block's owner. -/
def elemUnit (s : State) (o : Op) (c : CopyOp) (w : Warp) (t : Team) (y : Layout) (base : Nat) (key : Dword) (blk : Nat) : UnitRes :=
  let es := tenMoves c y (y.run c.pos (match c.table with
    | some tb => tblBlk tb 0
    | none => 0)) (elemAddr y c.table base)
  let n := max 1 es.length
  let out := c.kind == .tenOut
  let ms := es.flatMap Prod.snd ++ (if y.box 0 ≤ c.pos + n && !out then padMoves c y c.row else [])
  match es.find? fun e => e.2.any fun m => m.va.any (2 ^ 64 ≤ ·) with
  | some e => .fail s c 0x0A (e.1 + y.box 0 * c.row)
  | none =>
    if key = 0 || !(ms.any fun m => m.va.isSome) then (if out then moveOut s o c t ms n else moveIn s o c w t ms n)
    else match c.ans with
      | some ans => answerUnit s o c w t y blk key ms n ans
      | none => askUnit s o c t y blk key ms

/-- The source of the first element of the next unit that has one. -/
def CopyOp.firstSource (c : CopyOp) (y : Layout) (n : Nat) : Option (List Nat) :=
  (List.range n).findSome? fun i => if c.takes y c.row (c.pos + i) then y.source c.row (c.pos + i) else none

/-- The next step of a window: the header, an entry, or a unit of elements. -/
def tenUnit (s : State) (o : Op) (c : CopyOp) (w : Warp) (t : Team) : UnitRes :=
  let y := layoutOf c.words
  if y.otaddr = 0 then elemUnit s o c w t y y.base 0 0
  else match c.table with
    | none => headerUnit s o c y
    | some tb =>
      match c.firstSource y (y.run c.pos (tblBlk tb 0)) with
      | none => elemUnit s o c w t y 0 0 0
      | some ix =>
        let blk := blockOf y tb ix
        match c.entry with
        | some (b, base, key) => if b = blk then elemUnit s o c w t y base key blk else entryUnit s o c y tb blk ix
        | none => entryUnit s o c y tb blk ix

/-- Whether the next step of a window reads its owner table. -/
def CopyOp.readsTable (c : CopyOp) : Bool :=
  let y := layoutOf c.words
  y.otaddr ≠ 0 && (match c.kind, c.table with
    | .tenOut, none => true
    | .tenOut, some tb => (c.firstSource y (y.run c.pos (tblBlk tb 0))).any fun ix => c.entry.all fun e => e.1 ≠ blockOf y tb ix
    | _, _ => false)

/-! ## Gather and scatter (R316, R317) -/

/-- The index of a row, once that part of the list has been read. -/
def CopyOp.index (c : CopyOp) (k : Nat) : Option Nat :=
  if c.buf.length < 4 * k + 4 then none else some (bytesNat ((c.buf.drop (4 * k)).take 4))

/-- Whether an index is out of range. -/
def RowList.out (r : RowList) (n : Nat) : Bool := r.limit ≤ n || n = 0xFFFFFFFF

/-- The address of a row of an index, and whether it is past the end of the address space. -/
def RowList.at' (r : RowList) (ix : Nat) : Nat := r.base + ix * r.stride
def RowList.past' (r : RowList) (ix : Nat) : Bool := 2 ^ 64 < r.at' ix + r.rowb

def gatherUnit (s : State) (o : Op) (c : CopyOp) (w : Warp) (t : Team) : UnitRes :=
  let r := rowListOf c.words
  match c.index c.row with
  | none => bufUnit s o c t r.idx (4 * r.count)
  | some ix =>
    let a := r.at' ix
    let off := r.data + c.row * r.rowb + c.pos
    if r.out ix then let n := min (r.rowb - c.pos) (128 - off % 128); moveIn s o c w t (byteMoves n none off fun _ => 0) n
    else if r.past' ix then .fail s c 0x0A c.row
    else let n := min (r.rowb - c.pos) (128 - (a + c.pos) % 128); moveIn s o c w t (byteMoves n (some (a + c.pos)) off fun _ => 0) n

def scatterUnit (s : State) (o : Op) (c : CopyOp) (t : Team) : UnitRes :=
  let r := rowListOf c.words
  match c.index c.row with
  | none => bufUnit s o c t r.idx (4 * r.count)
  | some ix =>
    let a := r.at' ix
    let off := r.data + c.row * r.rowb + c.pos
    if r.out ix then .moved s (c.advance r.rowb) 0
    else if r.past' ix then .fail s c 0x0A c.row
    else let n := min (r.rowb - c.pos) (128 - (a + c.pos) % 128); moveOut s o c t (byteMoves n (some (a + c.pos)) off fun _ => 0) n

/-- The place in row k of the word at an address, when the row reaches it. -/
def CopyOp.reachesWord (c : CopyOp) (r : RowList) (va k : Nat) : Option Nat :=
  match c.index k with
  | some ix => if !r.out ix && !r.past' ix && r.at' ix ≤ va && va < r.at' ix + r.rowb then some (va - r.at' ix) else none
  | none => none

/-- The scratchpad offsets of everything a scatter adds to the word at an address, by list position. -/
def CopyOp.addends (c : CopyOp) (r : RowList) (va : Nat) : List Nat :=
  (List.range r.count).filterMap fun k => (c.reachesWord r va k).map fun i => r.data + k * r.rowb + i

/-- One addition of a scatter, as an atomic at its home (R317). -/
def addOnce (s : State) (o : Op) (c : CopyOp) (ty : ATy) (ls : List (Nat × Leaf)) (va : Nat) (v : Nat) : State × CopyOp × Option Nat :=
  let leaf := leafFor ls va
  let l : MemLane := { lane := 0, va := va, leaf := leaf, pa := leaf.phys va, data := BitVec.ofNat 128 v }
  let m : MemOp := { kind := .atomic .add ty, bytes := 4, sx := false, stream := c.stm, rc := 0, fillL1 := false, enabled := 1, uni := false,
                     lanes := [], todo := [] }
  let r := atomLane s o (l.pa / 128) .add ty m l
  (r.1, { c with wct := max c.wct r.2.wct, zr := c.zr || r.2.zr, zw := c.zw || r.2.zw }, (r.2.poisoned.head?).map Prod.snd)

/-- The additions to one word, unbroken, by list position. -/
def addWord (s : State) (o : Op) (c : CopyOp) (t : Team) (ty : ATy) (ls : List (Nat × Leaf)) (va : Nat) :
    List Nat → State × CopyOp × Option Nat
  | [] => (s, c, none)
  | off :: offs =>
    match addOnce s o c ty ls va (bytesNat (engRead s t o.id off 4)) with
    | (s, c, some va) => (s, c, some va)
    | (s, c, none) => addWord s o c t ty ls va offs

/-- The additions to the words of a piece, word by word. -/
def addWords (s : State) (o : Op) (c : CopyOp) (t : Team) (ty : ATy) (ls : List (Nat × Leaf)) : List (Nat × List Nat) → State × CopyOp × Option Nat
  | [] => (s, c, none)
  | (va, offs) :: ws =>
    match addWord s o c t ty ls va offs with
    | (s, c, some va) => (s, c, some va)
    | (s, c, none) => addWords s o c t ty ls ws

/-- A scatter with addition: the piece of the next row in one line of memory, whose words that no earlier row has reached take all
that the scatter adds to them. -/
def scatterAdd (s : State) (o : Op) (c : CopyOp) (t : Team) (ty : ATy) : UnitRes :=
  let r := rowListOf c.words
  if c.buf.length < 4 * r.count then bufUnit s o c t r.idx (4 * r.count)
  else
    let ix := (c.index c.row).getD 0
    let a := r.at' ix + c.pos
    if r.out ix then .moved s (c.advance r.rowb) 0
    else if r.past' ix then .fail s c 0x0A c.row
    else
      let n := min (r.rowb - c.pos) (128 - a % 128)
      let fresh (va : Nat) : Bool := (List.range c.row).all fun k => (c.reachesWord r va k).isNone
      let ws := (((List.range (n / 4)).map (a + 4 * ·)).filter fresh).map fun va => (va, c.addends r va)
      let offs := ws.flatMap Prod.snd
      if offs.any fun off => c.held t off 4 then .wait s 1 false
      else match engLines s o.id o.core o.ctx .rw o.walkRes [a] with
        | .bad cause val => .fail s c cause val
        | .wait s => .wait s 1 false
        | .ok s ls =>
          match atBanks s t o (offs.map fun off => (t.coreAt off, off / 4 % 384)) with
          | .again s => .wait s 1 true
          | .done s =>
            match addWords s o c t ty ls ws with
            | (s, c, some va) => .fail s c 0x16 va
            | (s, c, none) => .moved s.used (c.advance n) (4 * offs.length)

/-! ## A unit moved -/

/-- The next step of a copy. -/
def copyUnit (s : State) (o : Op) (c : CopyOp) (w : Warp) (t : Team) : UnitRes :=
  match c.kind with
  | .linIn =>
    let n := c.piece (c.a + c.pos)
    moveIn s o c w t (byteMoves n (some (c.a + c.pos)) (c.b + c.pos) fun _ => 0) n
  | .linOut =>
    let n := c.piece (c.a + c.pos)
    moveOut s o c t (byteMoves n (some (c.a + c.pos)) (c.b + c.pos) fun _ => 0) n
  | .fillSp =>
    let n := c.piece (c.b + c.pos)
    moveIn s o c w t (byteMoves n none (c.b + c.pos) fun i => patByte c.a (c.pos + i)) n
  | .fillMem =>
    let n := c.piece (c.b + c.pos)
    moveOut s o c t (byteMoves n (some (c.b + c.pos)) 0 fun i => patByte c.a (c.pos + i)) n
  | .cellar | .loftCellar _ _ => cellarUnit s o c w t
  | .scr => scrUnit s o c w t
  | .tenIn | .tenOut | .loftTen _ => tenUnit s o c w t
  | .gather => gatherUnit s o c w t
  | .scatter red => if red = .none then scatterUnit s o c t else scatterAdd s o c t (if red = .addf then .f32 else .s32)

/-! ## The memory a copy will write (R164, R311) -/

/-- The leaf of an address as the tables give it now. -/
def peekLeaf (s : State) (core ctx va : Nat) : Option Leaf :=
  match lookupTr s core ctx va [] with
  | .hit l | .die l => some l
  | .failed _ _ => none
  | .none => match walk s ctx va with
    | .leaf l => some l
    | .fault _ _ | .defer => none

/-- A number in memory as it stands, unmoved and uncharged, where its pages are mapped. -/
def peekNat (s : State) (core ctx va n : Nat) : Option Nat :=
  let ls := (List.range n).map fun i => (va + i, peekLeaf s core ctx (va + i))
  if ls.any fun l => l.2.isNone then none
  else some (bytesNat (ls.map fun x => match x.2 with
    | some l => keptByte (homeLine s (l.phys x.1 / 128) l.enc l.keyid ⟨ctx, 0⟩ false) (l.phys x.1 / 128) (l.phys x.1 % 128)
    | none => 0))

/-- The place of an element of a window in this device's memory, when it lies there: its context, under a latchkey on this device that
of the key's window (R56, R352), and its address. -/
def homeAddr (s : State) (core ctx : Nat) (c : CopyOp) (y : Layout) (ix : List Nat) : Option (Nat × Nat) :=
  if y.otaddr = 0 then some (ctx, elemAddr y none y.base ix)
  else match c.table.or ((peekNat s core ctx y.otaddr (headerSize y)).bind (headerTable y)) with
    | none => none
    | some tb =>
      let a := entryAddr tb (blockOf y tb ix) ix
      match (peekNat s core ctx a.1 a.2).map (entryOf tb) with
      | none => none
      | some (base, key) =>
        let w := winAt s key
        if key = 0 then some (ctx, elemAddr y (some tb) base ix)
        else if keyDev key = s.devid && winValid w then some (winCtx w, elemAddr y (some tb) base ix)
        else none

/-- The bytes a copy writes in this device's memory, context and address; the part of the index list that it has not read yet stands as
it is. -/
def CopyOp.targets (s : State) (t : Team) (core ctx : Nat) (c : CopyOp) : List (Nat × Nat) :=
  match c.kind with
  | .linOut => (List.range c.len).map fun i => (ctx, c.a + i)
  | .fillMem => (List.range c.len).map fun i => (ctx, c.b + i)
  | .scatter _ =>
    let r := rowListOf c.words
    let c := { c with buf := c.buf ++ engRead s t s.nextId (r.idx + c.buf.length) (4 * r.count - c.buf.length) }
    (List.range r.count).flatMap fun k => match c.index k with
      | some ix => if r.out ix || r.past' ix then [] else (List.range r.rowb).map fun i => (ctx, r.at' ix + i)
      | none => []
  | .tenOut =>
    let y := layoutOf c.words
    (List.range y.rows).flatMap fun q => (List.range (y.box 0)).flatMap fun j =>
      if !c.takes y q j then [] else match homeAddr s core ctx c y (y.clamped (y.coord q j)) with
        | some a => if y.ebits = 4 then [a] else (List.range (y.ebits / 8)).map fun i => (a.1, a.2 + i)
        | none => []
  | .linIn | .fillSp | .cellar | .scr | .tenIn | .gather | .loftCellar _ _ | .loftTen _ => []

/-- The bytes at addresses of contexts, by line of this device's memory, and those in pages that are not mapped. -/
def claimFor (s : State) (core : Nat) (vas : List (Nat × Nat)) : Tbl (BitVec 128) × List (Nat × Nat) :=
  let leaves := ((vas.map fun v => (v.1, v.2 / 128)).eraseDups).map fun r => (r, peekLeaf s core r.1 (128 * r.2))
  vas.foldl (fun m v => match (leaves.lookup (v.1, v.2 / 128)).bind id with
    | some l => (addByte m.1 (l.phys v.2), m.2)
    | none => (m.1, m.2 ++ [v])) ([], [])

/-- Two sets of bytes, by line. -/
def joinClaims (a b : Tbl (BitVec 128)) : Tbl (BitVec 128) := a.foldl (fun m e => tset m e.1 ((tget m e.1).getD 0 ||| e.2)) b

/-- The bytes of which a copy has written a nibble. -/
def CopyOp.written (c : CopyOp) : Tbl (BitVec 128) :=
  c.put.foldl (fun m e => (List.range 128).foldl (fun m i =>
    if e.2.getLsbD (2 * i) || e.2.getLsbD (2 * i + 1) then addByte m (128 * e.1 + i) else m) m) []

/-- A copy with the bytes of memory it writes named, so that they are undefined until its hook has dropped past it: as far as it has
read its index list or owner table by what it read, and beyond that as those stand (log 41). -/
def CopyOp.claiming (s : State) (t : Team) (core ctx : Nat) (c : CopyOp) : CopyOp :=
  let r := claimFor s core (c.targets s t core ctx)
  { c with claim := joinClaims c.written r.1, unmapped := r.2 }

/-- Whether a copy has read on in what names the bytes it writes. -/
def CopyOp.readOn (c c' : CopyOp) : Bool := c.buf.length != c'.buf.length || c.table != c'.table || c.entry != c'.entry

/-- The lines that a copy's progress has completed, marked full (R308). -/
def markLanded (s : State) (id tid : Nat) (c : CopyOp) (upTo : Nat) : State × CopyOp :=
  if c.marked < upTo then
    let up (d : CopyDest) : CopyDest := if d.id = id then { d with marked := upTo } else d
    (s.modTeam tid fun t => { t.mark 0 true (c.linesIn c.marked upTo) with dests := t.dests.map up }, { c with marked := upTo })
  else (s, c)

def State.putCopy (s : State) (id : Nat) (c : CopyOp) : State := s.modOp id fun o => { o.offBanks with kind := withCopy o.kind c }

/-- The event that ends the work of a copy. -/
def copyEnd (o : Op) : Instr :=
  match o.kind with
  | .matrix _ => .matrixOpFinish o.id
  | _ => .copyFinish o.id

/-- A step of a copy taken: its progress and marks; the next step or its end. -/
def copyNext (s : State) (o : Op) (w : Warp) (c : CopyOp) : State :=
  let ends := c.rows ≤ c.row
  let r := markLanded s o.id w.team c (if ends then c.lineEnd else c.landed)
  let s := r.1.putCopy o.id r.2
  if ends then s.laterFree 1 (copyEnd o) else s.laterFree 1 (.copyUnitMove o.id)

/-- A copy stopped by a failure (R312): its lines not yet marked are marked full. -/
def copyFail (s : State) (o : Op) (w : Warp) (c : CopyOp) (cause val : Nat) : State :=
  let r := markLanded s o.id w.team c c.lineEnd
  (r.1.putCopy o.id { r.2 with fault := some (cause, val) }).later 1 (copyEnd o)

/-- The engine of a core busy after a unit: a clock cycle for every 128 bytes, or two at half the rate (R307); what it moves is charged
(R442). -/
def engineBusy (s : State) (o : Op) (c : CopyOp) (bytes : Nat) : State :=
  let til := coreCycle s o.core + (bytes + 127) / 128 * (if c.half then 2 else 1)
  let s := if bytes = 0 then s else chargeEnergy s o.ctx 1 (opMv s o) (clusterOf s o.core).ratio
  s.modCore o.core fun k => { k with copyFree := til }

/-- What a step of a copy leads to. -/
def copyStep (s : State) (o : Op) (w : Warp) (t : Team) (c : CopyOp) : State :=
  match copyUnit s o c w t with
  | .moved s c' n =>
    let c' := if c.kind.writesMem && c.readOn c' then c'.claiming s t o.core o.ctx else c'
    copyNext (engineBusy s o c n) o w c'
  | .wait s n bank => (if bank then s else s.modOp o.id Op.offBanks).later n (.copyUnitMove o.id)
  | .sent s c' n => (engineBusy s o c n).putCopy o.id c'
  | .fail s c' cause val => copyFail s o w c' cause val

/-- One step of a copy, once the scratchpad accesses its warp issued earlier are performed (R309) and the engine is free. -/
def execCopyUnitMove (op : Nat) (s : State) : Result :=
  match tget s.ops op with
  | none => .next s
  | some o =>
    match copyOf o.kind, s.warp? o.wid with
    | some c, some w =>
      match teamOf s w with
      | none => .next s
      | some t =>
        if c.asked.isSome || c.fault.isSome || c.finished || c.rows ≤ c.row then .next s
        else if (c.usesScratch && olderScr s w op) || coreCycle s o.core < (s.core o.core).copyFree then
          .next (s.later 1 (.copyUnitMove op))
        else .next (copyStep s o w t c)
    | _, _ => .next s

/-- The end of a copy (R310): its completion times merged, its item finished with its flags and fault. -/
def execCopyFinish (op : Nat) (s : State) : Result :=
  match tget s.ops op with
  | none => .next s
  | some o =>
    match o.kind, itemOf s o with
    | .copy c, some it =>
      let flt := c.fault.map fun f => itemFault it f.1 c.lanes f.2
      let fin (i : HookItem) : HookItem := { i with fin := some s.base, fault := flt, zr := c.zr, zw := c.zw }
      let gone (t : Team) : Team := { t with dests := t.dests.filter fun d => d.id ≠ op }
      let s := match s.warp? o.wid with
        | some w => s.modTeam w.team gone
        | none => s
      .next ((s.modWarp o.wid fun w => (w.modItem o.hook op fin).mergeWct c.wct).putCopy op { c with finished := true })
    | _, _ => .next s

/-! ## Answers to a copy's requests -/

/-- A request of a copy answered: the copy goes on with the answers (R312, R314). -/
def copyReply (s : State) (o : Op) (c : CopyOp) (ans : List RemAns) : State :=
  (s.putCopy o.id { c with asked := none, ans := some ans }).later 1 (.copyUnitMove o.id)

/-! ## At issue (R305, R306) -/

/-- The copies in flight on a core. -/
def copiesOn (s : State) (core : Nat) : Nat :=
  (s.ops.filter fun e => e.2.core = core && (match e.2.kind with
    | .copy c => !c.finished
    | _ => false)).length

/-- The words of a record or descriptor in a lane. -/
def recWords (rd : Rd) (o : Opnd) (n lane : Nat) : List Word := (srcSpan rd o.num lane n).map Prod.fst

/-- One check of R306: cause and TRVAL when it fails. -/
abbrev Chk := Option (Nat × Nat)

def chk (bad : Bool) (cause val : Nat) : Chk := if bad then some (cause, val) else none

/-- The failing check of the lowest cause, the first of those. -/
def firstChk (cs : List Chk) : Chk :=
  (cs.filterMap id).foldl (fun b c => match b with
    | none => some c
    | some x => some (if c.1 < x.1 then c else x)) none

/-- The checks of a copy. Which offset TRVAL holds when the scratchpad range and the cellar window of a cpyw both fail is not in the spec:
here the scratchpad's (DESIGN CHOICE, log 77). -/
def copyChecks (s : State) (t : Team) (ctx : Nat) (c : CopyOp) : Chk :=
  let al (v : Nat) : Chk := chk (v % 16 ≠ 0) 0x0D v
  let va (v : Nat) : Chk := chk (0 < c.len && 2 ^ 64 < v + c.len) 0x0A v
  let scr (v : Nat) : Chk := chk (0 < c.len && t.bytes < v + c.len) 0x0C v
  match c.kind with
  | .linIn | .linOut => firstChk [va c.a, scr c.b, al c.a, al c.b, al c.len]
  | .fillSp => firstChk [scr c.b, al c.b, al c.len]
  | .fillMem => firstChk [va c.b, al c.b, al c.len]
  | .cellar =>
    firstChk [scr c.b, chk (0 < c.len && (cellarWin s ctx c.a c.len).isNone) 0x0C c.a, al c.a, al c.b, al c.len]
  | .scr => firstChk [scr c.a, scr c.b, al c.a, al c.b, al c.len]
  | .tenIn | .tenOut => (recFault c.words t.bytes).map fun k => (0x09, k)
  | .gather | .scatter _ => (rowListFault c.words t.bytes).map fun k => (0x09, k)
  | .loftCellar _ _ | .loftTen _ => none

/-- The copy a syllable makes, from the operands of its lowest enabled lane. -/
def copyFor (rd : Rd) (f : Fields) (kind : CopyKind) (em stm : Bool) (rc l : Nat) : CopyOp :=
  let c : CopyOp := { kind := kind, em := em, stm := stm, rc := rc, lanes := rd.iss.lanes }
  match kind with
  | .linIn | .linOut => { c with a := (val64 rd f.a l).toNat, b := (val32 rd f.b l).toNat, len := (val32 rd f.c l).toNat }
  | .fillMem => { c with a := (val32 rd f.a l).toNat, b := (val64 rd f.b l).toNat, len := (val32 rd f.c l).toNat }
  | .fillSp | .cellar | .scr => { c with a := (val32 rd f.a l).toNat, b := (val32 rd f.b l).toNat, len := (val32 rd f.c l).toNat }
  | .tenIn | .tenOut => { c with words := recWords rd f.b 24 l }
  | .gather | .scatter _ => { c with words := recWords rd f.b 8 l }
  | .loftCellar _ _ | .loftTen _ => c

/-- Whether a transfer runs at half the rate (R52, R307). -/
def CopyOp.slow (c : CopyOp) : Bool :=
  match c.kind with
  | .linIn | .linOut => c.a % 128 ≠ 0
  | .fillMem => c.b % 128 ≠ 0
  | .tenIn | .tenOut | .loftTen _ => (layoutOf c.words).slow
  | .gather | .scatter _ => let r := rowListOf c.words; r.base % 128 ≠ 0 || r.stride % 128 ≠ 0
  | .fillSp | .cellar | .scr | .loftCellar _ _ => false

def copyChk (f : Fields) (kind : CopyKind) (em stm : Bool) (rc : Nat) (rd : Rd) : Pre :=
  match leadLane rd f, teamOf rd.s rd.w with
  | l :: _, some t =>
    if 64 ≤ copiesOn rd.s rd.w.core then .hold 14
    else match copyChecks rd.s t (ctxOf rd.s rd.w) (copyFor rd f kind em stm rc l) with
      | some (cause, val) => .trap cause rd.iss.lanes val
      | none => .ok
  | _, _ => .ok

/-- A copy begun: its destination, the lines EM clears, and the transfer counted when it runs at half the rate. -/
def startCopy (rd : Rd) (s : State) (id : Nat) (c : CopyOp) : State :=
  let c := { c with half := c.slow, counted := c.slow, marked := c.lineStart }
  let s := if c.slow then charge s (ctxOf s rd.w) 12 1 else s
  let (lo, pitch, len, rows) := c.scrRows
  let d : CopyDest := ⟨id, lo, pitch, len, rows, c.marked⟩
  let s := if rows = 0 then s else s.modTeam rd.w.team fun t => { t with dests := t.dests ++ [d] }
  if c.em then s.modTeam rd.w.team fun t => t.mark 1 false (c.linesIn c.lineStart c.lineEnd) else s

/-- The record of hooked work put among the work in flight, under the identity `s.nextId`. -/
def putWork (rd : Rd) (f : Fields) (hook : Nat) (dst : Dst) (lanes : Lanes) (k : OpKind) (s : State) : State :=
  let id := s.nextId
  let w := rd.w.raise hook { hookItem rd s dst (enabled rd f) (doneIfNone rd f s) with lanes := lanes }
  let s := s.putWarp w
  if enabled rd f = 0 then s.bump
  else
    let op : Op := { id := id, wid := w.wid, hook := hook, core := w.core, ctx := ctxOf s w, kind := k }
    { s with ops := tset s.ops id op }.bump

def copyEff (f : Fields) (kind : CopyKind) (em stm : Bool) (rc hook : Nat) (rd : Rd) (s : State) : State :=
  let id := s.nextId
  match leadLane rd f with
  | [] => putWork rd f hook (.regs 1023 0) 0 (.knock 0) s
  | l :: _ =>
    let c := copyFor rd f kind em stm rc l
    let c := match teamOf s rd.w with
      | some t => c.claiming s t rd.w.core (ctxOf s rd.w)
      | none => c
    let s := putWork rd f hook (.regs 1023 0) rd.iss.lanes (.copy { c with half := c.slow, counted := c.slow, marked := c.lineStart }) s
    let s := startCopy rd s id c
    if c.rows = 0 then s.laterFree 1 (.copyFinish id) else s.laterFree 1 (.copyUnitMove id)

/-! ## The copy instructions (R304) -/

def execCpyIn (f : Fields) (em stm : Bool) (hook : Nat) (s : State) : Result :=
  withIssue (.cpyIn f em stm hook) (copyChk f .linIn em stm 0) (copyEff f .linIn em stm 0 hook) s
def execCpyOut (f : Fields) (stm : Bool) (rc hook : Nat) (s : State) : Result :=
  withIssue (.cpyOut f stm rc hook) (copyChk f .linOut false stm rc) (copyEff f .linOut false stm rc hook) s
def execCpytIn (f : Fields) (em stm : Bool) (hook : Nat) (s : State) : Result :=
  withIssue (.cpytIn f em stm hook) (copyChk f .tenIn em stm 0) (copyEff f .tenIn em stm 0 hook) s
def execCpytOut (f : Fields) (stm : Bool) (rc hook : Nat) (s : State) : Result :=
  withIssue (.cpytOut f stm rc hook) (copyChk f .tenOut false stm rc) (copyEff f .tenOut false stm rc hook) s
def execCpyg (f : Fields) (em stm : Bool) (hook : Nat) (s : State) : Result :=
  withIssue (.cpyg f em stm hook) (copyChk f .gather em stm 0) (copyEff f .gather em stm 0 hook) s
def execCpys (f : Fields) (red : CpysRed) (stm : Bool) (rc hook : Nat) (s : State) : Result :=
  withIssue (.cpys f red stm rc hook) (copyChk f (.scatter red) false stm rc) (copyEff f (.scatter red) false stm rc hook) s
def execCpyfSp (f : Fields) (em : Bool) (hook : Nat) (s : State) : Result :=
  withIssue (.cpyfSp f em hook) (copyChk f .fillSp em false 0) (copyEff f .fillSp em false 0 hook) s
def execCpyfMem (f : Fields) (stm : Bool) (rc hook : Nat) (s : State) : Result :=
  withIssue (.cpyfMem f stm rc hook) (copyChk f .fillMem false stm rc) (copyEff f .fillMem false stm rc hook) s
def execCpyw (f : Fields) (em : Bool) (hook : Nat) (s : State) : Result :=
  withIssue (.cpyw f em hook) (copyChk f .cellar em false 0) (copyEff f .cellar em false 0 hook) s
def execCpyc (f : Fields) (em : Bool) (hook : Nat) (s : State) : Result :=
  withIssue (.cpyc f em hook) (copyChk f .scr em false 0) (copyEff f .scr em false 0 hook) s

end Sys2Proof.Machine
end

