-- ==== Sys2Proof/Machine/Matrix.lean ====
section
/-! DEFINITION. The matrix engine (R320 to R344): the matrix instructions at issue, their operations performed in engine order with
their deferred faults, and their end. -/

namespace Sys2Proof.Machine

/-- The bytes of a B row of a type (R321). -/
def rowBytesOf (t : EType) : Nat :=
  match t.mclass with
  | some c => mcRb c
  | none => 0

/-! ## Exact values (R336, R337) -/

/-- An element as an exact value; an integer with the low bits that precision `p` drops cleared. -/
def elemVal (t : EType) (p code : Nat) : Fv :=
  match fmtOf t with
  | some f => f.decode code
  | none =>
    let w := t.bits
    let c := code / 2 ^ (w - p) * 2 ^ (w - p)
    let x : Int := if etSigned t then sextN w c else c
    .fin (x < 0) x.natAbs 0

/-- `n` codes of width `w` from the bits of a row. -/
def rowCodes (row w n : Nat) : List Nat := (List.range n).map fun i => row / 2 ^ (w * i) % 2 ^ w

/-- Row k of a macro as a number. -/
def Macro.rowBits (m : Macro) (c : MClass) (k : Nat) : Nat :=
  let b := mcRb c / 128
  (List.range b).foldl (fun a i => a + ((tget m.cells (k * b + i)).getD 0).toNat * 2 ^ (1024 * i)) 0

/-- The values of row k of a macro, one for each column. -/
def Macro.rowVals (m : Macro) (c : MClass) (t : EType) (k : Nat) : List Fv :=
  (rowCodes (m.rowBits c k) (mcWidth c) (mcNc c)).map (elemVal t (mcWidth c))

/-- The exact block sums of one A row against each column. -/
def blockSums (nc : Nat) (a : List Fv) (b : List (List Fv)) : List Fv :=
  (a.zip b).foldl (fun s r => List.zipWith (fun x y => x.add .rn (r.1.mul y)) s r.2) (List.replicate nc (.fin false 0 0))

/-- A value times 2^(e − 127); a scale of 0xFF gives NaN. -/
def Fv.scaleBy (e : Nat) (v : Fv) : Fv :=
  if e = 0xFF then .nan false
  else match v with
    | .fin n m x => .fin n m (x + ((e : Int) - 127))
    | v => v

/-- An exact value as an integer. -/
def Fv.toInt : Fv → Int
  | .fin n m e => (if n then -1 else 1) * ((m * 2 ^ e.toNat : Nat) : Int)
  | .nan _ | .inf _ => 0

/-- An accumulator with a block sum added (R337, R338). -/
def accAdd (f32 : Bool) (acc : Nat × Tag) (x : Fv) : Nat × Tag :=
  if f32 then
    let a := fmtF32.decode acc.1
    let z := a.add .rn x
    let r := if z.isZero then (⟨0, 0, false⟩ : Rounded) else fmtF32.ofFv .rn false false z
    (r.code, storeTag (addTag false [(a, effTag false acc.2), (x, .exact)] (fmtF32.decode r.code) r.ovf (r.flags &&& fNX != 0)))
  else (wrapN 32 ((acc.1 : Int) + x.toInt), 63)

/-! ## Tiles as they are read -/

/-- The value and tag of an accumulator, free where it is undefined. -/
def accRead (s : State) (e : Engine) (t r c : Nat) : Nat × Tag :=
  let x := (e.tile t).cell r c
  ((if x.undef = 0 then x.val else (x.val &&& ~~~x.undef) ||| (Config.freeWord s.fresh (1024 + t) (128 * r + c) &&& x.undef)).toNat,
    if x.tagU then Config.freeTag s.fresh (1024 + t) (128 * r + c) else x.tag)

/-- The tiles an operand class reaches from the one named. -/
def tilesFor (c : MClass) (tile : Nat) : List Nat := if mcNc c = 256 then [tile, tile + 1].filter (· < 8) else [tile]

/-! ## Multiplication (R336, R337) -/

/-- The A rows and scales of a multiplication: for each row its bits, and its scale of each block. -/
structure ARow where
  bits : Nat
  scale : Nat → Nat

/-- One A row accumulated into a tile row: block after block. -/
def mulRow (s : State) (c : MClass) (at' bt : EType) (p k : Nat) (m : Macro) (e : Engine) (tile row : Nat) (a : ARow) : Engine :=
  let av := (rowCodes a.bits (mcWidth c) k).map (elemVal at' p)
  let start := (List.range (mcNc c)).map fun n => accRead s e (tile + n / 128) row (n % 128)
  let step (acc : List (Nat × Tag)) (j : Nat) : List (Nat × Tag) :=
    let ks := (List.range 32).filter fun i => 32 * j + i < k
    let sums := blockSums (mcNc c) (ks.map fun i => av.getD (32 * j + i) (.fin false 0 0)) (ks.map fun i => m.rowVals c bt (32 * j + i))
    let sums := if mcScaled c then (sums.zip (List.range (mcNc c))).map fun x => (x.1.scaleBy (a.scale j)).scaleBy (m.scale j x.2) else sums
    List.zipWith (fun x y => accAdd (mcAcc32 c) x y) acc sums
  let done := (List.range ((k + 31) / 32)).foldl step start
  (done.zip (List.range (mcNc c))).foldl (fun e x =>
    let t := tile + x.2 / 128
    if x.2 % 128 < (e.tile t).cols then
      e.modTile t fun y => y.set row (x.2 % 128) ⟨BitVec.ofNat 32 x.1.1, 0, x.1.2, false⟩
    else e) e

/-- Rows from `row` on accumulated in order. -/
def mulRows (s : State) (c : MClass) (at' bt : EType) (p k : Nat) (m : Macro) (tile : Nat) : List ARow → Nat → Engine → Engine
  | [], _, e => e
  | a :: as, row, e => mulRows s c at' bt p k m tile as (row + 1) (mulRow s c at' bt p k m e tile row a)

/-- The fields of the operand word (R327). -/
def owK (v : Nat) : Nat := bits v 0 9 + 1
def owSc (v : Nat) : Nat := bits v 9 5
def owNr (v : Nat) : Nat := bits v 14 7 + 1
def owP (v : Nat) : Nat := bits v 21 4 + 1

/-- A warp as a multiplication sees its registers: what was issued before its latest mfence has been written (R331). -/
def Warp.afterFence (w : Warp) (fresh fence : Nat) : Warp :=
  let items := (w.hooks.flatMap HookSt.items).filter fun i => i.id < fence
  let w := items.foldl (fun w i => w.writeAll fresh i.dst i.res) w
  { w with
    flight := w.flight.filter fun f => fence ≤ f.seq
    attic := w.attic.map fun a => { a with flights := a.flights.filter fun f => fence ≤ f.seq }
    hooks := w.hooks.map fun h => { h with items := h.items.filter fun i => fence ≤ i.id } }

/-- The A rows of mma, from the registers of its warp (R331, R336). -/
def regRows (s : State) (w : Warp) (fence a b : Nat) (scaled : Bool) : List ARow :=
  let g := 128 / w.width
  let w := w.afterFence s.fresh fence
  (List.range (w.width / 16)).map fun i =>
    { bits := (List.range 128).foldl (fun n q => n + (regRead s w (a + g * i + q % g) (q / g)).1.toNat * 2 ^ (32 * q)) 0
      scale := fun j => if scaled then (regRead s w b (16 * i + j)).1.toNat % 256 else 0x7F }

/-- The A rows of mmas, from scratchpad. -/
def scrRowsOf (s : State) (t : Team) (id : Nat) (c : MClass) (a b n : Nat) : List ARow :=
  (List.range n).map fun i =>
    { bits := bytesNat (engRead s t id (a + i * mcRl c) (mcRl c)), scale := fun j => (scrByte s t (some id) (b + 16 * i + j)).toNat }

/-! ## Drains (R339 to R341) -/

/-- The word of element c of a tile row as a register drain gives it. -/
def drainWord (s : State) (e : Engine) (t r c : Nat) : Word × Tag :=
  if (e.tile t).cols ≤ c then (0, if (e.tile t).f32 then 62 else 63)
  else let x := accRead s e t r c; (BitVec.ofNat 32 x.1, x.2)

/-- The results of a register drain (R336, R339). -/
def drainRes (s : State) (w : Warp) (e : Engine) (t row0 : Nat) : List LaneRes :=
  let g := 128 / w.width
  (List.range w.width).map fun l =>
    { lane := l, vals := (List.range 8).map fun k => drainWord s e t (row0 + k / g) (l * g + k % g) }

/-- The bytes of a number, lowest first. -/
def leBytes (n v : Nat) : List Byte := (List.range n).map fun i => BitVec.ofNat 8 (v / 256 ^ i)

/-- The scale of a block of f32 codes (R222, R236, R341). -/
def blockScale (dt : EType) (vs : List Nat) : Nat :=
  let nan := vs.any fun v => (fmtF32.decode v).isNan
  (cvtscScaleVal dt (if nan then fmtF32.nan else vs.foldl (fun m v => max m (v % 2 ^ 31)) 0)).1

/-- A list cut into pieces of 32. -/
def cut32 : Nat → List Nat → List (List Nat)
  | 0, _ => []
  | f + 1, vs => if vs.isEmpty then [] else vs.take 32 :: cut32 f (vs.drop 32)

/-- The codes of a row, quantised in blocks, and its scales. -/
def quantRow (dt : EType) (vs : List Nat) : List Nat × List Nat :=
  let bs := (cut32 4 vs).map fun b => (b, blockScale dt b)
  (bs.flatMap fun b => b.1.map fun v => (cvtscVal dt v b.2).1, bs.map Prod.snd)

/-- Codes packed into the bytes of a row of `n` bytes, zero beyond them (R17). -/
def packRow (dt : EType) (n : Nat) (codes : List Nat) : List Byte :=
  let v := (codes.zip (List.range codes.length)).foldl (fun a c => a + c.1 * 2 ^ (dt.bits * c.2)) 0
  leBytes n v

/-- A row of a quantised form, rounded up to 16 bytes. -/
def rowStep (dt : EType) (cols : Nat) : Nat := (cols * dt.bits / 8 + 15) / 16 * 16

/-- The bytes of a quantised form: its rows, then four scales for each. -/
def quantBytes (dt : EType) (cols : Nat) (rows : List (List Nat)) : List Byte :=
  let qs := rows.map (quantRow dt)
  qs.flatMap (fun q => packRow dt (rowStep dt cols) q.1)
    ++ qs.flatMap fun q => (List.range 4).map fun j => BitVec.ofNat 8 (q.2.getD j 0)

def drType : DrFmt → EType
  | .e2m1 => .e2m1
  | .raw | .bf16 | .e4m3 => .e4m3

/-- The accumulators of a tile by row. -/
def tileRows (s : State) (e : Engine) (t : Nat) : List (List Nat) :=
  (List.range (e.tile t).rows).map fun r => (List.range (e.tile t).cols).map fun c => (accRead s e t r c).1

/-- The accumulators of a tile by column. -/
def tileCols (s : State) (e : Engine) (t : Nat) : List (List Nat) :=
  (List.range (e.tile t).cols).map fun c => (List.range (e.tile t).rows).map fun r => (accRead s e t r c).1

/-- The bytes a scratchpad drain writes at A. -/
def drainBytes (s : State) (e : Engine) (t : Nat) (fmt : DrFmt) : List Byte :=
  match fmt with
  | .raw => (tileRows s e t).flatMap fun r => r.flatMap (leBytes 4)
  | .bf16 => (tileRows s e t).flatMap fun r => r.flatMap fun v => leBytes 2 (fmtBf16.ofFv .rn false false (fmtF32.decode v)).code
  | .e4m3 | .e2m1 => quantBytes (drType fmt) (e.tile t).cols (tileRows s e t)

/-- The lengths of what a scratchpad drain writes at A, and at B with T. -/
def drainLens (y : Tile) (fmt : DrFmt) (tr : Bool) : Nat × Nat :=
  match fmt with
  | .raw => (4 * y.rows * y.cols, 0)
  | .bf16 => (2 * y.rows * y.cols, 0)
  | .e4m3 | .e2m1 =>
    let q (rows cols : Nat) : Nat := rows * rowStep (drType fmt) cols + 4 * rows
    (q y.rows y.cols, if tr then q y.cols y.rows else 0)

/-! ## What an operation touches (R330) -/

/-- Tiles as t, macros as 8 + m, sidecars as 12 + m. -/
def matTouches : Instr → List Nat
  | .mcfg _ _ t _ _ _ | .mdrainReg _ t _ _ | .mdrainScratch _ _ _ _ _ t _ | .mzero _ t _ => [t]
  | .mloft _ _ lf _ | .mloftw _ _ lf _ | .mlofth _ lf _ => [8 + lf]
  | .mscl _ _ lf _ => [8 + lf, 12 + lf]
  | .mma _ ty t lf _ _ | .mmas _ ty t lf _ _ =>
    [8 + lf] ++ (match ty.mclass with
      | some c => tilesFor c t ++ (if mcScaled c then [12 + lf] else [])
      | none => [t])
  | _ => []

/-- The team of a piece of work. -/
def opTeam (s : State) (o : Op) : Option Nat := (s.warp? o.wid).map Warp.team

/-- An operation of the same team on the same engine, earlier in its order, not yet performed and touching the same. -/
def matOrder (s : State) (o : Op) (m : MatOp) : Bool :=
  s.ops.any fun e => e.1 < o.id && e.2.core = o.core && opTeam s e.2 = opTeam s o && (match e.2.kind with
    | .matrix n => !n.performed && (matTouches n.ins).any (matTouches m.ins).contains
    | _ => false)

def isMfence : Instr → Bool
  | .mfence _ _ => true
  | _ => false

/-- Whether an earlier mfence of the warp has not finished (R331). -/
def fenceOpen (s : State) (o : Op) : Bool :=
  s.ops.any fun e => e.1 < o.id && e.2.wid = o.wid && (match e.2.kind with
    | .matrix n => isMfence n.ins && !n.finished
    | _ => false)

/-- Whether an operation waits for the mfences before it. -/
def needsFence : Instr → Bool
  | .mma .. | .mdrainReg .. => true
  | _ => false

/-- The conditions of an mfence (R331). -/
def mfenceMet (w : Warp) (id : Nat) : Bool :=
  !(w.flight.any fun f => f.seq < id)
    && !((match w.attic with
      | some a => a.flights
      | none => []).any fun f => f.seq < id)
    && !(w.hooks.any fun h => h.items.any fun i => i.id < id && i.fin.isNone && !i.dst.opnds.isEmpty && i.lanes != 0)

/-! ## Scratchpad ranges (R329, R332) -/

/-- The scratchpad ranges an operation reads; mscl those of its macro's columns (R335). -/
def matReads (e : Engine) (m : MatOp) : List (Nat × Nat) :=
  match m.ins with
  | .mloft _ bt _ _ => match bt.mclass with
    | some c => [(m.a, m.c * mcRb c)]
    | none => []
  | .mmas _ ty _ _ _ _ => match ty.mclass with
    | some c => (m.a, owNr m.c * mcRl c) :: (if mcScaled c then [(m.b, 16 * owNr m.c)] else [])
    | none => []
  | .mscl _ cl lf _ => match (e.macro' lf).btype.bind EType.mclass with
    | some c => if cl then [] else (List.range m.c).map fun j => (m.a + 256 * j, mcNc c)
    | none => []
  | _ => []

/-- The scratchpad ranges an operation writes, for the tile it drains. -/
def matWrites (m : MatOp) (y : Tile) : List (Nat × Nat) :=
  match m.ins with
  | .mdrainScratch _ fmt tr _ _ _ _ =>
    let n := drainLens y fmt tr
    (m.a, n.1) :: (if tr then [(m.b, n.2)] else [])
  | _ => []

def matTile : Instr → Nat
  | .mdrainScratch _ _ _ _ _ t _ => t
  | _ => 0

/-! ## Deferred faults (R342) -/

/-- The faults of the tiles a multiplication accumulates into. -/
def mulFault (e : Engine) (c : MClass) (tile lf row0 n : Nat) : Chk :=
  let ts := tilesFor c tile
  let bad := ts.filterMap fun t => match (e.tile t).st with
    | .free => some (0x07, t)
    | .poison => some (0x07, t + 8)
    | .zero | .live => none
  let mb := (e.macro' lf).btype.bind EType.mclass
  let first (p : Tile → Bool) : Option Nat := ts.find? fun t => p (e.tile t)
  firstChk ([bad.head?,
    chk (mb ≠ some c) 0x09 (0x50 + 256 * lf)]
    ++ [(first fun y => y.f32 ≠ mcAcc32 c).map fun t => (0x09, 0x51 + 256 * t),
        (first fun y => y.rows < row0 + n).map fun t => (0x09, 0x52 + 256 * t),
        chk (mcNc c = 256 && tile % 2 = 1) 0x09 (0x53 + 256 * tile)])

/-- The fault of a tile that cannot be drained. -/
def drainFault (e : Engine) (t : Nat) : Chk :=
  match (e.tile t).st with
  | .free => some (0x07, t)
  | .poison => some (0x07, t + 8)
  | .zero | .live => none

/-- The fault of an operation, as it is performed. -/
def matFault (e : Engine) (w : Warp) (tm : Team) (m : MatOp) : Chk :=
  match m.ins with
  | .mma _ ty t lf row0 _ => ty.mclass.bind fun c => mulFault e c t lf row0 (w.width / 16)
  | .mmas _ ty t lf row0 _ => ty.mclass.bind fun c => mulFault e c t lf row0 (owNr m.c)
  | .mscl _ _ lf _ => chk (((e.macro' lf).btype.bind EType.mclass).all fun c => !mcScaled c) 0x09 (0x54 + 256 * lf)
  | .mzero _ t _ => chk ((e.tile t).st = .free) 0x07 t
  | .mdrainReg _ t row0 _ => firstChk [drainFault e t, chk ((e.tile t).rows < row0 + w.width / 16) 0x09 (0x52 + 256 * t)]
  | .mdrainScratch _ fmt _ _ _ t _ =>
    firstChk ([drainFault e t, chk (fmt ≠ .raw && !(e.tile t).f32) 0x09 (0x55 + 256 * t)]
      ++ (matWrites m (e.tile t)).map fun r => chk (tm.bytes < r.1 + r.2) 0x0C r.1)
  | _ => none

/-! ## Operations performed -/

/-- A shape set (R323). -/
def Tile.cfg (y : Tile) (rows cols : Nat) (f32 : Bool) : Tile :=
  { y with rows := rows, cols := cols, f32 := f32, acc := [], st := match y.st with
      | .free | .zero => .zero
      | .live | .poison => .poison }

def Tile.zeroed (id : Nat) (y : Tile) : Tile := { y with st := .zero, acc := [], zeroId := id }

/-- A multiplication made by an engine. -/
def mulDo (s : State) (e : Engine) (c : MClass) (ty : EType) (tile lf row0 v : Nat) (rows : List ARow) : Engine :=
  let m := e.macro' lf
  let e := mulRows s c ty (m.btype.getD ty) (owP v) (owK v) m tile rows row0 e
  (tilesFor c tile).foldl (fun e t => e.modTile t fun y => { y with st := .live }) e

/-- The scales of a sidecar written block by block. -/
def Macro.setScales (m : Macro) (nc nb : Nat) (get : Nat → Byte) : Macro :=
  { m with scales := (List.range nb).foldl (fun t j => (List.range nc).foldl (fun t n => tset t (256 * j + n) (get (256 * j + n))) t) m.scales }

/-- The bytes of the cellar from an offset on that mscl reads and that are poisoned, lowest first. -/
def cellarBad (s : State) (a nc nb : Nat) : List Nat :=
  ((List.range nb).flatMap fun j => (List.range nc).map fun n => a + 256 * j + n).filter fun x => s.cellarPoison.contains (x / 64)

/-- A drain noted at the tile it reads, for the multiplications before it that may still be spoiled (R331). -/
def Tile.drained (s : State) (id wid : Nat) (opnd : Option Nat) (put : List (Nat × Nat)) (y : Tile) : Tile :=
  let open' (d : Drained) : Bool := s.ops.any fun e => e.1 < d.id && !(match e.2.kind with
    | .matrix m => mmaOpnds m.ins
    | _ => []).isEmpty
  { y with drains := ⟨id, wid, opnd, put, y.zeroId⟩ :: y.drains.filter open' }

/-- What an operation does to its engine. -/
def matEngine (s : State) (e : Engine) (id : Nat) (w : Warp) (t : Team) (m : MatOp) : Engine :=
  match m.ins with
  | .mcfg _ s32 tile rc cc _ => e.modTile tile fun y => y.cfg (16 * (rc + 1)) (16 * (cc + 1)) (!s32)
  | .mzero _ tile _ => e.modTile tile (Tile.zeroed id)
  | .mloft _ bt lf _ => match bt.mclass with
    | some c => e.modMacro lf fun k => { k.setBytes 0 (engRead s t id m.a (m.c * mcRb c)) with btype := some bt }
    | none => e
  | .mscl _ cl lf _ => match (e.macro' lf).btype.bind EType.mclass with
    | some c => e.modMacro lf fun k => k.setScales (mcNc c) m.c fun i =>
        if cl then (if s.cellarPoison.contains ((m.a + i) / 64) then 0 else cget s.cellar (m.a + i)) else scrByte s t (some id) (m.a + i)
    | none => e
  | .mma f ty tile lf row0 _ => match ty.mclass with
    | some c => mulDo s e c ty tile lf row0 m.c (regRows s w m.fenced f.a.num f.b.num (mcScaled c))
    | none => e
  | .mmas _ ty tile lf row0 _ => match ty.mclass with
    | some c => mulDo s e c ty tile lf row0 m.c (scrRowsOf s t id c m.a m.b (owNr m.c))
    | none => e
  | .mdrainReg f tile _ _ => e.modTile tile (Tile.drained s id w.wid (some f.d.num) [])
  | .mdrainScratch _ _ _ z _ tile _ =>
    let e := e.modTile tile (Tile.drained s id w.wid none (matWrites m (e.tile tile)))
    if z then e.modTile tile (Tile.zeroed id) else e
  | _ => e

/-- Bytes from an offset on. -/
def bytesAt (off : Nat) (bs : List Byte) : List (Nat × Byte) := ((List.range bs.length).map (off + ·)).zip bs

/-- The bytes that a scratchpad drain puts into scratchpad. -/
def matBytes (s : State) (e : Engine) (m : MatOp) : List (Nat × Byte) :=
  match m.ins with
  | .mdrainScratch _ fmt tr _ _ tile _ =>
    bytesAt m.a (drainBytes s e tile fmt)
      ++ (if tr then bytesAt m.b (quantBytes (drType fmt) (e.tile tile).rows (tileCols s e tile)) else [])
  | _ => []

/-- What an operation does to its team's scratchpad: the bytes and the marks of a drain. -/
def matScratch (s : State) (e : Engine) (id : Nat) (t : Team) (m : MatOp) : Team :=
  (engPut s id t (matBytes s e m)).mark 0 true ((matWrites m (e.tile (matTile m.ins))).flatMap fun r => linesFrom r.1 r.2)

/-- The clock cycles for which a macro is busy, and the least number from issue to drop (R343). -/
def matBusy (w : Warp) (m : MatOp) : Nat :=
  match m.ins with
  | .mma .. => w.width / 16 * owP m.c
  | .mmas .. => owNr m.c * owP m.c
  | _ => 0

def matLeast (w : Warp) (y : Tile) (m : MatOp) : Nat :=
  match m.ins with
  | .mcfg .. | .mzero .. => 4
  | .mfence .. => 1
  | .mloft _ bt _ _ => 16 + m.c * rowBytesOf bt / 128
  | .mloftw _ bt _ _ => 40 + m.c * rowBytesOf bt / 128
  | .mlofth .. => 8
  | .mscl .. => 16 + 2 * m.c
  | .mma .. | .mmas .. => 20 + matBusy w m
  | .mdrainReg .. => 16
  | .mdrainScratch _ fmt tr _ _ _ _ => let n := drainLens y fmt tr; 16 + (n.1 + n.2 + 127) / 128
  | _ => 0

/-- The macro that a multiplication keeps busy. -/
def mulMacro : Instr → Option Nat
  | .mma _ _ _ lf _ _ | .mmas _ _ _ lf _ _ => some lf
  | _ => none

def State.putMat (s : State) (id : Nat) (m : MatOp) : State := s.modOp id fun o => { o.offBanks with kind := .matrix m }

/-- Poison that mscl meets in the cellar under its window's ZP: its fault, and whether zeros stood for it. -/
def msclPoison (s : State) (o : Op) (e : Engine) (m : MatOp) : Chk × Bool :=
  match m.ins with
  | .mscl _ true lf _ => match (e.macro' lf).btype.bind EType.mclass with
    | some c => match cellarBad s m.a (mcNc c) m.c with
      | [] => (none, false)
      | x :: _ => match cellarWin s o.ctx m.a (256 * m.c) with
        | some v => if v.zp then (none, true) else (some (0x16, x), false)
        | none => (some (0x16, x), false)
    | none => (none, false)
  | _ => (none, false)

/-- An operation performed: its fault, or its effect on the engine, scratchpad and its register drain's destination. -/
def matDo (s : State) (o : Op) (w : Warp) (t : Team) (m : MatOp) : State :=
  let e := engineOf s w
  let cyc := m.begun.getD (coreCycle s o.core)
  let start := if cyc ≤ m.issued + 1 then m.issued else cyc
  let p := msclPoison s o e m
  let gone (t : Team) : Team := { t with dests := t.dests.filter fun d => d.id ≠ o.id }
  let m := { m with performed := true, finishAt := start + matLeast w (e.tile (matTile m.ins)) m, zr := p.2 }
  match firstChk [matFault e w t m, p.1] with
  | some f =>
    let lines := (matWrites m (e.tile (matTile m.ins))).flatMap fun r => linesFrom r.1 (min r.2 (t.bytes - r.1))
    let s := s.putTeam (gone (t.mark 0 true lines))
    (s.putMat o.id { m with fault := some f }).later 1 (.matrixOpFinish o.id)
  | none =>
    let hold (k : Macro) : Macro := { k with busy := start + matBusy w m }
    let rs := engRanges s o.id t (matBytes s e m)
    let e' := matEngine s (e.overwritten rs) o.id w t m
    let m := { m with put := matWrites m (e.tile (matTile m.ins)) }
    let e' := match mulMacro m.ins with
      | some lf => e'.modMacro lf hold
      | none => e'
    let put (_ : Engine) : Engine := e'
    let s' := modEngine (overwrite (s.putTeam (gone (matScratch s e o.id t m))) t rs) w put
    let s' := match m.ins with
      | .mdrainReg _ tile row0 _ =>
        let give (i : HookItem) : HookItem := { i with res := drainRes s w e tile row0, early := true }
        s'.modWarp o.wid fun w => w.modItem o.hook o.id give
      | _ => s'
    let s' := taintMma (s'.putMat o.id m) w o.id m
    s'.used.later 1 (.matrixOpFinish o.id)

/-- The end of a refresh window that holds a cellar read of mscl. -/
def matRefresh (s : State) (m : MatOp) : Option Nat :=
  match m.ins with
  | .mscl _ true _ _ => (refreshEnd s m.a).or (refreshEnd s (m.a + 256 * m.c - 1))
  | _ => none

/-- Whether an operation reads or writes scratchpad. -/
def usesScr : Instr → Bool
  | .mloft .. | .mmas .. | .mdrainScratch .. => true
  | .mscl _ cl _ _ => !cl
  | _ => false

/-- Whether an operation that has not begun may be performed now, but for its banks (R330 to R332): for a team that is resident. -/
def matReady (s : State) (o : Op) (w : Warp) (t : Team) (m : MatOp) : Bool :=
  t.place = .resident && !matOrder s o m
    && (!needsFence m.ins || !fenceOpen s o)
    && (!isMfence m.ins || mfenceMet w o.id)
    && (match mulMacro m.ins with
      | some lf => ((engineOf s w).macro' lf).busy ≤ coreCycle s o.core
      | none => true)
    && (!usesScr m.ins || !olderScr s w o.id)
    && !((matReads (engineOf s w) m).any fun r => (linesFrom r.1 r.2).any t.empty.contains)
    && (matRefresh s m).isNone

/-- A matrix operation tried in this clock cycle: a load by the copy engine's means is begun, the others are made at once. -/
def execMatrixOpPerform (op : Nat) (s : State) : Result :=
  match tget s.ops op with
  | none => .next s
  | some o =>
    match o.kind, s.warp? o.wid with
    | .matrix m, some w =>
      match teamOf s w with
      | none => .next s
      | some t =>
        if m.performed || m.finished then .next s
        else if m.begun.isNone && !matReady s o w t m then .next (s.later 1 (.matrixOpPerform op))
        else
          let m := { m with begun := some (m.begun.getD (coreCycle s o.core)) }
          match m.copy with
          | some c => .next ((s.putMat op m).later 1 (if c.rows = 0 then .matrixOpFinish op else .copyUnitMove op))
          | none =>
            let e := engineOf s w
            let ws := (matReads e m ++ matWrites m (e.tile (matTile m.ins))).flatMap fun r => engBanks t r.1 r.2
            match atBanks s t o ws with
            | .again s => .next ((s.modOp op fun o => { o with kind := .matrix m }).later 1 (.matrixOpPerform op))
            | .done s => .next (matDo (chargeEnergy s o.ctx 2 (opMv s o) (clusterOf s o.core).ratio) o w t m)
    | _, _ => .next s

/-- The end of a load made by the copy engine's means: the macro takes its B type, unless it failed (R333, R334, R342). -/
def loftEnd (s : State) (o : Op) (w : Warp) (m : MatOp) (c : CopyOp) : State :=
  let m := { m with performed := true, fault := c.fault, zr := c.zr,
                    finishAt := match m.ins with
                      | .mlofth _ _ _ => coreCycle s o.core + matLeast w {} m
                      | _ => m.issued + matLeast w {} m }
  let bt : Option EType := match c.kind with
    | .loftCellar bt _ => some bt
    | .loftTen _ => some (layoutOf c.words).etype
    | _ => none
  let s := if c.fault.isSome then s else match c.macro' with
    | some lf => modEngine s w fun e => e.modMacro lf fun k => { k with btype := bt }
    | none => s
  s.putMat o.id m

/-- A matrix operation at its end: not before its least time; its item is finished with its fault (R342, R343). -/
def execMatrixOpFinish (op : Nat) (s : State) : Result :=
  match tget s.ops op with
  | none => .next s
  | some o =>
    match o.kind, s.warp? o.wid, itemOf s o with
    | .matrix m, some w, some it =>
      if m.finished then .next s
      else match m.performed, m.copy with
        | false, some c => .next ((loftEnd s o w m c).later 1 (.matrixOpFinish op))
        | false, none => .next s
        | true, _ =>
          if coreCycle s o.core < m.finishAt then .next (s.later 1 (.matrixOpFinish op))
          else
            let flt := m.fault.map fun f => itemFault it f.1 m.lanes f.2
            let fin (i : HookItem) : HookItem := { i with fin := some s.base, fault := flt, zr := m.zr }
            let done := { m with finished := true }
            .next (taintMma ((s.modWarp o.wid fun w => w.modItem o.hook op fin).putMat op done) w op done)
    | _, _, _ => .next s

/-! ## At issue (R324, R328, R329) -/

/-- The operations in flight on a core's engine; those of a saved team that have not begun are in its image (R344). -/
def matsOn (s : State) (core : Nat) : Nat :=
  (s.ops.filter fun e => e.2.core = core && (match e.2.kind with
    | .matrix m => !m.finished && (m.begun.isSome || !((opTeam s e.2).bind s.team?).any fun t => t.place == .saved)
    | _ => false)).length

/-- The checks of the operand word (R327, R329). -/
def owChecks (c : MClass) (v : Nat) (mma : Bool) : List Chk :=
  let need := if mcScaled c then (owK v + 31) / 32 else 0
  [chk (owSc v ≠ need) 0x08 (owSc v + 256 * need), chk (bits v 25 7 ≠ 0) 0x09 0x40, chk (mcKl c < owK v) 0x09 0x41,
    chk (!mcPOk c (owP v)) 0x09 0x42, chk (mma && owNr v ≠ 1) 0x09 0x43]

/-- The checks of the record of mlofth. -/
def recordChecks (ws : List Word) (alloc : Nat) : List Chk :=
  let y := layoutOf ws
  [(recFault ws alloc).map fun k => (0x09, k),
    chk (match y.etype.mclass with
      | none => true
      | some c => y.dest ≠ 0 || y.swz ≠ 0 || y.swzArg ≠ 0 || mcNc c < y.box 0 || mcKl c < y.rows) 0x09 0x45]

/-- The checks of a scratchpad range, and of a cellar range. -/
def rangeChecks (t : Team) (a n : Nat) : List Chk := [chk (t.bytes < a + n) 0x0C a, chk (a % 16 ≠ 0) 0x0D a]
def cellarChecks (s : State) (ctx a n : Nat) : List Chk := [chk (cellarWin s ctx a n).isNone 0x0C a, chk (a % 16 ≠ 0) 0x0D a]

/-- The rows and blocks that a load may name. -/
def countCheck (n top : Nat) : Chk := chk (n = 0 || top < n) 0x09 0x44

/-- The checks of a matrix syllable from what it read at issue. -/
def matChecks (s : State) (ctx : Nat) (t : Team) (m : MatOp) : Chk :=
  match m.ins with
  | .mloft _ bt _ _ => bt.mclass.bind fun c => firstChk (countCheck m.c (mcKl c) :: rangeChecks t m.a (m.c * mcRb c))
  | .mloftw _ bt _ _ => bt.mclass.bind fun c => firstChk (countCheck m.c (mcKl c) :: cellarChecks s ctx m.a (m.c * mcRb c))
  | .mlofth _ _ _ => firstChk (recordChecks m.words t.bytes)
  | .mscl _ cl _ _ => firstChk (countCheck m.c 16 :: (if cl then cellarChecks s ctx m.a (256 * m.c) else rangeChecks t m.a (256 * m.c)))
  | .mma _ ty _ _ _ _ => ty.mclass.bind fun c => firstChk (owChecks c m.c true)
  | .mmas _ ty _ _ _ _ => ty.mclass.bind fun c =>
    firstChk (owChecks c m.c false ++ rangeChecks t m.a (owNr m.c * mcRl c) ++ (if mcScaled c then rangeChecks t m.b (16 * owNr m.c) else []))
  | .mdrainScratch _ _ tr _ _ _ _ => firstChk (chk (m.a % 16 ≠ 0) 0x0D m.a :: (if tr then [chk (m.b % 16 ≠ 0) 0x0D m.b] else []))
  | _ => none

/-- The operands of a matrix syllable, read from lane 0. -/
def matOpOf (i : Instr) (f : Fields) (rd : Rd) : MatOp :=
  let v (o : Opnd) : Nat := match o with
    | .none => 0
    | o => (val32 rd o 0).toNat
  let m : MatOp := { ins := i, c := v f.c, lanes := rd.iss.lanes, fenced := rd.w.lastFence, issued := coreCycle rd.s rd.w.core }
  match i with
  | .mma .. | .mdrainReg .. => m
  | .mlofth .. => { m with words := recWords rd f.b 24 0 }
  | _ => { m with a := v f.a, b := v f.b }

def matChk (i : Instr) (f : Fields) (rd : Rd) : Pre :=
  let all := allLanes rd.w.width
  let en := enabled rd f
  match teamOf rd.s rd.w with
  | none => .ok
  | some t =>
    let holder := (rd.s.core rd.w.core).engine.holder
    if holder.any (· ≠ t.tid) then .hold 14
    else if en ≠ 0 && 32 ≤ matsOn rd.s rd.w.core then .hold 14
    else if rd.iss.lanes ≠ all || (en ≠ 0 && en ≠ all) then .trap 0x06 rd.iss.lanes 0
    else if en = 0 then .ok
    else match matChecks rd.s (ctxOf rd.s rd.w) t (matOpOf i f rd) with
      | some (cause, val) => .trap cause rd.iss.lanes val
      | none => .ok

/-- The engine taken by the warp's team, with empty macros and free tiles (R322 to R324). -/
def takeEngine (s : State) (w : Warp) : State :=
  if (s.core w.core).engine.holder.isSome then s else s.modCore w.core fun c => { c with engine := { holder := some w.team } }

/-- The copy that a load through the copy engine's means makes. -/
def loftCopy (rd : Rd) (m : MatOp) : Option CopyOp :=
  match m.ins with
  | .mloftw _ bt lf _ => some { kind := .loftCellar bt lf, a := m.a, len := m.c * rowBytesOf bt, lanes := rd.iss.lanes }
  | .mlofth _ lf _ => some { kind := .loftTen lf, words := m.words, lanes := rd.iss.lanes }
  | _ => none

/-- The shape a tile will have once the operations in flight before this one are performed. -/
def shapeAt (s : State) (w : Warp) (tile : Nat) : Tile :=
  s.ops.foldl (fun y e => match e.2.kind with
    | .matrix n => match n.ins with
      | .mcfg _ _ t rc cc _ => if e.2.core = w.core && opTeam s e.2 = some w.team && !n.performed && t = tile then { y with rows := 16 * (rc + 1), cols := 16 * (cc + 1) } else y
      | _ => y
    | _ => y) ((engineOf s w).tile tile)

/-- What a scratchpad drain does at its issue: its destination is undefined until it is marked (R164), and EM clears its lines
(R332). -/
def drainBegin (s : State) (w : Warp) (id : Nat) (t : Team) (m : MatOp) : Team :=
  match m.ins with
  | .mdrainScratch _ _ _ _ em tile _ =>
    let rs := matWrites m (shapeAt s w tile)
    let t := { t with dests := t.dests ++ rs.map fun r => ⟨id, r.1, max 1 r.2, r.2, 1, r.1 / 128⟩ }
    if em then t.mark 1 false (rs.flatMap fun r => linesFrom r.1 (min r.2 (t.bytes - r.1))) else t
  | _ => t

/-- The registers a matrix syllable writes. -/
def matDst (i : Instr) : Dst :=
  match i with
  | .mdrainReg f _ _ _ => .regs f.d.num 8
  | _ => .regs 1023 0

def matEff (i : Instr) (f : Fields) (hook : Nat) (rd : Rd) (s : State) : State :=
  let id := s.nextId
  let m := matOpOf i f rd
  let s := takeEngine s rd.w
  let c := loftCopy rd m
  let fresh (c : CopyOp) : CopyOp := { c with half := c.slow, counted := c.slow }
  let s := putWork rd f hook (matDst i) (enabled rd f) (.matrix { m with copy := c.map fresh }) s
  if enabled rd f = 0 then s
  else
    let s := match c with
      | some c => if c.slow then charge s (ctxOf s rd.w) 12 1 else s
      | none => s
    let s := s.modTeam rd.w.team fun t => drainBegin s rd.w id t m
    let s := if isMfence i then s.modWarp rd.w.wid fun w => { w with lastFence := id } else s
    s.later 1 (.matrixOpPerform id)

def matIssue (i : Instr) (f : Fields) (hook : Nat) (s : State) : Result := withIssue i (matChk i f) (matEff i f hook) s

/-! ## The matrix instructions (R326) -/

def execMcfg (f : Fields) (s32 : Bool) (tile rc cc hook : Nat) (s : State) : Result := matIssue (.mcfg f s32 tile rc cc hook) f hook s
def execMloft (f : Fields) (bt : EType) (lf hook : Nat) (s : State) : Result := matIssue (.mloft f bt lf hook) f hook s
def execMloftw (f : Fields) (bt : EType) (lf hook : Nat) (s : State) : Result := matIssue (.mloftw f bt lf hook) f hook s
def execMlofth (f : Fields) (lf hook : Nat) (s : State) : Result := matIssue (.mlofth f lf hook) f hook s
def execMma (f : Fields) (at' : EType) (tile lf row0 hook : Nat) (s : State) : Result :=
  matIssue (.mma f at' tile lf row0 hook) f hook s
def execMmas (f : Fields) (at' : EType) (tile lf row0 hook : Nat) (s : State) : Result :=
  matIssue (.mmas f at' tile lf row0 hook) f hook s
def execMscl (f : Fields) (cl : Bool) (lf hook : Nat) (s : State) : Result := matIssue (.mscl f cl lf hook) f hook s
def execMdrainReg (f : Fields) (tile row0 hook : Nat) (s : State) : Result := matIssue (.mdrainReg f tile row0 hook) f hook s
def execMdrainScratch (f : Fields) (fmt : DrFmt) (t z em : Bool) (tile hook : Nat) (s : State) : Result :=
  matIssue (.mdrainScratch f fmt t z em tile hook) f hook s
def execMzero (f : Fields) (tile hook : Nat) (s : State) : Result := matIssue (.mzero f tile hook) f hook s
def execMfence (f : Fields) (hook : Nat) (s : State) : Result := matIssue (.mfence f hook) f hook s

end Sys2Proof.Machine
end

