-- ==== Sys2Proof/Machine/Remote.lean ====
section
/-! DEFINITION. Remote accesses (R350 to R362): latchkeys and windows, rld, rst and ratom at issue, a request at the target's
ingress, its answer at the source, and time-outs. -/

namespace Sys2Proof.Machine

/-! ## The Lintel's limits (R62) -/

/-- A limit that the image or a later write may tighten: register `k` of device control space, when it is set. -/
def limitOf (s : State) (k hw : Nat) : Nat :=
  match tget s.devRegs k with
  | some v => min hw v.toNat
  | none => hw

/-- The registers that hold the tightened limits: the lockout count, the pull bytes, the voltage floor and ceiling in mV and the
current slope in A per µs. Their numbers are the model's (DESIGN CHOICE, log 73). -/
def regLockout : Nat := 1
def regPull : Nat := 2
def regFloor : Nat := 3
def regCeiling : Nat := 4
def regSlope : Nat := 5

/-- The slope within which changes of the package current are held (R62, R432). -/
def slopeLimit (s : State) : Nat := limitOf s regSlope 100

/-- One rejection counted against a source; at the limit within 1 ms its ingress is refused (R62). -/
def countRejection (s : State) (src : Nat) : State :=
  let now := timens s
  let ts := ((tget s.rejections src).getD []).filter (fun t => now < t + 1000000) ++ [now]
  let s := { s with rejections := tset s.rejections src ts }
  if limitOf s regLockout 8 ≤ ts.length && !s.lockouts.contains src then { s with lockouts := s.lockouts ++ [src] } else s

/-- Whether traffic of a device over the fabric is refused: no image has been authenticated, or the device is locked out (R62, R63). -/
def fabricShut (s : State) (dev : Nat) : Bool := dev ≠ s.devid && (s.bootFailed || s.lockouts.contains dev)

/-! ## Windows and latchkeys (R350 to R353) -/

def winBase (e : WinEntry) : Nat := bits e.toNat 16 48 * 65536
def winLen (e : WinEntry) : Nat := bits e.toNat 64 40
def winVest (e : WinEntry) : Bool := e.getLsbD 13
def winKey (e : WinEntry) : BitVec 128 := BitVec.ofNat 128 (e.toNat / 2 ^ 128)

/-- The MAC a key must carry for a source (R350, R351). -/
def keyMac (mkey : BitVec 128) (key : Dword) (src : Nat) : Nat :=
  (sipHash mkey 8 (key.toNat / 2 ^ 32 + src % 64 * 2 ^ 32)).toNat % 2 ^ 32

/-- Whether an expiry has not passed (R351). -/
def unexpired (s : State) (exp : Nat) : Bool :=
  let d := (exp + 2 ^ 13 - keyTime s) % 2 ^ 13
  1 ≤ d && d ≤ 4095

/-- The right an access needs: bit 0 RD, 1 WR, 2 AT. -/
def rightBit : RemKind → Nat
  | .read _ _ => 0
  | .write _ _ | .masked _ => 1
  | .atomic _ _ => 2

/-- Checks 1 to 5 of R353 for a right; `vest` for a bulk request. -/
def keyCheck (s : State) (src : Nat) (key : Dword) (right : Nat) (vest : Bool) : Option Nat :=
  let e := winAt s key
  if s.lockouts.contains src then some 6
  else if !winValid e then some 1
  else if keyDev key ≠ s.devid || bits key.toNat 0 32 ≠ keyMac (winKey e) key src then some 2
  else if !unexpired s (bits key.toNat 32 13) then some 3
  else if !(key.getLsbD (45 + right) && e.getLsbD (10 + right) && (!vest || winVest e)) then some 4
  else none

/-! ## At issue (R356, R357) -/

/-- The key and exact offset of a lane. -/
def remKey (rd : Rd) (f : Fields) (l : Nat) : Dword := BitVec.ofNat 64 (wordsNat (srcQuad rd f.a l))
def remOff (rd : Rd) (f : Fields) (off : Half) (l : Nat) : Int := ((wordsNat (srcQuad rd f.a l) / 2 ^ 64 : Nat) : Int) + off.toInt

def remChk (f : Fields) (off : Half) (width : Nat) (rd : Rd) : Pre :=
  let ls := evalLanes rd f
  let out := ls.filter fun l => remOff rd f off l < 0 || (2 ^ 64 : Int) ≤ remOff rd f off l
  let mis := ls.filter fun l => remOff rd f off l % (width : Int) ≠ 0
  if !out.isEmpty then .trap 0x0A (laneSet out) 0
  else if !mis.isEmpty then .trap 0x0D (laneSet mis) 0
  else .ok

/-- The groups of a syllable: a key and its lanes, by each group's lowest lane (R357). -/
def remGroups (rd : Rd) (f : Fields) : List (Dword × List Nat) :=
  let ls := evalLanes rd f
  ((ls.map (remKey rd f)).eraseDups).map fun k => (k, ls.filter fun l => remKey rd f l = k)

/-- A group sent, or failed at once when its key names no peer that can be reached (R360). -/
def sendGroup (s : State) (ctx : Nat) (r : RemReq) : State :=
  if reaches s (keyDev r.key) then sendReq s ctx r
  else s.later 1 (.remoteReplyArrival r.opId (r.lanes.map fun l => .reject l.lane 7))

/-- The M pipe of a room held for the groups of a syllable: the issuing context to tick t + d, the others for d − 1 clock cycles. -/
def holdM (rd : Rd) (d : Nat) (s : State) : State :=
  if d ≤ 1 then s
  else
    let c := coreCycle s rd.w.core
    let sl := rd.iss.slices.headD 0
    let busy (w : Warp) : Warp := { w with mBusy := (sl, rd.iss.tick + d) :: w.mBusy.filter fun b => w.tick < b.2 }
    let put (r : Room) : Room := { r with mHold := (rd.w.wid, sl, c + d - 1) :: r.mHold.filter fun h => c ≤ h.2.2 }
    (s.modWarp rd.w.wid busy).modCore rd.w.core fun k => { k with rooms := lmod k.rooms rd.w.room put }

/-- A remote access sent, group by group. -/
def remEff (f : Fields) (kind : RemKind) (dst : Dst) (load : Bool) (bytes : Nat) (sx stm : Bool) (hook : Nat) (off : Half)
    (data cmp : Rd → Nat → Nat) (rd : Rd) (s : State) : State :=
  let id := s.nextId
  let ctx := ctxOf s rd.w
  let at' (l : Nat) : Nat := (remOff rd f off l).toNat
  let op : RemOp := { load := load, bytes := bytes, sx := sx, enabled := enabled rd f, uni := f.u,
                      waiting := (evalLanes rd f).map fun l => (l, remKey rd f l, at' l) }
  let s := putWork rd f hook dst (enabled rd f) (.remote op) s
  let lane (l : Nat) : RemLane := ⟨l, at' l, BitVec.ofNat 128 (data rd l), BitVec.ofNat 64 (cmp rd l)⟩
  let gs := remGroups rd f
  holdM rd gs.length (gs.foldl (fun s g =>
    sendGroup s ctx { src := s.devid, opId := id, key := g.1, kind := kind, stream := stm, byVa := false, lanes := g.2.map lane }) s)

def none2 : Rd → Nat → Nat := fun _ _ => 0

def execRld (f : Fields) (sz : Sz) (sx stm : Bool) (hook : Nat) (off : Half) (s : State) : Result :=
  withIssue (.rld f sz sx stm hook off) (remChk f off (szBytes sz))
    (remEff f (.read sz sx) (loadDst f (szBytes sz)) true (szBytes sz) sx stm hook off none2 none2) s

def execRst (f : Fields) (sz : Sz) (stm : Bool) (rc hook : Nat) (off : Half) (s : State) : Result :=
  withIssue (.rst f sz stm rc hook off) (remChk f off (szBytes sz))
    (remEff f (.write sz rc) (.regs 1023 0) false (szBytes sz) false stm hook off (fun rd l => storeData rd f.b sz l) none2) s

def execRatom (f : Fields) (op : AOp) (ty : ATy) (hook : Nat) (off : Half) (s : State) : Result :=
  withIssue (.ratom f op ty hook off) (remChk f off (atyBytes ty))
    (remEff f (.atomic op ty) (.regs f.d.num (if ty.wide then 2 else 1)) false (atyBytes ty) false false hook off
      (fun rd l => (atomArgs rd f.b op ty l).1) (fun rd l => (atomArgs rd f.b op ty l).2)) s

/-! ## At the target (R353, R358, R359) -/

/-- Bytes of one lane of a request. -/
def remWidth : RemKind → Nat
  | .read sz _ | .write sz _ => szBytes sz
  | .masked _ => 1
  | .atomic _ ty => atyBytes ty

def remNeed : RemKind → Need
  | .read _ _ => .r
  | .write _ _ | .masked _ => .w
  | .atomic _ _ => .rw

/-! ### Translation for the device's own readers and writers of a context's memory -/

/-- An address translated for a request from the fabric, for the parser, or for a completion record. -/
inductive HomeX where
  | ok (l : Leaf)
  | defer
  | bad

/-- The translation of an address under the need of its access; an answer of sv3 that declines one is kept for its requester. -/
def homeX (s : State) (ctx va : Nat) (need : Need) : HomeX :=
  if s.ingressRes.any fun x => x.1 = ctx && x.2.1 = va / 65536 then .bad
  else match walk s ctx va with
    | .fault _ _ => .bad
    | .defer => .defer
    | .leaf l => match checkLeaf s va 1 need l with
      | .ok _ => .ok l
      | .ask _ _ | .fill _ | .bad _ _ => .bad

/-- A deferred walk begun for such a requester: sv3 is asked once for a page (R268). -/
def deferFor (s : State) (ctx va : Nat) (need : Need) : State :=
  if s.walks.any fun k => k.ctx = ctx && k.va / 65536 = va / 65536 && k.reqs.contains .ingress then s
  else
    let k : Walk := ⟨s.nextId, ctx, va, 0, true, [.ingress], false, need⟩
    let q : DeferReq := ⟨k.id, ctx, va, need⟩
    { s with walks := s.walks ++ [k], deferReqs := s.deferReqs ++ [q] }.bump

/-- The kept answers for some pages of a context used up. -/
def usedAnswers (s : State) (ctx : Nat) (vas : List Nat) : State :=
  { s with ingressRes := s.ingressRes.filter fun x => !(x.1 = ctx && vas.any fun va => va / 65536 = x.2.1) }

/-- What a lane's translation at the target leads to: a leaf, a walk that sv3 must answer, or a rejection. -/
inductive InLane where
  | ok (m : MemLane)
  | defer (va : Nat)
  | bad (reason : Nat)

/-- Checks 6 and 7 of R353 for a lane. -/
def inLane (s : State) (e : WinEntry) (r : RemReq) (l : RemLane) : InLane :=
  let n := remWidth r.kind
  let ctx := winCtx e
  let low := r.byVa && l.off < winBase e
  let off := if r.byVa then l.off - winBase e else l.off
  let va := winBase e + off
  if low || winLen e < off + n then .bad 5
  else match homeX s ctx va (remNeed r.kind) with
    | .bad => .bad 8
    | .defer => .defer va
    | .ok leaf => .ok { lane := l.lane, va := va, leaf := leaf, pa := leaf.phys va, data := l.data, cmp := l.cmp }

/-- The record under which a request's lanes are performed at their homes. -/
def inOp (r : RemReq) (ctx : Nat) : Op :=
  { id := r.opId, wid := 0, hook := 0, core := 0, ctx := ctx, kind := .knock r.src }

def inMem (r : RemReq) (ls : List MemLane) : MemOp :=
  let m : MemOp := { kind := .load, bytes := remWidth r.kind, sx := false, stream := r.stream, rc := 0, fillL1 := false, enabled := 0,
                     uni := false, lanes := ls, todo := [] }
  match r.kind with
  | .read _ _ => m
  | .write _ rc => { m with kind := .store, rc := rc }
  | .masked rc => { m with kind := .store, rc := rc }
  | .atomic op ty => { m with kind := .atomic op ty }

/-- The copy of this device for which a request reads (R311). -/
def readerOf (s : State) (r : RemReq) : Option Nat :=
  if r.src = s.devid && ((tget s.ops r.opId).bind fun o => copyOf o.kind).isSome then some r.opId else none

/-- Lanes performed line by line (R358). -/
def inLines (s : State) (o : Op) (m : MemOp) : State × MemOp :=
  (linesOf m.lanes).foldl (fun r line => performLine r.1 o r.2 line) (s, m)

/-- Lanes that write some bits of a byte, one after another; the other bits keep what the line's home holds (R42). -/
def inMasked (s : State) (o : Op) (r : RemReq) : List MemLane → State × MemOp
  | [] => (s, inMem r [])
  | l :: ls =>
    let old := (keptByte (writeLine s (l.pa / 128) l.leaf.enc l.leaf.keyid (o.asker s) (r.stream || l.leaf.ca = 1)) (l.pa / 128) (l.pa % 128)).toNat
    let k := l.cmp.toNat % 256
    let v := BitVec.ofNat 128 ((old &&& (255 - k)) ||| (l.data.toNat &&& k))
    let a := inLines s.used o (inMem r [{ l with data := v }])
    let b := inMasked a.1 o r ls
    (b.1, { b.2 with wct := max a.2.wct b.2.wct, zw := a.2.zw || b.2.zw, poisoned := a.2.poisoned ++ b.2.poisoned })

/-- The answer for a lane that was performed. -/
def inAns (e : WinEntry) (r : RemReq) (m : MemOp) (l : MemLane) : RemAns :=
  match m.failed.lookup l.lane with
  | some va => .poison l.lane (va - (if r.byVa then 0 else winBase e))
  | none => match r.kind with
    | .read _ _ => .data l.lane (BitVec.ofNat 128 ((m.good.lookup l.lane).elim 0 wordsNat)) m.zr
    | .atomic _ _ => .data l.lane (BitVec.ofNat 128 ((m.good.lookup l.lane).elim 0 wordsNat)) m.zw
    | .write _ _ | .masked _ => .ack l.lane m.zw

/-- An answer on its way, not before an instant (R359). -/
def sendAns (s : State) (r : RemReq) (ns : Nat) (ans : List RemAns) : State :=
  if r.src = s.devid then s.laterFree (max 1 (baseAt ns - s.base)) (.remoteReplyArrival r.opId ans)
  else s.emit r.src (Frame.reply r.src r.opId ns ans)

/-- The oldest request of a source that is held at the ingress. -/
def heldHead (s : State) (src : Nat) : Option RemReq := s.ingressQ.find? fun q => q.src = src

/-- Whether an earlier request of the same source is held at the ingress (R361). -/
def ingressFirst (s : State) (r : RemReq) : Bool := (heldHead s r.src).any fun q => q != r

/-- A request kept at the ingress: the oldest of its source is tried again, the others wait behind it. -/
def holdReq (s : State) (r : RemReq) : State :=
  if s.ingressQ.contains r then s else { s with ingressQ := s.ingressQ ++ [r] }

/-- A request answered: the next one of its source that was held behind it follows in the next clock cycle, at its place among that
cycle's reads and writes (R377). -/
def nextHeld (s : State) (r : RemReq) : State :=
  if !s.ingressQ.contains r then s
  else
    let s : State := { s with ingressQ := s.ingressQ.erase r }
    match heldHead s r.src with
    | some q => s.later 1 (.remoteRequestIngress q)
    | none => s

/-- The lanes that pass every check performed, and the answers of all. -/
def performReq (s : State) (e : WinEntry) (r : RemReq) (ls : List (RemLane × InLane)) : State :=
  let ctx := winCtx e
  let ok := ls.filterMap fun l => match l.2 with
    | .ok m => some m
    | .defer _ | .bad _ => none
  let out := match r.kind with
    | .masked _ => inMasked s (inOp r ctx) r ok
    | .read _ _ | .write _ _ | .atomic _ _ => inLines s (inOp r ctx) { inMem r ok with reader := readerOf s r }
  let rej := ls.filterMap fun l => match l.2 with
    | .bad reason => some (RemAns.reject l.1.lane reason)
    | .ok _ | .defer _ => none
  let s := trimL2 (charge out.1 ctx 10 (ok.length * remWidth r.kind))
  let s := if ls.any fun l => match l.2 with
      | .bad 5 => true
      | .bad _ | .ok _ | .defer _ => false then countRejection s r.src else s
  sendAns s r (max (timens s) out.2.wct) (ok.map (inAns e r out.2) ++ rej)

/-- A request at the ingress: refused, held while sv3 answers a deferring walk, or performed. -/
def execRemoteRequestIngress (r : RemReq) (s : State) : Result :=
  if s.bootFailed && r.src ≠ s.devid then .next s
  else if ingressFirst s r then .next (holdReq s r)
  else match keyCheck s r.src r.key (rightBit r.kind) false with
    | some reason =>
      let s := if reason ≤ 5 then countRejection s r.src else s
      .next (nextHeld (sendAns s r (timens s) (r.lanes.map fun l => .reject l.lane reason)) r)
    | none =>
      let e := winAt s r.key
      let ls := r.lanes.map fun l => (l, inLane s e r l)
      match ls.findSome? fun l => match l.2 with
        | .defer va => some va
        | .ok _ | .bad _ => none with
      | some va => .next ((holdReq (deferFor s (winCtx e) va (remNeed r.kind)) r).later 1 (.remoteRequestIngress r))
      | none =>
        let vas := r.lanes.map fun l => if r.byVa then l.off else winBase e + l.off
        .next (nextHeld (usedAnswers (performReq s e r ls) (winCtx e) vas) r)

/-! ## At the source (R359, R360) -/

/-- An answer taken in. -/
def RemOp.take (r : RemOp) (a : RemAns) : RemOp :=
  let keyOf (l : Nat) : Dword := match r.waiting.find? fun w => w.1 = l with
    | some w => w.2.1
    | none => 0
  let done (l : Nat) : RemOp := { r with waiting := r.waiting.filter fun w => w.1 ≠ l }
  let mine (l : Nat) : Bool := r.waiting.any fun w => w.1 = l
  match a with
  | .data l v z =>
    if mine l then { done l with results := r.results ++ [{ lane := l, vals := loadVals r.bytes r.sx v.toNat }],
                                 zr := r.zr || z, zw := r.zw || (z && !r.load) } else r
  | .ack l z => if mine l then { done l with zw := r.zw || z } else r
  | .reject l reason => if mine l then { done l with fails := r.fails ++ [(l, 0x15, keyOf l, reason)] } else r
  | .poison l off => if mine l then { done l with fails := r.fails ++ [(l, 0x16, keyOf l, off)] } else r

/-- The fault of a remote access: the lowest cause, its lanes, and the TRVAL of the lowest of them (R360). -/
def RemOp.fault (r : RemOp) (it : HookItem) : Option TrapDue :=
  let of (c : Nat) := (List.range 64).filterMap fun l => r.fails.find? fun x => x.1 = l && x.2.1 = c
  match of 0x15, of 0x16 with
  | x :: xs, _ => some (itemFault it 0x15 (laneSet (x.1 :: xs.map Prod.fst))
      (rejectVal x.2.2.2 (keyDev x.2.2.1) (keyWin x.2.2.1) x.1))
  | [], x :: xs => some (itemFault it 0x16 (laneSet (x.1 :: xs.map Prod.fst)) x.2.2.2)
  | [], [] => none

/-- A remote access with every lane answered: its results written, its item finished. -/
def remDone (s : State) (o : Op) (r : RemOp) : State :=
  match s.warp? o.wid, itemOf s o with
  | some w, some it =>
    let rs := if r.uni then spread r.enabled (r.results.map fun x => (x.lane, x.vals)) else r.results
    let w := w.writeAll s.fresh it.dst rs
    let dead := (lanesOf it.lanes).filter fun l => !(rs.any fun x => x.lane = l)
    let w := dead.foldl (fun w l => w.killDst it.dst l) w
    let fin (i : HookItem) : HookItem := { i with fin := some s.base, zr := r.zr, zw := r.zw, fault := r.fault it }
    ((s.putWarp (w.modItem o.hook o.id fin)).delOp o.id).used
  | _, _ => s.delOp o.id

/-- Answers to a remote access. -/
def remTake (s : State) (o : Op) (r : RemOp) (ans : List RemAns) : State :=
  let r := ans.foldl RemOp.take r
  if r.waiting.isEmpty then remDone s o r else s.modOp o.id fun o => { o with kind := .remote r }

/-- The items of bcancels that were held back finished with the item of their slot (R373). -/
def finishAlso (s : State) (items : List (Nat × Nat × Nat)) : State :=
  items.foldl (fun s x => finishItem s x.1 x.2.1 x.2.2 [] none) s

/-- A send ended by a rejection of its request (R369): cause 15 at its hook's drop, for the lowest lane that P enables. -/
def sendReject (s : State) (o : Op) (b : SendOp) (reason : Nat) : State :=
  match itemOf s o with
  | some it =>
    let f := itemFault it 0x15 it.lanes (rejectVal reason (keyDev b.key) (keyWin b.key) ((lowLane it.lanes).getD 0))
    let res : List LaneRes := (lanesOf it.lanes).map fun l => res1 l (Config.freeWord s.fresh 1023 l) 63
    let s' := (s.modOp o.id fun o => { o with kind := .bsend { b with done := some ⟨5, b.units, s.base⟩, cancels := [] } }).used
    finishAlso (finishItem s' o.wid o.hook o.id res (some f)) b.cancels
  | none => s.delOp o.id

def ansPoison (a : RemAns) : Bool :=
  match a with
  | .poison _ _ => true
  | .data _ _ _ | .ack _ _ | .reject _ _ => false

def ansReason (a : RemAns) : Option Nat :=
  match a with
  | .reject _ r => some r
  | .data _ _ _ | .ack _ _ | .poison _ _ => none

/-- A launch that is done: the knock follows a record that was written (R80). -/
def endRecord (s : State) (lid : Nat) (written : Bool) : State :=
  let s := s.modLaunch lid fun l => { l with phase := .done }
  if !written then s.event (.recordFailed lid)
  else match s.launch? lid with
    | some l => completionKnock s l
    | none => s

/-- The answers to a completion record: with both halves acknowledged the knock leaves, with one refused there is none (R80). -/
def recordReply (s : State) (o : Op) (lid : Nat) (key : Dword) (acks : Nat) (ans : List RemAns) : State :=
  if ans.any fun a => (ansReason a).isSome || ansPoison a then endRecord (s.delOp o.id) lid false
  else if acks + ans.length < 2 then s.modOp o.id fun o => { o with kind := .record lid key (acks + ans.length) }
  else endRecord (s.delOp o.id) lid true

/-- Answers arrive for a piece of work (R359, R360, R402, R314, R369). -/
def replyTo (s : State) (o : Op) (ans : List RemAns) : State :=
  let rej := (ans.filterMap ansReason).head?
  match o.kind with
  | .remote r => remTake s o r ans
  | .knock dev => knockDone s o dev rej
  | .copy _ | .matrix _ => match copyOf o.kind, s.warp? o.wid with
    | some c, some w => match teamOf s w with
      | some _ => if c.asked.isSome then copyReply s o c ans else s
      | none => s
    | _, _ => s
  | .bsend b => match rej with
    | some reason => if b.done.isNone then sendReject s o b reason else s
    | none => s
  | .record lid key acks => recordReply s o lid key acks ans
  | .mem _ | .fence _ _ | .wqdeq _ _ | .sysc _ _ _ | .brecv _ => s

/-- The lane an answer is for. -/
def ansLane : RemAns → Nat
  | .data l _ _ | .ack l _ | .reject l _ | .poison l _ => l

/-- The device that an answer to a piece of work comes from. -/
def Op.peer (s : State) (o : Op) (a : RemAns) : Nat :=
  match o.kind with
  | .remote r => (r.waiting.lookup (ansLane a)).elim s.devid fun w => keyDev w.1
  | .copy _ | .matrix _ => ((copyOf o.kind).bind CopyOp.entry).elim s.devid fun e => keyDev e.2.2
  | .knock dev => dev
  | .bsend b => keyDev b.key
  | .record _ key _ => keyDev key
  | .mem _ | .fence _ _ | .wqdeq _ _ | .sysc _ _ _ | .brecv _ => s.devid

/-- Whether an answer is taken: what this device found itself, or what comes from a device whose traffic is not refused (R62, R63). -/
def Op.hears (s : State) (o : Op) (a : RemAns) : Bool := ((ansReason a).any fun r => r = 7 || r = 9) || !fabricShut s (o.peer s a)

def execRemoteReplyArrival (op : Nat) (ans : List RemAns) (s : State) : Result :=
  match tget s.ops op with
  | none => .next s
  | some o =>
    if !(if ans.isEmpty then o.hears s (.ack 0 false) else ans.any (o.hears s)) then .next s else
    let ans := ans.filter (o.hears s)
    let bad := ans.any fun a => (ansReason a).any fun r => r ≠ 7 && r ≠ 9
    .next (replyTo (if bad then charge s o.ctx 14 1 else s) o ans)

/-- No answer within 1 ms (R360): the lanes that wait fail with REASON 9, and so does a request of a copy or a knock. -/
def execRemoteTimeout (op : Nat) (s : State) : Result :=
  match tget s.ops op with
  | none => .next s
  | some o => match o.kind with
    | .remote r => .next (remTake s o r (r.waiting.map fun w => .reject w.1 9))
    | .copy _ | .matrix _ => match copyOf o.kind with
      | some c => .next (if c.asked.any fun t => t + 1000000 ≤ timens s then replyTo s o [.reject 0 9] else s)
      | none => .next s
    | .knock _ | .record _ _ _ => .next (replyTo s o [.reject 0 9])
    | .mem _ | .fence _ _ | .wqdeq _ _ | .sysc _ _ _ | .bsend _ | .brecv _ => .next s

end Sys2Proof.Machine
end

