-- ==== Sys2Proof/Machine/Bulk.lean ====
section
/-! DEFINITION. Pulled transfers (R363 to R375): bsend, brecv, bprobe and bcancel at issue, requests and their matching, pull tokens,
data, and the ways in which a message ends. -/

namespace Sys2Proof.Machine

/-! ## Slots and status -/

/-- The status word (R368) and the probe word (R374). -/
def statusWord (st units : Nat) : Word := BitVec.ofNat 32 (st + 16 * units)

/-- The send or receive that holds a slot of a context. -/
def sendAt (s : State) (ctx slot : Nat) : Option (Op × SendOp) :=
  s.ops.findSome? fun e => match e.2.kind with
    | .bsend b => if e.2.ctx = ctx && b.slot = slot then some (e.2, b) else none
    | _ => none

def recvAt (s : State) (ctx slot : Nat) : Option (Op × RecvOp) :=
  s.ops.findSome? fun e => match e.2.kind with
    | .brecv b => if e.2.ctx = ctx && b.slot = slot then some (e.2, b) else none
    | _ => none

/-- The bytes moved of a message, in units. -/
def recvUnits (s : State) (r : RecvOp) : Nat :=
  match r.msg.bind (tget s.msgs ·) with
  | some m => m.got / 16
  | none => 0

/-- Bytes of a list of ranges. -/
def rangeSum (rs : List (Nat × Nat)) : Nat := rs.foldl (fun n r => n + r.2) 0

/-- Whether a range holds a byte. -/
def inRanges (rs : List (Nat × Nat)) (i : Nat) : Bool := rs.any fun r => r.1 ≤ i && i < r.1 + r.2

/-- The message on this device that a send of this device has become. -/
def ownMsg (s : State) (id : Nat) : Option (Nat × BulkMsg) := s.msgs.find? fun e => e.2.src = s.devid && e.2.srcMsg = id

/-- The units of a send that its receiver has accepted (R368, R374): those written on this device; of those that another device has asked
for, how many it has accepted is not known here until its acknowledgement, so that the number is free up to them (log 46). -/
def sendUnits (s : State) (id : Nat) (b : SendOp) : Nat :=
  match ownMsg s id with
  | some e => e.2.got / 16
  | none => if b.moving then (Config.freeWord s.fresh 1023 id).toNat % ((b.len - rangeSum b.left) / 16 + 1) else b.units

/-- The item of a send or receive finished with its status word, written when the hook drops past it. -/
def endItem (s : State) (o : Op) (st units : Nat) (fault : Option TrapDue) : State :=
  match itemOf s o with
  | some it =>
    let res : List LaneRes := (lanesOf it.lanes).map fun l => res1 l (statusWord st units) 63
    finishItem s o.wid o.hook o.id res fault
  | none => s

def endSend (s : State) (o : Op) (b : SendOp) (st units : Nat) (fault : Option TrapDue) : State :=
  (finishAlso (endItem (s.modOp o.id fun o => { o with kind := .bsend { b with done := some ⟨st, units, s.base⟩ } }) o st units fault) b.cancels).used

def endRecv (s : State) (o : Op) (r : RecvOp) (st units : Nat) (fault : Option TrapDue) : State :=
  let s := endItem (s.modOp o.id fun o => { o with kind := .brecv { r with done := some ⟨st, units, s.base⟩ } }) o st units fault
  let zw (i : HookItem) : HookItem := { i with zw := r.zw }
  s.modWarp o.wid fun w => (w.modItem o.hook o.id zw).mergeWct r.wct

/-- Whether a message may still end: it has not, or only by a cancellation of this clock cycle (R373). -/
def mayEnd (s : State) (d : Option BulkEnd) : Bool := d.all fun e => e.cycle = s.base && (e.status = 3 || e.status = 4)

/-! ## Ends that reach the peer (R370, R372, R373) -/

/-- A send of this device ended because its message did. -/
def endOwnSend (s : State) (id st : Nat) : State :=
  match tget s.ops id with
  | some o => match o.kind with
    | .bsend b => if b.done.isNone then endSend s o b st (sendUnits s id b) none else s
    | _ => s
  | none => s

/-- A receive of this device ended because its message's sender did. -/
def endOwnRecv (s : State) (id st : Nat) : State :=
  match tget s.ops id with
  | some o => match o.kind with
    | .brecv r => if r.done.isNone then endRecv s o r st (recvUnits s r) none else s
    | _ => s
  | none => s

/-- The sender of a message told that it has ended. -/
def tellSender (s : State) (m : BulkMsg) (st : Nat) (f : Frame) : State :=
  if m.src = s.devid then endOwnSend s m.srcMsg st else s.emit m.src f

/-- A request that will not be repeated: those of its source to its window wait for it no longer. -/
def noRefusal (s : State) (src msg : Nat) : State := { s with refusals := s.refusals.filter fun e => !(e.1 = src && e.2.1 = msg) }

/-- The receiver of a send told that it has ended: a message that waits unmatched is dropped. -/
def tellReceiver (s : State) (id : Nat) (b : SendOp) : State :=
  let s := noRefusal s s.devid id
  if keyDev b.key ≠ s.devid then s.emit (keyDev b.key) (Frame.cancel (keyDev b.key) id)
  else match ownMsg s id with
    | some e => match e.2.recv with
      | some r => endOwnRecv s r 3
      | none => { s with msgs := tdel s.msgs e.1 }
    | none => s

/-- A receive ended by a local fault (R367): STATUS 5, and 3 for its peer. -/
def recvFault (s : State) (o : Op) (r : RecvOp) (cause val : Nat) : State :=
  let s := match r.msg.bind (tget s.msgs ·) with
    | some m => tellSender s m 3 (Frame.cancel m.src m.srcMsg)
    | none => s
  endRecv s o r 5 (recvUnits s r) ((itemOf s o).map fun it => itemFault it cause r.lanes val)

def sendFault (s : State) (o : Op) (b : SendOp) (cause val : Nat) : State :=
  let s := tellReceiver s o.id b
  endSend s o b 5 (sendUnits s o.id b) ((itemOf s o).map fun it => itemFault it cause b.lanes val)

/-! ## At issue (R365 to R367) -/

def bsendChecks (s : State) (ctx : Nat) (ws : List Word) : Chk :=
  let src := recW ws 2 + 2 ^ 32 * recW ws 3
  let len := recW ws 4
  let slot := bits (recW ws 6) 0 8
  firstChk [chk (len < 16 || 2 ^ 30 < len || len % 16 ≠ 0) 0x09 4, chk (bits (recW ws 6) 10 22 ≠ 0) 0x09 6, chk (recW ws 7 ≠ 0) 0x09 7,
    chk (sendAt s ctx slot).isSome 0x09 (0x60 + 256 * slot), chk (2 ^ 64 < src + len) 0x0A src, chk (src % 16 ≠ 0) 0x0D src]

def brecvChecks (s : State) (ctx : Nat) (ws : List Word) : Chk :=
  let dst := recW ws 0 + 2 ^ 32 * recW ws 1
  let cap := recW ws 2
  let slot := bits (recW ws 5) 0 8
  let e := (tget s.windows (bits (recW ws 4) 0 10)).getD 0
  firstChk [chk (cap < 16 || 2 ^ 30 < cap || cap % 16 ≠ 0) 0x09 2,
    chk (bits (recW ws 4) 17 15 ≠ 0 || !(winValid e && winVest e && winCtx e = ctx)) 0x09 4,
    chk (bits (recW ws 5) 8 24 ≠ 0) 0x09 5, chk (recW ws 6 ≠ 0) 0x09 6, chk (recW ws 7 ≠ 0) 0x09 7,
    chk (recvAt s ctx slot).isSome 0x09 (0x60 + 256 * slot), chk (2 ^ 64 < dst + cap) 0x0A dst, chk (dst % 16 ≠ 0) 0x0D dst]

/-- The check of a bulk syllable in its lowest enabled lane. -/
def bulkChk (f : Fields) (c : Rd → Nat → Chk) (rd : Rd) : Pre :=
  match leadLane rd f with
  | [] => .ok
  | l :: _ => match c rd l with
    | some (cause, val) => .trap cause rd.iss.lanes val
    | none => .ok

def slotChk (f : Fields) (rd : Rd) : Pre := bulkChk f (fun rd l => chk (256 ≤ (val32 rd f.a l).toNat) 0x09 0x61) rd

def sendOf (rd : Rd) (ws : List Word) : SendOp :=
  { slot := bits (recW ws 6) 0 8, key := BitVec.ofNat 64 (recW ws 0 + 2 ^ 32 * recW ws 1), src := recW ws 2 + 2 ^ 32 * recW ws 3,
    len := recW ws 4, mtag := ws.getD 5 0, prio := bits (recW ws 6) 8 2, lanes := rd.iss.lanes }

def recvOf (rd : Rd) (ws : List Word) : RecvOp :=
  { slot := bits (recW ws 5) 0 8, dst := recW ws 0 + 2 ^ 32 * recW ws 1, cap := recW ws 2, mtag := ws.getD 3 0,
    win := bits (recW ws 4) 0 10, srcdev := bits (recW ws 4) 10 6, any := bits (recW ws 4) 16 1 = 1, lanes := rd.iss.lanes }

def bsendEff (f : Fields) (hook : Nat) (rd : Rd) (s : State) : State :=
  let id := s.nextId
  let dst : Dst := .regs f.d.num 1
  match leadLane rd f with
  | [] => putWork rd f hook dst 0 (.knock 0) s
  | l :: _ => (putWork rd f hook dst (enabled rd f) (.bsend (sendOf rd (recWords rd f.b 8 l))) s).laterFree 1 (.bulkRequestRetry id)

def execBsend (f : Fields) (hook : Nat) (s : State) : Result :=
  withIssue (.bsend f hook) (bulkChk f fun rd l => bsendChecks rd.s (ctxOf rd.s rd.w) (recWords rd f.b 8 l)) (bsendEff f hook) s

/-! ## Matching (R369) -/

/-- Whether a receive takes a message. -/
def RecvOp.takes (r : RecvOp) (win : Nat) (mtag : Word) (src : Nat) : Bool :=
  r.done.isNone && r.msg.isNone && r.win = win && r.mtag == mtag && (r.any || r.srcdev = src)

/-- The oldest posted receive that takes a request. -/
def findRecv (s : State) (ctx win : Nat) (mtag : Word) (src : Nat) : Option (Op × RecvOp) :=
  s.ops.findSome? fun e => match e.2.kind with
    | .brecv r => if e.2.ctx = ctx && r.takes win mtag src then some (e.2, r) else none
    | _ => none

/-- The ranges of a length cut into pieces of at most 32 KiB. -/
def pieces : Nat → Nat → Nat → List (Nat × Nat)
  | 0, _, _ => []
  | f + 1, off, n => if n = 0 then [] else (off, min n 32768) :: pieces f (off + min n 32768) (n - min n 32768)

def piecesOf (off n : Nat) : List (Nat × Nat) := pieces (n / 32768 + 1) off n

/-- A message matched to a receive: its prefix is written as a token's data would be, the rest waits for tokens (R370). -/
def matchMsg (s : State) (mid : Nat) (m : BulkMsg) (o : Op) (r : RecvOp) : State :=
  let n := min m.len r.cap
  let pre := m.prefixBytes.take n
  let m := { m with recv := some o.id, need := piecesOf pre.length (n - pre.length) }
  let s : State := { s with msgs := tset s.msgs mid m }
  let s := s.modOp o.id fun o => { o with kind := .brecv { r with msg := some mid } }
  let s := if pre.isEmpty then s
    else
      let tok := s.nextId
      ({ s with tokens := tset s.tokens tok { msg := mid, miss := [(0, pre.length)], expires := 0 } }.bump).laterFree 1 (.tokenDataArrival tok 0 pre)
  if m.need.isEmpty then s else s.laterFree 1 (.pullTokenGrant mid none)

/-- The oldest waiting message that a receive takes. -/
def findMsg (s : State) (ctx : Nat) (r : RecvOp) : Option (Nat × BulkMsg) :=
  s.msgs.find? fun e => e.2.recv.isNone && e.2.ctx = ctx && r.takes e.2.win e.2.mtag e.2.src

def brecvEff (f : Fields) (hook : Nat) (rd : Rd) (s : State) : State :=
  let id := s.nextId
  let dst : Dst := .regs f.d.num 1
  match leadLane rd f with
  | [] => putWork rd f hook dst 0 (.knock 0) s
  | l :: _ =>
    let r := recvOf rd (recWords rd f.b 8 l)
    let cl := claimFor s rd.w.core ((List.range r.cap).map fun i => (ctxOf s rd.w, r.dst + i))
    let r := { r with claim := cl.1, unmapped := cl.2 }
    let s := putWork rd f hook dst (enabled rd f) (.brecv r) s
    match tget s.ops id, findMsg s (ctxOf s rd.w) r with
    | some o, some e => matchMsg s e.1 e.2 o r
    | _, _ => s

def execBrecv (f : Fields) (hook : Nat) (s : State) : Result :=
  withIssue (.brecv f hook) (bulkChk f fun rd l => brecvChecks rd.s (ctxOf rd.s rd.w) (recWords rd f.b 8 l)) (brecvEff f hook) s

/-! ## bprobe and bcancel (R373, R374) -/

/-- The probe word of a slot: a message that still waits for its first token has STATE 1, also with its prefix written. -/
def probeWord (s : State) (ctx slot : Nat) (rcv : Bool) : Word :=
  if rcv then match recvAt s ctx slot with
    | none => 0
    | some (_, r) =>
      let moving := match r.msg.bind (tget s.msgs ·) with
        | some m => m.granted || m.need.isEmpty
        | none => r.done.isSome
      statusWord (if moving then 2 else 1) (recvUnits s r)
  else match sendAt s ctx slot with
    | none => 0
    | some (o, b) => statusWord (if b.moving || b.done.isSome then 2 else 1) (sendUnits s o.id b)

/-- Hooked work with a word as its result, finished at once. -/
def wordEff (f : Fields) (hook : Nat) (v : Rd → Nat → Word) (rd : Rd) (s : State) : State :=
  let it := hookItem rd s (.regs f.d.num 1) (enabled rd f) (some s.base)
  let res := match leadLane rd f with
    | [] => []
    | l :: _ => (lanesOf (enabled rd f)).map fun k => res1 k (v rd l) 63
  (s.putWarp (rd.w.raise hook { it with res := res })).bump

def probeEff (f : Fields) (rcv : Bool) (hook : Nat) (rd : Rd) (s : State) : State :=
  (wordEff f hook (fun rd l => probeWord rd.s (ctxOf rd.s rd.w) (val32 rd f.a l).toNat rcv) rd s).used

def execBprobeSnd (f : Fields) (hook : Nat) (s : State) : Result :=
  withIssue (.bprobeSnd f hook) (slotChk f) (probeEff f false hook) s
def execBprobeRcv (f : Fields) (hook : Nat) (s : State) : Result :=
  withIssue (.bprobeRcv f hook) (slotChk f) (probeEff f true hook) s

/-- Whether the message of a send to this device has been completed in this clock cycle. -/
def completedNow (s : State) (id : Nat) : Bool :=
  ((ownMsg s id).bind fun e => e.2.recv.bind (tget s.ops ·)).any fun o => match o.kind with
    | .brecv r => r.done.any fun e => e.cycle = s.base && e.status ≤ 1
    | _ => false

/-- A message cancelled by the context of one of its slots; a completion of this clock cycle is kept. `item` is the bcancel's own. -/
def cancelSend (s : State) (ctx slot : Nat) (item : Nat × Nat × Nat) : State :=
  match sendAt s ctx slot with
  | some (o, b) =>
    if b.done.isSome then s
    else
      let b := { b with cancels := b.cancels ++ [item] }
      if completedNow s o.id then
        let wait (i : HookItem) : HookItem := { i with fin := none }
        (s.modOp o.id fun o => { o with kind := .bsend b }).modWarp item.1 fun w => w.modItem item.2.1 item.2.2 wait
      else endSend (tellReceiver s o.id b) o b 4 (sendUnits s o.id b) none
  | none => s

def cancelRecv (s : State) (ctx slot : Nat) : State :=
  match recvAt s ctx slot with
  | some (o, r) =>
    if r.done.isNone then
      let s := match r.msg.bind (tget s.msgs ·) with
        | some m => tellSender s m 3 (Frame.cancel m.src m.srcMsg)
        | none => s
      endRecv s o r 4 (recvUnits s r) none
    else s
  | none => s

/-- bcancel: the slot's message is ended at once, so that its own item finishes with the slot's. -/
def cancelEff (f : Fields) (rcv : Bool) (hook : Nat) (rd : Rd) (s : State) : State :=
  let ctx := ctxOf s rd.w
  let item := (rd.w.wid, hook, s.nextId)
  let s := (s.putWarp (rd.w.raise hook (hookItem rd s (.regs 1023 0) (enabled rd f) (some s.base)))).bump
  match leadLane rd f with
  | [] => s
  | l :: _ =>
    let slot := (val32 rd f.a l).toNat
    if rcv then cancelRecv s ctx slot else cancelSend s ctx slot item

def execBcancelSnd (f : Fields) (hook : Nat) (s : State) : Result :=
  withIssue (.bcancelSnd f hook) (slotChk f) (cancelEff f false hook) s
def execBcancelRcv (f : Fields) (hook : Nat) (s : State) : Result :=
  withIssue (.bcancelRcv f hook) (slotChk f) (cancelEff f true hook) s

/-! ## Requests (R369) -/

/-- Bytes of a message read from its sender's memory. -/
inductive BulkRead where
  | ok (s : State) (bytes : List Byte)
  | wait (s : State)
  | bad (cause val : Nat)

def bulkRead (s : State) (o : Op) (va n : Nat) : BulkRead :=
  match engLines s o.id o.core o.ctx .r o.walkRes ((segsOf va n).map Prod.fst) with
  | .bad c v => .bad c v
  | .wait s => .wait s
  | .ok s ls =>
    let vas := (List.range n).map (va + ·)
    let s := chargePoison (bringLines s o false ls) o ls vas
    match engBytes s o.id ls vas with
    | (_, _, some x) => .bad 0x16 x
    | (bs, zr, none) =>
      let mark (i : HookItem) : HookItem := { i with zr := i.zr || zr }
      .ok ((s.modWarp o.wid fun w => w.modItem o.hook o.id mark).used) bs

/-- An earlier request of the same warp to the same window that has not gone out (R369). -/
def sendFirst (s : State) (o : Op) (b : SendOp) : Bool :=
  s.ops.any fun e => e.1 < o.id && e.2.wid = o.wid && (match e.2.kind with
    | .bsend c => !c.sent && c.done.isNone && keyDev c.key = keyDev b.key && keyWin c.key = keyWin b.key
    | _ => false)

/-- The request of a send goes out, or again after a refusal. -/
def execBulkRequestRetry (msg : Nat) (s : State) : Result :=
  match tget s.ops msg with
  | none => .next s
  | some o => match o.kind with
    | .bsend b =>
      if b.done.isSome then .next s
      else if sendFirst s o b then .next (s.later 1 (.bulkRequestRetry msg))
      else if !reaches s (keyDev b.key) then .next (sendReject s o b 7)
      else match bulkRead s o b.src (min b.len 8192) with
        | .wait s => .next (s.later 1 (.bulkRequestRetry msg))
        | .bad c v => .next (sendFault s o b c v)
        | .ok s bs =>
          let r : BulkReq := ⟨s.devid, msg, b.key, b.mtag, b.len, b.prio, bs⟩
          let s := s.modOp msg fun o => { o with kind := .bsend { b with sent := true, sentNs := timens s, left := [(0, b.len)] } }
          if keyDev b.key = s.devid then .next (s.later 1 (.bulkRequestArrival r))
          else .next ((charge s o.ctx 9 bs.length).emit (keyDev b.key) (Frame.bulk (keyDev b.key) r))
    | _ => .next s

/-- The unexpected store: 4,096 requests and 1 MiB of prefixes. -/
def waitingMsgs (s : State) : List BulkMsg := (s.msgs.map Prod.snd).filter fun m => m.recv.isNone
def prefixUsed (s : State) : Nat := (waitingMsgs s).foldl (fun n m => n + m.prefixBytes.length) 0

/-- 50 µs in base cycles. -/
def us50 : Nat := 62500

/-- Whether an earlier request of a source to the same window has been refused and not repeated: it is to be matched first (R369). -/
def refusedFirst (s : State) (r : BulkReq) : Bool :=
  match s.refusals.find? fun e => e.1 = r.src && e.2.2 = keyWin r.key with
  | some e => e.2.1 ≠ r.msg
  | none => false

/-- A request refused because the store is full, or after one that was: its sender repeats it. -/
def refuse (s : State) (r : BulkReq) : State :=
  let e := (r.src, r.msg, keyWin r.key)
  let s : State := if s.refusals.contains e then s else { s with refusals := s.refusals ++ [e] }
  if r.src = s.devid then
    let again (o : Op) : Op := match o.kind with
      | .bsend b => { o with kind := .bsend { b with sent := false } }
      | _ => o
    (s.modOp r.msg again).later us50 (.bulkRequestRetry r.msg)
  else s.emit r.src (Frame.refused r.src r.msg)

/-- A bulk request at the ingress: checked, matched, kept, or refused. -/
def execBulkRequestArrival (r : BulkReq) (s : State) : Result :=
  if s.bootFailed && r.src ≠ s.devid then .next s
  else match keyCheck s r.src r.key 1 true with
    | some reason =>
      let s := noRefusal (if reason ≤ 5 then countRejection s r.src else s) r.src r.msg
      if r.src = s.devid then .next (s.laterFree 1 (.remoteReplyArrival r.msg [.reject 0 reason]))
      else .next (s.emit r.src (Frame.reply r.src r.msg (timens s) [.reject 0 reason]))
    | none =>
      let ctx := winCtx (winAt s r.key)
      let win := keyWin r.key
      let id := s.nextId
      let m : BulkMsg := { src := r.src, srcMsg := r.msg, ctx := ctx, win := win, mtag := r.mtag, len := r.len, prio := r.prio,
                           prefixBytes := r.prefixBytes }
      if refusedFirst s r then .next (refuse s r)
      else match findRecv s ctx win r.mtag r.src with
      | some (o, v) => .next (matchMsg (noRefusal s r.src r.msg).bump id m o v)
      | none =>
        if 4096 ≤ (waitingMsgs s).length then .next (refuse s r)
        else
          let m := if 1048576 < prefixUsed s + m.prefixBytes.length then { m with prefixBytes := [] } else m
          .next { noRefusal s r.src r.msg with msgs := tset s.msgs id m }.bump

/-! ## Tokens (R370, R371) -/

/-- Bytes granted to a source and not yet arrived; prefixes are not counted. -/
def granted (s : State) (src : Nat) : Nat :=
  s.tokens.foldl (fun n e => if e.2.expires ≠ 0 && ((tget s.msgs e.2.msg).any fun m => m.src = src) then n + rangeSum e.2.miss else n) 0

/-- Whether the receiving context of a message is saved (R375). -/
def recvSaved (s : State) (m : BulkMsg) : Bool :=
  match m.recv.bind (tget s.ops ·) with
  | some o => match (s.warp? o.wid).bind (teamOf s) with
    | some t => t.place == .saved
    | none => false
  | none => false

/-- Whether a message is matched to a receive that has not ended. -/
def msgLive (s : State) (m : BulkMsg) : Bool :=
  match m.recv.bind (tget s.ops ·) with
  | some o => match o.kind with
    | .brecv r => r.done.isNone
    | _ => false
  | none => false

/-- The registers of sv5's firmware table that hold the weights of the PRIO classes, and a weight: at least 1 (R371). -/
def regWeight : Nat := 16
def prioWeight (s : State) (p : Nat) : Nat := max 1 ((tget s.devRegs (regWeight + p)).elim (Config.firmwarePolicy p) BitVec.toNat)

/-- Whether a token may be granted to a message now. -/
def mayGrant (s : State) (m : BulkMsg) : Bool :=
  msgLive s m && !m.need.isEmpty && !recvSaved s m && granted s m.src + (m.need.headD (0, 0)).2 ≤ limitOf s regPull 524288

/-- The message of a PRIO class that is granted next: the fewest ungranted bytes, then the older one. -/
def classNext (s : State) (p : Nat) : Option (Nat × BulkMsg) :=
  (s.msgs.filter fun e => e.2.prio = p && mayGrant s e.2).foldl (fun b e => match b with
    | none => some e
    | some x => if rangeSum e.2.need < rangeSum x.2.need then some e else some x) none

/-- The class whose turn it is: the one in turn while it has tokens left, then the next that has a message (R371). -/
def turnClass (s : State) : Option Nat :=
  (([s.turn.1].filter fun _ => s.turn.2 ≠ 0) ++ (List.range 4).map fun k => (s.turn.1 + 1 + k) % 4).find? fun p => (classNext s p).isSome

/-- Whether a message is the one to be granted next. -/
def grantNow (s : State) (id : Nat) : Bool := ((turnClass s).bind (classNext s)).any fun e => e.1 = id

/-- The round robin after a token of a class. -/
def turnAfter (s : State) (p : Nat) : Nat × Nat :=
  if s.turn.1 = p && s.turn.2 ≠ 0 then (p, s.turn.2 - 1) else (p, prioWeight s p - 1)

/-- A token granted to a message received here. -/
def grantToken (s : State) (id : Nat) (m : BulkMsg) : State :=
  match m.need with
  | [] => s
  | (off, n) :: rest =>
    if !msgLive s m then s
    else if !grantNow s id then s.later 1 (.pullTokenGrant id none)
    else
      let tok := s.nextId
      let s : State := { s with
        tokens := tset s.tokens tok { msg := id, miss := [(off, n)], expires := timens s + 50000 }
        turn := turnAfter s m.prio
        msgs := tset s.msgs id { m with need := rest, granted := true } }
      let s := s.bump.later us50 (.tokenExpiry tok)
      let s := if rest.isEmpty then s else s.laterFree 1 (.pullTokenGrant id none)
      if m.src = s.devid then s.laterFree 1 (.pullTokenGrant m.srcMsg (some (tok, off, n)))
      else s.emit m.src (Frame.token m.src m.srcMsg tok off n)

/-- A send of which a range is asked for: with the first token its receiver has what lies before it, the prefix (R370). -/
def SendOp.asked (b : SendOp) (off n : Nat) : SendOp :=
  { b with moving := true, left := cutRange off n (if b.moving then b.left else cutRange 0 off b.left) }

/-- A token that arrives at the sender: the copy engines read its range and send it. -/
def serveToken (s : State) (o : Op) (b : SendOp) (tok off n : Nat) : State :=
  if b.done.isSome then s
  else match bulkRead s o (b.src + off) n with
    | .wait s => s.later 1 (.pullTokenGrant o.id (some (tok, off, n)))
    | .bad c v => sendFault s o b c v
    | .ok s bs =>
      let s := chargeEnergy (s.modOp o.id fun o => { o with kind := .bsend (b.asked off n) }) o.ctx 4 0 0
      if keyDev b.key = s.devid then s.laterFree 1 (.tokenDataArrival tok off bs)
      else (charge s o.ctx 9 n).emit (keyDev b.key) (Frame.data (keyDev b.key) tok off bs)

def execPullTokenGrant (msg : Nat) (peer : Option (Nat × Nat × Nat)) (s : State) : Result :=
  match peer with
  | none => match tget s.msgs msg with
    | some m => .next (grantToken s msg m)
    | none => .next s
  | some (tok, off, n) => match tget s.ops msg with
    | some o => match o.kind with
      | .bsend b => .next (if fabricShut s (keyDev b.key) then s else serveToken s o b tok off n)
      | _ => .next s
    | none => .next s

/-- A send opened again, with the bcancels that it had ended (R373). -/
def reopenSend (s : State) (p : Op) (b : SendOp) : State :=
  let wait (i : HookItem) : HookItem := { i with fin := none, res := [] }
  let s := (s.modOp p.id fun p => { p with kind := .bsend { b with done := none } }).modWarp p.wid fun w => w.modItem p.hook p.id wait
  b.cancels.foldl (fun s x => s.modWarp x.1 fun w => w.modItem x.2.1 x.2.2 wait) s

/-- A receive finished (R372): its status, and the acknowledgement to its sender; a cancellation of this clock cycle has no effect. -/
def finishRecv (s : State) (o : Op) (r : RecvOp) (m : BulkMsg) : State :=
  let st := if r.cap < m.len then 1 else 0
  let units := m.got / 16
  let s := endRecv s o r st units none
  if m.src ≠ s.devid then
    (if r.done.isSome then s.unsend (Frame.cancel m.src m.srcMsg) else s).emit m.src (Frame.ack m.src m.srcMsg units st)
  else
    let s := match tget s.ops m.srcMsg with
      | some p => match p.kind with
        | .bsend b =>
          if b.done.isSome && mayEnd s b.done then reopenSend s p b else s
        | _ => s
      | none => s
    s.laterFree 1 (.bulkAckArrival m.srcMsg units st)

/-- Data of a token written to the receive buffer at its homes. -/
def writeData (s : State) (tok : Nat) (t : Token) (m : BulkMsg) (o : Op) (r : RecvOp) (off : Nat) (data : List Byte) : State :=
  let ws := (((List.range data.length).map (off + ·)).zip data).filter fun w => inRanges (t.miss ++ t.held) w.1
  let n := data.length
  let ps := ws.map fun w => (r.dst + w.1, w.2)
  match engLines s o.id o.core o.ctx .w o.walkRes (lineReps (ps.map Prod.fst)) with
  | .wait s =>
    let t := { t with miss := cutRange off n t.miss, held := cutRange off n t.held ++ meetRange off n (t.miss ++ t.held) }
    ({ s with tokens := tset s.tokens tok t, msgs := tset s.msgs t.msg { m with expired := 0 } }).later 1 (.tokenDataArrival tok off data)
  | .bad c v => recvFault s o r c v
  | .ok s ls =>
    let w := engWrite s o 0 false ls ps
    let r := { r with wct := max r.wct w.ctime, zw := r.zw || w.zw }
    let s := charge w.s o.ctx 10 ps.length
    let s := s.modOp o.id fun o => { o with kind := .brecv r }
    let t := { t with miss := cutRange off n t.miss, held := cutRange off n t.held }
    let m := { m with got := m.got + ps.length, expired := 0 }
    let s : State := { s with
      tokens := if t.miss.isEmpty && t.held.isEmpty then tdel s.tokens tok else tset s.tokens tok t
      msgs := tset s.msgs t.msg m }
    match w.lost with
    | some va => recvFault s o r 0x16 va
    | none =>
      if m.need.isEmpty && !(s.tokens.any fun e => e.2.msg = t.msg) then finishRecv s o r m else s

/-- Data arrives under a token: written, or discarded when the token has expired or the message has ended. -/
def execTokenDataArrival (tok : Nat) (off : Nat) (data : List Byte) (s : State) : Result :=
  match tget s.tokens tok with
  | none => .next s
  | some t => match tget s.msgs t.msg with
    | none => .next s
    | some m => match m.recv.bind (tget s.ops ·) with
      | some o => match o.kind with
        | .brecv r =>
          .next (if mayEnd s r.done && (t.expires = 0 || !fabricShut s m.src) then writeData s tok t m o r off data else s)
        | _ => .next s
      | none => .next s

/-- A message orphaned (R370). -/
def orphan (s : State) (m : BulkMsg) : State :=
  match m.recv.bind (tget s.ops ·) with
  | some o => match o.kind with
    | .brecv r =>
      let s := endRecv s o r 2 (m.got / 16) none
      let s : State := { s with events := s.events ++ [.orphan o.ctx r.slot m.src] }
      if m.src = s.devid then s.laterFree 1 (.orphanNoticeArrival m.srcMsg)
      else s.emit m.src (Frame.orphan m.src m.srcMsg)
    | _ => s
  | none => s

/-- A token that expires: what has not arrived is to be granted again; the third in a row with no byte orphans the message (R370). -/
def execTokenExpiry (tok : Nat) (s : State) : Result :=
  match tget s.tokens tok with
  | none => .next s
  | some t =>
    if t.expires = 0 || timens s < t.expires then .next s
    else match tget s.msgs t.msg with
      | none => .next { s with tokens := tdel s.tokens tok }
      | some m =>
        let s : State := { s with
          tokens := if t.held.isEmpty then tdel s.tokens tok else tset s.tokens tok { t with miss := [], expires := 0 } }
        if !msgLive s m then .next s
        else
          let m := { m with need := t.miss ++ m.need, expired := if recvSaved s m then m.expired else m.expired + 1 }
          let s := charge { s with msgs := tset s.msgs t.msg m } m.ctx 15 1
          if 3 ≤ m.expired then .next (orphan s m) else .next (s.laterFree 1 (.pullTokenGrant t.msg none))

/-! ## Notices (R370, R372, R373) -/

/-- The device to which a send of this device goes. -/
def sendDev (s : State) (msg : Nat) : Nat :=
  match tget s.ops msg with
  | some o => match o.kind with
    | .bsend b => keyDev b.key
    | _ => s.devid
  | none => s.devid

def execOrphanNoticeArrival (msg : Nat) (s : State) : Result := .next (if fabricShut s (sendDev s msg) then s else endOwnSend s msg 2)

/-- The receiver's acknowledgement. -/
def execBulkAckArrival (msg units status : Nat) (s : State) : Result :=
  match tget s.ops msg with
  | none => .next s
  | some o => match o.kind with
    | .bsend b =>
      if fabricShut s (keyDev b.key) || !mayEnd s b.done then .next s
      else
        let kept := if b.done.isSome then s.unsend (Frame.cancel (keyDev b.key) msg) else s
        .next (endSend kept o b status units none)
    | _ => .next s

/-- The peer has ended the message: a send, a matched receive, or a request that waits. -/
def execPeerCancelArrival (msg : Nat) (s : State) : Result :=
  match tget s.msgs msg with
  | some m =>
    if fabricShut s m.src then .next s
    else match m.recv with
      | some r => .next (endOwnRecv s r 3)
      | none => .next { s with msgs := tdel s.msgs msg }
  | none =>
    let gone : State := { s with refusals := s.refusals.filter fun e => e.1 = s.devid || e.2.1 ≠ msg }
    .next (if fabricShut s (sendDev s msg) then s else if (tget s.ops msg).isSome then endOwnSend s msg 3 else gone)

/-! ## Claims in pages mapped late (R164, R372) -/

/-- Work whose destination lay in pages that were not mapped names the bytes of those that have been mapped since. -/
def reclaim (s : State) : State :=
  s.ops.foldl (fun s e => match e.2.kind with
    | .copy c =>
      if c.unmapped.isEmpty then s
      else
        let r := claimFor s e.2.core c.unmapped
        s.modOp e.1 fun o => { o with kind := .copy { c with claim := joinClaims r.1 c.claim, unmapped := r.2 } }
    | .brecv b =>
      if b.unmapped.isEmpty then s
      else
        let r := claimFor s e.2.core b.unmapped
        s.modOp e.1 fun o => { o with kind := .brecv { b with claim := joinClaims r.1 b.claim, unmapped := r.2 } }
    | .mem _ | .fence _ _ | .wqdeq _ _ | .sysc _ _ _ | .knock _ | .matrix _ | .remote _ | .bsend _ | .record _ _ _ => s) s

/-! ## Revoked address spaces (R375) -/

/-- Whether a buffer meets a range of its context in a page that no longer translates. -/
def revoked (s : State) (ctx va len buf n : Nat) : Bool :=
  (meetRange va len [(buf, n)]).any fun r =>
    (List.range ((r.1 + r.2 - 1) / 65536 + 1 - r.1 / 65536)).any fun k => match walk s ctx (65536 * (r.1 / 65536 + k)) with
      | .fault _ _ => true
      | .leaf _ | .defer => false

/-- A message of a context whose buffer has been revoked ended: STATUS 5, and 3 for its peer. -/
def endRevoked (s : State) (ctx va len id : Nat) : State :=
  match tget s.ops id with
  | none => s
  | some o => match o.kind with
    | .bsend b =>
      if o.ctx = ctx && b.done.isNone && revoked s ctx va len b.src b.len then
        endSend (tellReceiver s id b) o b 5 (sendUnits s id b) none
      else s
    | .brecv r =>
      if o.ctx = ctx && r.done.isNone && revoked s ctx va len r.dst r.cap then
        let s := match r.msg.bind (tget s.msgs ·) with
          | some m => tellSender s m 3 (Frame.cancel m.src m.srcMsg)
          | none => s
        endRecv s o r 5 (recvUnits s r) none
      else s
    | .mem _ | .fence _ _ | .wqdeq _ _ | .sysc _ _ _ | .knock _ | .copy _ | .matrix _ | .remote _ | .record _ _ _ => s

/-- The messages that the invalidation of a range ends. -/
def endMessages (s : State) (ctx va len : Nat) : State := (s.ops.map Prod.fst).foldl (fun s id => endRevoked s ctx va len id) s

end Sys2Proof.Machine
end

