-- ==== Sys2Proof/Machine/Merge.lean ====
section
/-! DEFINITION. The merge stage of a room (R96, R152, R153, R165, R166, R172 to R174): the lines of its contexts, which of them are
ready, the two it picks, the stall codes, and the active set. -/

namespace Sys2Proof.Machine

/-! ## Lines of code (R108, R296, R271, R251) -/

/-- Whether a context of a core's active sets issues from a line of its fetch cache (R462). -/
def fcInUse (s : State) (core : Nat) (l : FLine) : Bool :=
  s.warps.any fun e => e.2.core = core && ctxOf s e.2 = l.ctx && e.2.apos.isSome && !e.2.ended && e.2.slices.any fun sl => sl.line.any fun b => b.va = l.va

/-- The lines of a fetch cache of 512 with one given up where it is full, which no context issues from while there is another. -/
def fcRoom (s : State) (core : Nat) (ls : List FLine) : List FLine :=
  let free := ls.filter fun l => !fcInUse s core l
  match free[Config.victim s.fresh % free.length]? with
  | some l => if ls.length < 512 then ls else ls.erase l
  | none => giveUp ls 512 (Config.victim s.fresh)

/-- A line put into a core's fetch cache (R296, R462). -/
def fcFill (s : State) (core ctx va : Nat) (img : LineImage) : State :=
  let put (c : Core) : Core := { c with fcache := ⟨ctx, va, img⟩ :: fcRoom s core c.fcache }
  (s.modCore core put).used

/-- A line read for a fetch: one single-copy-atomic read of 64 bytes at its home, or the fault the fetch meets. A poisoned block is
cause 16, whatever ZP says, and is not kept. -/
def fetchRead (s : State) (w : Warp) (va : Nat) (l : Leaf) : State :=
  let ctx := ctxOf s w
  let pa := l.phys va
  let s := homeLine s (pa / 128) l.enc l.keyid ⟨ctx, warpPlace w.core w.room false⟩ (l.ca = 1)
  if poisonedAt s (pa / 128) (pa % 128) then
    (charge s ctx 13 1).modWarp w.wid fun w => w.putLine ⟨va, 0, some (0x16, va)⟩
  else
    let img := readBytes s none (pa / 128) false (pa % 128) 64
    (fcFill s.used w.core ctx va img).modWarp w.wid fun w => w.putLine ⟨va, img, none⟩

/-- The line of code at an address arrives for the contexts of a warp that lack it (R108). TRVAL of a fetch that fails holds the address
of its line; the spec leaves open which address of the fetch it is (DESIGN CHOICE, log 77). -/
def execFetchLineArrival (wid : Nat) (va : Dword) (s : State) : Result :=
  match s.warp? wid with
  | none => .next s
  | some w =>
    let a := va.toNat
    match fcFind s w.core (ctxOf s w) a with
    | some l => .next (s.modWarp wid fun w => w.putLine ⟨a, l.img, none⟩)
    | none =>
      match engXlate s (.fetch wid) w.core (ctxOf s w) a .x w.walkRes with
      | .wait s => .next s
      | .bad c v => .next (s.modWarp wid fun w => w.putLine ⟨a, 0, some (c, v)⟩)
      | .ok s l => .next (trimL2 (fetchRead s w a l))

/-! ## The checks of a bundle (R132, R133, R152) -/

/-- Whether the fabric queue takes no further request: those that wait in it are the ones held for an earlier path (R166, R349). -/
def fabricFull (s : State) : Bool := Config.fabricQueue < s.heldOut.length

/-- A remote or bulk syllable waits, under code 15, while it cannot enter the fabric queue. -/
def fabricChk (s : State) (p : Pre) : Pre := if fabricFull s then .hold 15 else p

/-- The checks a syllable's meaning makes of its operands. -/
def sylChk (i : Instr) (rd : Rd) : Pre :=
  match i with
  | .bra f _ => divChk (fun rd i => enabledQuad rd f i) rd
  | .brp _ _ | .regang _ _ => depthChk rd
  | .loop f step _ => divChk (loopQuad f step) rd
  | .brx f => divChk (fun rd i => (brxSet rd f (enabledQuad rd f i) i).1) rd
  | .call _ _ => callChk rd
  | .callx f => callxChk f rd
  | .ret _ => retChk rd
  | .rte _ => rteChk rd
  | .syscIcb f _ => icChk (leadLane rd f) f rd
  | .csrw f _ r | .csrx f _ r => csrChk f r rd
  | .knock f _ => knockChk f rd
  | .hkadjDn _ h n w => hkadjDnChk h n w rd
  | .bar f _ k | .bara f _ k => barChk f k rd
  | .barw _ k => barwChk k rd
  | .nbr _ fill _ _ _ => nbrChk fill rd
  | .ld f sz _ _ _ off | .ldr f sz _ _ _ _ off => loadChk f f.b off (szBytes sz) false rd
  | .ldt f sz _ _ off => loadChk f f.b off (szBytes sz) true rd
  | .st f sz _ _ _ off => memChk f .none off (szBytes sz) .w false rd
  | .stt f sz _ _ off => memChk f .none off (szBytes sz) .w true rd
  | .atom f _ ty _ off => memChk f .none off (atyBytes ty) .rw false rd
  | .pref f _ off => prefChk f off rd
  | .ldw f sz _ _ off => ldwChk f sz off rd
  | .icinv f _ => icChk (evalLanes rd f) f rd
  | .wqenq f _ _ | .wqdeq f _ _ => wqChk f rd
  | .rld f sz _ _ _ off | .rst f sz _ _ _ off => fabricChk rd.s (remChk f off (szBytes sz) rd)
  | .ratom f _ ty _ off => fabricChk rd.s (remChk f off (atyBytes ty) rd)
  | .lds f sz _ off => scrChk f f.b off.toInt (szBytes sz) rd
  | .sts f sz off => scrChk f .none off.toInt (szBytes sz) rd
  | .atoms f _ ty _ off => scrChk f .none off.toInt (atyBytes ty) rd
  | .spmarkFull f _ | .spmarkEmpty f _ => markChk f rd
  | .cpyIn f em stm _ => copyChk f .linIn em stm 0 rd
  | .cpyOut f stm rc _ => copyChk f .linOut false stm rc rd
  | .cpytIn f em stm _ => copyChk f .tenIn em stm 0 rd
  | .cpytOut f stm rc _ => copyChk f .tenOut false stm rc rd
  | .cpyg f em stm _ => copyChk f .gather em stm 0 rd
  | .cpys f red stm rc _ => copyChk f (.scatter red) false stm rc rd
  | .cpyfSp f em _ => copyChk f .fillSp em false 0 rd
  | .cpyfMem f stm rc _ => copyChk f .fillMem false stm rc rd
  | .cpyw f em _ => copyChk f .cellar em false 0 rd
  | .cpyc f em _ => copyChk f .scr em false 0 rd
  | .bsend f _ => fabricChk rd.s (bulkChk f (fun rd l => bsendChecks rd.s (ctxOf rd.s rd.w) (recWords rd f.b 8 l)) rd)
  | .brecv f _ => bulkChk f (fun rd l => brecvChecks rd.s (ctxOf rd.s rd.w) (recWords rd f.b 8 l)) rd
  | .bprobeSnd f _ | .bprobeRcv f _ | .bcancelSnd f _ | .bcancelRcv f _ => slotChk f rd
  | .mcfg f _ _ _ _ _ | .mloft f _ _ _ | .mloftw f _ _ _ | .mlofth f _ _ | .mma f _ _ _ _ _ | .mmas f _ _ _ _ _
  | .mscl f _ _ _ | .mdrainReg f _ _ _ | .mdrainScratch f _ _ _ _ _ _ | .mzero f _ _ | .mfence f _ => matChk i f rd
  | _ => .ok

/-- All the checks of a syllable. -/
def bundleChk (s : State) (w : Warp) (iss : Issue) (i : Instr) : Pre := (commonPre i s w iss).andThen (sylChk i (rdOf i s w iss))

/-- The items a bundle raises on a hook (R162). -/
def raisedOn (is : List Instr) (h : Nat) : Nat :=
  is.foldl (fun n i => match raisesOf i with
    | some (k, m) => if k = h then n + m else n
    | none => n) 0

/-- Whether a hook would pass 63 after the bundle's raise. -/
def bundleHooksFull (w : Warp) (is : List Instr) : Bool :=
  (List.range 16).any fun h => 0 < raisedOn is h && 63 < w.hookCount h + raisedOn is h

def Pre.isHold : Pre → Bool
  | .hold _ => true
  | .ok | .freeze _ _ | .walk _ _ | .fillTlb _ | .trap _ _ _ => false

/-- The code under which a check keeps a bundle from being ready. -/
def Pre.code : Pre → Option Nat
  | .hold c => some c
  | .ok | .freeze _ _ | .walk _ _ | .fillTlb _ | .trap _ _ _ => none

def Pre.isOk : Pre → Bool
  | .ok => true
  | .hold _ | .freeze _ _ | .walk _ _ | .fillTlb _ | .trap _ _ _ => false

/-- The outcome of the checks of a bundle's syllables: what keeps it from being ready, else the first other outcome (R133). -/
def bundlePre (w : Warp) (is : List Instr) (ps : List Pre) : Pre :=
  if bundleHooksFull w is then .hold 3
  else match ps.find? Pre.isHold with
    | some p => p
    | none => (ps.find? fun p => !p.isOk).getD .ok

/-- A bundle a context would issue next: its syllables, or the fault of its line or of its decoding. -/
inductive Bundle where
  | absent
  | fault (cause val : Nat)
  | syls (img : LineImage) (is : List Instr)
deriving DecidableEq, Repr

/-- TSRC of the lowest slice of a context whose TCHK is set (R135). -/
def Warp.gangSrc (w : Warp) (g : Gang) : Option Dword := ((w.gangSlices g).find? fun sl => sl.cur.tchk).map fun sl => sl.cur.tsrc

/-- The next bundle of a context. Where no path of it has come by a transfer of control, TRVAL of a target fault is 0, which the spec
leaves open (DESIGN CHOICE, log 71): a warp that has returned to an unchanged TRPC. -/
def nextBundle (s : State) (w : Warp) (g : Gang) : Bundle :=
  match w.gangLine g with
  | none => .absent
  | some b =>
    match b.fault with
    | some (c, v) => .fault c v
    | none =>
      match decodeBundle b.img (g.pc.toNat % 64) w.nreg (hasPair s w) (w.gangSrc g).isSome (launchD s w).paired with
      | .error (c, v) => .fault c (if c = 4 then ((w.gangSrc g).getD 0).toNat else v)
      | .ok is => .syls b.img is

/-- The GAP of a syllable. -/
def gapOf (i : Instr) : Nat := (i.fields.map Fields.gap).getD 0

/-- The slots a bundle uses. -/
def slotsOf (is : List Instr) : List Nat := is.filterMap fun i => i.enc.map Enc.slot

/-- The issue of a context's bundle, from its first syllable. -/
def issueOf (s : State) (w : Warp) (g : Gang) (img : LineImage) (is : List Instr) (primary : Bool) : Issue :=
  let first := g.pc.toNat % 64
  { wid := w.wid, slices := g.slices, lanes := g.lanes, tick := w.tick, seq0 := s.nextId, pc := g.pc.toNat, img := img,
    first := first, syl := first, last := first + is.length - 1, primary := primary,
    gap := (is.getLast?.map gapOf).getD 0, fresh0 := s.fresh }

/-- The outcome of a bundle's checks, syllable by syllable. -/
def checkBundle (s : State) (w : Warp) (iss : Issue) (is : List Instr) : Pre :=
  bundlePre w is ((List.range is.length).zipWith (fun k i => bundleChk s w { iss with syl := iss.first + k } i) is)

/-! ## What keeps a context from issuing (R152, R166) -/

/-- The code under which a warp is frozen in this clock cycle: 12 where its islands hold it, whatever else does (R166, R429). -/
def Warp.freezeCode (w : Warp) (paced : Bool) : Option Nat :=
  if w.frozen then
    some (if paced then 12 else ([12, 13, 2, 7, 5, 6, 8].find? fun c => w.freezes.any fun f => f.code = c).getD 12)
  else none

/-- Whether a warp may not issue whatever it does itself: it is stopped at sv4, its core or the device is, or its context is
pre-empted (R98, R150). -/
def held (s : State) (w : Warp) : Bool :=
  w.stopped || (s.core w.core).frozen || s.parkedDev || (match teamOf s w with
    | some t => t.place != .resident
    | none => true)

/-- Whether the contexts of a warp are kept from issuing: it is held, not yet admitted, or on its way into a trap. -/
def halted (s : State) (w : Warp) : Bool :=
  held s w || w.entering || (match teamOf s w with
    | some t => !t.admitted
    | none => true)

/-- Whether a warp's clock cycles count under code 12 for that: entry to a trap counts 7 while an empty line holds it (R409), and 12
already in the clock cycle in which the trap is taken. -/
def haltCode (s : State) (w : Warp) : List Nat :=
  if held s w || (w.nextTrap.isSome && !w.entering) then [12]
  else if !halted s w then []
  else if w.entering && w.freezes.any fun f => f.code = 7 then [7] else [12]

/-- The tick before which a context's next bundle may not issue, without its register penalty, and with it (R153, R156). -/
def Warp.gangTicks (w : Warp) (g : Gang) (pen : Nat) : Nat × Nat :=
  (w.gangSlices g).foldl (fun t sl => (max t.1 sl.cur.earliest, max t.2 (sl.cur.earliest + (if sl.cur.noPen then 0 else pen)))) (0, 0)

/-- The V pipe held by a warp since an earlier clock cycle (R158): code 1 for its own contexts and 9 for others. -/
def vCodes (s : State) (w : Warp) (r : Room) : List Nat :=
  match r.vHold with
  | some (wid, til, at') =>
    if at' ≠ coreCycle s w.core && (s.warp? wid).any fun v => !v.ended && v.core = w.core && v.tick < til then
      [if wid = w.wid then 1 else 9] else []
  | none => []

/-- The M pipe held by remote syllables (R357): code 1 for the context that issued one, to a tick of its warp, and 9 for the other
contexts of the room, to a clock cycle. -/
def mCodes (s : State) (w : Warp) (g : Gang) (r : Room) : List Nat :=
  (if w.mBusy.any fun b => g.slices.contains b.1 && w.tick < b.2 then [1] else [])
    ++ (if r.mHold.any fun h => !(h.1 = w.wid && g.slices.contains h.2.1) && coreCycle s w.core ≤ h.2.2 then [9] else [])

/-- The occupied pipes a bundle needs, by the code they count (R158, R357). -/
def pipeCodes (s : State) (w : Warp) (g : Gang) (is : List Instr) : List Nat :=
  let r := (s.core w.core).rooms.getD w.room {}
  (if (slotsOf is).contains 0 then vCodes s w r else []) ++ (if (slotsOf is).contains 1 then mCodes s w g r else [])

/-- The penalty of the bundle a context would issue. -/
def Bundle.pen : Bundle → Nat
  | .syls _ is => penalty is
  | .absent | .fault _ _ => 0

/-- The slots and occupancies of the bundle a context would issue. -/
def Bundle.pipes (s : State) (w : Warp) (g : Gang) : Bundle → List Nat
  | .syls _ is => pipeCodes s w g is
  | .absent | .fault _ _ => []

/-- The paths whose holds keep a slice's next bundle from issuing: the running one, and those that arrived at a TARGET under a hold
and whose lanes it has taken over (R172, log 35). -/
def Slice.gates (sl : Slice) : List Path := sl.cur :: (sl.waits.filter fun x => x.2.mask &&& sl.cur.mask != 0).map Prod.snd

/-- The codes of the holds, fences and waits of a path. -/
def pathCodes (s : State) (w : Warp) (p : Path) : List Nat :=
  (p.hold.code (coreCycle s w.core) (timens s)).toList ++ (if p.fence.isSome || w.waitHolds p.wait then [3] else [])

/-- The codes of the checks of a bundle that keep it from being ready: its hooks, the fabric queue and the engines' queues. -/
def Bundle.holds (s : State) (w : Warp) (g : Gang) : Bundle → List Nat
  | .syls img is =>
    let iss := issueOf s w g img is true
    let ps := (List.range is.length).zipWith (fun k i => bundleChk s w { iss with syl := iss.first + k } i) is
    (if bundleHooksFull w is then [3] else []) ++ ps.filterMap Pre.code
  | .absent | .fault _ _ => []

/-- Every reason for which a context is not ready, by its stall code; membership of the active set apart. -/
def gangCodes (s : State) (w : Warp) (g : Gang) : List Nat :=
  let b := nextBundle s w g
  let t := w.gangTicks g b.pen
  haltCode s w ++ (w.freezeCode (islandsHold s w)).toList
    ++ (if b == .absent then [10] else [])
    ++ ((w.gangSlices g).flatMap fun sl => sl.gates.flatMap (pathCodes s w))
    ++ (if w.tick < t.1 then [1] else if w.tick < t.2 then [2] else [])
    ++ b.pipes s w g ++ b.holds s w g

/-- The first code in the order of R166. -/
def codeOrder : List Nat := [12, 13, 2, 7, 5, 6, 8, 10, 11, 4, 3, 15, 14, 1, 9]
def firstCode (cs : List Nat) : Option Nat := codeOrder.find? fun c => cs.contains c

/-- The outcome of the checks of the bundle a context would issue, taken at this tick. -/
def gangPre (s : State) (w : Warp) (g : Gang) : Pre :=
  match nextBundle s w g with
  | .absent => .hold 10
  | .fault c v => .trap c g.lanes v
  | .syls img is => checkBundle s w (issueOf s w g img is true) is

/-- The codes of a context, and where there is none the outcome of its bundle's checks. -/
def gangStatus (s : State) (w : Warp) (g : Gang) : List Nat × Pre :=
  match gangCodes s w g with
  | [] => match gangPre s w g with
    | .hold c => ([c], .hold c)
    | p => ([], p)
  | cs => (cs, .ok)

/-! ## The contexts of a room (R165) -/

/-- The warps resident in a room, in ascending order of their identity. -/
def roomWarps (s : State) (core room : Nat) : List Warp :=
  (s.warps.filter fun e => e.2.core = core && e.2.room = room && !e.2.ended
    && (match teamOf s e.2 with
      | some t => t.place != .saved && t.admitted
      | none => false)).map Prod.snd

/-- The number of a context of a warp at a position of the active set. -/
def ctxNum (w : Warp) (g : Gang) : Nat := 16 * w.apos.getD 8 + (w.base + g.slices.headD 0)

/-- Insertion by a key. -/
def insertBy {α : Type} (key : α → Nat) (x : α) : List α → List α
  | [] => [x]
  | y :: ys => if key x ≤ key y then x :: y :: ys else y :: insertBy key x ys

def sortBy {α : Type} (key : α → Nat) (l : List α) : List α := l.foldr (insertBy key) []

/-- The contexts of the active set of a room, ascending; the slices in `out` have issued. -/
def roomCtxs (s : State) (core room : Nat) (out : Option (Nat × List Nat)) : List (Nat × Nat × List Nat) :=
  sortBy Prod.fst ((roomWarps s core room).flatMap fun w =>
    if w.apos.isNone then []
    else (w.gangsBut (match out with
        | some o => if o.1 = w.wid then o.2 else []
        | none => [])).map fun g => (ctxNum w g, w.wid, g.slices))

/-- The gang of a warp with the given slices. -/
def Warp.gangAt (w : Warp) (slices : List Nat) : Option Gang :=
  (w.gangsBut ((List.range w.slices.length).filter fun i => !slices.contains i)).head?

/-! ## Picking (R165) -/

/-- A slice whose next bundle issues: the checks and waits of its path are made, and the holds kept of the lanes it has taken over
have ended. -/
def Slice.issues (sl : Slice) : Slice :=
  { sl with
    cur := { sl.cur with tchk := false, wait := .none }, waits := sl.waits.filter fun x => x.2.mask &&& sl.cur.mask == 0 }

/-- The warp at the issue of one of its bundles: it has issued, and its watchdog starts again. A yield of another context in the same
clock cycle stands (R183). -/
def Warp.picked (w : Warp) (slices : List Nat) (base : Nat) : Warp :=
  let clear (i : Nat) (sl : Slice) : Slice := if slices.contains i then sl.issues else sl
  { w with
    slices := (List.range w.slices.length).zipWith clear w.slices
    issued := true, lastIss := base, yielded := w.yielded && w.lastIss == base, wdogNs := 0 }

/-- A context's bundle issued: it is charged, and its syllables follow at once (R109, R442). -/
def pick (s : State) (w : Warp) (g : Gang) (img : LineImage) (is : List Instr) (primary : Bool) : State :=
  let iss := issueOf s w g img is primary
  let ctx := ctxOf s w
  let s := chargeEnergy (charge s ctx 0 1) ctx 0 (warpMv s w) (clusterOf s w.core).ratio
  let s := s.putWarp (w.picked g.slices s.base)
  { s with issuing := iss :: s.issuing, fresh := s.fresh + 8 }

/-- A candidate that is ready: its number, warp, gang and bundle. -/
structure Cand where
  n : Nat
  w : Warp
  g : Gang
  img : LineImage
  is : List Instr
deriving DecidableEq, Repr

/-- The candidates tried in turn, those whose slots are taken passed over: the first that is ready; one whose bundle stops it freezes,
walks or traps on the way. -/
def tryPicks (used : List Nat) (primary : Bool) (s : State) : List (Nat × Nat × List Nat) → State × Option Cand
  | [] => (s, none)
  | (n, wid, slices) :: cs =>
    match (s.warp? wid).bind fun w => (w.gangAt slices).map fun g => (w, g) with
    | none => tryPicks used primary s cs
    | some (w, g) =>
      match nextBundle s w g, gangStatus s w g with
      | _, (_ :: _, _) => tryPicks used primary s cs
      | .syls img is, ([], p) =>
        if (slotsOf is).any used.contains then tryPicks used primary s cs
        else if p.isOk then (s, some ⟨n, w, g, img, is⟩)
        else tryPicks used primary (stopFor p s w (issueOf s w g img is primary)) cs
      | .absent, ([], p) | .fault _ _, ([], p) => tryPicks used primary (stopFor p s w (issueOf s w g 0 [] primary)) cs

/-- The destination of a syllable that writes one. -/
def writes (i : Instr) : Option Dst :=
  match i with
  | .iaddc f true _ _ j => some (bitDst f.d j 1 .set)
  | .icmp f _ cmb _ j | .cmp64 f _ cmb _ j | .fcmp f _ cmb _ j | .dcmp f _ cmb _ j
  | .voteAny f _ j cmb | .voteAll f _ j cmb | .voteEq f _ j cmb => some (bitDst f.d j 1 cmb)
  | .hcmp2 f _ cmb _ j => some (bitDst f.d j 2 cmb)
  | .wqenq f j _ => some (bitDst f.d j 1 .set)
  | i => match i.fields, i.shape with
    | some f, some sh => if sh.d == .none then none else some (dstOf f.d sh.d)
    | _, _ => none

/-- A candidate's bundle issued. -/
def Cand.pick (c : Cand) (primary : Bool) (s : State) : State := Sys2Proof.Machine.pick s c.w c.g c.img c.is primary

/-- The destinations of a candidate's syllables, each in its enabled lanes. -/
def Cand.opens (c : Cand) (s : State) : List (Dst × Lanes) :=
  let iss := issueOf s c.w c.g c.img c.is false
  (((List.range c.is.length).zip c.is).filterMap fun p => match p.2.fields, writes p.2 with
    | some f, some d => some (d, enabled (rdOf p.2 s c.w { iss with syl := iss.first + p.1 }) f)
    | _, _ => none)

/-- The list of contexts from a number on, and then from 0. -/
def rotateFrom (p : Nat) (cs : List (Nat × Nat × List Nat)) : List (Nat × Nat × List Nat) :=
  (cs.filter fun c => p ≤ c.1) ++ (cs.filter fun c => c.1 < p)

/-! ## Stall codes (R166, R443) -/

/-- The stall counters, 16 for each room in order. -/
def Core.stall (c : Core) (room code : Nat) : Core := { c with stalls := lmod c.stalls (16 * room + code) (· + 1) }

def Account.stall (a : Account) (code : Nat) : Account := { a with stalls := tset a.stalls code ((tget a.stalls code).getD 0 + 1) }

/-- One clock cycle of a context counted under a code; that of a recovery counts for the device (R434, R441). -/
def countStall (s : State) (w : Warp) (code : Nat) : State :=
  let ctx := ctxOf s w
  let rec' := recovering s w
  let s := s.modCore w.core fun c => c.stall w.room code
  if rec' then { s with devAcct := s.devAcct.stall code }
  else { s with accounts := tset s.accounts ctx (((tget s.accounts ctx).getD {}).stall code) }

/-- The code of a context that has not issued in this clock cycle. -/
def stallCode (s : State) (w : Warp) (g : Gang) : Nat := (firstCode (gangStatus s w g).1).getD 9

/-- The codes of a warp's contexts: one for each that has not retired; a warp that waits to end counts 3 (R182). -/
def countWarp (issued : List (Nat × List Nat)) (s : State) (w : Warp) : State :=
  let mine := (issued.filter fun o => o.1 = w.wid).map Prod.snd
  if w.gangs.isEmpty && mine.isEmpty then
    countStall s w ((firstCode (haltCode s w ++ (w.freezeCode (islandsHold s w)).toList ++ [3])).getD 3)
  else
    let s := mine.foldl (fun s _ => countStall s w 0) s
    (w.gangsBut mine.flatten).foldl (fun s g => countStall s w (stallCode s w g)) s

/-! ## The active set (R96) -/

/-- Whether a warp outside the active set is eligible: a context of it meets all but membership and the fetch. -/
def eligible (s : State) (w : Warp) : Bool :=
  w.apos.isNone && w.gangs.any fun g =>
    ((gangCodes s w g).filter (· ≠ 10)).isEmpty && (nextBundle s w g == .absent || !(gangPre s w g).isHold)

/-- The lowest runnable lane of a warp (R98). -/
def Warp.lowRunnable (s : State) (w : Warp) : Option Nat :=
  if held s w || w.freezes.any (fun f => [5, 6, 7].contains f.code) then none
  else ((List.range w.slices.length).zip w.slices).findSome? fun p => (p.2.lowRunnable (w.live p.1)).map (4 * p.1 + ·)

/-- The thread identifier of a lane (R85). -/
def threadId (s : State) (w : Warp) (lane : Nat) : Nat :=
  (match teamOf s w with
    | some t => t.lin
    | none => 0) * 2048 + w.w * 64 + lane

/-- The launch of a warp and its lowest runnable lane, as a thread. -/
def leadOf (s : State) (w : Warp) : Option (Nat × Nat) :=
  (w.lowRunnable s).map fun l => ((launchD s w).lid, threadId s w l)

/-- Whether a warp holds its launch's lowest runnable lane among those of its room. -/
def protectedWarp (s : State) (w : Warp) : Bool :=
  match leadOf s w with
  | none => false
  | some (lid, t) => (roomWarps s w.core w.room).all fun v => match leadOf s v with
    | some (lid', t') => lid' ≠ lid || t ≤ t'
    | none => true

/-- How long ago a warp last issued, the longest first: a warp that yielded comes before all others (R183). -/
def staleKey (w : Warp) : Nat := if w.yielded then 0 else w.lastIss + 1

/-- Whether a path of a warp is in waitns, for which the warp keeps its place in the active set (R400). -/
def Warp.waitsExactly (w : Warp) : Bool :=
  let saved := match w.attic with
    | some a => a.slices
    | none => []
  (w.slices ++ saved).any fun sl => (sl.paths ++ sl.waits.map Prod.snd).any fun p => p.hold matches .asleep _ false

/-- The warps of a room's active set that may leave it in this clock cycle, the one gone longest without issuing first. -/
def mayLeave (s : State) (core room : Nat) : List Warp :=
  sortBy staleKey ((roomWarps s core room).filter fun w => w.apos.isSome && w.moved ≠ coreCycle s core + 1 && !w.waitsExactly)

/-- The active warp that an entering warp replaces: the one gone longest without issuing, of the unprotected ones where the entrant
is not protected; and where every position holds a protected warp, one that has issued since it entered. -/
def activeVictim (s : State) (e : Warp) : Option Warp :=
  let act := mayLeave s e.core e.room
  if !protectedWarp s e then act.find? fun w => !protectedWarp s w
  else if ((roomWarps s e.core e.room).filter fun w => w.apos.isSome).all (protectedWarp s) then
    act.head?.bind fun w => if w.issued then some w else none
  else act.head?

/-- A warp that takes a position of the active set: frozen for the next clock cycle while its rows wake. -/
def Warp.enterSet (w : Warp) (pos cycle : Nat) : Warp :=
  { w with apos := some pos, issued := false, moved := cycle + 1 }.freeze 8 (cycle + 1) false

/-- A warp that leaves the active set. -/
def Warp.leaveSet (w : Warp) (cycle : Nat) : Warp := { w with apos := none, yielded := false, moved := cycle + 1 }

/-- The lowest free position of a room's active set. Which one an entering warp takes is not in the spec (DESIGN CHOICE, log 68). -/
def freePos (s : State) (core room : Nat) : Option Nat :=
  (List.range 8).find? fun k => !((roomWarps s core room).any fun w => w.apos = some k)

/-- An eligible warp enters the active set at the end of the clock cycle (R96). -/
def execActiveSetEntry (wid : Nat) (s : State) : Result :=
  match s.warp? wid with
  | none => .next s
  | some w =>
    let c := coreCycle s w.core
    if !eligible s w || w.moved = c + 1 then .next s
    else match freePos s w.core w.room with
      | some k => .next (requestFetch (s.putWarp (w.enterSet k c)) wid)
      | none => match activeVictim s w with
        | some v => .next (requestFetch ((s.putWarp (v.leaveSet c)).putWarp (w.enterSet (v.apos.getD 0) c)) wid)
        | none => .next s

/-! ## MERGE_SELECT -/

/-- The bundle boundaries of a room's warps and the fetches they need (R172, R173). -/
def roomBoundaries (s : State) (core room : Nat) : State :=
  (roomWarps s core room).foldl (fun s w =>
    if halted s w then s else requestFetch (s.putWarp w.boundary) w.wid) s

/-- The warps of a room of which every lane has retired (R182). -/
def exited (s : State) (core room : Nat) : List Warp :=
  (roomWarps s core room).filter fun w => (allLanes w.width &&& ~~~w.retired) == 0

/-- Warps that have yielded and not issued since leave the active set where a warp outside it is eligible, unless they are protected
(R183). -/
def yieldersLeave (s : State) (core room : Nat) (ents : List Warp) : State :=
  if ents.isEmpty then s
  else ((mayLeave s core room).filter fun w => w.yielded && !protectedWarp s w).foldl (fun s w => s.putWarp (w.leaveSet (coreCycle s core))) s

/-- The end of a room's merge stage: what its contexts count, the warps that enter its active set, and those that may end. Of warps
that have gone equally long without issuing the one of the lower identity comes first, which the spec leaves open (DESIGN CHOICE,
log 68). -/
def finishMerge (s : State) (core room : Nat) (issued : List (Nat × List Nat)) : State :=
  let s := (roomWarps s core room).foldl (countWarp issued) s
  let ents := sortBy staleKey ((roomWarps s core room).filter (eligible s))
  let s := yieldersLeave s core room ents
  let clear (r : Room) : Room := { r with prim := none, sec := none }
  let ends := ((exited s core room).map fun w => Instr.warpEnd w.wid).filter fun e => !s.agenda.contains e
  let evs := (ents.map fun w => Instr.activeSetEntry w.wid) ++ ends
  (({ s with agenda := s.agenda ++ evs }).modCore core fun c => { c with rooms := lmod c.rooms room clear })

/-- The primary chosen, and the pointer moved past it; a secondary chosen beside it issues after it. -/
def notePrimary (s : State) (core room : Nat) (c : Cand) (sec : Option Cand) : State :=
  let put (r : Room) : Room :=
    { r with pointer := (c.n + 1) % 128, prim := some (c.w.wid, c.g.slices, slotsOf c.is)
             sec := sec.map fun d => (d.n, d.w.wid, d.g.slices, false) }
  s.modCore core fun k => { k with rooms := lmod k.rooms room put }

/-- The secondary that issues. -/
def noteSecondary (s : State) (core room : Nat) (c : Cand) : State :=
  let put (r : Room) : Room := { r with sec := some (c.n, c.w.wid, c.g.slices, true) }
  s.modCore core fun k => { k with rooms := lmod k.rooms room put }

/-- What the secondary issues beside the primary, for the primary's reads, where both are contexts of one warp (R154, R230). -/
def openBeside (s : State) (prim : Cand) (sec : Option Cand) : State :=
  match sec, s.issuing with
  | some d, iss :: rest => if d.w.wid = prim.w.wid then { s with issuing := { iss with opens := d.opens s } :: rest } else s
  | _, _ => s

/-- The merge stage of a room (R165): first both its picks, the primary's bundle issuing at once; called again, its secondary's; and
then, when that has issued, the end of the stage. -/
def execMergeSelect (core room : Nat) (s : State) : Result :=
  let r := (s.core core).rooms.getD room {}
  match r.prim, r.sec with
  | none, _ =>
    let s := roomBoundaries s core room
    match tryPicks [] true s (rotateFrom r.pointer (roomCtxs s core room none)) with
    | (s, some c) =>
      let b := tryPicks (slotsOf c.is) false (c.pick true s) (roomCtxs s core room (some (c.w.wid, c.g.slices)))
      .next ((openBeside (notePrimary b.1 core room c b.2) c b.2).soon (.mergeSelect core room))
    | (s, none) => .next (finishMerge s core room [])
  | some (wid, slices, _), some (_, wid', slices', true) => .next (finishMerge s core room [(wid, slices), (wid', slices')])
  | some (wid, slices, slots), some (n, wid', slices', false) =>
    match tryPicks slots false s ((n, wid', slices') :: roomCtxs s core room (some (wid, slices))) with
    | (s, some c) => .next ((c.pick false (noteSecondary s core room c)).soon (.mergeSelect core room))
    | (s, none) => .next (finishMerge s core room [(wid, slices)])
  | some (wid, slices, _), none => .next (finishMerge s core room [(wid, slices)])

end Sys2Proof.Machine
end

