-- ==== Sys2Proof/Machine/Traps.lean ====
section
/-! DEFINITION. Traps as they are taken (R404 to R412), what sv4 does with a stopped warp (R407), the watchdog (R419), and the end of
warps, teams and launches (R182, R437 to R440, R79, R80). -/

namespace Sys2Proof.Machine

/-! ## Entry (R409, R410) -/

/-- The register penalty of the next bundle of each slice, which its owed ticks include (R409 step 4). -/
def slicePens (s : State) (w : Warp) : List Nat :=
  (List.range w.slices.length).map fun i => match w.gangs.find? fun g => g.slices.contains i with
    | some g => (nextBundle s w g).pen
    | none => 0

/-- The code of the hold that a slice of a warp has left for a handler, as the Attic keeps it (R430); 12 where it left none. -/
def Warp.leftCode (w : Warp) (i : Nat) : Nat :=
  ((w.attic.bind fun a => a.slices[i]?).bind fun sl => sl.gates.findSome? fun p => p.hold.code 0 0).getD 12

/-- The slices of a warp that enters a handler issue nothing until its islands are back from retention voltage (R430). -/
def wakeForTrap (s : State) (w : Warp) : State :=
  let go (i : Nat) (sl : Slice) : Slice := { sl with cur := sl.cur.setHold (released 0 (warpWake s w) (w.leftCode i)) }
  if w.stopped then s.putWarp w else wakeIslands (s.putWarp (w.mapSlices go)) w.core w.room w.islands

/-- The trap due is taken, and sv4 receives one that is routed to it (R407). Its warp's scratchpad accesses are performed first, ahead of their access ticks (R409 step 1). -/
def execTrapEntry (wid : Nat) (s : State) : Result :=
  match s.warp? wid with
  | none => .next s
  | some w =>
    match w.nextTrap with
    | none => .next (s.putWarp { w with entering := false })
    | some t =>
      if w.stopped || w.ended then .next s
      else if !w.scr.isEmpty then .next (s.putWarp { w with entering := true })
      else
        let w := w.enterTrap t (slicePens s w) (coreCycle s w.core) s.nextId
        let s := requestFetch (wakeForTrap s.bump w) wid
        .next (if w.stopped then s.event (.trapStopped wid) else s)

/-! ## sv4 (R407) -/

/-- A control register as sv4 writes it: any of them, with reserved bits 0 and the fixed fields of TRDEL kept. -/
def Csrs.poke (c : Csrs) (r : Csr) (v : Dword) : Csrs :=
  let v32 : Word := v.setWidth 32
  match r with
  | .trdel => { c with trdel := trdelWrite true c.trdel v }
  | .syshand => { c with syshand := v }
  | .wct => { c with wct := v }
  | .wqbind => { c with wqbind := v }
  | .trcause => { c with trcause := v32 &&& 0x3FF }
  | .trlanes => { c with trlanes := v }
  | .trdst => { c with trdst := v32 &&& 0x1FFFF }
  | .trval => { c with trval := v }
  | .trstat => { c with trstat := v32 &&& 0x1F }
  | .refwin => c
  | .fpsr | .fpte | .sigthr | .shbase | .memst | .wdog | .islhint | .trpc | .trhand | .trsav0 | .trsav1 | .trsav2 | .trsav3 => c.set r v

/-- Registers and control registers written by sv4. -/
def Warp.poke (w : Warp) (regs : List (Nat × Nat × Word)) (csrs : List (Csr × Dword)) : Warp :=
  let w := regs.foldl (fun w r => if r.1 < w.nreg || (768 ≤ r.1 && r.1 < 776) then w.write r.1 r.2.1 r.2.2 63 else w) w
  { w with csr := csrs.foldl (fun c p => c.poke p.1 p.2) w.csr }

/-- sv4 writes registers of a stopped warp and resumes it with the effect of rte, counted from the warp's tick. A target fault at a
TRPC it has rewritten has no source bundle, and TRVAL 0, which the spec leaves open (DESIGN CHOICE, log 71). -/
def execSv4Resume (wid : Nat) (regs : List (Nat × Nat × Word)) (csrs : List (Csr × Dword)) (s : State) : Result :=
  match s.warp? wid with
  | none => .next s
  | some w =>
    if !w.stopped || !s.svUp 4 then .next s
    else .next (requestFetch (s.putWarp ((w.poke regs csrs).leaveTrap w.tick 0 (coreCycle s w.core) 0)) wid)

/-- The trap registers of a stopped warp as if TRDEL had routed its trap to the user handler. -/
def userRoute (c : Csrs) : Csrs :=
  { c with
    trcause := c.trcause &&& 0xFFFFFF3F
    trstat := trstatOf true false (c.trstat.getLsbD 2) (c.trstat.getLsbD 3) (c.trstat.getLsbD 4) }

/-- sv4 sends a stopped warp to its user handler; refused while TRHAND is 0. -/
def execSv4EnterHandler (wid : Nat) (s : State) : Result :=
  match s.warp? wid with
  | none => .next s
  | some w =>
    if !w.stopped || w.csr.trhand = 0 || !s.svUp 4 then .next s
    else
      let w := { w with csr := userRoute w.csr, stopped := false }
      .next (requestFetch (wakeForTrap s ((w.toHandler w.csr.trhand).freeze 12 (coreCycle s w.core + 8) true)) wid)

/-! ## The watchdog (R419) -/

/-- The lowest unretired lane of a warp. -/
def Warp.lowLive (w : Warp) : Option Nat := lowLane (allLanes w.width &&& ~~~w.retired)

/-- The PC of the slice that holds the lowest unretired lane (R408). -/
def Warp.lowPc (w : Warp) : Dword :=
  match w.lowLive.bind fun l => w.slices[l / 4]? with
  | some sl => sl.cur.pc
  | none => 0

/-- Whether a warp has gone longer than LIMIT µs without issuing. -/
def Warp.overdue (w : Warp) : Bool := w.csr.wdog != 0 && w.csr.wdog.toNat * 1000 < w.wdogNs

/-- The watchdog's trap, and its count restarted. -/
def execWatchdogExpiry (wid : Nat) (s : State) : Result :=
  match s.warp? wid with
  | none => .next s
  | some w =>
    if !w.overdue then .next s
    else
      let t : TrapDue := { cause := 0x19, cls := 4, pc := w.lowPc, lanes := allLanes w.width &&& ~~~w.retired,
                           val := w.csr.wdog.setWidth 64, seq := s.nextId, tick := w.tick }
      .next (s.putWarp { w.post t with wdogNs := 0 }).bump

/-! ## Records and knocks (R79, R80) -/

/-- The 32 bytes of a completion record. -/
def recordBits (s : State) (l : Launch) (status detail : Nat) : Nat :=
  status % 256 + detail % 2 ^ 16 * 2 ^ 16 + l.pseq % 2 ^ 32 * 2 ^ 32 + l.tstart % 2 ^ 64 * 2 ^ 64
    + timens s % 2 ^ 64 * 2 ^ 128 + l.ctx * 2 ^ 192

/-- The context in whose address space a local record is written: the owner of the launch's queue. -/
def ownerCtx (s : State) (l : Launch) : Nat :=
  match tget s.queues l.qid with
  | some q => q.ctx
  | none => l.ctx

/-- A record written locally at its home (R79): its address is translated as every other, and one whose walk defers waits for sv3
(R268); the knock waits until the write is complete for every reader (R80, R381). -/
def localRecord (s : State) (l : Launch) (data : Nat) : State :=
  let ctx := ownerCtx s l
  match homeX s ctx l.craddr .w with
  | .defer => (deferFor s ctx l.craddr .w).later 1250 (.launchRetirement l.lid)
  | .bad => endRecord (usedAnswers s ctx [l.craddr]) l.lid false
  | .ok lf =>
    let pa := lf.phys l.craddr
    let r := homeWrite s (pa / 128) lf.enc lf.keyid ⟨devCtx, 2 ^ 23⟩ (lf.ca = 1) lf.zp 0 (bytesFrom (pa % 128) 32 data)
    if r.lost.isEmpty then (r.s.putLaunch { l with phase := .recorded, wct := r.ctime }).soon (.launchRetirement l.lid)
    else endRecord r.s l.lid false

/-- The record under its latchkey: one 16-byte write for each half (R79). CRADDR is then an offset into the key's window, which the
spec leaves open (DESIGN CHOICE, log 72). -/
def remoteRecord (s : State) (l : Launch) (data : Nat) : State :=
  let half (i : Nat) : RemLane := ⟨i, l.craddr + 16 * i, BitVec.ofNat 128 (data / 2 ^ (128 * i)), 0⟩
  let id := s.nextId
  let o : Op := { id := id, wid := 2 ^ 64, hook := 0, core := 0, ctx := l.ctx, kind := .record l.lid l.crkey 0 }
  if !reaches s (keyDev l.crkey) then endRecord s l.lid false
  else sendReq ({ s with ops := tset s.ops id o }.bump) l.ctx
    ⟨s.devid, id, l.crkey, .write .b128 0, false, false, [half 0, half 1]⟩

/-- Step 3 of R439: the record of a launch is written, where it asks for one; a knock follows one that was (step 4). -/
def writeRecord (s : State) (l : Launch) (status detail : Nat) : State :=
  if l.craddr = 0 then s.putLaunch { l with phase := .done }
  else if l.craddr % 32 ≠ 0 then endRecord s l.lid false
  else if l.crkey = 0 then localRecord s l (recordBits s l status detail)
  else remoteRecord s l (recordBits s l status detail)

/-! ## Warps and teams that end (R182, R437, R438) -/

/-- Whether a warp may end: every lane retired, every hook zero and every result landed. -/
def Warp.mayEnd (w : Warp) : Bool :=
  (allLanes w.width &&& ~~~w.retired) == 0 && w.hooksZero && w.flight.isEmpty && w.scr.isEmpty && !w.ended

/-- A warp that has ended: its landings, Attic and credits are discarded (R437). -/
def Warp.finish (w : Warp) : Warp :=
  { w with
    regs := [], flight := [], attic := none, hooks := List.replicate 16 {}, freezes := [], frozen := false, apos := none,
    due := [], walkRes := [], lastWr := [], ended := true }

/-- The cores a team is on. -/
def Team.cores (t : Team) : List Nat := if t.paired then [t.core, t.core + 1] else [t.core]

/-- The matrix engines that a team holds released and their state discarded (R324, R438). -/
def freeEngines (s : State) (t : Team) : State :=
  t.cores.foldl (fun s c => s.modCore c fun k => if k.engine.holder = some t.tid then { k with engine := {} } else k) s

/-- Whether a team has a warp that has not ended on a core, or in a hatch pair. -/
def liveOn (s : State) (t : Team) (core : Nat) : Bool := s.warps.any fun e => e.2.team = t.tid && !e.2.ended && e.2.core = core
def livePair (s : State) (t : Team) (pair : Nat) : Bool := s.warps.any fun e => e.2.team = t.tid && !e.2.ended && e.2.w / 2 = pair

/-- What a team gives up when a warp of it ends: the hatch entries of a pair of which both warps have ended (R262), and the matrix
engine of a core on which its last warp has (R324). -/
def warpGone (s : State) (t : Team) (w : Warp) : State :=
  let cut (t : Team) : Team := { t with hatches := t.hatches.filter fun e => e.1 / 8 ≠ w.w / 2 }
  let s := if livePair s t (w.w / 2) then s else s.modTeam t.tid cut
  let free (c : Core) : Core := if c.engine.holder = some t.tid then { c with engine := {} } else c
  if liveOn s t w.core then s else s.modCore w.core free

/-- Filler on a core ended, and its energy charged to the context whose retirement caused it (R433, R441). -/
def endFiller (s : State) (core : Nat) : State :=
  match (s.core core).filler with
  | none => s
  | some (ctx, since) =>
    let n := Config.energy 9 (islandMv s core 0 0) (clusterOf s core).ratio * (timens s - since)
    let off (c : Core) : Core := { c with filler := none }
    charge (charge (s.modCore core off) ctx 2 n) ctx 3 n

/-- The time that the package current takes to follow a change of load along the slope of R62 (R432). -/
def slopeTime (s : State) : Nat := Config.slopeNs (slopeLimit s) s.fresh

/-- Filler on the cores a team leaves, to the instant at which the current has fallen along the slope: at once where the retirement
drops it no faster (R432). -/
def startFiller (s : State) (t : Team) (ctx : Nat) : State :=
  let til := max (timens s) s.slopeDown + slopeTime s
  let on (s' : State) (c : Nat) : State :=
    let put (k : Core) : Core := { k with filler := some (ctx, timens s) }
    ((endFiller s' c).modCore c put).later (baseAt til - s.base) (.fillerEnd c)
  { t.cores.foldl on s with slopeDown := til, fresh := s.fresh + 1 }

/-- A team that has retired leaves with its warps, and its launch counts it. -/
def retireTeam (s : State) (t : Team) : State :=
  let ctx := match s.launch? t.launch with
    | some l => l.ctx
    | none => 0
  let s := startFiller (freeEngines s t) t ctx
  let s := { s with teams := tdel s.teams t.tid, warps := s.warps.filter fun e => e.2.team ≠ t.tid }
  s.modLaunch t.launch fun l => { l with teamsDone := l.teamsDone + 1 }

/-- The teams of a launch's grid. -/
def Launch.grid (l : Launch) : Nat := l.gx * l.gy * l.gz

/-- A launch of which every team has retired begins to retire (R439). -/
def launchOver (s : State) (lid : Nat) : State :=
  match s.launch? lid with
  | some l => if l.phase = .placing && l.grid ≤ l.teamsDone then
      (s.putLaunch { l with phase := .retiring }).later 0 (.launchRetirement lid) else s
  | none => s

/-- A warp that has ended gives back its resources; with the last one its team retires. -/
def execWarpEnd (wid : Nat) (s : State) : Result :=
  match s.warp? wid with
  | none => .next s
  | some w =>
    if !w.mayEnd then .next s
    else
      let s := (s.putWarp w.finish).modTeam w.team fun t => { t with live := t.live - 1 }
      let s := match teamOf s w with
        | some t => (warpGone s t w).modLaunch t.launch fun l => { l with wct := max l.wct w.csr.wct.toNat }
        | none => s
      match teamOf s w with
      | some t => .next (if t.live = 0 then launchOver (retireTeam s t) t.launch else s)
      | none => .next s

/-! ## Retirement of a launch (R439, R440) -/

/-- The work-queue units of a launch unbound and their entries discarded (R82). -/
def unbindUnits (s : State) (lid : Nat) : State :=
  let free (u : WqUnit) : WqUnit := if u.owner.any fun o => o.1 = lid then {} else u
  let wait := (s.launches.filter fun e => e.2.phase = .queued).map fun e => Instr.wqUnitBind e.1
  { s with wqUnits := s.wqUnits.map free, agenda := s.agenda ++ wait }

/-- Cellar writes that waited for a launch, begun again (R255). -/
def retryCellar (s : State) : State :=
  { s with cellarReqs := [], agenda := s.agenda ++ s.cellarReqs.map fun r => Instr.cellarWrite (r.1, r.2.1) r.2.2 }

/-- STATUS and DETAIL of a launch. -/
def Launch.outcome (l : Launch) : Nat × Nat := l.fatal.getD (0, 0)

/-- A launch retires: it waits for its WCT and, ended early, for its requests at other devices (R440), unbinds its units and writes the
record; its knock waits until the record is complete. -/
def execLaunchRetirement (lid : Nat) (s : State) : Result :=
  match s.launch? lid with
  | none => .next s
  | some l =>
    if l.phase ≠ .retiring && l.phase ≠ .recorded then .next s
    else if timens s < l.wct || l.waits.any fun id => (tget s.ops id).isSome then .next (s.later 1 (.launchRetirement lid))
    else if l.phase = .recorded then .next (endRecord s lid true)
    else .next (retryCellar (writeRecord (unbindUnits s lid) l l.outcome.1 l.outcome.2))

/-! ## A launch that is ended (R407, R439, R440) -/

/-- A request of a piece of work at this device's own ingress performed at once. -/
def performOwn (s : State) (r : RemReq) : State :=
  match execRemoteRequestIngress r s with
  | .next s' => s'
  | .fault _ | .refused _ => s

/-- The requests of a piece of work that have not left this device: at its own ingress each is performed at once or discarded, which is
undefined (R440); one held for a route is discarded. -/
def endRequests (s : State) (id : Nat) : State :=
  let own (r : RemReq) : Bool := r.src = s.devid && r.opId = id
  let reqs := s.ingressQ.filter own ++ s.pending.filterMap fun p => match p.ev with
    | .remoteRequestIngress r => if own r then some r else none
    | _ => none
  let s := reqs.eraseDups.foldl (fun s r => if Config.delay s.fresh % 2 = 0 then performOwn s.used r else s.used) s
  { s with
    ingressQ := s.ingressQ.filter fun r => !own r
    pending := s.pending.filter fun p => match p.ev with
      | .remoteRequestIngress r => !own r
      | _ => true
    heldOut := s.heldOut.filter fun h => h.2.work ≠ some id }

/-- An access of an ended launch that has not been performed: performed at once, or discarded; which is undefined (R440). A bulk message
ends for its peer. -/
def endAccess (s : State) (o : Op) : State :=
  match o.kind with
  | .mem m =>
    if Config.delay s.fresh % 2 = 0 then (m.todo.foldl (fun r line => performLine r.1 o r.2 line) (s.used, m)).1 else s.used
  | .remote _ | .copy _ | .matrix _ => endRequests s o.id
  | .bsend b => if b.done.isSome then s else tellReceiver s o.id b
  | .brecv r => match r.msg.bind (tget s.msgs ·) with
    | some m => if r.done.isSome then s else tellSender s m 3 (Frame.cancel m.src m.srcMsg)
    | none => s
  | .fence _ _ | .wqdeq _ _ | .sysc _ _ _ | .knock _ | .record _ _ _ => s

/-- What is left of a piece of work whose launch has ended: its requests that are at other devices and not answered (R440). -/
def Op.left (s : State) (o : Op) : Option OpKind :=
  let held := (s.heldOut.filter fun h => h.2.work = some o.id).map Prod.fst
  let out (d : Nat) : Bool := d ≠ s.devid && !held.contains d
  match o.kind with
  | .remote r =>
    let ws := r.waiting.filter fun w => out (keyDev w.2.1)
    if ws.isEmpty then none else some (.remote { r with waiting := ws })
  | .copy _ | .matrix _ => match (copyOf o.kind).bind fun c => if c.asked.isSome then c.entry else none with
    | some e => if out (keyDev e.2.2) then some (.knock (keyDev e.2.2)) else none
    | none => none
  | .mem _ | .fence _ _ | .wqdeq _ _ | .sysc _ _ _ | .knock _ | .bsend _ | .brecv _ | .record _ _ _ => none

/-- The work of a warp taken away; what is left of it stays, without its warp, until it is answered or has timed out. -/
def dropWork (s : State) (wid : Nat) : State :=
  let mine := s.ops.filter fun e => e.2.wid = wid
  let s := mine.foldl (fun s e =>
    let s' := endAccess s e.2
    match e.2.left s with
    | some k => s'.modOp e.1 fun o => { o with wid := 2 ^ 64, kind := k }
    | none => retireOp s' e.1) s
  let keep (u : WqUnit) : WqUnit := { u with waiters := u.waiters.filter fun p => !(mine.any fun e => e.1 = p.1) }
  { s with wqUnits := s.wqUnits.map keep }

/-- A launch ended by sv4, by management or by a reset: its warps stop, and its resources are free. -/
def endLaunch (s : State) (lid status detail : Nat) : State :=
  match s.launch? lid with
  | none => s
  | some l =>
    if l.phase ≠ .queued && l.phase ≠ .placing then s
    else
      let ts := (s.teams.filter fun e => e.2.launch = lid).map Prod.snd
      let ws := (s.warps.filter fun e => ts.any fun t => t.tid = e.2.team).map Prod.snd
      let mine := (s.ops.filter fun e => ws.any fun w => w.wid = e.2.wid).map Prod.fst
      let s := ws.foldl (fun s w => dropWork s w.wid) s
      let s := ts.foldl retireTeam s
      let s := { s with issuing := s.issuing.filter fun i => !(ws.any fun w => w.wid = i.wid) }
      (s.modLaunch lid fun l => { l with
        phase := .retiring, fatal := some (status, detail), waits := mine.filter fun id => (tget s.ops id).isSome
        wct := ws.foldl (fun m w => max m w.csr.wct.toNat) l.wct }).later 0 (.launchRetirement lid)

/-- sv4 ends the launch of a stopped warp with STATUS 4 and DETAIL the cause (R79, R407). -/
def execSv4EndLaunch (wid : Nat) (s : State) : Result :=
  match s.warp? wid with
  | none => .next s
  | some w =>
    if !w.stopped || !s.svUp 4 then .next s
    else match teamOf s w with
      | some t => .next (endLaunch s t.launch 4 (bits w.csr.trcause.toNat 0 6))
      | none => .next s

/-- A launch cancelled at the request of the management processor: STATUS 5 (R79). The request waits while sv7 restarts (R83). -/
def execManagementCancel (lid : Nat) (s : State) : Result :=
  .next (if s.svUp 7 then endLaunch s lid 5 0 else s.later 1250 (.managementCancel lid))

end Sys2Proof.Machine
end

