-- ==== Sys2Proof/Machine/Super.lean ====
section
/-! DEFINITION. The supervisor complex (R57 to R83): boot, the Lintel's heartbeat watch, mailboxes, control space, work queues, knocks,
the parser, and the validation of a LAUNCH. -/

namespace Sys2Proof.Machine

/-! ## Boot (R63 to R65) -/

/-- Whether an image's header has every required value (R65). -/
def headerOk (img : List Byte) : Bool :=
  let h := bytesNat (img.take 64)
  let len := bits h 64 32
  bits h 0 32 = 0x414B5192 && bits h 32 16 = 1 && bits h 48 16 = 0 && len % 64 = 0 && img.length = len + 384
    && (List.range 8).all (fun k => bits h (128 + 16 * k) 16 ≠ 0 && bits h (128 + 16 * k) 16 * 4096 < len)
    && bits h 256 256 = 0

/-- HBTO as the Lintel uses it, in ns (R61). -/
def hbtoOf (ns : Nat) : Nat := if ns = 0 then 10000000 else max 1000000 (min 100000000 ns)

/-- A privileged register of a supervisor core, by its RISC-V number. -/
def Sv.csr (v : Sv) (n : Nat) : Nat := (tget v.csrs n).elim 0 BitVec.toNat
def Sv.putCsr (v : Sv) (n x : Nat) : Sv := { v with csrs := tset v.csrs n (BitVec.ofNat 64 x) }

/-- A number with `k` bits from `lo` on replaced. -/
def putBits (n lo k x : Nat) : Nat := n - bits n lo k * 2 ^ lo + x % 2 ^ k * 2 ^ lo

/-- A supervisor core takes an exception, as RISC-V has it (PRESUMED, log 67): into S mode where medeleg delegates it and it does not
come from M mode, else into M mode; epc, cause and tval are saved, the status's stack of modes and interrupt enables is pushed, and
the pc goes to the vector. -/
def Sv.trap (v : Sv) (cause val : Nat) : Sv :=
  let st := v.csr 0x300
  if (v.csr 0x302).testBit cause && v.mode ≠ 3 then
    { ((((v.putCsr 0x141 v.pc.toNat).putCsr 0x142 cause).putCsr 0x143 val).putCsr 0x300
        (putBits (putBits (putBits st 8 1 v.mode) 5 1 (bits st 1 1)) 1 1 0)) with
      mode := 1, pc := BitVec.ofNat 64 (v.csr 0x105 / 4 * 4) }
  else
    { ((((v.putCsr 0x341 v.pc.toNat).putCsr 0x342 cause).putCsr 0x343 val).putCsr 0x300
        (putBits (putBits (putBits st 11 2 v.mode) 7 1 (bits st 3 1)) 3 1 0)) with
      mode := 3, pc := BitVec.ofNat 64 (v.csr 0x305 / 4 * 4) }

/-- The access-fault exception of a store to a register of device control space from U mode (R58): cause 7. -/
def Sv.storeFault (v : Sv) (reg : Nat) : Sv := { v.trap 7 reg with accessFault := some reg }

/-- Whether a supervisor core reaches device control space: in M and S mode (R58). -/
def Sv.reaches (v : Sv) : Bool := v.mode == 1 || v.mode == 3

/-- The numbers that stand for the mailbox and heartbeat registers in device control space (DESIGN CHOICE, log 73). -/
def regMailbox : Nat := 0x200
def regBeat : Nat := 0x300

/-- A supervisor released from reset with its image: in M mode at the start of it, its registers 0 (PRESUMED, log 67). -/
def Sv.release (ns : Nat) (v : Sv) : Sv := { image := v.image, mailIrq := v.mailIrq, inReset := false, lastBeat := ns }

/-- The start of a section of an image, in bytes: sections 0 to 6 hold the code of sv1 to sv7, section 7 the configuration (R65). -/
def sectStart (img : List Byte) (k : Nat) : Nat := bits (bytesNat (img.take 64)) (128 + 16 * k) 16 * 4096

/-- The end of a section: the start of the next one, or the end of the image, which the spec leaves open (DESIGN CHOICE, log 67). -/
def sectEnd (img : List Byte) (k : Nat) : Nat :=
  ((List.range 8).map (sectStart img)).foldl (fun e a => if sectStart img k < a then min e a else e) (img.length - 384)

/-- The protected image of a supervisor core: the Lintel's copy of its section. -/
def protectedImage (img : List Byte) (core : Nat) : List Byte :=
  if core = 0 then [] else (img.drop (sectStart img (core - 1))).take (sectEnd img (core - 1) - sectStart img (core - 1))

/-- A limit of the image, where it sets one (R62). -/
def imageLimit (s : State) (img : List Byte) (k : Nat) : State :=
  if Config.imageConfig img (16 + k) = 0 then s
  else { s with devRegs := tset s.devRegs k (BitVec.ofNat 64 (Config.imageConfig img (16 + k))) }

/-- The peers that the 72 scale-up lanes serve, each with its lanes, and the spare lanes (R348). -/
def lanesOfPod (devid pod : Nat) : List (Option Nat) :=
  let n := if pod ≤ 8 then 9 else 4
  let peers := (List.range pod).filter fun d => d ≠ devid
  let direct := peers.flatMap fun d => List.replicate n (some d)
  direct ++ List.replicate (72 - direct.length) none

/-- The lane map of the image (R64, R348): those lanes in the order its numbers from 10,000 on give them. -/
def imageLanes (img : List Byte) (devid pod : Nat) : List (Option Nat) :=
  (sortBy (fun p : Nat × Option Nat => Config.imageConfig img (10000 + p.1)) ((List.range 72).zip (lanesOfPod devid pod))).map Prod.snd

/-- Whether a queue's descriptor is one that can be (R66). -/
def queueOk (qid : Nat) (qbase : Dword) (qsz ctx : Nat) : Bool :=
  qid < 1024 && 4 ≤ qsz && qsz ≤ 16 && qbase.toNat % 128 = 0 && ctx < 512

/-- A queue created with the key of its knock key slot. -/
def newQueue (s : State) (qid : Nat) (qbase : Dword) (qsz ctx slot : Nat) (key : BitVec 128) : State :=
  if queueOk qid qbase qsz ctx then
    { s with
      queues := tset s.queues qid { qbase := qbase, qsz := qsz, ctx := ctx, keySlot := slot }
      queueKeys := tset s.queueKeys slot key }
  else s

/-- The initial queue set of the image: the number of queues and, from number 64 of its configuration on, eight numbers for each
(R64). A queue that the doorbell table holds already stays as it is, with the knocks it has taken (R71, R83). -/
def imageQueues (s : State) (img : List Byte) : State :=
  let c := Config.imageConfig img
  (List.range (c 3 % 1025)).foldl (fun s i =>
    if (tget s.queues (c (64 + 8 * i))).isSome then s else newQueue s (c (64 + 8 * i)) (BitVec.ofNat 64 (c (65 + 8 * i))) (c (66 + 8 * i)) (c (67 + 8 * i)) (c (68 + 8 * i))
      (BitVec.ofNat 128 (c (69 + 8 * i)))) s

/-- The image read and authenticated, and the complex started with its configuration; or no supervisor leaves reset and the boot
status register reports the failure. -/
def bootWith (s : State) (img : List Byte) : State :=
  if headerOk img && Config.signatureOk img then
    let n := timens s
    let pod := 2 + Config.imageConfig img 1 % 15
    let hb := hbtoOf (Config.imageConfig img 2)
    let dev := Config.imageConfig img 0 % pod
    let load (k : Nat) (v : Sv) : Sv := Sv.release n { v with image := protectedImage img k }
    let s := { s with
      booted := true, bootFailed := false, bootStatus := hb, flash := img, podsize := pod, devid := dev, hbtoNs := hb
      iver := bits (bytesNat (img.take 64)) 96 32, laneMap := imageLanes img dev pod
      svs := (List.range s.svs.length).zipWith load s.svs }
    imageQueues ([regLockout, regPull, regFloor, regCeiling, regSlope].foldl (fun s k => imageLimit s img k) s) img
  else
    let hold (v : Sv) : Sv := { v with inReset := true }
    { s with booted := false, bootFailed := true, bootStatus := 1, flash := img, svs := s.svs.map hold }

def execPowerOnBoot (img : List Byte) (s : State) : Result := .next (if s.booted then s else bootWith s img)

/-! ## The Lintel (R61, R83) -/

def Sv.hold (ns : Nat) (v : Sv) : Sv := { v with inReset := true, restart := some ns }

/-- A supervisor declared failed: held in reset and released within 20 ms; with sv0 the whole complex resets. -/
def failSv (s : State) (core : Nat) : State :=
  if core = 0 then s.soon (.complexReset s.flash)
  else
    let d := Config.delay s.fresh % 25000001
    ((s.modSv core (Sv.hold (timens s))).used).later d (.supervisorRelease core)

/-- A heartbeat period without a write. -/
def execHeartbeatTimeout (core : Nat) (s : State) : Result :=
  .next (if s.svUp core && (s.sv core).lastBeat + s.hbtoNs < timens s then failSv s core else s)

/-- The heartbeat register written, from M or S mode (R58, R61). -/
def execHeartbeatWrite (core : Nat) (s : State) : Result :=
  let beat (v : Sv) : Sv := if v.reaches then { v with lastBeat := timens s } else v.storeFault (regBeat + core)
  .next (if s.svUp core then s.modSv core beat else s)

/-- A fatal machine condition, or a trap inside an active M-mode handler. -/
def execSupervisorFatal (core : Nat) (s : State) : Result := .next (if s.svUp core && core < 8 then failSv s core else s)

/-- A supervisor released with its protected image; sv0 has authenticated the image again. -/
def execSupervisorRelease (core : Nat) (s : State) : Result :=
  if core = 0 then .next (if s.booted || (s.sv 0).restart.isNone then s else bootWith s s.flash)
  else
    let up (s : State) : State := s.modSv core (Sv.release (timens s))
    .next (if s.booted && (s.sv core).restart.isSome then (if core = 3 then retryCellar (up s) else up s) else s)

/-- The whole complex reset: every supervisor in reset until the image is authenticated again. The queues' doorbells, HBM and the
lockouts stay as they are. -/
def execComplexReset (img : List Byte) (s : State) : Result :=
  let s := { s with booted := false, flash := img, svs := s.svs.map (Sv.hold (timens s)) }
  .next ((s.later 1250000000 .bootTimeoutPark).laterFree 1 (.supervisorRelease 0))

/-- The complex has not finished booting 1 s after its reset: each core parks. -/
def execBootTimeoutPark (s : State) : Result :=
  if s.booted || !((s.sv 0).restart.any fun t => t + 1000000000 ≤ timens s) then .next s
  else
    let park (l : Launch) : Launch := { l with parked := l.phase = .placing }
    .next { s with parkedDev := true, launches := s.launches.map fun e => (e.1, park e.2) }

/-- sv2 resumes the parked launches; those it cannot resume end with STATUS 6. -/
def execParkedLaunchResume (lost : List Nat) (s : State) : Result :=
  if !s.svUp 2 || !s.parkedDev then .next s
  else
    let s := lost.foldl (fun s lid => if (s.launch? lid).any Launch.parked then endLaunch s lid 6 0 else s) s
    let go (l : Launch) : Launch := { l with parked := false }
    .next { s with parkedDev := false, launches := s.launches.map fun e => (e.1, go e.2) }

/-! ## Mailboxes and control space (R58 to R60) -/

def mbKey (core mb : Nat) : Nat := 16 * core + mb

/-- A message with SRC written by the hardware, and the reserved bits of its header 0, whatever is written there (R9; DESIGN CHOICE,
log 69). -/
def stamped (src : Nat) (msg : BitVec 512) : BitVec 512 := (msg &&& ~~~(0xFFC000FF : BitVec 512)) ||| BitVec.ofNat 512 (src % 8)

/-- Whether an event of a kind is still to come in this clock cycle. -/
def stillToCome (s : State) (p : Instr → Bool) : Bool := s.agenda.any p || s.inputs.any fun e => e.due ≤ s.base && p e.ev

/-- An event put after those of a kind that are still to come in this clock cycle. -/
def afterThose (s : State) (p : Instr → Bool) (i : Instr) : State :=
  if s.agenda.any p then { s with agenda := s.agenda ++ [i] } else { s with inputs := s.inputs ++ [⟨s.base, i⟩] }

/-- A lower-numbered sender's store to the same mailbox. -/
def lowerSender (src dst mb : Nat) (i : Instr) : Bool :=
  match i with
  | .mailboxStore k d m _ => k < src && d = dst && m = mb
  | _ => false

def setBusy (s : State) (src : Nat) (b : Bool) : State := { s with busy := lmod s.busy src fun _ => b }

/-- A 64-byte store to a mailbox, from M or S mode (R58). A sender's BUSY stands until a store of its own is accepted, at whichever
mailbox, which the spec leaves open (DESIGN CHOICE, log 69). -/
def execMailboxStore (src dst mb : Nat) (msg : BitVec 512) (s : State) : Result :=
  if 8 ≤ src || 8 ≤ dst || 16 ≤ mb then .next s
  else if !(s.sv src).reaches then .next (s.modSv src fun v => v.storeFault (regMailbox + mbKey dst mb))
  else if stillToCome s (lowerSender src dst mb) then .next (afterThose s (lowerSender src dst mb) (.mailboxStore src dst mb msg))
  else if ((tget s.mailboxes (mbKey dst mb)).getD {}).full then .next (setBusy s src true)
  else
    let irq (v : Sv) : Sv := { v with mailIrq := true }
    .next ((setBusy { s with mailboxes := tset s.mailboxes (mbKey dst mb) ⟨true, stamped src msg⟩ } src false).modSv dst irq)

/-- The receiver writes 1 to a mailbox's ACK bit, from M or S mode (R58); its interrupt lasts while another of its mailboxes is full, which the spec leaves
open (DESIGN CHOICE, log 69). -/
def execMailboxAck (core mb : Nat) (s : State) : Result :=
  let clear (m : Mailbox) : Mailbox := { m with full := false }
  let s' := { s with mailboxes := tmod s.mailboxes (mbKey core mb) clear }
  let irq (v : Sv) : Sv := { v with mailIrq := v.mailIrq && s'.mailboxes.any fun e => e.1 / 16 = core && e.2.full }
  .next (if (s.sv core).reaches then s'.modSv core irq else s.modSv core fun v => v.storeFault (regMailbox + mbKey core mb))

/-- One half of a 128-bit key written: half 0 is the lower one. -/
def setHalf (k : BitVec 128) (half : Nat) (v : Dword) : BitVec 128 :=
  BitVec.ofNat 128 (if half = 0 then k.toNat / 2 ^ 64 * 2 ^ 64 + v.toNat else k.toNat % 2 ^ 64 + v.toNat * 2 ^ 64)

/-- The half of the key at a place of a key table written. -/
def keyHalf (t : Tbl (BitVec 128)) (n : Nat) (v : Dword) : Tbl (BitVec 128) := tset t (n / 2) (setHalf ((tget t (n / 2)).getD 0) (n % 2) v)

/-- The peer slots, the completion knock keys, the knock keys of contexts and the TRHAND of stopped warps in device control space,
whose numbers there the spec does not give (DESIGN CHOICE, log 73). -/
def regPeer : Nat := 0x100
def regCqKeys : Nat := 2 ^ 20
def regKnockKeys : Nat := 2 ^ 26
def regTrhand : Nat := 2 ^ 40

/-- Of each queue the registers QBASE, QSZ, CTX and knock key slot, and of each work-queue unit the launch and context it is bound to,
by their model's numbers (DESIGN CHOICE, log 73). -/
def regUnits : Nat := 0x400
def regQueues : Nat := 0x10000

/-- A queue with one of its registers written; a value that R66 does not allow is not taken. -/
def Queue.put (q : Queue) (qid k : Nat) (v : Dword) : Queue :=
  let q' : Queue := if k = 0 then { q with qbase := v } else if k = 1 then { q with qsz := v.toNat }
    else if k = 2 then { q with ctx := v.toNat } else { q with keySlot := v.toNat }
  if queueOk qid q'.qbase q'.qsz q'.ctx then q' else q

/-- The binding of a work-queue unit written: launch in the low half, context in the upper one; all ones unbinds it. -/
def WqUnit.put (u : WqUnit) (v : Dword) : WqUnit :=
  if v.toNat = 2 ^ 64 - 1 then {} else { u with owner := some (v.toNat % 2 ^ 32, v.toNat / 2 ^ 32 % 512) }

/-- A register of device control space written: queues, work-queue units, sv5's peer slots 16 to 63 (R347) and keys (R80, R402), TRHAND of a warp stopped at
sv4 (R407), and every other one. -/
def putReg (s : State) (reg : Nat) (v : Dword) : State :=
  let hand (w : Warp) : Warp := if w.stopped then { w with csr := { w.csr with trhand := v } } else w
  if regTrhand ≤ reg then s.modWarp (reg - regTrhand) hand
  else if regKnockKeys ≤ reg && reg < 2 * regKnockKeys then { s with knockKeys := keyHalf s.knockKeys (reg - regKnockKeys) v }
  else if regCqKeys ≤ reg && reg < regCqKeys + 2 ^ 17 then { s with cqKeys := keyHalf s.cqKeys (reg - regCqKeys) v }
  else if regPeer + 16 ≤ reg && reg < regPeer + 64 then { s with peerTable := tset s.peerTable (reg - regPeer) v.toNat }
  else if regQueues ≤ reg && reg < regQueues + 4096 then
    { s with queues := tmod s.queues ((reg - regQueues) / 4) fun q => q.put ((reg - regQueues) / 4) ((reg - regQueues) % 4) v }
  else if regUnits ≤ reg && reg < regUnits + 128 then { s with wqUnits := lmod s.wqUnits (reg - regUnits) fun u => u.put v }
  else { s with devRegs := tset s.devRegs reg v }

/-- A supervisor core that runs writes a register of device control space in its mode: done in M (3) and S (1) mode, the access-fault
exception on that core in U mode (R58). -/
def execControlRegisterWrite (by' : Nat × Nat) (reg : Nat) (v : Dword) (s : State) : Result :=
  let core := by'.1
  let mode := by'.2
  let at' (c : Sv) : Sv := { c with mode := mode }
  let fault (c : Sv) : Sv := (at' c).storeFault reg
  .next (if !s.svUp core then s else if mode = 1 || mode = 3 then (putReg s reg v).modSv core at' else s.modSv core fault)

/-! ## Contexts and queues (R66, R77) -/

/-- The policy of a context: TRDEL with 10 wherever it leaves a field open. -/
def policyTrdel (n : Nat) : Dword := trdelWrite true 0 (BitVec.ofNat 64 n)

/-- A context enabled, once sv3 runs (R83): its page-table root, TRDEL and SYSHAND are firmware's choice (log 15). -/
def execContextEnable (ctx : Nat) (s : State) : Result :=
  let p (k : Nat) : Nat := Config.firmwarePolicy (s.fresh + k)
  let new : Ctx := { enabled := true, root := p 0 % 0xC000000 * 4096, trdel := policyTrdel (p 1), syshand := BitVec.ofNat 64 (p 2) }
  let on (c : Ctx) : Ctx := { c with enabled := true }
  if 512 ≤ ctx then .next s
  else if !s.svUp 3 then .next (s.later 1250 (.contextEnable ctx))
  else match tget s.contexts ctx with
    | some c => .next { s with contexts := tset s.contexts ctx (on c) }
    | none => .next { s with contexts := tset s.contexts ctx new, fresh := s.fresh + 3 }

/-- A context disabled by sv3, which runs (R83). -/
def execContextDisable (ctx : Nat) (s : State) : Result :=
  let off (c : Ctx) : Ctx := { c with enabled := false }
  .next (if s.svUp 3 then { s with contexts := tmod s.contexts ctx off } else s)

/-- A queue that an owning context asks for, created once sv1 runs (R66, R83). -/
def execQueueCreate (qid : Nat) (qbase : Dword) (qsz ctx slot : Nat) (key : BitVec 128) (s : State) : Result :=
  .next (if s.svUp 1 then newQueue s qid qbase qsz ctx slot key else s.later 1250 (.queueCreate qid qbase qsz ctx slot key))

def State.modQueue (s : State) (qid : Nat) (f : Queue → Queue) : State := { s with queues := tmod s.queues qid f }

/-! ## Knocks (R68 to R71) -/

def knockQid (bits' : BitVec 128) : Nat := bits bits'.toNat 32 10

/-- The REASON for which a knock is rejected, if it is. -/
def knockCheck (s : State) (src : Nat) (b : BitVec 128) : Option Nat :=
  let n := b.toNat
  if s.lockouts.contains src then some 6
  else match tget s.queues (knockQid b) with
    | none => some 1
    | some q =>
      if bits n 42 6 ≠ 0 || bits n 61 35 ≠ 0 then some 2
      else if bits n 96 32 ≠ knockMac ((tget s.queueKeys q.keySlot).getD 0) n src then some 2
      else if !unexpired s (bits n 48 13) then some 3
      else none

/-- The effect of an accepted knock (R70). -/
def applyKnock (s : State) (src qid tail : Nat) (q : Queue) : State :=
  let d := (tail + 2 ^ 32 - q.head) % 2 ^ 32
  let cur := (q.tail + 2 ^ 32 - q.head) % 2 ^ 32
  let stale (q : Queue) : Queue := { q with stale := q.stale + 1 }
  let put (q : Queue) : Queue := { q with tail := tail }
  if d ≤ cur then s.modQueue qid stale
  else if d ≤ 2 ^ q.qsz then (s.modQueue qid put).later 1 (.parserLookaheadRead qid)
  else s.event (.overrun qid src)

/-- The kernel's knock that arrives under a port of this device itself, told of the outcome (R402). -/
def answerKnock (s : State) (src port : Nat) (reason : Option Nat) : State :=
  if port < 1024 then s
  else match tget s.ops (port - 1024) with
    | some o => knockDone s o src reason
    | none => s

/-- A knock to the same queue under a lower port. -/
def lowerPort (qid port : Nat) (i : Instr) : Bool :=
  match i with
  | .knockArrival _ p b => p < port && knockQid b = qid
  | _ => false

/-- A knock at the doorbell; sv1 need not run (R71). -/
def execKnockArrival (src port : Nat) (b : BitVec 128) (s : State) : Result :=
  if s.bootFailed && src ≠ s.devid then .next s
  else if stillToCome s (lowerPort (knockQid b) port) then .next (afterThose s (lowerPort (knockQid b) port) (.knockArrival src port b))
  else match knockCheck s src b with
    | some reason =>
      .next (answerKnock (if reason = 6 then s else countRejection s src) src port (some reason))
    | none =>
      match tget s.queues (knockQid b) with
      | some q => .next (answerKnock (applyKnock s src (knockQid b) (bits b.toNat 0 32) q) src port none)
      | none => .next s

/-! ## The parser (R72 to R75) -/

/-- The slot of a packet index. -/
def Queue.slotAt (q : Queue) (i : Nat) : Nat := q.qbase.toNat + i % 2 ^ q.qsz * 128

/-- What a read of a slot leads to: the packet there, a wait for sv3, or nothing where its address cannot be read. -/
inductive SlotRead where
  | packet (s : State) (p : Packet)
  | wait (s : State)
  | failed (s : State)

/-- A slot read through the translations of the queue's context (R66, R268), as supervisor work (R441). -/
def readSlot (s : State) (q : Queue) (i : Nat) : SlotRead :=
  match homeX s q.ctx (q.slotAt i) .r with
  | .defer => .wait (deferFor s q.ctx (q.slotAt i) .r)
  | .bad => .failed (usedAnswers s q.ctx [q.slotAt i])
  | .ok l =>
    let pa := l.phys (q.slotAt i)
    let s := homeLine s (pa / 128) l.enc l.keyid ⟨devCtx, 2 ^ 23⟩ (l.ca = 1)
    .packet (countRead s (pa / 128)).used (BitVec.ofNat 1024 (readBytes s none (pa / 128) true 0 128))

def Packet.pseq (p : Packet) : Nat := Packet.fld p 32 32

/-- The index the parser reads next. -/
def Queue.nextIndex (q : Queue) : Nat := (q.head + q.held.length) % 2 ^ 32

/-- Whether the parser may read ahead: at most 16 packets, and never past TAIL. -/
def Queue.mayRead (q : Queue) : Bool := q.held.length < 16 && q.held.length < (q.tail + 2 ^ 32 - q.head) % 2 ^ 32

/-- A slot that was not read: read again after 1 µs (R72). -/
def rereadLater (s : State) (qid : Nat) (q : Queue) : State :=
  s.later 1250 (if q.mismatch.isSome then .parserSlotReread qid else .parserLookaheadRead qid)

/-- What a read of the slot of index `i` leads to: the packet held, or a mismatch that is read again after 1 µs. -/
def takeSlot (s : State) (qid i : Nat) (since : Nat) (q : Queue) : State :=
  let wait (q : Queue) : Queue := { q with mismatch := some (i, since) }
  match readSlot s q i with
  | .packet s p =>
    let keep (q : Queue) : Queue := { q with held := q.held ++ [(i, p)], mismatch := none, stalled := false }
    if p.pseq = i then ((s.modQueue qid keep).later 1 (.parserLookaheadRead qid)).later 1 (.packetIssue qid)
    else (s.modQueue qid wait).later 1250 (.parserSlotReread qid)
  | .failed s => (s.modQueue qid wait).later 1250 (.parserSlotReread qid)
  | .wait s => rereadLater s qid q

def execParserLookaheadRead (qid : Nat) (s : State) : Result :=
  match tget s.queues qid with
  | none => .next s
  | some q =>
    if !q.mayRead || q.mismatch.isSome then .next s
    else if !s.svUp 1 then .next (s.later 1250 (.parserLookaheadRead qid))
    else .next (takeSlot s qid q.nextIndex (timens s) q)

/-- A slot read again each 1 µs while its PSEQ does not match. -/
def execParserSlotReread (qid : Nat) (s : State) : Result :=
  match tget s.queues qid with
  | none => .next s
  | some q =>
    match q.mismatch with
    | none => .next s
    | some (i, since) =>
      if !s.svUp 1 then .next (s.later 1250 (.parserSlotReread qid))
      else
        let s := if since + 1000000 ≤ timens s && !q.stalled then s.soon (.stalledQueueEvent qid) else s
        .next (takeSlot s qid i since q)

/-- sv4 learns of a slot that has mismatched for 1 ms. -/
def execStalledQueueEvent (qid : Nat) (s : State) : Result :=
  match tget s.queues qid with
  | none => .next s
  | some q =>
    let mark (q : Queue) : Queue := { q with stalled := true }
    .next (if q.mismatch.isSome && !q.stalled then (s.event (.stalledQueue qid)).modQueue qid mark else s)

/-! ## Validation (R76, R77, R93) -/

/-- The lowest bit set among reserved bits `lo` to `lo + n − 1`. -/
def reservedBits (p : Packet) (lo n : Nat) : List Nat := ((List.range n).map (lo + ·)).filter fun k => p.getLsbD k

/-- A field's bit when it breaks its required value. -/
def badField (bit : Nat) (bad : Bool) : List Nat := if bad then [bit] else []

/-- The bits at which a LAUNCH packet breaks a required value. -/
def packetFaults (p : Packet) : List Nat :=
  let f (lo n : Nat) : Nat := Packet.fld p lo n
  badField 10 (f 10 2 = 3) ++ reservedBits p 12 4 ++ reservedBits p 24 8 ++ badField 64 (f 64 6 ≠ 0)
    ++ badField 128 (f 128 6 ≠ 0) ++ reservedBits p 201 55 ++ badField 256 (f 256 31 = 0) ++ reservedBits p 287 1
    ++ badField 288 (f 288 31 = 0) ++ reservedBits p 319 1 ++ badField 320 (f 320 31 = 0) ++ reservedBits p 351 1
    ++ badField 352 (f 352 6 = 0 || 32 < f 352 6) ++ badField 358 (f 358 5 = 0 || 24 < f 358 5)
    ++ badField 363 (16 < f 363 5 || f 352 6 < 2 * f 363 5) ++ badField 368 (16 < f 368 5)
    ++ badField 373 ((if p.getLsbD 9 then 768 else 384) < f 373 11) ++ badField 384 (f 384 16 ≠ 0 && f 384 16 < 50)
    ++ reservedBits p 413 3 ++ reservedBits p 464 16 ++ badField 480 (f 480 5 ≠ 0) ++ badField 608 (15 < f 608 6)
    ++ badField 656 (8 < f 656 4) ++ reservedBits p 660 364

/-- The rows of scratchpad a team takes on each of its cores (R90, R91). -/
def Launch.rows (l : Launch) : Nat :=
  if l.paired then (l.scratchK * 512 + 1535) / 1536 else (l.scratchK * 1024 + 1535) / 1536

/-- Which core of a couple runs a warp: 1 for the odd one (R91). -/
def Launch.side (l : Launch) (w : Nat) : Nat := if l.paired then w / 2 % 2 else 0

/-- The warps of a team on one core. -/
def Launch.warpsOn (l : Launch) (side : Nat) : List Nat := (List.range l.warps).filter fun w => l.side w = side

/-- The capacity of a core for warps of a launch (R93). -/
def Launch.capacity (l : Launch) : Nat := 4 * min 16 (64 / l.width * (32 / l.regblk))

/-- Whether a team fits on an empty core or couple (R93). -/
def Launch.fits (l : Launch) : Bool :=
  (List.range (if l.paired then 2 else 1)).all (fun k => (l.warpsOn k).length ≤ l.capacity) && l.rows ≤ 256

/-- STATUS and DETAIL of a packet that fails a check; none for one that passes. -/
def validate (s : State) (l : Launch) (owner : Nat) : Option (Nat × Nat) :=
  match packetFaults l.packet with
  | b :: bs => some (1, bs.foldl min b)
  | [] => if l.ctx ≠ owner || !(s.ctx l.ctx).enabled then some (3, 0) else if !l.fits then some (2, 0) else none

/-- A LAUNCH handed to sv2: validated, and rejected with its record and knock or held for placement. -/
def launchPacket (s : State) (qid : Nat) (q : Queue) (p : Packet) : State :=
  let l : Launch := { lid := s.nextId, packet := p, qid := qid, pseq := p.pseq, tstart := timens s }
  let s := s.bump
  match validate s l q.ctx with
  | some (status, detail) => (s.putLaunch { l with phase := .retiring, fatal := some (status, detail) }).later 0 (.launchRetirement l.lid)
  | none => (s.putLaunch l).later 1 (.wqUnitBind l.lid)

/-! ## Issue of a packet (R73 to R75) -/

/-- The packet issued from the copy held and the slot as it is now: the new copy when the header differs, and otherwise, for each
16-byte unit of the body, the one or the other. -/
def issueCopy (s : State) (held now : Packet) : Packet :=
  if Packet.fld held 0 256 ≠ Packet.fld now 0 256 then now
  else
    let unit (k : Nat) : Nat :=
      Packet.fld (if k < 2 || Config.delay (s.fresh + k) % 2 = 0 then held else now) (128 * k) 128 * 2 ^ (128 * k)
    BitVec.ofNat 1024 ((List.range 8).foldl (fun a k => a + unit k) 0)

/-- Whether an earlier packet of a queue has not completed: its record is not written (R74, R439). -/
def earlierRuns (s : State) (qid : Nat) : Bool :=
  s.launches.any fun e => e.2.qid = qid && e.2.phase ≠ .done && e.2.phase ≠ .recorded

/-- A packet consumed: a LAUNCH goes to sv2, a NOP does nothing, a reserved TYPE is told to sv4. -/
def consume (s : State) (qid : Nat) (q : Queue) (p : Packet) : State :=
  let on (q : Queue) : Queue := { q with head := (q.head + 1) % 2 ^ 32, held := q.held.drop 1 }
  let s := (s.modQueue qid on).later 1 (.parserLookaheadRead qid)
  let t := Packet.fld p 0 8
  let s := if t = 1 then launchPacket s qid q p else if t = 2 then s else s.event (.reservedType qid p.pseq)
  s.later 1 (.packetIssue qid)

/-- The next packet of a queue issued, once it is held, sv2 can take it, and, for SERIAL, every earlier one has completed. A header
read again whose PSEQ is not the index is not yet written: what is held is given up and R72's wait begins, which the spec leaves open
(DESIGN CHOICE, log 74). -/
def execPacketIssue (qid : Nat) (s : State) : Result :=
  match tget s.queues qid with
  | none => .next s
  | some q =>
    match q.held with
    | [] => .next s
    | (i, p) :: _ =>
      if !s.svUp 1 || !s.svUp 2 then .next (s.later 1250 (.packetIssue qid))
      else if p.getLsbD 8 && earlierRuns s qid then .next (s.later 1 (.packetIssue qid))
      else match readSlot s q i with
        | .failed s' | .wait s' => .next (s'.later 1250 (.packetIssue qid))
        | .packet s' now =>
          let p' := issueCopy s' p now
          let drop (q : Queue) : Queue := { q with held := q.held.take 0 }
          let s'' := { s' with fresh := s'.fresh + 8 }
          if p'.pseq ≠ i then .next (takeSlot (s''.modQueue qid drop) qid i (timens s) q)
          else if p'.getLsbD 8 && earlierRuns s qid then .next (s''.later 1 (.packetIssue qid))
          else .next (consume s'' qid q p')

end Sys2Proof.Machine
end

