-- ==== Sys2Proof/Machine/Place.lean ====
section
/-! DEFINITION. Placement (R78, R81, R87 to R95, R432, R433), pre-emption and the Closet (R420 to R423), and cores that freeze (R100,
R101, R424, R425). -/

namespace Sys2Proof.Machine

/-! ## Work-queue units (R81) -/

/-- The free units of a die, by device-wide number. -/
def freeUnits (s : State) (die : Nat) : List Nat :=
  ((List.range 64).map (64 * die + ·)).filter fun n => (s.wqUnits.getD n {}).owner.isNone

/-- Units bound to a launch. -/
def bindUnits (s : State) (l : Launch) (ns : List Nat) : State :=
  let own (_ : WqUnit) : WqUnit := { owner := some (l.lid, l.ctx) }
  let s := ns.foldl (fun s n => { s with wqUnits := lmod s.wqUnits n own }) s
  s.putLaunch { l with units := ns, phase := .placing }

/-- NWQ free units of one die bound to a launch, which waits while neither has them; its first team is placed on that die. Which die,
where both have them, is firmware's choice (log 15), and its lowest free units are bound, which the spec leaves open too (DESIGN CHOICE,
log 15). -/
def execWqUnitBind (lid : Nat) (s : State) : Result :=
  match s.launch? lid with
  | none => .next s
  | some l =>
    if l.phase ≠ .queued then .next s
    else if !s.svUp 2 then .next (s.later 1250 (.wqUnitBind lid))
    else
      let first := Config.firmwarePolicy s.fresh % 2
      let has (d : Nat) : Bool := l.nwq ≤ (freeUnits s d).length
      match [first, 1 - first].find? has with
      | some d => .next (bindUnits s.used l ((freeUnits s d).take l.nwq))
      | none => .next s

/-! ## Resources of a core (R88 to R93) -/

/-- The warps that hold a place in a room. -/
def placedWarps (s : State) (core room : Nat) : List Warp :=
  (s.warps.filter fun e => e.2.core = core && e.2.room = room && !e.2.ended && (match teamOf s e.2 with
    | some t => t.place != .saved
    | none => false)).map Prod.snd

/-- The slices of a warp of a width at a base. -/
def sliceSpan (base width : Nat) : List Nat := (List.range (width / 4)).map (base + ·)

/-- The register blocks in use on a slice. -/
def blocksOn (ws : List Warp) (slice : Nat) : Nat :=
  ws.foldl (fun n w => if (sliceSpan w.base w.width).contains slice then n + w.nreg / 32 else n) 0

/-- Whether a warp fits at a place: base aligned, blocks left on its slices, at most 16 warps, islands of its context alone. -/
def spotFree (s : State) (ws : List Warp) (ctx width nreg base : Nat) : Bool :=
  base % (width / 4) = 0 && base + width / 4 ≤ 16 && ws.length < 16
    && (sliceSpan base width).all (fun k => blocksOn ws k + nreg / 32 ≤ 32)
    && ws.all fun w => ctxOf s w = ctx || !((sliceSpan w.base w.width).any fun k => (sliceSpan base width).any fun j => j / 4 = k / 4)

/-- The teams that hold resources of a core. -/
def teamsOn (s : State) (core : Nat) : List Team :=
  (s.teams.filter fun e => e.2.place != .saved && e.2.cores.contains core).map Prod.snd

/-- The first row of a team's allocation on a core. -/
def Team.rowOn (t : Team) (core : Nat) : Nat := if core = t.core then t.row0 else t.row1

/-- Whether rows from `a` on lie free of every team of a core. -/
def rowsFree (s : State) (core n a : Nat) : Bool :=
  a + n ≤ 256 && (teamsOn s core).all fun t => a + n ≤ t.rowOn core || t.rowOn core + t.rows ≤ a

/-- The lowest place for contiguous rows on a core: row 0, or the row after an allocation (R90). Which free rows a team gets is not in
the spec (DESIGN CHOICE, log 58). -/
def freeRow (s : State) (core n : Nat) : Option Nat :=
  (0 :: (sortBy id ((teamsOn s core).map fun t => t.rowOn core + t.rows))).find? (rowsFree s core n)

/-- The packet of a team. -/
def launchT (s : State) (t : Team) : Launch := (s.launch? t.launch).getD Launch.none

/-- The hatch channels a launch takes on one core of a team (R92). -/
def Launch.channels (l : Launch) (side : Nat) : Nat :=
  if l.paired then ((List.range l.hpairs).filter fun i => i % 2 = side).length else l.hpairs

/-- Whether a core has rows, barrier units and hatch channels left for a team. -/
def coreRoom (s : State) (l : Launch) (core side : Nat) : Bool :=
  let ts := teamsOn s core
  let sum (f : Team → Nat) : Nat := ts.foldl (fun n t => n + f t) 0
  (freeRow s core l.rows).isSome && (sum fun t => (launchT s t).nbar) + l.nbar ≤ 32
    && (sum fun t => (launchT s t).channels (if t.paired && core ≠ t.core then 1 else 0)) + l.channels side ≤ 16
    && ts.length < 64 && !(s.core core).frozen && !(s.core core).out

/-- Whether places suit the warps of a team, one after another: each is a room and a slice base. -/
def spotsFit (s : State) (l : Launch) (core : Nat) : List (Nat × (Nat × Nat)) → List Warp → Bool
  | [], _ => true
  | (w, room, base) :: rest, put =>
    let c := core + l.side w
    let ws := placedWarps s c room ++ put.filter fun v => v.core = c && v.room = room
    let v : Warp := { wid := 0, team := 2 ^ 64, w := w, core := c, room := room, base := base, width := l.width, nreg := 32 * l.regblk,
                      slices := [], csr := {}, csrSeen := {}, hooks := [] }
    room < 4 && spotFree s ws l.ctx l.width (32 * l.regblk) base && spotsFit s l core rest (v :: put)

/-- Whether a team can be placed on a core or couple with the places given (R93). -/
def canPlace (s : State) (l : Launch) (core : Nat) (spots : List (Nat × Nat)) : Bool :=
  spots.length = l.warps && core + (if l.paired then 1 else 0) < 192 && (!l.paired || core % 2 = 0)
    && coreRoom s l core 0 && (!l.paired || coreRoom s l (core + 1) 1)
    && spotsFit s l core ((List.range l.warps).zip spots) []

/-! ## TEAM_PLACEMENT (R78, R94) -/

/-- WQBIND of a launch (R417). -/
def wqbindOf (units : List Nat) : Dword :=
  BitVec.ofNat 64 ((List.range 8).foldl (fun a i => a + (units.getD i 255) * 256 ^ i) 0)

/-- The control registers of a warp at placement (R78, R417). -/
def csrsAt (l : Launch) (c : Ctx) : Csrs :=
  let seed : Csrs := { wqbind := wqbindOf l.units, trdel := policyTrdel c.trdel.toNat, syshand := c.syshand }
  let s1 := seed.set .fpte (BitVec.ofNat 64 (Packet.fld l.packet 408 5))
  let s2 := s1.set .sigthr (BitVec.ofNat 64 (Packet.fld l.packet 402 6))
  s2.set .shbase (BitVec.ofNat 64 (Packet.fld l.packet 416 48 * 65536))

/-- A slice at placement (R170). -/
def Slice.start (code : Dword) : Slice := { cur := { pc := code, mask := 0xF, tchk := true, tsrc := 0 } }

/-- A warp at placement (R78, R151, R170): every register undefined with the tag 63; its first clock cycle is tick 0. -/
def startWarp (s : State) (l : Launch) (wid tid core w : Nat) (spot : Nat × Nat) : Warp :=
  let c := csrsAt l (s.ctx l.ctx)
  { wid := wid, team := tid, w := w, core := core + l.side w, room := spot.1, base := spot.2, width := l.width,
    nreg := 32 * l.regblk, slices := List.replicate (l.width / 4) (Slice.start l.code), csr := c, csrSeen := c,
    hooks := List.replicate 16 {}, lastIss := s.base, freezes := [⟨12, .timed 0 true⟩] }

/-- The rows of a team on a core, and on the next one where it is paired. -/
def Team.putRows (t : Team) (s : State) (core : Nat) : Team :=
  { t with
    row0 := (freeRow s core t.rows).getD 0
    row1 := if t.paired then (freeRow s (core + 1) t.rows).getD 0 else 0 }

/-- The team of a launch's next linear number, placed (R84, R90, R243). -/
def startTeam (s : State) (l : Launch) (core : Nat) : Team :=
  let t : Team := { tid := s.nextId, launch := l.lid, lin := l.next, core := core, paired := l.paired, rows := l.rows,
                    barriers := List.replicate 16 {}, live := l.warps }
  t.putRows s core

/-- Whether a pre-emption keeps a context's teams unplaced: one that has teams halting or saved (R420). -/
def ctxPreempted (s : State) (ctx : Nat) : Bool :=
  s.preempts.any fun p => p.1 = ctx && s.teams.any fun e => e.2.place != .resident && (launchT s e.2).ctx = ctx

/-- Islands at retention voltage under newly placed warps brought back: the warps do not count until they are, at most 400 ns on, which
the spec leaves open (DESIGN CHOICE, log 76). -/
def wakePlaced (s : State) (ws : List Warp) : State :=
  ws.foldl (fun s w =>
    let til (v : Warp) : Warp := { v with wakeNs := warpWake s w }
    (wakeIslands s w.core w.room w.islands).modWarp w.wid til) s

/-- A pre-emption request that is armed on a core takes the launch placed there (R423). -/
def takeArmed (s : State) (tid ctx : Nat) (cores : List Nat) : State :=
  match s.preempts.find? fun p => p.2.any cores.contains && !(ctxPreempted s p.1) with
  | none => s
  | some p =>
    let stop (t : Team) : Team := { t with place := .halting }
    { s with preempts := (ctx, p.2) :: s.preempts.filter fun q => q != p }.modTeam tid stop

/-- The next team of a launch placed whole where sv2 puts it (R94, R95). -/
def execTeamPlacement (lid core : Nat) (spots : List (Nat × Nat)) (s : State) : Result :=
  match s.launch? lid with
  | none => .next s
  | some l =>
    if !s.svUp 2 || l.phase ≠ .placing || l.grid ≤ l.next || ctxPreempted s l.ctx || s.parkedDev || !canPlace s l core spots
        || (l.next = 0 && l.units.any fun n => n / 64 ≠ dieOf core) then .next s
    else
      let tid := s.nextId
      let t := startTeam s l core
      let ws := ((List.range l.warps).zip spots).map fun p => startWarp s l (tid + 1 + p.1) tid core p.1 p.2
      let s := (ws.foldl State.putWarp (s.putTeam t)).putLaunch { l with next := l.next + 1 }
      let s := { s with nextId := tid + 1 + l.warps }
      .next (takeArmed ((wakePlaced s ws).laterFree 0 (.teamAdmission tid)) tid l.ctx t.cores)

def execFillerEnd (core : Nat) (s : State) : Result := .next (endFiller s core)

/-- A placed team admitted, once the slope of the package current lets it rise: this is its tick 0, and filler on its cores stops (R432,
R433). Wakes of islands and exits from NT have headroom of their own, and wait for nothing. -/
def execTeamAdmission (tid : Nat) (s : State) : Result :=
  match s.team? tid with
  | none => .next s
  | some t =>
    if t.admitted then .next s
    else if timens s < s.slopeUp then .next (s.later (baseAt s.slopeUp - s.base) (.teamAdmission tid))
    else
      let s := t.cores.foldl endFiller s
      .next ({ s with slopeUp := timens s + slopeTime s, fresh := s.fresh + 1 }.putTeam { t with admitted := true })

/-! ## Pre-emption (R420 to R423) -/

/-- The teams of a context on a set of cores. -/
def ctxTeamsOn (s : State) (ctx : Nat) (cores : List Nat) : List Team :=
  (s.teams.filter fun e => (launchT s e.2).ctx = ctx && e.2.place = .resident && e.2.cores.any cores.contains).map Prod.snd

/-- Teams whose warps stop issuing at their next bundle boundary. -/
def haltTeams (s : State) (ts : List Team) : State :=
  ts.foldl (fun s t => s.modTeam t.tid fun t => { t with place := .halting }) s

/-- sv2 pre-empts a context on a partition; with no team of it there the request stays armed. -/
def execPreemptRequest (ctx : Nat) (cores : List Nat) (s : State) : Result :=
  let on (c : Ctx) : Ctx := { c with preempted := true }
  let s' := { s with preempts := s.preempts ++ [(ctx, cores)], contexts := tmod s.contexts ctx on }
  .next (if s.svUp 2 then haltTeams s' (ctxTeamsOn s ctx cores) else s)

/-- The pre-emption of a context lifted by sv2, which runs (R83). -/
def execPreemptWithdraw (ctx : Nat) (s : State) : Result :=
  let off (c : Ctx) : Ctx := { c with preempted := false }
  .next (if s.svUp 2 then { s with preempts := s.preempts.filter fun p => p.1 ≠ ctx, contexts := tmod s.contexts ctx off }
    else s)

/-- Whether a warp has drained (R409 steps 1 to 4): its scratchpad accesses performed, and no trap on its way in. -/
def Warp.drained (w : Warp) : Bool := w.scr.isEmpty && !w.entering

/-- Whether an island of a core still recovers: the core does not count as halted then (R435). -/
def coreRecovers (s : State) (core : Nat) : Bool := (s.core core).islands.any fun i => timens s < i.recoverNs

/-- Whether a matrix operation has begun and not finished, loads apart, which finish against the saved image (R344). -/
def OpKind.midway : OpKind → Bool
  | .matrix m => (m.begun.isSome || m.performed) && !m.finished && m.copy.isNone
  | .mem _ | .fence _ _ | .wqdeq _ _ | .sysc _ _ _ | .knock _ | .copy _ | .remote _ | .bsend _ | .brecv _ | .record _ _ _ => false

/-- The warps of a team. -/
def teamWarps (s : State) (t : Team) : List Warp := (s.warps.filter fun e => e.2.team = t.tid && !e.2.ended).map Prod.snd

/-- Whether a team may be saved. -/
def teamDrained (s : State) (t : Team) : Bool :=
  !(t.cores.any (coreRecovers s))
    && (teamWarps s t).all fun w => w.drained && !(s.ops.any fun e => e.2.wid = w.wid && e.2.kind.midway)

/-- The engine state of a team taken from its cores (R344, R421). -/
def packEngines (s : State) (t : Team) : List (Nat × Engine) :=
  t.cores.filterMap fun c => if (s.core c).engine.holder = some t.tid then some (c - t.core, (s.core c).engine) else none

/-- The control-register writes of a warp that have issued commit (R409 step 2), the last uses of its last tick take effect, the
failed translations of bundles that have not issued are forgotten (R271), and it leaves the active set. -/
def Warp.saved (w : Warp) : Warp :=
  { (((w.commitCsrs (w.tick + 1000000000)).applyKills (w.tick + 1)).thaw FreezeWhy.unissued) with apos := none, walkRes := [] }

/-- The V pipe of a room that a warp holds, free again. -/
def Room.leave (r : Room) (wid : Nat) : Room := { r with vHold := r.vHold.filter fun h => h.1 ≠ wid }

/-- The pipes and scratchpad banks that a warp and its work hold on its core, free again. -/
def leaveCore (s : State) (w : Warp) : State :=
  let go (c : Core) : Core := { c with rooms := lmod c.rooms w.room fun r => r.leave w.wid }
  let free (o : Op) : Op := if o.wid = w.wid then { o with waited := 0, want := [], banked := 0 } else o
  let s := s.modCore w.core go
  { s with ops := s.ops.map fun e => (e.1, free e.2) }

/-- A warp's walks stand for no one any more (R271). -/
def dropWalks (s : State) (wid : Nat) : State :=
  let cut (k : Walk) : Walk := { k with reqs := k.reqs.filter fun r => r != .warp wid && r != .fetch wid }
  { s with walks := s.walks.map cut }

/-- A team's state in the Closet, or in its context's save area where that has no room: its cores' resources are free, and the L1 lines
filled for its context invalid on every core (R421). -/
def saveTeam (s : State) (t : Team) : State :=
  let ctx := (launchT s t).ctx
  let eng := packEngines s t
  let full := Config.closetFull s.fresh
  let s := (teamWarps s t).foldl (fun s w => (leaveCore (dropWalks s w.wid) w).putWarp w.saved) s
  let s := (List.range 192).foldl (fun s c => dropL1 s c ctx) (freeEngines s t)
  (s.modTeam t.tid fun t => { t with place := .saved, engines := eng, inHbm := full }).used

/-- The halting teams of a context saved once all of them have drained: their partition has halted (R420, R421). -/
def execClosetSave (ctx : Nat) (s : State) : Result :=
  let ts := (s.teams.filter fun e => (launchT s e.2).ctx = ctx && e.2.place = .halting).map Prod.snd
  .next (if ts.all (teamDrained s) then ts.foldl saveTeam s else s)

/-- Work that holds a team's remap entry: copies, matrix loads that have begun, and remote accesses (R318, R319, R344, R362). -/
def OpKind.holdsRemap : OpKind → Bool
  | .copy c => !c.finished
  | .matrix m => m.copy.isSome && m.begun.isSome && !m.finished
  | .remote _ => true
  | .mem _ | .fence _ _ | .wqdeq _ _ | .sysc _ _ _ | .knock _ | .bsend _ | .brecv _ | .record _ _ _ => false

def remapFree (s : State) (t : Team) : Bool :=
  (teamWarps s t).all fun w => !(s.ops.any fun e => e.2.wid = w.wid && e.2.kind.holdsRemap)

/-- The work of a warp, at the core it now runs on. -/
def moveOps (s : State) (wid core : Nat) : State :=
  let mv (o : Op) : Op := if o.wid = wid then { o with core := core } else o
  { s with ops := s.ops.map fun e => (e.1, mv e.2) }

/-- A clock cycle still to come of one cluster as that of another; 0 stands for one that has been. -/
def recount (old new c : Nat) : Nat := if c ≤ old then 0 else c - old + new

def Hold.rebase (f : Nat → Nat) (h : Hold) : Hold :=
  match h with
  | .wake c ns code => .wake (f c) ns code
  | .none | .hook _ _ | .hookAll | .bar _ _ | .barw _ _ | .asleep _ _ => h

def Freeze.rebase (f : Nat → Nat) (z : Freeze) : Freeze :=
  match z.why with
  | .timed til retry => { z with why := .timed (f til) retry }
  | .pop _ | .push _ | .line _ | .walk _ | .refresh _ => z

def HookSt.rebase (f : Nat → Nat) (k : HookSt) : HookSt := { k with coming := k.coming.map fun p => (f p.1, p.2) }

/-- The clock cycles that a warp waits for, on another cluster. -/
def Warp.rebase (f : Nat → Nat) (w : Warp) : Warp :=
  let path (p : Path) : Path := { p with hold := p.hold.rebase f }
  let go (_ : Nat) (sl : Slice) : Slice := sl.mapPaths path
  { (w.mapSlices go).mapSaved go with freezes := w.freezes.map (Freeze.rebase f), hooks := w.hooks.map (HookSt.rebase f) }

/-- A warp put in a place of a core. -/
def Warp.moveTo (w : Warp) (s : State) (core : Nat) (p : Nat × Nat) : Warp :=
  { w.rebase (recount (coreCycle s w.core) (coreCycle s core)) with core := core, room := p.1, base := p.2, scrDone := none, moved := 0 }

/-- An engine's state put on another core. -/
def Engine.rebase (f : Nat → Nat) (e : Engine) : Engine := { e with macros := e.macros.map fun m => { m with busy := f m.busy } }

/-- A saved team put on a core or couple, with its rows and its warps in the places given; everything else is as it was saved
(R422). Filler there stops (R433), and the L1 lines of its context there go, so that no warp finds an older copy than it has read
(R380). -/
def restoreTeam (s : State) (t : Team) (l : Launch) (core : Nat) (spots : List (Nat × Nat)) (rows : Team → Team) : State :=
  let f := recount (coreCycle s t.core) (coreCycle s core)
  let s := t.engines.foldl (fun s e => s.modCore (core + e.1) fun c => { c with engine := e.2.rebase f }) s
  let s := (teamWarps s t).foldl (fun s w =>
    let c := core + l.side w.w
    (moveOps s w.wid c).putWarp (w.moveTo s c (spots.getD w.w (w.room, w.base)))) s
  let s := [core, core + 1].foldl (fun s c => if c = core || l.paired then dropL1 (endFiller s c) c l.ctx else s) s
  s.modTeam t.tid fun t =>
    { rows t with place := .resident, moving := false, barred := false, inHbm := false, core := core, engines := [] }

/-- Whether the matrix engines that a saved team holds are free on a core or couple (R324, R344). -/
def enginesFree (s : State) (t : Team) (core : Nat) : Bool := t.engines.all fun e => (s.core (core + e.1)).engine.holder.isNone

/-- Whether a team may be put back (R319, R422, R423): it is saved, its remap entry is free, no pre-emption of its context lasts on
those cores, or at all where it met a core freeze, and it fits. -/
def mayRestore (s : State) (t : Team) (l : Launch) (core : Nat) (spots : List (Nat × Nat)) : Bool :=
  s.svUp 2 && !s.parkedDev && t.place = .saved && remapFree s t && canPlace s l core spots && enginesFree s t core
    && !(s.preempts.any fun p => p.1 = l.ctx && (p.2.contains core || (t.paired && p.2.contains (core + 1))))
    && !((t.moving || t.barred) && ctxPreempted s l.ctx)

/-- A team restored, in rows that are free there. -/
def putBack (s : State) (t : Team) (l : Launch) (core : Nat) (spots : List (Nat × Nat)) : State :=
  let s' := restoreTeam s t l core spots fun t => t.putRows s core
  wakePlaced s' (teamWarps s' t)

/-- sv2 restores a team. -/
def execPreemptRestore (tid core : Nat) (spots : List (Nat × Nat)) (s : State) : Result :=
  match s.team? tid with
  | none => .next s
  | some t =>
    let l := launchT s t
    .next (if mayRestore s t l core spots then putBack s t l core spots else s)

/-! ## Core freeze (R100, R101, R424, R425) -/

/-- Whether a die has a spare core. -/
def hasSpare (s : State) (core : Nat) : Bool := 0 < s.spares.getD (dieOf core) 0

/-- Teams whose state goes to the Closet for a core freeze: those that run stop issuing. -/
def takeOff (s : State) (ts : List Team) : State :=
  let go (t : Team) : Team := { t with moving := true, place := if t.place == .resident then .halting else t.place }
  ts.foldl (fun s t => s.modTeam t.tid go) s

/-- A frozen core that no spare is left for: it is out of service, and its paired teams go to the Closet too (R101). -/
def strand (s : State) (core : Nat) : State :=
  let stop (c : Core) : Core := { c with out := true }
  takeOff (s.modCore core stop) (teamsOn s core)

/-- A core freezes: it issues nothing from the next clock cycle on. The teams that are on it alone go to the Closet; the other core of
a couple runs on while a spare is to take its partner's place. -/
def freezeCore (s : State) (core : Nat) : State :=
  let stop (c : Core) : Core := { c with frozen := true }
  let s' := takeOff (s.modCore core stop) ((teamsOn s core).filter fun t => !t.paired)
  if hasSpare s core then s' else strand s' core

/-- The count of active cores that sv7 reports: one less for each frozen core that no spare has replaced (R101). -/
def activeCores (s : State) : Nat := 192 - (s.cores.filter fun c => c.out).length

def execCoreFreeze (core : Nat) (s : State) : Result :=
  .next (if core < 192 && !(s.core core).frozen then freezeCore s core else s)

/-- The teams that a spare takes on with a frozen core's place: those on it, and those it was on when it froze (R100). -/
def teamsOf (s : State) (core : Nat) : List Team :=
  (s.teams.filter fun e => e.2.cores.contains core && (e.2.place != .saved || e.2.moving)).map Prod.snd

/-- Whether everything on a frozen core has drained and finished, and its islands have recovered, so that it may move. -/
def coreMovable (s : State) (core : Nat) : Bool :=
  !coreRecovers s core && (teamsOf s core).all fun t => remapFree s t && ((teamWarps s t).filter fun w => w.core = core).all fun w => w.drained
    && !(s.ops.any fun e => e.2.wid = w.wid && e.2.kind.midway)

/-- The spare core in a frozen core's place: caches empty, matrix engine moved along, room counters from 0. -/
def spareCore (c : Core) : Core := { rooms := List.replicate 4 {}, islands := List.replicate 16 {}, stalls := List.replicate 64 0,
                                     engine := c.engine }

/-- The warps on a core. -/
def coreWarps (s : State) (core : Nat) : List Warp :=
  (s.warps.filter fun e => e.2.core = core && !e.2.ended && (teamsOf s core).any fun t => t.tid = e.2.team).map Prod.snd

/-- The frozen cores of a die that have not been replaced, once its last spare is gone. -/
def strandRest (s : State) (core : Nat) : State :=
  if hasSpare s core then s
  else ((List.range 192).filter fun c => dieOf c = dieOf core && (s.core c).frozen && !(s.core c).out).foldl strand s

/-- A frozen core's place taken by a spare of its die, with its coreid, its rooms and all that its teams held (R100); a team stays
saved while its context is pre-empted (R423), and the launch of a team whose image cannot be read intact ends (R425). -/
def execSpareMove (move : Nat × List Nat) (s : State) : Result :=
  let core := move.1
  if !(s.core core).frozen || (s.core core).out || !hasSpare s core || !s.svUp 2 || !coreMovable s core then .next s
  else
    let s := (coreWarps s core).foldl (fun s w => (leaveCore (dropWalks s w.wid) w).putWarp w.saved) s
    let s := (endFiller s core).modCore core spareCore
    let s := { s with spares := lmod s.spares (dieOf core) (· - 1) }
    let bar (t : Team) : Team := { t with moving := false, barred := true }
    let back (s : State) (t : Team) : State :=
      if t.place = .resident then s
      else if ctxPreempted s (launchT s t).ctx then s.modTeam t.tid bar
      else restoreTeam s t (launchT s t) t.core [] id
    let gone := (teamsOf s core).filter fun t => move.2.contains t.tid
    let s := gone.foldl (fun s t => endLaunch s t.launch 4 0x16) s
    .next (strandRest ((teamsOf s core).foldl back s) core)

/-- Whether no team is on a core. -/
def coreEmpty (s : State) (core : Nat) : Bool := (teamsOn s core).isEmpty

/-- A team of a core that no spare replaced, placed whole on another core, or on an empty couple, of either die (R101); where its
image cannot be read intact its launch ends (R425). -/
def execTeamReplace (team : Nat × Bool) (core : Nat) (spots : List (Nat × Nat)) (s : State) : Result :=
  match s.team? team.1 with
  | none => .next s
  | some t =>
    let l := launchT s t
    let room := !t.paired || (coreEmpty s core && coreEmpty s (core + 1))
    let may := t.cores.any (fun c => (s.core c).out) && room && mayRestore s t l core spots
    .next (if !may then s else if team.2 then endLaunch s t.launch 4 0x16 else putBack s t l core spots)

end Sys2Proof.Machine
end

