-- ==== Sys2Proof/Machine/Power.lean ====
section
/-! DEFINITION. Clocks, voltage islands, margin plans and the errors of undervolted islands (R426 to R436). -/

namespace Sys2Proof.Machine

/-! ## Margin plans (R62, R436) -/

/-- A voltage in mV within the Lintel's floor and ceiling, which the image may tighten (R62). -/
def clampMv (s : State) (v : Nat) : Nat :=
  max 400 (min 950 (max ((tget s.devRegs regFloor).elim 0 BitVec.toNat) (min (limitOf s regCeiling 950) v)))

def clampRatio (r : Nat) : Nat := max 0x400 (min 0x1000 r)

def State.modCluster (s : State) (k : Nat) (f : Cluster → Cluster) : State := { s with clusters := lmod s.clusters k f }

/-- The plan that waits for a cluster put in force. -/
def putPlan (s : State) (cluster : Nat) : State :=
  match tget s.plans cluster with
  | none => s
  | some p =>
    let top (c : Cluster) : Cluster := { c with maxRatio := p.maxRatio }
    ({ s with plans := tdel s.plans cluster, plansInForce := tset s.plansInForce cluster p }).modCluster cluster top

/-- The cores of a cluster (R2). -/
def clusterCores (cluster : Nat) : List Nat := (List.range 8).map (8 * cluster + ·)

/-- A new plan redrawn by sv6: it takes effect at a clock transition or an island's mode change; islands held at guard band for want
of one may leave it again (R434, R436). -/
def execMarginPlanInstall (cluster maxRatio : Nat) (guardMv ntMv : List Nat) (s : State) : Result :=
  if !s.svUp 6 || 24 ≤ cluster then .next s
  else
    let put (vs : List Nat) : List Nat := (List.range 128).map fun i => clampMv s (vs.getD i 0)
    let p : Plan := ⟨clampRatio maxRatio, put guardMv, put ntMv⟩
    let free (i : Island) : Island := { i with heldNom := false }
    let s := (clusterCores cluster).foldl (fun s c => s.modCore c fun k => { k with islands := k.islands.map free }) s
    .next { s with plans := tset s.plans cluster p }

/-! ## Clock transitions (R426, R427) -/

/-- A clock transition: the cluster's clock stops for at most 500 ns, at most one in 10 µs; RATIO and EPOCH change in its first clock
cycle afterwards. -/
def execClockTransition (cluster ratio stop : Nat) (s : State) : Result :=
  let c := s.clusters.getD cluster {}
  if !s.svUp 6 || 24 ≤ cluster || 500 < stop || c.stop.isSome || c.lastNs.any (fun t => timens s < t + 10000) then .next s
  else
    let s := putPlan s cluster
    let top := (s.clusters.getD cluster {}).maxRatio
    let go (c : Cluster) : Cluster :=
      { c with stop := some (baseAt (timens s + stop), min top (clampRatio ratio)), lastNs := some (timens s) }
    .next (s.modCluster cluster go)

/-! ## Islands (R429 to R431) -/

/-- The resident warps with slices on an island. -/
def islandWarps (s : State) (core room k : Nat) : List Warp := (placedWarps s core room).filter fun w => w.islands.contains k

/-- Whether a resident warp forbids NT (R431). -/
def ntForbidden (s : State) (core room k : Nat) : Bool := (islandWarps s core room k).any fun w => w.csr.islhint == 2

def IslMode.isNom : IslMode → Bool
  | .nom => true
  | .nt _ | .ret _ => false

/-- A fall of the package current by a change of an island's mode: the next fall waits for the slope (R432). -/
def fallSlope (s : State) : State := { s with slopeDown := timens s + slopeTime s, fresh := s.fresh + 1 }

/-- NOM to NT: pacing begins in the next clock cycle. The entry is deferred until the slope permits it (R432). -/
def execIslandEnterNt (core room k : Nat) (s : State) : Result :=
  let i := s.island core room k
  if 4 ≤ room || 4 ≤ k || !i.mode.isNom || i.heldNom || ntForbidden s core room k then .next s
  else if timens s < s.slopeDown then .next (s.later (baseAt s.slopeDown - s.base) (.islandEnterNt core room k))
  else
    let go (i : Island) : Island := { i with mode := .nt none, ntFrom := coreCycle s core + 1 }
    .next (fallSlope ((putPlan s (core / 8)).modIsland core room k go))

/-- NT to NOM: pacing goes on until guard band is reached, in at most 400 ns. -/
def execIslandExitNt (core room k : Nat) (s : State) : Result :=
  match (s.island core room k).mode with
  | .nt none =>
    let go (i : Island) : Island := { i with mode := .nt (some (timens s + Config.delay s.fresh % 401)) }
    .next ((putPlan s (core / 8)).modIsland core room k go).used
  | .nt (some _) | .nom | .ret _ => .next s

/-- Whether a hold leaves its lanes idle (R401). -/
def Hold.idle : Hold → Bool
  | .hook _ _ | .hookAll | .bar _ _ | .barw _ _ | .asleep _ true => true
  | .none | .asleep _ false | .wake _ _ _ => false

/-- Whether the lanes of a path count idle for what holds it: its hold, or a wait that is tested again at issue and is not met (R394). -/
def Path.idle (p : Path) (w : Warp) : Bool := p.hold.idle || (p.hold == .none && w.waitHolds p.wait)

/-- Whether every unretired lane of a slice counts idle. -/
def Slice.idle (sl : Slice) (w : Warp) (live : Quad → Quad) : Bool :=
  let ends (p : Path) : Bool := live p.mask = 0 || p.idle w || sl.waits.any fun x => p.mask &&& ~~~x.2.mask = 0 && x.2.hold.idle
  sl.paths.all ends

/-- Whether every resident lane of an island counts idle: every lane of the warps on it, which issue nothing while it is at retention
voltage (R429, log 76). -/
def islandIdle (s : State) (core room k : Nat) : Bool :=
  (islandWarps s core room k).all fun w => !w.stopped && !w.entering && w.due.isEmpty &&
    ((List.range w.slices.length).zip w.slices).all fun p => p.2.idle w (w.live p.1)

/-- Any mode to RET, while every resident lane counts idle, and once the slope permits it (R432); an island that an attributed error
holds at guard band stays there (R434). -/
def execIslandEnterRet (core room k : Nat) (s : State) : Result :=
  let i := s.island core room k
  if 4 ≤ room || 4 ≤ k || i.mode.isRet || i.heldNom || !islandIdle s core room k then .next s
  else if timens s < s.slopeDown then .next (s.later (baseAt s.slopeDown - s.base) (.islandEnterRet core room k))
  else
    let go (i : Island) : Island := { i with mode := .ret (i.mode == .nt none), waking := false }
    .next (fallSlope ((putPlan s (core / 8)).modIsland core room k go))

/-- RET to the mode before it, at the first release of a lane (R430). -/
def execIslandExitRet (core room k : Nat) (s : State) : Result :=
  let i := s.island core room k
  match i.mode, i.waking with
  | .ret wasNt, true =>
    let nt := wasNt && !i.heldNom && !ntForbidden s core room k
    let go (i : Island) : Island :=
      { i with
        mode := if nt then .nt none else .nom, ntFrom := coreCycle s core + 1, waking := false
        lowNs := some (max (timens s) i.wakeNs) }
    .next ((putPlan s (core / 8)).modIsland core room k go)
  | _, _ => .next s

/-! ## Attributed errors and the voltage machine check (R434, R435) -/

/-- Whether an error on an island is the power controller's: the island is or was below guard band in the last 2 µs. -/
def attributed (s : State) (i : Island) : Bool := !i.mode.isNom || i.lowNs.any fun t => timens s ≤ t + 2000

/-- A result of the Attic whose data was lost in some lanes: free words with free tags. -/
def Flight.loseData (fresh : Nat) (lanes : Lanes) (opnd : Nat) (f : Flight) : Flight :=
  let lose (r : LaneRes) : LaneRes :=
    if lanes.getLsbD r.lane then
      { r with vals := (List.range r.vals.length).map fun i => (Config.freeWord fresh (opnd + i) r.lane, Config.freeTag fresh (opnd + i) r.lane)
               checked := false, flags := 0 }
    else r
  if f.dst.covers opnd = 0 then f else { f with lanes := f.lanes.map lose }

/-- An Attic with the entries for an operand lost in some lanes. -/
def Attic.loseData (fresh : Nat) (lanes : Lanes) (opnd : Nat) (a : Attic) : Attic :=
  { a with flights := a.flights.map (Flight.loseData fresh lanes opnd) }

/-- What a warp has lost, the lowest operand standing for all (R435). -/
def mergeLost (old : Option (Nat × Nat × Lanes × Bool)) (opnd isl : Nat) (lanes : Lanes) (attic : Bool) : Nat × Nat × Lanes × Bool :=
  let o := if attic then 1023 else opnd
  match old with
  | none => (o, isl, lanes, attic)
  | some (o', i', l', a') => (min o o', if o < o' then isl else i', l' ||| lanes, attic || a')

/-- A register row, landing or Attic entry of a warp that lost data in some lanes: undefined from now on. The results of a warp that
halts are entries of its drain set (R409, R420). -/
def Warp.loseData (w : Warp) (fresh k opnd : Nat) (lanes : Lanes) (attic halts : Bool) (found : Option Dword) : Warp :=
  let w :=
    if attic then
      { w with
        attic := w.attic.map (Attic.loseData fresh lanes opnd)
        flight := if halts then w.flight.map (Flight.loseData fresh lanes opnd) else w.flight }
    else if opnd < 776 then { w with regs := (lanesOf lanes).foldl (fun t l => tset t (regKey opnd l) ⟨0, 0xFFFFFFFF, 0, true⟩) w.regs }
    else w
  { w with lost := some (mergeLost w.lost opnd k lanes attic), lostPc := w.lostPc.or found }

/-- The recovery of an island after an attributed error, or one in filler (R434, R435): back at guard band within 2 µs, and held there
until a new plan comes. -/
def recoverIsland (s : State) (core room k : Nat) : State :=
  let d := Config.delay s.fresh % 2001
  let go (i : Island) : Island :=
    { i with mode := .nom, heldNom := true, recoverNs := timens s + d, lowNs := some (timens s + d), waking := false }
  let s := (s.modIsland core room k go).used
  chargeDev s 2 (Config.energy 8 (islandMv s core room k) (clusterOf s core).ratio * d)

/-- An uncorrectable error on an island: attributed to the power controller when the island is undervolted, and otherwise the end of
its core (R424, R434). A lost line buffer is refilled from the fetch cache with the same image, and nothing changes; an error in filler
is discarded (R435). -/
def execAttributedEccError (core room k : Nat) (lost : EccSite) (s : State) : Result :=
  if 192 ≤ core || 4 ≤ room || 4 ≤ k then .next s
  else match lost with
    | .filler => .next (recoverIsland s core room k)
    | .lineBuf | .data _ _ _ _ _ =>
      if !attributed s (s.island core room k) then .next (if (s.core core).frozen then s else freezeCore s core)
      else
        let s' := recoverIsland s core room k
        match lost with
        | .data wid opnd lanes attic found =>
          let halts := ((s.warp? wid).bind (teamOf s)).any fun t => t.place != .resident
          .next ((s'.modWarp wid fun w => w.loseData s'.fresh k opnd lanes attic halts found).used)
        | .lineBuf | .filler => .next s'

/-- TRVAL of cause 1A (R435). -/
def mcheckVal (opnd isl : Nat) (attic : Bool) : Nat := opnd + 2 ^ 10 * isl + 2 ^ 12 * attic.toNat

/-- The voltage machine check of a warp, in the first clock cycle after its island reaches guard band. -/
def execVoltageMachineCheck (wid : Nat) (s : State) : Result :=
  match s.warp? wid with
  | none => .next s
  | some w =>
    match w.lost with
    | none => .next s
    | some (opnd, isl, lanes, attic) =>
      if recovering s w then .next s
      else
        let t : TrapDue := { cause := 0x1A, cls := 3, pc := w.lostPc.getD w.lowPc, lanes := lanes, val := BitVec.ofNat 64 (mcheckVal opnd isl attic),
                             dst := opnd, seq := s.nextId, tick := w.tick }
        .next (s.putWarp { w.post t with lost := none, lostPc := none }).bump

end Sys2Proof.Machine
end

