-- ==== Sys2Proof/Machine/Manage.lean ====
section
/-! DEFINITION. What the supervisors and the hardware around the cores do to memory, the fabric and the accounts: deferred walks and
page tables (R266, R268), keys (R276), poison (R251), cellar windows (R254), windows, routes and links (R345 to R352), lockouts
(R62) and snapshots (R444). -/

namespace Sys2Proof.Machine

/-! ## sv3: page tables, keys, the cellar -/

/-- A range of a context invalidated (R273): no TLB holds it any more, no failed walk of it is kept, and the invalidation completes
once the accesses translated through it have been performed. -/
def execTlbInvalidate (ctx va len : Nat) (s : State) : Result :=
  let keep (t : List TlbEnt) : List TlbEnt := t.filter fun e => !e.inRange ctx va len
  let clean (c : Core) : Core := { c with tlb := keep c.tlb }
  if !s.svUp 3 then .next (s.later 1250 (.tlbInvalidate ctx va len))
  else
  let s := endMessages (forgetWalks { s with cores := s.cores.map clean, dieTlb := s.dieTlb.map keep } ctx va len) ctx va len
  .next (if s.ops.any fun e => opInRange ctx va len e.2 then s.later 1 (.tlbInvalidate ctx va len) else s)

/-- Eight bytes written by sv3 at a physical address, charged to the device (R441). -/
def devWrite8 (s : State) (pa : Nat) (e : Dword) : State :=
  trimL2 (homeWrite s (pa / 128) false 0 ⟨devCtx, 2 ^ 23⟩ false false 0 (bytesFrom (pa % 128) 8 e.toNat)).s

/-- An entry of the page tables written. -/
def execPageTableWrite (pa : Nat) (e : Dword) (s : State) : Result :=
  .next (if s.svUp 3 && pa % 8 = 0 && pa < hbmTop then devWrite8 s pa e else s)

/-- A deferred walk answered with a mapping: the entry is written, and the walk restarts at L0 (R268). -/
def execDeferMap (walk pa : Nat) (e : Dword) (s : State) : Result :=
  if !s.svUp 3 || pa % 8 ≠ 0 || hbmTop ≤ pa || !(s.walks.any fun k => k.id = walk && k.deferred) then .next s
  else
    let go (k : Walk) : Walk := if k.id = walk then { k with deferred := false, retried := true } else k
    let s := devWrite8 s pa e
    .next ({ s with walks := s.walks.map go, deferReqs := s.deferReqs.filter fun q => q.walk ≠ walk }.laterFree 3 (.tlbWalkComplete walk))

/-- The level at which a walk defers. -/
def deferLevel (s : State) (va : Nat) : Nat → Nat → Nat → Nat
  | 0, level, _ => level
  | n + 1, level, table =>
    let e := readEntry s (table + 8 * levelIndex level va)
    if bits e 0 1 = 0 || bits e 1 1 = 1 then level else deferLevel s va n (level + 1) (bits e 8 40 * 256)

/-- A deferred walk declined: cause 0B with REASON 6 (R268). -/
def execDeferDecline (walk : Nat) (s : State) : Result :=
  match s.walks.find? fun k => k.id = walk && k.deferred with
  | none => .next s
  | some k => .next (if s.svUp 3 then
      walkFault { s with deferReqs := s.deferReqs.filter fun q => q.walk ≠ walk } k 6 (deferLevel s k.va 3 0 (s.ctx k.ctx).root) else s)

/-- A key pair loaded into a slot, or a slot cleared (R276). -/
def execKeySlotLoad (slot : Nat) (key : BitVec 512) (s : State) : Result :=
  .next (if s.svUp 3 && slot < 512 then { s with keySlots := tset s.keySlots slot key } else s)
def execKeySlotClear (slot : Nat) (s : State) : Result :=
  .next (if s.svUp 3 then { s with keySlots := tdel s.keySlots slot } else s)

/-- A cellar window granted to a context: at most 8, base and length multiples of 1 MiB (R254). -/
def execCellarWindowGrant (ctx base len : Nat) (zp : Bool) (s : State) : Result :=
  if !s.svUp 3 || 8 ≤ (s.cellarWins.filter fun v => v.ctx = ctx).length || base % 2 ^ 20 ≠ 0 || len % 2 ^ 20 ≠ 0
      || 2 ^ 29 < base + len then .next s
  else .next { s with cellarWins := s.cellarWins ++ [⟨ctx, base, len, zp⟩] }

/-! ## Poison (R251) -/

/-- A block of HBM poisoned, by its number; the blocks from the end of HBM on are those of the cellar. -/
def poisonBlock (s : State) (block : Nat) : State :=
  let top := hbmTop / 64
  if block < top then (if s.poison.contains block then s else { s with poison := s.poison ++ [block] })
  else if block - top < 2 ^ 23 && !s.cellarPoison.contains (block - top) then { s with cellarPoison := s.cellarPoison ++ [block - top] }
  else s

def execHbmUncorrectableError (block : Nat) (s : State) : Result := .next (poisonBlock s block)
def execPowerControllerPoison (block : Nat) (s : State) : Result := .next (poisonBlock s block)

/-! ## sv5: windows, routes, links, lockouts -/

/-- A window entry with its reserved bits 0 (R9, R352). -/
def winMasked (e : BitVec 256) : WinEntry :=
  e &&& ~~~(BitVec.ofNat 256 (3 * 2 ^ 14) ||| BitVec.ofNat 256 ((2 ^ 24 - 1) * 2 ^ 104))

def execWindowEntryWrite (win : Nat) (e : BitVec 256) (s : State) : Result :=
  .next (if s.svUp 5 && win < 1024 then { s with windows := tset s.windows win (winMasked e) } else s)

/-- Of a route of this device that changes, the work whose requests the old path still carries: those of the new path wait for it
(R349). -/
def keepOldPath (s : State) (src tgt : Nat) : State :=
  let ids := awaiting s tgt
  if src ≠ s.devid || ids.isEmpty then s
  else { s with oldPath := tset s.oldPath tgt (((tget s.oldPath tgt).getD []) ++ ids) }

/-- The route of a pair changed: through an intermediate peer, or direct again (R349). -/
def execRouteChange (src tgt : Nat) (via : Option Nat) (s : State) : Result :=
  if !s.svUp 5 || s.podsize ≤ src || s.podsize ≤ tgt then .next s
  else let s := keepOldPath s src tgt
  match via with
    | some m =>
      .next (if m < s.podsize && m ≠ src && m ≠ tgt then { s with routes := tset s.routes (64 * src + tgt) m } else s)
    | none => .next { s with routes := tdel s.routes (64 * src + tgt) }

/-- The direct link to a peer fails. -/
def execLinkFailure (peer : Nat) (s : State) : Result :=
  .next (if s.peersLost.contains peer then s else { s with peersLost := s.peersLost ++ [peer] })

/-- A frame that asks for an unsupported feature: discarded, and counted on its link (R345). -/
def execUnsupportedFrameDiscard (peer : Nat) (s : State) : Result :=
  .next { s with linkErrors := tset s.linkErrors peer ((tget s.linkErrors peer).getD 0 + 1), discards := s.discards + 1 }

/-- A packet that is not UET, or asks for a service that is not supported: dropped and counted (R346); that the first is counted too is
not in the spec (DESIGN CHOICE, log 77). -/
def execUetPacketDrop (port : Nat) (s : State) : Result := .next (if port < 4 then { s with uetDrops := s.uetDrops + 1 } else s)

/-- A lockout cleared by sv5, with the rejections that led to it (R62). -/
def execLockoutClear (src : Nat) (s : State) : Result :=
  .next (if s.svUp 5 then { s with lockouts := s.lockouts.filter (· ≠ src), rejections := tdel s.rejections src } else s)

/-! ## sv7: snapshots (R444) -/

/-- An account as it stands; number 512 is DEVACCT. -/
def accountOf (s : State) (c : Nat) : Account := if c = devCtx then s.devAcct else (tget s.accounts c).getD {}

/-- The stall counters of a room. -/
def roomStalls (s : State) (core room : Nat) : Account :=
  { stalls := (List.range 16).map fun k => (k, (s.core core).stalls.getD (16 * room + k) 0) }

/-- Every counter of an account, or of a room, copied to the snapshot bank. -/
def execCounterSnapshot (acct : Option Nat) (core room : Nat) (s : State) : Result :=
  let a := match acct with
    | some c => accountOf s c
    | none => roomStalls s core room
  .next (if s.svUp 7 then { s with snapshots := s.snapshots ++ [(acct, core, room, a)] } else s)

/-- A context number given to a new tenant: its account's values recorded. -/
def execContextReassign (ctx : Nat) (s : State) : Result :=
  .next { s with reassigned := s.reassigned ++ [(ctx, accountOf s ctx)] }

end Sys2Proof.Machine
end

