-- ==== Sys2Proof/Machine/VInt.lean ====
section
/-! DEFINITION. The V-slot integer and address instructions (R186 to R203): for each its value in one lane, and its meaning. -/

namespace Sys2Proof.Machine

/-! ## Operands and results -/

/-- ext(x) of R191. -/
def extI {n : Nat} (uns : Bool) (x : BitVec n) : Int := if uns then (x.toNat : Int) else x.toInt

/-- The low 32 bits of an exact value, or its clamp to s32 or z32 (R15, R191). -/
def satWord (sat uns : Bool) (x : Int) : Word :=
  if sat then BitVec.ofInt 32 (if uns then clampI 0 (2 ^ 32 - 1) x else clampI (-(2 ^ 31)) (2 ^ 31 - 1) x)
  else BitVec.ofInt 32 x

/-- A 32-bit operation of up to three sources: a result of tag 63 in every enabled lane (R189). -/
def int3 (f : Fields) (op : Word → Word → Word → Word) (rd : Rd) (l : Nat) : LaneRes :=
  res1 l (op (val32 rd f.a l) (val32 rd f.b l) (val32 rd f.c l)) 63

/-- A 32-bit result of the V slot. -/
def v32 (i : Instr) (f : Fields) (op : Word → Word → Word → Word) (s : State) : Result :=
  vIssue i f (dstOf f.d .w32) (int3 f op) s

/-- A bit result of 32-bit sources (R190). -/
def vBit (i : Instr) (f : Fields) (j : Nat) (cmb : Cmb) (op : Word → Word → Word → Bool) (s : State) : Result :=
  vIssue i f (bitDst f.d j 1 cmb)
    (fun rd l => resBit l (op (val32 rd f.a l) (val32 rd f.b l) (val32 rd f.c l))) s

/-- A 64-bit result of tag 63, with the address-overflow mark of R203. -/
def v64 (i : Instr) (f : Fields) (op : Rd → Nat → Dword × BitVec 6) (s : State) : Result :=
  vIssue i f (dstOf f.d .w64) (fun rd l => let r := op rd l; res2 l r.1 r.2) s

/-! ## Values (R192 to R203) -/

def iaddVal (sat uns : Bool) (a b : Word) : Word := satWord sat uns (extI uns a + extI uns b)
def isubVal (sat uns : Bool) (a b : Word) : Word := satWord sat uns (extI uns a - extI uns b)

/-- The exact sum of iaddc (R192). -/
def iaddcSum (sb : Bool) (k : Nat) (a b c : Word) : Nat :=
  a.toNat + (if sb then (~~~b).toNat else b.toNat) + (wbit c k).toNat

def imulVal (sat uns : Bool) (a b : Word) : Word := satWord sat uns (extI uns a * extI uns b)
def imulhiVal (uns : Bool) (a b : Word) : Word := hiWord (BitVec.ofInt 64 (extI uns a * extI uns b))
def imadVal (sat uns : Bool) (a b c : Word) : Word := satWord sat uns (extI uns a * extI uns b + extI uns c)
def imadwVal (uns : Bool) (a b : Word) (c : Dword) : Dword := BitVec.ofInt 64 (extI uns a * extI uns b + c.toNat)
def iminVal (uns : Bool) (a b : Word) : Word := if extI uns a ≤ extI uns b then a else b
def imaxVal (uns : Bool) (a b : Word) : Word := if extI uns b ≤ extI uns a then a else b
def iabsVal (sat : Bool) (a : Word) : Word := satWord sat false (if a.toInt < 0 then -a.toInt else a.toInt)

/-- Element i of `n` bits of a word. -/
def elem (uns : Bool) (n i : Nat) (a : Word) : Int := extI uns (BitVec.ofNat n (a.toNat / 2 ^ (n * i)))

/-- R194. -/
def isadVal (h sat uns : Bool) (a b c : Word) : Word :=
  let n := if h then 16 else 8
  let x := (List.range (32 / n)).foldl (fun t i =>
    let d := elem uns n i a - elem uns n i b
    t + (if d < 0 then -d else d)) (extI uns c)
  satWord sat uns x

def idot4Val (au bu sat : Bool) (a b c : Word) : Word :=
  satWord sat false ((List.range 4).foldl (fun t i => t + elem au 8 i a * elem bu 8 i b) c.toInt)

/-- A condition on two integers (R188, R196). -/
def iccVal (cc : ICc) (x y : Int) : Bool :=
  match cc with
  | .eq => x == y | .ne => x != y | .lt => x < y | .le => x ≤ y | .gt => y < x | .ge => y ≤ x

/-- R197: bit i of the result is bit a_i + 2 b_i + 4 c_i of the table. -/
def bool3Val (tbl : BitVec 8) (a b c : Word) : Word :=
  let pick (s : Nat) : Word :=
    if tbl.getLsbD s then
      (if s.testBit 0 then a else ~~~a) &&& (if s.testBit 1 then b else ~~~b) &&& (if s.testBit 2 then c else ~~~c)
    else 0
  (List.range 8).foldl (fun r s => r ||| pick s) 0

/-- The shift amount (R198). -/
def shAmt (imm : Option Nat) (b : Word) : Nat := imm.getD b.toNat

def shlVal (imm : Option Nat) (a b : Word) : Word := let m := shAmt imm b; if 32 ≤ m then 0 else a <<< m
def shrVal (imm : Option Nat) (a b : Word) : Word := let m := shAmt imm b; if 32 ≤ m then 0 else a >>> m
def sarVal (imm : Option Nat) (a b : Word) : Word := a.sshiftRight (min (shAmt imm b) 32)
def rotlVal (imm : Option Nat) (a b : Word) : Word := a.rotateLeft (shAmt imm b % 32)
def fshlVal (rt : Bool) (imm : Option Nat) (a b c : Word) : Word :=
  let n := min (shAmt imm c) 32
  let w := pairWord b a
  if rt then loWord (w >>> n) else hiWord (w <<< n)

/-- pos and len (R199). -/
def fieldOf (imm : Option (Nat × Nat)) (b : Word) : Nat × Nat :=
  imm.getD (b.toNat % 256, b.toNat / 256 % 256)

def bfxVal (uns : Bool) (imm : Option (Nat × Nat)) (a b : Word) : Word :=
  let pl := fieldOf imm b
  if 32 ≤ pl.1 || pl.2 = 0 then 0
  else
    let n := min pl.2 (32 - pl.1)
    let x := a.toNat / 2 ^ pl.1 % 2 ^ n
    BitVec.ofInt 32 (if uns then (x : Int) else sextN n x)

def bfiVal (imm : Option (Nat × Nat)) (a b c : Word) : Word :=
  let base := if imm.isSome then b else c
  let pl := fieldOf imm b
  if 32 ≤ pl.1 || pl.2 = 0 then base
  else
    let n := min pl.2 (32 - pl.1)
    let m : Word := BitVec.ofNat 32 ((2 ^ n - 1) * 2 ^ pl.1)
    (base &&& ~~~m) ||| ((a <<< pl.1) &&& m)

def popcVal (a : Word) : Word := BitVec.ofNat 32 ((List.range 32).filter fun i => a.getLsbD i).length
def clzVal (a : Word) : Word :=
  BitVec.ofNat 32 (((List.range 32).find? fun i => a.getLsbD (31 - i)).getD 32)
def brevVal (a : Word) : Word := BitVec.ofNat 32
  ((List.range 32).foldl (fun t i => t + (if a.getLsbD (31 - i) then 2 ^ i else 0)) 0)

/-- Byte i of the result of prmt (R200). -/
def prmtByte (sel : Nat) (e : Dword) (i : Nat) : Nat :=
  let q := sel / 2 ^ (4 * i) % 16
  let g := e.toNat / 2 ^ (8 * (q % 8)) % 256
  if 8 ≤ q then (if 128 ≤ g then 255 else 0) else g

def prmtVal (imm : Option Nat) (a b c : Word) : Word :=
  let sel := (imm.getD c.toNat) % 65536
  BitVec.ofNat 32 ((List.range 4).foldl (fun t i => t + prmtByte sel (pairWord a b) i * 2 ^ (8 * i)) 0)

def iclampVal (uns : Bool) (a b c : Word) : Word := iminVal uns (imaxVal uns a b) c

/-- An exact address with its overflow mark (R203). -/
def addrOut (chk : Bool) (x : Int) : Dword × BitVec 6 :=
  (BitVec.ofInt 64 x, if chk && (x < 0 || 2 ^ 64 ≤ x) then fAO else 0)

def leaVal (uns chk : Bool) (sh : Nat) (a : Dword) (b : Word) : Dword × BitVec 6 :=
  addrOut chk ((a.toNat : Int) + extI uns b * 2 ^ sh)
def add64Val (uns chk : Bool) (a b : Dword) : Dword × BitVec 6 := addrOut chk ((a.toNat : Int) + extI uns b)
def sub64Val (uns chk : Bool) (a b : Dword) : Dword × BitVec 6 := addrOut chk ((a.toNat : Int) - extI uns b)
def mad64Val (uns chk : Bool) (a : Dword) (b c : Word) : Dword × BitVec 6 :=
  addrOut chk ((a.toNat : Int) + extI uns b * extI uns c)
def shl64Val (imm : Option Nat) (a : Dword) (b : Word) : Dword :=
  let m := shAmt imm b; if 64 ≤ m then 0 else a <<< m
def shr64Val (ar : Bool) (imm : Option Nat) (a : Dword) (b : Word) : Dword :=
  let m := min (shAmt imm b) 64
  if ar then a.sshiftRight m else a >>> m

/-! ## Meanings -/

def execNopV (gap : Nat) (s : State) : Result := withIssue (.nopV gap) noChk (fun _ s => s) s
def execNopM (gap : Nat) (s : State) : Result := withIssue (.nopM gap) noChk (fun _ s => s) s
def execNopK (gap : Nat) (s : State) : Result := withIssue (.nopK gap) noChk (fun _ s => s) s
def execNopC (gap : Nat) (s : State) : Result := withIssue (.nopC gap) noChk (fun _ s => s) s

def execIadd (f : Fields) (sat uns : Bool) (s : State) : Result :=
  v32 (.iadd f sat uns) f (fun a b _ => iaddVal sat uns a b) s
def execIsub (f : Fields) (sat uns : Bool) (s : State) : Result :=
  v32 (.isub f sat uns) f (fun a b _ => isubVal sat uns a b) s
def execIaddc (f : Fields) (co sb : Bool) (k j : Nat) (s : State) : Result :=
  if co then vBit (.iaddc f co sb k j) f j .set (fun a b c => (iaddcSum sb k a b c).testBit 32) s
  else v32 (.iaddc f co sb k j) f (fun a b c => BitVec.ofNat 32 (iaddcSum sb k a b c)) s
def execImul (f : Fields) (sat uns : Bool) (s : State) : Result :=
  v32 (.imul f sat uns) f (fun a b _ => imulVal sat uns a b) s
def execImulhi (f : Fields) (uns : Bool) (s : State) : Result :=
  v32 (.imulhi f uns) f (fun a b _ => imulhiVal uns a b) s
def execImad (f : Fields) (sat uns : Bool) (s : State) : Result :=
  v32 (.imad f sat uns) f (fun a b c => imadVal sat uns a b c) s
def execImadw (f : Fields) (uns : Bool) (s : State) : Result :=
  v64 (.imadw f uns) f (fun rd l => (imadwVal uns (val32 rd f.a l) (val32 rd f.b l) (val64 rd f.c l), 0)) s
def execImin (f : Fields) (uns : Bool) (s : State) : Result :=
  v32 (.imin f uns) f (fun a b _ => iminVal uns a b) s
def execImax (f : Fields) (uns : Bool) (s : State) : Result :=
  v32 (.imax f uns) f (fun a b _ => imaxVal uns a b) s
def execIabs (f : Fields) (sat : Bool) (s : State) : Result := v32 (.iabs f sat) f (fun a _ _ => iabsVal sat a) s
def execIsad (f : Fields) (h sat uns : Bool) (s : State) : Result :=
  v32 (.isad f h sat uns) f (fun a b c => isadVal h sat uns a b c) s
def execIdot4 (f : Fields) (au bu sat : Bool) (s : State) : Result :=
  v32 (.idot4 f au bu sat) f (fun a b c => idot4Val au bu sat a b c) s
def execIcmp (f : Fields) (cc : ICc) (cmb : Cmb) (uns : Bool) (j : Nat) (s : State) : Result :=
  vBit (.icmp f cc cmb uns j) f j cmb (fun a b _ => iccVal cc (extI uns a) (extI uns b)) s
def execBool3 (f : Fields) (tbl : BitVec 8) (s : State) : Result :=
  v32 (.bool3 f tbl) f (fun a b c => bool3Val tbl a b c) s
def execShl (f : Fields) (imm : Option Nat) (s : State) : Result := v32 (.shl f imm) f (fun a b _ => shlVal imm a b) s
def execShr (f : Fields) (imm : Option Nat) (s : State) : Result := v32 (.shr f imm) f (fun a b _ => shrVal imm a b) s
def execSar (f : Fields) (imm : Option Nat) (s : State) : Result := v32 (.sar f imm) f (fun a b _ => sarVal imm a b) s
def execRotl (f : Fields) (imm : Option Nat) (s : State) : Result :=
  v32 (.rotl f imm) f (fun a b _ => rotlVal imm a b) s
def execFshl (f : Fields) (rt : Bool) (imm : Option Nat) (s : State) : Result :=
  v32 (.fshl f rt imm) f (fun a b c => fshlVal rt imm a b c) s
def execBfx (f : Fields) (uns : Bool) (imm : Option (Nat × Nat)) (s : State) : Result :=
  v32 (.bfx f uns imm) f (fun a b _ => bfxVal uns imm a b) s
def execBfi (f : Fields) (imm : Option (Nat × Nat)) (s : State) : Result :=
  v32 (.bfi f imm) f (fun a b c => bfiVal imm a b c) s
def execPopc (f : Fields) (s : State) : Result := v32 (.popc f) f (fun a _ _ => popcVal a) s
def execClz (f : Fields) (s : State) : Result := v32 (.clz f) f (fun a _ _ => clzVal a) s
def execBrev (f : Fields) (s : State) : Result := v32 (.brev f) f (fun a _ _ => brevVal a) s

/-- sel in a lane: value and stored tag (R34, R201). -/
def selRes (f : Fields) (k : Nat) (rd : Rd) (l : Nat) : LaneRes :=
  let p := if wbit (val32 rd f.c l) k then src32 rd f.a l else src32 rd f.b l
  res1 l p.1 p.2
def execSel (f : Fields) (k : Nat) (s : State) : Result := vIssue (.sel f k) f (dstOf f.d .w32) (selRes f k) s

/-- mov in a lane: the bits and the stored tags (R34, R201). -/
def movRes (f : Fields) (w64 : Bool) (rd : Rd) (l : Nat) : LaneRes :=
  { lane := l, vals := if w64 then src64 rd f.a l else [src32 rd f.a l] }
def execMov (f : Fields) (w64 : Bool) (s : State) : Result :=
  vIssue (.mov f w64) f (dstOf f.d (if w64 then .w64 else .w32)) (movRes f w64) s

/-- The fields of a movi, which is unpredicated (R111). -/
def moviFields (d : Opnd) (u : Bool) (gap : Nat) : Fields :=
  ⟨d, .none, .none, .none, false, false, false, .none, 0, false, u, gap⟩
def moviRes (imm : Word) (w64 : Bool) (l : Nat) : LaneRes :=
  if w64 then res2 l (imm.signExtend 64) else res1 l imm 63
def execMovi (d : Opnd) (imm : Word) (u : Bool) (gap : Nat) (w64 : Bool) (s : State) : Result :=
  vIssue (.movi d imm u gap w64) (moviFields d u gap) (dstOf d (if w64 then .w64 else .w32))
    (fun _ l => moviRes imm w64 l) s

def execPrmt (f : Fields) (imm : Option Nat) (s : State) : Result :=
  v32 (.prmt f imm) f (fun a b c => prmtVal imm a b c) s
def execIclamp (f : Fields) (uns : Bool) (s : State) : Result :=
  v32 (.iclamp f uns) f (fun a b c => iclampVal uns a b c) s
def execLea (f : Fields) (uns chk : Bool) (sh : Nat) (s : State) : Result :=
  v64 (.lea f uns chk sh) f (fun rd l => leaVal uns chk sh (val64 rd f.a l) (val32 rd f.b l)) s
def execAdd64 (f : Fields) (uns chk : Bool) (s : State) : Result :=
  v64 (.add64 f uns chk) f (fun rd l => add64Val uns chk (val64 rd f.a l) (val64 rd f.b l)) s
def execSub64 (f : Fields) (uns chk : Bool) (s : State) : Result :=
  v64 (.sub64 f uns chk) f (fun rd l => sub64Val uns chk (val64 rd f.a l) (val64 rd f.b l)) s
def execCmp64 (f : Fields) (cc : ICc) (cmb : Cmb) (uns : Bool) (j : Nat) (s : State) : Result :=
  vIssue (.cmp64 f cc cmb uns j) f (bitDst f.d j 1 cmb)
    (fun rd l => resBit l (iccVal cc (extI uns (val64 rd f.a l)) (extI uns (val64 rd f.b l)))) s
def execShl64 (f : Fields) (imm : Option Nat) (s : State) : Result :=
  v64 (.shl64 f imm) f (fun rd l => (shl64Val imm (val64 rd f.a l) (val32 rd f.b l), 0)) s
def execShr64 (f : Fields) (ar : Bool) (imm : Option Nat) (s : State) : Result :=
  v64 (.shr64 f ar imm) f (fun rd l => (shr64Val ar imm (val64 rd f.a l) (val32 rd f.b l), 0)) s
def execMad64 (f : Fields) (uns chk : Bool) (s : State) : Result :=
  v64 (.mad64 f uns chk) f (fun rd l => mad64Val uns chk (val64 rd f.a l) (val32 rd f.b l) (val32 rd f.c l)) s

end Sys2Proof.Machine
end

