-- ==== Sys2Proof/Machine/Dispatch.lean ====
section
/-! DEFINITION. The meaning of every step of the device: one arm for each constructor of Instr, each one call. -/

namespace Sys2Proof.Machine

/-- What a step of the device does. -/
def exec (i : Instr) (s : State) : Host.Outcome State Fault Refusal :=
  match i with
  | .nopV gap => Sys2Proof.Machine.execNopV gap s
  | .nopM gap => Sys2Proof.Machine.execNopM gap s
  | .nopK gap => Sys2Proof.Machine.execNopK gap s
  | .nopC gap => Sys2Proof.Machine.execNopC gap s
  | .iadd f sat uns => Sys2Proof.Machine.execIadd f sat uns s
  | .isub f sat uns => Sys2Proof.Machine.execIsub f sat uns s
  | .iaddc f co sb k j => Sys2Proof.Machine.execIaddc f co sb k j s
  | .imul f sat uns => Sys2Proof.Machine.execImul f sat uns s
  | .imulhi f uns => Sys2Proof.Machine.execImulhi f uns s
  | .imad f sat uns => Sys2Proof.Machine.execImad f sat uns s
  | .imadw f uns => Sys2Proof.Machine.execImadw f uns s
  | .imin f uns => Sys2Proof.Machine.execImin f uns s
  | .imax f uns => Sys2Proof.Machine.execImax f uns s
  | .iabs f sat => Sys2Proof.Machine.execIabs f sat s
  | .isad f h sat uns => Sys2Proof.Machine.execIsad f h sat uns s
  | .idot4 f au bu sat => Sys2Proof.Machine.execIdot4 f au bu sat s
  | .icmp f cc cmb uns j => Sys2Proof.Machine.execIcmp f cc cmb uns j s
  | .bool3 f tbl => Sys2Proof.Machine.execBool3 f tbl s
  | .shl f imm => Sys2Proof.Machine.execShl f imm s
  | .shr f imm => Sys2Proof.Machine.execShr f imm s
  | .sar f imm => Sys2Proof.Machine.execSar f imm s
  | .rotl f imm => Sys2Proof.Machine.execRotl f imm s
  | .fshl f rt imm => Sys2Proof.Machine.execFshl f rt imm s
  | .bfx f uns imm => Sys2Proof.Machine.execBfx f uns imm s
  | .bfi f imm => Sys2Proof.Machine.execBfi f imm s
  | .popc f => Sys2Proof.Machine.execPopc f s
  | .clz f => Sys2Proof.Machine.execClz f s
  | .brev f => Sys2Proof.Machine.execBrev f s
  | .sel f k => Sys2Proof.Machine.execSel f k s
  | .mov f w64 => Sys2Proof.Machine.execMov f w64 s
  | .movi d imm u gap w64 => Sys2Proof.Machine.execMovi d imm u gap w64 s
  | .prmt f imm => Sys2Proof.Machine.execPrmt f imm s
  | .iclamp f uns => Sys2Proof.Machine.execIclamp f uns s
  | .lea f uns chk sh => Sys2Proof.Machine.execLea f uns chk sh s
  | .add64 f uns chk => Sys2Proof.Machine.execAdd64 f uns chk s
  | .sub64 f uns chk => Sys2Proof.Machine.execSub64 f uns chk s
  | .cmp64 f cc cmb uns j => Sys2Proof.Machine.execCmp64 f cc cmb uns j s
  | .shl64 f imm => Sys2Proof.Machine.execShl64 f imm s
  | .shr64 f ar imm => Sys2Proof.Machine.execShr64 f ar imm s
  | .mad64 f uns chk => Sys2Proof.Machine.execMad64 f uns chk s
  | .fadd f fr => Sys2Proof.Machine.execFadd f fr s
  | .fsub f fr => Sys2Proof.Machine.execFsub f fr s
  | .fmul f fr => Sys2Proof.Machine.execFmul f fr s
  | .ffma f fr np nc => Sys2Proof.Machine.execFfma f fr np nc s
  | .fmin f num ftz => Sys2Proof.Machine.execFmin f num ftz s
  | .fmax f num ftz => Sys2Proof.Machine.execFmax f num ftz s
  | .fcmp f cc cmb ftz j => Sys2Proof.Machine.execFcmp f cc cmb ftz j s
  | .fclass f d64 ftz => Sys2Proof.Machine.execFclass f d64 ftz s
  | .frint f fr ex => Sys2Proof.Machine.execFrint f fr ex s
  | .fscale f fr => Sys2Proof.Machine.execFscale f fr s
  | .fexpnE f ftz => Sys2Proof.Machine.execFexpnE f ftz s
  | .fexpnM f ftz => Sys2Proof.Machine.execFexpnM f ftz s
  | .dadd f fr => Sys2Proof.Machine.execDadd f fr s
  | .dmul f fr => Sys2Proof.Machine.execDmul f fr s
  | .dfma f fr np nc => Sys2Proof.Machine.execDfma f fr np nc s
  | .dcmp f cc cmb ftz j => Sys2Proof.Machine.execDcmp f cc cmb ftz j s
  | .dmin f num ftz => Sys2Proof.Machine.execDmin f num ftz s
  | .dmax f num ftz => Sys2Proof.Machine.execDmax f num ftz s
  | .hadd2 f rnd sat bf => Sys2Proof.Machine.execHadd2 f rnd sat bf s
  | .hmul2 f rnd sat bf => Sys2Proof.Machine.execHmul2 f rnd sat bf s
  | .hfma2 f rnd sat bf np nc => Sys2Proof.Machine.execHfma2 f rnd sat bf np nc s
  | .hcmp2 f cc cmb bf j => Sys2Proof.Machine.execHcmp2 f cc cmb bf j s
  | .hmin2 f bf num => Sys2Proof.Machine.execHmin2 f bf num s
  | .hmax2 f bf num => Sys2Proof.Machine.execHmax2 f bf num s
  | .rcp f ftz => Sys2Proof.Machine.execRcp f ftz s
  | .rsq f ftz => Sys2Proof.Machine.execRsq f ftz s
  | .sqrt f ftz => Sys2Proof.Machine.execSqrt f ftz s
  | .ex2 f ftz => Sys2Proof.Machine.execEx2 f ftz s
  | .lg2 f ftz => Sys2Proof.Machine.execLg2 f ftz s
  | .sin f ftz => Sys2Proof.Machine.execSin f ftz s
  | .cos f ftz => Sys2Proof.Machine.execCos f ftz s
  | .tanh f ftz => Sys2Proof.Machine.execTanh f ftz s
  | .drcp f ftz => Sys2Proof.Machine.execDrcp f ftz s
  | .cvt f fr dt st k => Sys2Proof.Machine.execCvt f fr dt st k s
  | .cvtscScale f dt => Sys2Proof.Machine.execCvtscScale f dt s
  | .cvtsc f dt => Sys2Proof.Machine.execCvtsc f dt s
  | .pack2 f => Sys2Proof.Machine.execPack2 f s
  | .pack4 f nib => Sys2Proof.Machine.execPack4 f nib s
  | .unpack f sx wid k => Sys2Proof.Machine.execUnpack f sx wid k s
  | .sigrd f => Sys2Proof.Machine.execSigrd f s
  | .sigwr f low => Sys2Proof.Machine.execSigwr f low s
  | .sigmin f => Sys2Proof.Machine.execSigmin f s
  | .nbr f fill dn w64 k => Sys2Proof.Machine.execNbr f fill dn w64 k s
  | .shflIdx f w64 => Sys2Proof.Machine.execShflIdx f w64 s
  | .shflXor f w64 m => Sys2Proof.Machine.execShflXor f w64 m s
  | .voteBallot f k => Sys2Proof.Machine.execVoteBallot f k s
  | .voteAny f k j cmb => Sys2Proof.Machine.execVoteAny f k j cmb s
  | .voteAll f k j cmb => Sys2Proof.Machine.execVoteAll f k j cmb s
  | .voteEq f k j cmb => Sys2Proof.Machine.execVoteEq f k j cmb s
  | .red f op ty => Sys2Proof.Machine.execRed f op ty s
  | .scan f op ty excl => Sys2Proof.Machine.execScan f op ty excl s
  | .matchLanes f w64 => Sys2Proof.Machine.execMatchLanes f w64 s
  | .ld f sz sx stm hook off => Sys2Proof.Machine.execLd f sz sx stm hook off s
  | .st f sz stm rc hook off => Sys2Proof.Machine.execSt f sz stm rc hook off s
  | .ldr f sz sx ca rc hook off => Sys2Proof.Machine.execLdr f sz sx ca rc hook off s
  | .lds f sz sx off => Sys2Proof.Machine.execLds f sz sx off s
  | .sts f sz off => Sys2Proof.Machine.execSts f sz off s
  | .ldt f sz stm hook off => Sys2Proof.Machine.execLdt f sz stm hook off s
  | .stt f sz stm hook off => Sys2Proof.Machine.execStt f sz stm hook off s
  | .ldw f sz sx hook off => Sys2Proof.Machine.execLdw f sz sx hook off s
  | .atom f op ty hook off => Sys2Proof.Machine.execAtom f op ty hook off s
  | .atoms f op ty hook off => Sys2Proof.Machine.execAtoms f op ty hook off s
  | .rld f sz sx stm hook off => Sys2Proof.Machine.execRld f sz sx stm hook off s
  | .rst f sz stm rc hook off => Sys2Proof.Machine.execRst f sz stm rc hook off s
  | .ratom f op ty hook off => Sys2Proof.Machine.execRatom f op ty hook off s
  | .fenceTeam f hold hook => Sys2Proof.Machine.execFenceTeam f hold hook s
  | .fencePair f hold hook => Sys2Proof.Machine.execFencePair f hold hook s
  | .fenceDev f hold hook => Sys2Proof.Machine.execFenceDev f hold hook s
  | .fenceFab f hold hook => Sys2Proof.Machine.execFenceFab f hold hook s
  | .afence f hold hook => Sys2Proof.Machine.execAfence f hold hook s
  | .icinv f hook => Sys2Proof.Machine.execIcinv f hook s
  | .pref f ca off => Sys2Proof.Machine.execPref f ca off s
  | .spmarkFull f hook => Sys2Proof.Machine.execSpmarkFull f hook s
  | .spmarkEmpty f hook => Sys2Proof.Machine.execSpmarkEmpty f hook s
  | .wqenq f j hook => Sys2Proof.Machine.execWqenq f j hook s
  | .wqdeq f poll hook => Sys2Proof.Machine.execWqdeq f poll hook s
  | .cpyIn f em stm hook => Sys2Proof.Machine.execCpyIn f em stm hook s
  | .cpyOut f stm rc hook => Sys2Proof.Machine.execCpyOut f stm rc hook s
  | .cpytIn f em stm hook => Sys2Proof.Machine.execCpytIn f em stm hook s
  | .cpytOut f stm rc hook => Sys2Proof.Machine.execCpytOut f stm rc hook s
  | .cpyg f em stm hook => Sys2Proof.Machine.execCpyg f em stm hook s
  | .cpys f red stm rc hook => Sys2Proof.Machine.execCpys f red stm rc hook s
  | .cpyfSp f em hook => Sys2Proof.Machine.execCpyfSp f em hook s
  | .cpyfMem f stm rc hook => Sys2Proof.Machine.execCpyfMem f stm rc hook s
  | .cpyw f em hook => Sys2Proof.Machine.execCpyw f em hook s
  | .cpyc f em hook => Sys2Proof.Machine.execCpyc f em hook s
  | .bsend f hook => Sys2Proof.Machine.execBsend f hook s
  | .brecv f hook => Sys2Proof.Machine.execBrecv f hook s
  | .bprobeSnd f hook => Sys2Proof.Machine.execBprobeSnd f hook s
  | .bprobeRcv f hook => Sys2Proof.Machine.execBprobeRcv f hook s
  | .bcancelSnd f hook => Sys2Proof.Machine.execBcancelSnd f hook s
  | .bcancelRcv f hook => Sys2Proof.Machine.execBcancelRcv f hook s
  | .mcfg f s32 tile rc cc hook => Sys2Proof.Machine.execMcfg f s32 tile rc cc hook s
  | .mloft f bt lf hook => Sys2Proof.Machine.execMloft f bt lf hook s
  | .mloftw f bt lf hook => Sys2Proof.Machine.execMloftw f bt lf hook s
  | .mlofth f lf hook => Sys2Proof.Machine.execMlofth f lf hook s
  | .mma f at_ tile lf row0 hook => Sys2Proof.Machine.execMma f at_ tile lf row0 hook s
  | .mmas f at_ tile lf row0 hook => Sys2Proof.Machine.execMmas f at_ tile lf row0 hook s
  | .mscl f cl lf hook => Sys2Proof.Machine.execMscl f cl lf hook s
  | .mdrainReg f tile row0 hook => Sys2Proof.Machine.execMdrainReg f tile row0 hook s
  | .mdrainScratch f fmt t z em tile hook => Sys2Proof.Machine.execMdrainScratch f fmt t z em tile hook s
  | .mzero f tile hook => Sys2Proof.Machine.execMzero f tile hook s
  | .mfence f hook => Sys2Proof.Machine.execMfence f hook s
  | .bra f t => Sys2Proof.Machine.execBra f t s
  | .brx f => Sys2Proof.Machine.execBrx f s
  | .call f t => Sys2Proof.Machine.execCall f t s
  | .callx f => Sys2Proof.Machine.execCallx f s
  | .ret f => Sys2Proof.Machine.execRet f s
  | .brp f t => Sys2Proof.Machine.execBrp f t s
  | .brany f t => Sys2Proof.Machine.execBrany f t s
  | .brall f t => Sys2Proof.Machine.execBrall f t s
  | .brsig f thr t => Sys2Proof.Machine.execBrsig f thr t s
  | .regang f t => Sys2Proof.Machine.execRegang f t s
  | .exit f => Sys2Proof.Machine.execExit f s
  | .yield f => Sys2Proof.Machine.execYield f s
  | .loop f step t => Sys2Proof.Machine.execLoop f step t s
  | .trap f n => Sys2Proof.Machine.execTrap f n s
  | .rte f => Sys2Proof.Machine.execRte f s
  | .syscIcb f hook => Sys2Proof.Machine.execSyscIcb f hook s
  | .sysc f n hook => Sys2Proof.Machine.execSysc f n hook s
  | .wait f hook => Sys2Proof.Machine.execWait f hook s
  | .waitAll f => Sys2Proof.Machine.execWaitAll f s
  | .hkadjUp f hook n => Sys2Proof.Machine.execHkadjUp f hook n s
  | .hkadjDn f hook n w => Sys2Proof.Machine.execHkadjDn f hook n w s
  | .bar f drain k => Sys2Proof.Machine.execBar f drain k s
  | .bara f drain k => Sys2Proof.Machine.execBara f drain k s
  | .barw f k => Sys2Proof.Machine.execBarw f k s
  | .sleepns f => Sys2Proof.Machine.execSleepns f s
  | .waitns f => Sys2Proof.Machine.execWaitns f s
  | .knock f hook => Sys2Proof.Machine.execKnock f hook s
  | .csrr f w64 csr => Sys2Proof.Machine.execCsrr f w64 csr s
  | .csrw f w64 csr => Sys2Proof.Machine.execCsrw f w64 csr s
  | .csrx f w64 csr => Sys2Proof.Machine.execCsrx f w64 csr s
  | .heartbeatTimeout core => Sys2Proof.Machine.execHeartbeatTimeout core s
  | .knockArrival src port bits => Sys2Proof.Machine.execKnockArrival src port bits s
  | .parserLookaheadRead qid => Sys2Proof.Machine.execParserLookaheadRead qid s
  | .parserSlotReread qid => Sys2Proof.Machine.execParserSlotReread qid s
  | .stalledQueueEvent qid => Sys2Proof.Machine.execStalledQueueEvent qid s
  | .packetIssue qid => Sys2Proof.Machine.execPacketIssue qid s
  | .wqUnitBind lid => Sys2Proof.Machine.execWqUnitBind lid s
  | .teamAdmission tid => Sys2Proof.Machine.execTeamAdmission tid s
  | .activeSetEntry wid => Sys2Proof.Machine.execActiveSetEntry wid s
  | .fetchLineArrival wid va => Sys2Proof.Machine.execFetchLineArrival wid va s
  | .mergeSelect core room => Sys2Proof.Machine.execMergeSelect core room s
  | .resultLanding wid seq => Sys2Proof.Machine.execResultLanding wid seq s
  | .hatchPushResume wid => Sys2Proof.Machine.execHatchPushResume wid s
  | .hatchPopResume wid => Sys2Proof.Machine.execHatchPopResume wid s
  | .hatchLoadEntryFill op => Sys2Proof.Machine.execHatchLoadEntryFill op s
  | .scratchAccessPerform wid seq => Sys2Proof.Machine.execScratchAccessPerform wid seq s
  | .scratchLineFullResume wid => Sys2Proof.Machine.execScratchLineFullResume wid s
  | .hookDrop wid h => Sys2Proof.Machine.execHookDrop wid h s
  | .homeAccessPerform op line => Sys2Proof.Machine.execHomeAccessPerform op line s
  | .loadDataArrival op => Sys2Proof.Machine.execLoadDataArrival op s
  | .storeCompletion op => Sys2Proof.Machine.execStoreCompletion op s
  | .l1LeaseExpiry core ctx line => Sys2Proof.Machine.execL1LeaseExpiry core ctx line s
  | .l2Eviction line => Sys2Proof.Machine.execL2Eviction line s
  | .refreshWindowEnd wid => Sys2Proof.Machine.execRefreshWindowEnd wid s
  | .tlbWalkComplete walk => Sys2Proof.Machine.execTlbWalkComplete walk s
  | .tlbInvalidate ctx va len => Sys2Proof.Machine.execTlbInvalidate ctx va len s
  | .cellarWrite place data => Sys2Proof.Machine.execCellarWrite place data s
  | .copyUnitMove op => Sys2Proof.Machine.execCopyUnitMove op s
  | .copyFinish op => Sys2Proof.Machine.execCopyFinish op s
  | .matrixOpPerform op => Sys2Proof.Machine.execMatrixOpPerform op s
  | .matrixOpFinish op => Sys2Proof.Machine.execMatrixOpFinish op s
  | .remoteRequestIngress r => Sys2Proof.Machine.execRemoteRequestIngress r s
  | .remoteReplyArrival op ans => Sys2Proof.Machine.execRemoteReplyArrival op ans s
  | .remoteTimeout op => Sys2Proof.Machine.execRemoteTimeout op s
  | .bulkRequestArrival r => Sys2Proof.Machine.execBulkRequestArrival r s
  | .bulkRequestRetry msg => Sys2Proof.Machine.execBulkRequestRetry msg s
  | .pullTokenGrant msg peer => Sys2Proof.Machine.execPullTokenGrant msg peer s
  | .tokenDataArrival tok off data => Sys2Proof.Machine.execTokenDataArrival tok off data s
  | .tokenExpiry tok => Sys2Proof.Machine.execTokenExpiry tok s
  | .orphanNoticeArrival msg => Sys2Proof.Machine.execOrphanNoticeArrival msg s
  | .bulkAckArrival msg units status => Sys2Proof.Machine.execBulkAckArrival msg units status s
  | .peerCancelArrival msg => Sys2Proof.Machine.execPeerCancelArrival msg s
  | .settlePoint wid seq => Sys2Proof.Machine.execSettlePoint wid seq s
  | .barrierRelease tid k => Sys2Proof.Machine.execBarrierRelease tid k s
  | .hookCreditCommit wid h n => Sys2Proof.Machine.execHookCreditCommit wid h n s
  | .waitRelease wid => Sys2Proof.Machine.execWaitRelease wid s
  | .timedWaitExpiry wid => Sys2Proof.Machine.execTimedWaitExpiry wid s
  | .wqEntryArrival unit => Sys2Proof.Machine.execWqEntryArrival unit s
  | .syscReply op v => Sys2Proof.Machine.execSyscReply op v s
  | .trapEntry wid => Sys2Proof.Machine.execTrapEntry wid s
  | .watchdogExpiry wid => Sys2Proof.Machine.execWatchdogExpiry wid s
  | .preemptRequest ctx cores => Sys2Proof.Machine.execPreemptRequest ctx cores s
  | .closetSave ctx => Sys2Proof.Machine.execClosetSave ctx s
  | .preemptRestore tid core spots => Sys2Proof.Machine.execPreemptRestore tid core spots s
  | .warpEnd wid => Sys2Proof.Machine.execWarpEnd wid s
  | .launchRetirement lid => Sys2Proof.Machine.execLaunchRetirement lid s
  | .fillerEnd core => Sys2Proof.Machine.execFillerEnd core s
  | .islandEnterNt core room k => Sys2Proof.Machine.execIslandEnterNt core room k s
  | .islandExitNt core room k => Sys2Proof.Machine.execIslandExitNt core room k s
  | .islandEnterRet core room k => Sys2Proof.Machine.execIslandEnterRet core room k s
  | .islandExitRet core room k => Sys2Proof.Machine.execIslandExitRet core room k s
  | .powerOnBoot img => Sys2Proof.Machine.execPowerOnBoot img s
  | .mailboxStore src dst mb msg => Sys2Proof.Machine.execMailboxStore src dst mb msg s
  | .mailboxAck core mb => Sys2Proof.Machine.execMailboxAck core mb s
  | .heartbeatWrite core => Sys2Proof.Machine.execHeartbeatWrite core s
  | .supervisorFatal core => Sys2Proof.Machine.execSupervisorFatal core s
  | .supervisorRelease core => Sys2Proof.Machine.execSupervisorRelease core s
  | .complexReset img => Sys2Proof.Machine.execComplexReset img s
  | .bootTimeoutPark => Sys2Proof.Machine.execBootTimeoutPark s
  | .parkedLaunchResume lost => Sys2Proof.Machine.execParkedLaunchResume lost s
  | .lockoutClear src => Sys2Proof.Machine.execLockoutClear src s
  | .queueCreate qid qbase qsz ctx slot key => Sys2Proof.Machine.execQueueCreate qid qbase qsz ctx slot key s
  | .contextEnable ctx => Sys2Proof.Machine.execContextEnable ctx s
  | .contextDisable ctx => Sys2Proof.Machine.execContextDisable ctx s
  | .teamPlacement lid core spots => Sys2Proof.Machine.execTeamPlacement lid core spots s
  | .hbmUncorrectableError block => Sys2Proof.Machine.execHbmUncorrectableError block s
  | .powerControllerPoison block => Sys2Proof.Machine.execPowerControllerPoison block s
  | .deferMap walk pa e => Sys2Proof.Machine.execDeferMap walk pa e s
  | .deferDecline walk => Sys2Proof.Machine.execDeferDecline walk s
  | .keySlotLoad slot key => Sys2Proof.Machine.execKeySlotLoad slot key s
  | .keySlotClear slot => Sys2Proof.Machine.execKeySlotClear slot s
  | .cellarWindowGrant ctx base len zp => Sys2Proof.Machine.execCellarWindowGrant ctx base len zp s
  | .windowEntryWrite win e => Sys2Proof.Machine.execWindowEntryWrite win e s
  | .routeChange src tgt via => Sys2Proof.Machine.execRouteChange src tgt via s
  | .linkFailure peer => Sys2Proof.Machine.execLinkFailure peer s
  | .unsupportedFrameDiscard peer => Sys2Proof.Machine.execUnsupportedFrameDiscard peer s
  | .uetPacketDrop port => Sys2Proof.Machine.execUetPacketDrop port s
  | .sv4Resume wid regs csrs => Sys2Proof.Machine.execSv4Resume wid regs csrs s
  | .sv4EnterHandler wid => Sys2Proof.Machine.execSv4EnterHandler wid s
  | .sv4EndLaunch wid => Sys2Proof.Machine.execSv4EndLaunch wid s
  | .coreFreeze core => Sys2Proof.Machine.execCoreFreeze core s
  | .spareMove move => Sys2Proof.Machine.execSpareMove move s
  | .teamReplace team core spots => Sys2Proof.Machine.execTeamReplace team core spots s
  | .clockTransition cluster ratio stop => Sys2Proof.Machine.execClockTransition cluster ratio stop s
  | .attributedEccError core room k lost => Sys2Proof.Machine.execAttributedEccError core room k lost s
  | .voltageMachineCheck wid => Sys2Proof.Machine.execVoltageMachineCheck wid s
  | .marginPlanInstall cluster maxRatio guardMv ntMv => Sys2Proof.Machine.execMarginPlanInstall cluster maxRatio guardMv ntMv s
  | .counterSnapshot acct core room => Sys2Proof.Machine.execCounterSnapshot acct core room s
  | .contextReassign ctx => Sys2Proof.Machine.execContextReassign ctx s
  | .controlRegisterWrite by' reg v => Sys2Proof.Machine.execControlRegisterWrite by' reg v s
  | .managementCancel lid => Sys2Proof.Machine.execManagementCancel lid s
  | .pageTableWrite pa e => Sys2Proof.Machine.execPageTableWrite pa e s
  | .preemptWithdraw ctx => Sys2Proof.Machine.execPreemptWithdraw ctx s

end Sys2Proof.Machine
end

