-- ==== Sys2Proof/Machine/Cycle.lean ====
section
/-! DEFINITION. The steps between the instructions: the syllables of a bundle under way, the beginning of a clock cycle with all that is
due in it (R4, R150, R155, R427, R429), and the placing of one instruction where the next step fetches it. -/

namespace Sys2Proof.Machine

/-! ## The syllables of a bundle -/

/-- The syllable at the head of the bundle under way, as the decoder reads it from its line. -/
def headInstr (s : State) (iss : Issue) : Option Instr :=
  (s.warp? iss.wid).bind fun w =>
    match decodeRaw (Raw.ofWord (lineSyl iss.img iss.syl)) w.nreg (hasPair s w) [] (iss.syl == iss.last) with
    | .ok i => some i
    | .error _ => none

/-- A bundle under way whose warp or syllable does not exist: taken away. No bundle that the merge stage picks is of this kind. -/
def dropIssue (s : State) : State := { s with issuing := s.issuing.drop 1 }

/-- After a syllable: on with its bundle, unless the syllable's checks have stopped it. -/
def afterSyllable (i : Instr) (s s' : State) : State := if s'.issuing.length = s.issuing.length then advanceIssue i s' else s'

/-! ## Clocks (R426, R427) -/

/-- A cluster's clock at base cycle `base`, and whether a clock cycle of it begins. -/
def Cluster.tick (c : Cluster) (base : Nat) : Cluster × Bool :=
  match c.stop with
  | some (til, ratio) =>
    if base < til then ({ c with ticked := false }, false)
    else ({ c with stop := none, ratio := ratio, epoch := c.epoch + 1, phase := 0, cycles := c.cycles + 1, ticked := true }, true)
  | none =>
    if 4096 ≤ c.phase + c.ratio then
      ({ c with phase := c.phase + c.ratio - 4096, cycles := c.cycles + 1, ticked := true }, true)
    else ({ c with phase := c.phase + c.ratio, ticked := false }, false)

/-- Whether the clock of a core's cluster has begun a clock cycle. -/
def tickedCore (ticked : List Bool) (core : Nat) : Bool := ticked.getD (core / 8) false

/-! ## Cores at the start of a clock cycle -/

/-- An island whose way back to guard band has ended (R430). -/
def Island.settle (ns : Nat) (i : Island) : Island :=
  match i.mode with
  | .nt (some e) => if e ≤ ns then { i with mode := .nom, lowNs := some ns } else i
  | .nt none | .nom | .ret _ => i

/-- A core at the start of a clock cycle: its banks free, its L1 lines that have been read out gone (R247). -/
def Core.begin' (ns : Nat) (c : Core) : Core :=
  { c with bankUse := [], islands := c.islands.map (Island.settle ns), l1 := c.l1.filter fun l => l.count = 0 || l.reads < l.count }

/-! ## Warps at the start of a clock cycle (R150, R418, R429) -/

/-- Whether a warp is frozen in this clock cycle whatever its own freezes are. -/
def heldStill (s : State) (w : Warp) : Bool := halted s w || islandsHold s w

/-- Whether a freeze lasts into a clock cycle. -/
def Freeze.lasts (cycle : Nat) (still : Bool) (f : Freeze) : Bool :=
  match f.why with
  | .timed til true => cycle < til || still
  | .timed til false => cycle ≤ til
  | .pop _ | .push _ | .line _ | .walk _ | .refresh _ => true

/-- Whether a freeze that ends now leaves its warp at the tick it stands at. -/
def Freeze.stands (cycle : Nat) (still : Bool) (f : Freeze) : Bool :=
  !f.lasts cycle still && (match f.why with
    | .timed _ retry => retry
    | .pop _ | .push _ | .line _ | .walk _ | .refresh _ => false)

/-- A warp at the start of a clock cycle: its freezes, its tick, the control-register writes that commit, the registers of which the
last use has passed, and the counts of its hooks as they stand. -/
def Warp.begin' (w : Warp) (cycle : Nat) (still : Bool) : Warp :=
  let fs := w.freezes.filter (Freeze.lasts cycle still)
  let frozen := still || !fs.isEmpty
  let tick := if frozen || w.freezes.any (Freeze.stands cycle still) then w.tick else w.tick + 1
  (Warp.commitCsrs { w with freezes := fs, frozen := frozen, tick := tick, recent := [], csrSeen := w.csr,
                            hooksSeen := w.hooks.map fun h => h.items.length } tick).applyKills tick

/-- Whether a warp's watchdog does not count: it is held, or not yet admitted (R419, R432). -/
def unwatched (s : State) (w : Warp) : Bool := held s w || (halted s w && !w.entering)

/-- The watchdog's count (R419): not while the warp is pre-empted, frozen with its core or stopped at sv4. -/
def Warp.watch (w : Warp) (held : Bool) (dns : Nat) : Warp :=
  if held then w else if w.csr.wdog = 0 then { w with wdogNs := 0 } else { w with wdogNs := w.wdogNs + dns }

/-- Whether a warp's clock cycle counts: its tick rises, or it is its tick 0, at which placement left it frozen (R150, R151). -/
def Warp.counts (old new : Warp) : Bool :=
  let placed (w : Warp) : Bool := w.freezes.contains ⟨12, .timed 0 true⟩
  old.tick < new.tick || (placed old && !placed new)

/-- Every warp of a core that begins a clock cycle; a counting clock cycle is charged (R442). -/
def beginWarps (s : State) (ticked : List Bool) (dns : Nat) : State :=
  s.warps.foldl (fun s e =>
    let w := e.2
    if w.ended then s
    else
      let w' := if tickedCore ticked w.core then w.begin' (coreCycle s w.core) (heldStill s w) else w
      let s := if Warp.counts w w' then charge s (ctxOf s w) 1 1 else s
      s.putWarp (w'.watch (unwatched s w) dns)) s

/-- The kind of energy that a clock cycle of an island takes. -/
def IslMode.energyKind : IslMode → Nat
  | .nom => 10
  | .nt _ => 11
  | .ret _ => 12

/-- Island energy of a clock cycle: of an island with warps to its context, and of one that recovers (R434), or is at retention voltage
and has none, to the device (R441). -/
def chargeIslands (s : State) (ticked : List Bool) : State :=
  let ws := s.warps.filter fun e => !e.2.ended && tickedCore ticked e.2.core && (match teamOf s e.2 with
    | some t => t.place != .saved
    | none => false)
  let on := (ws.flatMap fun e => e.2.islands.map fun k => (ctxOf s e.2, e.2.core, e.2.room, k)).eraseDups
  let s := on.foldl (fun s i =>
    let k := s.island i.2.1 i.2.2.1 i.2.2.2
    let n := Config.energy k.mode.energyKind (islandMv s i.2.1 i.2.2.1 i.2.2.2) (clusterOf s i.2.1).ratio
    if timens s < k.recoverNs then chargeDev s 2 n else charge s i.1 2 n) s
  let bare (core i : Nat) : Bool :=
    (s.island core (i / 4) (i % 4)).mode.isRet && !(on.any fun j => j.2 = (core, i / 4, i % 4))
  let n := ((List.range s.cores.length).filter (tickedCore ticked)).foldl (fun n c => n + ((List.range 16).filter (bare c)).length) 0
  if n = 0 then s else chargeDev s 2 (n * Config.energy 12 0 0)

/-- The refresh windows of the cellar that have begun by an instant (R256). -/
def refreshCount (ns : Nat) : Nat := (ns + 32000 - refwinOffset) / 2000

/-- The refresh windows that have begun since `old`, charged to the device (R441). -/
def chargeRefresh (s : State) (old : Nat) : State :=
  let n := refreshCount (timens s) - refreshCount old
  if n = 0 then s else chargeDev s 2 (n * Config.energy 13 0 0)

/-! ## Marks of scratchpad lines (R245, R299, R308) -/

/-- Lines marked full or empty. -/
def markLine (empty : List Nat) (l : Nat) (full : Bool) : List Nat :=
  if full then empty.filter (· ≠ l) else if empty.contains l then empty else empty ++ [l]

/-- The marks of a clock cycle committed at its end: an engine's full-marks, then clears by EM, then spmarks. -/
def Team.commitMarks (t : Team) : Team :=
  let put (cls : Nat) (e : List Nat) : List Nat :=
    (t.marks.filter fun m => m.2.1 = cls).foldl (fun e m => markLine e m.1 m.2.2) e
  { t with empty := put 2 (put 1 (put 0 t.empty)), marks := [] }

def beginTeams (s : State) (ticked : List Bool) : State :=
  s.teams.foldl (fun s e =>
    if e.2.marks.isEmpty || !(e.2.place == .saved || tickedCore ticked e.2.core) then s else s.putTeam e.2.commitMarks) s

/-! ## The steps of a clock cycle -/

/-- Warps that take part in a clock cycle: resident, admitted, on a core whose clock ticks. -/
def liveWarps (s : State) (ticked : List Bool) : List Warp :=
  (s.warps.filter fun e => !e.2.ended && tickedCore ticked e.2.core && (match teamOf s e.2 with
    | some t => t.admitted && t.place != .saved
    | none => false)).map Prod.snd

/-- The events that may end a warp's freezes. -/
def thawEvents (w : Warp) : List Instr :=
  (w.freezes.filterMap fun f => match f.why with
    | .pop _ => some (Instr.hatchPopResume w.wid)
    | .push _ => some (Instr.hatchPushResume w.wid)
    | .line _ => some (Instr.scratchLineFullResume w.wid)
    | .refresh _ => some (Instr.refreshWindowEnd w.wid)
    | .walk _ | .timed _ _ => none).eraseDups

/-- The events that may release a warp's paths. -/
def holdEvents (w : Warp) : List Instr :=
  let hs := w.slices.flatMap fun sl => (sl.paths ++ sl.waits.map Prod.snd).map Path.hold
  (if hs.any fun h => match h with
      | .hook _ _ | .hookAll => true
      | .none | .bar _ _ | .barw _ _ | .asleep _ _ | .wake _ _ _ => false then [Instr.waitRelease w.wid] else [])
    ++ (if hs.any fun h => match h with
      | .asleep _ _ => true
      | .none | .bar _ _ | .barw _ _ | .hook _ _ | .hookAll | .wake _ _ _ => false then [Instr.timedWaitExpiry w.wid] else [])

/-- The results of a warp that land, by landing tick and then issue order (R154). -/
def landEvents (w : Warp) : List Instr :=
  ((sortBy (fun f : Flight => f.land) (sortBy (fun f : Flight => f.seq) (w.flight.filter fun f => f.land ≤ w.tick))).map
    fun f => Instr.resultLanding w.wid f.seq)

/-- A warp's own events before issue: machine check, watchdog, and a trap on its way in. -/
def trapEvents (s : State) (w : Warp) : List Instr :=
  (if w.lost.isSome then [.voltageMachineCheck w.wid] else [])
    ++ (if w.overdue && !unwatched s w then [.watchdogExpiry w.wid] else [])
    ++ (if !w.stopped && (w.entering || !w.due.isEmpty || w.lost.isSome || w.overdue || w.flight.any fun f => f.land ≤ w.tick) then
          [.trapEntry w.wid] else [])

/-- The scratchpad accesses that are due, by core, room and issue order (R160, R161). -/
def scratchEvents (s : State) (ws : List Warp) : List Instr :=
  let due (w : Warp) (a : ScrAcc) : Bool :=
    w.entering || a.tick ≤ w.tick || (s.core w.core).frozen || (match teamOf s w with
      | some t => t.place == .halting
      | none => false)
  let all := ws.flatMap fun w => (w.scr.filter (due w)).map fun a => (4 * w.core + w.room, a.seq, w.wid)
  ((sortBy (fun e : Nat × Nat × Nat => e.1) (sortBy (fun e : Nat × Nat × Nat => e.2.1) all)).map
    fun e => Instr.scratchAccessPerform e.2.2 e.2.1)

/-- The rooms that hold warps. -/
def mergeEvents (ws : List Warp) : List Instr :=
  ((sortBy id (ws.map fun w => 4 * w.core + w.room)).eraseDups).map fun r => Instr.mergeSelect (r / 4) (r % 4)

/-- Settle points that may be reached, those of warps that have ended among them (R393). -/
def settleEvents (s : State) (ws : List Warp) : List Instr :=
  (ws ++ (s.warps.map Prod.snd).filter fun w => w.ended).flatMap fun w => w.settles.map fun x => .settlePoint w.wid x.seq

/-- Credits that arrive; also those of saved warps (R395). -/
def creditEvents (s : State) : List Instr :=
  (s.warps.filter fun e => !e.2.ended).flatMap fun e =>
    ((List.range 16).zip e.2.hooks).flatMap fun h =>
      (h.2.coming.filter fun p => p.1 ≤ coreCycle s e.2.core).map fun p => Instr.hookCreditCommit e.1 h.1 p.2

/-- Hooks that may drop, in the clock cycles of their warps' cores; also those of saved warps (R163, R318). -/
def dropEvents (s : State) (ticked : List Bool) : List Instr :=
  (s.warps.filter fun e => !e.2.ended && tickedCore ticked e.2.core).flatMap fun e =>
    (((List.range 16).zip e.2.hooks).filter fun h => !h.2.items.isEmpty).map fun h => Instr.hookDrop e.1 h.1

/-- Barriers with a phase open (R397). -/
def barrierEvents (s : State) : List Instr :=
  s.teams.flatMap fun e => (((List.range 16).zip e.2.barriers).filter fun b => b.2.isOpen).map fun b => .barrierRelease e.1 b.1

/-- Warps of which every lane has retired. -/
def endEvents (ws : List Warp) : List Instr :=
  (ws.filter fun w => (allLanes w.width &&& ~~~w.retired) == 0).map fun w => .warpEnd w.wid

/-- Contexts with halting teams. -/
def saveEvents (s : State) : List Instr :=
  ((s.teams.filterMap fun e => if e.2.place == .halting then some (launchT s e.2).ctx else none).eraseDups).map .closetSave

/-- Islands that must leave NT for a hint (R431). -/
def hintEvents (s : State) (ws : List Warp) : List Instr :=
  (ws.filter fun w => w.csr.islhint == 2).flatMap fun w =>
    (w.islands.filter fun k => (s.island w.core w.room k).mode == .nt none).map fun k => .islandExitNt w.core w.room k

/-- Leases that have ended (R246). -/
def leaseEvents (s : State) : List Instr :=
  ((List.range s.cores.length).zip s.cores).flatMap fun c =>
    (c.2.l1.filter fun l => l.fill + l.lease ≤ timens s).map fun l => .l1LeaseExpiry c.1 l.ctx l.va

/-- Supervisors whose heartbeat period has passed (R61). -/
def beatEvents (s : State) : List Instr :=
  (((List.range s.svs.length).zip s.svs).filter fun v => s.booted && !v.2.inReset && v.2.lastBeat + s.hbtoNs < timens s).map
    fun v => .heartbeatTimeout v.1

/-! ## The order of what is due (R377, R445) -/

/-- Place in the order of a warp's work: its core and room, and the primary before the secondary. -/
def opPlace (s : State) (o : Op) : Nat := warpPlace o.core (roomOf s o.wid) o.sec

/-- The class of a piece of work in the line order of a clock cycle, doubled: reads of warps and of engines, then writes of warps and
of engines. -/
def OpKind.lineClass : OpKind → Nat
  | .mem m => match m.kind with
    | .store | .storeTag | .atomic _ _ => 4
    | .load | .loadL1 | .loadTag | .pref _ | .cellar => 0
  | .copy c => if c.kind.writesMem && !c.readsTable then 5 else 1
  | .matrix _ => 1
  | .fence _ _ | .wqdeq _ _ | .sysc _ _ _ | .knock _ | .remote _ | .bsend _ | .brecv _ | .record _ _ _ => 0

def opOrder (s : State) (id : Nat) : Nat :=
  match tget s.ops id with
  | some o => o.kind.lineClass * 2 ^ 20 + opPlace s o + 1
  | none => 0

/-- The source of the data that a token asked for. -/
def tokenSrc (s : State) (tok : Nat) : Nat :=
  match (tget s.tokens tok).bind fun t => tget s.msgs t.msg with
  | some m => m.src
  | none => 0

/-- The place of an event among those of one clock cycle: reads before writes, and of each the warps, the engines, the fabric by
source and the supervisors by number (R377, R445); then knocks by port (R70), acknowledgements, which come before the drops of the
cycle (R373), and mailbox stores by sender (R59). It is 0 for an event that touches none of these. -/
def lineOrder (s : State) (i : Instr) : Nat :=
  match i with
  | .homeAccessPerform op _ | .copyUnitMove op | .matrixOpPerform op => opOrder s op
  | .remoteRequestIngress r => match r.kind with
    | .read _ _ => 2 * 2 ^ 20 + r.src
    | .write _ _ | .masked _ | .atomic _ _ => 6 * 2 ^ 20 + r.src
  | .pullTokenGrant msg (some _) => 2 * 2 ^ 20 + sendDev s msg
  | .tokenDataArrival tok _ _ => 6 * 2 ^ 20 + tokenSrc s tok
  | .launchRetirement _ => 7 * 2 ^ 20 + 2
  | .deferMap _ _ _ | .pageTableWrite _ _ | .cellarWrite _ _ => 7 * 2 ^ 20 + 3
  | .knockArrival _ port _ => 8 * 2 ^ 20 + port
  | .bulkAckArrival _ _ _ => 9 * 2 ^ 20
  | .mailboxStore src _ _ _ => 2 ^ 60 + src
  | _ => 0

/-- A line of code that arrives is there for the contexts that issue in the clock cycle (R108). -/
def isFetch : Instr → Bool
  | .fetchLineArrival _ _ => true
  | _ => false

/-- Whether engine work is that of a core whose cluster begins no clock cycle now (R427); work against a saved image waits for none. -/
def Op.stopped (s : State) (o : Op) : Bool :=
  !(clusterOf s o.core).ticked && !((opTeam s o).bind s.team?).any fun t => t.place == .saved

/-- Whether an event is engine work at the banks or the macros of a core that begins no clock cycle now. -/
def waitsForClock (s : State) (i : Instr) : Bool :=
  match i with
  | .matrixOpPerform op => (tget s.ops op).any (Op.stopped s)
  | .copyUnitMove op => (tget s.ops op).any fun o => o.stopped s && (copyOf o.kind).any fun c => c.usesScratch || c.isLoft
  | _ => false

/-- A request at the ingress: its source, and whether it reads. -/
def ingressOf (i : Instr) : Option (Nat × Bool) :=
  match i with
  | .remoteRequestIngress r => some (r.src, r.kind matches .read _ _)
  | _ => none

/-- Events divided into those of this clock cycle and those that stay. The reads of a clock cycle come before its writes (R377) and the
requests of one source keep their order (R361), so that a read behind a write of its source comes in the next clock cycle, and what
follows it too. `wrote` and `stop` are the sources of which a write is taken and of which no more is. -/
def splitDue (s : State) (now : Pend → Bool) (wrote stop : List Nat) : List Pend → List Pend × List Pend
  | [] => ([], [])
  | p :: ps =>
    let put (r : List Pend × List Pend) : List Pend × List Pend := (p :: r.1, r.2)
    let leave (r : List Pend × List Pend) : List Pend × List Pend := (r.1, p :: r.2)
    if !now p || waitsForClock s p.ev then leave (splitDue s now wrote stop ps)
    else match ingressOf p.ev with
      | none => put (splitDue s now wrote stop ps)
      | some (src, reads) =>
        if stop.contains src || (reads && wrote.contains src) then leave (splitDue s now wrote (src :: stop) ps)
        else put (splitDue s now (if reads then wrote else src :: wrote) stop ps)

/-- What is due now, and what stays: of the device's own events, and of those from outside that have a place in the order of the clock
cycle. -/
def duePending (s : State) : List Pend × List Pend := splitDue s (fun p => p.due ≤ s.base) [] [] s.pending
def dueInputs (s : State) : List Pend × List Pend := splitDue s (fun p => p.due ≤ s.base && lineOrder s p.ev ≠ 0) [] [] s.inputs
def dueNow (s : State) : List Instr := ((duePending s).1 ++ (dueInputs s).1).map Pend.ev

/-! ## The clock cycle -/

/-- The next base clock cycle begins: the clusters that tick, their cores and warps, and every step of the cycle in its order. -/
def beginCycle (s : State) : State :=
  let old := timens s
  let base := s.base + 1
  let cl := s.clusters.map fun c => c.tick base
  let ticked := cl.map Prod.snd
  let s := reclaim { s with base := base, clusters := cl.map Prod.fst, cycleId := s.nextId, fills := [] }
  let ns := timens s
  let fresh (p : Nat × Core) : Core := { (if tickedCore ticked p.1 then p.2.begin' ns else p.2) with engUse := [] }
  let s := keepBanks (releaseHeld { s with cores := ((List.range s.cores.length).zip s.cores).map fresh })
  let s := chargeRefresh (chargeIslands (beginWarps (beginTeams s ticked) ticked (ns - old)) ticked) old
  let ws := liveWarps s ticked
  let free := ws.filter fun w => !heldStill s w
  let evs :=
    leaseEvents s ++ free.flatMap thawEvents ++ free.flatMap holdEvents ++ free.flatMap landEvents ++ ws.flatMap (trapEvents s)
      ++ scratchEvents s ws ++ (dueNow s).filter isFetch ++ mergeEvents ws ++ settleEvents s ws
      ++ sortBy (lineOrder s) ((dueNow s).filter fun i => !isFetch i)
      ++ creditEvents s ++ dropEvents s ticked ++ barrierEvents s ++ endEvents ws ++ saveEvents s ++ hintEvents s ws ++ beatEvents s
  { s with
    agenda := evs, pending := (duePending s).2, inputs := (dueInputs s).2 }

/-- The first input that is due and has no place in the order of a clock cycle, and the state without it; the others come at their place
in a clock cycle. -/
def takeInput (s : State) : Option (Instr × State) :=
  match findPos (fun p => p.due ≤ s.base && lineOrder s p.ev = 0) s.inputs 0 with
  | some (n, p) => some (p.ev, { s with inputs := s.inputs.eraseIdx n })
  | none => none

/-! ## One instruction placed (log 16) -/

/-- The packet of the launch under which a placed instruction runs: one team of two W16 warps that form a hatch pair, 768 registers
each, 16 barriers, 384 KiB of scratchpad. -/
def placedPacket : Packet :=
  BitVec.ofNat 1024 0x30100E020000000100000001000000010000000000000000000000000000000000000000000000000000000000000001

/-- A syllable as the next bundle of warp 0 of a new team on core 0, already picked by the merge stage. -/
def placeSyllable (s : State) (w : Nat) : State :=
  let lid := s.nextId
  let l : Launch := { lid := lid, packet := placedPacket, qid := 0, pseq := 0, tstart := timens s, phase := .placing, next := 1 }
  let t : Team := { startTeam s l 0 with tid := lid + 1, lin := 0, admitted := true }
  let wp : Warp := { startWarp s l (lid + 2) (lid + 1) 0 0 (0, 0) with apos := some 0 }
  let iss : Issue := { wid := lid + 2, slices := [0, 1, 2, 3], lanes := allLanes 16, tick := 0, seq0 := lid + 3, pc := 0, img := w,
                       first := 0, syl := 0, last := 0, primary := true, gap := 0, fresh0 := s.fresh }
  { ((s.putLaunch l).putTeam t).putWarp wp with issuing := iss :: s.issuing, nextId := lid + 3, fresh := s.fresh + 8 }

end Sys2Proof.Machine
end

