-- ==== Sys2Proof/Machine/Step.lean ====
section
/-! DEFINITION. One step of the device: the next syllable of the bundle under way, else the next step of this clock cycle, else an
input that is due, else the next clock cycle. -/

namespace Sys2Proof.Machine

/-- One step. -/
def step (s : State) : Host.Outcome State Fault Refusal :=
  match s.issuing with
  | iss :: _ =>
    match headInstr s iss with
    | some i =>
      match exec i s with
      | .next s' => .next (afterSyllable i s s')
      | .fault f => .fault f
      | .refused r => .refused r
    | none => .next (dropIssue s)
  | [] =>
    match s.agenda with
    | i :: rest => exec i { s with agenda := rest }
    | [] =>
      match takeInput s with
      | some (i, s') => exec i s'
      | none => .next (beginCycle s)

/-- The state with an instruction where the next step fetches it: its bits above `nbits` are zero. -/
def State.withFetchWord (s : State) (nbits w : Nat) : State := placeSyllable s (w % 2 ^ min nbits 96)

end Sys2Proof.Machine
end

