-- ==== Sys2Proof/Safety.lean ====
section
/-! DEFINITION. The terms claims are stated in: the canonical form of the memories, when a syllable may issue, what a step leaves as
it was, and how a result is put in flight. -/

namespace Sys2Proof.Machine

/-! ## The canonical form of the memories (log 6, 7) -/

/-- HBM and the cellar hold their bytes in the canonical form. -/
def Memory.wf (s : State) : Bool := cwf s.hbm && cwf s.cellar

/-- Every team's scratchpad holds its bytes in the canonical form. -/
def Scratch.wf (s : State) : Bool := s.teams.all fun e => cwf e.2.scratch

/-- A byte of a team's scratchpad (R242). -/
def scratchByte (s : State) (tid a : Nat) : Byte :=
  match s.team? tid with
  | some t => cget t.scratch a
  | none => 0

/-! ## When a syllable issues -/

/-- The syllable `i` stands at the head of the bundle `iss` of warp `w`, its hook would not pass 63 (R162), and every hatch it pops
has a complete entry (R260). -/
structure Ready (i : Instr) (s : State) (iss : Issue) (w : Warp) : Prop where
  head : s.issuing.head? = some iss
  warp : s.warp? iss.wid = some w
  key : w.wid = iss.wid
  hooks : ∀ h n, raisesOf i = some (h, n) → w.hookCount h + n ≤ 63
  hatches : ∀ f t h, i.fields = some f → s.team? w.team = some t → h ∈ popList f → (headEntry t (popKey w h) s.base).isSome = true

/-! ## What a step leaves as it was -/

/-- Every byte of memory, scratchpad and cellar, which bytes are undefined or poisoned, and every tile and macro is as before. -/
structure MemKept (s t : State) : Prop where
  bytes : ∀ a, byteAt t a = byteAt s a
  undefined : t.undefined = s.undefined
  poison : t.poison = s.poison
  cellar : ∀ a, cget t.cellar a = cget s.cellar a
  scratch : ∀ tid a, scratchByte t tid a = scratchByte s tid a
  engines : ∀ c, (t.core c).engine = (s.core c).engine

/-- Every warp but one is as before. -/
def OthersKept (s t : State) (wid : Nat) : Prop := ∀ k, k ≠ wid → t.warp? k = s.warp? k

/-! ## Results in flight (R154) -/

/-- The state in which `i` has issued: its result is in flight to land `latency` ticks after the issue tick, in the lanes it is
enabled in, and nothing else of the warp has changed but the record of which operands are being written. -/
def Lands (i : Instr) (f : Fields) (dst : Dst) (comp : Rd → Nat → LaneRes) (s : State) (iss : Issue) (w : Warp) : Prop :=
  let rd := rdOf i s w iss
  let en := enabled rd f
  ∃ t w', exec i s = .next t ∧ t.warp? w.wid = some w'
    ∧ w' = { w with
        flight := w.flight ++ [⟨s.nextId, iss.tick + latency i w.width, BitVec.ofNat 64 iss.pc, dst, en, evalRes rd f (comp rd)⟩]
        lastWr := w'.lastWr }
    ∧ OthersKept s t w.wid ∧ MemKept s t

end Sys2Proof.Machine
end

