-- ==== Sys2Proof/Certificates/Slice0/Obligations.lean ====
section
/-! DEFINITION. The statements for the provers, in the terms of Safety.lean; the tables of this file say, from the rules of spec/, what
each instruction computes, apart from how the model computes it. -/

namespace Sys2Proof.Claims
open Sys2Proof.Machine

/-! ## Integer and address instructions -/

/-- ext(x): the exact integer of a bit pattern, signed or unsigned (R191). -/
def ext {n : Nat} (uns : Bool) (x : BitVec n) : Int := if uns then (x.toNat : Int) else x.toInt

/-- The low 32 bits of an exact result, or its clamp to s32, or to z32 when UNS is 1 (R15, R191). -/
def word (sat uns : Bool) (x : Int) : Word :=
  match sat, uns with
  | false, _ => BitVec.ofInt 32 x
  | true, false => BitVec.ofInt 32 (max (-2147483648) (min x 2147483647))
  | true, true => BitVec.ofInt 32 (max 0 (min x 4294967295))

/-- Byte i of a word, or half i (R194). -/
def byteOf (a : Word) (i : Nat) : BitVec 8 := a.extractLsb' (8 * i) 8
def halfOf (a : Word) (i : Nat) : BitVec 16 := a.extractLsb' (16 * i) 16

/-- The distance of two integers. -/
def dist (x y : Int) : Int := max (x - y) (y - x)

/-- The result of the 32-bit integer arithmetic of R192 to R195, from the values of A, B and C. -/
def wordOp : Instr → Option (Fields × (Word → Word → Word → Word))
  | .iadd f sat uns => some (f, fun a b _ => word sat uns (ext uns a + ext uns b))
  | .isub f sat uns => some (f, fun a b _ => word sat uns (ext uns a - ext uns b))
  | .iaddc f false sb k _ =>
    some (f, fun a b c => a + (if sb then ~~~b else b) + (if c.getLsbD k then 1 else 0))
  | .imul f sat uns => some (f, fun a b _ => word sat uns (ext uns a * ext uns b))
  | .imulhi f uns => some (f, fun a b _ => BitVec.ofInt 32 (ext uns a * ext uns b / 4294967296))
  | .imad f sat uns => some (f, fun a b c => word sat uns (ext uns a * ext uns b + ext uns c))
  | .imin f uns => some (f, fun a b _ => if ext uns a ≤ ext uns b then a else b)
  | .imax f uns => some (f, fun a b _ => if ext uns a ≥ ext uns b then a else b)
  | .iabs f sat => some (f, fun a _ _ => word sat false (max a.toInt (-a.toInt)))
  | .isad f false sat uns => some (f, fun a b c => word sat uns (ext uns c
      + dist (ext uns (byteOf a 0)) (ext uns (byteOf b 0)) + dist (ext uns (byteOf a 1)) (ext uns (byteOf b 1))
      + dist (ext uns (byteOf a 2)) (ext uns (byteOf b 2)) + dist (ext uns (byteOf a 3)) (ext uns (byteOf b 3))))
  | .isad f true sat uns => some (f, fun a b c => word sat uns (ext uns c
      + dist (ext uns (halfOf a 0)) (ext uns (halfOf b 0)) + dist (ext uns (halfOf a 1)) (ext uns (halfOf b 1))))
  | .idot4 f au bu sat => some (f, fun a b c => word sat false (c.toInt
      + ext au (byteOf a 0) * ext bu (byteOf b 0) + ext au (byteOf a 1) * ext bu (byteOf b 1)
      + ext au (byteOf a 2) * ext bu (byteOf b 2) + ext au (byteOf a 3) * ext bu (byteOf b 3)))
  | .iclamp f uns => some (f, fun a b c =>
      let m := if ext uns a ≥ ext uns b then a else b
      if ext uns m ≤ ext uns c then m else c)
  | _ => none

/-- Bit k of a 64-bit number whose low and high words are given. -/
def pairBit (lo hi : Word) (k : Nat) : Bool := if k < 32 then lo.getLsbD k else hi.getLsbD (k - 32)

/-- The word whose bit i is `p i`. -/
def ofBits (p : Nat → Bool) : Word := BitVec.ofNat 32 ((List.range 32).foldl (fun n i => n + (p i).toNat * 2 ^ i) 0)

/-- bool3: bit s of tbl, A the least significant selector (R197). -/
def bool3Op (t : Byte) (a b c : Word) : Word :=
  ofBits fun i => t.getLsbD ((a.getLsbD i).toNat + 2 * (b.getLsbD i).toNat + 4 * (c.getLsbD i).toNat)

/-- The shifts and rotates (R198): the amount from X with IMM set, else from B, of fshl from C. -/
def shiftOp : Instr → Option (Fields × (Word → Word → Word → Word))
  | .shl f imm => some (f, fun a b _ => let m := imm.getD b.toNat; if 32 ≤ m then 0 else BitVec.ofNat 32 (a.toNat * 2 ^ m))
  | .shr f imm => some (f, fun a b _ => let m := imm.getD b.toNat; if 32 ≤ m then 0 else BitVec.ofNat 32 (a.toNat / 2 ^ m))
  | .sar f imm => some (f, fun a b _ =>
      let m := imm.getD b.toNat
      if 32 ≤ m then (if a.getLsbD 31 then 0xFFFFFFFF else 0) else BitVec.ofInt 32 (a.toInt / 2 ^ m))
  | .rotl f imm => some (f, fun a b _ =>
      let m := imm.getD b.toNat % 32
      BitVec.ofNat 32 (a.toNat * 2 ^ m + a.toNat / 2 ^ (32 - m)))
  | .fshl f rt imm => some (f, fun a b c =>
      let n := min (imm.getD c.toNat) 32
      let w := a.toNat * 2 ^ 32 + b.toNat
      BitVec.ofNat 32 (if rt then w / 2 ^ n else w * 2 ^ n / 2 ^ 32))
  | _ => none

/-- The bitfield instructions (R199). -/
def fieldOp : Instr → Option (Fields × (Word → Word → Word → Word))
  | .bfx f uns imm => some (f, fun a b _ =>
      let pl := imm.getD (b.toNat % 256, b.toNat / 256 % 256)
      let n := min pl.2 (32 - pl.1)
      let v := a.toNat / 2 ^ pl.1 % 2 ^ n
      if 32 ≤ pl.1 ∨ pl.2 = 0 then 0
      else if uns ∨ v < 2 ^ (n - 1) then BitVec.ofNat 32 v
      else BitVec.ofInt 32 ((v : Int) - 2 ^ n))
  | .bfi f imm => some (f, fun a b c =>
      let pl := imm.getD (b.toNat % 256, b.toNat / 256 % 256)
      let n := min pl.2 (32 - pl.1)
      let base := if imm.isSome then b else c
      if 32 ≤ pl.1 ∨ pl.2 = 0 then base
      else BitVec.ofNat 32 (base.toNat / 2 ^ (pl.1 + n) * 2 ^ (pl.1 + n) + a.toNat % 2 ^ n * 2 ^ pl.1 + base.toNat % 2 ^ pl.1))
  | _ => none

/-- The counts, the reversal and the permutation of bytes (R200). -/
def countOp : Instr → Option (Fields × (Word → Word → Word → Word))
  | .popc f => some (f, fun a _ _ => BitVec.ofNat 32 ((List.range 32).countP fun i => a.getLsbD i))
  | .clz f => some (f, fun a _ _ => if a = 0 then 32 else BitVec.ofNat 32 (31 - Nat.log2 a.toNat))
  | .brev f => some (f, fun a _ _ => ofBits fun i => a.getLsbD (31 - i))
  | .prmt f imm => some (f, fun a b c => ofBits fun i =>
      let q := (imm.getD c.toNat) / 16 ^ (i / 8) % 16
      pairBit a b (8 * (q % 8) + (if 8 ≤ q then 7 else i % 8)))
  | _ => none

/-- The exact value of an address instruction and whether it is checked (R202, R203), in a lane. -/
def addrOp : Instr → Option (Fields × Bool × (Rd → Nat → Int))
  | .lea f uns chk sh => some (f, chk, fun rd l => (val64 rd f.a l).toNat + ext uns (val32 rd f.b l) * 2 ^ sh)
  | .add64 f uns chk => some (f, chk, fun rd l => (val64 rd f.a l).toNat + ext uns (val64 rd f.b l))
  | .sub64 f uns chk => some (f, chk, fun rd l => (val64 rd f.a l).toNat - ext uns (val64 rd f.b l))
  | .mad64 f uns chk =>
    some (f, chk, fun rd l => (val64 rd f.a l).toNat + ext uns (val32 rd f.b l) * ext uns (val32 rd f.c l))
  | .imadw f uns => some (f, false, fun rd l => ext uns (val32 rd f.a l) * ext uns (val32 rd f.b l) + (val64 rd f.c l).toNat)
  | .shl64 f imm => some (f, false, fun rd l => (val64 rd f.a l).toNat * 2 ^ min (imm.getD (val32 rd f.b l).toNat) 64)
  | .shr64 f ar imm =>
    some (f, false, fun rd l => ext (!ar) (val64 rd f.a l) / 2 ^ min (imm.getD (val32 rd f.b l).toNat) 64)
  | _ => none

/-- A condition on two integers (R188, R196). -/
def holds (cc : ICc) (x y : Int) : Prop :=
  match cc with
  | .eq => x = y | .ne => x ≠ y | .lt => x < y | .le => x ≤ y | .gt => x > y | .ge => x ≥ y

/-- The bit of a bit form, its position and its combine, and when it is 1 (R192, R196). -/
def flagOp : Instr → Option (Fields × Nat × Cmb × (Rd → Nat → Prop))
  | .icmp f cc cmb uns j => some (f, j, cmb, fun rd l => holds cc (ext uns (val32 rd f.a l)) (ext uns (val32 rd f.b l)))
  | .cmp64 f cc cmb uns j => some (f, j, cmb, fun rd l => holds cc (ext uns (val64 rd f.a l)) (ext uns (val64 rd f.b l)))
  | .iaddc f true sb k j => some (f, j, .set, fun rd l =>
      let b := val32 rd f.b l
      4294967296 ≤ (val32 rd f.a l).toNat + (if sb then ~~~b else b).toNat + (if (val32 rd f.c l).getLsbD k then 1 else 0))
  | _ => none

end Sys2Proof.Claims

open Sys2Proof Sys2Proof.Machine Sys2Proof.Claims

/-- R192 to R195: the 32-bit integer arithmetic instructions issue, and their result, of tag 63 (R189), is in flight in every
enabled lane. -/
def Obligations.IntegerArithmeticResults : Prop :=
  ∀ i f op, wordOp i = some (f, op) → ∀ s iss w, Ready i s iss w →
    Lands i f (.regs f.d.num 1) (fun rd l => res1 l (op (val32 rd f.a l) (val32 rd f.b l) (val32 rd f.c l)) 63) s iss w

/-- R197: every bit of the result of bool3 is the bit of its truth table that the three input bits select. -/
def Obligations.TruthTableResults : Prop :=
  ∀ f t s iss w, Ready (.bool3 f t) s iss w →
    Lands (.bool3 f t) f (.regs f.d.num 1) (fun rd l => res1 l (bool3Op t (val32 rd f.a l) (val32 rd f.b l) (val32 rd f.c l)) 63) s iss w

/-- R198: the shifts, the rotate and the funnel shift, by an amount from X or from a register, of 32 and more too. -/
def Obligations.ShiftResults : Prop :=
  ∀ i f op, shiftOp i = some (f, op) → ∀ s iss w, Ready i s iss w →
    Lands i f (.regs f.d.num 1) (fun rd l => res1 l (op (val32 rd f.a l) (val32 rd f.b l) (val32 rd f.c l)) 63) s iss w

/-- R199: bfx and bfi, with a field that is empty, lies outside the register or is cut at bit 31. -/
def Obligations.BitfieldResults : Prop :=
  ∀ i f op, fieldOp i = some (f, op) → ∀ s iss w, Ready i s iss w →
    Lands i f (.regs f.d.num 1) (fun rd l => res1 l (op (val32 rd f.a l) (val32 rd f.b l) (val32 rd f.c l)) 63) s iss w

/-- R200: popc, clz, brev and prmt. -/
def Obligations.CountAndPermuteResults : Prop :=
  ∀ i f op, countOp i = some (f, op) → ∀ s iss w, Ready i s iss w →
    Lands i f (.regs f.d.num 1) (fun rd l => res1 l (op (val32 rd f.a l) (val32 rd f.b l) (val32 rd f.c l)) 63) s iss w

/-- R193, R202, R203: the 64-bit results: the low 64 bits of the exact value, and a lane out of range marked for the address-overflow
fault when the form is checked. R190, R192, R196: the bit forms put one bit in flight, for bit j of D, with its combine. -/
def Obligations.AddressAndBitResults : Prop :=
  (∀ i f chk x, addrOp i = some (f, chk, x) → ∀ s iss w, Ready i s iss w →
    Lands i f (.regs f.d.num 2)
      (fun rd l => res2 l (BitVec.ofInt 64 (x rd l)) (if chk && (decide (x rd l < 0) || decide (2 ^ 64 ≤ x rd l)) then fAO else 0)) s iss w)
  ∧ (∀ i f j cmb p, flagOp i = some (f, j, cmb, p) → ∀ s iss w, Ready i s iss w →
    ∃ b : Rd → Nat → Bool, Lands i f (.bits f.d.num j 1 cmb) (fun rd l => resBit l (b rd l)) s iss w
      ∧ ∀ rd l, b rd l = true ↔ p rd l)

/-- R201: sel and mov move a value with its stored tag, mov.64 both words with both tags, and movi fills every active lane with its
immediate, sign-extended over the pair when W64 is set, of tag 63. -/
def Obligations.MoveResults : Prop :=
  (∀ f k s iss w, Ready (.sel f k) s iss w →
    Lands (.sel f k) f (.regs f.d.num 1)
      (fun rd l => { lane := l, vals := [if (val32 rd f.c l).getLsbD k then src32 rd f.a l else src32 rd f.b l] }) s iss w)
  ∧ (∀ f s iss w, Ready (.mov f false) s iss w →
    Lands (.mov f false) f (.regs f.d.num 1) (fun rd l => { lane := l, vals := [src32 rd f.a l] }) s iss w)
  ∧ (∀ f s iss w, Ready (.mov f true) s iss w →
    Lands (.mov f true) f (.regs f.d.num 2) (fun rd l => { lane := l, vals := src64 rd f.a l }) s iss w)
  ∧ (∀ d imm u gap s iss w, Ready (.movi d imm u gap false) s iss w →
    Lands (.movi d imm u gap false) (moviFields d u gap) (.regs d.num 1) (fun _ l => res1 l imm 63) s iss w)
  ∧ (∀ d imm u gap s iss w, Ready (.movi d imm u gap true) s iss w →
    Lands (.movi d imm u gap true) (moviFields d u gap) (.regs d.num 2)
      (fun _ l => { lane := l, vals := [(imm, 63), (if imm.msb then 0xFFFFFFFF else 0, 63)] }) s iss w)
  ∧ ∃ gap, decodeTableWord 96 0x06C09FFCFF00000000000000 = some (.movi (.reg 9) 0x3FC00000 false gap false)

/-! ## Floating-point, conversion and significance instructions -/

namespace Sys2Proof.Claims
open Sys2Proof.Machine

/-- A float source as a value, subnormals read as zeros under FTZ (R24), and its stored tag. -/
def fval (d64 ftz : Bool) (rd : Rd) (o : Opnd) (l : Nat) : Fv := fread d64 ftz (fsrc d64 rd o l).1

/-- The effective tag of a float source (R30). -/
def trust (d64 : Bool) (rd : Rd) (o : Opnd) (l : Nat) : Eff := effTag d64 (fsrc d64 rd o l).2

/-- The full tag of f32 and f64 (R29), and a tag cut to it. -/
def full (d64 : Bool) : Nat := if d64 then 53 else 24
def cut (d64 : Bool) (x : Int) : Tag := BitVec.ofNat 6 (max 0 (min x (full d64))).toNat

/-- The tag of a result by what it would be if it were a number that has not overflowed (R34's last row). -/
def numTag (res : Fv) (ovf : Bool) (t : Tag) : Tag := if res.isNan || res.isInf || ovf then 0 else t

/-- The tag of a sum of two values with their effective tags (R31): the result as written, and whether it overflowed and is inexact. -/
def sumTag (d64 : Bool) (a b : Fv × Eff) (res : Fv) (ovf inexact : Bool) : Tag :=
  numTag res ovf (match a.2, b.2, res.e? with
    | .exact, .exact, _ => if inexact then BitVec.ofNat 6 (full d64) else 62
    | .bits m, .exact, none => if a.1.isZero then BitVec.ofNat 6 m else 0
    | .exact, .bits n, none => if b.1.isZero then BitVec.ofNat 6 n else 0
    | .bits m, .bits n, none => if a.1.isZero && b.1.isZero then BitVec.ofNat 6 (min m n) else 0
    | .bits m, .exact, some e => cut d64 (e - (a.1.e?.getD e - m))
    | .exact, .bits n, some e => cut d64 (e - (b.1.e?.getD e - n))
    | .bits m, .bits n, some e => cut d64 (e - max (a.1.e?.getD e - m) (b.1.e?.getD e - n)))

/-- The trust of an exact product (R32). -/
def productTrust (d64 : Bool) : Eff → Eff → Eff
  | .exact, .exact => .exact
  | .exact, .bits n => .bits n
  | .bits m, .exact => .bits m
  | .bits m, .bits n =>
    if m = full d64 ∧ n = full d64 then .bits (full d64) else if m = full d64 ∨ n = full d64 then .bits (min m n) else .bits (min m n - 1)

/-- The tag that a trust gives a number; an exact one has the full tag where rounding changed the value. -/
def trustTag (d64 : Bool) (inexact : Bool) : Eff → Tag
  | .exact => if inexact then BitVec.ofNat 6 (full d64) else 62
  | .bits n => BitVec.ofNat 6 (min n (full d64))

/-- Whether rounding an exact value under RND and SAT changes it (R30). -/
def changes (d64 : Bool) (fr : Fr) (v : Fv) : Bool := ((fmtD d64).ofFv fr.rnd fr.sat false v).flags &&& fNX != 0

/-- What a floating-point instruction computes: the exact value that it rounds once, and the tag of a result that is a number, from that
result and whether it overflowed. -/
structure FloatRes where
  exact : Rd → Nat → Fv
  tag : Rd → Nat → Fv → Bool → Tag

/-- A sum of two values, a product, and a sum of a product and a value, with their tags (R31 to R33). -/
def sumOf (d64 : Bool) (fr : Fr) (x y : Rd → Nat → Fv × Eff) : FloatRes where
  exact rd l := (x rd l).1.add fr.rnd (y rd l).1
  tag rd l res ovf := sumTag d64 (x rd l) (y rd l) res ovf (changes d64 fr ((x rd l).1.add fr.rnd (y rd l).1))
def productOf (d64 : Bool) (fr : Fr) (x y : Rd → Nat → Fv × Eff) : FloatRes where
  exact rd l := (x rd l).1.mul (y rd l).1
  tag rd l res ovf := numTag res ovf (match productTrust d64 (x rd l).2 (y rd l).2 with
    | .exact => if changes d64 fr ((x rd l).1.mul (y rd l).1) then BitVec.ofNat 6 (full d64) else 62
    | .bits n => BitVec.ofNat 6 n)
def fusedOf (d64 : Bool) (fr : Fr) (x y z : Rd → Nat → Fv × Eff) : FloatRes where
  exact rd l := (x rd l).1.fma fr.rnd (y rd l).1 (z rd l).1
  tag rd l res ovf := sumTag d64 ((x rd l).1.mul (y rd l).1, productTrust d64 (x rd l).2 (y rd l).2) (z rd l) res ovf
    (changes d64 fr ((x rd l).1.fma fr.rnd (y rd l).1 (z rd l).1))

/-- A source, negated or not, with its trust. -/
def source (d64 ftz neg : Bool) (o : Opnd) (rd : Rd) (l : Nat) : Fv × Eff := ((fval d64 ftz rd o l).negIf neg, trust d64 rd o l)

/-- The floating-point instructions of R210, R215 and R216: fields, whether it is a d-form, its RND, SAT and FTZ, and what it computes. -/
def floatOp : Instr → Option (Fields × Bool × Fr × FloatRes)
  | .fadd f fr => some (f, false, fr, sumOf false fr (source false fr.ftz false f.a) (source false fr.ftz false f.b))
  | .fsub f fr => some (f, false, fr, sumOf false fr (source false fr.ftz false f.a) (source false fr.ftz true f.b))
  | .fmul f fr => some (f, false, fr, productOf false fr (source false fr.ftz false f.a) (source false fr.ftz false f.b))
  | .ffma f fr np nc =>
    some (f, false, fr, fusedOf false fr (source false fr.ftz np f.a) (source false fr.ftz false f.b) (source false fr.ftz nc f.c))
  | .dadd f fr => some (f, true, fr, sumOf true fr (source true fr.ftz false f.a) (source true fr.ftz false f.b))
  | .dmul f fr => some (f, true, fr, productOf true fr (source true fr.ftz false f.a) (source true fr.ftz false f.b))
  | .dfma f fr np nc =>
    some (f, true, fr, fusedOf true fr (source true fr.ftz np f.a) (source true fr.ftz false f.b) (source true fr.ftz nc f.c))
  | .fscale f fr =>
    let v (rd : Rd) (l : Nat) : Fv := match fval false fr.ftz rd f.a l with
      | .fin neg m e => .fin neg m (e + (val32 rd f.b l).toInt)
      | v => v
    some (f, false, fr, ⟨v, fun rd l res ovf => numTag res ovf (trustTag false (changes false fr (v rd l)) (trust false rd f.a l))⟩)
  | .fexpnM f ftz =>
    let v (rd : Rd) (l : Nat) : Fv := match fval false ftz rd f.a l with
      | .fin neg m e => .fin neg m (if m = 0 then e else -(Nat.log2 m : Int))
      | v => v
    some (f, false, ⟨.rn, false, false⟩, ⟨v, fun rd l res _ => numTag res false (trustTag false false (trust false rd f.a l))⟩)
  | _ => none

/-- The two elements of a packed instruction: the exact value each is rounded from (R217, R218). -/
def halfOp : Instr → Option (Fields × Bool × Rnd × Bool × (Fv → Fv → Fv → Fv))
  | .hadd2 f rnd sat bf => some (f, bf, rnd, sat, fun a b _ => a.add rnd b)
  | .hmul2 f rnd sat bf => some (f, bf, rnd, sat, fun a b _ => a.mul b)
  | .hfma2 f rnd sat bf np nc => some (f, bf, rnd, sat, fun a b c => (a.negIf np).fma rnd b (c.negIf nc))
  | _ => none

/-- The minimum and maximum instructions: fields, d-form, maximum, NUM, FTZ (R211). -/
def minMaxOp : Instr → Option (Fields × Bool × Bool × Bool × Bool)
  | .fmin f num ftz => some (f, false, false, num, ftz)
  | .fmax f num ftz => some (f, false, true, num, ftz)
  | .dmin f num ftz => some (f, true, false, num, ftz)
  | .dmax f num ftz => some (f, true, true, num, ftz)
  | _ => none

/-- How two values compare: none when one is a NaN (R212). -/
def order (a b : Fv) : Option Ordering := if a.isNan || b.isNan then none else some (a.cmp b)

/-- A float condition (R206, R212). -/
def fholds (cc : FCc) (o : Option Ordering) : Bool :=
  match cc with
  | .eq => o == some .eq | .ne => o != some .eq | .lt => o == some .lt | .le => o == some .lt || o == some .eq
  | .gt => o == some .gt | .ge => o == some .gt || o == some .eq | .un => o == none | .ord => o != none
  | .ltu => o == none || o == some .lt | .leu => o == none || o == some .lt || o == some .eq
  | .gtu => o == none || o == some .gt | .geu => o == none || o == some .gt || o == some .eq

/-- When a comparison raises NV: a signalling NaN, or a NaN under lt, le, gt or ge (R212). -/
def cmpNv (cc : FCc) (a b : Fv) : Bool :=
  a.isSig || b.isSig || ((a.isNan || b.isNan) && (cc == .lt || cc == .le || cc == .gt || cc == .ge))

/-- The class bit of a value (R213); `sub` says that it is subnormal. -/
def classBit (sub : Bool) : Fv → Nat
  | .nan true => 8
  | .nan false => 9
  | .inf true => 0
  | .inf false => 7
  | .fin true m _ => if m = 0 then 3 else if sub then 2 else 1
  | .fin false m _ => if m = 0 then 4 else if sub then 5 else 6

/-- The special functions (R219). -/
def sfuOp : Instr → Option (Fields × SfuFn × Bool)
  | .rcp f ftz => some (f, .rcp, ftz)
  | .rsq f ftz => some (f, .rsq, ftz)
  | .sqrt f ftz => some (f, .sqrt, ftz)
  | .ex2 f ftz => some (f, .ex2, ftz)
  | .lg2 f ftz => some (f, .lg2, ftz)
  | .sin f ftz => some (f, .sin, ftz)
  | .cos f ftz => some (f, .cos, ftz)
  | .tanh f ftz => some (f, .tanh, ftz)
  | _ => none

/-- What a special function gives for a NaN, an infinity or a zero: its code and flags (R219). -/
def sfuSpecial (fn : SfuFn) : Fv → Option (Nat × Flags)
  | .nan s => some (0x7FC00000, if s then fNV else 0)
  | .inf false => some (match fn with
      | .rcp | .rsq => (0, 0) | .sqrt | .ex2 | .lg2 => (0x7F800000, 0)
      | .sin | .cos => (0x7FC00000, fNV) | .tanh => (0x3F800000, 0))
  | .inf true => some (match fn with
      | .rcp => (0x80000000, 0) | .ex2 => (0, 0) | .tanh => (0xBF800000, 0)
      | .rsq | .sqrt | .lg2 | .sin | .cos => (0x7FC00000, fNV))
  | .fin neg 0 _ => some (match fn with
      | .rcp => (if neg then 0xFF800000 else 0x7F800000, fDZ) | .rsq => (if neg then 0xFF800000 else 0x7F800000, 0)
      | .sqrt | .sin | .tanh => (if neg then 0x80000000 else 0, 0) | .ex2 | .cos => (0x3F800000, 0)
      | .lg2 => (0xFF800000, fDZ))
  | .fin true _ _ => match fn with
      | .rsq | .sqrt | .lg2 => some (0x7FC00000, fNV)
      | _ => none
  | .fin false _ _ => none

/-- A float source of a conversion as a value: f32 and f64 under FTZ (R24, R221). -/
def cvtSource (sf : Fmt) (wide ftz : Bool) (code : Nat) : Fv := sf.decode (if wide then sf.flushIn ftz code else code)

/-- The tag of a conversion to f32 or f64 (R34), from the stored tag of its source and whether rounding changed the value. -/
def cvtTrust (dt st : EType) (t : Tag) (res : Fv) (ovf inexact : Bool) : Tag :=
  numTag res ovf (match st with
    | .f32 | .f64 => trustTag (dt = .f64) inexact (effTag (st = .f64) t)
    | .sc8 => 62
    | .f16 => 11 | .bf16 => 8 | .e5m2 => 3 | .e4m3 => 4 | .e2m1 => 2
    | _ => if inexact then BitVec.ofNat 6 (full (dt = .f64)) else 62)

/-- The packing and significance instructions, whose result is a word with a tag (R223, R225 to R227). -/
def packOp : Instr → Option (Fields × (Rd → Nat → Word × Tag))
  | .pack2 f => some (f, fun rd l => ((val32 rd f.b l).extractLsb' 0 16 ++ (val32 rd f.a l).extractLsb' 0 16, 63))
  | .pack4 f false => some (f, fun rd l =>
      ((val32 rd f.c l).extractLsb' 0 16 ++ (val32 rd f.b l).extractLsb' 0 8 ++ (val32 rd f.a l).extractLsb' 0 8, 63))
  | .pack4 f true => some (f, fun rd l =>
      ((val32 rd f.c l).extractLsb' 0 24 ++ (val32 rd f.b l).extractLsb' 0 4 ++ (val32 rd f.a l).extractLsb' 0 4, 63))
  | .sigrd f => some (f, fun rd l => ((src32 rd f.a l).2.setWidth 32, 63))
  | .sigwr f false => some (f, fun rd l => (val32 rd f.a l, storeTag ((val32 rd f.b l).setWidth 6)))
  | .sigwr f true => some (f, fun rd l =>
      let b : Tag := (val32 rd f.b l).setWidth 6
      (val32 rd f.a l, storeTag (if (src32 rd f.a l).2.toNat < b.toNat then (src32 rd f.a l).2 else b)))
  | _ => none

/-- A rational number from sign, significand and exponent. -/
def rat (neg : Bool) (m : Nat) (e : Int) : ℚ := (if neg then -1 else 1) * m * (2 : ℚ) ^ e

/-- A result is a real number rounded to nearest (R22, R219): unless it overflowed, or FTZ flushed it, its value lies within half a unit in
the last place of that number, and NX says whether it differs. -/
def nearest (fm : Fmt) (ftz : Bool) (r : Rounded) (x : ℝ) : Prop :=
  r.ovf = false → ftz = false ∨ r.flags &&& fUF = 0 → ∃ neg m e q, fm.decode r.code = .fin neg m e
    ∧ (q = fm.emin - fm.fbits ∨ (2 : ℝ) ^ (q + fm.fbits) ≤ |x|) ∧ |(rat neg m e : ℝ) - x| ≤ (2 : ℝ) ^ q / 2
    ∧ (r.flags &&& fNX = 0 ↔ (rat neg m e : ℝ) = x)

end Sys2Proof.Claims

open Sys2Proof Sys2Proof.Machine Sys2Proof.Claims

/-- R210, R215, R216: a floating-point instruction issues, and the result in flight is the exact value rounded once under its RND, SAT and
FTZ, with the flags of that rounding and the tag of R31 to R34: that of a sum, of a product, or of its input, and 0 for an infinite or NaN
result and one that overflowed. R217, R218: the packed additions,
products and fused products issue; each element is its own exact value rounded once, the flags are those of both, and the tag is 63. -/
def Obligations.FloatArithmeticResults : Prop :=
  (∀ i f d64 fr x, floatOp i = some (f, d64, fr, x) → ∀ s iss w, Ready i s iss w →
    ∃ tag : Rd → Nat → Tag,
      Lands i f (.regs f.d.num (if d64 then 2 else 1)) (fun rd l =>
        let r := (fmtD d64).ofFv fr.rnd fr.sat fr.ftz (x.exact rd l)
        { lane := l, flags := r.flags, checked := true
          vals := if d64 then [(BitVec.ofNat 32 r.code, tag rd l), (BitVec.ofNat 32 (r.code / 2 ^ 32), 63)]
            else [(BitVec.ofNat 32 r.code, tag rd l)] }) s iss w
      ∧ ∀ rd l, let r := (fmtD d64).ofFv fr.rnd fr.sat fr.ftz (x.exact rd l)
        let res := (fmtD d64).decode r.code
        tag rd l = x.tag rd l res r.ovf ∧ (res.isNan || res.isInf → tag rd l = 0))
  ∧ (∀ i f bf rnd sat op, halfOp i = some (f, bf, rnd, sat, op) → ∀ s iss w, Ready i s iss w →
    Lands i f (.regs f.d.num 1) (fun rd l =>
      let el (k : Nat) : Rounded := (fmtH bf).ofFv rnd sat false
        (op ((fmtH bf).decode ((val32 rd f.a l).toNat / 65536 ^ k % 65536)) ((fmtH bf).decode ((val32 rd f.b l).toNat / 65536 ^ k % 65536))
          ((fmtH bf).decode ((val32 rd f.c l).toNat / 65536 ^ k % 65536)))
      { lane := l, flags := (el 0).flags ||| (el 1).flags, vals := [(BitVec.ofNat 32 ((el 0).code + 65536 * (el 1).code), 63)] }) s iss w)

/-- R21, R22: the rounding of an exact magnitude m × 2^e to a multiple of 2^q is exact when the flag is clear; otherwise the multiple is
within half a unit to nearest, and even where both neighbours are as near, and the neighbour on the side of RND under a directed
rounding. -/
def Obligations.RoundingIsCorrect : Prop :=
  ∀ r neg m e q, let n := roundAt r neg m e q
    let err : ℚ := (n.1 : ℚ) * 2 ^ q - (m : ℚ) * 2 ^ e
    (n.2 = false ↔ err = 0) ∧ |err| < 2 ^ q
    ∧ (r = .rn → |err| ≤ 2 ^ q / 2) ∧ (r = .rn → |err| = 2 ^ q / 2 → n.1 % 2 = 0) ∧ (r = .rz → err ≤ 0) ∧ (r = .rd → if neg then 0 ≤ err else err ≤ 0)
    ∧ (r = .ru → if neg then err ≤ 0 else 0 ≤ err)

/-- R211: fmin, fmax, dmin and dmax issue. Without NUM a NaN input gives the canonical NaN; with NUM one NaN input gives the other input,
two give the canonical NaN; two numbers give one of them, which no input passes, the first where they are alike. The tag is the stored tag
of the input given, and 0 for a NaN or an infinity (R34). A signalling NaN raises NV. R211, R218: hmin2 and hmax2
issue by the same rules for each element, and no tag but 63 is written; NV is raised by a signalling NaN in either element. R212: the float comparisons issue; each
element's bit is its condition and its flag NV is raised by a signalling NaN, or by a NaN under lt, le, gt and ge. hcmp2 writes bit j from
element 0 and bit j + 1 from element 1. -/
def Obligations.MinMaxAndCompareResults : Prop :=
  (∀ i f d64 isMax num ftz, minMaxOp i = some (f, d64, isMax, num, ftz) → ∀ s iss w, Ready i s iss w →
    ∃ code : Rd → Nat → Nat, ∃ tag : Rd → Nat → Tag, ∃ fl : Rd → Nat → Flags,
      Lands i f (.regs f.d.num (if d64 then 2 else 1)) (fun rd l =>
        { lane := l, flags := fl rd l
          vals := if d64 then [(BitVec.ofNat 32 (code rd l), tag rd l), (BitVec.ofNat 32 (code rd l / 2 ^ 32), 63)]
            else [(BitVec.ofNat 32 (code rd l), tag rd l)] }) s iss w
      ∧ ∀ rd l, let fm := fmtD d64
        let ca := fm.flushIn ftz (fsrc d64 rd f.a l).1
        let cb := fm.flushIn ftz (fsrc d64 rd f.b l).1
        let a := fm.decode ca
        let b := fm.decode cb
        (fl rd l = if a.isSig || b.isSig then fNV else 0)
        ∧ ((a.isNan || b.isNan) && !num || (a.isNan && b.isNan) → code rd l = fm.nan ∧ tag rd l = 0)
        ∧ (num → a.isNan → !b.isNan → code rd l = cb ∧ tag rd l = if b.isInf then 0 else (fsrc d64 rd f.b l).2)
        ∧ (num → !a.isNan → b.isNan → code rd l = ca ∧ tag rd l = if a.isInf then 0 else (fsrc d64 rd f.a l).2)
        ∧ (!a.isNan → !b.isNan → (code rd l = ca ∨ code rd l = cb)
            ∧ (if (if isMax then a.below b else b.below a) then
                code rd l = cb ∧ tag rd l = (if b.isInf then 0 else (fsrc d64 rd f.b l).2)
              else code rd l = ca ∧ tag rd l = if a.isInf then 0 else (fsrc d64 rd f.a l).2)
            ∧ (isMax → (fm.decode (code rd l)).below a = false ∧ (fm.decode (code rd l)).below b = false)
            ∧ (!isMax → a.below (fm.decode (code rd l)) = false ∧ b.below (fm.decode (code rd l)) = false)))
  ∧ (∀ i f bf isMax num, (i = .hmin2 f bf num ∧ isMax = false ∨ i = .hmax2 f bf num ∧ isMax = true) → ∀ s iss w, Ready i s iss w →
    ∃ e : Rd → Nat → Nat → Nat, ∃ fl : Rd → Nat → Flags,
      Lands i f (.regs f.d.num 1)
        (fun rd l => { lane := l, vals := [(BitVec.ofNat 32 (e rd l 0 + 65536 * e rd l 1), 63)], flags := fl rd l }) s iss w
      ∧ ∀ rd l, let ca (k : Nat) := (val32 rd f.a l).toNat / 65536 ^ k % 65536
        let cb (k : Nat) := (val32 rd f.b l).toNat / 65536 ^ k % 65536
        let sig (k : Nat) := ((fmtH bf).decode (ca k)).isSig || ((fmtH bf).decode (cb k)).isSig
        fl rd l = (if sig 0 || sig 1 then fNV else 0)
        ∧ ∀ k, k < 2 →
          let a := (fmtH bf).decode (ca k)
          let b := (fmtH bf).decode (cb k)
          let r := (fmtH bf).decode (e rd l k)
          (!num && (a.isNan || b.isNan) || (a.isNan && b.isNan) → e rd l k = (fmtH bf).nan)
          ∧ (num → a.isNan → !b.isNan → e rd l k = cb k) ∧ (num → !a.isNan → b.isNan → e rd l k = ca k)
          ∧ (!a.isNan → !b.isNan → (e rd l k = ca k ∨ e rd l k = cb k)
              ∧ (isMax → r.below a = false ∧ r.below b = false) ∧ (!isMax → a.below r = false ∧ b.below r = false)))
  ∧ ((∀ f cc cmb ftz j s iss w, Ready (.fcmp f cc cmb ftz j) s iss w →
    Lands (.fcmp f cc cmb ftz j) f (.bits f.d.num j 1 cmb) (fun rd l =>
      resBit l (fholds cc (order (fval false ftz rd f.a l) (fval false ftz rd f.b l)))
        (if cmpNv cc (fval false ftz rd f.a l) (fval false ftz rd f.b l) then fNV else 0)) s iss w)
  ∧ (∀ f cc cmb ftz j s iss w, Ready (.dcmp f cc cmb ftz j) s iss w →
    Lands (.dcmp f cc cmb ftz j) f (.bits f.d.num j 1 cmb) (fun rd l =>
      resBit l (fholds cc (order (fval true ftz rd f.a l) (fval true ftz rd f.b l)))
        (if cmpNv cc (fval true ftz rd f.a l) (fval true ftz rd f.b l) then fNV else 0)) s iss w)
  ∧ (∀ f cc cmb bf j s iss w, Ready (.hcmp2 f cc cmb bf j) s iss w →
    Lands (.hcmp2 f cc cmb bf j) f (.bits f.d.num j 2 cmb) (fun rd l =>
      let a (k : Nat) := (fmtH bf).decode ((val32 rd f.a l).toNat / 65536 ^ k % 65536)
      let b (k : Nat) := (fmtH bf).decode ((val32 rd f.b l).toNat / 65536 ^ k % 65536)
      { lane := l
        vals := [(BitVec.ofNat 32 ((fholds cc (order (a 0) (b 0))).toNat + 2 * (fholds cc (order (a 1) (b 1))).toNat), 63)]
        flags := if cmpNv cc (a 0) (b 0) || cmpNv cc (a 1) (b 1) then fNV else 0 }) s iss w))

/-- R219: the special functions issue. For a NaN, an infinity, a zero, and a negative number where they have no value, they give what the
table of R219 lists; a result that is no NaN and not infinite carries at most 22 trustworthy bits (R34). rcp, rsq and sqrt of any other
number give its reciprocal, reciprocal root or root rounded to nearest; ex2 of an integer with a normal result, and lg2 of a power of two,
are exact; sin and tanh give an argument below 2^−12 as it is. R219: drcp issues and writes a pair; a NaN gives the canonical NaN, an
infinity a zero of its sign, a zero an infinity of its sign with DZ; any other number gives its reciprocal rounded to nearest, which
carries at most 51 trustworthy bits (R34). -/
def Obligations.SpecialFunctionResults : Prop :=
  (∀ i f fn ftz, sfuOp i = some (f, fn, ftz) → ∀ s iss w, Ready i s iss w →
    ∃ r : Rd → Nat → Rounded, ∃ tag : Rd → Nat → Tag,
      Lands i f (.regs f.d.num 1) (fun rd l =>
        { lane := l, vals := [(BitVec.ofNat 32 (r rd l).code, tag rd l)], flags := (r rd l).flags, checked := true }) s iss w
      ∧ ∀ rd l, (tag rd l).toNat ≤ 22
        ∧ (∀ c fl, sfuSpecial fn (fval false ftz rd f.a l) = some (c, fl) → (r rd l).code = c ∧ (r rd l).flags = fl)
        ∧ ∀ neg m e, fval false ftz rd f.a l = .fin neg m e → m ≠ 0 →
          let x := rat neg m e
          (fn = .rcp → nearest fmtF32 ftz (r rd l) (1 / x : ℚ))
          ∧ (fn = .rsq → neg = false → nearest fmtF32 ftz (r rd l) (1 / Real.sqrt x))
          ∧ (fn = .sqrt → neg = false → nearest fmtF32 ftz (r rd l) (Real.sqrt x))
          ∧ (fn = .ex2 → ∀ n : Int, x = n → -126 ≤ n → n ≤ 127 → (r rd l).code = (n + 127).toNat * 2 ^ 23 ∧ (r rd l).flags = 0)
          ∧ (fn = .lg2 → ∀ n : Int, x = 2 ^ n → r rd l = fmtF32.ofFv .rn false ftz (.fin (n < 0) n.natAbs 0))
          ∧ (fn = .sin ∨ fn = .tanh → |x| < 1 / 2 ^ 12 → (r rd l).code = fmtF32.flushIn ftz (fsrc false rd f.a l).1))
  ∧ (∀ f ftz s iss w, Ready (.drcp f ftz) s iss w →
    ∃ r : Rd → Nat → Rounded, ∃ tag : Rd → Nat → Tag,
      Lands (.drcp f ftz) f (.regs f.d.num 2) (fun rd l =>
        { lane := l, vals := [(BitVec.ofNat 32 (r rd l).code, tag rd l), (BitVec.ofNat 32 ((r rd l).code / 2 ^ 32), 63)]
          flags := (r rd l).flags, checked := true }) s iss w
      ∧ ∀ rd l, match fval true ftz rd f.a l with
        | .nan sg => (r rd l).code = 0x7FF8000000000000 ∧ (r rd l).flags = if sg then fNV else 0
        | .inf neg => (r rd l).code = (if neg then 0x8000000000000000 else 0) ∧ (r rd l).flags = 0
        | .fin neg 0 _ => (r rd l).code = (if neg then 0xFFF0000000000000 else 0x7FF0000000000000) ∧ (r rd l).flags = fDZ
        | .fin neg m e => (tag rd l).toNat ≤ 51 ∧ nearest fmtF64 ftz (r rd l) (1 / rat neg m e : ℚ))

/-- R213: fclass issues and sets exactly the one bit of the class of A, a subnormal being a zero under FTZ; it raises no flag. R214, R216,
R220 to R222, R224, R227: frint, fexpn.e, cvt, both cvtsc forms, unpack and sigmin issue and put their result in flight: frint rounds to
an integer under RND, raises NX only with EX, and keeps the trust of A; cvt rounds a float or an integer once to a float, a float to an
integer within its range, with NV for a NaN and outside it, and wraps or clamps an integer, with the tag of R34. R223, R225, R226:
pack2, pack4, sigrd and sigwr issue; a packed word has tag 63, sigwr keeps the value of A and stores a tag. -/
def Obligations.ConversionResults : Prop :=
  (∀ f d64 ftz s iss w, Ready (.fclass f d64 ftz) s iss w →
    Lands (.fclass f d64 ftz) f (.regs f.d.num 1) (fun rd l =>
      let c := (fsrc d64 rd f.a l).1
      res1 l (BitVec.ofNat 32 (2 ^ classBit (decide (c / 2 ^ (fmtD d64).fbits % 2 ^ (fmtD d64).ebits = 0)) (fval d64 ftz rd f.a l))) 63) s iss w)
  ∧ ((∀ f fr ex s iss w, Ready (.frint f fr ex) s iss w →
    ∃ r : Rd → Nat → Rounded, ∃ tag : Rd → Nat → Tag,
      Lands (.frint f fr ex) f (.regs f.d.num 1) (fun rd l =>
        { lane := l, vals := [(BitVec.ofNat 32 (r rd l).code, tag rd l)], flags := (r rd l).flags, checked := true }) s iss w
      ∧ ∀ rd l, (!ex → (r rd l).flags &&& fNX = 0)
        ∧ (∀ neg m e, fval false fr.ftz rd f.a l = .fin neg m e → 0 ≤ e → r rd l = fmtF32.ofFv fr.rnd fr.sat fr.ftz (.fin neg m e))
        ∧ (∀ neg m e, fval false fr.ftz rd f.a l = .fin neg m e →
          let n := roundAt fr.rnd neg m e 0
          (r rd l).code = (fmtF32.ofFv fr.rnd fr.sat fr.ftz (if n.2 then .fin neg n.1 0 else .fin neg m e)).code
            ∧ (r rd l).flags = (if ex && n.2 then fNX else 0) ∧ tag rd l = trustTag false n.2 (trust false rd f.a l))
        ∧ (∀ neg, fval false fr.ftz rd f.a l = .inf neg → r rd l = fmtF32.ofFv fr.rnd fr.sat fr.ftz (.inf neg) ∧ tag rd l = 0)
        ∧ (∀ sg, fval false fr.ftz rd f.a l = .nan sg → r rd l = ⟨0x7FC00000, if sg then fNV else 0, false⟩ ∧ tag rd l = 0))
  ∧ (∀ f ftz s iss w, Ready (.fexpnE f ftz) s iss w →
    Lands (.fexpnE f ftz) f (.regs f.d.num 1) (fun rd l =>
      match fval false ftz rd f.a l with
      | .nan sg => { lane := l, vals := [(0x80000000, 63)], flags := if sg then fNV else 0 }
      | .inf _ => { lane := l, vals := [(0x7FFFFFFF, 63)], flags := 0 }
      | .fin _ m e => { lane := l, vals := [(if m = 0 then 0x80000001 else BitVec.ofInt 32 ((Nat.log2 m : Int) + e), 63)], flags := 0 }) s iss w)
  ∧ (∀ f fr dt st k s iss w, Ready (.cvt f fr dt st k) s iss w →
    ∃ r : Rd → Nat → Rounded, ∃ tag : Rd → Nat → Tag,
      Lands (.cvt f fr dt st k) f (.regs f.d.num (if dt = .f64 then 2 else 1)) (fun rd l =>
        { lane := l, flags := (r rd l).flags, checked := dt = .f32 || dt = .f64
          vals := if dt = .f64 then [(BitVec.ofNat 32 (r rd l).code, tag rd l), (BitVec.ofNat 32 ((r rd l).code / 2 ^ 32), 63)]
            else [(BitVec.ofNat 32 (r rd l).code, tag rd l)] }) s iss w
      ∧ ∀ rd l, let code := (fsrc (st = .f64) rd f.a l).1 / 2 ^ (st.bits * k) % 2 ^ st.bits
        (∀ x y, fmtOf st = none → st ≠ .sc8 → fmtOf dt = none → x = (if etSigned st then sextN st.bits code else (code : Int)) →
          y = (if fr.sat then max (etMin dt) (min x (etMax dt)) else x) → r rd l = ⟨intCode dt y, 0, false⟩)
        ∧ (∀ df, fmtOf st = none → st ≠ .sc8 → fmtOf dt = some df →
          let x : Int := if etSigned st then sextN st.bits code else code
          r rd l = df.ofFv fr.rnd fr.sat (fr.ftz && (dt = .f32 || dt = .f64)) (.fin (x < 0) x.natAbs 0))
        ∧ (∀ sf df, fmtOf st = some sf → fmtOf dt = some df →
          let x := cvtSource sf (st = .f32 || st = .f64) fr.ftz code
          r rd l = if dt = .e2m1 ∧ x.isNan then ⟨0, fNV, false⟩ else df.ofFv fr.rnd fr.sat (fr.ftz && (dt = .f32 || dt = .f64)) x)
        ∧ (∀ sf, fmtOf st = some sf → fmtOf dt = none → dt ≠ .sc8 →
          match cvtSource sf (st = .f32 || st = .f64) fr.ftz code with
          | .nan _ => r rd l = ⟨0, fNV, false⟩
          | .inf neg => r rd l = ⟨intCode dt (if neg then etMin dt else etMax dt), fNV, false⟩
          | .fin neg m e =>
            let n := roundAt fr.rnd neg m e 0
            let y : Int := if neg then -(n.1 : Int) else n.1
            r rd l = if y < etMin dt then ⟨intCode dt (etMin dt), fNV, false⟩ else if etMax dt < y then ⟨intCode dt (etMax dt), fNV, false⟩
              else ⟨intCode dt y, if n.2 then fNX else 0, false⟩)
        ∧ (∀ df, st = .sc8 → fmtOf dt = some df → r rd l = if code = 0xFF then ⟨df.nan, 0, false⟩
            else df.ofFv .rn false fr.ftz (.fin false 1 ((code : Int) - 127)))
        ∧ (dt = .f32 ∨ dt = .f64 → tag rd l = cvtTrust dt st (fsrc (st = .f64) rd f.a l).2 ((fmtD (dt = .f64)).decode (r rd l).code)
            (r rd l).ovf ((match fmtOf st with
              | some sf => (fmtD (dt = EType.f64)).ofFv fr.rnd fr.sat false (cvtSource sf (st = EType.f32 || st = EType.f64) fr.ftz code)
              | none => r rd l).flags &&& fNX != 0))
        ∧ (dt ≠ .f32 → dt ≠ .f64 → tag rd l = 63))
  ∧ (∀ f dt s iss w, Ready (.cvtscScale f dt) s iss w →
    Lands (.cvtscScale f dt) f (.regs f.d.num 1) (fun rd l =>
      match fmtF32.decode (val32 rd f.a l).toNat with
      | .nan sg => { lane := l, vals := [(0xFF, 63)], flags := if sg then fNV else 0 }
      | .inf _ => { lane := l, vals := [(0xFE, 63)], flags := 0 }
      | .fin _ m e => { lane := l, flags := 0
                        vals := [(if m = 0 then 0 else BitVec.ofInt 32 (max 0 (min ((Nat.log2 m : Int) + e - scEmax dt + 127) 254)), 63)] }) s iss w)
  ∧ (∀ f dt s iss w, Ready (.cvtsc f dt) s iss w →
    ∃ r : Rd → Nat → Nat × Flags, Lands (.cvtsc f dt) f (.regs f.d.num 1) (fun rd l =>
        { lane := l, vals := [(BitVec.ofNat 32 (r rd l).1, 63)], flags := (r rd l).2 }) s iss w
      ∧ ∀ rd l, let v := fmtF32.decode (val32 rd f.a l).toNat
        let e8 := (val32 rd f.b l).toNat % 256
        let df := (fmtOf dt).getD fmtE4m3
        ((r rd l).2 = if v.isSig then fNV else 0) ∧ (e8 = 0xFF ∨ v.isNan → (r rd l).1 = df.nan)
        ∧ ∀ neg m e, v = .fin neg m e → e8 ≠ 0xFF → (r rd l).1 = (df.ofFv .rn true false (.fin neg m (e - ((e8 : Int) - 127)))).code)
  ∧ (∀ f sx wid k s iss w, Ready (.unpack f sx wid k) s iss w →
    Lands (.unpack f sx wid k) f (.regs f.d.num 2) (fun rd l =>
      let n := unpBits wid
      let el (e : Nat) : Word := let x := ((val32 rd f.a l) >>> (n * e)).extractLsb' 0 n; if sx then x.signExtend 32 else x.setWidth 32
      { lane := l, vals := [(el (2 * k), 63), (el (2 * k + 1), 63)] }) s iss w)
  ∧ (∀ f s iss w, Ready (.sigmin f) s iss w →
    ∃ n : Rd → Nat, Lands (.sigmin f) f (.regs f.d.num 1) (fun rd l => res1 l (BitVec.ofNat 32 (n rd)) 63) s iss w
      ∧ ∀ rd, (∀ l ∈ lanesOf (enabled rd f), let t := (src32 rd f.a l).2.toNat; n rd ≤ if 62 ≤ t then 64 else t)
        ∧ (n rd = 64 ∨ ∃ l ∈ lanesOf (enabled rd f), n rd = (src32 rd f.a l).2.toNat)))
  ∧ (∀ i f v, packOp i = some (f, v) → ∀ s iss w, Ready i s iss w →
    Lands i f (.regs f.d.num 1) (fun rd l => { lane := l, vals := [v rd l] }) s iss w)

/-! ## Cross-lane instructions -/

namespace Sys2Proof.Claims
open Sys2Proof.Machine

/-- The value nbr, shfl and match read in a lane: one word, or a pair (R231). -/
def lanesVal (rd : Rd) (o : Opnd) (w64 : Bool) (l : Nat) : List (Word × Tag) := if w64 then src64 rd o l else [src32 rd o l]

/-- A warp with a trap made due: of its control registers PEND alone may change, which tells a running handler of it (R408, R410). -/
def dueWith (w : Warp) (d : TrapDue) : Warp :=
  { w with
    due := w.due ++ [d]
    csr := { w.csr with trstat := if w.attic.isSome && !d.inHandler then w.csr.trstat ||| 16 else w.csr.trstat } }

/-- The lane of the participating lanes in which bit k of A is set (R234). -/
def votesFor (f : Fields) (k : Nat) (rd : Rd) (l : Nat) : Bool := (enabled rd f).getLsbD l && (val32 rd f.a l).getLsbD k

/-- The vote forms with a bit destination, and when their bit is 1 (R234). -/
def voteOp : Instr → Option (Fields × Nat × Cmb × (Rd → Prop))
  | .voteAny f k j cmb => some (f, j, cmb, fun rd => ∃ l < 64, votesFor f k rd l = true)
  | .voteAll f k j cmb =>
    some (f, j, cmb, fun rd => ∀ l < 64, (enabled rd f).getLsbD l = true → (val32 rd f.a l).getLsbD k = true)
  | .voteEq f k j cmb => some (f, j, cmb, fun rd => ∀ l < 64, ∀ m < 64, (enabled rd f).getLsbD l = true →
      (enabled rd f).getLsbD m = true → (val32 rd f.a l).getLsbD k = (val32 rd f.a m).getLsbD k)
  | _ => none

/-- The combine of an integer reduction (R236). -/
def redWord (op : RedOp) (signed : Bool) (x y : Word) : Word :=
  match op with
  | .add => x + y
  | .min => if ext (!signed) x ≤ ext (!signed) y then x else y
  | .max | .amax => if ext (!signed) x ≥ ext (!signed) y then x else y
  | .and => x &&& y
  | .or => x ||| y
  | .xor => x ^^^ y

/-- Two nodes of which either may be absent (R237). -/
def join {α : Type} (c : α → α → α) : Option α → Option α → Option α
  | some x, some y => some (c x y)
  | some x, none => some x
  | none, y => y

/-- Node (k, i) of the tree of R237. -/
def treeNode {α : Type} (c : α → α → α) (leaf : Nat → Option α) : Nat → Nat → Option α
  | 0, l => leaf l
  | k + 1, i => join c (treeNode c leaf k (2 * i)) (treeNode c leaf k (2 * i + 1))

/-- The prefix of n lanes (R239): the blocks of the powers of two in n, the largest first, joined from the left. -/
def prefixNode {α : Type} (c : α → α → α) (leaf : Nat → Option α) (n : Nat) : Option α :=
  [6, 5, 4, 3, 2, 1, 0].foldl (fun a k => if n.testBit k then join c a (treeNode c leaf k (n / 2 ^ (k + 1) * 2)) else a) none

/-- A leaf: what a participating lane of the warp gives. -/
def leafOf {α : Type} (rd : Rd) (f : Fields) (v : Nat → α) (l : Nat) : Option α :=
  if l < rd.w.width ∧ (enabled rd f).getLsbD l = true then some (v l) else none

/-- The identity of an integer `.excl` (R236). -/
def identity (op : RedOp) (signed : Bool) : Word :=
  match op, signed with
  | .min, true => 0x7FFFFFFF | .min, false => 0xFFFFFFFF | .max, true => 0x80000000 | .and, _ => 0xFFFFFFFF
  | .max, false | .add, _ | .or, _ | .xor, _ | .amax, _ => 0

/-- A float node: its code, its tag, and the flags of the nodes below it and its own (R240). -/
structure FNode where
  code : Nat
  tag : Tag
  flags : Flags

/-- A float leaf: a NaN or an infinity has the tag 0. -/
def floatLeaf (d64 : Bool) (rd : Rd) (o : Opnd) (l : Nat) : FNode :=
  let v := fval d64 false rd o l
  ⟨(fsrc d64 rd o l).1, if v.isNan || v.isInf then 0 else (fsrc d64 rd o l).2, 0⟩

/-- The combine of a float reduction (R236, R240). Of two numbers of one magnitude amax takes the lower lanes' (log 77). -/
def redFloatOf (op : RedOp) (d64 : Bool) (x y : FNode) : FNode :=
  let fm := fmtD d64
  let mag (n : FNode) : Nat := if op = .amax then n.code % 2 ^ (fm.width - 1) else n.code
  let a := fm.decode (mag x)
  let b := fm.decode (mag y)
  let nv : Flags := if a.isSig || b.isSig then fNV else 0
  let take (n : FNode) : FNode := ⟨mag n, if (fm.decode (mag n)).isInf then 0 else n.tag, x.flags ||| y.flags ||| nv⟩
  match op with
  | .add =>
    let r := fm.ofFv .rn false false (a.add .rn b)
    ⟨r.code, sumTag d64 (a, effTag d64 x.tag) (b, effTag d64 y.tag) (fm.decode r.code) r.ovf (changes d64 ⟨.rn, false, false⟩ (a.add .rn b)),
      x.flags ||| y.flags ||| r.flags⟩
  | .min => if a.isNan || b.isNan then ⟨fm.nan, 0, x.flags ||| y.flags ||| nv⟩ else if b.below a then take y else take x
  | _ => if a.isNan || b.isNan then ⟨fm.nan, 0, x.flags ||| y.flags ||| nv⟩ else if a.below b then take y else take x

/-- The identity of a float `.excl` (R236): a finite one has the tag 62, an infinite one the tag 0. -/
def floatIdentity (op : RedOp) (d64 : Bool) : FNode :=
  match op with
  | .min => ⟨if d64 then 0x7FF0000000000000 else 0x7F800000, 0, 0⟩
  | .max => ⟨if d64 then 0xFFF0000000000000 else 0xFF800000, 0, 0⟩
  | _ => ⟨0, 62, 0⟩

/-- A float node as a destination shows it. -/
def FNode.words (n : FNode) (d64 : Bool) : List (Word × Tag) :=
  if d64 then [(BitVec.ofNat 32 n.code, n.tag), (BitVec.ofNat 32 (n.code / 2 ^ 32), 63)] else [(BitVec.ofNat 32 n.code, n.tag)]

end Sys2Proof.Claims

open Sys2Proof Sys2Proof.Machine Sys2Proof.Claims

/-- R231: nbr issues; lane l receives A of lane l ± k. Outside the warp, wrap reads around it, zero gives 0 with the tag 62, and in a
launch that is not paired chain gives A of the lane at that place of the team's lanes, as its warp stood when the clock cycle began (a
system value with the issuing context's LANEMASK, the model's choice, log 75), and 0 with the tag 62 outside the team and for a warp that
has ended. R232, R134: nbr.chain in a paired launch raises the fault 02
at MOD, taken by the warp at its tick; its bundle does not issue. R233: shfl issues; lane l receives A of the lane that B names modulo 64,
or of lane l XOR m; outside the warp it receives 0 with the tag 62. -/
def Obligations.NeighbourAndShuffleResults : Prop :=
  (∀ f fill dn w64 k s iss w, Ready (.nbr f fill dn w64 k) s iss w → (fill = .chain → (launchD s w).paired = false) →
    ∃ v : Rd → Nat → List (Word × Tag),
      Lands (.nbr f fill dn w64 k) f (.regs f.d.num (if w64 then 2 else 1)) (fun rd l => { lane := l, vals := v rd l }) s iss w
      ∧ ∀ rd (l : Nat), let x : Int := if dn then (l : Int) + k else (l : Int) - k
        (0 ≤ x → x < rd.w.width → v rd l = lanesVal rd f.a w64 x.toNat)
        ∧ (¬(0 ≤ x ∧ x < rd.w.width) → fill = .wrap → v rd l = lanesVal rd f.a w64 (x % rd.w.width).toNat)
        ∧ (¬(0 ≤ x ∧ x < rd.w.width) → fill = .zero → v rd l = if w64 then [(0, 62), (0, 63)] else [(0, 62)])
        ∧ (¬(0 ≤ x ∧ x < rd.w.width) → fill = .chain →
          let g : Int := rd.w.w * rd.w.width + x
          let inside := 0 ≤ g ∧ g < (launchD rd.s rd.w).warps * rd.w.width
          let there := rd.s.warps.find? fun e => e.2.team == rd.w.team && e.2.w == g.toNat / rd.w.width && !e.2.ended
          (inside → ∀ e, there = some e →
            v rd l = lanesVal ⟨rd.s, e.2, e.2.before rd.s.cycleId, { rd.iss with wid := e.2.wid, tick := e.2.tick }, []⟩ f.a w64 (g.toNat % rd.w.width))
          ∧ (¬inside ∨ there = none → v rd l = if w64 then [(0, 62), (0, 63)] else [(0, 62)])))
  ∧ (∀ f dn w64 k s iss rest w, Ready (.nbr f .chain dn w64 k) s iss w → s.issuing = iss :: rest → (launchD s w).paired = true →
    ∃ t w' d, exec (.nbr f .chain dn w64 k) s = .next t ∧ t.issuing = rest ∧ t.warp? w.wid = some w'
      ∧ w' = { dueWith w d with walkRes := [] } ∧ d.cause = 2 ∧ d.cls = 0 ∧ d.lanes = iss.lanes ∧ d.pc = BitVec.ofNat 64 iss.pc
      ∧ d.val = BitVec.ofNat 64 (iss.syl + 8 * 11) ∧ d.tick = w.tick
      ∧ Instr.trapEntry w.wid ∈ t.agenda ∧ OthersKept s t w.wid ∧ MemKept s t)
  ∧ ((∀ f w64 s iss w, Ready (.shflIdx f w64) s iss w →
    Lands (.shflIdx f w64) f (.regs f.d.num (if w64 then 2 else 1)) (fun rd l =>
      let x := ((val32 rd f.b l).setWidth 6).toNat
      { lane := l, vals := if x < rd.w.width then lanesVal rd f.a w64 x else if w64 then [(0, 62), (0, 63)] else [(0, 62)] }) s iss w)
  ∧ (∀ f w64 m s iss w, Ready (.shflXor f w64 m) s iss w →
    Lands (.shflXor f w64 m) f (.regs f.d.num (if w64 then 2 else 1)) (fun rd l =>
      { lane := l, vals := if l ^^^ m < rd.w.width then lanesVal rd f.a w64 (l ^^^ m) else if w64 then [(0, 62), (0, 63)] else [(0, 62)] })
      s iss w))

/-- R234, R235: vote.ballot gives every enabled lane the set of participating lanes whose bit k is set; any, all and eq give one bit;
match gives each lane the set of participating lanes whose A equals its own. All issue. -/
def Obligations.VoteAndMatchResults : Prop :=
  (∀ f k s iss w, Ready (.voteBallot f k) s iss w →
    ∃ m : Rd → Lanes, Lands (.voteBallot f k) f (.regs f.d.num 2) (fun rd l => res2 l (m rd)) s iss w
      ∧ ∀ rd l, l < 64 → (m rd).getLsbD l = votesFor f k rd l)
  ∧ (∀ i f j cmb p, voteOp i = some (f, j, cmb, p) → ∀ s iss w, Ready i s iss w →
    ∃ b : Rd → Bool, Lands i f (.bits f.d.num j 1 cmb) (fun rd l => resBit l (b rd)) s iss w ∧ ∀ rd, b rd = true ↔ p rd)
  ∧ (∀ f w64 s iss w, Ready (.matchLanes f w64) s iss w →
    ∃ m : Rd → Nat → Lanes, Lands (.matchLanes f w64) f (.regs f.d.num 2) (fun rd l => res2 l (m rd l)) s iss w
      ∧ ∀ rd l n, n < 64 → ((m rd l).getLsbD n = true ↔
          (enabled rd f).getLsbD n = true ∧ wordsNat (lanesVal rd f.a w64 n) = wordsNat (lanesVal rd f.a w64 l)))

/-- R236 to R238: an integer red issues and gives every enabled lane one value of tag 63: the top node of the tree of R237 over the
participating lanes of its warp; when one lane alone participates it is A of that lane, and in a warp of 16 lanes that all participate it
is the tree over them, written out. R236 to R240: every red and scan issues and puts one result a lane in flight; an integer result has the
tag 63 and no flag, a float result is checked against SIGTHR. A float red gives the top node with its tag and the flags of all nodes. A scan
gives each lane the prefix that ends with it, or before it with `.excl`, and the identity where that is absent; an inclusive integer scan
of one participating lane gives that lane its own A. Of equal magnitudes amax takes the lower lanes' (the model's choice, log 77). -/
def Obligations.ReductionAndScanResults : Prop :=
  (∀ f op ty s iss w, (ty = .s32 ∨ ty = .z32) → op ≠ .amax → Ready (.red f op ty) s iss w →
    ∃ v : Rd → Word, Lands (.red f op ty) f (.regs f.d.num 1) (fun rd l => res1 l (v rd) 63) s iss w
      ∧ ∀ rd, let c := redWord op (ty = .s32)
        let a := fun l => val32 rd f.a l
        (∀ x, treeNode c (leafOf rd f a) (Nat.log2 rd.w.width) 0 = some x → v rd = x)
        ∧ (∀ l < rd.w.width, l < 64 → (∃ h, rd.w.width = 2 ^ h) → enabled rd f = lane1 l → v rd = a l)
        ∧ (rd.w.width = 16 → (∀ l < 16, (enabled rd f).getLsbD l = true) →
          v rd = c (c (c (c (a 0) (a 1)) (c (a 2) (a 3))) (c (c (a 4) (a 5)) (c (a 6) (a 7))))
            (c (c (c (a 8) (a 9)) (c (a 10) (a 11))) (c (c (a 12) (a 13)) (c (a 14) (a 15))))))
  ∧ ((∀ f op ty s iss w, Ready (.red f op ty) s iss w →
    ∃ r : Rd → Nat → LaneRes, Lands (.red f op ty) f (.regs f.d.num (if ty = .f64 then 2 else 1)) r s iss w
      ∧ ∀ rd l, (r rd l).lane = l ∧ (r rd l).vals.length = (if ty = .f64 then 2 else 1) ∧ (r rd l).checked = (ty = .f32 || ty = .f64)
        ∧ ((r rd l).vals = (r rd 0).vals) ∧ (ty = .s32 ∨ ty = .z32 → (r rd l).flags = 0)
        ∧ ∀ d64 x, (ty = .f32 ∧ d64 = false ∨ ty = .f64 ∧ d64 = true) → (op = .add ∨ op = .min ∨ op = .max ∨ op = .amax) →
          treeNode (redFloatOf op d64) (leafOf rd f (floatLeaf d64 rd f.a)) (Nat.log2 rd.w.width) 0 = some x →
          (r rd l).vals = x.words d64 ∧ (r rd l).flags = x.flags)
  ∧ (∀ f op ty ex s iss w, Ready (.scan f op ty ex) s iss w →
    ∃ r : Rd → Nat → LaneRes, Lands (.scan f op ty ex) f (.regs f.d.num (if ty = .f64 then 2 else 1)) r s iss w
      ∧ ∀ rd l, (r rd l).lane = l ∧ (r rd l).vals.length = (if ty = .f64 then 2 else 1) ∧ (r rd l).checked = (ty = .f32 || ty = .f64)
        ∧ (ty = .s32 ∨ ty = .z32 → (r rd l).flags = 0)
        ∧ (ty = .s32 ∨ ty = .z32 → ex = false → l < rd.w.width → rd.w.width ≤ 64 → enabled rd f = lane1 l → (r rd l).vals = [(val32 rd f.a l, 63)])
        ∧ (ty = .s32 ∨ ty = .z32 → op ≠ .amax → l < rd.w.width → rd.w.width ≤ 64 →
          (r rd l).vals = [((prefixNode (redWord op (ty = .s32)) (leafOf rd f fun l => val32 rd f.a l) (if ex then l else l + 1)).getD
            (identity op (ty = .s32)), 63)])
        ∧ ∀ d64, (ty = .f32 ∧ d64 = false ∨ ty = .f64 ∧ d64 = true) → (op = .add ∨ op = .min ∨ op = .max ∨ op = .amax) →
          l < rd.w.width → rd.w.width ≤ 64 →
          (r rd l).vals = ((prefixNode (redFloatOf op d64) (leafOf rd f (floatLeaf d64 rd f.a)) (if ex then l else l + 1)).getD
            (floatIdentity op d64)).words d64))

/-! ## Memory, scratchpad and work-queue instructions -/

namespace Sys2Proof.Claims
open Sys2Proof.Machine

/-- The hooks of a warp with an item of work added to one (R162). -/
def raised (hs : List HookSt) (hook : Nat) (it : HookItem) : List HookSt := lmod hs hook fun k => { k with items := k.items ++ [it] }

/-- The item of work a syllable gives its hook: finished at once when no lane is enabled (R162). -/
def workItem (s : State) (iss : Issue) (dst : Dst) (en : Lanes) : HookItem :=
  { id := s.nextId, pc := BitVec.ofNat 64 iss.pc, dst := dst, lanes := en, fin := if en = 0 then some s.base else none }

/-- An access of a load, store or atomic to virtual memory (R283, R287, R288, R291). -/
structure Access where
  f : Fields
  hook : Nat
  idx : Opnd
  off : Half
  bytes : Nat
  right : Need
  shadow : Bool
  dst : Dst
  kind : MemKind
  data : Rd → Nat → Nat

def accessOf : Instr → Option Access
  | .ld f sz _ _ hook off =>
    some ⟨f, hook, f.b, off, szBytes sz, .r, false, .regs f.d.num ((szBytes sz + 3) / 4), .load, fun _ _ => 0⟩
  | .ldr f sz _ _ _ hook off =>
    some ⟨f, hook, f.b, off, szBytes sz, .r, false, .regs f.d.num ((szBytes sz + 3) / 4), .loadL1, fun _ _ => 0⟩
  | .ldt f sz _ hook off =>
    some ⟨f, hook, f.b, off, szBytes sz, .r, true, .regs f.d.num ((szBytes sz + 3) / 4), .loadTag, fun _ _ => 0⟩
  | .st f sz _ _ hook off => some ⟨f, hook, .none, off, szBytes sz, .w, false, .regs 1023 0, .store, fun rd l => storeData rd f.b sz l⟩
  | .stt f sz _ hook off => some ⟨f, hook, .none, off, szBytes sz, .w, true, .regs 1023 0, .storeTag, fun rd l => storeData rd f.b sz l⟩
  | .atom f op ty hook off => some ⟨f, hook, .none, off, atyBytes ty, .rw, false, .regs f.d.num (if ty.wide then 2 else 1),
      .atomic op ty, fun rd l => (atomArgs rd f.b op ty l).1⟩
  | _ => none

/-- An index operand: 0 when there is none (R283). -/
def index (rd : Rd) (o : Opnd) (l : Nat) : Int :=
  match o with
  | .none => 0
  | o => (val32 rd o l).toInt

/-- The virtual address of an access in a lane: A + index + X (R283). -/
def Access.va (a : Access) (rd : Rd) (l : Nat) : Int := (val64 rd a.f.a l).toNat + index rd a.idx l + a.off.toInt

/-- The little-endian number that `n` bytes of a team's scratchpad from an offset on hold (R7, R242). -/
def scrNat (s : State) (tid off : Nat) : Nat → Nat
  | 0 => 0
  | n + 1 => (scratchByte s tid off).toNat + 256 * scrNat s tid (off + 1) n

/-- The value that an atomic leaves in place of `old` (R291): integers wrap and order as their type says; a float sum is rounded to nearest
even, and float minima and maxima are those of R211 without NUM. -/
def atomicValue (op : AOp) (ty : ATy) (old b expected : Nat) : Nat :=
  let n := if ty.wide then 64 else 32
  let fm := fmtD (ty = .f64)
  let v (x : Nat) : Int := if ty = .s32 || ty = .s64 then (BitVec.ofNat n x).toInt else x
  let float := ty = .f32 || ty = .f64
  let fv := fm.decode
  match op with
  | .add => if float then (fm.ofFv .rn false false ((fv old).add .rn (fv b))).code else (old + b) % 2 ^ n
  | .min =>
    if float then (if (fv old).isNan || (fv b).isNan then fm.nan else if (fv b).below (fv old) then b else old)
    else if v b < v old then b else old
  | .max =>
    if float then (if (fv old).isNan || (fv b).isNan then fm.nan else if (fv old).below (fv b) then b else old)
    else if v old < v b then b else old
  | .and => old &&& b
  | .or => old ||| b
  | .xor => old ^^^ b
  | .exch => b
  | .cas => if old = expected then b else old

/-- A scratchpad access of a warp in its last bank cycle (R159 to R161): its tick has come, it is the oldest of its room, which has made no
bank cycle yet, it touches no empty line, and its banks are free. -/
structure LastBankCycle (s : State) (w : Warp) (tm : Team) (a : ScrAcc) : Prop where
  warp : s.warp? w.wid = some w
  team : s.team? w.team = some tm
  tid : tm.tid = w.team
  canonical : cwf tm.scratch = true
  access : w.scr.find? (fun b => b.seq = a.seq) = some a
  due : a.tick ≤ w.tick
  oldest : roomOldest s w.core w.room = some a.seq
  once : ((s.core w.core).rooms.getD w.room {}).scrAt ≠ some (coreCycle s w.core)
  full : touchesEmpty tm a = false
  banks : banksBusy s none (banksOf tm a) = false
  last : scrCycles tm a ≤ a.done + 1

/-- The four words of a work-queue entry, with tag 63 (R301). -/
def entryWords (e : BitVec 128) : List (Word × Tag) :=
  [(e.extractLsb' 0 32, 63), (e.extractLsb' 32 32, 63), (e.extractLsb' 64 32, 63), (e.extractLsb' 96 32, 63)]

/-- Lanes that put entries into units in ascending order (R300): whether each is taken, and the units. A unit holds 1,024 entries, those on
their way to lanes that wait not counted, and takes no entry whose word 3 is all ones. -/
def enqueued (unit : Nat → Nat) (entry : Nat → BitVec 128) : List Nat → List WqUnit → List (Nat × Bool) × List WqUnit
  | [], us => ([], us)
  | l :: ls, us =>
    let u := us.getD (unit l) {}
    let taken := u.entries.length - u.waiters.length < 1024 && (entry l).extractLsb' 96 32 != 0xFFFFFFFF
    let r := enqueued unit entry ls (if taken then us.set (unit l) { u with entries := u.entries ++ [entry l] } else us)
    ((l, taken) :: r.1, r.2)

/-- Lanes that take entries from units in ascending order (R301): those that have one, those that wait, with their units, and the units.
Each takes the oldest entry that is not on its way to a lane that waits; at a unit without one poll takes the empty entry. -/
def dequeued (unit : Nat → Nat) (poll : Bool) (id : Nat) : List Nat → List WqUnit → List (Nat × BitVec 128) × List (Nat × Nat) × List WqUnit
  | [], us => ([], [], us)
  | l :: ls, us =>
    let u := us.getD (unit l) {}
    match u.entries[u.waiters.length]? with
    | some e =>
      let r := dequeued unit poll id ls (us.set (unit l) { u with entries := u.entries.eraseIdx u.waiters.length })
      ((l, e) :: r.1, r.2)
    | none =>
      if poll then
        let r := dequeued unit poll id ls us
        ((l, BitVec.ofNat 128 (0xFFFFFFFF * 2 ^ 96)) :: r.1, r.2)
      else
        let r := dequeued unit poll id ls (us.set (unit l) { u with waiters := u.waiters ++ [(id, l)] })
        (r.1, (l, unit l) :: r.2.1, r.2.2)

/-- A line that is not poisoned, and whose copy in L2, if there is one, is unencrypted and not spent. -/
def plainLine (s : State) (line : Nat) : Prop :=
  poisonedAt s line 0 = false ∧ poisonedAt s line 64 = false ∧ ∀ l, tget s.l2 line = some l → l.enc = false ∧ l.spent = none

/-- Whether L2 has a place for a line: it holds it, or the L2 of the line's die is not full. -/
def roomFor (s : State) (line : Nat) : Prop := (tget s.l2 line).isSome = true ∨ dieFull s (dieOfLine line) = false

/-- The fences by scope (R294, R295). -/
def fenceOf : Instr → Option (Fields × Nat × Bool × Nat)
  | .fenceTeam f hold hook => some (f, 0, hold, hook)
  | .fencePair f hold hook => some (f, 1, hold, hook)
  | .fenceDev f hold hook => some (f, 2, hold, hook)
  | .fenceFab f hold hook => some (f, 3, hold, hook)
  | .afence f hold hook => some (f, 4, hold, hook)
  | _ => none

/-- The offset of a scratchpad or cellar access in a lane (R283). -/
def offOf (rd : Rd) (f : Fields) (idx : Opnd) (x : Int) (l : Nat) : Int := (val32 rd f.a l).toNat + index rd idx l + x

end Sys2Proof.Claims

open Sys2Proof Sys2Proof.Machine Sys2Proof.Claims

/-- R162, R283 to R285, R287, R288, R291: a load, store or atomic whose lanes all pass their checks issues. It raises its hook by one item
that holds its destination and lanes; with a lane enabled an access is under way with the address and data of every evaluated lane, and
every line it is to reach is sent to its home, but for the lanes of an ldr that its L1 answers at once. No register and no byte changes at issue. -/
def Obligations.MemoryAccessIssues : Prop :=
  ∀ i a, accessOf i = some a → ∀ s iss w, Ready i s iss w →
    let rd := rdOf i s w iss
    memChk a.f a.idx a.off a.bytes a.right a.shadow rd = .ok → hatchWarpChk a.f rd = .ok → hatchRoomChk a.f rd = .ok →
    ∃ t w', exec i s = .next t ∧ t.warp? w.wid = some w'
      ∧ w' = { w with hooks := raised w.hooks a.hook (workItem s iss a.dst (enabled rd a.f)), lastWr := w'.lastWr }
      ∧ (enabled rd a.f ≠ 0 → ∃ op m, tget t.ops s.nextId = some op ∧ op.wid = w.wid ∧ op.hook = a.hook ∧ op.kind = .mem m
          ∧ m.kind = a.kind ∧ m.bytes = a.bytes ∧ m.enabled = enabled rd a.f
          ∧ m.lanes.map (fun k => (k.lane, k.va, k.pa, k.data)) = (evalLanes rd a.f).map (fun l =>
              (l, (a.va rd l).toNat, (leafAt s w (a.va rd l).toNat).phys (a.va rd l).toNat, BitVec.ofNat 128 (a.data rd l)))
          ∧ (a.kind ≠ .loadL1 → ∀ k ∈ m.lanes, 2 * (k.pa / 128) ∈ m.todo)
          ∧ (a.kind = .loadL1 → ∀ k ∈ m.lanes, 2 * (k.pa / 128) ∈ m.todo ∨ ∃ r ∈ m.results, r.lane = k.lane)
          ∧ ∀ line ∈ m.todo, ∃ p ∈ t.pending, p.ev = .homeAccessPerform s.nextId (2 * (line / 2)) ∧ s.base + 1 ≤ p.due)
      ∧ OthersKept s t w.wid ∧ MemKept s t

/-- R254, R283: ldw issues when every lane's range lies in a window of its context, is aligned, and no refresh window holds it; it raises
its hook and an access to the cellar is under way at the offsets A + index + X. R254: an ldw with a lane whose range lies in no window of
its context raises the access fault (0C) with those lanes. -/
def Obligations.CellarLoadIssues : Prop :=
  (∀ f sz sx hook off s iss w, Ready (.ldw f sz sx hook off) s iss w →
    let rd := rdOf (.ldw f sz sx hook off) s w iss
    ldwChk f sz off rd = .ok →
    ∃ t w', exec (.ldw f sz sx hook off) s = .next t ∧ t.warp? w.wid = some w'
      ∧ w' = { w with
          hooks := raised w.hooks hook (workItem s iss (.regs f.d.num ((szBytes sz + 3) / 4)) (enabled rd f)), lastWr := w'.lastWr }
      ∧ (enabled rd f ≠ 0 → ∃ op m, tget t.ops s.nextId = some op ∧ op.wid = w.wid ∧ op.hook = hook ∧ op.kind = .mem m
          ∧ m.kind = .cellar ∧ m.lanes.map (fun k => (k.lane, k.va)) = (evalLanes rd f).map fun l => (l, (offOf rd f f.b off.toInt l).toNat))
      ∧ OthersKept s t w.wid ∧ MemKept s t)
  ∧ (∀ f sz sx hook off s iss rest w, Ready (.ldw f sz sx hook off) s iss w → s.issuing = iss :: rest →
    let rd := rdOf (.ldw f sz sx hook off) s w iss
    (∀ n, f.d ≠ .hq n) → ∀ l ∈ evalLanes rd f,
    (∀ v ∈ s.cellarWins, v.ctx = ctxOf s w → offOf rd f f.b off.toInt l < v.base
      ∨ (v.base : Int) + v.len < offOf rd f f.b off.toInt l + szBytes sz) →
    ∃ t w' d, exec (.ldw f sz sx hook off) s = .next t ∧ t.issuing = rest ∧ t.warp? w.wid = some w' ∧ w'.due = w.due ++ [d]
      ∧ d.cause = 0x0C ∧ d.cls = 0 ∧ d.lanes.getLsbD l = true ∧ w'.regs = w.regs ∧ w'.hooks = w.hooks ∧ MemKept s t)

/-- R160, R283, R287, R288: lds and sts issue when every lane's range lies in the team's allocation and is aligned: the access is queued
for its access tick 11 ticks on, with the offsets A + index + X and the store data; the result of lds is in flight for 12 ticks. R160,
R292, R299: atoms and both forms of spmark issue when their offsets pass their checks: their hook is raised, and with a lane enabled an
access is queued for its access tick. R160, R242: a scratchpad store in its last bank cycle writes the bytes of its lanes, where no other
lane writes them too, and every other byte of every scratchpad, and all of memory and the cellar, stays. A load in its last bank cycle
takes each lane's bytes, where no copy in flight writes them, for its result in flight, and changes none; an atomic of one lane gives that
lane the old value and leaves the new one in its place (R291, R292); an spmark leaves its marks for the end of this clock cycle and
finishes its item (R299). -/
def Obligations.ScratchAccessesIssueAndStore : Prop :=
  ((∀ f sz sx off s iss w, Ready (.lds f sz sx off) s iss w →
    let rd := rdOf (.lds f sz sx off) s w iss
    scrChk f f.b off.toInt (szBytes sz) rd = .ok →
    ∃ t w', exec (.lds f sz sx off) s = .next t ∧ t.warp? w.wid = some w'
      ∧ w' = { w with
          flight := w.flight ++ [⟨s.nextId, iss.tick + 12, BitVec.ofNat 64 iss.pc, .regs f.d.num ((szBytes sz + 3) / 4), enabled rd f, []⟩]
          scr := w.scr ++ [⟨s.nextId, iss.tick + 11, .load (szBytes sz) sx,
            (evalLanes rd f).map (fun l => ⟨l, (offOf rd f f.b off.toInt l).toNat, 0, 0⟩), enabled rd f, 0⟩]
          lastWr := w'.lastWr }
      ∧ OthersKept s t w.wid ∧ MemKept s t)
  ∧ (∀ f sz off s iss w, Ready (.sts f sz off) s iss w →
    let rd := rdOf (.sts f sz off) s w iss
    scrChk f .none off.toInt (szBytes sz) rd = .ok →
    ∃ t w', exec (.sts f sz off) s = .next t ∧ t.warp? w.wid = some w'
      ∧ w' = { w with
          scr := w.scr ++ [⟨s.nextId, iss.tick + 11, .store (szBytes sz),
            (evalLanes rd f).map (fun l => ⟨l, (offOf rd f .none off.toInt l).toNat, BitVec.ofNat 128 (storeData rd f.b sz l), 0⟩),
            enabled rd f, 0⟩] }
      ∧ OthersKept s t w.wid ∧ MemKept s t))
  ∧ ((∀ f op ty hook off s iss w, Ready (.atoms f op ty hook off) s iss w →
    let rd := rdOf (.atoms f op ty hook off) s w iss
    scrChk f .none off.toInt (atyBytes ty) rd = .ok →
    ∃ t w', exec (.atoms f op ty hook off) s = .next t ∧ t.warp? w.wid = some w'
      ∧ w' = { w with
          hooks := raised w.hooks hook (workItem s iss (.regs f.d.num (if ty.wide then 2 else 1)) (enabled rd f))
          scr := if enabled rd f = 0 then w.scr else w.scr ++ [⟨s.nextId, iss.tick + 11, .atomic op ty s.nextId,
            (evalLanes rd f).map (fun l => ⟨l, (offOf rd f .none off.toInt l).toNat, BitVec.ofNat 128 (atomArgs rd f.b op ty l).1,
              BitVec.ofNat 64 (atomArgs rd f.b op ty l).2⟩), enabled rd f, 0⟩]
          lastWr := w'.lastWr }
      ∧ OthersKept s t w.wid ∧ MemKept s t)
  ∧ (∀ i f full hook s iss w, (i = .spmarkFull f hook ∧ full = true ∨ i = .spmarkEmpty f hook ∧ full = false) → Ready i s iss w →
    let rd := rdOf i s w iss
    markChk f rd = .ok →
    ∃ t w', exec i s = .next t ∧ t.warp? w.wid = some w'
      ∧ w' = { w with
          hooks := raised w.hooks hook (workItem s iss (.regs 1023 0) (enabled rd f))
          scr := if enabled rd f = 0 then w.scr else w.scr ++ [⟨s.nextId, iss.tick + 11, .mark full s.nextId,
            (evalLanes rd f).map (fun l => ⟨l, (val32 rd f.a l).toNat, 0, 0⟩), enabled rd f, 0⟩]
          lastWr := w'.lastWr }
      ∧ OthersKept s t w.wid ∧ MemKept s t))
  ∧ (∀ s w tm a n sx, LastBankCycle s w tm a → a.kind = .load n sx → tm.dests = [] → a.lanes.map ScrLane.lane = lanesOf a.enabled →
    ∃ t w', exec (.scratchAccessPerform w.wid a.seq) s = .next t ∧ t.warp? w.wid = some w' ∧ w'.regs = w.regs
      ∧ w'.scr = w.scr.filter (fun b => b.seq ≠ a.seq)
      ∧ w'.flight = w.flight.map (fun x => if x.seq = a.seq then
          { x with lanes := a.lanes.map fun l => { lane := l.lane, vals := loadVals n sx (scrNat s w.team l.off n) } } else x)
      ∧ OthersKept s t w.wid ∧ MemKept s t)
  ∧ (∀ s w tm a op ty item it l d span, LastBankCycle s w tm a → a.kind = .atomic op ty item → tm.dests = [] → a.lanes = [l] → l.lane < 64 →
    a.enabled = lane1 l.lane → l.data.toNat < 256 ^ atyBytes ty → w.kills = [] →
    (w.hooks.flatMap HookSt.items).find? (fun x => x.id = item) = some it → it.dst = .regs d span →
    let n := if ty.wide then 8 else 4
    let old := scrNat s w.team l.off n
    let new := atomicValue op ty old l.data.toNat l.cmp.toNat
    ∃ t w' it', exec (.scratchAccessPerform w.wid a.seq) s = .next t ∧ t.warp? w.wid = some w'
      ∧ (∀ k < n, scratchByte t w.team (l.off + k) = BitVec.ofNat 8 (new / 256 ^ k))
      ∧ (∀ x, x < l.off ∨ l.off + n ≤ x → scratchByte t w.team x = scratchByte s w.team x)
      ∧ (∀ tid x, tid ≠ w.team → scratchByte t tid x = scratchByte s tid x)
      ∧ (∀ (k : Nat) v tg, (loadVals n false old)[k]? = some (v, tg) → d + k < 776 → w'.cell (d + k) l.lane = ⟨v, 0, tg, false⟩)
      ∧ (∀ x j, j < 64 → x < d ∨ d + n / 4 ≤ x ∨ j ≠ l.lane → w'.cell x j = w.cell x j)
      ∧ (w'.hooks.flatMap HookSt.items).find? (fun x => x.id = item) = some it' ∧ it'.fin = some (s.base + 1)
      ∧ (∀ x, byteAt t x = byteAt s x) ∧ (∀ x, cget t.cellar x = cget s.cellar x) ∧ OthersKept s t w.wid)
  ∧ (∀ s w tm a full item it, LastBankCycle s w tm a → a.kind = .mark full item →
    (w.hooks.flatMap HookSt.items).find? (fun x => x.id = item) = some it →
    ∃ t w' it', exec (.scratchAccessPerform w.wid a.seq) s = .next t ∧ t.warp? w.wid = some w' ∧ w'.regs = w.regs
      ∧ t.team? w.team = some { tm with marks := tm.marks ++ a.lanes.map fun l => (l.off / 128, 2, full) }
      ∧ (w'.hooks.flatMap HookSt.items).find? (fun x => x.id = item) = some it' ∧ it'.fin = some s.base
      ∧ OthersKept s t w.wid ∧ MemKept s t)
  ∧ (∀ s w tm a n, LastBankCycle s w tm a → a.kind = .store n →
    ∃ t, exec (.scratchAccessPerform w.wid a.seq) s = .next t
      ∧ (∀ l ∈ a.lanes, (∀ m ∈ a.lanes, m = l ∨ m.off + n ≤ l.off ∨ l.off + n ≤ m.off) →
          ∀ k < n, scratchByte t w.team (l.off + k) = BitVec.ofNat 8 (l.data.toNat / 256 ^ k))
      ∧ (∀ x, (∀ l ∈ a.lanes, x < l.off ∨ l.off + n ≤ x) → scratchByte t w.team x = scratchByte s w.team x)
      ∧ (∀ tid x, tid ≠ w.team → scratchByte t tid x = scratchByte s tid x)
      ∧ (∀ x, byteAt t x = byteAt s x) ∧ (∀ x, cget t.cellar x = cget s.cellar x) ∧ OthersKept s t w.wid)

/-- R294, R295: every fence and afence issues and raises its hook; with a lane enabled its work is under way, and with HOLD the running
paths of its context wait for it. R296, R298: icinv issues when no range ends beyond 2^64 − 1, raises its hook by an item that has
finished, and leaves no line of its context that a range overlaps in its core's fetch cache, and every other line; pref issues once its
translations are known and changes no warp; performed at the home of its line it brings the line into L2, and with CA 10 into the L1 of
its core for the launch's lease where it is not there yet, and changes no byte and no warp. -/
def Obligations.FencesAndLinesIssue : Prop :=
  (∀ i f scope hold hook, fenceOf i = some (f, scope, hold, hook) → ∀ s iss w, Ready i s iss w →
    let en := enabled (rdOf i s w iss) f
    ∃ t w', exec i s = .next t ∧ t.warp? w.wid = some w'
      ∧ w'.hooks = raised w.hooks hook (workItem s iss (.regs 1023 0) en) ∧ w'.regs = w.regs ∧ w'.csr = w.csr ∧ w'.flight = w.flight
      ∧ (en ≠ 0 → ∃ op, tget t.ops s.nextId = some op ∧ op.wid = w.wid ∧ op.hook = hook ∧ op.kind = .fence scope s.nextId)
      ∧ (∀ k sl, w.slices[k]? = some sl → ∃ sl', w'.slices[k]? = some sl' ∧ sl'.depth = sl.depth ∧ sl'.cur.mask = sl.cur.mask
          ∧ sl'.cur.fence = if hold && en ≠ 0 && iss.slices.contains k then some s.nextId else sl.cur.fence)
      ∧ OthersKept s t w.wid ∧ MemKept s t)
  ∧ ((∀ f hook s iss w, Ready (.icinv f hook) s iss w →
    let rd := rdOf (.icinv f hook) s w iss
    (∀ l ∈ evalLanes rd f, (val64 rd f.a l).toNat + (val32 rd f.b l).toNat ≤ 2 ^ 64) → w.core < s.cores.length →
    ∃ t w', exec (.icinv f hook) s = .next t ∧ t.warp? w.wid = some w'
      ∧ w' = { w with
          hooks := raised w.hooks hook { workItem s iss (.regs 1023 0) (enabled rd f) with fin := some s.base }, lastWr := w'.lastWr }
      ∧ (∀ ln, ln ∈ (t.core w.core).fcache ↔ ln ∈ (s.core w.core).fcache ∧ ¬(ln.ctx = ctxOf s w ∧ ∃ l ∈ evalLanes rd f,
          (val32 rd f.b l).toNat ≠ 0 ∧ (val64 rd f.a l).toNat ≤ ln.va + 63 ∧ ln.va < (val64 rd f.a l).toNat + (val32 rd f.b l).toNat))
      ∧ OthersKept s t w.wid ∧ MemKept s t)
  ∧ (∀ f ca off s iss w, Ready (.pref f ca off) s iss w → prefChk f off (rdOf (.pref f ca off) s w iss) = .ok →
    ∃ t, exec (.pref f ca off) s = .next t ∧ t.warps = s.warps ∧ MemKept s t)
  ∧ (∀ s o m l l1, tget s.ops o.id = some o → o.kind = .mem m → m.kind = .pref l1 → m.lanes = [l] → m.todo = [2 * (l.pa / 128)] →
    l.leaf.enc = false → plainLine s (l.pa / 128) → roomFor s (l.pa / 128) → o.core < s.cores.length →
    ∃ t, exec (.homeAccessPerform o.id (2 * (l.pa / 128))) s = .next t ∧ (tget t.l2 (l.pa / 128)).isSome = true ∧ tget t.ops o.id = none
      ∧ (l1 = true → l.leaf.ca ≠ 2 → l1Find s o.core o.ctx l.va = none →
          ∃ x ∈ (t.core o.core).l1, x.ctx = o.ctx ∧ x.va = l.va / 128 ∧ x.fill = timens s ∧ x.lease = m.lease)
      ∧ (∀ a, byteAt t a = byteAt s a) ∧ t.warps = s.warps ∧ t.teams = s.teams))

/-- R300: wqenq issues when every lane names a unit bound to its context, and raises its hook by an item that has finished and holds one bit
for each enabled lane. Its lanes put their entries in ascending order: an entry is appended and the lane's bit is 1 while the unit holds
fewer than 1,024 entries, those on their way to lanes that wait not counted, and word 3 of the entry is not all ones; otherwise the unit
stays and the bit is 0. R301: wqdeq issues when every lane names a unit bound to its context, and raises its hook by an item that will
write a quad. Its lanes take entries in ascending order, each the oldest that is not on its way to a lane that waits, as four words of tag
63; at a unit without one poll takes the empty entry, whose word 3 is all ones, and without poll the lane waits. When no lane waits the
item has finished with the quads of the lanes; else it waits, and the work under way holds the lanes that wait and the quads taken. Under U
one lane's result goes to every enabled lane (R124). -/
def Obligations.WorkQueueAccess : Prop :=
  (∀ f j hook s iss w, Ready (.wqenq f j hook) s iss w →
    let rd := rdOf (.wqenq f j hook) s w iss
    let put := enqueued (fun l => (val32 rd f.a l).toNat) (fun l => BitVec.ofNat 128 (wordsNat (srcQuad rd f.b l))) (evalLanes rd f) s.wqUnits
    wqChk f rd = .ok →
    ∃ t w' it, exec (.wqenq f j hook) s = .next t ∧ t.warp? w.wid = some w' ∧ w' = { w with hooks := raised w.hooks hook it, lastWr := w'.lastWr }
      ∧ it.fin = some s.base ∧ it.dst = .bits f.d.num j 1 .set ∧ it.lanes = enabled rd f ∧ t.wqUnits = put.2
      ∧ (evalLanes rd f = lanesOf (enabled rd f) → it.res = put.1.map fun p => resBit p.1 p.2)
      ∧ (∀ l b, put.1 = [(l, b)] → it.res = (lanesOf (enabled rd f)).map fun k => resBit k b)
      ∧ OthersKept s t w.wid ∧ MemKept s t)
  ∧ (∀ f poll hook s iss w, Ready (.wqdeq f poll hook) s iss w →
    let rd := rdOf (.wqdeq f poll hook) s w iss
    let got := dequeued (fun l => (val32 rd f.a l).toNat) poll s.nextId (evalLanes rd f) s.wqUnits
    wqChk f rd = .ok → hook < w.hooks.length → (∀ h ∈ w.hooks, ∀ x ∈ h.items, x.id ≠ s.nextId) →
    ∃ t w' it, exec (.wqdeq f poll hook) s = .next t ∧ t.warp? w.wid = some w' ∧ w' = { w with hooks := raised w.hooks hook it, lastWr := w'.lastWr }
      ∧ it.id = s.nextId ∧ it.dst = .regs f.d.num 4 ∧ it.lanes = enabled rd f ∧ t.wqUnits = got.2.2
      ∧ (got.2.1 = [] → it.fin = some s.base
          ∧ (evalLanes rd f = lanesOf (enabled rd f) → it.res = got.1.map fun p => { lane := p.1, vals := entryWords p.2 })
          ∧ (∀ l e, got.1 = [(l, e)] → it.res = (lanesOf (enabled rd f)).map fun k => { lane := k, vals := entryWords e }))
      ∧ (got.2.1 ≠ [] → it.fin = none ∧ ∃ op, tget t.ops s.nextId = some op ∧ op.wid = w.wid ∧ op.hook = hook
          ∧ op.kind = .wqdeq got.2.1 (got.1.map fun p => { lane := p.1, vals := entryWords p.2 }))
      ∧ OthersKept s t w.wid ∧ MemKept s t)
  ∧ (∀ f j hook s iss w l u, Ready (.wqenq f j hook) s iss w →
    let rd := rdOf (.wqenq f j hook) s w iss
    let n := (val32 rd f.a l).toNat
    let e : BitVec 128 := BitVec.ofNat 128 (wordsNat (srcQuad rd f.b l))
    wqChk f rd = .ok → evalLanes rd f = [l] → s.wqUnits[n]? = some u →
    ∃ t w' it u', exec (.wqenq f j hook) s = .next t ∧ t.warp? w.wid = some w' ∧ w'.hooks = raised w.hooks hook it
      ∧ it.fin = some s.base ∧ it.dst = .bits f.d.num j 1 .set ∧ it.lanes = enabled rd f ∧ t.wqUnits[n]? = some u'
      ∧ (if u.entries.length - u.waiters.length < 1024 ∧ e.extractLsb' 96 32 ≠ 0xFFFFFFFF
          then u' = { u with entries := u.entries ++ [e] } ∧ it.res = (lanesOf (enabled rd f)).map (resBit · true)
          else u' = u ∧ it.res = (lanesOf (enabled rd f)).map (resBit · false))
      ∧ w'.regs = w.regs ∧ OthersKept s t w.wid ∧ MemKept s t)
  ∧ (∀ f poll hook s iss w l u, Ready (.wqdeq f poll hook) s iss w →
    let rd := rdOf (.wqdeq f poll hook) s w iss
    let n := (val32 rd f.a l).toNat
    let quads (e : BitVec 128) : List LaneRes := (lanesOf (enabled rd f)).map fun k => { lane := k, vals := entryWords e }
    wqChk f rd = .ok → evalLanes rd f = [l] → s.wqUnits[n]? = some u → u.waiters = [] →
    hook < w.hooks.length → (∀ h ∈ w.hooks, ∀ x ∈ h.items, x.id ≠ s.nextId) →
    ∃ t w' it, exec (.wqdeq f poll hook) s = .next t ∧ t.warp? w.wid = some w' ∧ w'.hooks = raised w.hooks hook it
      ∧ it.id = s.nextId ∧ it.dst = .regs f.d.num 4 ∧ it.lanes = enabled rd f ∧ w'.regs = w.regs ∧ OthersKept s t w.wid ∧ MemKept s t
      ∧ (match u.entries with
        | e :: es => t.wqUnits[n]? = some { u with entries := es } ∧ it.fin = some s.base ∧ it.res = quads e
        | [] => if poll then t.wqUnits[n]? = some u ∧ it.fin = some s.base ∧ it.res = quads (BitVec.ofNat 128 (0xFFFFFFFF * 2 ^ 96))
            else t.wqUnits[n]? = some { u with waiters := [(s.nextId, l)] } ∧ it.fin = none ∧ it.res = []))

/-! ## Remote accesses, copies, pulled transfers and the matrix engine -/

namespace Sys2Proof.Claims
open Sys2Proof.Machine

/-- A request that leaves this device: on its way out, or, while an earlier path to that device still carries some, held behind them
(R349). -/
def goesOut (s t : State) (dev : Nat) (f : Frame) : Prop :=
  if tget s.oldPath dev = none then f ∈ t.outbox else (dev, f) ∈ t.heldOut

/-- A remote access (R356): key and offset in quad A, X added to the offset. -/
structure Remote where
  f : Fields
  hook : Nat
  off : Half
  bytes : Nat
  kind : RemKind
  dst : Dst
  data : Rd → Nat → Nat

def remoteSyl : Instr → Option Remote
  | .rld f sz sx _ hook off => some ⟨f, hook, off, szBytes sz, .read sz sx, .regs f.d.num ((szBytes sz + 3) / 4), fun _ _ => 0⟩
  | .rst f sz _ rc hook off => some ⟨f, hook, off, szBytes sz, .write sz rc, .regs 1023 0, fun rd l => storeData rd f.b sz l⟩
  | .ratom f op ty hook off => some ⟨f, hook, off, atyBytes ty, .atomic op ty, .regs f.d.num (if ty.wide then 2 else 1),
      fun rd l => (atomArgs rd f.b op ty l).1⟩
  | _ => none

/-- The key of a lane, and its offset: those of the quad A, X added (R356). -/
def Remote.key (a : Remote) (rd : Rd) (l : Nat) : Dword := BitVec.ofNat 64 (wordsNat (srcQuad rd a.f.a l))
def Remote.at (a : Remote) (rd : Rd) (l : Nat) : Int := ((wordsNat (srcQuad rd a.f.a l) / 2 ^ 64 : Nat) : Int) + a.off.toInt

/-- The copies (R304): what kind each is, EM, and its hook. -/
def copySyl : Instr → Option (Fields × CopyKind × Bool × Nat)
  | .cpyIn f em _ hook => some (f, .linIn, em, hook)
  | .cpyOut f _ _ hook => some (f, .linOut, false, hook)
  | .cpytIn f em _ hook => some (f, .tenIn, em, hook)
  | .cpytOut f _ _ hook => some (f, .tenOut, false, hook)
  | .cpyg f em _ hook => some (f, .gather, em, hook)
  | .cpys f red _ _ hook => some (f, .scatter red, false, hook)
  | .cpyfSp f em hook => some (f, .fillSp, em, hook)
  | .cpyfMem f _ _ hook => some (f, .fillMem, false, hook)
  | .cpyw f em hook => some (f, .cellar, em, hook)
  | .cpyc f em hook => some (f, .scr, em, hook)
  | _ => none

/-- Whether a copy passes the checks of R306 in a scratchpad of `n` bytes: everything aligned to 16, memory within 2^64, scratchpad within
the allocation, the cellar within a window, and no wrong field in a record. -/
def copyFits (s : State) (ctx n : Nat) (c : CopyOp) : Prop :=
  match c.kind with
  | .linIn | .linOut => c.a % 16 = 0 ∧ c.b % 16 = 0 ∧ c.len % 16 = 0 ∧ (c.len = 0 ∨ c.a + c.len ≤ 2 ^ 64 ∧ c.b + c.len ≤ n)
  | .fillSp => c.b % 16 = 0 ∧ c.len % 16 = 0 ∧ (c.len = 0 ∨ c.b + c.len ≤ n)
  | .fillMem => c.b % 16 = 0 ∧ c.len % 16 = 0 ∧ (c.len = 0 ∨ c.b + c.len ≤ 2 ^ 64)
  | .cellar => c.a % 16 = 0 ∧ c.b % 16 = 0 ∧ c.len % 16 = 0 ∧ (c.len = 0 ∨ (cellarWin s ctx c.a c.len).isSome ∧ c.b + c.len ≤ n)
  | .scr => c.a % 16 = 0 ∧ c.b % 16 = 0 ∧ c.len % 16 = 0 ∧ (c.len = 0 ∨ c.a + c.len ≤ n ∧ c.b + c.len ≤ n)
  | .tenIn | .tenOut => recFault c.words n = none
  | .gather | .scatter _ => rowListFault c.words n = none
  | .loftCellar _ _ | .loftTen _ => False

/-- The operands of a copy in its lowest enabled lane (R304, R305). -/
def copyOperands (rd : Rd) (f : Fields) (k : CopyKind) (l : Nat) (c : CopyOp) : Prop :=
  match k with
  | .linIn | .linOut => c.a = (val64 rd f.a l).toNat ∧ c.b = (val32 rd f.b l).toNat ∧ c.len = (val32 rd f.c l).toNat
  | .fillMem => c.a = (val32 rd f.a l).toNat ∧ c.b = (val64 rd f.b l).toNat ∧ c.len = (val32 rd f.c l).toNat
  | .fillSp | .cellar | .scr => c.a = (val32 rd f.a l).toNat ∧ c.b = (val32 rd f.b l).toNat ∧ c.len = (val32 rd f.c l).toNat
  | .tenIn | .tenOut => c.words = (srcSpan rd f.b.num l 24).map Prod.fst
  | .gather | .scatter _ => c.words = (srcSpan rd f.b.num l 8).map Prod.fst
  | .loftCellar _ _ | .loftTen _ => True

/-- The hook of a matrix syllable (R326), and what it will write of the registers. -/
def matrixSyl : Instr → Option (Fields × Nat × Dst)
  | .mcfg f _ _ _ _ hook => some (f, hook, .regs 1023 0)
  | .mloft f _ _ hook => some (f, hook, .regs 1023 0)
  | .mloftw f _ _ hook => some (f, hook, .regs 1023 0)
  | .mlofth f _ hook => some (f, hook, .regs 1023 0)
  | .mma f _ _ _ _ hook => some (f, hook, .regs 1023 0)
  | .mmas f _ _ _ _ hook => some (f, hook, .regs 1023 0)
  | .mscl f _ _ hook => some (f, hook, .regs 1023 0)
  | .mdrainReg f _ _ hook => some (f, hook, .regs f.d.num 8)
  | .mdrainScratch f _ _ _ _ _ hook => some (f, hook, .regs 1023 0)
  | .mzero f _ hook => some (f, hook, .regs 1023 0)
  | .mfence f hook => some (f, hook, .regs 1023 0)
  | _ => none

/-- The little-endian number that `n` bytes of memory from a physical address on hold (R7). -/
def memNat (s : State) (pa : Nat) : Nat → Nat
  | 0 => 0
  | n + 1 => (byteAt s pa).toNat + 256 * memNat s (pa + 1) n

/-- The bytes of scratchpad that a copy writes (R308, R313 to R316): its range, or the rows it gathers or copies into, padded. -/
def writesScratch (c : CopyOp) (off : Nat) : Prop :=
  match c.kind with
  | .linIn | .fillSp | .cellar | .scr => c.b ≤ off ∧ off < c.b + c.len
  | .gather => (rowListOf c.words).data ≤ off ∧ off < (rowListOf c.words).data + (rowListOf c.words).count * (rowListOf c.words).rowb
  | .tenIn => ∃ q < (layoutOf c.words).rows, (layoutOf c.words).dest + q * (layoutOf c.words).pitch' ≤ off
      ∧ off < (layoutOf c.words).dest + q * (layoutOf c.words).pitch' + (layoutOf c.words).pitch
  | .linOut | .fillMem | .tenOut | .scatter _ | .loftCellar _ _ | .loftTen _ => False

/-- A copy in flight that may move its next unit now (R307, R309): it waits for nothing, what its warp issued before it has been performed,
its engine is free, no bank is taken, no line is empty, and no other copy is writing scratchpad of its team. -/
structure CopyTurn (s : State) (o : Op) (c : CopyOp) (w : Warp) (tm : Team) : Prop where
  op : tget s.ops o.id = some o
  copy : copyOf o.kind = some c
  warp : s.warp? o.wid = some w
  team : s.team? w.team = some tm
  tid : tm.tid = w.team
  canonical : cwf tm.scratch = true
  going : c.asked = none ∧ c.fault = none ∧ c.finished = false ∧ c.row < c.rows ∧ c.pos < c.rowLen
  older : olderScr s w o.id = false
  engine : (s.core o.core).copyFree ≤ coreCycle s o.core
  banks : ∀ b, (s.core b).bankUse = [] ∧ (s.core b).engUse = []
  port : portBusy s o = false
  full : tm.empty = []
  others : tm.dests = [] ∧ ∀ x, othersPut s o.id w.team x = false

/-- Memory from an address to the end of its line as a copy reaches it: mapped with a right, unencrypted, its line unpoisoned, with a place
in L2; none of its bytes undefined for a copy that reads it, and none written by another copy in flight where one writes it. -/
structure Reached (s : State) (o : Op) (va : Nat) (n : Need) (l : Leaf) : Prop where
  mapped : lookupTr s o.core o.ctx va o.walkRes = .hit l
  right : n.ok l = true
  plain : l.enc = false
  page : l.pa % 128 = 0 ∧ 7 ≤ l.size
  line : plainLine s (l.phys va / 128) ∧ roomFor s (l.phys va / 128)
  whole : n = .r → lostMask s (l.phys va / 128) ||| claimMask s (l.phys va / 128) false (some o.id) = 0
  alone : n = .w → ∀ c, copyOf o.kind = some c → ∀ pa nib, rewrites s o.id c pa nib = false

/-- A unit of `n` positions of a copy has been moved: it goes on with the next or ends (R307, R310), and its lines whose data has landed are
marked full, all of them at its end (R308). -/
def UnitMoved (s t : State) (o : Op) (w : Warp) (c : CopyOp) (n : Nat) : Prop :=
  ∃ o' c' tm', tget t.ops o.id = some o' ∧ copyOf o'.kind = some c' ∧ c'.kind = c.kind ∧ t.team? w.team = some tm'
    ∧ (if c.pos + n = c.rowLen then c'.row = c.row + 1 ∧ c'.pos = 0 else c'.row = c.row ∧ c'.pos = c.pos + n)
    ∧ (∃ p ∈ t.pending, p.ev = if c'.row = c.rows then copyEnd o else .copyUnitMove o.id)
    ∧ (∀ off, writesScratch c off → c.marked ≤ off / 128 →
        c'.row = c.rows ∨ (c.kind ≠ .tenIn ∧ c.kind ≠ .gather ∧ off / 128 * 128 + 128 ≤ c.b + c.pos + n) → (off / 128, 0, true) ∈ tm'.marks)
    ∧ t.warps = s.warps

/-- A step that puts `n` bytes, given by `v`, into a team's scratchpad from an offset on, and changes no other byte of scratchpad and none
of memory. -/
def PutsScratch (s t : State) (tid off n : Nat) (v : Nat → Byte) : Prop :=
  (∀ k < n, scratchByte t tid (off + k) = v k) ∧ (∀ x, x < off ∨ off + n ≤ x → scratchByte t tid x = scratchByte s tid x)
    ∧ (∀ d x, d ≠ tid → scratchByte t d x = scratchByte s d x) ∧ ∀ a, byteAt t a = byteAt s a

/-- A step that puts `n` bytes, given by `v`, into memory from a physical address on, and changes no other byte of memory and none of
scratchpad. -/
def PutsMemory (s t : State) (pa n : Nat) (v : Nat → Byte) : Prop :=
  (∀ k < n, byteAt t (pa + k) = v k) ∧ (∀ a, a < pa ∨ pa + n ≤ a → byteAt t a = byteAt s a)
    ∧ ∀ d x, scratchByte t d x = scratchByte s d x

/-- The number of bytes of a unit: to the end of the transfer or row, and of the line of `x`. -/
def unitOf (left x : Nat) : Nat := min left (128 - x % 128)

/-- What a copy reads into its buffer before it writes: of a cpyc its source, of cpyg and cpys their index list, all of it where the rows
are added; first offset, length, and whether it still reads (R313, R316, R317). -/
def readsAhead (c : CopyOp) : Option (Nat × Nat) :=
  let r := rowListOf c.words
  match c.kind with
  | .scr => if c.buf.length < c.len then some (c.a, c.len) else none
  | .gather | .scatter .none => if c.buf.length < 4 * c.row + 4 then some (r.idx, 4 * r.count) else none
  | .scatter _ => if c.buf.length < 4 * r.count then some (r.idx, 4 * r.count) else none
  | .linIn | .linOut | .fillSp | .fillMem | .cellar | .tenIn | .tenOut | .loftCellar _ _ | .loftTen _ => none

/-- The index of the next row of a row list, little-endian in the buffer. -/
def rowIndex (c : CopyOp) : Nat := ((c.buf.drop (4 * c.row)).take 4).foldr (fun b n => b.toNat + 256 * n) 0

/-- Byte `i` of an element of a window (R47, R314): of the element of the tensor that it takes, or of the fill. -/
def windowByte (s : State) (y : Layout) (l : Leaf) (q j i : Nat) : Byte :=
  match y.source q j with
  | some ix => byteAt s (l.phys (elemAddr y none y.base ix + i))
  | none => BitVec.ofNat 8 (y.fillBits / 256 ^ i)

/-- An operation of the matrix engine that is performed now (R330 to R332): it is in its order, finds no fault, no other work is at the
banks of its engine's port, and this is its last bank cycle. -/
structure MatrixTurn (s : State) (o : Op) (m : MatOp) (w : Warp) (tm : Team) : Prop where
  op : tget s.ops o.id = some o
  kind : o.kind = .matrix m
  own : m.copy = none
  warp : s.warp? o.wid = some w
  team : s.team? w.team = some tm
  tid : tm.tid = w.team
  resident : tm.place = .resident
  canonical : cwf tm.scratch = true
  core : w.core < s.cores.length
  going : m.performed = false ∧ m.finished = false
  ready : matReady s o w tm m = true
  sound : matFault (s.core w.core).engine w tm m = none
  unpoisoned : s.cellarPoison = []
  port : portBusy s o = false
  banks : ∀ b, (s.core b).bankUse = [] ∧ (s.core b).engUse = []
  last : mostWords ((matReads (s.core w.core).engine m ++ matWrites m ((s.core w.core).engine.tile (matTile m.ins))).flatMap
    fun r => engBanks tm r.1 r.2) ≤ o.banked + 1

/-- A step that changes no byte of memory and no scratchpad byte, no tile but those of `tiles` and no macro but those of `macros` of the
engine of a core, and will finish the operation. -/
def EngineStep (s t : State) (core id : Nat) (tiles macros : Nat → Prop) : Prop :=
  (∀ a, byteAt t a = byteAt s a) ∧ (∀ d x, scratchByte t d x = scratchByte s d x)
    ∧ (∀ k, ¬tiles k → (t.core core).engine.tiles[k]? = (s.core core).engine.tiles[k]?)
    ∧ (∀ k, ¬macros k → (t.core core).engine.macros[k]? = (s.core core).engine.macros[k]?)
    ∧ ∃ p ∈ t.pending, p.ev = .matrixOpFinish id

/-- Element `k`, of `w` bits, of a row given by its bytes: nibbles low first, and little-endian (R17, R333, R336). -/
def elementCode (w : Nat) (byte : Nat → Nat) (k : Nat) : Nat :=
  if w = 4 then byte (k / 2) / 16 ^ (k % 2) % 16 else if w = 8 then byte k else byte (2 * k) + 256 * byte (2 * k + 1)

/-- The value of an element: a float, none where it is not finite; an integer with all but its `p` high bits cleared (R337). -/
def elementValue (t : EType) (p code : Nat) : Option ℚ :=
  match fmtOf t with
  | some fm => match fm.decode code with
    | .fin neg m e => some (rat neg m e)
    | .nan _ | .inf _ => none
  | none =>
    let c := code / 2 ^ (t.bits - p) * 2 ^ (t.bits - p)
    some (if t ≠ .z8 ∧ 2 ^ (t.bits - 1) ≤ c then (c : ℚ) - 2 ^ t.bits else c)

/-- Byte `n` of A row `i` of an mma, in the registers from `a` on (R336). -/
def fragmentByte (s : State) (w : Warp) (a i n : Nat) : Nat :=
  let g := 128 / w.width
  (regRead s w (a + g * i + n % (4 * g) / 4) (n / (4 * g))).1.toNat / 256 ^ (n % 4) % 256

/-- An f32 code is an exact value rounded to nearest, of which an infinite one overflows (R22). -/
def roundsTo (code : Nat) (x : ℚ) : Prop :=
  match fmtF32.decode code with
  | .fin neg m e => ∃ q : ℤ, (q = -149 ∨ (2 : ℚ) ^ (q + 23) ≤ |x|) ∧ |rat neg m e - x| ≤ (2 : ℚ) ^ q / 2
  | .inf neg => (2 : ℚ) ^ 128 - 2 ^ 103 ≤ |x| ∧ (neg = true ↔ x < 0)
  | .nan _ => False

/-- An accumulator with one block sum after another added, `n` of them (R337): each sum of a finite accumulator and a block is rounded
once; an s32 accumulator holds the sum of all of them modulo 2^32. -/
def Accumulates (f32 : Bool) (old new : RegCell) (n : Nat) (block : Nat → ℚ) : Prop :=
  if f32 then ∃ code : Nat → Nat, code 0 = old.val.toNat ∧ code n = new.val.toNat
    ∧ ∀ j < n, ∀ neg m e, fmtF32.decode (code j) = .fin neg m e → roundsTo (code (j + 1)) (rat neg m e + block j)
  else ∃ x : ℤ, (x : ℚ) = ∑ j ∈ Finset.range n, block j ∧ new = ⟨old.val + BitVec.ofInt 32 x, 0, 63, false⟩

/-- The scale of a block of f32 codes, and the code of one of them under a scale (R222, R341). -/
def drainScale (dt : EType) (vs : List Nat) : Nat :=
  if vs.any fun v => (fmtF32.decode v).isNan then 0xFF
  else match fmtF32.decode (vs.foldl (fun m v => max m (v % 2 ^ 31)) 0) with
    | .fin _ m e => if m = 0 then 0 else (max 0 (min ((Nat.log2 m : Int) + e - scEmax dt + 127) 254)).toNat
    | .inf _ | .nan _ => 0xFE
def drainCode (dt : EType) (v e8 : Nat) : Nat :=
  let df := (fmtOf dt).getD fmtE4m3
  match fmtF32.decode v with
  | .nan _ => df.nan
  | .inf neg => if e8 = 0xFF then df.nan else df.signBit neg + df.maxCode
  | .fin neg m e => if e8 = 0xFF then df.nan else (df.ofFv .rn true false (.fin neg m (e - ((e8 : Int) - 127)))).code

/-- The quantised form of `rows` × `cols` f32 codes in scratchpad from an offset on (R340, R341): each row's codes, then four scales for
each row. -/
def Quantised (t : State) (tid off : Nat) (dt : EType) (rows cols : Nat) (v : Nat → Nat → Nat) : Prop :=
  let rs := (cols * dt.bits / 8 + 15) / 16 * 16
  let block (r j : Nat) : List Nat := (List.range (min 32 (cols - 32 * j))).map fun k => v r (32 * j + k)
  (∀ r < rows, ∀ c < cols,
      elementCode dt.bits (fun x => (scratchByte t tid (off + rs * r + x)).toNat) c = drainCode dt (v r c) (drainScale dt (block r (c / 32))))
    ∧ ∀ r < rows, ∀ j < 4, scratchByte t tid (off + rs * rows + 4 * r + j) = if 32 * j < cols then BitVec.ofNat 8 (drainScale dt (block r j)) else 0

/-- What a scratchpad drain writes from its operand A on, and its transposed copy from B on: number of bytes (R340). -/
def drainSize (fmt : DrFmt) (rows cols : Nat) : Nat :=
  match fmt with
  | .raw => 4 * rows * cols
  | .bf16 => 2 * rows * cols
  | .e4m3 => rows * ((cols + 15) / 16 * 16) + 4 * rows
  | .e2m1 => rows * ((cols / 2 + 15) / 16 * 16) + 4 * rows

/-- The work of a warp that no result in flight and no hook can change any more in its registers. -/
def settled (w : Warp) : Prop :=
  w.flight = [] ∧ w.attic = none ∧ ∀ h ∈ w.hooks, ∀ i ∈ h.items, i.dst = .regs 1023 0 ∧ i.res = []

/-- The item of a piece of work. -/
def workOf (s : State) (o : Op) (w : Warp) (it : HookItem) : Prop :=
  s.warp? o.wid = some w ∧ w.wid = o.wid ∧ (∃ k, w.hooks[o.hook]? = some k ∧ k.items.find? (fun x => x.id = o.id) = some it)

/-- The item of a piece of work after a step. -/
def workAfter (t : State) (o : Op) (w : Warp) (it : HookItem) : Prop :=
  t.warp? o.wid = some w ∧ (w.hook o.hook).items.find? (fun x => x.id = o.id) = some it

/-- The event a copy goes on with. -/
def copyEvent (c : CopyOp) (id : Nat) : Instr := if c.rows = 0 then .copyFinish id else .copyUnitMove id

end Sys2Proof.Claims

open Sys2Proof Sys2Proof.Machine Sys2Proof.Claims

/-- R356, R357, R360: a remote access whose offsets are in range and aligned issues and raises its hook; its lanes are sent in groups of one
key each, to the device the key names when it can be reached, with the time-out of 1 ms, and fail with REASON 7 otherwise. With d groups, d at least 2, its context
keeps from an M syllable to tick t + d, and the other contexts of its room for d − 1 clock cycles. No register and no byte changes at
issue. -/
def Obligations.RemoteAccessesIssue : Prop :=
  ∀ i a, remoteSyl i = some a → ∀ s iss w, Ready i s iss w →
    let rd := rdOf i s w iss
    (∀ l ∈ evalLanes rd a.f, 0 ≤ a.at rd l ∧ a.at rd l < 2 ^ 64 ∧ a.at rd l % a.bytes = 0) →
    let d := ((evalLanes rd a.f).map (a.key rd)).eraseDups.length
    ∃ t w', exec i s = .next t ∧ t.warp? w.wid = some w'
      ∧ w' = { w with
          hooks := raised w.hooks a.hook (workItem s iss a.dst (enabled rd a.f)), lastWr := w'.lastWr, mBusy := w'.mBusy }
      ∧ (if 2 ≤ d then (iss.slices.headD 0, iss.tick + d) ∈ w'.mBusy else w'.mBusy = w.mBusy)
      ∧ (2 ≤ d → w.core < s.cores.length → w.room < (s.core w.core).rooms.length →
          (w.wid, iss.slices.headD 0, coreCycle s w.core + d - 1) ∈ ((t.core w.core).rooms.getD w.room {}).mHold)
      ∧ (enabled rd a.f ≠ 0 → ∃ op m, tget t.ops s.nextId = some op ∧ op.wid = w.wid ∧ op.hook = a.hook ∧ op.kind = .remote m
          ∧ m.waiting = (evalLanes rd a.f).map fun l => (l, a.key rd l, (a.at rd l).toNat))
      ∧ (∀ l ∈ evalLanes rd a.f, ∃ r : RemReq, r.key = a.key rd l ∧ r.src = s.devid ∧ r.opId = s.nextId ∧ r.kind = a.kind ∧ r.byVa = false
          ∧ r.lanes.map (fun x => (x.lane, x.off, x.data)) = ((evalLanes rd a.f).filter fun k => a.key rd k = r.key).map
              (fun k => (k, (a.at rd k).toNat, BitVec.ofNat 128 (a.data rd k)))
          ∧ (if reaches s (keyDev r.key) then
              (if keyDev r.key = s.devid then ∃ p ∈ t.pending, p.ev = .remoteRequestIngress r
                else goesOut s t (keyDev r.key) (Frame.remote (keyDev r.key) r))
              ∧ ∃ p ∈ t.pending, p.ev = .remoteTimeout s.nextId ∧ p.due = s.base + 1250000
            else ∃ p ∈ t.pending, p.ev = .remoteReplyArrival s.nextId (r.lanes.map fun x => .reject x.lane 7)))
      ∧ OthersKept s t w.wid ∧ MemKept s t

/-- R304, R305, R306: a copy with an enabled lane issues when its lowest enabled lane's operands pass their checks and fewer than 64
copies are in flight on its core: it raises its hook, and a copy of those operands is in flight. No register and no byte changes at issue.
With EM the lines that it writes are cleared in this clock cycle (R308). With no lane enabled its item finishes at once. R306: a linear
copy from memory whose scratchpad range leaves the allocation, all else in order, raises the access fault (0C) with the offset in TRVAL
and nothing starts. R313 to R317: a copy in its turn moves the next piece of its range or row, up to the end of a 128-byte line: cpy.in and
cpyw put the bytes of memory or of the cellar into scratchpad, cpy.out those of scratchpad into memory, cpyf its pattern; cpyc reads its
whole source before it writes, and cpyg and cpys their index list; cpyg puts a row of memory, or zeros for an index at or above LIMIT, and
cpys writes its row to memory, skips it, or adds its words; cpyt.in puts the elements of a window, or their fill, and zero in the padding
of a row, and cpyt.out writes the elements in the tensor. It then goes on or ends, and marks full the lines that are complete (R308). The
units are those of the model, one a step (log 40, DESIGN CHOICE); windows are stated for local tensors of whole bytes that SWZ does not
mix. -/
def Obligations.CopiesIssue : Prop :=
  (∀ i f k em hook, copySyl i = some (f, k, em, hook) → ∀ s iss w, Ready i s iss w →
    let rd := rdOf i s w iss
    (enabled rd f = 0 → ∃ t w', exec i s = .next t ∧ t.warp? w.wid = some w'
      ∧ w' = { w with hooks := raised w.hooks hook (workItem s iss (.regs 1023 0) 0) } ∧ t.ops = s.ops ∧ OthersKept s t w.wid ∧ MemKept s t)
    ∧ (∀ tm l, s.team? w.team = some tm → (lanesOf (enabled rd f)).head? = some l → copiesOn s w.core < 64 →
      (∀ c : CopyOp, c.kind = k → copyOperands rd f k l c → copyFits s (ctxOf s w) tm.bytes c) →
      ∃ t w' op c, exec i s = .next t ∧ t.warp? w.wid = some w'
        ∧ w' = { w with hooks := raised w.hooks hook { workItem s iss (.regs 1023 0) (enabled rd f) with lanes := iss.lanes }, lastWr := w'.lastWr }
        ∧ tget t.ops s.nextId = some op ∧ op.wid = w.wid ∧ op.hook = hook ∧ op.core = w.core ∧ op.kind = .copy c
        ∧ c.kind = k ∧ c.em = em ∧ copyOperands rd f k l c ∧ c.lanes = iss.lanes ∧ c.finished = false ∧ c.row = 0 ∧ c.pos = 0
        ∧ (∃ p ∈ t.pending, p.ev = copyEvent c s.nextId ∧ s.base + 1 ≤ p.due)
        ∧ (∃ tm', t.team? w.team = some tm' ∧ ∀ line, (line, 1, false) ∈ tm'.marks ↔
            (line, 1, false) ∈ tm.marks ∨ em = true ∧ ∃ off, off / 128 = line ∧ writesScratch c off)
        ∧ OthersKept s t w.wid ∧ MemKept s t))
  ∧ (∀ f em stm hook s iss rest w tm l, Ready (.cpyIn f em stm hook) s iss w → s.issuing = iss :: rest →
    let rd := rdOf (.cpyIn f em stm hook) s w iss
    let a := (val64 rd f.a l).toNat
    let b := (val32 rd f.b l).toNat
    let n := (val32 rd f.c l).toNat
    s.team? w.team = some tm → (lanesOf (enabled rd f)).head? = some l → copiesOn s w.core < 64 →
    a % 16 = 0 → b % 16 = 0 → n % 16 = 0 → 0 < n → a + n ≤ 2 ^ 64 → tm.bytes < b + n →
    ∃ t w' d, exec (.cpyIn f em stm hook) s = .next t ∧ t.issuing = rest ∧ t.warp? w.wid = some w' ∧ w'.due = w.due ++ [d]
      ∧ d.cause = 0x0C ∧ d.cls = 0 ∧ d.lanes = iss.lanes ∧ d.val = BitVec.ofNat 64 b ∧ w'.regs = w.regs ∧ w'.hooks = w.hooks
      ∧ t.ops = s.ops ∧ MemKept s t)
  ∧ ((∀ s o c w tm l, CopyTurn s o c w tm → c.kind = .linIn → Reached s o (c.a + c.pos) .r l →
    let n := unitOf (c.len - c.pos) (c.a + c.pos)
    ∃ t, exec (.copyUnitMove o.id) s = .next t ∧ UnitMoved s t o w c n
      ∧ PutsScratch s t w.team (c.b + c.pos) n fun k => byteAt s (l.phys (c.a + c.pos) + k))
  ∧ (∀ s o c w tm l, CopyTurn s o c w tm → c.kind = .linOut → Reached s o (c.a + c.pos) .w l →
    let n := unitOf (c.len - c.pos) (c.a + c.pos)
    ∃ t, exec (.copyUnitMove o.id) s = .next t ∧ UnitMoved s t o w c n
      ∧ PutsMemory s t (l.phys (c.a + c.pos)) n fun k => scratchByte s w.team (c.b + c.pos + k))
  ∧ (∀ s o c w tm l, CopyTurn s o c w tm → c.kind = .fillMem → Reached s o (c.b + c.pos) .w l →
    let n := unitOf (c.len - c.pos) (c.b + c.pos)
    ∃ t, exec (.copyUnitMove o.id) s = .next t ∧ UnitMoved s t o w c n
      ∧ PutsMemory s t (l.phys (c.b + c.pos)) n fun k => BitVec.ofNat 8 (c.a / 256 ^ ((c.pos + k) % 4)))
  ∧ (∀ s o c w tm, CopyTurn s o c w tm → c.kind = .fillSp →
    let n := unitOf (c.len - c.pos) (c.b + c.pos)
    ∃ t, exec (.copyUnitMove o.id) s = .next t ∧ UnitMoved s t o w c n
      ∧ PutsScratch s t w.team (c.b + c.pos) n fun k => BitVec.ofNat 8 (c.a / 256 ^ ((c.pos + k) % 4)))
  ∧ (∀ s o c w tm, CopyTurn s o c w tm → c.kind = .cellar → s.cellarPoison = [] → refreshEnd s (c.a + c.pos) = none →
    let n := unitOf (c.len - c.pos) (c.a + c.pos)
    ∃ t, exec (.copyUnitMove o.id) s = .next t ∧ UnitMoved s t o w c n
      ∧ PutsScratch s t w.team (c.b + c.pos) n fun k => cget s.cellar (c.a + c.pos + k))
  ∧ (∀ s o c w tm start total, CopyTurn s o c w tm → readsAhead c = some (start, total) → c.buf.length < total →
    let x := start + c.buf.length
    let n := unitOf (total - c.buf.length) x
    ∃ t o' c', exec (.copyUnitMove o.id) s = .next t ∧ tget t.ops o.id = some o' ∧ copyOf o'.kind = some c'
      ∧ c'.buf = c.buf ++ (List.range n).map (fun k => scratchByte s w.team (x + k)) ∧ c'.row = c.row ∧ c'.pos = c.pos
      ∧ (∃ p ∈ t.pending, p.ev = .copyUnitMove o.id) ∧ (∀ a, byteAt t a = byteAt s a) ∧ (∀ d a, scratchByte t d a = scratchByte s d a)
      ∧ t.warps = s.warps)
  ∧ (∀ s o c w tm, CopyTurn s o c w tm → c.kind = .scr → c.len ≤ c.buf.length →
    let n := unitOf (c.len - c.pos) (c.b + c.pos)
    ∃ t, exec (.copyUnitMove o.id) s = .next t ∧ UnitMoved s t o w c n
      ∧ PutsScratch s t w.team (c.b + c.pos) n fun k => c.buf.getD (c.pos + k) 0)
  ∧ (∀ s o c w tm, CopyTurn s o c w tm → c.kind = .gather → readsAhead c = none →
    let r := rowListOf c.words
    let off := r.data + c.row * r.rowb + c.pos
    (r.limit ≤ rowIndex c ∨ rowIndex c = 0xFFFFFFFF →
      ∃ t, exec (.copyUnitMove o.id) s = .next t ∧ UnitMoved s t o w c (unitOf (r.rowb - c.pos) off)
        ∧ PutsScratch s t w.team off (unitOf (r.rowb - c.pos) off) fun _ => 0)
    ∧ (∀ l, let a := r.base + rowIndex c * r.stride
      rowIndex c < r.limit → rowIndex c ≠ 0xFFFFFFFF → a + r.rowb ≤ 2 ^ 64 → Reached s o (a + c.pos) .r l →
      ∃ t, exec (.copyUnitMove o.id) s = .next t ∧ UnitMoved s t o w c (unitOf (r.rowb - c.pos) (a + c.pos))
        ∧ PutsScratch s t w.team off (unitOf (r.rowb - c.pos) (a + c.pos)) fun k => byteAt s (l.phys (a + c.pos) + k)))
  ∧ (∀ s o c w tm red, CopyTurn s o c w tm → c.kind = .scatter red → readsAhead c = none →
    let r := rowListOf c.words
    let off := r.data + c.row * r.rowb + c.pos
    let a := r.base + rowIndex c * r.stride
    let n := unitOf (r.rowb - c.pos) (a + c.pos)
    (r.limit ≤ rowIndex c ∨ rowIndex c = 0xFFFFFFFF →
      ∃ t o' c', exec (.copyUnitMove o.id) s = .next t ∧ tget t.ops o.id = some o' ∧ copyOf o'.kind = some c' ∧ c'.row = c.row + 1
        ∧ (∀ a, byteAt t a = byteAt s a) ∧ ∀ d x, scratchByte t d x = scratchByte s d x)
    ∧ (∀ l, red = .none → rowIndex c < r.limit → rowIndex c ≠ 0xFFFFFFFF → a + r.rowb ≤ 2 ^ 64 → Reached s o (a + c.pos) .w l →
      ∃ t, exec (.copyUnitMove o.id) s = .next t ∧ UnitMoved s t o w c n
        ∧ PutsMemory s t (l.phys (a + c.pos)) n fun k => scratchByte s w.team (off + k))
    ∧ (∀ l, red ≠ .none → rowIndex c < r.limit → rowIndex c ≠ 0xFFFFFFFF → a + r.rowb ≤ 2 ^ 64 → Reached s o (a + c.pos) .rw l →
      lostMask s (l.phys (a + c.pos) / 128) ||| claimMask s (l.phys (a + c.pos) / 128) true none = 0 →
      r.count = 1 → (a + c.pos) % 4 = 0 → r.rowb % 4 = 0 → c.pos % 4 = 0 →
      let pa := l.phys (a + c.pos)
      ∃ t, exec (.copyUnitMove o.id) s = .next t ∧ UnitMoved s t o w c n
        ∧ (∀ j, 4 * j < n → memNat t (pa + 4 * j) 4
            = atomicValue .add (if red = .addf then .f32 else .s32) (memNat s (pa + 4 * j) 4) (scrNat s w.team (off + 4 * j) 4) 0)
        ∧ (∀ x, x < pa ∨ pa + n ≤ x → byteAt t x = byteAt s x) ∧ ∀ d x, scratchByte t d x = scratchByte s d x))
  ∧ (∀ s o c w tm l, CopyTurn s o c w tm → c.kind = .tenIn →
    let y := layoutOf c.words
    let b := y.ebits / 8
    y.otaddr = 0 → c.table = none → 8 ≤ y.ebits → y.swz ≤ 1 →
    (∀ j < y.box 0, ∀ ix, y.source c.row j = some ix → ∀ i < b, Reached s o (elemAddr y none y.base ix + i) .r l) →
    ∃ t n, exec (.copyUnitMove o.id) s = .next t ∧ 0 < n ∧ c.pos + n ≤ y.box 0 ∧ UnitMoved s t o w c n
      ∧ (∀ j < n, ∀ i < b, scratchByte t w.team (y.place c.row ((c.pos + j) * b + i)) = windowByte s y l c.row (c.pos + j) i)
      ∧ (c.pos + n = y.box 0 → ∀ k, y.rowBytes ≤ k → k < y.pitch → scratchByte t w.team (y.place c.row k) = 0)
      ∧ (∀ x, (∀ k, c.pos * b ≤ k → k < (c.pos + n) * b ∨ (c.pos + n = y.box 0 ∧ k < y.pitch) → x ≠ y.place c.row k) →
          scratchByte t w.team x = scratchByte s w.team x)
      ∧ (∀ d x, d ≠ w.team → scratchByte t d x = scratchByte s d x) ∧ ∀ a, byteAt t a = byteAt s a)
  ∧ (∀ s o c w tm l, CopyTurn s o c w tm → c.kind = .tenOut →
    let y := layoutOf c.words
    let b := y.ebits / 8
    let at' (j : Nat) : Nat := elemAddr y none y.base (y.clamped (y.coord c.row j))
    let inTensor (j : Nat) : Prop := y.inside (y.coord c.row j) = true
    y.otaddr = 0 → c.table = none → 8 ≤ y.ebits → y.swz ≤ 1 →
    (∀ j < y.box 0, inTensor j → ∀ i < b, Reached s o (at' j + i) .w l) →
    ∃ t n, exec (.copyUnitMove o.id) s = .next t ∧ 0 < n ∧ c.pos + n ≤ y.box 0 ∧ UnitMoved s t o w c n
      ∧ (∀ j < n, inTensor (c.pos + j) → ∀ i < b,
          byteAt t (l.phys (at' (c.pos + j) + i)) = scratchByte s w.team (y.place c.row ((c.pos + j) * b + i)))
      ∧ (∀ x, (∀ j < n, inTensor (c.pos + j) → ∀ i < b, x ≠ l.phys (at' (c.pos + j) + i)) → byteAt t x = byteAt s x)
      ∧ ∀ d x, scratchByte t d x = scratchByte s d x))

/-- R365, R366: bsend and brecv with an enabled lane issue when their record passes its checks: the hook is raised by an item that will
write one word, and the send or receive holds the slot the record names. R373, R374: bprobe returns 0 for a slot in no use, and for one in
use STATE, 2 once the message moves and 1 while it waits for its receiver or for its first token, and the units moved; bcancel of a slot in
no use changes nothing but its hook, and of a send or receive that has not ended, nor completed in this clock cycle, ends it with STATUS 4.
Both issue when the slot is below 256, by an item that has finished, and change no register and no byte at issue. That every enabled lane
gets the word is the model's deduction (log 61, DEDUCED), and that the units of a send to another device are any number up to those asked
for is its choice (log 46, DESIGN CHOICE). -/
def Obligations.BulkSyllablesIssue : Prop :=
  ((∀ f hook s iss w l, Ready (.bsend f hook) s iss w →
    let rd := rdOf (.bsend f hook) s w iss
    let ws := (srcSpan rd f.b.num l 8).map Prod.fst
    let wd (k : Nat) : Nat := (ws.getD k 0).toNat
    (lanesOf (enabled rd f)).head? = some l →
    16 ≤ wd 4 → wd 4 ≤ 2 ^ 30 → wd 4 % 16 = 0 → wd 6 < 1024 → wd 7 = 0 → (wd 2 + 2 ^ 32 * wd 3) % 16 = 0 →
    wd 2 + 2 ^ 32 * wd 3 + wd 4 ≤ 2 ^ 64 → sendAt s (ctxOf s w) (wd 6 % 256) = none →
    ∃ t w' op b, exec (.bsend f hook) s = .next t ∧ t.warp? w.wid = some w'
      ∧ w' = { w with hooks := raised w.hooks hook (workItem s iss (.regs f.d.num 1) (enabled rd f)), lastWr := w'.lastWr }
      ∧ tget t.ops s.nextId = some op ∧ op.wid = w.wid ∧ op.kind = .bsend b ∧ b.slot = wd 6 % 256 ∧ b.len = wd 4
      ∧ b.key = BitVec.ofNat 64 (wd 0 + 2 ^ 32 * wd 1) ∧ b.src = wd 2 + 2 ^ 32 * wd 3 ∧ b.mtag = ws.getD 5 0 ∧ b.prio = wd 6 / 256 % 4
      ∧ (∃ p ∈ t.pending, p.ev = .bulkRequestRetry s.nextId) ∧ OthersKept s t w.wid ∧ MemKept s t)
  ∧ (∀ f hook s iss w l e, Ready (.brecv f hook) s iss w →
    let rd := rdOf (.brecv f hook) s w iss
    let ws := (srcSpan rd f.b.num l 8).map Prod.fst
    let wd (k : Nat) : Nat := (ws.getD k 0).toNat
    (lanesOf (enabled rd f)).head? = some l →
    16 ≤ wd 2 → wd 2 ≤ 2 ^ 30 → wd 2 % 16 = 0 → wd 4 < 2 ^ 17 → wd 5 < 256 → wd 6 = 0 → wd 7 = 0 → (wd 0 + 2 ^ 32 * wd 1) % 16 = 0 →
    wd 0 + 2 ^ 32 * wd 1 + wd 2 ≤ 2 ^ 64 → recvAt s (ctxOf s w) (wd 5) = none →
    tget s.windows (wd 4 % 1024) = some e → winValid e = true → winVest e = true → winCtx e = ctxOf s w →
    ∃ t w' op b, exec (.brecv f hook) s = .next t ∧ t.warp? w.wid = some w'
      ∧ w' = { w with hooks := raised w.hooks hook (workItem s iss (.regs f.d.num 1) (enabled rd f)), lastWr := w'.lastWr }
      ∧ tget t.ops s.nextId = some op ∧ op.wid = w.wid ∧ op.kind = .brecv b ∧ b.slot = wd 5 ∧ b.cap = wd 2
      ∧ b.dst = wd 0 + 2 ^ 32 * wd 1 ∧ b.win = wd 4 % 1024 ∧ b.mtag = ws.getD 3 0
      ∧ OthersKept s t w.wid ∧ MemKept s t))
  ∧ ((∀ i f hook rcv s iss w l, (i = .bprobeSnd f hook ∧ rcv = false ∨ i = .bprobeRcv f hook ∧ rcv = true) → Ready i s iss w →
    let rd := rdOf i s w iss
    let slot := (val32 rd f.a l).toNat
    (lanesOf (enabled rd f)).head? = some l → slot < 256 →
    ∃ t w' v, exec i s = .next t ∧ t.warp? w.wid = some w'
      ∧ w' = { w with
          hooks := raised w.hooks hook { workItem s iss (.regs f.d.num 1) (enabled rd f) with
            fin := some s.base, res := (lanesOf (enabled rd f)).map fun k => { lane := k, vals := [(v, 63)] } }
          lastWr := w'.lastWr }
      ∧ (rcv = false → sendAt s (ctxOf s w) slot = none → v = 0) ∧ (rcv = true → recvAt s (ctxOf s w) slot = none → v = 0)
      ∧ (∀ op b, rcv = false → sendAt s (ctxOf s w) slot = some (op, b) →
          ∃ units, v = BitVec.ofNat 32 ((if b.moving || b.done.isSome then 2 else 1) + 16 * units)
            ∧ (match ownMsg s op.id with
              | some e => units = e.2.got / 16
              | none => if b.moving then units ≤ (b.len - rangeSum b.left) / 16 else units = b.units))
      ∧ (∀ op r, rcv = true → recvAt s (ctxOf s w) slot = some (op, r) →
          v = match r.msg.bind (tget s.msgs ·) with
            | some m => BitVec.ofNat 32 ((if m.granted = true ∨ m.need = [] then 2 else 1) + 16 * (m.got / 16))
            | none => if r.done = none then 1 else 2)
      ∧ OthersKept s t w.wid ∧ MemKept s t)
  ∧ (∀ i f hook rcv s iss w l, (i = .bcancelSnd f hook ∧ rcv = false ∨ i = .bcancelRcv f hook ∧ rcv = true) → Ready i s iss w →
    let rd := rdOf i s w iss
    let slot := (val32 rd f.a l).toNat
    (lanesOf (enabled rd f)).head? = some l → slot < 256 →
    ∃ t w', exec i s = .next t ∧ t.warp? w.wid = some w' ∧ w'.regs = w.regs ∧ w'.slices = w.slices ∧ w'.flight = w.flight ∧ MemKept s t
      ∧ ((rcv = false → sendAt s (ctxOf s w) slot = none) → (rcv = true → recvAt s (ctxOf s w) slot = none) →
          w'.hooks = raised w.hooks hook { workItem s iss (.regs 1023 0) (enabled rd f) with fin := some s.base } ∧ t.ops = s.ops ∧ OthersKept s t w.wid)
      ∧ (∀ op b, rcv = false → sendAt s (ctxOf s w) slot = some (op, b) → b.done = none → tget s.ops op.id = some op → completedNow s op.id = false →
          ∃ op' b', tget t.ops op.id = some op' ∧ op'.kind = .bsend b' ∧ (b'.done.map BulkEnd.status) = some 4)
      ∧ (∀ op r, rcv = true → recvAt s (ctxOf s w) slot = some (op, r) → r.done = none → tget s.ops op.id = some op →
          ∃ op' r', tget t.ops op.id = some op' ∧ op'.kind = .brecv r' ∧ (r'.done.map BulkEnd.status) = some 4)))

/-- R323, R324, R326, R328: a matrix syllable issues in a warp all of whose lanes are active and all or none enabled, on a core whose engine
is free or its own team's, with fewer than 32 operations in flight and its operands in order: the engine is its team's, with empty macros and free
tiles if it was free; the hook is raised, and with the lanes enabled the operation is in flight and will be performed. No register and no
byte changes at issue. R333 to R341: mloft performed puts its rows into its macro, which takes its type; mloftw and mlofth are begun, their
units put bytes of the cellar or elements of a window, the fill and the zeros of the other columns into the macro, and their end sets the
type; mscl sets its scales, from scratchpad or the cellar; mma and mmas add to each accumulator its blocks in order, exact sums of products
scaled where the class is, each rounded once into f32 or added modulo 2^32; mdrain.reg gives its item the tile's words with their tags, and
the scratchpad forms write the tile raw, in bf16, or quantised with its scales, and transposed, and with Z leave it ZERO. The others'
macros and tiles stay. A unit of a load is one step of the model (log 40, DESIGN CHOICE); windows of mlofth are stated for local tensors of
elements of whole bytes. -/
def Obligations.MatrixSyllablesIssue : Prop :=
  (∀ i f hook dst, matrixSyl i = some (f, hook, dst) → ∀ s iss w tm, Ready i s iss w →
    let rd := rdOf i s w iss
    let en := enabled rd f
    let free := (s.core w.core).engine.holder = none
    s.team? w.team = some tm → tm.tid = w.team → w.core < s.cores.length → free ∨ (s.core w.core).engine.holder = some w.team →
    iss.lanes = allLanes w.width → en = 0 ∨ en = iss.lanes ∧ matsOn s w.core < 32 ∧ matChecks s (ctxOf s w) tm (matOpOf i f rd) = none →
    ∃ t w', exec i s = .next t ∧ t.warp? w.wid = some w'
      ∧ w' = { w with
          hooks := raised w.hooks hook (workItem s iss dst en), lastWr := w'.lastWr
          lastFence := if isMfence i ∧ en ≠ 0 then s.nextId else w.lastFence }
      ∧ (en ≠ 0 → ∃ op m, tget t.ops s.nextId = some op ∧ op.wid = w.wid ∧ op.core = w.core ∧ op.kind = .matrix m ∧ m.ins = i
          ∧ m.performed = false ∧ m.finished = false ∧ ∃ p ∈ t.pending, p.ev = .matrixOpPerform s.nextId ∧ p.due = s.base + 1)
      ∧ (t.core w.core).engine = (if free then { holder := some w.team } else (s.core w.core).engine)
      ∧ (∀ c, c ≠ w.core → t.core c = s.core c)
      ∧ (∀ a, byteAt t a = byteAt s a) ∧ (∀ tid a, scratchByte t tid a = scratchByte s tid a) ∧ OthersKept s t w.wid)
  ∧ ((∀ s o m w tm f bt lf hook c, MatrixTurn s o m w tm → m.ins = .mloft f bt lf hook → bt.mclass = some c → tm.dests = [] →
    lf < (s.core w.core).engine.macros.length →
    let old := (s.core w.core).engine.macro' lf
    ∃ t, exec (.matrixOpPerform o.id) s = .next t ∧ EngineStep s t w.core o.id (fun _ => False) (· = lf) ∧ t.warps = s.warps
      ∧ (let new := (t.core w.core).engine.macro' lf
        new.btype = some bt ∧ (∀ i < m.c * mcRb c, new.byte i = scratchByte s w.team (m.a + i))
        ∧ (∀ i, m.c * mcRb c ≤ i → new.byte i = old.byte i) ∧ ∀ j n, new.scale j n = old.scale j n))
  ∧ (∀ s o m w tm f cl lf hook bt c, MatrixTurn s o m w tm → m.ins = .mscl f cl lf hook → bt.mclass = some c → tm.dests = [] →
    lf < (s.core w.core).engine.macros.length → ((s.core w.core).engine.macro' lf).btype = some bt →
    let old := (s.core w.core).engine.macro' lf
    ∃ t, exec (.matrixOpPerform o.id) s = .next t ∧ EngineStep s t w.core o.id (fun _ => False) (· = lf) ∧ t.warps = s.warps
      ∧ (let new := (t.core w.core).engine.macro' lf
        new.btype = some bt ∧ (∀ i, new.byte i = old.byte i)
        ∧ ∀ j, ∀ n < 256, new.scale j n = if j < m.c ∧ n < mcNc c then
            (if cl then cget s.cellar (m.a + 256 * j + n) else scratchByte s w.team (m.a + 256 * j + n)).toNat else old.scale j n))
  ∧ (∀ s o m w tm i f ty tile lf row0 hook reg c bt, MatrixTurn s o m w tm →
    (i = .mma f ty tile lf row0 hook ∧ reg = true ∨ i = .mmas f ty tile lf row0 hook ∧ reg = false) → m.ins = i → ty.mclass = some c →
    let e := (s.core w.core).engine
    let na := if reg then w.width / 16 else m.c / 2 ^ 14 % 2 ^ 7 + 1
    let kk := m.c % 2 ^ 9 + 1
    let p := m.c / 2 ^ 21 % 2 ^ 4 + 1
    let row (i n : Nat) : Nat := if reg then fragmentByte s w f.a.num i n else (scratchByte s w.team (m.a + i * mcRl c + n)).toNat
    let a (i k : Nat) : Option ℚ := elementValue ty p (elementCode (mcWidth c) (row i) k)
    let b (k n : Nat) : Option ℚ :=
      elementValue bt (mcWidth c) (elementCode (mcWidth c) (fun x => ((e.macro' lf).byte (k * mcRb c + x)).toNat) n)
    let ea (i j : Nat) : Nat := if reg then (regRead s w f.b.num (16 * i + j)).1.toNat % 256 else (scratchByte s w.team (m.b + 16 * i + j)).toNat
    let eb (j n : Nat) : Nat := (e.macro' lf).scale j n
    let scaled (i n j : Nat) : ℚ := if mcScaled c then (2 : ℚ) ^ ((ea i j : ℤ) - 127) * 2 ^ ((eb j n : ℤ) - 127) else 1
    let block (i n j : Nat) : ℚ :=
      (∑ k ∈ Finset.range 32, if 32 * j + k < kk then (a i (32 * j + k)).getD 0 * (b (32 * j + k) n).getD 0 else 0) * scaled i n j
    (e.macro' lf).btype = some bt → e.tiles.length = 8 → (w.width = 16 ∨ w.width = 32 ∨ w.width = 64) → kk ≤ mcKl c →
    (reg = true → settled w ∧ m.spoiled w = false) → (reg = false → tm.dests = []) →
    (∀ k < 8, ∀ r n, ((e.tile k).cell r n).undef = 0) →
    ∃ t, exec (.matrixOpPerform o.id) s = .next t
      ∧ EngineStep s t w.core o.id (fun k => k = tile ∨ mcNc c = 256 ∧ k = tile + 1) (· = lf) ∧ t.warps = s.warps
      ∧ (let new := (t.core w.core).engine
        (new.tile tile).st = .live ∧ (∀ i, (new.macro' lf).byte i = (e.macro' lf).byte i)
        ∧ ∀ k, k = tile ∨ mcNc c = 256 ∧ k = tile + 1 → ∀ r col, col < 128 →
          (r < row0 ∨ row0 + na ≤ r ∨ (e.tile k).cols ≤ col → (new.tile k).cell r col = (e.tile k).cell r col)
          ∧ ∀ i < na, r = row0 + i → col < (e.tile k).cols → let n := 128 * (k - tile) + col
            (∀ x < kk, a i x ≠ none ∧ b x n ≠ none) → (mcScaled c = true → ∀ j < (kk + 31) / 32, ea i j ≠ 0xFF ∧ eb j n ≠ 0xFF) →
            Accumulates (mcAcc32 c) ((e.tile k).cell r col) ((new.tile k).cell r col) ((kk + 31) / 32) (block i n)))
  ∧ (∀ s o m w tm it f tile row0 hook, MatrixTurn s o m w tm → workOf s o w it → m.ins = .mdrainReg f tile row0 hook →
    let y := (s.core w.core).engine.tile tile
    let g := 128 / w.width
    (∀ r n, (y.cell r n).undef = 0 ∧ (y.cell r n).tagU = false) →
    ∃ t w' it', exec (.matrixOpPerform o.id) s = .next t ∧ workAfter t o w' it' ∧ w'.regs = w.regs
      ∧ it' = { it with
          early := true
          res := (List.range w.width).map fun l => { lane := l, vals := (List.range 8).map fun k =>
            if y.cols ≤ l * g + k % g then (0, if y.f32 then 62 else 63)
            else ((y.cell (row0 + k / g) (l * g + k % g)).val, (y.cell (row0 + k / g) (l * g + k % g)).tag) } }
      ∧ EngineStep s t w.core o.id (· = tile) (fun _ => False)
      ∧ (∀ r n, ((t.core w.core).engine.tile tile).cell r n = y.cell r n) ∧ ((t.core w.core).engine.tile tile).st = y.st ∧ OthersKept s t o.wid)
  ∧ (∀ s o m w tm f fmt tr z em tile hook, MatrixTurn s o m w tm → m.ins = .mdrainScratch f fmt tr z em tile hook →
    let y := (s.core w.core).engine.tile tile
    let v (r n : Nat) : Nat := (y.cell r n).val.toNat
    let n := drainSize fmt y.rows y.cols
    let n' := if tr then drainSize fmt y.cols y.rows else 0
    (∀ r n, (y.cell r n).undef = 0) → (∀ x, othersPut s o.id w.team x = false) → m.a + n ≤ m.b ∨ m.b + n' ≤ m.a ∨ tr = false →
    (tr = true → fmt = .e4m3 ∨ fmt = .e2m1) → tile < (s.core w.core).engine.tiles.length →
    ∃ t tm', exec (.matrixOpPerform o.id) s = .next t ∧ t.team? w.team = some tm' ∧ t.warps = s.warps
      ∧ (fmt = .raw → ∀ r < y.rows, ∀ c < y.cols, ∀ i < 4,
          scratchByte t w.team (m.a + 4 * (y.cols * r + c) + i) = BitVec.ofNat 8 (v r c / 256 ^ i))
      ∧ (fmt = .bf16 → ∀ r < y.rows, ∀ c < y.cols, ∀ i < 2, scratchByte t w.team (m.a + 2 * (y.cols * r + c) + i)
          = BitVec.ofNat 8 ((fmtBf16.ofFv .rn false false (fmtF32.decode (v r c))).code / 256 ^ i))
      ∧ (∀ dt, (fmt = .e4m3 ∧ dt = .e4m3 ∨ fmt = .e2m1 ∧ dt = .e2m1) → y.rows ≤ 128 → y.cols ≤ 128 →
          Quantised t w.team m.a dt y.rows y.cols v ∧ (tr = true → Quantised t w.team m.b dt y.cols y.rows fun c r => v r c))
      ∧ (∀ x, (x < m.a ∨ m.a + n ≤ x) → (x < m.b ∨ m.b + n' ≤ x) → scratchByte t w.team x = scratchByte s w.team x)
      ∧ (∀ x, m.a ≤ x → x < m.a + n → (x / 128, 0, true) ∈ tm'.marks)
      ∧ (let new := (t.core w.core).engine.tile tile
        if z then new.st = .zero ∧ ∀ r n, new.cell r n = ⟨0, 0, if y.f32 then 62 else 63, false⟩
        else new.st = y.st ∧ ∀ r n, new.cell r n = y.cell r n)
      ∧ (∀ a, byteAt t a = byteAt s a) ∧ ∃ p ∈ t.pending, p.ev = .matrixOpFinish o.id)
  ∧ ((∀ s o m w tm c, tget s.ops o.id = some o → o.kind = .matrix m → m.copy = some c → s.warp? o.wid = some w → s.team? w.team = some tm →
    m.performed = false → m.finished = false → m.begun = none → matReady s o w tm m = true → c.rows ≠ 0 →
    ∃ t o' m', exec (.matrixOpPerform o.id) s = .next t ∧ tget t.ops o.id = some o' ∧ o'.kind = .matrix m' ∧ m'.copy = some c
      ∧ m'.begun = some (coreCycle s o.core) ∧ (∃ p ∈ t.pending, p.ev = .copyUnitMove o.id) ∧ MemKept s t ∧ t.warps = s.warps)
  ∧ (∀ s o c w tm bt lf, CopyTurn s o c w tm → c.kind = .loftCellar bt lf → s.cellarPoison = [] → refreshEnd s (c.a + c.pos) = none →
    tm.place = .resident → w.core < s.cores.length → lf < (s.core w.core).engine.macros.length →
    let n := unitOf (c.len - c.pos) (c.a + c.pos)
    let old := (s.core w.core).engine.macro' lf
    ∃ t, exec (.copyUnitMove o.id) s = .next t ∧ UnitMoved s t o w c n
      ∧ (let new := (t.core w.core).engine.macro' lf
        (∀ k < n, new.byte (c.pos + k) = cget s.cellar (c.a + c.pos + k)) ∧ ∀ x, x < c.pos ∨ c.pos + n ≤ x → new.byte x = old.byte x)
      ∧ (∀ a, byteAt t a = byteAt s a) ∧ ∀ d x, scratchByte t d x = scratchByte s d x)
  ∧ (∀ s o c w tm lf l k, CopyTurn s o c w tm → c.kind = .loftTen lf → tm.place = .resident → w.core < s.cores.length →
    lf < (s.core w.core).engine.macros.length →
    let y := layoutOf c.words
    let b := y.ebits / 8
    let old := (s.core w.core).engine.macro' lf
    y.otaddr = 0 → c.table = none → 8 ≤ y.ebits → y.etype.mclass = some k → y.rowBytes ≤ mcRb k →
    (∀ j < y.box 0, ∀ ix, y.source c.row j = some ix → ∀ i < b, Reached s o (elemAddr y none y.base ix + i) .r l) →
    ∃ t n, exec (.copyUnitMove o.id) s = .next t ∧ 0 < n ∧ c.pos + n ≤ y.box 0 ∧ UnitMoved s t o w c n
      ∧ (let new := (t.core w.core).engine.macro' lf
        (∀ j < n, ∀ i < b, new.byte (c.row * mcRb k + (c.pos + j) * b + i) = windowByte s y l c.row (c.pos + j) i)
        ∧ (c.pos + n = y.box 0 → ∀ x, y.rowBytes ≤ x → x < mcRb k → new.byte (c.row * mcRb k + x) = 0)
        ∧ ∀ x, x < c.row * mcRb k + c.pos * b ∨ c.row * mcRb k + (if c.pos + n = y.box 0 then mcRb k else (c.pos + n) * b) ≤ x →
            new.byte x = old.byte x)
      ∧ (∀ a, byteAt t a = byteAt s a) ∧ ∀ d x, scratchByte t d x = scratchByte s d x)
  ∧ (∀ s o m w it tm c lf bt, tget s.ops o.id = some o → o.kind = .matrix m → workOf s o w it → m.copy = some c → m.performed = false →
    m.finished = false → c.fault = none → (c.kind = .loftCellar bt lf ∨ c.kind = .loftTen lf ∧ bt = (layoutOf c.words).etype) →
    s.team? w.team = some tm → tm.place = .resident → w.core < s.cores.length → lf < (s.core w.core).engine.macros.length →
    ∃ t, exec (.matrixOpFinish o.id) s = .next t ∧ EngineStep s t w.core o.id (fun _ => False) (· = lf) ∧ t.warps = s.warps
      ∧ (t.core w.core).engine.macro' lf = { (s.core w.core).engine.macro' lf with btype := some bt })))

/-! ## Control, synchronisation and system instructions -/

namespace Sys2Proof.Claims
open Sys2Proof.Machine

/-- A per-lane branch in a slice (R171, R176 to R178, R181): which lanes of slice k it takes, where they go, where the others go, whether
a level is opened at the target first, and whether the fall-through address is pushed first. -/
structure Branch where
  takes : Nat → Nat → Bool
  target : Nat → Dword
  next : Nat → Dword
  opens : Bool
  pushes : Bool

/-- The first lane of a slice that an indirect branch serves, and whether a lane asks for another target (R178). -/
def firstOf (go : Nat → Bool) : Nat := ((List.range 4).find? go).getD 0
def indirect (rd : Rd) (f : Fields) (fall : Dword) (pushes : Bool) (en : Nat → Bool) : Branch :=
  let tgt (l : Nat) : Dword := val64 rd f.a l
  let lead (k : Nat) : Nat := 4 * k + firstOf fun j => en (4 * k + j)
  { takes := fun k j => en (4 * k + j) && tgt (4 * k + j) == tgt (lead k)
    target := fun k => tgt (lead k)
    next := fun k => if (List.range 4).any fun j => en (4 * k + j) && tgt (4 * k + j) != tgt (lead k) then BitVec.ofNat 64 rd.iss.pc else fall
    opens := false, pushes := pushes }

def branchSyl (rd : Rd) : Instr → Option Branch
  | .bra f t =>
    some ⟨fun k j => (enabled rd f).getLsbD (4 * k + j), fun _ => directTarget rd.iss.pc t, fun _ => fallThrough rd.iss.pc rd.iss.last, false, false⟩
  | .brp f t =>
    some ⟨fun k j => (enabled rd f).getLsbD (4 * k + j), fun _ => directTarget rd.iss.pc t, fun _ => fallThrough rd.iss.pc rd.iss.last, true, false⟩
  | .loop f step t =>
    some ⟨fun k j => (enabled rd f).getLsbD (4 * k + j) &&
        (let n := (val32 rd f.a (4 * k + j)).toInt + step.toInt
         let b := (val32 rd f.b (4 * k + j)).toInt
         if 0 < step.toInt then decide (n < b) else decide (b < n)),
      fun _ => directTarget rd.iss.pc t, fun _ => fallThrough rd.iss.pc rd.iss.last, false, false⟩
  | .brx f => some (indirect rd f (fallThrough rd.iss.pc rd.iss.last) false fun l => (enabled rd f).getLsbD l)
  | .callx f => some (indirect rd f (fallThrough rd.iss.pc rd.iss.last) true fun l => rd.iss.lanes.getLsbD l)
  | _ => none

/-- A path sent to an address by a taken transfer, and one that goes on (R153, R174). -/
def sent (rd : Rd) (p : Path) (pc : Dword) (m : Quad) : Path :=
  { p with pc := pc, mask := m, tchk := true, tsrc := BitVec.ofNat 64 rd.iss.pc, earliest := rd.iss.tick + 1 + max rd.iss.gap 2, noPen := false }
def gone (rd : Rd) (p : Path) (pc : Dword) (m : Quad) : Path :=
  { p with pc := pc, mask := m, tchk := false, earliest := rd.iss.tick + 1 + rd.iss.gap, noPen := false }

/-- A slice before it branches: with a level opened at a target, and an address pushed. -/
def Branch.before (b : Branch) (rd : Rd) (k : Nat) (sl : Slice) : Slice :=
  let sl := if b.pushes then { sl with stack := (fallThrough rd.iss.pc rd.iss.last, sl.depth) :: sl.stack } else sl
  if !b.opens then sl
  else if sl.depth = 0 then { sl with depth := 1, tgt1 := b.target k, sav1 := sl.cur.mask, pend1 := none }
  else { sl with depth := 2, tgt2 := b.target k, sav2 := sl.cur.mask, pend2 := none }

/-- What a slice is after the branch (R171): its active lanes all go on, or all go to the target, or the lowest active lane's set runs and
the other set is pending. -/
def Branch.after (b : Branch) (rd : Rd) (k : Nat) (sl new : Slice) (active taken : Quad) : Prop :=
  let old := b.before rd k sl
  let rest := active &&& ~~~taken
  if taken = 0 then new = { old with cur := gone rd old.cur (b.next k) active }
  else if rest = 0 then new = { old with cur := sent rd old.cur (b.target k) active }
  else if taken.getLsbD (firstOf fun j => active.getLsbD j) then
    new = { old.setPend (some { old.cur with pc := b.next k, mask := rest, tchk := false }) with cur := sent rd old.cur (b.target k) taken }
  else
    new = { old.setPend (some { old.cur with pc := b.target k, mask := taken, tchk := true, tsrc := BitVec.ofNat 64 rd.iss.pc }) with
      cur := gone rd old.cur (b.next k) rest }

/-- The state after a control syllable: the slices of the issuing context are as `go` says, no other part of the warp has changed, and
the bundle is marked as having moved its slices. -/
def Moves (i : Instr) (s : State) (iss : Issue) (rest : List Issue) (w : Warp) (go : Nat → Slice → Slice → Prop) : Prop :=
  ∃ t w', exec i s = .next t ∧ t.warp? w.wid = some w' ∧ w' = { w with slices := w'.slices } ∧ w'.slices.length = w.slices.length
    ∧ t.issuing = { iss with ctl := true } :: rest
    ∧ (∀ k sl, w.slices[k]? = some sl → ∃ new, w'.slices[k]? = some new ∧ if k ∈ iss.slices then go k sl new else new = sl)
    ∧ OthersKept s t w.wid ∧ MemKept s t

/-- Whether the active lanes of a context all go (R179). -/
def gangSyl (rd : Rd) : Instr → Option (Target × Bool)
  | .brany f t => some (t, (lanesOf rd.iss.lanes).any fun l => (enabled rd f).getLsbD l)
  | .brall f t => some (t, (lanesOf rd.iss.lanes).all fun l => (enabled rd f).getLsbD l)
  | .brsig f thr t => some (t, (lanesOf (enabled rd f)).any fun l => (src32 rd f.a l).2.toNat < min thr 62)
  | _ => none

/-- The lowest active lane's value of a scalar operand (R391). -/
def lead32 (rd : Rd) (o : Opnd) : Nat := ((lanesOf rd.iss.lanes).head?.map fun l => (val32 rd o l).toNat).getD 0

/-- A control syllable that holds the next bundle of its context, or does not (R394, R400). -/
def holdSyl (s : State) (rd : Rd) : Instr → Option (Option Hold)
  | .wait f hook => some (some (if 63 ≤ lead32 rd f.a then .none else .hook hook (lead32 rd f.a)))
  | .waitAll _ => some (some .hookAll)
  | .sleepns f => some (if lead32 rd f.a = 0 then none else some (.asleep (timens s + lead32 rd f.a) true))
  | .waitns f => some (if lead32 rd f.a = 0 then none else some (.asleep (timens s + lead32 rd f.a) false))
  | _ => none

/-- A warp whose running paths in the slices of a bundle are held. -/
def holding (w : Warp) (slices : List Nat) (h : Hold) : Warp :=
  { w with slices := w.slices.mapIdx fun k sl => if k ∈ slices then { sl with cur := { sl.cur with hold := h } } else sl }

end Sys2Proof.Claims

open Sys2Proof Sys2Proof.Machine Sys2Proof.Claims

/-- R171, R174, R176, R177, R178, R181: bra, brp, loop, brx and callx resolve per lane in each slice of their context, whenever no slice breaks
a rule of R184: two levels open for brp, 16 addresses for callx, and a divergence with the pending slot taken for the others. -/
def Obligations.PerLaneBranches : Prop :=
  ∀ i s iss rest w b, Ready i s iss w → s.issuing = iss :: rest → branchSyl (rdOf i s w iss) i = some b →
    let rd := rdOf i s w iss
    ∀ quad : Nat → Quad, (∀ k j, (quad k).getLsbD j = (decide (j < 4) && b.takes k j)) →
    (∀ k ∈ iss.slices, ∀ sl, w.slices[k]? = some sl → (b.opens = true → sl.depth < 2) ∧ (b.pushes = true → sl.stack.length < 16)
      ∧ (b.opens = true ∨ quad k = 0 ∨ laneQuad k iss.lanes &&& ~~~(quad k) = 0 ∨ sl.pend = none)) →
    Moves i s iss rest w fun k sl new => b.after rd k sl new (laneQuad k iss.lanes) (quad k)

/-- R394, R400: both forms of wait, sleepns and waitns hold the next bundle of their context, and no other path: until the hook holds no
more than the limit (with no limit below 63 not at all), until every hook is zero, or until the instant TIMENS plus A (for 0 not at all). -/
def Obligations.WaitsHold : Prop :=
  ∀ i s iss w h, Ready i s iss w → holdSyl s (rdOf i s w iss) i = some h →
    ∃ t, exec i s = .next t
      ∧ t.warp? w.wid = some (match h with
        | some h => holding w iss.slices h
        | none => w)
      ∧ t.issuing = s.issuing ∧ OthersKept s t w.wid ∧ MemKept s t

/-- R396, R397, R398: bar and bara enter their lanes and count into the barrier's record, to be counted at their settle point; bar also
holds the next bundle of its context. barw holds it while an arrival of its lanes waits in the record. R395: hkadj.up raises a hook by n
items that wait for credit. hkadj.dn promises n of credit to the hook of its own warp, or of the warp it names in its team unless that has ended, to be sent
at its settle point, if the hook's credit stays within 63 and that warp's core is not frozen. -/
def Obligations.BarrierArrivalsAndCredit : Prop :=
  ((∀ i f drain hold k s iss w tm b, (i = .bar f drain k ∧ hold = true ∨ i = .bara f drain k ∧ hold = false) → Ready i s iss w →
    let rd := rdOf i s w iss
    let c := if f.b = .none then (launchD s w).warps else lead32 rd f.b
    s.team? w.team = some tm → tm.barriers[k]? = some b → k < (launchD s w).nbar → 1 ≤ c → c ≤ (launchD s w).warps →
    (tm.paired = true → (s.core (if w.core = tm.core then tm.core + 1 else tm.core)).frozen = false) →
    (∀ a ∈ b.record, a.count = c ∧ ¬(a.w = w.w ∧ a.lanes &&& iss.lanes ≠ 0)) →
    ∃ t tm', exec i s = .next t
      ∧ t.warp? w.wid = some (let v : Warp := { w with settles := w.settles ++ [.arrive s.nextId k drain] }
          if hold then holding v iss.slices (.bar k iss.lanes) else v)
      ∧ t.team? w.team = some tm' ∧ (tm'.barriers[k]?.map Barrier.record) = some (b.record ++ [⟨s.nextId, w.w, iss.lanes, c, false⟩])
      ∧ (∀ j, j ≠ k → tm'.barriers[j]? = tm.barriers[j]?) ∧ OthersKept s t w.wid ∧ MemKept s t)
  ∧ (∀ f k s iss w tm b m, Ready (.barw f k) s iss w → s.team? w.team = some tm → tm.barriers[k]? = some b → k < (launchD s w).nbar →
    tget b.ever w.w = some m → iss.lanes &&& ~~~m = 0 →
    ∃ t, exec (.barw f k) s = .next t
      ∧ t.warp? w.wid = some (if ∃ a ∈ b.record, a.w = w.w ∧ a.lanes &&& iss.lanes ≠ 0 then holding w iss.slices (.barw k iss.lanes) else w)
      ∧ OthersKept s t w.wid ∧ MemKept s t))
  ∧ ((∀ f hook n s iss w, Ready (.hkadjUp f hook n) s iss w →
    ∃ t w' its, exec (.hkadjUp f hook n) s = .next t ∧ t.warp? w.wid = some w'
      ∧ w' = { w with hooks := lmod w.hooks hook fun k => { k with items := k.items ++ its } }
      ∧ its.length = n ∧ (∀ x ∈ its, x.token = true ∧ x.fin = none) ∧ OthersKept s t w.wid ∧ MemKept s t)
  ∧ (∀ f hook n dest s iss w v, Ready (.hkadjDn f hook n dest) s iss w →
    (match dest with
      | none => v = w
      | some k => k < (launchD s w).warps ∧ s.warp? v.wid = some v
          ∧ (s.warps.find? fun e => e.2.team = w.team && e.2.w = k) = some (v.wid, v)) →
    (v.core ≠ w.core → (s.core v.core).frozen = false) → (v.hook hook).credit + (v.hook hook).promised + n ≤ 63 →
    ∃ t w' v', exec (.hkadjDn f hook n dest) s = .next t ∧ t.warp? w.wid = some w' ∧ t.warp? v.wid = some v'
      ∧ w'.settles = w.settles ++ [.credit s.nextId v.wid hook n] ∧ w'.regs = w.regs ∧ w'.slices = w.slices
      ∧ v'.hooks = (if v.ended then v.hooks else lmod v.hooks hook fun k => { k with promised := k.promised + n })
      ∧ (∀ k, k ≠ w.wid → k ≠ v.wid → t.warp? k = s.warp? k) ∧ MemKept s t))

/-- R408, R415: trap makes a trap of cause 14 due with its 16 bits as TRVAL in its enabled lanes, and with none enabled does nothing.
R412: rte in a handler whose results and accesses are done restores the slices and the results in flight of the Attic, as many ticks ahead
as they stood and no slice ahead of its GAP, clears INH, restores MODE from PMODE, and holds the warp for 4 clock cycles. That a slice issues
no earlier than the GAP of the returning bundle allows, as after any taken transfer, is deduced from R412 and R153 (log 56, DEDUCED).
R412: rte outside a handler raises the access fault (0C). -/
def Obligations.TrapAndReturn : Prop :=
  (∀ f n s iss w, Ready (.trap f n) s iss w →
    let en := enabled (rdOf (.trap f n) s w iss) f
    ∃ t, exec (.trap f n) s = .next t ∧ OthersKept s t w.wid ∧ MemKept s t
      ∧ (en = 0 → t.warp? w.wid = some w)
      ∧ (en ≠ 0 → ∃ w' d, t.warp? w.wid = some w' ∧ w' = dueWith w d ∧ d.cause = 0x14 ∧ d.cls = 1
          ∧ d.pc = BitVec.ofNat 64 iss.pc ∧ d.lanes = en ∧ d.val = n.setWidth 64 ∧ d.tick = iss.tick + 1))
  ∧ (∀ f s iss rest w a, Ready (.rte f) s iss w → s.issuing = iss :: rest → w.attic = some a → w.csr.trstat.getLsbD 0 = true →
    (rdOf (.rte f) s w iss).old.flight = [] → (∀ x ∈ w.scr, iss.seq0 ≤ x.seq) →
    ∃ t w', exec (.rte f) s = .next t ∧ t.warp? w.wid = some w' ∧ w'.attic = none ∧ w'.stopped = false
      ∧ w'.flight = w.flight ++ a.flights.map (fun x => { x with land := iss.tick + 3 + x.land })
      ∧ w'.csr.trstat.getLsbD 0 = false ∧ w'.csr.trstat.getLsbD 1 = w.csr.trstat.getLsbD 2
      ∧ w'.slices.length = a.slices.length
      ∧ (∀ (k : Nat) (sl : Slice), a.slices[k]? = some sl → ∃ new, w'.slices[k]? = some new
          ∧ new.depth = sl.depth ∧ new.stack = sl.stack ∧ new.cur.mask = sl.cur.mask ∧ new.cur.hold = sl.cur.hold
          ∧ new.cur.earliest = max (iss.tick + 3 + sl.cur.earliest) (iss.tick + 1 + max iss.gap 2)
          ∧ new.cur.pc = if k ∈ a.classB then w.csr.trpc else sl.cur.pc)
      ∧ (∃ fz ∈ w'.freezes, fz.code = 12 ∧ fz.why = .timed (coreCycle s w.core + 4) false)
      ∧ w'.regs = w.regs ∧ OthersKept s t w.wid ∧ MemKept s t)
  ∧ (∀ f s iss rest w, Ready (.rte f) s iss w → s.issuing = iss :: rest → w.csr.trstat.getLsbD 0 = false →
    ∃ t w' d, exec (.rte f) s = .next t ∧ t.issuing = rest ∧ t.warp? w.wid = some w' ∧ w'.due = w.due ++ [d]
      ∧ d.cause = 0x0C ∧ d.cls = 0 ∧ d.lanes = iss.lanes ∧ w'.regs = w.regs ∧ w'.slices = w.slices ∧ MemKept s t)

/-- R415, R416: sysc 1 to 255 raises its hook and with a lane enabled asks sv4 for the service, with A and B of the lowest enabled lane.
sysc 0 raises it by an item that has finished and drops every line of its context that the lowest enabled lane's range overlaps, on every
core. R402, R68: knock issues when its queue number is below 1024 and the context holds a key for the queue: it raises its hook, and the knock,
with its tail, queue, expiry and MAC, goes to the doorbell of this device, or out to another that can be reached, or fails. A sysc is
performed once for its context; that its item holds every enabled lane, to which the reply goes, is deduced from R416 (log 61, DEDUCED). -/
def Obligations.ServicesAndKnocks : Prop :=
  ((∀ f n hook s iss w, Ready (.sysc f n hook) s iss w →
    let rd := rdOf (.sysc f n hook) s w iss
    ∃ t w', exec (.sysc f n hook) s = .next t ∧ t.warp? w.wid = some w'
      ∧ w' = { w with hooks := raised w.hooks hook (workItem s iss (.regs f.d.num 1) (enabled rd f)), lastWr := w'.lastWr }
      ∧ (∀ l, (lanesOf (enabled rd f)).head? = some l → ∃ op, tget t.ops s.nextId = some op ∧ op.wid = w.wid ∧ op.hook = hook
          ∧ op.kind = .sysc n (val32 rd f.a l).toNat (val32 rd f.b l).toNat)
      ∧ OthersKept s t w.wid ∧ MemKept s t)
  ∧ (∀ f hook s iss w l, Ready (.syscIcb f hook) s iss w →
    let rd := rdOf (.syscIcb f hook) s w iss
    let lo := (val64 rd f.a l).toNat
    let n := (val32 rd f.b l).toNat
    (lanesOf (enabled rd f)).head? = some l → lo + n ≤ 2 ^ 64 →
    ∃ t w', exec (.syscIcb f hook) s = .next t ∧ t.warp? w.wid = some w'
      ∧ w' = { w with
          hooks := raised w.hooks hook { workItem s iss (.regs 1023 0) (enabled rd f) with fin := some s.base }, lastWr := w'.lastWr }
      ∧ (∀ c < s.cores.length, ∀ ln, ln ∈ (t.core c).fcache ↔
          ln ∈ (s.core c).fcache ∧ ¬(ln.ctx = ctxOf s w ∧ n ≠ 0 ∧ lo ≤ ln.va + 63 ∧ ln.va < lo + n))
      ∧ OthersKept s t w.wid ∧ MemKept s t))
  ∧ (∀ f hook s iss w key, Ready (.knock f hook) s iss w →
    let rd := rdOf (.knock f hook) s w iss
    let dev := lead32 rd f.a
    let qid := lead32 rd f.c
    qid < 1024 → dev < 64 → tget s.knockKeys (knockKeyAt (ctxOf s w) dev qid) = some key →
    ∃ t w' op, exec (.knock f hook) s = .next t ∧ t.warp? w.wid = some w'
      ∧ w' = { w with hooks := raised w.hooks hook { workItem s iss (.regs 1023 0) iss.lanes with fin := none }, lastWr := w'.lastWr }
      ∧ tget t.ops s.nextId = some op ∧ op.kind = .knock dev
      ∧ (if reaches s dev then ∃ bits : BitVec 128,
            bits.extractLsb' 0 32 = BitVec.ofNat 32 (lead32 rd f.b) ∧ bits.extractLsb' 32 10 = BitVec.ofNat 10 qid
            ∧ bits.extractLsb' 48 13 = BitVec.ofNat 13 (timens s / 2 ^ 20 + 8)
            ∧ bits.toNat / 2 ^ 96 = knockMac key (bits.toNat % 2 ^ 96) s.devid
            ∧ (if dev = s.devid then ∃ p ∈ t.pending, p.ev = .knockArrival dev (ownPort s.nextId) bits else goesOut s t dev (Frame.knock dev bits))
          else ∃ p ∈ t.pending, p.ev = .remoteReplyArrival s.nextId [.reject 0 7])
      ∧ OthersKept s t w.wid ∧ MemKept s t)

/-- R417, R418: csrr puts in flight, in its enabled lanes, the value its register had at the end of the last clock cycle, with SYSHAND 0 outside
system mode; csrw makes a write due at the next tick from the lowest enabled lane; csrx does both. A write to SYSHAND outside system mode raises the
access fault (0C) instead; that TRLANES holds the enabled lanes, and that with none enabled there is no fault, is deduced from R417 (log 30,
DEDUCED). -/
def Obligations.ControlRegisters : Prop :=
  (∀ i f w64 r rd' wr' s iss w, (i = .csrr f w64 r ∧ rd' = true ∧ wr' = false ∨ i = .csrw f w64 r ∧ rd' = false ∧ wr' = true
      ∨ i = .csrx f w64 r ∧ rd' = true ∧ wr' = true) → Ready i s iss w →
    let rd := rdOf i s w iss
    let en := enabled rd f
    let old : Dword := if r = .syshand ∧ w.csr.trstat.getLsbD 1 = false then 0 else w.csrSeen.get r refwinVal
    let words : List (Word × Tag) := if w64 then [(old.extractLsb' 0 32, 63), (old.extractLsb' 32 32, 63)] else [(old.extractLsb' 0 32, 63)]
    (wr' = true → r = .syshand → w.csr.trstat.getLsbD 1 = true ∨ en = 0) →
    ∃ t w', exec i s = .next t ∧ t.warp? w.wid = some w'
      ∧ w' = { w with
          flight := w.flight ++ if rd' then [⟨s.nextId, iss.tick + 3, BitVec.ofNat 64 iss.pc, .regs f.d.num (if w64 then 2 else 1), en,
            (lanesOf en).map fun l => { lane := l, vals := words }⟩] else []
          csrPend := w.csrPend ++ match (lanesOf en).head? with
            | some l => if wr' then [(iss.tick + 1, r, if w64 then val64 rd f.a l else (val32 rd f.a l).setWidth 64)] else []
            | none => []
          lastWr := w'.lastWr }
      ∧ OthersKept s t w.wid ∧ MemKept s t)
  ∧ (∀ i f w64 s iss rest w, (i = .csrw f w64 .syshand ∨ i = .csrx f w64 .syshand) → Ready i s iss w → s.issuing = iss :: rest →
    let en := enabled (rdOf i s w iss) f
    w.csr.trstat.getLsbD 1 = false → en ≠ 0 →
    ∃ t w' d, exec i s = .next t ∧ t.issuing = rest ∧ t.warp? w.wid = some w' ∧ w'.due = w.due ++ [d] ∧ d.cause = 0x0C
      ∧ d.lanes = en ∧ d.val = 0x018 ∧ w'.csr.syshand = w.csr.syshand ∧ w'.csrPend = w.csrPend ∧ MemKept s t)

/-- R179, R180, R181, R183: a gang-uniform branch sends every active lane of its context to its target, or on; regang opens a level and
goes on; call pushes and goes to its target; ret goes to the address it pops; yield goes on one tick later than otherwise. R182: exit
retires the active lanes that P enables and leaves the rest of the warp. R107, R115: a nop issues and changes no warp and no byte. -/
def Obligations.GangControlAndExit : Prop :=
  ((∀ i s iss rest w t taken, Ready i s iss w → s.issuing = iss :: rest → gangSyl (rdOf i s w iss) i = some (t, taken) →
    (∀ f thr t, i = .brsig f thr t → thr < 64) →
    let rd := rdOf i s w iss
    Moves i s iss rest w fun k sl new => new = { sl with
      cur := if taken then sent rd sl.cur (directTarget iss.pc t) (laneQuad k iss.lanes)
        else gone rd sl.cur (fallThrough iss.pc iss.last) (laneQuad k iss.lanes) })
  ∧ (∀ f t s iss rest w, Ready (.regang f t) s iss w → s.issuing = iss :: rest →
    let rd := rdOf (.regang f t) s w iss
    (∀ k ∈ iss.slices, ∀ sl, w.slices[k]? = some sl → sl.depth < 2) →
    Moves (.regang f t) s iss rest w fun k sl new => new.depth = sl.depth + 1
      ∧ (sl.depth = 0 → new.tgt1 = directTarget iss.pc t ∧ new.sav1 = sl.cur.mask ∧ new.pend1 = none)
      ∧ (sl.depth = 1 → new.tgt2 = directTarget iss.pc t ∧ new.sav2 = sl.cur.mask ∧ new.pend2 = none)
      ∧ new.cur = gone rd sl.cur (fallThrough iss.pc iss.last) (laneQuad k iss.lanes) ∧ new.stack = sl.stack)
  ∧ (∀ f t s iss rest w, Ready (.call f t) s iss w → s.issuing = iss :: rest →
    let rd := rdOf (.call f t) s w iss
    (∀ k ∈ iss.slices, ∀ sl, w.slices[k]? = some sl → sl.stack.length < 16) →
    Moves (.call f t) s iss rest w fun k sl new => new = { sl with
      stack := (fallThrough iss.pc iss.last, sl.depth) :: sl.stack
      cur := sent rd sl.cur (directTarget iss.pc t) (laneQuad k iss.lanes) })
  ∧ (∀ f s iss rest w, Ready (.ret f) s iss w → s.issuing = iss :: rest →
    let rd := rdOf (.ret f) s w iss
    (∀ k ∈ iss.slices, ∀ sl, w.slices[k]? = some sl → ∃ a st, sl.stack = (a, sl.depth) :: st) →
    Moves (.ret f) s iss rest w fun k sl new => ∀ a d st, sl.stack = (a, d) :: st →
      new = { sl with stack := st, cur := sent rd sl.cur a (laneQuad k iss.lanes) })
  ∧ (∀ f s iss w, Ready (.yield f) s iss w →
    let rd := rdOf (.yield f) s w iss
    ∃ t w', exec (.yield f) s = .next t ∧ t.warp? w.wid = some w' ∧ w' = { w with slices := w'.slices, yielded := true }
      ∧ (∀ k ∈ iss.slices, ∀ sl, w.slices[k]? = some sl → w'.slices[k]? = some { sl with
          cur := { gone rd sl.cur (fallThrough iss.pc iss.last) (laneQuad k iss.lanes) with earliest := iss.tick + 1 + (iss.gap + 1) } })
      ∧ OthersKept s t w.wid ∧ MemKept s t))
  ∧ (∀ f s iss w, Ready (.exit f) s iss w →
    ∃ t, exec (.exit f) s = .next t ∧ t.warp? w.wid = some { w with retired := w.retired ||| enabled (rdOf (.exit f) s w iss) f }
      ∧ t.issuing = s.issuing ∧ OthersKept s t w.wid ∧ MemKept s t)
  ∧ (∀ i gap s iss w, (i = .nopV gap ∨ i = .nopM gap ∨ i = .nopK gap ∨ i = .nopC gap) → Ready i s iss w →
    ∃ t, exec i s = .next t ∧ (∀ k, t.warp? k = s.warp? k) ∧ t.issuing = s.issuing ∧ t.ops = s.ops ∧ MemKept s t)

/-! ## Steps of the device: results, traps, hooks and barriers -/

namespace Sys2Proof.Claims
open Sys2Proof.Machine

/-- Keys of a table rise strictly, and every entry stands under its own number. -/
def keyedBy {α : Type} (num : α → Nat) (t : Tbl α) : Prop := (t.map Prod.fst).Pairwise (· < ·) ∧ ∀ e ∈ t, num e.2 = e.1

/-- Warps, teams and launches stand under their own numbers. -/
def Keyed (s : State) : Prop := keyedBy Warp.wid s.warps ∧ keyedBy Team.tid s.teams ∧ keyedBy Launch.lid s.launches

/-- An island that delays no lane: not at retention voltage, nor on its way back from it (R401, R430). -/
def awake (s : State) (i : Island) : Prop := i.mode.isRet = false ∧ i.wakeNs ≤ timens s

/-- TRSTAT from its fields (R408). -/
def trstat (inh mode pmode nest pend : Bool) : Word :=
  BitVec.ofNat 32 (inh.toNat + 2 * mode.toNat + 4 * pmode.toNat + 8 * nest.toNat + 16 * pend.toNat)

/-- CLASS of TRCAUSE (R408): B and I 0, L 1, H 2, A 3. -/
def classOf (cls : Nat) : Nat := if cls ≤ 1 then 0 else cls - 1

/-- The route of a cause that is not nested (R404, R405): 0 user, 1 system, 2 sv4. -/
def routeOf (c : Csrs) (cause : Nat) : Nat :=
  let d := c.trdel.toNat / 4 ^ cause % 4
  if cause = 0x19 ∨ cause = 0x1A then 2
  else if d = 0 ∧ c.trhand ≠ 0 then 0
  else if d = 1 ∧ c.syshand ≠ 0 then 1
  else 2

/-- The control registers once the writes that are due have committed (R409, R418). -/
def committed (w : Warp) : Csrs := w.csrPend.foldl (fun c p => c.set p.2.1 p.2.2) w.csr

/-- Every unretired lane of a warp. -/
def unretired (w : Warp) : Lanes := allLanes w.width &&& ~~~w.retired

/-- A register cell once the last uses noted for it have taken effect (R125). -/
def lastUsed (w : Warp) (n l : Nat) : RegCell :=
  if n < 768 ∧ ∃ k ∈ w.kills, k.2.1 = n ∧ k.2.2.getLsbD l = true then ⟨0, 0xFFFFFFFF, 0, true⟩ else w.cell n l

/-- A bit combined into an old one (R190). -/
def combined (c : Cmb) (old new : Bool) : Bool :=
  match c with
  | .set => new
  | .and => old && new
  | .or => old || new

/-- Every slice of a warp stands at a handler's first bundle with its unretired lanes, to be checked against TGT (R406). -/
def atHandler (w : Warp) (n : Nat) (hand src : Dword) : Prop :=
  w.slices.length = n ∧ ∀ (k : Nat) (sl : Slice), w.slices[k]? = some sl → sl.cur.pc = hand ∧ sl.cur.mask = laneQuad k (unretired w) ∧ sl.cur.tchk = true
    ∧ sl.cur.tsrc = src ∧ sl.depth = 0 ∧ sl.stack = []

end Sys2Proof.Claims

open Sys2Proof Sys2Proof.Machine Sys2Proof.Claims

/-- R29, R154, R190: a result that lands is written, in the lanes it has a value for, with its tags (54 to 61 stored as 0), its flags join
FPSR, and no other register of the warp changes. A result of bits is combined into each of them by its combine, with tag 63; the bits beside
it stay as they are, undefined ones undefined, which is deduced from R190 (log 25, DEDUCED). A last use of a written register that is still to
take effect comes before the write (R125). R258, R259, R260: a result for a hatch is pushed as one entry of its queue when that has
room, and otherwise freezes its warp with code 6 until it has; a warp frozen for want of an entry goes on once the oldest is complete. -/
def Obligations.ResultsLand : Prop :=
  (∀ wid s w f, s.warp? wid = some w → w.wid = wid → w.flight.find? (fun x => x.seq = f.seq) = some f →
    (∀ n span, f.dst = .regs n span → n < 776 ∨ 780 ≤ n) → (∀ r ∈ f.lanes, r.lane < 64) →
    f.lanes.Pairwise (fun r q => r.lane ≠ q.lane) →
    ∃ t w', exec (.resultLanding wid f.seq) s = .next t ∧ t.warp? wid = some w'
      ∧ w'.flight = w.flight.filter (fun x => x.seq ≠ f.seq)
      ∧ (∀ n span, f.dst = .regs n span → ∀ r ∈ f.lanes, ∀ (k : Nat) v tg, r.vals[k]? = some (v, tg) → n + k < 776 →
          w'.cell (n + k) r.lane = ⟨v, 0, if 54 ≤ tg.toNat ∧ tg.toNat ≤ 61 then 0 else tg, false⟩)
      ∧ (∀ n j count cmb, f.dst = .bits n j count cmb → n < 776 → 0 < count → j + count ≤ 32 →
          ∀ r ∈ f.lanes, ∀ v, (r.vals.head?.map Prod.fst) = some v →
          let c := lastUsed w n r.lane
          let new := w'.cell n r.lane
          new.tag = 63 ∧ new.tagU = false ∧ ∀ i < 32, if j ≤ i ∧ i < j + count then new.undef.getLsbD i = false
              ∧ ∃ old, (c.undef.getLsbD i = false → old = c.val.getLsbD i) ∧ new.val.getLsbD i = combined cmb old (v.getLsbD (i - j))
            else new.val.getLsbD i = c.val.getLsbD i ∧ new.undef.getLsbD i = c.undef.getLsbD i)
      ∧ (∀ n l, l < 64 → (∀ r ∈ f.lanes, r.lane = l → match f.dst with
            | .regs o _ => n < o ∨ o + r.vals.length ≤ n
            | .bits o _ _ _ => n ≠ o) →
          w'.cell n l = if n ∈ f.dst.opnds ∧ ∃ r ∈ f.lanes, r.lane = l then lastUsed w n l else w.cell n l)
      ∧ w'.csr.fpsr &&& 0x1F = (w.csr.fpsr ||| BitVec.ofNat 32 ((f.lanes.foldl (fun (m : BitVec 6) (r : LaneRes) => m ||| r.flags) 0).toNat % 32)) &&& 0x1F
      ∧ OthersKept s t wid ∧ MemKept s t)
  ∧ ((∀ wid s w f tm h, s.warp? wid = some w → w.wid = wid → w.flight.find? (fun x => x.seq = f.seq) = some f →
    f.dst = .regs (776 + h) 1 ∨ f.dst = .regs (776 + h) 2 ∨ f.dst = .regs (776 + h) 4 → h < 4 → s.team? w.team = some tm → tm.tid = w.team →
    let key := pushKey w h
    ∃ t tm' w', exec (.resultLanding wid f.seq) s = .next t ∧ t.team? w.team = some tm' ∧ t.warp? wid = some w' ∧ w'.regs = w.regs
      ∧ (if (tm.queue key).length < hatchDepth key then
          tm'.queue key = tm.queue key ++ [⟨f.seq, f.lanes, some s.base⟩] ∧ w'.flight = w.flight.filter (fun x => x.seq ≠ f.seq)
        else tm' = tm ∧ w'.flight = w.flight ∧ ∃ z ∈ w'.freezes, z.code = 6 ∧ z.why = .push key))
  ∧ (∀ wid s w tm, s.warp? wid = some w → w.wid = wid → s.team? w.team = some tm →
    ∃ t w', exec (.hatchPushResume wid) s = .next t ∧ t.warp? wid = some w' ∧ w'.tick = w.tick
      ∧ ∀ z, z ∈ w'.freezes ↔ z ∈ w.freezes ∧ ∀ key, z.why = .push key → hatchDepth key ≤ (tm.queue key).length)
  ∧ (∀ wid s w tm, s.warp? wid = some w → w.wid = wid → s.team? w.team = some tm →
    ∃ t w', exec (.hatchPopResume wid) s = .next t ∧ t.warp? wid = some w' ∧ w'.tick = w.tick
      ∧ ∀ z, z ∈ w'.freezes ↔ z ∈ w.freezes ∧ ∀ key, z.why = .pop key →
          headEntry tm key s.base = none ∧ ¬(tm.queue key = [] ∧ partnerEnded s w = true)))

/-- R404 to R410: the trap due is taken once the warp's scratchpad accesses are performed. The trap registers say what it was; the results
in flight and the slices are kept in the Attic with the ticks they still owe; the warp goes on at the handler of its route, in user mode
or system mode, or stops at sv4, which receives it (R407); no hook changes, and no register but those of which the last use has passed. A
trap raised by a handler stops the warp at sv4 with NEST, and keeps what the first trap saved while that is there. PEND counts the other
traps that are due, but none of class B, which is deduced from R410 (log 28, DEDUCED). R407: sv4 resumes a stopped warp with the effect of rte, which puts what the Attic keeps in force, the first trap's after a nested one
(log 25, DEDUCED), or sends it to its user handler; R419: a warp overdue by its watchdog has cause 19 due; R435: a warp that lost data has cause 1A due once its islands are at guard band. -/
def Obligations.TrapsAreTaken : Prop :=
  (∀ s w d, s.warp? w.wid = some w → w.nextTrap = some d → w.stopped = false → w.ended = false → w.scr = [] →
    (∀ p ∈ w.csrPend, p.1 ≤ w.tick + 1) →
    let c := committed w
    let route := if d.inHandler then 2 else routeOf c d.cause
    let others := w.due.any fun u => u != d && u.cls != 0
    let nested : Prop := d.inHandler = true ∧ w.attic ≠ none
    ∃ t w', exec (.trapEntry w.wid) s = .next t ∧ t.warp? w.wid = some w'
      ∧ w'.csr.trcause = BitVec.ofNat 32 (d.cause + 64 * route + 256 * classOf d.cls)
      ∧ w'.csr.trpc = d.pc ∧ w'.csr.trlanes = d.lanes ∧ w'.csr.trval = d.val
      ∧ w'.csr.trdst = BitVec.ofNat 32 (d.dst + 1024 * d.bit + 2 ^ 15 * d.bitf.toNat + 2 ^ 16 * d.pair.toNat)
      ∧ w'.csr.trstat = (if nested then trstat (c.trstat.getLsbD 0) (c.trstat.getLsbD 1) (c.trstat.getLsbD 2) true others
          else trstat (route ≠ 2) (if route = 2 then c.trstat.getLsbD 1 else route = 1) (c.trstat.getLsbD 1) d.inHandler others)
      ∧ w'.csr.fpsr = c.fpsr ∧ w'.csr.trhand = c.trhand ∧ w'.csr.trdel = c.trdel ∧ w'.csr.syshand = c.syshand
      ∧ (nested → w'.attic = w.attic ∧ w'.flight = w.flight)
      ∧ (¬nested → ∃ a, w'.attic = some a ∧ a.trpc = d.pc ∧ a.classB = d.slices ∧ a.slices.length = w.slices.length
          ∧ a.flights = w.flight.map (fun x => { x with land := x.land - w.tick }) ∧ w'.flight = [])
      ∧ (route = 2 → w'.stopped = true ∧ Sv4Event.trapStopped w.wid ∈ t.events)
      ∧ (route ≠ 2 → w'.stopped = false ∧ atHandler w' w.slices.length (if route = 1 then c.syshand else c.trhand) d.pc
          ∧ ∃ z ∈ w'.freezes, z.code = 12 ∧ z.why = .timed (coreCycle s w.core + 8) true)
      ∧ w'.regs = (w.applyKills (w.tick + 1)).regs ∧ (w.kills = [] → w'.regs = w.regs) ∧ w'.hooks = w.hooks ∧ w'.retired = w.retired
      ∧ OthersKept s t w.wid ∧ MemKept s t)
  ∧ ((∀ s w a regs csrs, s.warp? w.wid = some w → s.svUp 4 = true → w.stopped = true → w.attic = some a →
    ∃ t w', exec (.sv4Resume w.wid regs csrs) s = .next t ∧ t.warp? w.wid = some w' ∧ w'.stopped = false ∧ w'.attic = none
      ∧ w'.csr.trstat.getLsbD 0 = false ∧ w'.slices.length = a.slices.length
      ∧ w'.flight = w.flight ++ a.flights.map (fun x => { x with land := w.tick + 3 + x.land })
      ∧ (regs = [] → w'.regs = w.regs) ∧ OthersKept s t w.wid ∧ MemKept s t)
  ∧ (∀ s w, s.warp? w.wid = some w → s.svUp 4 = true → w.stopped = true → w.csr.trhand ≠ 0 →
    ∃ t w', exec (.sv4EnterHandler w.wid) s = .next t ∧ t.warp? w.wid = some w' ∧ w'.stopped = false
      ∧ atHandler w' w.slices.length w.csr.trhand w.csr.trpc ∧ w'.csr.trstat.getLsbD 0 = true ∧ w'.csr.trstat.getLsbD 1 = false
      ∧ w'.csr.trcause.toNat / 64 % 4 = 0 ∧ w'.attic = w.attic ∧ w'.regs = w.regs ∧ OthersKept s t w.wid ∧ MemKept s t)
  ∧ (∀ s w, s.warp? w.wid = some w → w.csr.wdog ≠ 0 → w.csr.wdog.toNat * 1000 < w.wdogNs →
    ∃ t w' d, exec (.watchdogExpiry w.wid) s = .next t ∧ t.warp? w.wid = some w' ∧ w' = { dueWith w d with wdogNs := 0 }
      ∧ d.cause = 0x19 ∧ d.cls = 4 ∧ d.lanes = unretired w ∧ d.val = w.csr.wdog.setWidth 64 ∧ OthersKept s t w.wid ∧ MemKept s t)
  ∧ (∀ s w o isl lanes att, s.warp? w.wid = some w → w.lost = some (o, isl, lanes, att) → recovering s w = false →
    ∃ t w' d, exec (.voltageMachineCheck w.wid) s = .next t ∧ t.warp? w.wid = some w' 
      ∧ w' = { dueWith w d with lost := none, lostPc := none } ∧ d.cause = 0x1A ∧ d.cls = 3 ∧ d.lanes = lanes ∧ d.dst = o
      ∧ d.val = BitVec.ofNat 64 (o + 2 ^ 10 * isl + 2 ^ 12 * att.toNat) ∧ (∀ pc, w.lostPc = some pc → d.pc = pc) ∧ OthersKept s t w.wid ∧ MemKept s t))

/-- R163, R164, R395: a hook drops past its oldest items that have finished, in order; what they wrote is in its registers, with the flags of
MEMST. Credit that arrives is added to the hook. -/
def Obligations.HooksDropAndTakeCredit : Prop :=
  (∀ s w h k it rest, s.warp? w.wid = some w → w.hooks[h]? = some k → k.items = it :: rest → k.credit = 0 → it.fin = some s.base → it.token = false →
    (∀ x, rest.head? = some x → ∀ n, x.fin = some n → s.base < n) → (∀ x ∈ rest, x.early = true → ∀ n, x.fin = some n → s.base < n) →
    (∀ e ∈ s.ops, ∀ n q, e.2.kind ≠ .fence n q) → (∀ e ∈ s.ops, ∀ m, e.2.kind = .matrix m → m.spoiled w = false) →
    (∀ r ∈ it.res, r.lane < 64) → it.res.Pairwise (fun r q => r.lane ≠ q.lane) →
    ∃ t w', exec (.hookDrop w.wid h) s = .next t ∧ t.warp? w.wid = some w' ∧ (w'.hooks[h]?.map HookSt.items) = some rest
      ∧ (∀ j, j ≠ h → w'.hooks[j]? = w.hooks[j]?)
      ∧ (∀ n span, it.dst = .regs n span → ∀ r ∈ it.res, ∀ (i : Nat) v tg, r.vals[i]? = some (v, tg) → n + i < 776 →
          w'.cell (n + i) r.lane = ⟨v, 0, if 54 ≤ tg.toNat ∧ tg.toNat ≤ 61 then 0 else tg, false⟩)
      ∧ (it.res = [] → w'.regs = w.regs)
      ∧ w'.csr.memst = w.csr.memst ||| BitVec.ofNat 32 (it.zr.toNat + 2 * it.zw.toNat)
      ∧ (it.fault = none → w'.due = w.due) ∧ (∀ d, it.fault = some d → ∃ e, w'.due = w.due ++ [e] ∧ e.cause = d.cause ∧ e.val = d.val)
      ∧ OthersKept s t w.wid)
  ∧ (∀ s w h k c n, s.warp? w.wid = some w → w.hooks[h]? = some k → w.ended = false → (c, n) ∈ k.coming → c ≤ coreCycle s w.core →
    ∃ t w' k', exec (.hookCreditCommit w.wid h n) s = .next t ∧ t.warp? w.wid = some w' ∧ w'.hooks[h]? = some k'
      ∧ k'.credit = k.credit + n ∧ k'.promised = k.promised - n ∧ k'.items = k.items ∧ k'.coming.length + 1 = k.coming.length
      ∧ w'.regs = w.regs ∧ OthersKept s t w.wid ∧ MemKept s t)

/-- R393, R397, R398: an arrival is counted at its settle point, opening the phase if none is open; when enough warps have arrived the
phase completes, what it counted leaves the record, and the paths it held on the core where it completed are free, with that core's islands
awake at once. R394, R400, R401: paths that wait on a hook are free once it holds no more than their limit, or every hook is zero, to be
tested once more as they issue, and paths that sleep once TIMENS has reached their instant; with the islands of their warp awake they may issue at
once. -/
def Obligations.BarriersAndWaitsRelease : Prop :=
  ((∀ s w tm k seq drain b a, s.warp? w.wid = some w → s.team? w.team = some tm → tm.barriers[k]? = some b →
    w.settles.find? (fun x => x.seq = seq) = some (.arrive seq k drain) → w.settled seq (coreCycle s w.core) = true →
    (drain = true → w.hooksZero = true) → b.record.find? (fun x => x.seq = seq) = some a →
    ∃ t tm' b', exec (.settlePoint w.wid seq) s = .next t ∧ t.team? w.team = some tm' ∧ tm'.barriers[k]? = some b' ∧ b'.isOpen = true
      ∧ b'.e = (if b.isOpen then b.e else a.count) ∧ b'.core = (if b.isOpen = true ∧ (∃ x ∈ b.record, x.counted = true) ∧ b.e ≤ arrivedWarps s tm b then b.core else w.core)
      ∧ b'.phase = b.phase ∧ b'.record.length = b.record.length
      ∧ (∀ x ∈ b'.record, x.seq = seq → x.counted = true) ∧ MemKept s t)
  ∧ (∀ s tid tm k b, s.team? tid = some tm → tm.barriers[k]? = some b → b.isOpen = true → (∃ a ∈ b.record, a.counted = true) →
    b.e ≤ arrivedWarps s tm b →
    ∃ t tm' b', exec (.barrierRelease tid k) s = .next t ∧ t.team? tid = some tm' ∧ tm'.barriers[k]? = some b' ∧ b'.phase = b.phase + 1
      ∧ b'.isOpen = false ∧ b'.record = b.record.filter (fun a => !a.counted) ∧ (∀ j, j ≠ k → tm'.barriers[j]? = tm.barriers[j]?) ∧ MemKept s t
      ∧ (Keyed s → (∀ i ∈ (s.core b.core).islands, awake s i) →
        ∀ w, s.warp? w.wid = some w → w.team = tid → w.ended = false → w.core = b.core →
        ∃ w', t.warp? w.wid = some w' ∧ w'.regs = w.regs ∧ w'.hooks = w.hooks
          ∧ ∀ (n : Nat) (sl : Slice), w.slices[n]? = some sl → ∃ new, w'.slices[n]? = some new ∧ new.stack = sl.stack
            ∧ ∀ lanes, sl.cur.hold = .bar k lanes ∨ sl.cur.hold = .barw k lanes → b'.waiting w.w lanes = false →
              new.cur = { sl.cur with hold := .none, wait := .none })))
  ∧ (∀ i s w, s.warp? w.wid = some w → (∀ k ∈ w.islands, awake s (s.island w.core w.room k)) →
    (i = .waitRelease w.wid ∨ i = .timedWaitExpiry w.wid) →
    let met (h : Hold) : Prop := match h with
      | .hook n limit => i = .waitRelease w.wid ∧ (w.hook n).items.length ≤ limit
      | .hookAll => i = .waitRelease w.wid ∧ ∀ k ∈ w.hooks, k.items = []
      | .asleep til _ => i = .timedWaitExpiry w.wid ∧ til ≤ timens s
      | .none | .bar _ _ | .barw _ _ | .wake _ _ _ => False
    ∃ t w', exec i s = .next t ∧ t.warp? w.wid = some w' ∧ w'.slices.length = w.slices.length
      ∧ (∀ (k : Nat) (sl new : Slice), w.slices[k]? = some sl → w'.slices[k]? = some new →
          (met sl.cur.hold → new.cur = { sl.cur with
            hold := .none
            wait := match sl.cur.hold with
              | .hook _ _ | .hookAll => sl.cur.hold
              | _ => .none })
          ∧ (¬met sl.cur.hold → new.cur = sl.cur) ∧ new.stack = sl.stack)
      ∧ w'.regs = w.regs ∧ w'.hooks = w.hooks ∧ OthersKept s t w.wid ∧ MemKept s t)

/-- R301, R416: an entry that arrives at a unit goes to the lane that has waited longest, whose wqdeq finishes when it was its one lane, and goes on
waiting for its others; the reply of a service, while sv4 runs, finishes its item with the value in every lane it was asked for, which is
deduced from R416 (log 61, DEDUCED). -/
def Obligations.RepliesArrive : Prop :=
  (∀ s n u o l e es it k w, s.wqUnits[n]? = some u → u.waiters = [(o.id, l)] → u.entries = e :: es → tget s.ops o.id = some o →
    o.kind = .wqdeq [(l, n)] [] → s.warp? o.wid = some w → w.wid = o.wid → w.hooks[o.hook]? = some k → k.items.find? (fun x => x.id = o.id) = some it →
    it.lanes = lane1 l → l < 64 →
    ∃ t w' it', exec (.wqEntryArrival n) s = .next t ∧ (t.wqUnits[n]?.map WqUnit.entries) = some es ∧ (t.wqUnits[n]?.map WqUnit.waiters) = some []
      ∧ t.ops = tdel s.ops o.id ∧ t.warp? o.wid = some w' ∧ (w'.hook o.hook).items.find? (fun x => x.id = o.id) = some it'
      ∧ it'.fin = some s.base ∧ it'.res = [{ lane := l, vals := [(e.extractLsb' 0 32, 63), (e.extractLsb' 32 32, 63),
          (e.extractLsb' 64 32, 63), (e.extractLsb' 96 32, 63)] }] ∧ OthersKept s t o.wid ∧ MemKept s t)
  ∧ (∀ s n u o l ws e es waiting got w, s.wqUnits[n]? = some u → u.waiters = (o.id, l) :: ws → u.entries = e :: es → ws = [] ∨ es = [] →
    tget s.ops o.id = some o → o.kind = .wqdeq waiting got → s.warp? o.wid = some w → (∃ p ∈ waiting, p.1 ≠ l) →
    ∃ t o', exec (.wqEntryArrival n) s = .next t ∧ (t.wqUnits[n]?.map WqUnit.entries) = some es ∧ (t.wqUnits[n]?.map WqUnit.waiters) = some ws
      ∧ tget t.ops o.id = some o' ∧ o'.kind = .wqdeq (waiting.filter fun p => p.1 ≠ l) (got ++ [{ lane := l, vals :=
          [(e.extractLsb' 0 32, 63), (e.extractLsb' 32 32, 63), (e.extractLsb' 64 32, 63), (e.extractLsb' 96 32, 63)] }])
      ∧ t.warps = s.warps ∧ MemKept s t)
  ∧ (∀ s o n a b v w k it, tget s.ops o.id = some o → s.svUp 4 = true → o.kind = .sysc n a b → s.warp? o.wid = some w → w.wid = o.wid →
    w.hooks[o.hook]? = some k → k.items.find? (fun x => x.id = o.id) = some it →
    ∃ t w' it', exec (.syscReply o.id v) s = .next t ∧ t.ops = tdel s.ops o.id ∧ t.warp? o.wid = some w'
      ∧ (w'.hook o.hook).items.find? (fun x => x.id = o.id) = some it' ∧ it'.fin = some s.base ∧ it'.lanes = it.lanes
      ∧ it'.res = (lanesOf it.lanes).map (fun l => { lane := l, vals := [(v, 63)] }) ∧ w'.regs = w.regs ∧ OthersKept s t o.wid ∧ MemKept s t)

/-! ## Steps of the device: memory, engines, the fabric and pulled transfers -/

namespace Sys2Proof.Claims
open Sys2Proof.Machine

/-- What leaves for a device and what is held for it once a frame is sent to it: held while an earlier path still carries requests (R349). -/
def sentOut (s : State) (dev : Nat) (f : Frame) : List Frame × List (Nat × Frame) :=
  if tget s.oldPath dev = none then (s.outbox ++ [f], s.heldOut) else (s.outbox, s.heldOut ++ [(dev, f)])

/-- A walk is over, and every other is as it was but for those who wait for it; walks that others begin have new numbers. -/
def WalkOver (s t : State) (id : Nat) : Prop :=
  (∀ x ∈ s.walks, x.id ≠ id → ∃ y ∈ t.walks, y.id = x.id ∧ y.ctx = x.ctx ∧ y.va = x.va ∧ y.deferred = x.deferred)
    ∧ ∀ x ∈ t.walks, x.id = id → s.nextId ≤ id

end Sys2Proof.Claims

open Sys2Proof Sys2Proof.Machine Sys2Proof.Claims

/-- R7, R248, R287, R288, R376: with a place in L2 for its line, a store performed at its home writes the bytes of its lane, lowest first, and no
other byte of memory; a load performed at its home takes its bytes and changes none. -/
def Obligations.HomesHoldBytes : Prop :=
  (∀ s o m l, tget s.ops o.id = some o → o.kind = .mem m → m.kind = .store → m.lanes = [l] → m.todo = [2 * (l.pa / 128)] → l.sleaf = none →
    l.leaf.enc = false → m.bytes ≤ 16 → l.pa % 128 + m.bytes ≤ 128 → plainLine s (l.pa / 128) → roomFor s (l.pa / 128) → olderFirst s o (m.ranges m.todo) = false →
    ∃ t, exec (.homeAccessPerform o.id (2 * (l.pa / 128))) s = .next t
      ∧ (∀ i < m.bytes, byteAt t (l.pa + i) = BitVec.ofNat 8 (l.data.toNat / 256 ^ i))
      ∧ (∀ a, a < l.pa ∨ l.pa + m.bytes ≤ a → byteAt t a = byteAt s a)
      ∧ (∃ p ∈ t.pending, p.ev = .storeCompletion o.id) ∧ t.warps = s.warps ∧ t.teams = s.teams ∧ t.cellar = s.cellar)
  ∧ (∀ s o m l, tget s.ops o.id = some o → o.kind = .mem m → m.kind = .load → m.lanes = [l] → m.todo = [2 * (l.pa / 128)] → l.sleaf = none →
    l.leaf.enc = false → m.bytes ≤ 16 → l.pa % 128 + m.bytes ≤ 128 → plainLine s (l.pa / 128) → roomFor s (l.pa / 128) → undefMask s (l.pa / 128) = 0 →
    olderFirst s o (m.ranges m.todo) = false →
    ∃ t o' m', exec (.homeAccessPerform o.id (2 * (l.pa / 128))) s = .next t ∧ tget t.ops o.id = some o' ∧ o'.kind = .mem m' ∧ m'.todo = []
      ∧ m'.results = m.results ++ [{ lane := l.lane, vals := loadVals m.bytes m.sx (memNat s l.pa m.bytes) }]
      ∧ (∃ p ∈ t.pending, p.ev = .loadDataArrival o.id ∨ p.ev = .hatchLoadEntryFill o.id)
      ∧ (∀ a, byteAt t a = byteAt s a) ∧ t.warps = s.warps ∧ t.teams = s.teams)

/-- R251, R259, R261, R285, R382: a load whose data arrives writes each lane's words, a store completes into WCT, and both finish their item; a
load for a hatch completes the entry it reserved. -/
def Obligations.AccessesComplete : Prop :=
  (∀ s o m w it n span, tget s.ops o.id = some o → o.kind = .mem m → m.kind = .load → workOf s o w it → it.dst = .regs n span →
    m.poisoned = [] → m.tagRes = [] → m.uni = false → (∀ r ∈ m.results, r.lane < 64 ∧ m.enabled.getLsbD r.lane = true) →
    m.results.Pairwise (fun r q => r.lane ≠ q.lane) →
    ∃ t w' it', exec (.loadDataArrival o.id) s = .next t ∧ workAfter t o w' it' ∧ it'.fin = some s.base ∧ it'.fault = none ∧ t.ops = tdel s.ops o.id
      ∧ (∀ r ∈ m.results, ∀ (k : Nat) v tg, r.vals[k]? = some (v, tg) → n + k < 776 →
          w'.cell (n + k) r.lane = ⟨v, 0, if 54 ≤ tg.toNat ∧ tg.toNat ≤ 61 then 0 else tg, false⟩)
      ∧ (∀ x l, l < 64 → (∀ r ∈ m.results, r.vals.length ≤ span) → x < n ∨ n + span ≤ x ∨ 776 ≤ x → w'.cell x l = w.cell x l)
      ∧ OthersKept s t o.wid ∧ MemKept s t)
  ∧ (∀ s o m w it, tget s.ops o.id = some o → o.kind = .mem m → m.kind = .store → workOf s o w it → it.dst = .regs 1023 0 → m.poisoned = [] → m.results = [] →
    ∃ t w' it', exec (.storeCompletion o.id) s = .next t ∧ workAfter t o w' it' ∧ it'.fin = some s.base ∧ it'.fault = none ∧ t.ops = tdel s.ops o.id
      ∧ w'.csr.wct = BitVec.ofNat 64 (max w.csr.wct.toNat m.wct) ∧ w'.regs = w.regs ∧ OthersKept s t o.wid ∧ MemKept s t)
  ∧ (∀ s o m w it tm key, tget s.ops o.id = some o → o.kind = .mem m → m.kind = .load → workOf s o w it → m.hatch = some key → s.team? w.team = some tm →
    m.poisoned = [] → m.tagRes = [] → m.uni = false → (∀ r ∈ m.results, m.enabled.getLsbD r.lane = true ∧ r = { lane := r.lane, vals := r.vals }) →
    ∃ t tm' it' w', exec (.hatchLoadEntryFill o.id) s = .next t ∧ t.team? w.team = some tm' ∧ workAfter t o w' it' ∧ it'.fin = some s.base
      ∧ (tm'.queue key = (tm.queue key).map fun e => if e.id = o.id then { e with lanes := m.results, done := some s.base } else e)
      ∧ OthersKept s t o.wid)

/-- R246, R248, R249, R251, R254, R255, R276: a lease that has ended takes its line from the L1; a dirty line that is evicted is in HBM; a poisoned
block is poisoned and its bytes stay; a write that a context asks for to a cellar window it holds changes its bytes and no other when no placed
launch can read them, waits while one can or sv3 restarts, and outside its windows writes nothing; the key slots and cellar windows are as sv3
sets them. -/
def Obligations.CachesPoisonAndCellar : Prop :=
  (∀ s core ctx line, core < s.cores.length →
    ∃ t, exec (.l1LeaseExpiry core ctx line) s = .next t ∧ MemKept s t ∧ t.warps = s.warps
      ∧ ∀ l, l ∈ (t.core core).l1 ↔ l ∈ (s.core core).l1 ∧ ¬(l.ctx = ctx ∧ l.va = line ∧ l.fill + l.lease ≤ timens s))
  ∧ (∀ s line l, Memory.wf s = true → tget s.l2 line = some l → l.spent = none → l.dirty = true → l.enc = false → l.bad = 0 →
    ∃ t, exec (.l2Eviction line) s = .next t ∧ t.l2 = tdel s.l2 line ∧ hbmLine t line = l.data
      ∧ (∀ n, n ≠ line → hbmLine t n = hbmLine s n) ∧ t.warps = s.warps ∧ t.teams = s.teams)
  ∧ (∀ i s block, (i = .hbmUncorrectableError block ∨ i = .powerControllerPoison block) → block < 0xC000000000 / 64 →
    ∃ t, exec i s = .next t ∧ (∀ b, b ∈ t.poison ↔ b ∈ s.poison ∨ b = block) ∧ (∀ a, byteAt t a = byteAt s a) ∧ t.warps = s.warps)
  ∧ (∀ s ctx off data v, Memory.wf s = true → s.svUp 3 = true → v ∈ s.cellarWins → v.ctx = ctx → v.base ≤ off → off + data.length ≤ v.base + v.len →
    cellarInUse s off data.length = false → s.cellarPoison = [] →
    ∃ t, exec (.cellarWrite (ctx, off) data) s = .next t ∧ (∀ (i : Nat) b, data[i]? = some b → cget t.cellar (off + i) = b)
      ∧ (∀ a, a < off ∨ off + data.length ≤ a → cget t.cellar a = cget s.cellar a) ∧ (∀ a, byteAt t a = byteAt s a) ∧ t.warps = s.warps)
  ∧ (∀ s ctx off data v, v ∈ s.cellarWins → v.ctx = ctx → v.base ≤ off → off + data.length ≤ v.base + v.len →
    s.svUp 3 = false ∨ cellarInUse s off data.length = true →
    exec (.cellarWrite (ctx, off) data) s = .next { s with cellarReqs := s.cellarReqs ++ [(ctx, off, data)] })
  ∧ (∀ s ctx off data, (∀ v ∈ s.cellarWins, v.ctx = ctx → off < v.base ∨ v.base + v.len < off + data.length) →
    exec (.cellarWrite (ctx, off) data) s = .next s)
  ∧ (∀ s slot key, s.svUp 3 = true → slot < 512 → exec (.keySlotLoad slot key) s = .next { s with keySlots := tset s.keySlots slot key })
  ∧ (∀ s slot, s.svUp 3 = true → exec (.keySlotClear slot) s = .next { s with keySlots := tdel s.keySlots slot })
  ∧ (∀ s ctx base len zp, s.svUp 3 = true → (s.cellarWins.filter fun v => v.ctx = ctx).length < 8 → base % 2 ^ 20 = 0 → len % 2 ^ 20 = 0 →
    base + len ≤ 2 ^ 29 → exec (.cellarWindowGrant ctx base len zp) s = .next { s with cellarWins := s.cellarWins ++ [⟨ctx, base, len, zp⟩] })

/-- R108, R160, R257, R266 to R268, R271, R273: a line that the fetch cache has arrives in every slice that lacks it; warps frozen by a refresh window
or an empty line go on when that has ended; a walk that reaches its end is over, and one that finds a leaf leaves it in the TLB of the core of
the warp that waits for it, which goes on in the next clock cycle (R270); once sv3 runs, an invalidated range is in no TLB, in no failed walk
kept for a warp of its context and in no walk that waits for sv3, and everything outside it stays; sv3 answers a deferred walk with an entry
or declines it. -/
def Obligations.TranslationAndLines : Prop :=
  (∀ s w va ln, s.warp? w.wid = some w → fcFind s w.core (ctxOf s w) va.toNat = some ln →
    ∃ t w', exec (.fetchLineArrival w.wid va) s = .next t ∧ t.warp? w.wid = some w' ∧ w' = { w with slices := w'.slices } ∧ OthersKept s t w.wid ∧ MemKept s t
      ∧ ∀ (k : Nat) sl, w.slices[k]? = some sl → ∃ new, w'.slices[k]? = some new ∧ new = { sl with line := new.line }
        ∧ (sl.cur.pc.toNat / 64 * 64 = va.toNat → (∀ b, sl.line = some b → b.va ≠ va.toNat) → new.line = some ⟨va.toNat, ln.img, none⟩))
  ∧ (∀ s w, s.warp? w.wid = some w →
    ∃ t w', exec (.refreshWindowEnd w.wid) s = .next t ∧ t.warp? w.wid = some w' ∧ w'.regs = w.regs
      ∧ ∀ z, z ∈ w'.freezes ↔ z ∈ w.freezes ∧ ∀ ns, z.why = .refresh ns → timens s < ns)
  ∧ (∀ s w tm, s.warp? w.wid = some w → s.team? w.team = some tm →
    ∃ t w', exec (.scratchLineFullResume w.wid) s = .next t ∧ t.warp? w.wid = some w' ∧ w'.regs = w.regs
      ∧ ∀ z, z ∈ w'.freezes ↔ z ∈ w.freezes ∧ ∀ n, z.why = .line n → ∃ a ∈ w.scr, a.seq = n ∧ touchesEmpty tm a = true)
  ∧ (∀ s k, s.walks.find? (fun x => x.id = k.id) = some k → k.deferred = false → 2 ^ 48 ≤ k.va → (∀ l, Machine.walk s k.ctx k.va ≠ .leaf l) →
    Machine.walk s k.ctx k.va ≠ .defer →
    ∃ t, exec (.tlbWalkComplete k.id) s = .next t ∧ WalkOver s t k.id ∧ MemKept s t)
  ∧ (∀ s k l, s.walks.find? (fun x => x.id = k.id) = some k → k.deferred = false → k.va < 2 ^ 48 →
    Machine.walk (trimL2 (bringWalk s k.va (if k.retried then 512 else k.ctx) 4 0 (s.ctx k.ctx).root).used) k.ctx k.va = .leaf l →
    ∃ t, exec (.tlbWalkComplete k.id) s = .next t ∧ WalkOver s t k.id
      ∧ (∀ w, k.reqs = [.warp w.wid] → s.warp? w.wid = some w → ctxOf s w = k.ctx → w.core < s.cores.length →
        tlbFind (s.core w.core).tlb k.ctx k.va = none → (∀ e ∈ s.warps, e.1 ≠ w.wid → e.2.freezes.flatMap Freeze.pages = []) →
        (∀ p ∈ w.freezes.flatMap Freeze.pages, p.1 / 65536 = k.va / 65536) →
        ∃ w', t.warp? w.wid = some w' ∧ ⟨k.ctx, k.va / 2 ^ l.size, l⟩ ∈ (t.core w.core).tlb ∧ w'.regs = w.regs ∧ w'.tick = w.tick
          ∧ w'.freezes = w.freezes.map fun z => match z.why with
            | .walk _ => { z with why := .timed (coreCycle s w.core) true }
            | _ => z))
  ∧ (∀ s ctx va len, s.svUp 3 = false → exec (.tlbInvalidate ctx va len) s = .next (s.later 1250 (.tlbInvalidate ctx va len)))
  ∧ (∀ s ctx va len, Keyed s → s.svUp 3 = true → ∃ t, exec (.tlbInvalidate ctx va len) s = .next t ∧ MemKept s t
      ∧ (∀ x ∈ t.walks, x.ctx = ctx → x.deferred = true →
          ¬(x.va / 65536 * 65536 < va + len ∧ va < x.va / 65536 * 65536 + 65536))
      ∧ (∀ k w, s.warp? k = some w → ∃ w', t.warp? k = some w' ∧ w'.regs = w.regs ∧ w'.flight = w.flight ∧ w'.tick = w.tick
          ∧ (ctxOf s w = ctx → ∀ r, r ∈ w'.walkRes ↔ r ∈ w.walkRes ∧ ¬(65536 * r.1 < va + len ∧ va < 65536 * r.1 + 65536))
          ∧ (ctxOf s w ≠ ctx → w'.walkRes = w.walkRes))
      ∧ (∀ c < s.cores.length, ∀ e, e ∈ (t.core c).tlb ↔ e ∈ (s.core c).tlb ∧ ¬(e.ctx = ctx ∧ e.page * 2 ^ e.leaf.size < va + len
          ∧ va < e.page * 2 ^ e.leaf.size + 2 ^ e.leaf.size)))
  ∧ (∀ s pa e, s.svUp 3 = true → pa % 8 = 0 → pa < 0xC000000000 → plainLine s (pa / 128) → roomFor s (pa / 128) →
    ∃ t, exec (.pageTableWrite pa e) s = .next t ∧ (∀ i < 8, byteAt t (pa + i) = e.extractLsb' (8 * i) 8)
      ∧ (∀ a, a < pa ∨ pa + 8 ≤ a → byteAt t a = byteAt s a) ∧ t.warps = s.warps)
  ∧ (∀ s id pa e k, s.svUp 3 = true → pa % 8 = 0 → pa < 0xC000000000 → k ∈ s.walks → k.id = id → k.deferred = true →
    ∃ t, exec (.deferMap id pa e) s = .next t ∧ (∀ x ∈ t.walks, x.id = id → x.deferred = false ∧ x.retried = true)
      ∧ t.walks.length = s.walks.length ∧ (∃ p ∈ t.pending, p.ev = .tlbWalkComplete id) ∧ t.warps = s.warps)
  ∧ (∀ s id k w, s.svUp 3 = true → s.walks.find? (fun x => x.id = id && x.deferred) = some k → k.reqs = [.warp w.wid] → s.warp? w.wid = some w →
    (∀ e ∈ s.warps, e.1 ≠ w.wid → e.2.freezes.flatMap Freeze.pages = []) → (∀ p ∈ w.freezes.flatMap Freeze.pages, p.1 / 65536 = k.va / 65536) →
    ∃ t w' level, exec (.deferDecline id) s = .next t ∧ t.walks = s.walks.filter (fun x => x.id ≠ k.id) ∧ t.warp? w.wid = some w'
      ∧ w'.walkRes = w.walkRes ++ [(k.va / 65536, 6, level)] ∧ w'.regs = w.regs)

/-- R307, R310, R313, R323, R330, R342: a fill of scratchpad writes its pattern and no other byte; a copy that has ended finishes its item with
its flags and fault; mcfg performed sets its tile's shape and clears its accumulators, and a tile that was live or poisoned is poisoned, any
other ZERO; mzero clears them and makes the tile ZERO; an operation at its end, a multiplication with no operand written too
early, finishes its item. A fill is stated where its banks are free and no other engine work in flight has written its bytes; that one step
moves a whole piece of up to 128 bytes is the model's (log 40, DESIGN CHOICE). -/
def Obligations.EnginesWork : Prop :=
  (∀ s o c w tm, tget s.ops o.id = some o → o.kind = .copy c → c.kind = .fillSp → s.warp? o.wid = some w → s.team? w.team = some tm → tm.tid = w.team →
    cwf tm.scratch = true → c.asked = none → c.fault = none → c.finished = false → c.row = 0 → c.pos = 0 → 0 < c.len → c.b % 128 + c.len ≤ 128 →
    (∀ a ∈ w.scr, o.id ≤ a.seq) → (∀ p, w.scrDone = some p → o.id ≤ p.1 ∨ p.2 ≠ coreCycle s w.core) → tm.place = .resident →
    (s.core o.core).copyFree ≤ coreCycle s o.core → (∀ b, (s.core b).bankUse = [] ∧ (s.core b).engUse = []) →
    (∀ e ∈ s.ops, e.1 ≠ o.id → e.2.want = []) → (∀ k < c.len, othersPut s o.id w.team (c.b + k) = false) →
    ∃ t, exec (.copyUnitMove o.id) s = .next t
      ∧ (∀ k < c.len, scratchByte t w.team (c.b + k) = BitVec.ofNat 8 (c.a / 256 ^ (k % 4)))
      ∧ (∀ x, x < c.b ∨ c.b + c.len ≤ x → scratchByte t w.team x = scratchByte s w.team x)
      ∧ (∀ tid x, tid ≠ w.team → scratchByte t tid x = scratchByte s tid x) ∧ (∀ a, byteAt t a = byteAt s a)
      ∧ (∃ p ∈ t.pending, p.ev = .copyFinish o.id) ∧ t.warps = s.warps)
  ∧ (∀ s o c w it, tget s.ops o.id = some o → o.kind = .copy c → workOf s o w it →
    ∃ t w' it' o', exec (.copyFinish o.id) s = .next t ∧ workAfter t o w' it' ∧ it'.fin = some s.base ∧ it'.zr = c.zr ∧ it'.zw = c.zw
      ∧ (c.fault = none → it'.fault = none)
      ∧ (∀ cause val, c.fault = some (cause, val) → ∃ d, it'.fault = some d ∧ d.cause = cause ∧ d.cls = 3 ∧ d.lanes = c.lanes ∧ d.val = BitVec.ofNat 64 val)
      ∧ w'.csr.wct = BitVec.ofNat 64 (max w.csr.wct.toNat c.wct) ∧ w'.regs = w.regs
      ∧ tget t.ops o.id = some o' ∧ o'.kind = .copy { c with finished := true } ∧ OthersKept s t o.wid ∧ MemKept s t)
  ∧ (∀ s o m w tm f s32 tile rc cc hook, tget s.ops o.id = some o → o.kind = .matrix m → m.ins = .mcfg f s32 tile rc cc hook → m.copy = none →
    s.warp? o.wid = some w → s.team? w.team = some tm → tm.tid = w.team → tm.place = .resident → w.core < s.cores.length → m.performed = false → m.finished = false →
    matReady s o w tm m = true → matFault (s.core w.core).engine w tm m = none → tile < (s.core w.core).engine.tiles.length →
    ∃ t y, exec (.matrixOpPerform o.id) s = .next t ∧ (t.core w.core).engine.tiles[tile]? = some y ∧ y.rows = 16 * (rc + 1) ∧ y.cols = 16 * (cc + 1)
      ∧ y.f32 = !s32 ∧ (∀ r n, y.cell r n = ⟨0, 0, if s32 then 63 else 62, false⟩)
      ∧ y.st = (match ((s.core w.core).engine.tile tile).st with
        | .free | .zero => .zero
        | .live | .poison => .poison)
      ∧ (∀ a, byteAt t a = byteAt s a) ∧ t.warps = s.warps
      ∧ (∀ k, k ≠ tile → (t.core w.core).engine.tiles[k]? = (s.core w.core).engine.tiles[k]?)
      ∧ (t.core w.core).engine.macros = (s.core w.core).engine.macros ∧ ∃ p ∈ t.pending, p.ev = .matrixOpFinish o.id)
  ∧ (∀ s o m w tm f tile hook, tget s.ops o.id = some o → o.kind = .matrix m → m.ins = .mzero f tile hook → m.copy = none →
    s.warp? o.wid = some w → s.team? w.team = some tm → tm.tid = w.team → tm.place = .resident → w.core < s.cores.length → m.performed = false → m.finished = false →
    matReady s o w tm m = true → matFault (s.core w.core).engine w tm m = none →
    ∃ t, exec (.matrixOpPerform o.id) s = .next t ∧ (t.core w.core).engine.macros = (s.core w.core).engine.macros
      ∧ (∀ y, (s.core w.core).engine.tiles[tile]? = some y → (t.core w.core).engine.tiles[tile]? = some { y with st := .zero, acc := [], zeroId := o.id })
      ∧ (∀ k, k ≠ tile → (t.core w.core).engine.tiles[k]? = (s.core w.core).engine.tiles[k]?)
      ∧ (∀ a, byteAt t a = byteAt s a) ∧ t.warps = s.warps)
  ∧ (∀ s o m w it, tget s.ops o.id = some o → o.kind = .matrix m → workOf s o w it → m.performed = true → m.finished = false → m.spoiled w = false →
    m.finishAt ≤ coreCycle s o.core → (∀ tm, s.team? w.team = some tm → tm.tid = w.team) →
    ∃ t w' it' o' m', exec (.matrixOpFinish o.id) s = .next t ∧ workAfter t o w' it' ∧ it'.fin = some s.base ∧ (it'.fault.map TrapDue.cause) = m.fault.map Prod.fst
      ∧ tget t.ops o.id = some o' ∧ o'.kind = .matrix m' ∧ m'.finished = true ∧ m'.ins = m.ins ∧ w'.regs = w.regs
      ∧ OthersKept s t o.wid ∧ (∀ a, byteAt t a = byteAt s a) ∧ ∀ tid a, scratchByte t tid a = scratchByte s tid a)

/-- R62, R345, R346, R349, R352, R353, R358 to R360: windows, routes and lockouts are as sv5 sets them, and what the old path of a route still carries
is remembered; a failed link, a discarded frame and a dropped
packet are recorded; a request at the ingress that fails a check is answered with its REASON in every lane and counted, and a write that passes, with a
place in L2 for its line, puts its bytes into memory; an answer from a device that is not refused finishes its lane's access; the time-out,
which comes 1 ms after the request has gone (RemoteAccessesIssue), fails a lane that has no answer, and a request of a copy that is younger is
left alone. That a lockout cleared forgets the rejections counted is deduced from R62 (log 55, DEDUCED), and which work a route change waits
for (awaiting, oldPath) is the model's choice (log 46, DESIGN CHOICE). -/
def Obligations.FabricRequests : Prop :=
  (∀ s win e, s.svUp 5 = true → win < 1024 → ∃ v, exec (.windowEntryWrite win e) s = .next { s with windows := tset s.windows win v }
      ∧ (∀ k < 256, v.getLsbD k = (e.getLsbD k && !(decide (k = 14 ∨ k = 15) || decide (104 ≤ k ∧ k < 128)))))
  ∧ (∀ s src tgt m, s.svUp 5 = true → src < s.podsize → tgt < s.podsize → m < s.podsize → m ≠ src → m ≠ tgt →
    ∃ old, exec (.routeChange src tgt (some m)) s = .next { s with routes := tset s.routes (64 * src + tgt) m, oldPath := old }
      ∧ (src ≠ s.devid ∨ awaiting s tgt = [] → old = s.oldPath) ∧ (src = s.devid → ∀ id ∈ awaiting s tgt, id ∈ (tget old tgt).getD []))
  ∧ (∀ s src tgt, s.svUp 5 = true → src < s.podsize → tgt < s.podsize →
    ∃ old, exec (.routeChange src tgt none) s = .next { s with routes := tdel s.routes (64 * src + tgt), oldPath := old }
      ∧ (src ≠ s.devid ∨ awaiting s tgt = [] → old = s.oldPath) ∧ (src = s.devid → ∀ id ∈ awaiting s tgt, id ∈ (tget old tgt).getD []))
  ∧ (∀ s peer, peer ∉ s.peersLost → exec (.linkFailure peer) s = .next { s with peersLost := s.peersLost ++ [peer] })
  ∧ (∀ s peer n, tget s.linkErrors peer = some n →
    exec (.unsupportedFrameDiscard peer) s = .next { s with linkErrors := tset s.linkErrors peer (n + 1), discards := s.discards + 1 })
  ∧ (∀ s port, port < 4 → exec (.uetPacketDrop port) s = .next { s with uetDrops := s.uetDrops + 1 })
  ∧ (∀ s src, s.svUp 5 = true → exec (.lockoutClear src) s
      = .next { s with lockouts := s.lockouts.filter (fun x => x ≠ src), rejections := tdel s.rejections src })
  ∧ (∀ s r reason, s.bootFailed = false → ingressFirst s r = false → keyCheck s r.src r.key (rightBit r.kind) false = some reason → r.src ≠ s.devid →
    ∃ t, exec (.remoteRequestIngress r) s = .next t
      ∧ (t.outbox, t.heldOut) = sentOut s r.src (Frame.reply r.src r.opId (timens s) (r.lanes.map fun l => .reject l.lane reason))
      ∧ t.ingressQ = s.ingressQ.erase r ∧ (6 ≤ reason → r ∉ s.ingressQ → t = { s with outbox := t.outbox, heldOut := t.heldOut }) ∧ (reason ≤ 5 → (timens s) ∈ (tget t.rejections r.src).getD [])
      ∧ t.warps = s.warps ∧ MemKept s t)
  ∧ (∀ s r l m sz rc, s.bootFailed = false → ingressFirst s r = false → keyCheck s r.src r.key (rightBit r.kind) false = none → r.src ≠ s.devid →
    r.kind = .write sz rc → r.lanes = [l] → inLane s (winAt s r.key) r l = .ok m → m.leaf.enc = false → m.sleaf = none → m.lane = l.lane →
    m.pa % 128 + szBytes sz ≤ 128 → plainLine s (m.pa / 128) → roomFor s (m.pa / 128) →
    ∃ t ns, exec (.remoteRequestIngress r) s = .next t ∧ (t.outbox, t.heldOut) = sentOut s r.src (Frame.reply r.src r.opId ns [.ack l.lane false])
      ∧ timens s ≤ ns
      ∧ (∀ i < szBytes sz, byteAt t (m.pa + i) = BitVec.ofNat 8 (m.data.toNat / 256 ^ i))
      ∧ (∀ a, a < m.pa ∨ m.pa + szBytes sz ≤ a → byteAt t a = byteAt s a) ∧ t.warps = s.warps)
  ∧ (∀ s o r w it l key off v z n span, tget s.ops o.id = some o → o.kind = .remote r → workOf s o w it → it.dst = .regs n span → r.waiting = [(l, key, off)] →
    r.results = [] → r.fails = [] → r.uni = false → l < 64 → fabricShut s (keyDev key) = false →
    ∃ t w' it', exec (.remoteReplyArrival o.id [.data l v z]) s = .next t ∧ workAfter t o w' it' ∧ it'.fin = some s.base ∧ it'.fault = none
      ∧ t.ops = tdel s.ops o.id ∧ OthersKept s t o.wid ∧ MemKept s t
      ∧ (∀ (k : Nat) x tg, (loadVals r.bytes r.sx v.toNat)[k]? = some (x, tg) → n + k < 776 →
          w'.cell (n + k) l = ⟨x, 0, if 54 ≤ tg.toNat ∧ tg.toNat ≤ 61 then 0 else tg, false⟩))
  ∧ (∀ s o r w it l key off, tget s.ops o.id = some o → o.kind = .remote r → workOf s o w it → r.waiting = [(l, key, off)] → r.results = [] →
    r.fails = [] → l < 64 →
    ∃ t w' it' d, exec (.remoteTimeout o.id) s = .next t ∧ workAfter t o w' it' ∧ it'.fin = some s.base ∧ it'.fault = some d ∧ d.cause = 0x15
      ∧ d.lanes = lane1 l ∧ d.val.toNat % 16 = 9 ∧ t.ops = tdel s.ops o.id ∧ OthersKept s t o.wid ∧ MemKept s t)
  ∧ (∀ s o c ns, tget s.ops o.id = some o → (o.kind = .copy c ∨ ∃ m, o.kind = .matrix m ∧ m.copy = some c) → c.asked = some ns →
    timens s < ns + 1000000 → exec (.remoteTimeout o.id) s = .next s)

/-- R369 to R373: a send's request goes out with its first bytes; one behind no refused request waits when no receive takes it, or a receive
takes it, which leaves what follows the prefix to tokens of at most 32 KiB, and one that fails a check is answered with its REASON; a token is
granted for 50 µs to the message whose turn it is and, expired, its range is to be granted again, and the third in a row to expire orphans the
message; data counts against its message and is written at DST + i, there where its range lies in one line, and nowhere else; an
acknowledgement, an orphan notice or a cancellation from a device that is not refused ends the send or message it names. -/
def Obligations.PulledTransfers : Prop :=
  (∀ s s1 o b bs, tget s.ops o.id = some o → o.kind = .bsend b → b.done = none → sendFirst s o b = false → reaches s (keyDev b.key) = true →
    keyDev b.key ≠ s.devid → s1.devid = s.devid → bulkRead s o b.src (min b.len 8192) = .ok s1 bs → tget s1.ops o.id = some o →
    ∃ t o', exec (.bulkRequestRetry o.id) s = .next t
      ∧ goesOut s1 t (keyDev b.key) (Frame.bulk (keyDev b.key) ⟨s.devid, o.id, b.key, b.mtag, b.len, b.prio, bs⟩)
      ∧ tget t.ops o.id = some o' ∧ o'.kind = .bsend { b with sent := true, sentNs := timens s1, left := [(0, b.len)] } ∧ t.warps = s1.warps)
  ∧ (∀ s r, s.bootFailed = false → keyCheck s r.src r.key 1 true = none → findRecv s (winCtx (winAt s r.key)) (keyWin r.key) r.mtag r.src = none →
    (waitingMsgs s).length < 4096 → refusedFirst s r = false →
    ∃ t m, exec (.bulkRequestArrival r) s = .next t ∧ t.msgs = tset s.msgs s.nextId m ∧ m.src = r.src ∧ m.srcMsg = r.msg ∧ m.len = r.len
      ∧ m.mtag = r.mtag ∧ m.win = keyWin r.key ∧ m.recv = none ∧ m.got = 0 ∧ t.warps = s.warps ∧ t.ops = s.ops ∧ MemKept s t)
  ∧ (∀ s r o v, s.bootFailed = false → keyCheck s r.src r.key 1 true = none →
    findRecv s (winCtx (winAt s r.key)) (keyWin r.key) r.mtag r.src = some (o, v) → tget s.ops o.id = some o →
    refusedFirst s r = false →
    let n := min r.len v.cap
    ∃ t m o', exec (.bulkRequestArrival r) s = .next t ∧ tget t.msgs s.nextId = some m ∧ m.src = r.src ∧ m.srcMsg = r.msg ∧ m.recv = some o.id
      ∧ (∀ p ∈ m.need, 0 < p.2 ∧ p.2 ≤ 32768 ∧ r.prefixBytes.length ≤ p.1 ∧ p.1 + p.2 ≤ n)
      ∧ (m.need.map Prod.snd).sum + min r.prefixBytes.length n = n
      ∧ tget t.ops o.id = some o' ∧ o'.kind = .brecv { v with msg := some s.nextId } ∧ t.warps = s.warps ∧ MemKept s t)
  ∧ (∀ s r reason, s.bootFailed = false → keyCheck s r.src r.key 1 true = some reason → r.src ≠ s.devid →
    ∃ t, exec (.bulkRequestArrival r) s = .next t
      ∧ (t.outbox, t.heldOut) = sentOut s r.src (Frame.reply r.src r.msg (timens s) [.reject 0 reason])
      ∧ t.msgs = s.msgs ∧ t.warps = s.warps ∧ MemKept s t)
  ∧ (∀ s id m off n rest, tget s.msgs id = some m → m.need = (off, n) :: rest → msgLive s m = true → grantNow s id = true → m.src ≠ s.devid →
    ∃ t, exec (.pullTokenGrant id none) s = .next t
      ∧ t.tokens = tset s.tokens s.nextId { msg := id, miss := [(off, n)], expires := timens s + 50000 }
      ∧ t.msgs = tset s.msgs id { m with need := rest, granted := true }
      ∧ (t.outbox, t.heldOut) = sentOut s m.src (Frame.token m.src m.srcMsg s.nextId off n)
      ∧ (∃ p ∈ t.pending, p.ev = .tokenExpiry s.nextId ∧ p.due = s.base + 62500) ∧ t.warps = s.warps ∧ MemKept s t)
  ∧ (∀ s o b tok off n s1 bs, tget s.ops o.id = some o → o.kind = .bsend b → b.done = none → bulkRead s o (b.src + off) n = .ok s1 bs →
    keyDev b.key ≠ s.devid → s1.devid = s.devid → fabricShut s (keyDev b.key) = false →
    ∃ t, exec (.pullTokenGrant o.id (some (tok, off, n))) s = .next t
      ∧ (t.outbox, t.heldOut) = sentOut s1 (keyDev b.key) (Frame.data (keyDev b.key) tok off bs) ∧ t.warps = s1.warps)
  ∧ (∀ s tok tk m o r off data s1 ls, tget s.tokens tok = some tk → tget s.msgs tk.msg = some m → m.recv = some o.id → tget s.ops o.id = some o →
    o.kind = .brecv r → r.done = none → m.need ≠ [] → tk.expires = 0 ∨ fabricShut s m.src = false →
    (let ws := (((List.range data.length).map (off + ·)).zip data).filter fun w => inRanges (tk.miss ++ tk.held) w.1
     let ps := ws.map fun w => (r.dst + w.1, w.2)
     engLines s o.id o.core o.ctx .w o.walkRes (lineReps (ps.map Prod.fst)) = .ok s1 ls → (engWrite s1 o 0 false ls ps).lost = none →
     ∃ t, exec (.tokenDataArrival tok off data) s = .next t ∧ tget t.msgs tk.msg = some { m with got := m.got + ps.length, expired := 0 }))
  ∧ (∀ s tok tk m o r off data l, tget s.tokens tok = some tk → tget s.msgs tk.msg = some m → m.recv = some o.id → tget s.ops o.id = some o →
    o.kind = .brecv r → r.done = none → tk.expires = 0 ∨ fabricShut s m.src = false → Reached s o (r.dst + off) .w l → data ≠ [] →
    (r.dst + off) % 128 + data.length ≤ 128 → (∀ i < data.length, inRanges (tk.miss ++ tk.held) (off + i) = true) →
    let pa := l.phys (r.dst + off)
    ∃ t, exec (.tokenDataArrival tok off data) s = .next t ∧ PutsMemory s t pa data.length (fun k => data.getD k 0))
  ∧ (∀ s tok tk m, tget s.tokens tok = some tk → tk.expires ≠ 0 → tk.expires ≤ timens s → tget s.msgs tk.msg = some m → msgLive s m = true →
    recvSaved s m = false → m.expired < 2 →
    ∃ t, exec (.tokenExpiry tok) s = .next t
      ∧ t.tokens = (if tk.held = [] then tdel s.tokens tok else tset s.tokens tok { tk with miss := [], expires := 0 })
      ∧ tget t.msgs tk.msg = some { m with need := tk.miss ++ m.need, expired := m.expired + 1 }
      ∧ (∃ p ∈ t.pending, p.ev = .pullTokenGrant tk.msg none) ∧ t.warps = s.warps ∧ MemKept s t)
  ∧ (∀ s tok tk m o r, tget s.tokens tok = some tk → tk.expires ≠ 0 → tk.expires ≤ timens s → tget s.msgs tk.msg = some m →
    m.recv = some o.id → tget s.ops o.id = some o → o.kind = .brecv r → r.done = none → recvSaved s m = false → 2 ≤ m.expired → m.src ≠ s.devid →
    ∃ t o' r', exec (.tokenExpiry tok) s = .next t ∧ tget t.ops o.id = some o' ∧ o'.kind = .brecv r' ∧ r'.done = some ⟨2, m.got / 16, s.base⟩
      ∧ t.events = s.events ++ [.orphan o.ctx r.slot m.src] ∧ (t.outbox, t.heldOut) = sentOut s m.src (Frame.orphan m.src m.srcMsg) ∧ MemKept s t)
  ∧ (∀ i s o b st, (i = .orphanNoticeArrival o.id ∧ st = 2 ∨ i = .peerCancelArrival o.id ∧ st = 3 ∧ tget s.msgs o.id = none
      ∨ ∃ u, i = .bulkAckArrival o.id u st) → tget s.ops o.id = some o → o.kind = .bsend b → b.done = none → b.cancels = [] →
    fabricShut s (keyDev b.key) = false →
    ∃ t o' b', exec i s = .next t ∧ tget t.ops o.id = some o' ∧ o'.kind = .bsend b' ∧ (b'.done.map BulkEnd.status) = some st ∧ OthersKept s t o.wid ∧ MemKept s t)
  ∧ (∀ s id m, tget s.msgs id = some m → m.recv = none → fabricShut s m.src = false → exec (.peerCancelArrival id) s = .next { s with msgs := tdel s.msgs id })

/-! ## Steps of the device: queues, placement, pre-emption, power and the supervisors -/

namespace Sys2Proof.Claims
open Sys2Proof.Machine

/-- An event is to come. -/
def comes (t : State) (i : Instr) : Prop := ∃ p ∈ t.pending, p.ev = i

/-- The number that `n` bits of an image's header from bit `lo` on hold (R65). -/
def header (img : List Byte) (lo n : Nat) : Nat := bytesNat (img.take 64) / 2 ^ lo % 2 ^ n

/-- What reading an image at power-on or after a reset leaves (R62 to R65, R348): an authentic image of the right form starts every
supervisor with its section of the image, with IVER, a lane map of 9 or 4 lanes to each peer, and queues that are as R66 has them beside
those there were; any other leaves all of them in reset. -/
def bootOutcome (s : State) (img : List Byte) (t : State) : Prop :=
  t.flash = img ∧ t.hbm = s.hbm ∧ t.warps = s.warps
  ∧ if (headerOk img && Config.signatureOk img) = true then
      t.booted = true ∧ t.bootFailed = false ∧ 2 ≤ t.podsize ∧ t.podsize ≤ 16 ∧ t.devid < t.podsize ∧ 1000000 ≤ t.hbtoNs ∧ t.hbtoNs ≤ 100000000
      ∧ t.bootStatus = t.hbtoNs ∧ t.iver = header img 96 32 ∧ (∀ v ∈ t.svs, v.inReset = false ∧ v.lastBeat = timens s)
      ∧ (∀ k v, 0 < k → t.svs[k]? = some v → ∃ n, v.image = (img.drop (4096 * header img (112 + 16 * k) 16)).take n)
      ∧ t.laneMap.length = 72 ∧ (∀ d, d < t.podsize → d ≠ t.devid → t.laneMap.count (some d) = if t.podsize ≤ 8 then 9 else 4)
      ∧ (∀ qid q, tget s.queues qid = some q → tget t.queues qid = some q)
      ∧ (∀ qid q, tget t.queues qid = some q → tget s.queues qid = some q ∨
          qid < 1024 ∧ 4 ≤ q.qsz ∧ q.qsz ≤ 16 ∧ q.qbase.toNat % 128 = 0 ∧ q.ctx < 512 ∧ q.head = 0 ∧ q.tail = 0 ∧ q.held = [])
    else t.booted = false ∧ t.bootFailed = true ∧ t.queues = s.queues ∧ ∀ v ∈ t.svs, v.inReset = true

/-- A knock's fields: the queue, and the tail (R68). -/
def knockTail (b : BitVec 128) : Nat := b.toNat % 2 ^ 32
def knockQueue (b : BitVec 128) : Nat := b.toNat / 2 ^ 32 % 2 ^ 10

/-- How far an index lies behind another, modulo 2^32 (R70). -/
def ahead (a b : Nat) : Nat := (a + 2 ^ 32 - b) % 2 ^ 32

/-- A knock that passes the checks of R69: not from a source under lockout, to a queue there is, reserved bits 0, the MAC of the queue's key, and
not expired. -/
def goodKnock (s : State) (src : Nat) (b : BitVec 128) (q : Queue) : Prop :=
  s.bootFailed = false ∧ s.lockouts.contains src = false ∧ tget s.queues (knockQueue b) = some q
  ∧ b.toNat / 2 ^ 42 % 2 ^ 6 = 0 ∧ b.toNat / 2 ^ 61 % 2 ^ 35 = 0
  ∧ b.toNat / 2 ^ 96 = knockMac ((tget s.queueKeys q.keySlot).getD 0) b.toNat src ∧ unexpired s (b.toNat / 2 ^ 48 % 2 ^ 13) = true

/-- A slot of a queue read: the state after the read, which differs in the memory system alone, and the packet. -/
def slotRead (s : State) (q : Queue) (i : Nat) (s1 : State) (p : Packet) : Prop :=
  readSlot s q i = .packet s1 p ∧ s1.queues = s.queues ∧ s1.launches = s.launches ∧ s1.contexts = s.contexts ∧ s1.nextId = s.nextId
  ∧ s1.base = s.base ∧ s1.events = s.events

/-- A packet with SERIAL set and an earlier packet of its queue that has not completed (R74). -/
def waitsSerial (s : State) (qid : Nat) (p : Packet) : Prop :=
  p.getLsbD 8 = true ∧ ∃ e ∈ s.launches, e.2.qid = qid ∧ e.2.phase ≠ .done ∧ e.2.phase ≠ .recorded

/-- A warp whose lanes have all retired, whose hooks are zero, and of which nothing is in flight or waits for the scratchpad (R182). -/
def finished (w : Warp) : Prop :=
  unretired w = 0 ∧ w.hooksZero = true ∧ w.flight = [] ∧ w.scr = [] ∧ w.ended = false

/-- No request of a launch that was ended still waits for its answer at another device (R440). -/
def answered (s : State) (l : Launch) : Prop := ∀ id ∈ l.waits, tget s.ops id = none

/-- The completion knock of a launch (R68, R80): TAIL is CTAIL, QID is CQID, EXP is n + 8 modulo 2^13, its reserved bits are 0, and its MAC
is that of the key for this device. -/
def completionKnockOf (s : State) (l : Launch) (key b : BitVec 128) : Prop :=
  b.toNat % 2 ^ 32 = l.packet.toNat / 2 ^ 624 % 2 ^ 32 ∧ b.toNat / 2 ^ 32 % 2 ^ 10 = l.packet.toNat / 2 ^ 614 % 2 ^ 10
    ∧ b.toNat / 2 ^ 42 % 2 ^ 6 = 0 ∧ b.toNat / 2 ^ 48 % 2 ^ 13 = (timens s / 2 ^ 20 + 8) % 2 ^ 13 ∧ b.toNat / 2 ^ 61 % 2 ^ 35 = 0
    ∧ b.toNat / 2 ^ 96 = knockMac key b.toNat s.devid

/-- Another warp of a warp's team that has not ended. -/
def others (s : State) (w v : Warp) : Prop := s.warp? v.wid = some v ∧ v.wid ≠ w.wid ∧ v.team = w.team ∧ v.ended = false

/-- The slices of a warp without their line buffers, which a warp that enters the active set fills from the fetch cache. -/
def unfetched (w : Warp) : List Slice := w.slices.map fun sl => { sl with line := none }

/-- A team of a core that is out of service, for which there is a place: a core, or a couple that is empty (R101). -/
def replaceable (s : State) (tm : Team) (core : Nat) : Prop :=
  (∃ c ∈ tm.cores, (s.core c).out = true) ∧ (tm.paired = false ∨ coreEmpty s core = true ∧ coreEmpty s (core + 1) = true)

/-- An island back at guard band within 2 µs, and held there, on a core that goes on or not as before (R434, R435). -/
def atGuardBand (s t : State) (core room k : Nat) : Prop :=
  (t.island core room k).mode = .nom ∧ (t.island core room k).heldNom = true ∧ timens s ≤ (t.island core room k).recoverNs
    ∧ (t.island core room k).recoverNs ≤ timens s + 2000 ∧ (t.core core).frozen = (s.core core).frozen

/-- A store from U mode faulted (R58): RISC-V's exception 7 is taken on the core with the register as its tval, into S mode where medeleg
delegates it and else into M mode (log 67, PRESUMED); of the core's other state nothing changes. -/
def storeFaulted (u v : Sv) (reg : Nat) : Prop :=
  let toS := (u.csr 0x302).testBit 7 = true ∧ u.mode ≠ 3
  v = { u with mode := v.mode, pc := v.pc, csrs := v.csrs, accessFault := some reg }
  ∧ (toS → v.mode = 1 ∧ v.csr 0x141 = u.pc.toNat ∧ v.csr 0x142 = 7 ∧ v.csr 0x143 = reg % 2 ^ 64 ∧ v.pc.toNat = u.csr 0x105 / 4 * 4)
  ∧ (¬toS → v.mode = 3 ∧ v.csr 0x341 = u.pc.toNat ∧ v.csr 0x342 = 7 ∧ v.csr 0x343 = reg % 2 ^ 64 ∧ v.pc.toNat = u.csr 0x305 / 4 * 4)

/-- A supervisor core as it is after a step that changes it alone of them. -/
def onlySv (s t : State) (core : Nat) (v : Sv) : Prop := t.svs[core]? = some v ∧ ∀ k, k ≠ core → t.svs[k]? = s.svs[k]?

/-- A queue with one of its registers written in control space (log 73). -/
def queueWith (q : Queue) (k : Nat) (v : Dword) : Queue :=
  { q with
    qbase := if k = 0 then v else q.qbase, qsz := if k = 1 then v.toNat else q.qsz
    ctx := if k = 2 then v.toNat else q.ctx, keySlot := if k = 3 then v.toNat else q.keySlot }

/-- One half of a key written, and the other kept. -/
def keyWritten (old new : BitVec 128) (half : Nat) (v : Dword) : Prop :=
  new.toNat / 2 ^ (64 * half) % 2 ^ 64 = v.toNat ∧ new.toNat / 2 ^ (64 * (1 - half)) % 2 ^ 64 = old.toNat / 2 ^ (64 * (1 - half)) % 2 ^ 64

/-- A warp of a saved team put in a place of a core: it is as it was saved, and the clock cycles it waits for are those of that core. -/
def putAt (s : State) (w : Warp) (core : Nat) (p : Nat × Nat) : Warp :=
  { w.rebase (recount (coreCycle s w.core) (coreCycle s core)) with core := core, room := p.1, base := p.2, scrDone := none, moved := 0 }

/-- The state of a saved team put back on a core or couple (R90, R380, R422, R433): everything of it and of its warps as it was saved, but for
the place and the wake of islands there; its rows are free, filler there has ended, and no L1 line of its context is left there. -/
def restoredAt (s t : State) (tm : Team) (core : Nat) (spots : List (Nat × Nat)) : Prop :=
  (∃ tm', t.team? tm.tid = some tm'
    ∧ tm' = { tm with place := .resident, moving := false, barred := false, inHbm := false, core := core, engines := [],
                      row0 := tm'.row0, row1 := tm'.row1 }
    ∧ (tm.rows = (launchT s tm).rows → rowsFree s core tm.rows tm'.row0 = true))
  ∧ (∀ w p, s.warp? w.wid = some w → w.team = tm.tid → w.ended = false → spots[w.w]? = some p →
      ∃ w', t.warp? w.wid = some w' ∧ w' = { putAt s w (core + (launchT s tm).side w.w) p with wakeNs := w'.wakeNs })
  ∧ (∀ c, c = core ∨ tm.paired = true ∧ c = core + 1 → tm.paired = (launchT s tm).paired →
      (t.core c).filler = none ∧ ∀ x ∈ (t.core c).l1, x.ctx ≠ (launchT s tm).ctx)
  ∧ (∀ k w, s.warp? k = some w → w.team ≠ tm.tid → t.warp? k = some w) ∧ (∀ a, byteAt t a = byteAt s a)

end Sys2Proof.Claims

open Sys2Proof Sys2Proof.Machine Sys2Proof.Claims

/-- R66, R70, R77, R83, R444: a queue is created with its key once sv1 runs; a knock before which no lower port's knock to its queue is to come
in its clock cycle, and that passes its checks, moves TAIL, counts as stale, or is told to sv4 as an overrun, and one that fails a check, its
MAC among them, changes no queue; contexts are enabled and disabled while sv3 runs, and given to a new tenant. HEAD and TAIL 0 of a queue that
is made are the model's choice (log 8, DESIGN CHOICE). The values of an enabled context's root, TRDEL and SYSHAND are firmware's (log 15);
only the fields R405 fixes are stated. -/
def Obligations.QueuesAndContexts : Prop :=
  (∀ s qid qbase qsz ctx slot key, s.svUp 1 = true → qid < 1024 → 4 ≤ qsz → qsz ≤ 16 → BitVec.toNat (w := 64) qbase % 128 = 0 → ctx < 512 →
    exec (.queueCreate qid qbase qsz ctx slot key) s = .next { s with
      queues := tset s.queues qid ⟨qbase, qsz, ctx, slot, 0, 0, 0, [], none, false⟩
      queueKeys := tset s.queueKeys slot key })
  ∧ (∀ s src port b q, port < 1024 → goodKnock s src b q → stillToCome s (lowerPort (knockQueue b) port) = false →
    ahead (knockTail b) q.head ≤ ahead q.tail q.head →
    exec (.knockArrival src port b) s = .next { s with queues := tset s.queues (knockQueue b) { q with stale := q.stale + 1 } })
  ∧ (∀ s src port b q, port < 1024 → goodKnock s src b q → stillToCome s (lowerPort (knockQueue b) port) = false →
    ahead q.tail q.head < ahead (knockTail b) q.head → ahead (knockTail b) q.head ≤ 2 ^ q.qsz →
    ∃ t, exec (.knockArrival src port b) s = .next t ∧ t.queues = tset s.queues (knockQueue b) { q with tail := knockTail b }
      ∧ comes t (.parserLookaheadRead (knockQueue b)) ∧ t.events = s.events ∧ t.warps = s.warps)
  ∧ (∀ s src port b q, port < 1024 → goodKnock s src b q → stillToCome s (lowerPort (knockQueue b) port) = false →
    ahead q.tail q.head < ahead (knockTail b) q.head → 2 ^ q.qsz < ahead (knockTail b) q.head →
    exec (.knockArrival src port b) s = .next { s with events := s.events ++ [.overrun (knockQueue b) src] })
  ∧ (∀ s src port b, port < 1024 → s.bootFailed = false → stillToCome s (lowerPort (knockQueue b) port) = false →
    s.lockouts.contains src = true ∨ tget s.queues (knockQueue b) = none ∨ b.toNat / 2 ^ 42 % 2 ^ 6 ≠ 0 ∨ b.toNat / 2 ^ 61 % 2 ^ 35 ≠ 0
      ∨ (∃ q, tget s.queues (knockQueue b) = some q ∧ b.toNat / 2 ^ 96 ≠ knockMac ((tget s.queueKeys q.keySlot).getD 0) b.toNat src)
      ∨ unexpired s (b.toNat / 2 ^ 48 % 2 ^ 13) = false →
    ∃ t, exec (.knockArrival src port b) s = .next t ∧ t.queues = s.queues ∧ t.events = s.events ∧ t.pending = s.pending ∧ t.warps = s.warps)
  ∧ (∀ s ctx c, ctx < 512 → s.svUp 3 = true → tget s.contexts ctx = some c →
    exec (.contextEnable ctx) s = .next { s with contexts := tset s.contexts ctx { c with enabled := true } })
  ∧ (∀ s ctx, ctx < 512 → s.svUp 3 = true → tget s.contexts ctx = none →
    ∃ t c, exec (.contextEnable ctx) s = .next t ∧ t.contexts = tset s.contexts ctx c ∧ c.enabled = true ∧ c.preempted = false
      ∧ c.trdel.toNat / 4 ^ 0x19 % 4 = 2 ∧ c.trdel.toNat / 4 ^ 0x1A % 4 = 2 ∧ t.warps = s.warps)
  ∧ (∀ s ctx c, s.svUp 3 = true → tget s.contexts ctx = some c →
    exec (.contextDisable ctx) s = .next { s with contexts := tset s.contexts ctx { c with enabled := false } })
  ∧ (∀ s ctx, s.svUp 3 = false → exec (.contextDisable ctx) s = .next s)
  ∧ (∀ s ctx a, tget s.accounts ctx = some a → ctx < 512 →
    exec (.contextReassign ctx) s = .next { s with reassigned := s.reassigned ++ [(ctx, a)] })

/-- R72 to R75, R77, R79, R81: the parser holds the packet of a slot whose PSEQ is its index, and reads another again; sv4 learns once of a slot
that mismatched for 1 ms, and not before; a packet with SERIAL waits while an earlier one of its queue has not completed; a packet issued moves HEAD on, and a NOP does nothing more, a reserved TYPE is told to sv4, a LAUNCH that
fails its validation retires at once with the STATUS and DETAIL of the first check it fails, and one that passes is held until its
work-queue units, all of one die, are bound. -/
def Obligations.PacketsAndLaunches : Prop :=
  (∀ s qid q s1 p, tget s.queues qid = some q → s.svUp 1 = true → q.mismatch = none → q.mayRead = true → slotRead s q q.nextIndex s1 p →
    ∃ t, exec (.parserLookaheadRead qid) s = .next t ∧ (if p.toNat / 2 ^ 32 % 2 ^ 32 = q.nextIndex then
        t.queues = tset s.queues qid { q with held := q.held ++ [(q.nextIndex, p)], stalled := false } ∧ comes t (.packetIssue qid)
      else t.queues = tset s.queues qid { q with mismatch := some (q.nextIndex, timens s) } ∧ comes t (.parserSlotReread qid))
      ∧ t.warps = s1.warps)
  ∧ (∀ s qid q s1 p i since, tget s.queues qid = some q → s.svUp 1 = true → q.mismatch = some (i, since) → timens s < since + 1000000 →
    slotRead s q i s1 p → p.toNat / 2 ^ 32 % 2 ^ 32 = i →
    ∃ t, exec (.parserSlotReread qid) s = .next t ∧ t.warps = s1.warps ∧ comes t (.packetIssue qid)
      ∧ t.queues = tset s.queues qid { q with held := q.held ++ [(i, p)], mismatch := none, stalled := false })
  ∧ (∀ s qid q i since, tget s.queues qid = some q → s.svUp 1 = true → q.mismatch = some (i, since) → q.stalled = false →
    ∃ t, exec (.parserSlotReread qid) s = .next t ∧ t.warps = s.warps
      ∧ t.agenda = (if since + 1000000 ≤ timens s then [.stalledQueueEvent qid] else []) ++ s.agenda)
  ∧ (∀ s qid q i p rest, tget s.queues qid = some q → s.svUp 1 = true → s.svUp 2 = true → q.held = (i, p) :: rest → waitsSerial s qid p →
    exec (.packetIssue qid) s = .next (s.later 1 (.packetIssue qid)))
  ∧ (∀ s qid q, tget s.queues qid = some q → q.mismatch ≠ none → q.stalled = false →
    ∃ t, exec (.stalledQueueEvent qid) s = .next t ∧ t.events = s.events ++ [.stalledQueue qid]
      ∧ t.queues = tset s.queues qid { q with stalled := true } ∧ t.warps = s.warps)
  ∧ (∀ s qid q s1 i p rest, tget s.queues qid = some q → s.svUp 1 = true → s.svUp 2 = true → q.held = (i, p) :: rest →
    ¬waitsSerial s qid p → slotRead s q i s1 p → p.toNat / 2 ^ 32 % 2 ^ 32 = i → p.toNat % 256 ≠ 1 →
    ∃ t, exec (.packetIssue qid) s = .next t ∧ t.queues = tset s.queues qid { q with head := (q.head + 1) % 2 ^ 32, held := rest }
      ∧ t.launches = s.launches ∧ t.events = s.events ++ (if p.toNat % 256 = 2 then [] else [Sv4Event.reservedType qid i])
      ∧ comes t (.packetIssue qid) ∧ t.warps = s1.warps)
  ∧ (∀ s qid q s1 i p rest l, tget s.queues qid = some q → s.svUp 1 = true → s.svUp 2 = true → q.held = (i, p) :: rest →
    ¬waitsSerial s qid p → slotRead s q i s1 p → p.toNat / 2 ^ 32 % 2 ^ 32 = i → p.toNat % 256 = 1 →
    l = { lid := s.nextId, packet := p, qid := qid, pseq := i, tstart := timens s } →
    ∃ t, exec (.packetIssue qid) s = .next t ∧ t.queues = tset s.queues qid { q with head := (q.head + 1) % 2 ^ 32, held := rest }
      ∧ (packetFaults p = [] → l.ctx = q.ctx → (s.ctx q.ctx).enabled = true → l.fits = true →
          t.launches = tset s.launches s.nextId l ∧ comes t (.wqUnitBind s.nextId))
      ∧ (packetFaults p ≠ [] → ∃ d ∈ packetFaults p, (∀ e ∈ packetFaults p, d ≤ e) ∧ comes t (.launchRetirement s.nextId)
          ∧ t.launches = tset s.launches s.nextId { l with phase := .retiring, fatal := some (1, d) })
      ∧ (packetFaults p = [] → l.ctx ≠ q.ctx ∨ (s.ctx l.ctx).enabled = false → comes t (.launchRetirement s.nextId)
          ∧ t.launches = tset s.launches s.nextId { l with phase := .retiring, fatal := some (3, 0) })
      ∧ (packetFaults p = [] → l.ctx = q.ctx → (s.ctx q.ctx).enabled = true → l.fits = false → comes t (.launchRetirement s.nextId)
          ∧ t.launches = tset s.launches s.nextId { l with phase := .retiring, fatal := some (2, 0) })
      ∧ t.warps = s1.warps)
  ∧ (∀ s lid l, Keyed s → s.launch? lid = some l → l.phase = .queued → s.svUp 2 = true → s.wqUnits.length = 128 →
    (∃ d, d < 2 ∧ l.nwq ≤ (freeUnits s d).length) →
    ∃ t l', exec (.wqUnitBind lid) s = .next t ∧ t.launch? lid = some l' ∧ l' = { l with units := l'.units, phase := .placing } ∧ l'.units.length = l.nwq
      ∧ (∃ d, d < 2 ∧ ∀ n ∈ l'.units, n / 64 = d) ∧ (∀ n ∈ l'.units, (s.wqUnits.getD n {}).owner = none ∧ t.wqUnits[n]? = some { owner := some (lid, l.ctx) })
      ∧ t.warps = s.warps)

/-- R78, R84, R90, R94, R96, R151, R170, R432: a team is placed whole, in rows free on its core, with its control registers from the packet and
nothing in its scratchpad, and its warps at the launch's code; it is admitted once the slope lets the current rise, and filler on its cores ends;
an eligible warp takes a free position of its room's active set or that of the warp it replaces; the merge stage issues the bundle of the only
context that is ready. The lowest free position (freePos) is the model's choice (log 68, DESIGN CHOICE); which warp is replaced (activeVictim) is
deduced from R96 and R98 (log 32, DEDUCED), and among equals the model's choice (log 68); which free rows a team gets is the model's choice
(log 58, DESIGN CHOICE). -/
def Obligations.TeamsArePlaced : Prop :=
  (∀ s lid core spots l, Keyed s → s.launch? lid = some l → s.svUp 2 = true → l.phase = .placing → l.next < l.gx * l.gy * l.gz → ctxPreempted s l.ctx = false →
    s.parkedDev = false → canPlace s l core spots = true → (l.next = 0 → ∀ n ∈ l.units, n / 64 = dieOf core) →
    ∃ t tm, exec (.teamPlacement lid core spots) s = .next t ∧ t.team? s.nextId = some tm ∧ tm.launch = lid ∧ tm.lin = l.next ∧ tm.core = core
      ∧ tm.rows = l.rows ∧ rowsFree s core tm.rows tm.row0 = true ∧ (l.paired = true → rowsFree s (core + 1) tm.rows tm.row1 = true)
      ∧ tm.scratch = [] ∧ tm.empty = [] ∧ tm.hatches = [] ∧ tm.admitted = false ∧ tm.live = l.warps ∧ t.launch? lid = some { l with next := l.next + 1 }
      ∧ comes t (.teamAdmission s.nextId) ∧ (∀ a, byteAt t a = byteAt s a)
      ∧ ∀ (k : Nat) p, spots[k]? = some p → ∃ w, t.warp? (s.nextId + 1 + k) = some w ∧ w.team = s.nextId ∧ w.w = k ∧ w.core = core + l.side k
          ∧ w.room = p.1 ∧ w.base = p.2 ∧ w.width = l.width ∧ w.nreg = 32 * l.regblk ∧ w.tick = 0 ∧ w.regs = [] ∧ w.retired = 0
          ∧ w.slices.length = l.width / 4 ∧ (∀ sl ∈ w.slices, sl.cur.pc = l.code ∧ sl.cur.mask = 0xF ∧ sl.cur.tchk = true ∧ sl.depth = 0)
          ∧ (∀ h ∈ w.hooks, h.items = [] ∧ h.credit = 0) ∧ w.csr.fpsr = 0 ∧ w.csr.fpte = BitVec.ofNat 32 (l.packet.toNat / 2 ^ 408 % 2 ^ 5)
          ∧ w.csr.shbase = BitVec.ofNat 64 (l.packet.toNat / 2 ^ 416 % 2 ^ 48 * 65536) ∧ w.csr.memst = 0 ∧ w.csr.trhand = 0 ∧ w.csr.trstat = 0)
  ∧ (∀ s tid tm, s.team? tid = some tm → tm.admitted = false → timens s < s.slopeUp →
    exec (.teamAdmission tid) s = .next (s.later (baseAt s.slopeUp - s.base) (.teamAdmission tid)))
  ∧ (∀ s tid tm, Keyed s → s.team? tid = some tm → tm.admitted = false → s.slopeUp ≤ timens s →
    ∃ t, exec (.teamAdmission tid) s = .next t ∧ t.team? tid = some { tm with admitted := true } ∧ (∀ c ∈ tm.cores, (t.core c).filler = none)
      ∧ t.warps = s.warps ∧ MemKept s t)
  ∧ (∀ s core, ∃ t, exec (.fillerEnd core) s = .next t ∧ (t.core core).filler = none ∧ (∀ c, c ≠ core → t.core c = s.core c) ∧ t.warps = s.warps
      ∧ MemKept s t)
  ∧ (∀ s wid w k, Keyed s → s.warp? wid = some w → eligible s w = true → w.moved ≠ coreCycle s w.core + 1 → freePos s w.core w.room = some k →
    ∃ t w', exec (.activeSetEntry wid) s = .next t ∧ t.warp? wid = some w' ∧ w'.apos = some k ∧ w'.regs = w.regs ∧ unfetched w' = unfetched w
      ∧ OthersKept s t wid ∧ MemKept s t)
  ∧ (∀ s wid w v, Keyed s → s.warp? wid = some w → eligible s w = true → w.moved ≠ coreCycle s w.core + 1 → freePos s w.core w.room = none →
    activeVictim s w = some v →
    ∃ t w' v', exec (.activeSetEntry wid) s = .next t ∧ t.warp? wid = some w' ∧ w'.apos = v.apos ∧ unfetched w' = unfetched w
      ∧ t.warp? v.wid = some v' ∧ v'.apos = none ∧ v'.regs = v.regs ∧ v'.slices = v.slices ∧ (∀ k, k ≠ wid → k ≠ v.wid → t.warp? k = s.warp? k) ∧ MemKept s t)
  ∧ (∀ s core room s1 n slices w g img is, ((s.core core).rooms.getD room {}).prim = none → s1 = roomBoundaries s core room → Keyed s1 →
    roomCtxs s1 core room none = [(n, w.wid, slices)] → s1.warp? w.wid = some w → w.gangAt slices = some g → gangStatus s1 w g = ([], .ok) →
    nextBundle s1 w g = .syls img is → is ≠ [] →
    ∃ t iss, exec (.mergeSelect core room) s = .next t ∧ t.issuing = iss :: s1.issuing ∧ iss.wid = w.wid ∧ iss.slices = g.slices ∧ iss.lanes = g.lanes
      ∧ iss.pc = g.pc.toNat ∧ iss.img = img ∧ iss.tick = w.tick ∧ iss.primary = true ∧ iss.syl = g.pc.toNat % 64
      ∧ iss.last + 1 = iss.syl + is.length ∧ t.agenda = .mergeSelect core room :: s1.agenda ∧ ∀ a, byteAt t a = byteAt s1 a)

/-- R79 to R82, R182, R262, R324, R407, R437 to R440: a warp ends when its lanes have retired, its hooks are zero and its results have landed; it
leaves nothing in flight, gives up the hatch entries of a pair that has ended and the matrix engine of a core that its team has left,
and with the last of a team its team retires and is counted, with filler on its cores from then on, until the current has fallen along the slope; a launch waits for its WCT, and, ended early,
for its requests at other devices, and then frees its units and writes the 32 bytes of its record; once that is complete it is done, and its
completion knock leaves, for CQID with CTAIL, an expiry of n + 8 and the MAC of the key held for the pair of CQDEV and CQID, to its own
doorbell or to CQDEV; without a key sv4 is told; a launch that is cancelled, or ended for a stopped warp, retires with STATUS 5, or 4 and its
cause. -/
def Obligations.LaunchesRetire : Prop :=
  (∀ s wid w tm n, Keyed s → s.warp? wid = some w → finished w → s.team? w.team = some tm → tm.live = n + 2 →
    ∃ t w' tm', exec (.warpEnd wid) s = .next t ∧ t.warp? wid = some w' ∧ w'.ended = true ∧ w'.regs = [] ∧ w'.flight = [] ∧ w'.attic = none
      ∧ w'.freezes = [] ∧ w'.apos = none ∧ t.team? w.team = some tm' ∧ tm' = { tm with live := n + 1, hatches := tm'.hatches }
      ∧ ((∃ v, others s w v ∧ v.w / 2 = w.w / 2) → tm'.hatches = tm.hatches)
      ∧ ((∀ v, others s w v → v.w / 2 ≠ w.w / 2) → tm'.hatches = tm.hatches.filter fun e => e.1 / 8 ≠ w.w / 2)
      ∧ ((∃ v, others s w v ∧ v.core = w.core) → (t.core w.core).engine = (s.core w.core).engine)
      ∧ ((∀ v, others s w v → v.core ≠ w.core) → (s.core w.core).engine.holder = some w.team → (t.core w.core).engine = {})
      ∧ (∀ c, c ≠ w.core → (t.core c).engine = (s.core c).engine) ∧ OthersKept s t wid ∧ (∀ a, byteAt t a = byteAt s a)
      ∧ t.undefined = s.undefined ∧ t.poison = s.poison ∧ t.cellar = s.cellar ∧ ∀ k a, scratchByte t k a = scratchByte s k a)
  ∧ (∀ s wid w tm l, Keyed s → s.warp? wid = some w → finished w → s.team? w.team = some tm → tm.live = 1 → s.launch? tm.launch = some l →
    ∃ t l', exec (.warpEnd wid) s = .next t ∧ t.team? w.team = none ∧ (∀ e ∈ t.warps, e.2.team ≠ w.team) ∧ t.launch? tm.launch = some l'
      ∧ l'.teamsDone = l.teamsDone + 1 ∧ l'.wct = max l.wct w.csr.wct.toNat
      ∧ (l.phase = .placing → l.gx * l.gy * l.gz ≤ l.teamsDone + 1 → l'.phase = .retiring ∧ comes t (.launchRetirement tm.launch))
      ∧ (∀ c ∈ tm.cores, c < s.cores.length → (t.core c).filler = some (l.ctx, timens s) ∧ comes t (.fillerEnd c))
      ∧ (∀ a, byteAt t a = byteAt s a) ∧ (∀ e ∈ s.warps, e.2.team ≠ w.team → t.warp? e.1 = some e.2))
  ∧ (∀ s lid l, s.launch? lid = some l → l.phase = .retiring ∨ l.phase = .recorded → timens s < l.wct →
    ∃ t, exec (.launchRetirement lid) s = .next t ∧ comes t (.launchRetirement lid) ∧ t = { s with pending := t.pending })
  ∧ (∀ s lid l id, s.launch? lid = some l → l.phase = .retiring ∨ l.phase = .recorded → id ∈ l.waits → tget s.ops id ≠ none →
    ∃ t, exec (.launchRetirement lid) s = .next t ∧ comes t (.launchRetirement lid) ∧ t = { s with pending := t.pending })
  ∧ (∀ s lid l, Keyed s → s.launch? lid = some l → l.phase = .retiring → l.wct ≤ timens s → answered s l → l.craddr = 0 →
    ∃ t, exec (.launchRetirement lid) s = .next t ∧ t.launch? lid = some { l with phase := .done } ∧ (∀ u ∈ t.wqUnits, ∀ o, u.owner = some o → o.1 ≠ lid)
      ∧ t.warps = s.warps ∧ MemKept s t)
  ∧ (∀ s lid l lf, Keyed s → s.launch? lid = some l → l.phase = .retiring → l.wct ≤ timens s → answered s l → l.craddr ≠ 0 → l.craddr % 32 = 0 → l.crkey = 0 →
    Machine.walk s (ownerCtx s l) l.craddr = .leaf lf → lf.w = true → lf.enc = false → lf.phys l.craddr % 32 = 0 →
    plainLine s (lf.phys l.craddr / 128) → roomFor s (lf.phys l.craddr / 128) →
    (∀ x ∈ s.ingressRes, ¬(x.1 = ownerCtx s l ∧ x.2.1 = l.craddr / 65536)) →
    ∃ t l' rest, exec (.launchRetirement lid) s = .next t ∧ t.launch? lid = some l' ∧ l' = { l with phase := .recorded, wct := l'.wct }
      ∧ timens s ≤ l'.wct ∧ t.agenda = .launchRetirement lid :: rest
      ∧ memNat t (lf.phys l.craddr) 32 = l.outcome.1 % 2 ^ 8 + l.outcome.2 % 2 ^ 16 * 2 ^ 16 + l.pseq % 2 ^ 32 * 2 ^ 32 + l.tstart % 2 ^ 64 * 2 ^ 64
          + timens s % 2 ^ 64 * 2 ^ 128 + l.ctx * 2 ^ 192
      ∧ (∀ a, a < lf.phys l.craddr ∨ lf.phys l.craddr + 32 ≤ a → byteAt t a = byteAt s a) ∧ t.warps = s.warps)
  ∧ (∀ s lid l, Keyed s → s.launch? lid = some l → l.phase = .recorded → l.wct ≤ timens s → answered s l →
    ∃ t, exec (.launchRetirement lid) s = .next t ∧ t.launch? lid = some { l with phase := .done } ∧ t.warps = s.warps ∧ MemKept s t)
  ∧ (∀ s lid l key, Keyed s → s.launch? lid = some l → l.phase = .recorded → l.wct ≤ timens s → answered s l →
    tget s.cqKeys (l.packet.toNat / 2 ^ 608 % 2 ^ 6 * 1024 + l.packet.toNat / 2 ^ 614 % 2 ^ 10) = some key →
    let dev := l.packet.toNat / 2 ^ 608 % 2 ^ 6
    ∃ t b, exec (.launchRetirement lid) s = .next t ∧ completionKnockOf s l key b ∧ t.events = s.events
      ∧ (dev = s.devid → t.pending = s.pending ++ [⟨s.base + 1, .knockArrival dev 1023 b⟩] ∧ (t.outbox, t.heldOut) = (s.outbox, s.heldOut))
      ∧ (dev ≠ s.devid → t.pending = s.pending ∧ (t.outbox, t.heldOut) = sentOut s dev (Frame.knock dev b)))
  ∧ (∀ s lid l, Keyed s → s.launch? lid = some l → l.phase = .recorded → l.wct ≤ timens s → answered s l →
    tget s.cqKeys (l.packet.toNat / 2 ^ 608 % 2 ^ 6 * 1024 + l.packet.toNat / 2 ^ 614 % 2 ^ 10) = none →
    ∃ t, exec (.launchRetirement lid) s = .next t ∧ t.events = s.events ++ [.noKnock lid] ∧ t.pending = s.pending
      ∧ (t.outbox, t.heldOut) = (s.outbox, s.heldOut))
  ∧ (∀ s lid l, Keyed s → s.svUp 7 = true → s.launch? lid = some l → l.phase = .queued ∨ l.phase = .placing →
    ∃ t l', exec (.managementCancel lid) s = .next t ∧ t.launch? lid = some l' ∧ l'.phase = .retiring ∧ l'.fatal = some (5, 0)
      ∧ comes t (.launchRetirement lid) ∧ (∀ k tm, s.team? k = some tm → tm.launch = lid → t.team? k = none ∧ ∀ e ∈ t.warps, e.2.team ≠ k))
  ∧ (∀ s wid w tm l, Keyed s → s.svUp 4 = true → s.warp? wid = some w → w.stopped = true → s.team? w.team = some tm → s.launch? tm.launch = some l →
    l.phase = .queued ∨ l.phase = .placing →
    ∃ t l', exec (.sv4EndLaunch wid) s = .next t ∧ t.launch? tm.launch = some l' ∧ l'.phase = .retiring
      ∧ l'.fatal = some (4, w.csr.trcause.toNat % 64) ∧ comes t (.launchRetirement tm.launch) ∧ t.team? w.team = none)

/-- R100, R101, R420 to R425: a pre-emption halts the context's teams on the partition; halted teams that have all drained go to the Closet with their
registers, slices, Attics and scratchpads, and no L1 line of their context is left on any core; they are put back as they were saved; a
pre-emption that sv2 withdraws is forgotten; a core that freezes halts the teams that are on it alone, and those of its couple too where no
spare is left; a spare takes its place with everything its warps held, a team of a pre-empted context staying saved, and without one its teams
are placed elsewhere, or their launch ends with STATUS 4 and cause 16 where their image is lost. That a request stays armed and that a save is
one step is deduced from R420 to R423 (log 34, DEDUCED), that the partner goes on while a spare is left and that a spare's counters start at 0
from R100 and R101 (log 57, DEDUCED); whether a saved team's state lies in the Closet or in HBM (inHbm) is left free, as the spec gives the
Closet no size (log 34); that a warp put on an island at retention voltage wakes it is the model's choice (log 76, DESIGN CHOICE). -/
def Obligations.PreemptionKeepsState : Prop :=
  (∀ s ctx cores, Keyed s → s.svUp 2 = true →
    ∃ t, exec (.preemptRequest ctx cores) s = .next t ∧ t.preempts = s.preempts ++ [(ctx, cores)] ∧ t.warps = s.warps ∧ MemKept s t
      ∧ (∀ k tm, s.team? k = some tm → t.team? k = some (if (launchT s tm).ctx = ctx ∧ tm.place = .resident ∧ (∃ c ∈ tm.cores, c ∈ cores) then
          { tm with place := .halting } else tm)))
  ∧ (∀ s ctx, Keyed s → (∀ k tm, s.team? k = some tm → (launchT s tm).ctx = ctx → tm.place = .halting → teamDrained s tm = true) →
    ∃ t, exec (.closetSave ctx) s = .next t ∧ (∀ a, byteAt t a = byteAt s a)
      ∧ (∀ k tm, s.team? k = some tm → (launchT s tm).ctx = ctx → tm.place = .halting →
          (∃ tm', t.team? k = some tm' ∧ tm' = { tm with place := .saved, engines := tm'.engines, inHbm := tm'.inHbm })
          ∧ (∀ c < 192, ∀ x ∈ (t.core c).l1, x.ctx ≠ ctx)
          ∧ ∀ i w, s.warp? i = some w → w.team = k → w.ended = false → ∃ w', t.warp? i = some w' ∧ w'.regs = (w.applyKills (w.tick + 1)).regs ∧ w'.slices = w.slices
            ∧ w'.flight = w.flight ∧ w'.attic = w.attic ∧ w'.hooks = w.hooks ∧ w'.tick = w.tick ∧ w'.due = w.due ∧ w'.apos = none))
  ∧ (∀ s ctx k tm, Keyed s → s.team? k = some tm → (launchT s tm).ctx = ctx → tm.place = .halting → teamDrained s tm = false →
    exec (.closetSave ctx) s = .next s)
  ∧ (∀ i s tid core spots tm, (i = .preemptRestore tid core spots ∨ i = .teamReplace (tid, false) core spots ∧ replaceable s tm core) → Keyed s →
    s.team? tid = some tm → mayRestore s tm (launchT s tm) core spots = true →
    ∃ t, exec i s = .next t ∧ restoredAt s t tm core spots)
  ∧ (∀ s tid core spots tm l, Keyed s → s.team? tid = some tm → replaceable s tm core → s.launch? tm.launch = some l → l.phase = .placing →
    mayRestore s tm l core spots = true →
    ∃ t l', exec (.teamReplace (tid, true) core spots) s = .next t ∧ t.team? tid = none ∧ t.launch? tm.launch = some l' ∧ l'.phase = .retiring
      ∧ l'.fatal = some (4, 0x16) ∧ comes t (.launchRetirement tm.launch))
  ∧ (∀ s ctx c, s.svUp 2 = true → tget s.contexts ctx = some c →
    exec (.preemptWithdraw ctx) s = .next { s with
      preempts := s.preempts.filter (fun p => p.1 ≠ ctx), contexts := tset s.contexts ctx { c with preempted := false } })
  ∧ (∀ s ctx, s.svUp 2 = false → exec (.preemptWithdraw ctx) s = .next s)
  ∧ (∀ s core, Keyed s → core < 192 → core < s.cores.length → (s.core core).frozen = false → (s.core core).out = false →
    ∃ t, exec (.coreFreeze core) s = .next t ∧ (t.core core).frozen = true ∧ ((t.core core).out = true ↔ s.spares.getD (dieOf core) 0 = 0)
      ∧ (∀ k tm, s.team? k = some tm → core ∈ tm.cores → tm.place = .resident → t.team? k = some (
          if tm.paired = true ∧ s.spares.getD (dieOf core) 0 ≠ 0 then tm else { tm with place := .halting, moving := true }))
      ∧ t.warps = s.warps ∧ MemKept s t)
  ∧ (∀ s core, Keyed s → core < s.cores.length → (s.core core).frozen = true → (s.core core).out = false → 0 < s.spares.getD (dieOf core) 0 → s.svUp 2 = true →
    coreMovable s core = true →
    ∃ t, exec (.spareMove (core, [])) s = .next t ∧ (t.core core).frozen = false ∧ (t.core core).l1 = [] ∧ (t.core core).fcache = [] ∧ (t.core core).tlb = []
      ∧ (∀ n ∈ (t.core core).stalls, n = 0) ∧ t.spares = lmod s.spares (dieOf core) (fun n => n - 1) ∧ (∀ a, byteAt t a = byteAt s a)
      ∧ (∀ k tm, s.team? k = some tm → core ∈ tm.cores → tm.place = .saved → tm.moving = true → ctxPreempted s (launchT s tm).ctx = true →
          t.team? k = some { tm with moving := false, barred := true })
      ∧ ∀ k w, s.warp? k = some w → w.ended = false → ∃ w' v, t.warp? k = some w'
          ∧ (v = w ∨ v = w.rebase (recount (coreCycle s w.core) (coreCycle s w'.core))) ∧ (w'.regs = w.regs ∨ w'.regs = (w.applyKills (w.tick + 1)).regs)
          ∧ w'.flight = w.flight ∧ w'.tick = w.tick ∧ w'.due = w.due ∧ w'.slices = v.slices ∧ w'.attic = v.attic ∧ w'.hooks = v.hooks)

/-- R426, R427, R429 to R432, R434 to R436, R444: islands change their modes as their warps, the errors they have met and the slope of the
current allow, and leave retention voltage for the release of a lane; a clock transition stops its cluster's clock, with RATIO within its bounds
and those of the plan that then comes into force, and within 10 µs of the one before it leaves the state as it was; a plan's voltages, of each
island of a cluster, are held to the Lintel's bounds and the image's; an error on an undervolted island, or in filler, takes it to guard band
and makes what it lost undefined, any other freezes its core; sv7 takes snapshots of contexts and rooms. The cycle at which a stop ends (baseAt)
is deduced from R3 and R5 (log 9, DEDUCED); the registers of the image's bounds are the model's choice (log 73, DESIGN CHOICE). -/
def Obligations.PowerManagement : Prop :=
  (∀ s core room k, core < s.cores.length → (s.core core).islands.length = 16 → room < 4 → k < 4 → (s.island core room k).mode = .nom →
    (s.island core room k).heldNom = false → ntForbidden s core room k = false →
    (timens s < s.slopeDown → exec (.islandEnterNt core room k) s = .next (s.later (baseAt s.slopeDown - s.base) (.islandEnterNt core room k)))
    ∧ (s.slopeDown ≤ timens s → ∃ t, exec (.islandEnterNt core room k) s = .next t ∧ (t.island core room k).mode = .nt none
      ∧ (t.island core room k).ntFrom = coreCycle s core + 1 ∧ timens s ≤ t.slopeDown ∧ t.warps = s.warps ∧ MemKept s t))
  ∧ (∀ s core room k, core < s.cores.length → (s.core core).islands.length = 16 → room < 4 → k < 4 → (s.island core room k).mode = .nt none →
    ∃ t e, exec (.islandExitNt core room k) s = .next t ∧ (t.island core room k).mode = .nt (some e) ∧ timens s ≤ e ∧ e ≤ timens s + 400
      ∧ t.warps = s.warps ∧ MemKept s t)
  ∧ (∀ s core room k, core < s.cores.length → (s.core core).islands.length = 16 → room < 4 → k < 4 → (s.island core room k).mode.isRet = false →
    (s.island core room k).heldNom = false → islandIdle s core room k = true →
    (timens s < s.slopeDown → exec (.islandEnterRet core room k) s = .next (s.later (baseAt s.slopeDown - s.base) (.islandEnterRet core room k)))
    ∧ (s.slopeDown ≤ timens s → ∃ t, exec (.islandEnterRet core room k) s = .next t ∧ (t.island core room k).waking = false
      ∧ (t.island core room k).mode = .ret (decide ((s.island core room k).mode = .nt none)) ∧ t.warps = s.warps ∧ MemKept s t))
  ∧ (∀ s core room k, (s.island core room k).heldNom = true → exec (.islandEnterNt core room k) s = .next s ∧ exec (.islandEnterRet core room k) s = .next s)
  ∧ (∀ s core room k wasNt, core < s.cores.length → (s.core core).islands.length = 16 → room < 4 → k < 4 → (s.island core room k).mode = .ret wasNt →
    (s.island core room k).waking = true →
    ∃ t, exec (.islandExitRet core room k) s = .next t ∧ t.warps = s.warps ∧ MemKept s t
      ∧ (t.island core room k).mode
          = if wasNt = true ∧ (s.island core room k).heldNom = false ∧ ntForbidden s core room k = false then .nt none else .nom)
  ∧ (∀ s core room k, (s.island core room k).waking = false → exec (.islandExitRet core room k) s = .next s)
  ∧ (∀ s cluster ratio stop c, s.svUp 6 = true → cluster < 24 → s.clusters[cluster]? = some c → stop ≤ 500 → c.stop = none →
    (∀ n, c.lastNs = some n → n + 10000 ≤ timens s) → tget s.plans cluster = none →
    ∃ t, exec (.clockTransition cluster ratio stop) s = .next t ∧ t.warps = s.warps ∧ MemKept s t ∧ t.clusters[cluster]?
        = some { c with stop := some (baseAt (timens s + stop), min c.maxRatio (max 0x400 (min 0x1000 ratio))), lastNs := some (timens s) })
  ∧ (∀ s cluster ratio stop c p, s.svUp 6 = true → cluster < 24 → s.clusters[cluster]? = some c → stop ≤ 500 → c.stop = none →
    (∀ n, c.lastNs = some n → n + 10000 ≤ timens s) → tget s.plans cluster = some p →
    ∃ t, exec (.clockTransition cluster ratio stop) s = .next t ∧ t.warps = s.warps ∧ MemKept s t
      ∧ tget t.plans cluster = none ∧ tget t.plansInForce cluster = some p ∧ t.clusters[cluster]?
        = some { c with stop := some (baseAt (timens s + stop), min p.maxRatio (max 0x400 (min 0x1000 ratio))), lastNs := some (timens s), maxRatio := p.maxRatio })
  ∧ (∀ s cluster ratio stop c n, s.clusters[cluster]? = some c → c.lastNs = some n → timens s < n + 10000 →
    exec (.clockTransition cluster ratio stop) s = .next s)
  ∧ (∀ s cluster maxRatio guardMv ntMv, s.svUp 6 = true → cluster < 24 →
    ∃ t p, exec (.marginPlanInstall cluster maxRatio guardMv ntMv) s = .next t ∧ t.warps = s.warps ∧ MemKept s t
      ∧ tget t.plans cluster = some p ∧ p.maxRatio = max 0x400 (min 0x1000 maxRatio) ∧ p.guardMv.length = 128 ∧ p.ntMv.length = 128
      ∧ (∀ v ∈ p.guardMv ++ p.ntMv, 400 ≤ v ∧ v ≤ 950)
      ∧ (∀ lo hi, lo = (tget s.devRegs regFloor).elim 400 BitVec.toNat → hi = (tget s.devRegs regCeiling).elim 950 BitVec.toNat →
          400 ≤ lo → lo ≤ hi → hi ≤ 950 → ∀ i v, i < 128 →
          (guardMv[i]? = some v → p.guardMv[i]? = some (max lo (min hi v))) ∧ (ntMv[i]? = some v → p.ntMv[i]? = some (max lo (min hi v))))
      ∧ ∀ c, c / 8 = cluster → ∀ i ∈ (t.core c).islands, i.heldNom = false)
  ∧ (∀ s core room k lost, core < 192 → core < s.cores.length → (s.core core).islands.length = 16 → room < 4 → k < 4 →
    lost = .filler ∨ lost = .lineBuf ∧ attributed s (s.island core room k) = true →
    ∃ t, exec (.attributedEccError core room k lost) s = .next t ∧ atGuardBand s t core room k ∧ t.warps = s.warps ∧ MemKept s t)
  ∧ (∀ s core room k w opnd lanes found, Keyed s → core < 192 → core < s.cores.length → (s.core core).islands.length = 16 → room < 4 → k < 4 →
    attributed s (s.island core room k) = true → s.warp? w.wid = some w → opnd < 776 →
    ∃ t w', exec (.attributedEccError core room k (.data w.wid opnd lanes false found)) s = .next t ∧ atGuardBand s t core room k
      ∧ t.warp? w.wid = some w'
      ∧ w'.lost ≠ none ∧ w'.lostPc = w.lostPc.or found ∧ (∀ l, l < 64 → w'.cell opnd l = if BitVec.getLsbD (w := 64) lanes l = true then ⟨0, 0xFFFFFFFF, 0, true⟩ else w.cell opnd l)
      ∧ (∀ n l, n ≠ opnd → l < 64 → w'.cell n l = w.cell n l) ∧ OthersKept s t w.wid ∧ MemKept s t)
  ∧ (∀ s core room k lost, core < 192 → core < s.cores.length → room < 4 → k < 4 → attributed s (s.island core room k) = false → lost ≠ .filler →
    (s.core core).frozen = false →
    ∃ t, exec (.attributedEccError core room k lost) s = .next t ∧ (t.core core).frozen = true ∧ t.warps = s.warps ∧ MemKept s t)
  ∧ (∀ s ctx core room a, s.svUp 7 = true → ctx < 512 → tget s.accounts ctx = some a →
    exec (.counterSnapshot (some ctx) core room) s = .next { s with snapshots := s.snapshots ++ [(some ctx, core, room, a)] })
  ∧ (∀ s core room, s.svUp 7 = true →
    exec (.counterSnapshot (some 512) core room) s = .next { s with snapshots := s.snapshots ++ [(some 512, core, room, s.devAcct)] }
    ∧ ∃ a, exec (.counterSnapshot none core room) s = .next { s with snapshots := s.snapshots ++ [(none, core, room, a)] }
      ∧ ∀ k < 16, tget a.stalls k = some ((s.core core).stalls.getD (16 * room + k) 0))

/-- R58 to R65, R83: what the boot of an image leaves; heartbeats are kept, and a supervisor that misses one or fails is held in reset
and released within 20 ms, while with sv0 the whole complex resets; a core parks 1 s after a reset that has not booted, and parked launches go
on; mailboxes hold one message with its sender's number and raise their core's interrupt, and a full one sets the sender's busy bit; control
space, its mailboxes and heartbeats among it, is written in M and S mode, and a store from U mode is an access fault taken on its core. Where its
registers stand there (log 73), what the reserved bits of a message hold, when a sender's busy bit clears and how long the interrupt lasts
(log 69), the boot status of a complex that has booted (log 48), and HEAD and TAIL 0 of the image's queues (log 8) are the model's choices
(DESIGN CHOICE); how the core takes its exception is RISC-V's (log 67, PRESUMED). -/
def Obligations.SupervisorComplex : Prop :=
  (∀ s img, s.booted = false → ∃ t, exec (.powerOnBoot img) s = .next t ∧ bootOutcome s img t)
  ∧ (∀ s img, s.booted = true → exec (.powerOnBoot img) s = .next s)
  ∧ (∀ s core v, s.booted = true → s.svs[core]? = some v → v.inReset = false →
    ∃ t v', exec (.heartbeatWrite core) s = .next t ∧ t = { s with svs := t.svs } ∧ onlySv s t core v'
      ∧ (v.reaches = true → v' = { v with lastBeat := timens s }) ∧ (v.reaches = false → storeFaulted v v' (0x300 + core)))
  ∧ (∀ i s core v, (i = .heartbeatTimeout core ∧ v.lastBeat + s.hbtoNs < timens s ∨ i = .supervisorFatal core ∧ core < 8) → 0 < core → s.booted = true →
    s.svs[core]? = some v → v.inReset = false →
    ∃ t v', exec i s = .next t ∧ t.svs[core]? = some v' ∧ v'.inReset = true ∧ v'.restart = some (timens s)
      ∧ (∃ p ∈ t.pending, p.ev = .supervisorRelease core ∧ p.due ≤ s.base + 25000000) ∧ t.warps = s.warps ∧ MemKept s t)
  ∧ (∀ i s v, (i = .heartbeatTimeout 0 ∧ v.lastBeat + s.hbtoNs < timens s ∨ i = .supervisorFatal 0) → s.booted = true → s.svs[0]? = some v →
    v.inReset = false → exec i s = .next { s with agenda := .complexReset s.flash :: s.agenda })
  ∧ (∀ s core v, 0 < core → s.booted = true → s.svs[core]? = some v → v.restart ≠ none →
    ∃ t v', exec (.supervisorRelease core) s = .next t ∧ t.svs[core]? = some v' ∧ v'.inReset = false ∧ v'.lastBeat = timens s ∧ v'.image = v.image
      ∧ v'.mailIrq = v.mailIrq ∧ v'.mode = 3 ∧ v'.pc = 0
      ∧ t = { s with svs := t.svs, agenda := t.agenda, cellarReqs := t.cellarReqs }
      ∧ (core ≠ 3 → t.agenda = s.agenda ∧ t.cellarReqs = s.cellarReqs)
      ∧ (core = 3 → t.cellarReqs = [] ∧ t.agenda = s.agenda ++ s.cellarReqs.map fun r => Instr.cellarWrite (r.1, r.2.1) r.2.2))
  ∧ (∀ s v, s.booted = false → s.svs[0]? = some v → v.restart ≠ none → ∃ t, exec (.supervisorRelease 0) s = .next t ∧ bootOutcome s s.flash t)
  ∧ (∀ s img, ∃ t, exec (.complexReset img) s = .next t ∧ t.booted = false ∧ t.flash = img ∧ (∀ v ∈ t.svs, v.inReset = true)
      ∧ comes t .bootTimeoutPark ∧ comes t (.supervisorRelease 0) ∧ t.queues = s.queues ∧ t.lockouts = s.lockouts ∧ t.warps = s.warps ∧ MemKept s t)
  ∧ (∀ s v r, s.booted = false → s.svs[0]? = some v → v.restart = some r → r + 1000000000 ≤ timens s →
    ∃ t, exec .bootTimeoutPark s = .next t ∧ t.parkedDev = true ∧ (∀ lid l, s.launch? lid = some l → t.launch? lid = some { l with parked := decide (l.phase = .placing) })
      ∧ t.warps = s.warps ∧ MemKept s t)
  ∧ (∀ s, s.svUp 2 = true → s.parkedDev = true →
    ∃ t, exec (.parkedLaunchResume []) s = .next t ∧ t.parkedDev = false ∧ (∀ lid l, s.launch? lid = some l → t.launch? lid = some { l with parked := false })
      ∧ t.warps = s.warps ∧ MemKept s t)
  ∧ (∀ s src dst mb msg u, src < 8 → dst < 8 → mb < 16 → s.svs[src]? = some u → u.reaches = false →
    ∃ t v, exec (.mailboxStore src dst mb msg) s = .next t ∧ t = { s with svs := t.svs } ∧ onlySv s t src v ∧ storeFaulted u v (0x200 + 16 * dst + mb))
  ∧ (∀ s src dst mb msg, src < 8 → dst < 8 → mb < 16 → (s.sv src).reaches = true → s.busy.length = 8 → stillToCome s (lowerSender src dst mb) = false →
    ∃ t, exec (.mailboxStore src dst mb msg) s = .next t ∧ t = { s with mailboxes := t.mailboxes, busy := t.busy, svs := t.svs }
      ∧ (∀ m, tget s.mailboxes (16 * dst + mb) = some m → m.full = true → t.mailboxes = s.mailboxes ∧ t.svs = s.svs ∧ t.busy[src]? = some true)
      ∧ ((∀ m, tget s.mailboxes (16 * dst + mb) = some m → m.full = false) → t.busy[src]? = some false
          ∧ (∀ u, s.svs[dst]? = some u → t.svs[dst]? = some { u with mailIrq := true }) ∧ (∀ k, k ≠ dst → t.svs[k]? = s.svs[k]?)
          ∧ ∃ v : BitVec 512, t.mailboxes = tset s.mailboxes (16 * dst + mb) ⟨true, v⟩ ∧ v.toNat % 2 ^ 8 = src ∧ v.toNat / 2 ^ 22 % 2 ^ 10 = 0
              ∧ v.toNat / 2 ^ 8 % 2 ^ 14 = BitVec.toNat (w := 512) msg / 2 ^ 8 % 2 ^ 14 ∧ v.toNat / 2 ^ 32 = BitVec.toNat (w := 512) msg / 2 ^ 32))
  ∧ (∀ s src dst mb msg, src < 8 → dst < 8 → mb < 16 → (s.sv src).reaches = true → stillToCome s (lowerSender src dst mb) = true →
    ∃ t, exec (.mailboxStore src dst mb msg) s = .next t ∧ t = { s with agenda := t.agenda, inputs := t.inputs }
      ∧ (.mailboxStore src dst mb msg ∈ t.agenda ∨ ⟨s.base, .mailboxStore src dst mb msg⟩ ∈ t.inputs))
  ∧ (∀ s core mb u, s.svs[core]? = some u → u.reaches = false →
    ∃ t v, exec (.mailboxAck core mb) s = .next t ∧ t = { s with svs := t.svs } ∧ onlySv s t core v ∧ storeFaulted u v (0x200 + 16 * core + mb))
  ∧ (∀ s core mb m u, tget s.mailboxes (16 * core + mb) = some m → s.svs[core]? = some u → u.reaches = true →
    ∃ t u', exec (.mailboxAck core mb) s = .next t ∧ t = { s with mailboxes := t.mailboxes, svs := t.svs }
      ∧ t.mailboxes = tset s.mailboxes (16 * core + mb) { m with full := false } ∧ t.svs[core]? = some u' ∧ u' = { u with mailIrq := u'.mailIrq }
      ∧ ((∀ e ∈ t.mailboxes, e.1 / 16 = core → e.2.full = false) → u'.mailIrq = false)
      ∧ ((∃ e ∈ t.mailboxes, e.1 / 16 = core ∧ e.2.full = true) → u'.mailIrq = u.mailIrq))
  ∧ (∀ s core mode reg v u, s.svUp core = true → s.svs[core]? = some u → mode = 1 ∨ mode = 3 →
    ∃ t, exec (.controlRegisterWrite (core, mode) reg v) s = .next t ∧ onlySv s t core { u with mode := mode }
      ∧ (reg < 0x110 → t = { s with devRegs := tset s.devRegs reg v, svs := t.svs })
      ∧ (∀ k, reg = 0x100 + k → 16 ≤ k → k < 64 → t = { s with peerTable := tset s.peerTable k (BitVec.toNat (w := 64) v), svs := t.svs })
      ∧ (∀ n x, reg = 0x400 + n → n < 128 → s.wqUnits[n]? = some x → t = { s with wqUnits := t.wqUnits, svs := t.svs }
          ∧ (∀ k, k ≠ n → t.wqUnits[k]? = s.wqUnits[k]?) ∧ t.wqUnits[n]? = some (if BitVec.toNat (w := 64) v = 2 ^ 64 - 1 then {}
              else { x with owner := some (BitVec.toNat (w := 64) v % 2 ^ 32, BitVec.toNat (w := 64) v / 2 ^ 32 % 512) }))
      ∧ (∀ qid k q, reg = 0x10000 + 4 * qid + k → qid < 1024 → k < 4 → tget s.queues qid = some q → t = { s with queues := t.queues, svs := t.svs }
          ∧ (∀ j, j ≠ qid → tget t.queues j = tget s.queues j)
          ∧ tget t.queues qid = some (if queueOk qid (queueWith q k v).qbase (queueWith q k v).qsz (queueWith q k v).ctx = true then queueWith q k v else q))
      ∧ (∀ n h, reg = 2 ^ 20 + 2 * n + h → n < 2 ^ 16 → h < 2 →
          ∃ k, t = { s with cqKeys := tset s.cqKeys n k, svs := t.svs } ∧ keyWritten ((tget s.cqKeys n).getD 0) k h v)
      ∧ (∀ n h, reg = 2 ^ 26 + 2 * n + h → n < 2 ^ 25 → h < 2 →
          ∃ k, t = { s with knockKeys := tset s.knockKeys n k, svs := t.svs } ∧ keyWritten ((tget s.knockKeys n).getD 0) k h v)
      ∧ (∀ wid w, reg = 2 ^ 40 + wid → s.warp? wid = some w → w.stopped = true → w.wid = wid →
          t = { s.putWarp { w with csr := { w.csr with trhand := v } } with svs := t.svs }))
  ∧ (∀ s core mode reg v u, s.svUp core = true → s.svs[core]? = some u → mode ≠ 1 → mode ≠ 3 →
    ∃ t u', exec (.controlRegisterWrite (core, mode) reg v) s = .next t ∧ t = { s with svs := t.svs } ∧ onlySv s t core u'
      ∧ storeFaulted { u with mode := mode } u' reg)

/-! ## Steps, encodings and invariants -/

namespace Sys2Proof.Claims
open Sys2Proof.Machine

/-- The fields of a syllable that names no operand and no predicate, with GAP 0. -/
def plainFields : Fields := ⟨.none, .none, .none, .none, false, false, false, .none, 0, false, false, 0⟩

/-- A syllable of three words, the first at the lowest address (R102). -/
def syllable (w0 w1 w2 : Nat) : Nat := w0 + w1 * 2 ^ 32 + w2 * 2 ^ 64

end Sys2Proof.Claims

open Sys2Proof Sys2Proof.Machine Sys2Proof.Claims

/-- A step runs the instruction that the decoder reads; that one step is one syllable of a bundle is the model's choice (log 1, DESIGN CHOICE): at a bundle under way, the syllable at its head, after which the bundle goes on with its
next syllable or ends, unless the syllable has stopped it; no other part of the step acts on the state. -/
def Obligations.StepRunsTheDecodedSyllable : Prop :=
  ∀ s iss rest w i, s.issuing = iss :: rest → s.warp? iss.wid = some w →
    decodeRaw (Raw.ofWord (lineSyl iss.img iss.syl)) w.nreg (hasPair s w) [] (iss.syl == iss.last) = .ok i →
    ∃ t, exec i s = .next t ∧ step s = .next (if t.issuing.length = s.issuing.length then advanceIssue i t else t)

/-- Between bundles a step runs the next instruction of the clock cycle, or an input that is due and has no place in the order of a clock
cycle, or begins the next base clock cycle, in which TIMENS is the floor of the nanoseconds since reset (R428); no input and no event is lost,
those that are due are among its steps unless they wait for an earlier request of their source (R361) or for a clock that does not tick (R427),
and no byte of memory changes. The order of agenda, input and next cycle, and the grain of a step, are the model's choices (logs 1 and 2, DESIGN
CHOICE); that TIMENS is the number of base clock cycles × 4 / 5, rounded down, is deduced from R3 and R5 (log 9, DEDUCED). -/
def Obligations.StepRunsTheNextEvent : Prop :=
  (∀ s i rest, s.issuing = [] → s.agenda = i :: rest → step s = exec i { s with agenda := rest })
  ∧ (∀ s pre p post, s.issuing = [] → s.agenda = [] → s.inputs = pre ++ p :: post → p.due ≤ s.base → lineOrder s p.ev = 0 →
    (∀ q ∈ pre, q.due ≤ s.base → lineOrder s q.ev ≠ 0) → step s = exec p.ev { s with inputs := pre ++ post })
  ∧ (∀ s, s.issuing = [] → s.agenda = [] → (∀ q ∈ s.inputs, q.due ≤ s.base → lineOrder s q.ev ≠ 0) →
    ∃ t, step s = .next t ∧ t.base = s.base + 1 ∧ timens t = (s.base + 1) * 4 / 5 ∧ t.issuing = [] ∧ t.inputs.Sublist s.inputs
      ∧ (∀ p ∈ s.inputs, p ∈ t.inputs ∨ p.due ≤ s.base + 1 ∧ p.ev ∈ t.agenda)
      ∧ (∀ p ∈ s.pending, p ∈ t.pending ∨ p.due ≤ s.base + 1 ∧ p.ev ∈ t.agenda)
      ∧ (∀ p ∈ s.pending, p.due ≤ s.base + 1 → ingressOf p.ev = none → waitsForClock t p.ev = false → p.ev ∈ t.agenda)
      ∧ (∀ a, byteAt t a = byteAt s a))

/-- Every step of every state answers a next state: the spec gives every instruction of the table an effect. That a step of the device whose
condition does not hold changes nothing, and so answers in every state, is the model's choice (log 3, DESIGN CHOICE). -/
def Obligations.EveryStepAnswers : Prop := ∀ s, ∃ t, step s = .next t

/-- Words that the spec writes out decode to the instructions it says they are. -/
def Obligations.WordsOfTheSpecDecode : Prop :=
  decodeTableWord 96 (syllable 0x00000000 0xFFFFC7FE 0x003FFFFF) = some (.nopV 0)
  ∧ decodeTableWord 96 (syllable 0x00430000 0x0C051030 0x10C08010)
    = some (.ffma { plainFields with d := .reg 8, a := .reg 4, b := .reg 12, c := .reg 20, lub := true, p := .reg 24, gap := 1 }
        ⟨.ru, false, false⟩ false false)
  ∧ decodeTableWord 96 (syllable 0x084808E0 0x06FFD050 0x0340C014)
    = some (.icmp { plainFields with d := .reg 12, a := .reg 5, b := .reg 6, lub := true, p := .reg 40, pn := true, gap := 1 } .lt .or false 7)
  ∧ decodeTableWord 96 (syllable 0x00100000 0xFFFFE7FE 0x20C14023)
    = some (.red { plainFields with d := .reg 20, a := .reg 8, lua := true } .add .f32)
  ∧ decodeTableWord 96 (syllable 0x00030100 0x030087FE 0x40408050)
    = some (.ld { plainFields with d := .reg 8, a := .reg 20, b := .reg 3 } .b64 false false 2 0x0100)
  ∧ decodeTableWord 96 (syllable 0x00020003 0x28FFC7FE 0x80BFFFFC) = some (.cpytIn { plainFields with b := .reg 40 } true false 3)
  ∧ decodeTableWord 96 (syllable 0x000A10A5 0x481407FE 0x893FF100)
    = some (.mma { plainFields with a := .reg 64, b := .reg 72, c := .reg 80 } .e4m3 2 1 8 5)
  ∧ decodeTableWord 96 (syllable 0x00030010 0xFF00C7FE 0x42C08053)
    = some (.rld { plainFields with d := .reg 8, a := .reg 20 } .b64 false false 3 0x0010)
  ∧ decodeTableWord 96 (syllable 0x5800001A 0xFFFFC018 0xC07FFFFF)
    = some (.bra { plainFields with p := .reg 12, pb := 5, pn := true } ⟨3, 2⟩)
  ∧ decodeTableWord 96 (syllable 0x00010012 0xFFFFC7FE 0xC600CFFF) = some (.csrr { plainFields with d := .reg 12 } true .trlanes)

/-- R102, R110 to R126: the word that encodes a well-formed syllable decodes to it, with every operand and modifier at every value the encoding
admits, and a word that decodes is the encoding of what it decodes to. -/
def Obligations.DecodeInvertsEncode : Prop :=
  (∀ i w, i.wf = true → encode i = some w → w < 2 ^ 96 ∧ decodeTableWord 96 w = some i)
  ∧ (∀ i w, w < 2 ^ 96 → decodeTableWord 96 w = some i → i.wf = true ∧ encode i = some w)

/-- The memories stay in canonical form: HBM, the cellar and every team's scratchpad list their bytes in rising order, and no byte that reads as an
unlisted one (log 6, 7). -/
def Obligations.MemoriesStayCanonical : Prop :=
  ∀ s t, Memory.wf s = true ∧ Scratch.wf s = true → step s = .next t → Memory.wf t = true ∧ Scratch.wf t = true

/-- Warps, teams and launches stay under their own numbers. -/
def Obligations.NumbersStayKeyed : Prop := ∀ s t, Keyed s → step s = .next t → Keyed t

/-- The state after reset meets the invariants. -/
def Obligations.ResetMeetsInvariants : Prop :=
  Memory.wf State.reset = true ∧ Scratch.wf State.reset = true ∧ Keyed State.reset

/-- R63, R77, R100, R426, R428, R442, R443: after reset TIMENS and every EPOCH and counter are 0, the supervisor cores are in reset, every context is
disabled, no window is valid, two spares are left on each die, and nothing runs. -/
def Obligations.ResetState : Prop :=
  timens State.reset = 0 ∧ (∀ c ∈ State.reset.clusters, c.epoch = 0) ∧ State.reset.clusters.length = 24 ∧ State.reset.cores.length = 192
  ∧ (∀ v ∈ State.reset.svs, v.inReset = true) ∧ State.reset.svs.length = 8 ∧ (∀ ctx, (State.reset.ctx ctx).enabled = false)
  ∧ (∀ key, winValid (winAt State.reset key) = false) ∧ State.reset.spares = [2, 2] ∧ State.reset.accounts = [] ∧ State.reset.devAcct.counters = []
  ∧ (∀ c ∈ State.reset.cores, ∀ n ∈ c.stalls, n = 0) ∧ State.reset.warps = [] ∧ State.reset.teams = [] ∧ State.reset.launches = []
  ∧ State.reset.queues = []

/-- R154, R160, R162, R285: a syllable of a bundle writes no register, no byte of memory, scratchpad or cellar when it issues: its results land, its
scratchpad accesses are performed and its hooked work finishes in later steps. -/
def Obligations.IssueWritesNoRegister : Prop :=
  ∀ i s t, i.enc.isSome = true → Keyed s → exec i s = .next t →
    (∀ k w, s.warp? k = some w → ∃ w', t.warp? k = some w' ∧ w'.regs = w.regs)
    ∧ (∀ a, byteAt t a = byteAt s a) ∧ t.cellar = s.cellar ∧ ∀ tid a, scratchByte t tid a = scratchByte s tid a
end

