-- ==== Sys2Proof/Laws/Encoding.lean ====
section
/-! SUPPORT. Lemmas about packed fields, codes of modifiers, and the fields of an encoded syllable. -/

namespace Sys2Proof

/-- The lowest field of packed bits. -/
theorem bits_packed_low (v w r : Nat) : bits (v % 2^w + 2^w * r) 0 w = v % 2^w := by
  unfold bits; simp

/-- A field above the lowest one of packed bits. -/
theorem bits_packed_high (v w r lo k : Nat) : bits (v % 2^w + 2^w * r) (w + lo) k = bits r lo k := by
  unfold bits
  rw [pow_add, ← Nat.div_div_eq_div_mul]
  congr 2
  rw [Nat.add_mul_div_left _ _ (by positivity), Nat.div_eq_of_lt (Nat.mod_lt _ (by positivity))]; simp

/-- A bit is a field of width 1. -/
theorem testBit_eq_bits (n i : Nat) : n.testBit i = (bits n i 1 == 1) := by
  unfold bits; rw [Nat.testBit_eq_decide_div_mod_eq]; simp; rfl

/-- A field above the lowest one, by its own position. -/
theorem bits_packed_above (v w r j k : Nat) (h : w ≤ j) : bits (v % 2^w + 2^w * r) j k = bits r (j - w) k := by
  have := bits_packed_high v w r (j-w) k
  rwa [Nat.add_sub_cancel' h] at this

/-- The fields of a packed syllable are those packed, cut to their widths (R110). -/
theorem raw_of_packed (x md g u pn pb p lc lb la c b a d op sl : Nat) :
   Raw.ofWord (packBits [(x,16),(md,6),(g,4),(u,1),(pn,1),(pb,5),(p,10),(lc,1),(lb,1),(la,1),(c,10),(b,10),(a,10),(d,10),(op,8),(sl,2)]) =
   { x := x % 2^16, mod := md % 2^6, gap := g % 2^4, u := u % 2 == 1, pn := pn % 2 == 1, pb := pb % 2^5, p := p % 2^10, luc := lc % 2 == 1, lub := lb % 2 == 1, lua := la % 2 == 1, c := c % 2^10, b := b % 2^10, a := a % 2^10, d := d % 2^10, op := op % 2^8, slot := sl % 2^2,
     irsv := (Raw.ofWord (packBits [(x,16),(md,6),(g,4),(u,1),(pn,1),(pb,5),(p,10),(lc,1),(lb,1),(la,1),(c,10),(b,10),(a,10),(d,10),(op,8),(sl,2)])).irsv
     ilua := (Raw.ofWord (packBits [(x,16),(md,6),(g,4),(u,1),(pn,1),(pb,5),(p,10),(lc,1),(lb,1),(la,1),(c,10),(b,10),(a,10),(d,10),(op,8),(sl,2)])).ilua
     imm := (Raw.ofWord (packBits [(x,16),(md,6),(g,4),(u,1),(pn,1),(pb,5),(p,10),(lc,1),(lb,1),(la,1),(c,10),(b,10),(a,10),(d,10),(op,8),(sl,2)])).imm } := by
  simp only [Raw.ofWord, packBits, testBit_eq_bits]
  simp only [Raw.mk.injEq]
  refine ⟨?_,?_,?_,?_,?_,?_,?_,?_,?_,?_,?_,?_,?_,?_,?_,?_,trivial,trivial,trivial⟩ <;>
   (repeat (first | rw [bits_packed_low] | rw [bits_packed_above _ _ _ _ _ (by norm_num)]; dsimp only [Nat.reduceSub])) <;> try norm_num

/-- An operand is the one its number names (R116). -/
theorem opndOf_num (o : Opnd) (h : o.ok = true) : opndOf o.num = o := by
  cases o with
  | reg n => simp [Opnd.ok] at h; simp [opndOf, Opnd.num, Opnd.ofNum, h]
  | ln n => simp [Opnd.ok] at h; interval_cases n <;> rfl
  | hq n => simp [Opnd.ok] at h; interval_cases n <;> rfl
  | sys v => cases v <;> rfl
  | kon c => cases c <;> rfl
  | none => rfl

/-- An operand number has 10 bits (R116). -/
theorem num_lt (o : Opnd) (h : o.ok = true) : o.num < 1024 := by
  cases o with
  | reg n => simp [Opnd.ok] at h; simp [Opnd.num]; omega
  | ln n => simp [Opnd.ok] at h; simp [Opnd.num]; omega
  | hq n => simp [Opnd.ok] at h; simp [Opnd.num]; omega
  | sys v => cases v <;> decide
  | kon c => cases c <;> decide
  | none => decide


/-- The fields of an encoding fit their widths (R110). -/
def EncRange (e : Enc) (f : Fields) : Prop := e.slot < 4 ∧ e.op < 256 ∧ e.mod < 64 ∧ e.x < 65536 ∧ e.hc.getD f.c.num < 1024

/-- The fields of a syllable as its encoding lays them out. -/
def rawOf (e : Enc) (f : Fields) (irsv : Nat) (ilua : Bool) (imm : Nat) : Raw :=
  { slot := e.slot, op := e.op, d := f.d.num, a := f.a.num, b := f.b.num, c := e.hc.getD f.c.num, lua := f.lua, lub := f.lub, luc := f.luc, p := f.p.num, pb := f.pb, pn := f.pn, u := f.u, gap := f.gap, mod := e.mod, x := e.x, imm := imm, ilua := ilua, irsv := irsv }

/-- The fields of an encoded syllable, but for those that only the form of R111 reads. -/
theorem raw_of_encoding (e : Enc) (f : Fields) (hr : EncRange e f) (hd : f.d.ok) (ha : f.a.ok) (hb : f.b.ok) (hp : f.p.ok) (hpb : f.pb < 32) (hg : f.gap < 16) :
  ∃ x y z, Raw.ofWord (packBits [(e.x, 16), (e.mod, 6), (f.gap, 4), (f.u.toNat, 1), (f.pn.toNat, 1), (f.pb, 5), (f.p.num, 10),
      (f.luc.toNat, 1), (f.lub.toNat, 1), (f.lua.toNat, 1), (e.hc.getD f.c.num, 10), (f.b.num, 10), (f.a.num, 10),
      (f.d.num, 10), (e.op, 8), (e.slot, 2)]) = rawOf e f x y z := by
  obtain ⟨h1,h2,h3,h4,h5⟩ := hr
  have := num_lt _ hd; have := num_lt _ ha; have := num_lt _ hb; have := num_lt _ hp
  have h := raw_of_packed e.x e.mod f.gap f.u.toNat f.pn.toNat f.pb f.p.num f.luc.toNat f.lub.toNat f.lua.toNat (e.hc.getD f.c.num) f.b.num f.a.num f.d.num e.op e.slot
  generalize Raw.ofWord (packBits _) = R at h ⊢
  refine ⟨R.irsv, R.ilua, R.imm, h.trans ?_⟩
  unfold rawOf
  congr 1
  all_goals first | (apply Nat.mod_eq_of_lt; omega) | (cases f.u <;> rfl) | (cases f.pn <;> rfl) | (cases f.lua <;> rfl)| (cases f.lub <;> rfl)| (cases f.luc <;> rfl)


/-- A well-formed syllable raises no fault of R133 in a warp that has every register and a hatch pair. -/
theorem wf_no_faults (i : Instr) (sh : Shape) (e : Enc) (f : Fields) (irsv : Nat) (ilua : Bool) (imm : Nat)
   (hsh : i.shape = some sh) (he : i.enc = some e) (hf : i.fields = some f)
   (hwf : i.wf = true) (hop : ¬ (e.slot = 0 ∧ e.op = 0x1B)) (hhc : e.hc.isSome = (sh.c == .hc)) :
   (rawOf e f irsv ilua imm).faults i 768 true [] true = [] := by
  unfold Raw.faults
  rw [hsh, he]
  simp only [Instr.wf, hsh, hf, Fields.fits, Bool.and_eq_true, Option.isNone_iff_eq_none, Fields.popsTwice] at hwf
  obtain ⟨⟨⟨⟨⟨⟨⟨⟨⟨⟨⟨⟨⟨⟨⟨⟨⟨⟨⟨⟨⟨hd,ha⟩,hb⟩,hc⟩,hp⟩,hdb⟩,hab⟩,hbb⟩,hcb⟩,hla⟩,hlb⟩,hlc⟩,hpo⟩,hsp⟩,hpp⟩,hu⟩,hg⟩,hh⟩,h2⟩,hmod⟩,hx⟩,hlu⟩ := hwf
  have num_none : ∀ o : Opnd, o.ok = true → o.num = 1023 → o = .none := fun o ho h => by
    have := opndOf_num o ho; rw [h] at this; rw [← this]; rfl
  have lu : ∀ (b : Bool) (o : Opnd), o.ok = true → luOk b o = true → b = true → o.num < 768 := by
    intro b o ho h hb; subst hb; cases o <;> simp_all [luOk, Opnd.num, Opnd.ok]
  have hI : ((rawOf e f irsv ilua imm).slot == 0 && (rawOf e f irsv ilua imm).op == 27) = false := by
    simp only [rawOf]; by_contra hc'; simp at hc'; exact hop hc'
  have hD : ∀ b n u, b = Option.none → (u = true → isHatchNum n = false) → ∀ fl, opndFault b true u n fl = [] := by
    intro b n u hb hu' fl; subst hb; simp only [opndFault, hatchBad]; cases u <;> simp_all
  have hhu : ∀ n, (n = f.d.num ∨ n = f.a.num ∨ n = f.b.num ∨ n = f.c.num) → f.u = true → isHatchNum n = false := by
    intro n hn hu'; rw [hu'] at hh; simp at hh; rcases hn with h|h|h|h <;> rw [h] <;> simp_all
  have q1 := hD _ f.d.num f.u hdb (hhu _ (by simp)) 1
  have q2 := hD _ f.a.num f.u hab (hhu _ (by simp)) 2
  have q3 := hD _ f.b.num f.u hbb (hhu _ (by simp)) 3
  have hlA := lu f.lua f.a ha hla
  have hlB := lu f.lub f.b hb hlb
  have hlC := lu f.luc f.c hc hlc
  have pnum : ∀ o o' : Opnd, o.ok = true → o'.ok = true → o.num = o'.num → o = o' := fun o o' h h' hn => by
    rw [← opndOf_num o h, ← opndOf_num o' h', hn]
  have hI' : (e.slot == 0 && e.op == 27) = false := hI
  have hu2 : (sh.uni || !f.u) = true := hu
  have hP : (if f.p.num = 1023 then need (f.pb == 0) 7 ++ need (!f.pn) 8
            else if sh.pred then (if predOk 768 f.p.num then [] else [(3, 6)]) else [(2, 6)]) = ([] : List FieldFault) := by
    by_cases h : f.p.num = 1023
    · have := num_none _ hp h; rw [this] at hpp; simp at hpp; simp [h, hpp, need]
    · have : f.p ≠ .none := fun h' => h (by rw [h']; rfl)
      simp [this] at hsp; simp [h, hsp, hpo]
  have n1 : isHatchNum f.a.num = true → f.a ≠ f.b ∧ f.a ≠ f.c := by
    intro h; rw [h] at h2; simp at h2; exact ⟨h2.1.1, h2.1.2⟩
  have n2 : isHatchNum f.b.num = true → f.b ≠ f.c := by
    intro h; rw [h] at h2; simp at h2; exact h2.2
  have hpop1 : popFault [] f.a.num 2 = [] := by simp [popFault]
  have hpop2 : popFault [f.a.num] f.b.num 3 = [] := by
    simp only [popFault]; split
    · rename_i hx'; simp at hx'; have e1 := pnum _ _ hb ha hx'.2; rw [e1] at hx'; exact absurd e1.symm (n1 hx'.1).1
    · rfl
  have hpop3 : popFault ([f.a.num] ++ [f.b.num]) f.c.num 4 = [] := by
    simp only [popFault]; split
    · rename_i hx'; simp at hx'
      rcases hx'.2 with h|h
      · have e1 := pnum _ _ hc ha h; rw [e1] at hx'; exact absurd e1.symm (n1 hx'.1).2
      · have e1 := pnum _ _ hc hb h; rw [e1] at hx'; exact absurd e1.symm (n2 hx'.1)
    · rfl
  have hlu1 : (!f.lua || decide (f.a.num < 768)) = true := by cases hz : f.lua <;> simp [hlA, hz]
  have hlu2 : (!f.lub || decide (f.b.num < 768)) = true := by cases hz : f.lub <;> simp [hlB, hz]
  have hlu3 : (!f.luc || decide (f.c.num < 768)) = true := by cases hz : f.luc <;> simp [hlC, hz]
  clear hlA hlB hlC n1 n2 pnum h2 hpp hsp hpo lu hdb hab hbb num_none
  unfold rawOf
  simp only [Raw.isMovi, hI', Bool.false_eq_true, if_false]
  rw [hP, q1, q2, q3, hpop1, List.nil_append, hpop2]
  by_cases hs : sh.c = .hc
  · have hcn : f.c = .none := by simpa [hs] using hcb
    have : f.luc = false := by
      by_contra h; simp at h; rw [h, hcn] at hlu3; simp [Opnd.num] at hlu3
    have : e.hc = some (e.hc.getD f.c.num) := by
      rw [hs] at hhc; simp at hhc; obtain ⟨v, hv⟩ := Option.isSome_iff_exists.mp hhc; rw [hv]; rfl
    have h7 : (sh.c == SK.hc) = true := by simpa using hs
    rw [← this]
    simp only [h7, hlu1, hlu2, need, Bool.false_and, hmod, hx, hlu, hu2, beq_self_eq_true, Bool.true_or, Bool.and_true, if_true, ‹f.luc = false›, Bool.not_false, List.append_nil, List.nil_append]
  · have hcn : e.hc = none := by
      have : (sh.c == SK.hc) = false := by simpa using hs
      rw [this] at hhc; simpa using hhc
    have q4 := hD (sh.c.bad 768 f.c.num) f.c.num f.u (by simpa [hs] using hcb) (hhu _ (by simp)) 4
    have : (sh.c == SK.hc) = false := by simpa using hs
    simp only [hcn, Option.getD_none, this, q4, List.nil_append]
    simp only [hlu1, hlu2, hlu3, need, Bool.false_and, hmod, hx, hlu, hu2, beq_self_eq_true, Bool.true_or, Bool.and_true, if_true, Bool.not_false, List.append_nil, List.nil_append, Bool.false_eq_true, if_false]
    exact hpop3


/-- A syllable whose fields build it back is decoded from its encoding. -/
theorem decode_of_build (i : Instr) (sh : Shape) (e : Enc) (f : Fields)
   (hsh : i.shape = some sh) (he : i.enc = some e) (hf : i.fields = some f)
   (hwf : i.wf = true) (hop : ¬ (e.slot = 0 ∧ e.op = 0x1B)) (hhc : e.hc.isSome = (sh.c == .hc))
   (hr : EncRange e f) (hb : ∀ x y z, (rawOf e f x y z).build = some i)
   (henc : encode i = some (packBits [(e.x, 16), (e.mod, 6), (f.gap, 4), (f.u.toNat, 1), (f.pn.toNat, 1), (f.pb, 5), (f.p.num, 10),
      (f.luc.toNat, 1), (f.lub.toNat, 1), (f.lua.toNat, 1), (e.hc.getD f.c.num, 10), (f.b.num, 10), (f.a.num, 10),
      (f.d.num, 10), (e.op, 8), (e.slot, 2)])) :
   (encode i).bind decode = some i := by
  have hh := hwf
  simp only [Instr.wf, hsh, hf, Fields.fits, Bool.and_eq_true] at hh
  obtain ⟨⟨⟨⟨⟨⟨⟨⟨⟨⟨⟨⟨⟨⟨⟨⟨⟨⟨⟨⟨⟨hd,ha⟩,hb'⟩,hc⟩,hp⟩,hdb⟩,hab⟩,hbb⟩,hcb⟩,hla⟩,hlb⟩,hlc⟩,hpo⟩,hsp⟩,hpp⟩,hu⟩,hg⟩,_⟩,h2⟩,hmod⟩,hx⟩,hlu⟩ := hh
  have hpb : f.pb < 32 := by
    by_cases h : f.p = .none <;> simp [h] at hpp <;> omega
  obtain ⟨x, y, z, h⟩ := raw_of_encoding e f hr hd ha hb' hp hpb (by simpa using hg)
  rw [henc]
  simp only [Option.bind_some, decode, h, decodeRaw, hb, wf_no_faults i sh e f x y z hsh he hf hwf hop hhc, firstFault]

/-- The common fields of an encoded syllable. -/
theorem rawOf_fields (e : Enc) (f : Fields) (x y z) (hd : f.d.ok) (ha : f.a.ok) (hb : f.b.ok) (hc : f.c.ok) (hp : f.p.ok) (h : e.hc = none):
   (rawOf e f x y z).fields = f := by
  simp [rawOf, Raw.fields, h, opndOf_num, hd, ha, hb, hc, hp]

/-- A direct target is the one its X field gives (R167). -/
theorem Target.code_round_trip (t : Target) : Target.ofCode t.code = t ∧ t.code < 65536 := by
  obtain ⟨l, sx⟩ := t
  have := l.isLt; have := sx.isLt
  refine ⟨?_, by simp only [Target.code]; omega⟩
  simp only [Target.ofCode, Target.code, bits, Target.mk.injEq]
  constructor <;> (apply BitVec.eq_of_toNat_eq; simp [BitVec.toNat_ofNat]; try omega)

/-! ## Codes of modifiers -/

theorem Rnd.code_lt (x : Rnd) : x.code < 4 := by cases x <;> decide

@[simp] theorem Rnd.ofCode_code (x : Rnd) : Rnd.ofCode x.code = x := by cases x <;> rfl

theorem ICc.code_lt (x : ICc) : x.code < 6 := by cases x <;> decide

@[simp] theorem ICc.ofCode_code (x : ICc) : ICc.ofCode x.code = x := by cases x <;> rfl

theorem FCc.code_lt (x : FCc) : x.code < 12 := by cases x <;> decide

@[simp] theorem FCc.ofCode_code (x : FCc) : FCc.ofCode x.code = x := by cases x <;> rfl

theorem Cmb.code_lt (x : Cmb) : x.code < 3 := by cases x <;> decide

@[simp] theorem Cmb.ofCode_code (x : Cmb) : Cmb.ofCode x.code = x := by cases x <;> rfl

theorem EType.code_lt (x : EType) : x.code < 15 := by cases x <;> decide

@[simp] theorem EType.ofCode_code (x : EType) : EType.ofCode x.code = x := by cases x <;> rfl

theorem NbrFill.code_lt (x : NbrFill) : x.code < 3 := by cases x <;> decide

@[simp] theorem NbrFill.ofCode_code (x : NbrFill) : NbrFill.ofCode x.code = x := by cases x <;> rfl

theorem RedOp.code_lt (x : RedOp) : x.code < 7 := by cases x <;> decide

@[simp] theorem RedOp.ofCode_code (x : RedOp) : RedOp.ofCode x.code = x := by cases x <;> rfl

theorem RedTy.code_lt (x : RedTy) : x.code < 4 := by cases x <;> decide

@[simp] theorem RedTy.ofCode_code (x : RedTy) : RedTy.ofCode x.code = x := by cases x <;> rfl

theorem Sz.code_lt (x : Sz) : x.code < 5 := by cases x <;> decide

@[simp] theorem Sz.ofCode_code (x : Sz) : Sz.ofCode x.code = x := by cases x <;> rfl

theorem Ca.code_lt (x : Ca) : x.code < 3 := by cases x <;> decide

@[simp] theorem Ca.ofCode_code (x : Ca) : Ca.ofCode x.code = x := by cases x <;> rfl

theorem AOp.code_lt (x : AOp) : x.code < 8 := by cases x <;> decide

@[simp] theorem AOp.ofCode_code (x : AOp) : AOp.ofCode x.code = x := by cases x <;> rfl

theorem ATy.code_lt (x : ATy) : x.code < 6 := by cases x <;> decide

@[simp] theorem ATy.ofCode_code (x : ATy) : ATy.ofCode x.code = x := by cases x <;> rfl

theorem CpysRed.code_lt (x : CpysRed) : x.code < 3 := by cases x <;> decide

@[simp] theorem CpysRed.ofCode_code (x : CpysRed) : CpysRed.ofCode x.code = x := by cases x <;> rfl

theorem UnpW.code_lt (x : UnpW) : x.code < 3 := by cases x <;> decide

@[simp] theorem UnpW.ofCode_code (x : UnpW) : UnpW.ofCode x.code = x := by cases x <;> rfl

theorem DrFmt.code_lt (x : DrFmt) : x.code < 5 := by cases x <;> decide

@[simp] theorem DrFmt.ofCode_code (x : DrFmt) : DrFmt.ofCode x.code = x := by cases x <;> rfl

theorem Fr.code_lt (x : Fr) : x.code < 16 := by
  obtain ⟨r, s, z⟩ := x; cases r <;> cases s <;> cases z <;> decide

@[simp] theorem Fr.ofCode_code (x : Fr) : Fr.ofCode x.code = x := by
  obtain ⟨r, s, z⟩ := x; cases r <;> cases s <;> cases z <;> rfl

theorem Csr.num_lt (x : Csr) : x.num < 4096 := by cases x <;> decide

@[simp] theorem Csr.ofNum_num (x : Csr) : Csr.ofNum x.num = x := by cases x <;> rfl

theorem Target.code_lt (t : Target) : t.code < 65536 := (Target.code_round_trip t).2

@[simp] theorem Target.ofCode_code (t : Target) : Target.ofCode t.code = t := (Target.code_round_trip t).1

end Sys2Proof
end

