-- ==== Sys2Proof/Laws/State.lean ====
section
/-! SUPPORT. The fields of the state after each named update of it: one lemma per field, true by rfl. -/

namespace Sys2Proof.Machine

/-! ### putWarp -/

@[simp] theorem State.putWarp_base (s : State) (w : Warp) : (s.putWarp w).base = s.base := rfl
@[simp] theorem State.putWarp_clusters (s : State) (w : Warp) : (s.putWarp w).clusters = s.clusters := rfl
@[simp] theorem State.putWarp_booted (s : State) (w : Warp) : (s.putWarp w).booted = s.booted := rfl
@[simp] theorem State.putWarp_bootFailed (s : State) (w : Warp) : (s.putWarp w).bootFailed = s.bootFailed := rfl
@[simp] theorem State.putWarp_bootStatus (s : State) (w : Warp) : (s.putWarp w).bootStatus = s.bootStatus := rfl
@[simp] theorem State.putWarp_parkedDev (s : State) (w : Warp) : (s.putWarp w).parkedDev = s.parkedDev := rfl
@[simp] theorem State.putWarp_flash (s : State) (w : Warp) : (s.putWarp w).flash = s.flash := rfl
@[simp] theorem State.putWarp_devid (s : State) (w : Warp) : (s.putWarp w).devid = s.devid := rfl
@[simp] theorem State.putWarp_podsize (s : State) (w : Warp) : (s.putWarp w).podsize = s.podsize := rfl
@[simp] theorem State.putWarp_hbtoNs (s : State) (w : Warp) : (s.putWarp w).hbtoNs = s.hbtoNs := rfl
@[simp] theorem State.putWarp_iver (s : State) (w : Warp) : (s.putWarp w).iver = s.iver := rfl
@[simp] theorem State.putWarp_laneMap (s : State) (w : Warp) : (s.putWarp w).laneMap = s.laneMap := rfl
@[simp] theorem State.putWarp_svs (s : State) (w : Warp) : (s.putWarp w).svs = s.svs := rfl
@[simp] theorem State.putWarp_mailboxes (s : State) (w : Warp) : (s.putWarp w).mailboxes = s.mailboxes := rfl
@[simp] theorem State.putWarp_busy (s : State) (w : Warp) : (s.putWarp w).busy = s.busy := rfl
@[simp] theorem State.putWarp_events (s : State) (w : Warp) : (s.putWarp w).events = s.events := rfl
@[simp] theorem State.putWarp_devRegs (s : State) (w : Warp) : (s.putWarp w).devRegs = s.devRegs := rfl
@[simp] theorem State.putWarp_queues (s : State) (w : Warp) : (s.putWarp w).queues = s.queues := rfl
@[simp] theorem State.putWarp_queueKeys (s : State) (w : Warp) : (s.putWarp w).queueKeys = s.queueKeys := rfl
@[simp] theorem State.putWarp_knockKeys (s : State) (w : Warp) : (s.putWarp w).knockKeys = s.knockKeys := rfl
@[simp] theorem State.putWarp_cqKeys (s : State) (w : Warp) : (s.putWarp w).cqKeys = s.cqKeys := rfl
@[simp] theorem State.putWarp_wqUnits (s : State) (w : Warp) : (s.putWarp w).wqUnits = s.wqUnits := rfl
@[simp] theorem State.putWarp_contexts (s : State) (w : Warp) : (s.putWarp w).contexts = s.contexts := rfl
@[simp] theorem State.putWarp_launches (s : State) (w : Warp) : (s.putWarp w).launches = s.launches := rfl
@[simp] theorem State.putWarp_teams (s : State) (w : Warp) : (s.putWarp w).teams = s.teams := rfl
@[simp] theorem State.putWarp_warps (s : State) (w : Warp) : (s.putWarp w).warps = tset s.warps w.wid w := rfl
@[simp] theorem State.putWarp_issuing (s : State) (w : Warp) : (s.putWarp w).issuing = s.issuing := rfl
@[simp] theorem State.putWarp_ops (s : State) (w : Warp) : (s.putWarp w).ops = s.ops := rfl
@[simp] theorem State.putWarp_cores (s : State) (w : Warp) : (s.putWarp w).cores = s.cores := rfl
@[simp] theorem State.putWarp_spares (s : State) (w : Warp) : (s.putWarp w).spares = s.spares := rfl
@[simp] theorem State.putWarp_preempts (s : State) (w : Warp) : (s.putWarp w).preempts = s.preempts := rfl
@[simp] theorem State.putWarp_hbm (s : State) (w : Warp) : (s.putWarp w).hbm = s.hbm := rfl
@[simp] theorem State.putWarp_l2 (s : State) (w : Warp) : (s.putWarp w).l2 = s.l2 := rfl
@[simp] theorem State.putWarp_undefined (s : State) (w : Warp) : (s.putWarp w).undefined = s.undefined := rfl
@[simp] theorem State.putWarp_poison (s : State) (w : Warp) : (s.putWarp w).poison = s.poison := rfl
@[simp] theorem State.putWarp_dieE (s : State) (w : Warp) : (s.putWarp w).dieE = s.dieE := rfl
@[simp] theorem State.putWarp_keySlots (s : State) (w : Warp) : (s.putWarp w).keySlots = s.keySlots := rfl
@[simp] theorem State.putWarp_cellar (s : State) (w : Warp) : (s.putWarp w).cellar = s.cellar := rfl
@[simp] theorem State.putWarp_cellarPoison (s : State) (w : Warp) : (s.putWarp w).cellarPoison = s.cellarPoison := rfl
@[simp] theorem State.putWarp_cellarWins (s : State) (w : Warp) : (s.putWarp w).cellarWins = s.cellarWins := rfl
@[simp] theorem State.putWarp_cellarReqs (s : State) (w : Warp) : (s.putWarp w).cellarReqs = s.cellarReqs := rfl
@[simp] theorem State.putWarp_dieTlb (s : State) (w : Warp) : (s.putWarp w).dieTlb = s.dieTlb := rfl
@[simp] theorem State.putWarp_walks (s : State) (w : Warp) : (s.putWarp w).walks = s.walks := rfl
@[simp] theorem State.putWarp_deferReqs (s : State) (w : Warp) : (s.putWarp w).deferReqs = s.deferReqs := rfl
@[simp] theorem State.putWarp_windows (s : State) (w : Warp) : (s.putWarp w).windows = s.windows := rfl
@[simp] theorem State.putWarp_peerTable (s : State) (w : Warp) : (s.putWarp w).peerTable = s.peerTable := rfl
@[simp] theorem State.putWarp_routes (s : State) (w : Warp) : (s.putWarp w).routes = s.routes := rfl
@[simp] theorem State.putWarp_peersLost (s : State) (w : Warp) : (s.putWarp w).peersLost = s.peersLost := rfl
@[simp] theorem State.putWarp_oldPath (s : State) (w : Warp) : (s.putWarp w).oldPath = s.oldPath := rfl
@[simp] theorem State.putWarp_heldOut (s : State) (w : Warp) : (s.putWarp w).heldOut = s.heldOut := rfl
@[simp] theorem State.putWarp_linkErrors (s : State) (w : Warp) : (s.putWarp w).linkErrors = s.linkErrors := rfl
@[simp] theorem State.putWarp_uetDrops (s : State) (w : Warp) : (s.putWarp w).uetDrops = s.uetDrops := rfl
@[simp] theorem State.putWarp_discards (s : State) (w : Warp) : (s.putWarp w).discards = s.discards := rfl
@[simp] theorem State.putWarp_rejections (s : State) (w : Warp) : (s.putWarp w).rejections = s.rejections := rfl
@[simp] theorem State.putWarp_lockouts (s : State) (w : Warp) : (s.putWarp w).lockouts = s.lockouts := rfl
@[simp] theorem State.putWarp_outbox (s : State) (w : Warp) : (s.putWarp w).outbox = s.outbox := rfl
@[simp] theorem State.putWarp_ingressQ (s : State) (w : Warp) : (s.putWarp w).ingressQ = s.ingressQ := rfl
@[simp] theorem State.putWarp_msgs (s : State) (w : Warp) : (s.putWarp w).msgs = s.msgs := rfl
@[simp] theorem State.putWarp_refusals (s : State) (w : Warp) : (s.putWarp w).refusals = s.refusals := rfl
@[simp] theorem State.putWarp_tokens (s : State) (w : Warp) : (s.putWarp w).tokens = s.tokens := rfl
@[simp] theorem State.putWarp_turn (s : State) (w : Warp) : (s.putWarp w).turn = s.turn := rfl
@[simp] theorem State.putWarp_ingressRes (s : State) (w : Warp) : (s.putWarp w).ingressRes = s.ingressRes := rfl
@[simp] theorem State.putWarp_accounts (s : State) (w : Warp) : (s.putWarp w).accounts = s.accounts := rfl
@[simp] theorem State.putWarp_devAcct (s : State) (w : Warp) : (s.putWarp w).devAcct = s.devAcct := rfl
@[simp] theorem State.putWarp_snapshots (s : State) (w : Warp) : (s.putWarp w).snapshots = s.snapshots := rfl
@[simp] theorem State.putWarp_reassigned (s : State) (w : Warp) : (s.putWarp w).reassigned = s.reassigned := rfl
@[simp] theorem State.putWarp_plans (s : State) (w : Warp) : (s.putWarp w).plans = s.plans := rfl
@[simp] theorem State.putWarp_plansInForce (s : State) (w : Warp) : (s.putWarp w).plansInForce = s.plansInForce := rfl
@[simp] theorem State.putWarp_slopeUp (s : State) (w : Warp) : (s.putWarp w).slopeUp = s.slopeUp := rfl
@[simp] theorem State.putWarp_slopeDown (s : State) (w : Warp) : (s.putWarp w).slopeDown = s.slopeDown := rfl
@[simp] theorem State.putWarp_agenda (s : State) (w : Warp) : (s.putWarp w).agenda = s.agenda := rfl
@[simp] theorem State.putWarp_pending (s : State) (w : Warp) : (s.putWarp w).pending = s.pending := rfl
@[simp] theorem State.putWarp_inputs (s : State) (w : Warp) : (s.putWarp w).inputs = s.inputs := rfl
@[simp] theorem State.putWarp_fresh (s : State) (w : Warp) : (s.putWarp w).fresh = s.fresh := rfl
@[simp] theorem State.putWarp_nextId (s : State) (w : Warp) : (s.putWarp w).nextId = s.nextId := rfl
@[simp] theorem State.putWarp_cycleId (s : State) (w : Warp) : (s.putWarp w).cycleId = s.cycleId := rfl
@[simp] theorem State.putWarp_fills (s : State) (w : Warp) : (s.putWarp w).fills = s.fills := rfl

/-! ### putTeam -/

@[simp] theorem State.putTeam_base (s : State) (t : Team) : (s.putTeam t).base = s.base := rfl
@[simp] theorem State.putTeam_clusters (s : State) (t : Team) : (s.putTeam t).clusters = s.clusters := rfl
@[simp] theorem State.putTeam_booted (s : State) (t : Team) : (s.putTeam t).booted = s.booted := rfl
@[simp] theorem State.putTeam_bootFailed (s : State) (t : Team) : (s.putTeam t).bootFailed = s.bootFailed := rfl
@[simp] theorem State.putTeam_bootStatus (s : State) (t : Team) : (s.putTeam t).bootStatus = s.bootStatus := rfl
@[simp] theorem State.putTeam_parkedDev (s : State) (t : Team) : (s.putTeam t).parkedDev = s.parkedDev := rfl
@[simp] theorem State.putTeam_flash (s : State) (t : Team) : (s.putTeam t).flash = s.flash := rfl
@[simp] theorem State.putTeam_devid (s : State) (t : Team) : (s.putTeam t).devid = s.devid := rfl
@[simp] theorem State.putTeam_podsize (s : State) (t : Team) : (s.putTeam t).podsize = s.podsize := rfl
@[simp] theorem State.putTeam_hbtoNs (s : State) (t : Team) : (s.putTeam t).hbtoNs = s.hbtoNs := rfl
@[simp] theorem State.putTeam_iver (s : State) (t : Team) : (s.putTeam t).iver = s.iver := rfl
@[simp] theorem State.putTeam_laneMap (s : State) (t : Team) : (s.putTeam t).laneMap = s.laneMap := rfl
@[simp] theorem State.putTeam_svs (s : State) (t : Team) : (s.putTeam t).svs = s.svs := rfl
@[simp] theorem State.putTeam_mailboxes (s : State) (t : Team) : (s.putTeam t).mailboxes = s.mailboxes := rfl
@[simp] theorem State.putTeam_busy (s : State) (t : Team) : (s.putTeam t).busy = s.busy := rfl
@[simp] theorem State.putTeam_events (s : State) (t : Team) : (s.putTeam t).events = s.events := rfl
@[simp] theorem State.putTeam_devRegs (s : State) (t : Team) : (s.putTeam t).devRegs = s.devRegs := rfl
@[simp] theorem State.putTeam_queues (s : State) (t : Team) : (s.putTeam t).queues = s.queues := rfl
@[simp] theorem State.putTeam_queueKeys (s : State) (t : Team) : (s.putTeam t).queueKeys = s.queueKeys := rfl
@[simp] theorem State.putTeam_knockKeys (s : State) (t : Team) : (s.putTeam t).knockKeys = s.knockKeys := rfl
@[simp] theorem State.putTeam_cqKeys (s : State) (t : Team) : (s.putTeam t).cqKeys = s.cqKeys := rfl
@[simp] theorem State.putTeam_wqUnits (s : State) (t : Team) : (s.putTeam t).wqUnits = s.wqUnits := rfl
@[simp] theorem State.putTeam_contexts (s : State) (t : Team) : (s.putTeam t).contexts = s.contexts := rfl
@[simp] theorem State.putTeam_launches (s : State) (t : Team) : (s.putTeam t).launches = s.launches := rfl
@[simp] theorem State.putTeam_teams (s : State) (t : Team) : (s.putTeam t).teams = tset s.teams t.tid t := rfl
@[simp] theorem State.putTeam_warps (s : State) (t : Team) : (s.putTeam t).warps = s.warps := rfl
@[simp] theorem State.putTeam_issuing (s : State) (t : Team) : (s.putTeam t).issuing = s.issuing := rfl
@[simp] theorem State.putTeam_ops (s : State) (t : Team) : (s.putTeam t).ops = s.ops := rfl
@[simp] theorem State.putTeam_cores (s : State) (t : Team) : (s.putTeam t).cores = s.cores := rfl
@[simp] theorem State.putTeam_spares (s : State) (t : Team) : (s.putTeam t).spares = s.spares := rfl
@[simp] theorem State.putTeam_preempts (s : State) (t : Team) : (s.putTeam t).preempts = s.preempts := rfl
@[simp] theorem State.putTeam_hbm (s : State) (t : Team) : (s.putTeam t).hbm = s.hbm := rfl
@[simp] theorem State.putTeam_l2 (s : State) (t : Team) : (s.putTeam t).l2 = s.l2 := rfl
@[simp] theorem State.putTeam_undefined (s : State) (t : Team) : (s.putTeam t).undefined = s.undefined := rfl
@[simp] theorem State.putTeam_poison (s : State) (t : Team) : (s.putTeam t).poison = s.poison := rfl
@[simp] theorem State.putTeam_dieE (s : State) (t : Team) : (s.putTeam t).dieE = s.dieE := rfl
@[simp] theorem State.putTeam_keySlots (s : State) (t : Team) : (s.putTeam t).keySlots = s.keySlots := rfl
@[simp] theorem State.putTeam_cellar (s : State) (t : Team) : (s.putTeam t).cellar = s.cellar := rfl
@[simp] theorem State.putTeam_cellarPoison (s : State) (t : Team) : (s.putTeam t).cellarPoison = s.cellarPoison := rfl
@[simp] theorem State.putTeam_cellarWins (s : State) (t : Team) : (s.putTeam t).cellarWins = s.cellarWins := rfl
@[simp] theorem State.putTeam_cellarReqs (s : State) (t : Team) : (s.putTeam t).cellarReqs = s.cellarReqs := rfl
@[simp] theorem State.putTeam_dieTlb (s : State) (t : Team) : (s.putTeam t).dieTlb = s.dieTlb := rfl
@[simp] theorem State.putTeam_walks (s : State) (t : Team) : (s.putTeam t).walks = s.walks := rfl
@[simp] theorem State.putTeam_deferReqs (s : State) (t : Team) : (s.putTeam t).deferReqs = s.deferReqs := rfl
@[simp] theorem State.putTeam_windows (s : State) (t : Team) : (s.putTeam t).windows = s.windows := rfl
@[simp] theorem State.putTeam_peerTable (s : State) (t : Team) : (s.putTeam t).peerTable = s.peerTable := rfl
@[simp] theorem State.putTeam_routes (s : State) (t : Team) : (s.putTeam t).routes = s.routes := rfl
@[simp] theorem State.putTeam_peersLost (s : State) (t : Team) : (s.putTeam t).peersLost = s.peersLost := rfl
@[simp] theorem State.putTeam_oldPath (s : State) (t : Team) : (s.putTeam t).oldPath = s.oldPath := rfl
@[simp] theorem State.putTeam_heldOut (s : State) (t : Team) : (s.putTeam t).heldOut = s.heldOut := rfl
@[simp] theorem State.putTeam_linkErrors (s : State) (t : Team) : (s.putTeam t).linkErrors = s.linkErrors := rfl
@[simp] theorem State.putTeam_uetDrops (s : State) (t : Team) : (s.putTeam t).uetDrops = s.uetDrops := rfl
@[simp] theorem State.putTeam_discards (s : State) (t : Team) : (s.putTeam t).discards = s.discards := rfl
@[simp] theorem State.putTeam_rejections (s : State) (t : Team) : (s.putTeam t).rejections = s.rejections := rfl
@[simp] theorem State.putTeam_lockouts (s : State) (t : Team) : (s.putTeam t).lockouts = s.lockouts := rfl
@[simp] theorem State.putTeam_outbox (s : State) (t : Team) : (s.putTeam t).outbox = s.outbox := rfl
@[simp] theorem State.putTeam_ingressQ (s : State) (t : Team) : (s.putTeam t).ingressQ = s.ingressQ := rfl
@[simp] theorem State.putTeam_msgs (s : State) (t : Team) : (s.putTeam t).msgs = s.msgs := rfl
@[simp] theorem State.putTeam_refusals (s : State) (t : Team) : (s.putTeam t).refusals = s.refusals := rfl
@[simp] theorem State.putTeam_tokens (s : State) (t : Team) : (s.putTeam t).tokens = s.tokens := rfl
@[simp] theorem State.putTeam_turn (s : State) (t : Team) : (s.putTeam t).turn = s.turn := rfl
@[simp] theorem State.putTeam_ingressRes (s : State) (t : Team) : (s.putTeam t).ingressRes = s.ingressRes := rfl
@[simp] theorem State.putTeam_accounts (s : State) (t : Team) : (s.putTeam t).accounts = s.accounts := rfl
@[simp] theorem State.putTeam_devAcct (s : State) (t : Team) : (s.putTeam t).devAcct = s.devAcct := rfl
@[simp] theorem State.putTeam_snapshots (s : State) (t : Team) : (s.putTeam t).snapshots = s.snapshots := rfl
@[simp] theorem State.putTeam_reassigned (s : State) (t : Team) : (s.putTeam t).reassigned = s.reassigned := rfl
@[simp] theorem State.putTeam_plans (s : State) (t : Team) : (s.putTeam t).plans = s.plans := rfl
@[simp] theorem State.putTeam_plansInForce (s : State) (t : Team) : (s.putTeam t).plansInForce = s.plansInForce := rfl
@[simp] theorem State.putTeam_slopeUp (s : State) (t : Team) : (s.putTeam t).slopeUp = s.slopeUp := rfl
@[simp] theorem State.putTeam_slopeDown (s : State) (t : Team) : (s.putTeam t).slopeDown = s.slopeDown := rfl
@[simp] theorem State.putTeam_agenda (s : State) (t : Team) : (s.putTeam t).agenda = s.agenda := rfl
@[simp] theorem State.putTeam_pending (s : State) (t : Team) : (s.putTeam t).pending = s.pending := rfl
@[simp] theorem State.putTeam_inputs (s : State) (t : Team) : (s.putTeam t).inputs = s.inputs := rfl
@[simp] theorem State.putTeam_fresh (s : State) (t : Team) : (s.putTeam t).fresh = s.fresh := rfl
@[simp] theorem State.putTeam_nextId (s : State) (t : Team) : (s.putTeam t).nextId = s.nextId := rfl
@[simp] theorem State.putTeam_cycleId (s : State) (t : Team) : (s.putTeam t).cycleId = s.cycleId := rfl
@[simp] theorem State.putTeam_fills (s : State) (t : Team) : (s.putTeam t).fills = s.fills := rfl

/-! ### putLaunch -/

@[simp] theorem State.putLaunch_base (s : State) (l : Launch) : (s.putLaunch l).base = s.base := rfl
@[simp] theorem State.putLaunch_clusters (s : State) (l : Launch) : (s.putLaunch l).clusters = s.clusters := rfl
@[simp] theorem State.putLaunch_booted (s : State) (l : Launch) : (s.putLaunch l).booted = s.booted := rfl
@[simp] theorem State.putLaunch_bootFailed (s : State) (l : Launch) : (s.putLaunch l).bootFailed = s.bootFailed := rfl
@[simp] theorem State.putLaunch_bootStatus (s : State) (l : Launch) : (s.putLaunch l).bootStatus = s.bootStatus := rfl
@[simp] theorem State.putLaunch_parkedDev (s : State) (l : Launch) : (s.putLaunch l).parkedDev = s.parkedDev := rfl
@[simp] theorem State.putLaunch_flash (s : State) (l : Launch) : (s.putLaunch l).flash = s.flash := rfl
@[simp] theorem State.putLaunch_devid (s : State) (l : Launch) : (s.putLaunch l).devid = s.devid := rfl
@[simp] theorem State.putLaunch_podsize (s : State) (l : Launch) : (s.putLaunch l).podsize = s.podsize := rfl
@[simp] theorem State.putLaunch_hbtoNs (s : State) (l : Launch) : (s.putLaunch l).hbtoNs = s.hbtoNs := rfl
@[simp] theorem State.putLaunch_iver (s : State) (l : Launch) : (s.putLaunch l).iver = s.iver := rfl
@[simp] theorem State.putLaunch_laneMap (s : State) (l : Launch) : (s.putLaunch l).laneMap = s.laneMap := rfl
@[simp] theorem State.putLaunch_svs (s : State) (l : Launch) : (s.putLaunch l).svs = s.svs := rfl
@[simp] theorem State.putLaunch_mailboxes (s : State) (l : Launch) : (s.putLaunch l).mailboxes = s.mailboxes := rfl
@[simp] theorem State.putLaunch_busy (s : State) (l : Launch) : (s.putLaunch l).busy = s.busy := rfl
@[simp] theorem State.putLaunch_events (s : State) (l : Launch) : (s.putLaunch l).events = s.events := rfl
@[simp] theorem State.putLaunch_devRegs (s : State) (l : Launch) : (s.putLaunch l).devRegs = s.devRegs := rfl
@[simp] theorem State.putLaunch_queues (s : State) (l : Launch) : (s.putLaunch l).queues = s.queues := rfl
@[simp] theorem State.putLaunch_queueKeys (s : State) (l : Launch) : (s.putLaunch l).queueKeys = s.queueKeys := rfl
@[simp] theorem State.putLaunch_knockKeys (s : State) (l : Launch) : (s.putLaunch l).knockKeys = s.knockKeys := rfl
@[simp] theorem State.putLaunch_cqKeys (s : State) (l : Launch) : (s.putLaunch l).cqKeys = s.cqKeys := rfl
@[simp] theorem State.putLaunch_wqUnits (s : State) (l : Launch) : (s.putLaunch l).wqUnits = s.wqUnits := rfl
@[simp] theorem State.putLaunch_contexts (s : State) (l : Launch) : (s.putLaunch l).contexts = s.contexts := rfl
@[simp] theorem State.putLaunch_launches (s : State) (l : Launch) : (s.putLaunch l).launches = tset s.launches l.lid l := rfl
@[simp] theorem State.putLaunch_teams (s : State) (l : Launch) : (s.putLaunch l).teams = s.teams := rfl
@[simp] theorem State.putLaunch_warps (s : State) (l : Launch) : (s.putLaunch l).warps = s.warps := rfl
@[simp] theorem State.putLaunch_issuing (s : State) (l : Launch) : (s.putLaunch l).issuing = s.issuing := rfl
@[simp] theorem State.putLaunch_ops (s : State) (l : Launch) : (s.putLaunch l).ops = s.ops := rfl
@[simp] theorem State.putLaunch_cores (s : State) (l : Launch) : (s.putLaunch l).cores = s.cores := rfl
@[simp] theorem State.putLaunch_spares (s : State) (l : Launch) : (s.putLaunch l).spares = s.spares := rfl
@[simp] theorem State.putLaunch_preempts (s : State) (l : Launch) : (s.putLaunch l).preempts = s.preempts := rfl
@[simp] theorem State.putLaunch_hbm (s : State) (l : Launch) : (s.putLaunch l).hbm = s.hbm := rfl
@[simp] theorem State.putLaunch_l2 (s : State) (l : Launch) : (s.putLaunch l).l2 = s.l2 := rfl
@[simp] theorem State.putLaunch_undefined (s : State) (l : Launch) : (s.putLaunch l).undefined = s.undefined := rfl
@[simp] theorem State.putLaunch_poison (s : State) (l : Launch) : (s.putLaunch l).poison = s.poison := rfl
@[simp] theorem State.putLaunch_dieE (s : State) (l : Launch) : (s.putLaunch l).dieE = s.dieE := rfl
@[simp] theorem State.putLaunch_keySlots (s : State) (l : Launch) : (s.putLaunch l).keySlots = s.keySlots := rfl
@[simp] theorem State.putLaunch_cellar (s : State) (l : Launch) : (s.putLaunch l).cellar = s.cellar := rfl
@[simp] theorem State.putLaunch_cellarPoison (s : State) (l : Launch) : (s.putLaunch l).cellarPoison = s.cellarPoison := rfl
@[simp] theorem State.putLaunch_cellarWins (s : State) (l : Launch) : (s.putLaunch l).cellarWins = s.cellarWins := rfl
@[simp] theorem State.putLaunch_cellarReqs (s : State) (l : Launch) : (s.putLaunch l).cellarReqs = s.cellarReqs := rfl
@[simp] theorem State.putLaunch_dieTlb (s : State) (l : Launch) : (s.putLaunch l).dieTlb = s.dieTlb := rfl
@[simp] theorem State.putLaunch_walks (s : State) (l : Launch) : (s.putLaunch l).walks = s.walks := rfl
@[simp] theorem State.putLaunch_deferReqs (s : State) (l : Launch) : (s.putLaunch l).deferReqs = s.deferReqs := rfl
@[simp] theorem State.putLaunch_windows (s : State) (l : Launch) : (s.putLaunch l).windows = s.windows := rfl
@[simp] theorem State.putLaunch_peerTable (s : State) (l : Launch) : (s.putLaunch l).peerTable = s.peerTable := rfl
@[simp] theorem State.putLaunch_routes (s : State) (l : Launch) : (s.putLaunch l).routes = s.routes := rfl
@[simp] theorem State.putLaunch_peersLost (s : State) (l : Launch) : (s.putLaunch l).peersLost = s.peersLost := rfl
@[simp] theorem State.putLaunch_oldPath (s : State) (l : Launch) : (s.putLaunch l).oldPath = s.oldPath := rfl
@[simp] theorem State.putLaunch_heldOut (s : State) (l : Launch) : (s.putLaunch l).heldOut = s.heldOut := rfl
@[simp] theorem State.putLaunch_linkErrors (s : State) (l : Launch) : (s.putLaunch l).linkErrors = s.linkErrors := rfl
@[simp] theorem State.putLaunch_uetDrops (s : State) (l : Launch) : (s.putLaunch l).uetDrops = s.uetDrops := rfl
@[simp] theorem State.putLaunch_discards (s : State) (l : Launch) : (s.putLaunch l).discards = s.discards := rfl
@[simp] theorem State.putLaunch_rejections (s : State) (l : Launch) : (s.putLaunch l).rejections = s.rejections := rfl
@[simp] theorem State.putLaunch_lockouts (s : State) (l : Launch) : (s.putLaunch l).lockouts = s.lockouts := rfl
@[simp] theorem State.putLaunch_outbox (s : State) (l : Launch) : (s.putLaunch l).outbox = s.outbox := rfl
@[simp] theorem State.putLaunch_ingressQ (s : State) (l : Launch) : (s.putLaunch l).ingressQ = s.ingressQ := rfl
@[simp] theorem State.putLaunch_msgs (s : State) (l : Launch) : (s.putLaunch l).msgs = s.msgs := rfl
@[simp] theorem State.putLaunch_refusals (s : State) (l : Launch) : (s.putLaunch l).refusals = s.refusals := rfl
@[simp] theorem State.putLaunch_tokens (s : State) (l : Launch) : (s.putLaunch l).tokens = s.tokens := rfl
@[simp] theorem State.putLaunch_turn (s : State) (l : Launch) : (s.putLaunch l).turn = s.turn := rfl
@[simp] theorem State.putLaunch_ingressRes (s : State) (l : Launch) : (s.putLaunch l).ingressRes = s.ingressRes := rfl
@[simp] theorem State.putLaunch_accounts (s : State) (l : Launch) : (s.putLaunch l).accounts = s.accounts := rfl
@[simp] theorem State.putLaunch_devAcct (s : State) (l : Launch) : (s.putLaunch l).devAcct = s.devAcct := rfl
@[simp] theorem State.putLaunch_snapshots (s : State) (l : Launch) : (s.putLaunch l).snapshots = s.snapshots := rfl
@[simp] theorem State.putLaunch_reassigned (s : State) (l : Launch) : (s.putLaunch l).reassigned = s.reassigned := rfl
@[simp] theorem State.putLaunch_plans (s : State) (l : Launch) : (s.putLaunch l).plans = s.plans := rfl
@[simp] theorem State.putLaunch_plansInForce (s : State) (l : Launch) : (s.putLaunch l).plansInForce = s.plansInForce := rfl
@[simp] theorem State.putLaunch_slopeUp (s : State) (l : Launch) : (s.putLaunch l).slopeUp = s.slopeUp := rfl
@[simp] theorem State.putLaunch_slopeDown (s : State) (l : Launch) : (s.putLaunch l).slopeDown = s.slopeDown := rfl
@[simp] theorem State.putLaunch_agenda (s : State) (l : Launch) : (s.putLaunch l).agenda = s.agenda := rfl
@[simp] theorem State.putLaunch_pending (s : State) (l : Launch) : (s.putLaunch l).pending = s.pending := rfl
@[simp] theorem State.putLaunch_inputs (s : State) (l : Launch) : (s.putLaunch l).inputs = s.inputs := rfl
@[simp] theorem State.putLaunch_fresh (s : State) (l : Launch) : (s.putLaunch l).fresh = s.fresh := rfl
@[simp] theorem State.putLaunch_nextId (s : State) (l : Launch) : (s.putLaunch l).nextId = s.nextId := rfl
@[simp] theorem State.putLaunch_cycleId (s : State) (l : Launch) : (s.putLaunch l).cycleId = s.cycleId := rfl
@[simp] theorem State.putLaunch_fills (s : State) (l : Launch) : (s.putLaunch l).fills = s.fills := rfl

/-! ### modWarp -/

@[simp] theorem State.modWarp_base (s : State) (n : Nat) (f : Warp → Warp) : (s.modWarp n f).base = s.base := rfl
@[simp] theorem State.modWarp_clusters (s : State) (n : Nat) (f : Warp → Warp) : (s.modWarp n f).clusters = s.clusters := rfl
@[simp] theorem State.modWarp_booted (s : State) (n : Nat) (f : Warp → Warp) : (s.modWarp n f).booted = s.booted := rfl
@[simp] theorem State.modWarp_bootFailed (s : State) (n : Nat) (f : Warp → Warp) : (s.modWarp n f).bootFailed = s.bootFailed := rfl
@[simp] theorem State.modWarp_bootStatus (s : State) (n : Nat) (f : Warp → Warp) : (s.modWarp n f).bootStatus = s.bootStatus := rfl
@[simp] theorem State.modWarp_parkedDev (s : State) (n : Nat) (f : Warp → Warp) : (s.modWarp n f).parkedDev = s.parkedDev := rfl
@[simp] theorem State.modWarp_flash (s : State) (n : Nat) (f : Warp → Warp) : (s.modWarp n f).flash = s.flash := rfl
@[simp] theorem State.modWarp_devid (s : State) (n : Nat) (f : Warp → Warp) : (s.modWarp n f).devid = s.devid := rfl
@[simp] theorem State.modWarp_podsize (s : State) (n : Nat) (f : Warp → Warp) : (s.modWarp n f).podsize = s.podsize := rfl
@[simp] theorem State.modWarp_hbtoNs (s : State) (n : Nat) (f : Warp → Warp) : (s.modWarp n f).hbtoNs = s.hbtoNs := rfl
@[simp] theorem State.modWarp_iver (s : State) (n : Nat) (f : Warp → Warp) : (s.modWarp n f).iver = s.iver := rfl
@[simp] theorem State.modWarp_laneMap (s : State) (n : Nat) (f : Warp → Warp) : (s.modWarp n f).laneMap = s.laneMap := rfl
@[simp] theorem State.modWarp_svs (s : State) (n : Nat) (f : Warp → Warp) : (s.modWarp n f).svs = s.svs := rfl
@[simp] theorem State.modWarp_mailboxes (s : State) (n : Nat) (f : Warp → Warp) : (s.modWarp n f).mailboxes = s.mailboxes := rfl
@[simp] theorem State.modWarp_busy (s : State) (n : Nat) (f : Warp → Warp) : (s.modWarp n f).busy = s.busy := rfl
@[simp] theorem State.modWarp_events (s : State) (n : Nat) (f : Warp → Warp) : (s.modWarp n f).events = s.events := rfl
@[simp] theorem State.modWarp_devRegs (s : State) (n : Nat) (f : Warp → Warp) : (s.modWarp n f).devRegs = s.devRegs := rfl
@[simp] theorem State.modWarp_queues (s : State) (n : Nat) (f : Warp → Warp) : (s.modWarp n f).queues = s.queues := rfl
@[simp] theorem State.modWarp_queueKeys (s : State) (n : Nat) (f : Warp → Warp) : (s.modWarp n f).queueKeys = s.queueKeys := rfl
@[simp] theorem State.modWarp_knockKeys (s : State) (n : Nat) (f : Warp → Warp) : (s.modWarp n f).knockKeys = s.knockKeys := rfl
@[simp] theorem State.modWarp_cqKeys (s : State) (n : Nat) (f : Warp → Warp) : (s.modWarp n f).cqKeys = s.cqKeys := rfl
@[simp] theorem State.modWarp_wqUnits (s : State) (n : Nat) (f : Warp → Warp) : (s.modWarp n f).wqUnits = s.wqUnits := rfl
@[simp] theorem State.modWarp_contexts (s : State) (n : Nat) (f : Warp → Warp) : (s.modWarp n f).contexts = s.contexts := rfl
@[simp] theorem State.modWarp_launches (s : State) (n : Nat) (f : Warp → Warp) : (s.modWarp n f).launches = s.launches := rfl
@[simp] theorem State.modWarp_teams (s : State) (n : Nat) (f : Warp → Warp) : (s.modWarp n f).teams = s.teams := rfl
@[simp] theorem State.modWarp_warps (s : State) (n : Nat) (f : Warp → Warp) : (s.modWarp n f).warps = tmod s.warps n f := rfl
@[simp] theorem State.modWarp_issuing (s : State) (n : Nat) (f : Warp → Warp) : (s.modWarp n f).issuing = s.issuing := rfl
@[simp] theorem State.modWarp_ops (s : State) (n : Nat) (f : Warp → Warp) : (s.modWarp n f).ops = s.ops := rfl
@[simp] theorem State.modWarp_cores (s : State) (n : Nat) (f : Warp → Warp) : (s.modWarp n f).cores = s.cores := rfl
@[simp] theorem State.modWarp_spares (s : State) (n : Nat) (f : Warp → Warp) : (s.modWarp n f).spares = s.spares := rfl
@[simp] theorem State.modWarp_preempts (s : State) (n : Nat) (f : Warp → Warp) : (s.modWarp n f).preempts = s.preempts := rfl
@[simp] theorem State.modWarp_hbm (s : State) (n : Nat) (f : Warp → Warp) : (s.modWarp n f).hbm = s.hbm := rfl
@[simp] theorem State.modWarp_l2 (s : State) (n : Nat) (f : Warp → Warp) : (s.modWarp n f).l2 = s.l2 := rfl
@[simp] theorem State.modWarp_undefined (s : State) (n : Nat) (f : Warp → Warp) : (s.modWarp n f).undefined = s.undefined := rfl
@[simp] theorem State.modWarp_poison (s : State) (n : Nat) (f : Warp → Warp) : (s.modWarp n f).poison = s.poison := rfl
@[simp] theorem State.modWarp_dieE (s : State) (n : Nat) (f : Warp → Warp) : (s.modWarp n f).dieE = s.dieE := rfl
@[simp] theorem State.modWarp_keySlots (s : State) (n : Nat) (f : Warp → Warp) : (s.modWarp n f).keySlots = s.keySlots := rfl
@[simp] theorem State.modWarp_cellar (s : State) (n : Nat) (f : Warp → Warp) : (s.modWarp n f).cellar = s.cellar := rfl
@[simp] theorem State.modWarp_cellarPoison (s : State) (n : Nat) (f : Warp → Warp) : (s.modWarp n f).cellarPoison = s.cellarPoison := rfl
@[simp] theorem State.modWarp_cellarWins (s : State) (n : Nat) (f : Warp → Warp) : (s.modWarp n f).cellarWins = s.cellarWins := rfl
@[simp] theorem State.modWarp_cellarReqs (s : State) (n : Nat) (f : Warp → Warp) : (s.modWarp n f).cellarReqs = s.cellarReqs := rfl
@[simp] theorem State.modWarp_dieTlb (s : State) (n : Nat) (f : Warp → Warp) : (s.modWarp n f).dieTlb = s.dieTlb := rfl
@[simp] theorem State.modWarp_walks (s : State) (n : Nat) (f : Warp → Warp) : (s.modWarp n f).walks = s.walks := rfl
@[simp] theorem State.modWarp_deferReqs (s : State) (n : Nat) (f : Warp → Warp) : (s.modWarp n f).deferReqs = s.deferReqs := rfl
@[simp] theorem State.modWarp_windows (s : State) (n : Nat) (f : Warp → Warp) : (s.modWarp n f).windows = s.windows := rfl
@[simp] theorem State.modWarp_peerTable (s : State) (n : Nat) (f : Warp → Warp) : (s.modWarp n f).peerTable = s.peerTable := rfl
@[simp] theorem State.modWarp_routes (s : State) (n : Nat) (f : Warp → Warp) : (s.modWarp n f).routes = s.routes := rfl
@[simp] theorem State.modWarp_peersLost (s : State) (n : Nat) (f : Warp → Warp) : (s.modWarp n f).peersLost = s.peersLost := rfl
@[simp] theorem State.modWarp_oldPath (s : State) (n : Nat) (f : Warp → Warp) : (s.modWarp n f).oldPath = s.oldPath := rfl
@[simp] theorem State.modWarp_heldOut (s : State) (n : Nat) (f : Warp → Warp) : (s.modWarp n f).heldOut = s.heldOut := rfl
@[simp] theorem State.modWarp_linkErrors (s : State) (n : Nat) (f : Warp → Warp) : (s.modWarp n f).linkErrors = s.linkErrors := rfl
@[simp] theorem State.modWarp_uetDrops (s : State) (n : Nat) (f : Warp → Warp) : (s.modWarp n f).uetDrops = s.uetDrops := rfl
@[simp] theorem State.modWarp_discards (s : State) (n : Nat) (f : Warp → Warp) : (s.modWarp n f).discards = s.discards := rfl
@[simp] theorem State.modWarp_rejections (s : State) (n : Nat) (f : Warp → Warp) : (s.modWarp n f).rejections = s.rejections := rfl
@[simp] theorem State.modWarp_lockouts (s : State) (n : Nat) (f : Warp → Warp) : (s.modWarp n f).lockouts = s.lockouts := rfl
@[simp] theorem State.modWarp_outbox (s : State) (n : Nat) (f : Warp → Warp) : (s.modWarp n f).outbox = s.outbox := rfl
@[simp] theorem State.modWarp_ingressQ (s : State) (n : Nat) (f : Warp → Warp) : (s.modWarp n f).ingressQ = s.ingressQ := rfl
@[simp] theorem State.modWarp_msgs (s : State) (n : Nat) (f : Warp → Warp) : (s.modWarp n f).msgs = s.msgs := rfl
@[simp] theorem State.modWarp_refusals (s : State) (n : Nat) (f : Warp → Warp) : (s.modWarp n f).refusals = s.refusals := rfl
@[simp] theorem State.modWarp_tokens (s : State) (n : Nat) (f : Warp → Warp) : (s.modWarp n f).tokens = s.tokens := rfl
@[simp] theorem State.modWarp_turn (s : State) (n : Nat) (f : Warp → Warp) : (s.modWarp n f).turn = s.turn := rfl
@[simp] theorem State.modWarp_ingressRes (s : State) (n : Nat) (f : Warp → Warp) : (s.modWarp n f).ingressRes = s.ingressRes := rfl
@[simp] theorem State.modWarp_accounts (s : State) (n : Nat) (f : Warp → Warp) : (s.modWarp n f).accounts = s.accounts := rfl
@[simp] theorem State.modWarp_devAcct (s : State) (n : Nat) (f : Warp → Warp) : (s.modWarp n f).devAcct = s.devAcct := rfl
@[simp] theorem State.modWarp_snapshots (s : State) (n : Nat) (f : Warp → Warp) : (s.modWarp n f).snapshots = s.snapshots := rfl
@[simp] theorem State.modWarp_reassigned (s : State) (n : Nat) (f : Warp → Warp) : (s.modWarp n f).reassigned = s.reassigned := rfl
@[simp] theorem State.modWarp_plans (s : State) (n : Nat) (f : Warp → Warp) : (s.modWarp n f).plans = s.plans := rfl
@[simp] theorem State.modWarp_plansInForce (s : State) (n : Nat) (f : Warp → Warp) : (s.modWarp n f).plansInForce = s.plansInForce := rfl
@[simp] theorem State.modWarp_slopeUp (s : State) (n : Nat) (f : Warp → Warp) : (s.modWarp n f).slopeUp = s.slopeUp := rfl
@[simp] theorem State.modWarp_slopeDown (s : State) (n : Nat) (f : Warp → Warp) : (s.modWarp n f).slopeDown = s.slopeDown := rfl
@[simp] theorem State.modWarp_agenda (s : State) (n : Nat) (f : Warp → Warp) : (s.modWarp n f).agenda = s.agenda := rfl
@[simp] theorem State.modWarp_pending (s : State) (n : Nat) (f : Warp → Warp) : (s.modWarp n f).pending = s.pending := rfl
@[simp] theorem State.modWarp_inputs (s : State) (n : Nat) (f : Warp → Warp) : (s.modWarp n f).inputs = s.inputs := rfl
@[simp] theorem State.modWarp_fresh (s : State) (n : Nat) (f : Warp → Warp) : (s.modWarp n f).fresh = s.fresh := rfl
@[simp] theorem State.modWarp_nextId (s : State) (n : Nat) (f : Warp → Warp) : (s.modWarp n f).nextId = s.nextId := rfl
@[simp] theorem State.modWarp_cycleId (s : State) (n : Nat) (f : Warp → Warp) : (s.modWarp n f).cycleId = s.cycleId := rfl
@[simp] theorem State.modWarp_fills (s : State) (n : Nat) (f : Warp → Warp) : (s.modWarp n f).fills = s.fills := rfl

/-! ### modTeam -/

@[simp] theorem State.modTeam_base (s : State) (n : Nat) (f : Team → Team) : (s.modTeam n f).base = s.base := rfl
@[simp] theorem State.modTeam_clusters (s : State) (n : Nat) (f : Team → Team) : (s.modTeam n f).clusters = s.clusters := rfl
@[simp] theorem State.modTeam_booted (s : State) (n : Nat) (f : Team → Team) : (s.modTeam n f).booted = s.booted := rfl
@[simp] theorem State.modTeam_bootFailed (s : State) (n : Nat) (f : Team → Team) : (s.modTeam n f).bootFailed = s.bootFailed := rfl
@[simp] theorem State.modTeam_bootStatus (s : State) (n : Nat) (f : Team → Team) : (s.modTeam n f).bootStatus = s.bootStatus := rfl
@[simp] theorem State.modTeam_parkedDev (s : State) (n : Nat) (f : Team → Team) : (s.modTeam n f).parkedDev = s.parkedDev := rfl
@[simp] theorem State.modTeam_flash (s : State) (n : Nat) (f : Team → Team) : (s.modTeam n f).flash = s.flash := rfl
@[simp] theorem State.modTeam_devid (s : State) (n : Nat) (f : Team → Team) : (s.modTeam n f).devid = s.devid := rfl
@[simp] theorem State.modTeam_podsize (s : State) (n : Nat) (f : Team → Team) : (s.modTeam n f).podsize = s.podsize := rfl
@[simp] theorem State.modTeam_hbtoNs (s : State) (n : Nat) (f : Team → Team) : (s.modTeam n f).hbtoNs = s.hbtoNs := rfl
@[simp] theorem State.modTeam_iver (s : State) (n : Nat) (f : Team → Team) : (s.modTeam n f).iver = s.iver := rfl
@[simp] theorem State.modTeam_laneMap (s : State) (n : Nat) (f : Team → Team) : (s.modTeam n f).laneMap = s.laneMap := rfl
@[simp] theorem State.modTeam_svs (s : State) (n : Nat) (f : Team → Team) : (s.modTeam n f).svs = s.svs := rfl
@[simp] theorem State.modTeam_mailboxes (s : State) (n : Nat) (f : Team → Team) : (s.modTeam n f).mailboxes = s.mailboxes := rfl
@[simp] theorem State.modTeam_busy (s : State) (n : Nat) (f : Team → Team) : (s.modTeam n f).busy = s.busy := rfl
@[simp] theorem State.modTeam_events (s : State) (n : Nat) (f : Team → Team) : (s.modTeam n f).events = s.events := rfl
@[simp] theorem State.modTeam_devRegs (s : State) (n : Nat) (f : Team → Team) : (s.modTeam n f).devRegs = s.devRegs := rfl
@[simp] theorem State.modTeam_queues (s : State) (n : Nat) (f : Team → Team) : (s.modTeam n f).queues = s.queues := rfl
@[simp] theorem State.modTeam_queueKeys (s : State) (n : Nat) (f : Team → Team) : (s.modTeam n f).queueKeys = s.queueKeys := rfl
@[simp] theorem State.modTeam_knockKeys (s : State) (n : Nat) (f : Team → Team) : (s.modTeam n f).knockKeys = s.knockKeys := rfl
@[simp] theorem State.modTeam_cqKeys (s : State) (n : Nat) (f : Team → Team) : (s.modTeam n f).cqKeys = s.cqKeys := rfl
@[simp] theorem State.modTeam_wqUnits (s : State) (n : Nat) (f : Team → Team) : (s.modTeam n f).wqUnits = s.wqUnits := rfl
@[simp] theorem State.modTeam_contexts (s : State) (n : Nat) (f : Team → Team) : (s.modTeam n f).contexts = s.contexts := rfl
@[simp] theorem State.modTeam_launches (s : State) (n : Nat) (f : Team → Team) : (s.modTeam n f).launches = s.launches := rfl
@[simp] theorem State.modTeam_teams (s : State) (n : Nat) (f : Team → Team) : (s.modTeam n f).teams = tmod s.teams n f := rfl
@[simp] theorem State.modTeam_warps (s : State) (n : Nat) (f : Team → Team) : (s.modTeam n f).warps = s.warps := rfl
@[simp] theorem State.modTeam_issuing (s : State) (n : Nat) (f : Team → Team) : (s.modTeam n f).issuing = s.issuing := rfl
@[simp] theorem State.modTeam_ops (s : State) (n : Nat) (f : Team → Team) : (s.modTeam n f).ops = s.ops := rfl
@[simp] theorem State.modTeam_cores (s : State) (n : Nat) (f : Team → Team) : (s.modTeam n f).cores = s.cores := rfl
@[simp] theorem State.modTeam_spares (s : State) (n : Nat) (f : Team → Team) : (s.modTeam n f).spares = s.spares := rfl
@[simp] theorem State.modTeam_preempts (s : State) (n : Nat) (f : Team → Team) : (s.modTeam n f).preempts = s.preempts := rfl
@[simp] theorem State.modTeam_hbm (s : State) (n : Nat) (f : Team → Team) : (s.modTeam n f).hbm = s.hbm := rfl
@[simp] theorem State.modTeam_l2 (s : State) (n : Nat) (f : Team → Team) : (s.modTeam n f).l2 = s.l2 := rfl
@[simp] theorem State.modTeam_undefined (s : State) (n : Nat) (f : Team → Team) : (s.modTeam n f).undefined = s.undefined := rfl
@[simp] theorem State.modTeam_poison (s : State) (n : Nat) (f : Team → Team) : (s.modTeam n f).poison = s.poison := rfl
@[simp] theorem State.modTeam_dieE (s : State) (n : Nat) (f : Team → Team) : (s.modTeam n f).dieE = s.dieE := rfl
@[simp] theorem State.modTeam_keySlots (s : State) (n : Nat) (f : Team → Team) : (s.modTeam n f).keySlots = s.keySlots := rfl
@[simp] theorem State.modTeam_cellar (s : State) (n : Nat) (f : Team → Team) : (s.modTeam n f).cellar = s.cellar := rfl
@[simp] theorem State.modTeam_cellarPoison (s : State) (n : Nat) (f : Team → Team) : (s.modTeam n f).cellarPoison = s.cellarPoison := rfl
@[simp] theorem State.modTeam_cellarWins (s : State) (n : Nat) (f : Team → Team) : (s.modTeam n f).cellarWins = s.cellarWins := rfl
@[simp] theorem State.modTeam_cellarReqs (s : State) (n : Nat) (f : Team → Team) : (s.modTeam n f).cellarReqs = s.cellarReqs := rfl
@[simp] theorem State.modTeam_dieTlb (s : State) (n : Nat) (f : Team → Team) : (s.modTeam n f).dieTlb = s.dieTlb := rfl
@[simp] theorem State.modTeam_walks (s : State) (n : Nat) (f : Team → Team) : (s.modTeam n f).walks = s.walks := rfl
@[simp] theorem State.modTeam_deferReqs (s : State) (n : Nat) (f : Team → Team) : (s.modTeam n f).deferReqs = s.deferReqs := rfl
@[simp] theorem State.modTeam_windows (s : State) (n : Nat) (f : Team → Team) : (s.modTeam n f).windows = s.windows := rfl
@[simp] theorem State.modTeam_peerTable (s : State) (n : Nat) (f : Team → Team) : (s.modTeam n f).peerTable = s.peerTable := rfl
@[simp] theorem State.modTeam_routes (s : State) (n : Nat) (f : Team → Team) : (s.modTeam n f).routes = s.routes := rfl
@[simp] theorem State.modTeam_peersLost (s : State) (n : Nat) (f : Team → Team) : (s.modTeam n f).peersLost = s.peersLost := rfl
@[simp] theorem State.modTeam_oldPath (s : State) (n : Nat) (f : Team → Team) : (s.modTeam n f).oldPath = s.oldPath := rfl
@[simp] theorem State.modTeam_heldOut (s : State) (n : Nat) (f : Team → Team) : (s.modTeam n f).heldOut = s.heldOut := rfl
@[simp] theorem State.modTeam_linkErrors (s : State) (n : Nat) (f : Team → Team) : (s.modTeam n f).linkErrors = s.linkErrors := rfl
@[simp] theorem State.modTeam_uetDrops (s : State) (n : Nat) (f : Team → Team) : (s.modTeam n f).uetDrops = s.uetDrops := rfl
@[simp] theorem State.modTeam_discards (s : State) (n : Nat) (f : Team → Team) : (s.modTeam n f).discards = s.discards := rfl
@[simp] theorem State.modTeam_rejections (s : State) (n : Nat) (f : Team → Team) : (s.modTeam n f).rejections = s.rejections := rfl
@[simp] theorem State.modTeam_lockouts (s : State) (n : Nat) (f : Team → Team) : (s.modTeam n f).lockouts = s.lockouts := rfl
@[simp] theorem State.modTeam_outbox (s : State) (n : Nat) (f : Team → Team) : (s.modTeam n f).outbox = s.outbox := rfl
@[simp] theorem State.modTeam_ingressQ (s : State) (n : Nat) (f : Team → Team) : (s.modTeam n f).ingressQ = s.ingressQ := rfl
@[simp] theorem State.modTeam_msgs (s : State) (n : Nat) (f : Team → Team) : (s.modTeam n f).msgs = s.msgs := rfl
@[simp] theorem State.modTeam_refusals (s : State) (n : Nat) (f : Team → Team) : (s.modTeam n f).refusals = s.refusals := rfl
@[simp] theorem State.modTeam_tokens (s : State) (n : Nat) (f : Team → Team) : (s.modTeam n f).tokens = s.tokens := rfl
@[simp] theorem State.modTeam_turn (s : State) (n : Nat) (f : Team → Team) : (s.modTeam n f).turn = s.turn := rfl
@[simp] theorem State.modTeam_ingressRes (s : State) (n : Nat) (f : Team → Team) : (s.modTeam n f).ingressRes = s.ingressRes := rfl
@[simp] theorem State.modTeam_accounts (s : State) (n : Nat) (f : Team → Team) : (s.modTeam n f).accounts = s.accounts := rfl
@[simp] theorem State.modTeam_devAcct (s : State) (n : Nat) (f : Team → Team) : (s.modTeam n f).devAcct = s.devAcct := rfl
@[simp] theorem State.modTeam_snapshots (s : State) (n : Nat) (f : Team → Team) : (s.modTeam n f).snapshots = s.snapshots := rfl
@[simp] theorem State.modTeam_reassigned (s : State) (n : Nat) (f : Team → Team) : (s.modTeam n f).reassigned = s.reassigned := rfl
@[simp] theorem State.modTeam_plans (s : State) (n : Nat) (f : Team → Team) : (s.modTeam n f).plans = s.plans := rfl
@[simp] theorem State.modTeam_plansInForce (s : State) (n : Nat) (f : Team → Team) : (s.modTeam n f).plansInForce = s.plansInForce := rfl
@[simp] theorem State.modTeam_slopeUp (s : State) (n : Nat) (f : Team → Team) : (s.modTeam n f).slopeUp = s.slopeUp := rfl
@[simp] theorem State.modTeam_slopeDown (s : State) (n : Nat) (f : Team → Team) : (s.modTeam n f).slopeDown = s.slopeDown := rfl
@[simp] theorem State.modTeam_agenda (s : State) (n : Nat) (f : Team → Team) : (s.modTeam n f).agenda = s.agenda := rfl
@[simp] theorem State.modTeam_pending (s : State) (n : Nat) (f : Team → Team) : (s.modTeam n f).pending = s.pending := rfl
@[simp] theorem State.modTeam_inputs (s : State) (n : Nat) (f : Team → Team) : (s.modTeam n f).inputs = s.inputs := rfl
@[simp] theorem State.modTeam_fresh (s : State) (n : Nat) (f : Team → Team) : (s.modTeam n f).fresh = s.fresh := rfl
@[simp] theorem State.modTeam_nextId (s : State) (n : Nat) (f : Team → Team) : (s.modTeam n f).nextId = s.nextId := rfl
@[simp] theorem State.modTeam_cycleId (s : State) (n : Nat) (f : Team → Team) : (s.modTeam n f).cycleId = s.cycleId := rfl
@[simp] theorem State.modTeam_fills (s : State) (n : Nat) (f : Team → Team) : (s.modTeam n f).fills = s.fills := rfl

/-! ### modLaunch -/

@[simp] theorem State.modLaunch_base (s : State) (n : Nat) (f : Launch → Launch) : (s.modLaunch n f).base = s.base := rfl
@[simp] theorem State.modLaunch_clusters (s : State) (n : Nat) (f : Launch → Launch) : (s.modLaunch n f).clusters = s.clusters := rfl
@[simp] theorem State.modLaunch_booted (s : State) (n : Nat) (f : Launch → Launch) : (s.modLaunch n f).booted = s.booted := rfl
@[simp] theorem State.modLaunch_bootFailed (s : State) (n : Nat) (f : Launch → Launch) : (s.modLaunch n f).bootFailed = s.bootFailed := rfl
@[simp] theorem State.modLaunch_bootStatus (s : State) (n : Nat) (f : Launch → Launch) : (s.modLaunch n f).bootStatus = s.bootStatus := rfl
@[simp] theorem State.modLaunch_parkedDev (s : State) (n : Nat) (f : Launch → Launch) : (s.modLaunch n f).parkedDev = s.parkedDev := rfl
@[simp] theorem State.modLaunch_flash (s : State) (n : Nat) (f : Launch → Launch) : (s.modLaunch n f).flash = s.flash := rfl
@[simp] theorem State.modLaunch_devid (s : State) (n : Nat) (f : Launch → Launch) : (s.modLaunch n f).devid = s.devid := rfl
@[simp] theorem State.modLaunch_podsize (s : State) (n : Nat) (f : Launch → Launch) : (s.modLaunch n f).podsize = s.podsize := rfl
@[simp] theorem State.modLaunch_hbtoNs (s : State) (n : Nat) (f : Launch → Launch) : (s.modLaunch n f).hbtoNs = s.hbtoNs := rfl
@[simp] theorem State.modLaunch_iver (s : State) (n : Nat) (f : Launch → Launch) : (s.modLaunch n f).iver = s.iver := rfl
@[simp] theorem State.modLaunch_laneMap (s : State) (n : Nat) (f : Launch → Launch) : (s.modLaunch n f).laneMap = s.laneMap := rfl
@[simp] theorem State.modLaunch_svs (s : State) (n : Nat) (f : Launch → Launch) : (s.modLaunch n f).svs = s.svs := rfl
@[simp] theorem State.modLaunch_mailboxes (s : State) (n : Nat) (f : Launch → Launch) : (s.modLaunch n f).mailboxes = s.mailboxes := rfl
@[simp] theorem State.modLaunch_busy (s : State) (n : Nat) (f : Launch → Launch) : (s.modLaunch n f).busy = s.busy := rfl
@[simp] theorem State.modLaunch_events (s : State) (n : Nat) (f : Launch → Launch) : (s.modLaunch n f).events = s.events := rfl
@[simp] theorem State.modLaunch_devRegs (s : State) (n : Nat) (f : Launch → Launch) : (s.modLaunch n f).devRegs = s.devRegs := rfl
@[simp] theorem State.modLaunch_queues (s : State) (n : Nat) (f : Launch → Launch) : (s.modLaunch n f).queues = s.queues := rfl
@[simp] theorem State.modLaunch_queueKeys (s : State) (n : Nat) (f : Launch → Launch) : (s.modLaunch n f).queueKeys = s.queueKeys := rfl
@[simp] theorem State.modLaunch_knockKeys (s : State) (n : Nat) (f : Launch → Launch) : (s.modLaunch n f).knockKeys = s.knockKeys := rfl
@[simp] theorem State.modLaunch_cqKeys (s : State) (n : Nat) (f : Launch → Launch) : (s.modLaunch n f).cqKeys = s.cqKeys := rfl
@[simp] theorem State.modLaunch_wqUnits (s : State) (n : Nat) (f : Launch → Launch) : (s.modLaunch n f).wqUnits = s.wqUnits := rfl
@[simp] theorem State.modLaunch_contexts (s : State) (n : Nat) (f : Launch → Launch) : (s.modLaunch n f).contexts = s.contexts := rfl
@[simp] theorem State.modLaunch_launches (s : State) (n : Nat) (f : Launch → Launch) : (s.modLaunch n f).launches = tmod s.launches n f := rfl
@[simp] theorem State.modLaunch_teams (s : State) (n : Nat) (f : Launch → Launch) : (s.modLaunch n f).teams = s.teams := rfl
@[simp] theorem State.modLaunch_warps (s : State) (n : Nat) (f : Launch → Launch) : (s.modLaunch n f).warps = s.warps := rfl
@[simp] theorem State.modLaunch_issuing (s : State) (n : Nat) (f : Launch → Launch) : (s.modLaunch n f).issuing = s.issuing := rfl
@[simp] theorem State.modLaunch_ops (s : State) (n : Nat) (f : Launch → Launch) : (s.modLaunch n f).ops = s.ops := rfl
@[simp] theorem State.modLaunch_cores (s : State) (n : Nat) (f : Launch → Launch) : (s.modLaunch n f).cores = s.cores := rfl
@[simp] theorem State.modLaunch_spares (s : State) (n : Nat) (f : Launch → Launch) : (s.modLaunch n f).spares = s.spares := rfl
@[simp] theorem State.modLaunch_preempts (s : State) (n : Nat) (f : Launch → Launch) : (s.modLaunch n f).preempts = s.preempts := rfl
@[simp] theorem State.modLaunch_hbm (s : State) (n : Nat) (f : Launch → Launch) : (s.modLaunch n f).hbm = s.hbm := rfl
@[simp] theorem State.modLaunch_l2 (s : State) (n : Nat) (f : Launch → Launch) : (s.modLaunch n f).l2 = s.l2 := rfl
@[simp] theorem State.modLaunch_undefined (s : State) (n : Nat) (f : Launch → Launch) : (s.modLaunch n f).undefined = s.undefined := rfl
@[simp] theorem State.modLaunch_poison (s : State) (n : Nat) (f : Launch → Launch) : (s.modLaunch n f).poison = s.poison := rfl
@[simp] theorem State.modLaunch_dieE (s : State) (n : Nat) (f : Launch → Launch) : (s.modLaunch n f).dieE = s.dieE := rfl
@[simp] theorem State.modLaunch_keySlots (s : State) (n : Nat) (f : Launch → Launch) : (s.modLaunch n f).keySlots = s.keySlots := rfl
@[simp] theorem State.modLaunch_cellar (s : State) (n : Nat) (f : Launch → Launch) : (s.modLaunch n f).cellar = s.cellar := rfl
@[simp] theorem State.modLaunch_cellarPoison (s : State) (n : Nat) (f : Launch → Launch) : (s.modLaunch n f).cellarPoison = s.cellarPoison := rfl
@[simp] theorem State.modLaunch_cellarWins (s : State) (n : Nat) (f : Launch → Launch) : (s.modLaunch n f).cellarWins = s.cellarWins := rfl
@[simp] theorem State.modLaunch_cellarReqs (s : State) (n : Nat) (f : Launch → Launch) : (s.modLaunch n f).cellarReqs = s.cellarReqs := rfl
@[simp] theorem State.modLaunch_dieTlb (s : State) (n : Nat) (f : Launch → Launch) : (s.modLaunch n f).dieTlb = s.dieTlb := rfl
@[simp] theorem State.modLaunch_walks (s : State) (n : Nat) (f : Launch → Launch) : (s.modLaunch n f).walks = s.walks := rfl
@[simp] theorem State.modLaunch_deferReqs (s : State) (n : Nat) (f : Launch → Launch) : (s.modLaunch n f).deferReqs = s.deferReqs := rfl
@[simp] theorem State.modLaunch_windows (s : State) (n : Nat) (f : Launch → Launch) : (s.modLaunch n f).windows = s.windows := rfl
@[simp] theorem State.modLaunch_peerTable (s : State) (n : Nat) (f : Launch → Launch) : (s.modLaunch n f).peerTable = s.peerTable := rfl
@[simp] theorem State.modLaunch_routes (s : State) (n : Nat) (f : Launch → Launch) : (s.modLaunch n f).routes = s.routes := rfl
@[simp] theorem State.modLaunch_peersLost (s : State) (n : Nat) (f : Launch → Launch) : (s.modLaunch n f).peersLost = s.peersLost := rfl
@[simp] theorem State.modLaunch_oldPath (s : State) (n : Nat) (f : Launch → Launch) : (s.modLaunch n f).oldPath = s.oldPath := rfl
@[simp] theorem State.modLaunch_heldOut (s : State) (n : Nat) (f : Launch → Launch) : (s.modLaunch n f).heldOut = s.heldOut := rfl
@[simp] theorem State.modLaunch_linkErrors (s : State) (n : Nat) (f : Launch → Launch) : (s.modLaunch n f).linkErrors = s.linkErrors := rfl
@[simp] theorem State.modLaunch_uetDrops (s : State) (n : Nat) (f : Launch → Launch) : (s.modLaunch n f).uetDrops = s.uetDrops := rfl
@[simp] theorem State.modLaunch_discards (s : State) (n : Nat) (f : Launch → Launch) : (s.modLaunch n f).discards = s.discards := rfl
@[simp] theorem State.modLaunch_rejections (s : State) (n : Nat) (f : Launch → Launch) : (s.modLaunch n f).rejections = s.rejections := rfl
@[simp] theorem State.modLaunch_lockouts (s : State) (n : Nat) (f : Launch → Launch) : (s.modLaunch n f).lockouts = s.lockouts := rfl
@[simp] theorem State.modLaunch_outbox (s : State) (n : Nat) (f : Launch → Launch) : (s.modLaunch n f).outbox = s.outbox := rfl
@[simp] theorem State.modLaunch_ingressQ (s : State) (n : Nat) (f : Launch → Launch) : (s.modLaunch n f).ingressQ = s.ingressQ := rfl
@[simp] theorem State.modLaunch_msgs (s : State) (n : Nat) (f : Launch → Launch) : (s.modLaunch n f).msgs = s.msgs := rfl
@[simp] theorem State.modLaunch_refusals (s : State) (n : Nat) (f : Launch → Launch) : (s.modLaunch n f).refusals = s.refusals := rfl
@[simp] theorem State.modLaunch_tokens (s : State) (n : Nat) (f : Launch → Launch) : (s.modLaunch n f).tokens = s.tokens := rfl
@[simp] theorem State.modLaunch_turn (s : State) (n : Nat) (f : Launch → Launch) : (s.modLaunch n f).turn = s.turn := rfl
@[simp] theorem State.modLaunch_ingressRes (s : State) (n : Nat) (f : Launch → Launch) : (s.modLaunch n f).ingressRes = s.ingressRes := rfl
@[simp] theorem State.modLaunch_accounts (s : State) (n : Nat) (f : Launch → Launch) : (s.modLaunch n f).accounts = s.accounts := rfl
@[simp] theorem State.modLaunch_devAcct (s : State) (n : Nat) (f : Launch → Launch) : (s.modLaunch n f).devAcct = s.devAcct := rfl
@[simp] theorem State.modLaunch_snapshots (s : State) (n : Nat) (f : Launch → Launch) : (s.modLaunch n f).snapshots = s.snapshots := rfl
@[simp] theorem State.modLaunch_reassigned (s : State) (n : Nat) (f : Launch → Launch) : (s.modLaunch n f).reassigned = s.reassigned := rfl
@[simp] theorem State.modLaunch_plans (s : State) (n : Nat) (f : Launch → Launch) : (s.modLaunch n f).plans = s.plans := rfl
@[simp] theorem State.modLaunch_plansInForce (s : State) (n : Nat) (f : Launch → Launch) : (s.modLaunch n f).plansInForce = s.plansInForce := rfl
@[simp] theorem State.modLaunch_slopeUp (s : State) (n : Nat) (f : Launch → Launch) : (s.modLaunch n f).slopeUp = s.slopeUp := rfl
@[simp] theorem State.modLaunch_slopeDown (s : State) (n : Nat) (f : Launch → Launch) : (s.modLaunch n f).slopeDown = s.slopeDown := rfl
@[simp] theorem State.modLaunch_agenda (s : State) (n : Nat) (f : Launch → Launch) : (s.modLaunch n f).agenda = s.agenda := rfl
@[simp] theorem State.modLaunch_pending (s : State) (n : Nat) (f : Launch → Launch) : (s.modLaunch n f).pending = s.pending := rfl
@[simp] theorem State.modLaunch_inputs (s : State) (n : Nat) (f : Launch → Launch) : (s.modLaunch n f).inputs = s.inputs := rfl
@[simp] theorem State.modLaunch_fresh (s : State) (n : Nat) (f : Launch → Launch) : (s.modLaunch n f).fresh = s.fresh := rfl
@[simp] theorem State.modLaunch_nextId (s : State) (n : Nat) (f : Launch → Launch) : (s.modLaunch n f).nextId = s.nextId := rfl
@[simp] theorem State.modLaunch_cycleId (s : State) (n : Nat) (f : Launch → Launch) : (s.modLaunch n f).cycleId = s.cycleId := rfl
@[simp] theorem State.modLaunch_fills (s : State) (n : Nat) (f : Launch → Launch) : (s.modLaunch n f).fills = s.fills := rfl

/-! ### modCore -/

@[simp] theorem State.modCore_base (s : State) (n : Nat) (f : Core → Core) : (s.modCore n f).base = s.base := rfl
@[simp] theorem State.modCore_clusters (s : State) (n : Nat) (f : Core → Core) : (s.modCore n f).clusters = s.clusters := rfl
@[simp] theorem State.modCore_booted (s : State) (n : Nat) (f : Core → Core) : (s.modCore n f).booted = s.booted := rfl
@[simp] theorem State.modCore_bootFailed (s : State) (n : Nat) (f : Core → Core) : (s.modCore n f).bootFailed = s.bootFailed := rfl
@[simp] theorem State.modCore_bootStatus (s : State) (n : Nat) (f : Core → Core) : (s.modCore n f).bootStatus = s.bootStatus := rfl
@[simp] theorem State.modCore_parkedDev (s : State) (n : Nat) (f : Core → Core) : (s.modCore n f).parkedDev = s.parkedDev := rfl
@[simp] theorem State.modCore_flash (s : State) (n : Nat) (f : Core → Core) : (s.modCore n f).flash = s.flash := rfl
@[simp] theorem State.modCore_devid (s : State) (n : Nat) (f : Core → Core) : (s.modCore n f).devid = s.devid := rfl
@[simp] theorem State.modCore_podsize (s : State) (n : Nat) (f : Core → Core) : (s.modCore n f).podsize = s.podsize := rfl
@[simp] theorem State.modCore_hbtoNs (s : State) (n : Nat) (f : Core → Core) : (s.modCore n f).hbtoNs = s.hbtoNs := rfl
@[simp] theorem State.modCore_iver (s : State) (n : Nat) (f : Core → Core) : (s.modCore n f).iver = s.iver := rfl
@[simp] theorem State.modCore_laneMap (s : State) (n : Nat) (f : Core → Core) : (s.modCore n f).laneMap = s.laneMap := rfl
@[simp] theorem State.modCore_svs (s : State) (n : Nat) (f : Core → Core) : (s.modCore n f).svs = s.svs := rfl
@[simp] theorem State.modCore_mailboxes (s : State) (n : Nat) (f : Core → Core) : (s.modCore n f).mailboxes = s.mailboxes := rfl
@[simp] theorem State.modCore_busy (s : State) (n : Nat) (f : Core → Core) : (s.modCore n f).busy = s.busy := rfl
@[simp] theorem State.modCore_events (s : State) (n : Nat) (f : Core → Core) : (s.modCore n f).events = s.events := rfl
@[simp] theorem State.modCore_devRegs (s : State) (n : Nat) (f : Core → Core) : (s.modCore n f).devRegs = s.devRegs := rfl
@[simp] theorem State.modCore_queues (s : State) (n : Nat) (f : Core → Core) : (s.modCore n f).queues = s.queues := rfl
@[simp] theorem State.modCore_queueKeys (s : State) (n : Nat) (f : Core → Core) : (s.modCore n f).queueKeys = s.queueKeys := rfl
@[simp] theorem State.modCore_knockKeys (s : State) (n : Nat) (f : Core → Core) : (s.modCore n f).knockKeys = s.knockKeys := rfl
@[simp] theorem State.modCore_cqKeys (s : State) (n : Nat) (f : Core → Core) : (s.modCore n f).cqKeys = s.cqKeys := rfl
@[simp] theorem State.modCore_wqUnits (s : State) (n : Nat) (f : Core → Core) : (s.modCore n f).wqUnits = s.wqUnits := rfl
@[simp] theorem State.modCore_contexts (s : State) (n : Nat) (f : Core → Core) : (s.modCore n f).contexts = s.contexts := rfl
@[simp] theorem State.modCore_launches (s : State) (n : Nat) (f : Core → Core) : (s.modCore n f).launches = s.launches := rfl
@[simp] theorem State.modCore_teams (s : State) (n : Nat) (f : Core → Core) : (s.modCore n f).teams = s.teams := rfl
@[simp] theorem State.modCore_warps (s : State) (n : Nat) (f : Core → Core) : (s.modCore n f).warps = s.warps := rfl
@[simp] theorem State.modCore_issuing (s : State) (n : Nat) (f : Core → Core) : (s.modCore n f).issuing = s.issuing := rfl
@[simp] theorem State.modCore_ops (s : State) (n : Nat) (f : Core → Core) : (s.modCore n f).ops = s.ops := rfl
@[simp] theorem State.modCore_cores (s : State) (n : Nat) (f : Core → Core) : (s.modCore n f).cores = lmod s.cores n f := rfl
@[simp] theorem State.modCore_spares (s : State) (n : Nat) (f : Core → Core) : (s.modCore n f).spares = s.spares := rfl
@[simp] theorem State.modCore_preempts (s : State) (n : Nat) (f : Core → Core) : (s.modCore n f).preempts = s.preempts := rfl
@[simp] theorem State.modCore_hbm (s : State) (n : Nat) (f : Core → Core) : (s.modCore n f).hbm = s.hbm := rfl
@[simp] theorem State.modCore_l2 (s : State) (n : Nat) (f : Core → Core) : (s.modCore n f).l2 = s.l2 := rfl
@[simp] theorem State.modCore_undefined (s : State) (n : Nat) (f : Core → Core) : (s.modCore n f).undefined = s.undefined := rfl
@[simp] theorem State.modCore_poison (s : State) (n : Nat) (f : Core → Core) : (s.modCore n f).poison = s.poison := rfl
@[simp] theorem State.modCore_dieE (s : State) (n : Nat) (f : Core → Core) : (s.modCore n f).dieE = s.dieE := rfl
@[simp] theorem State.modCore_keySlots (s : State) (n : Nat) (f : Core → Core) : (s.modCore n f).keySlots = s.keySlots := rfl
@[simp] theorem State.modCore_cellar (s : State) (n : Nat) (f : Core → Core) : (s.modCore n f).cellar = s.cellar := rfl
@[simp] theorem State.modCore_cellarPoison (s : State) (n : Nat) (f : Core → Core) : (s.modCore n f).cellarPoison = s.cellarPoison := rfl
@[simp] theorem State.modCore_cellarWins (s : State) (n : Nat) (f : Core → Core) : (s.modCore n f).cellarWins = s.cellarWins := rfl
@[simp] theorem State.modCore_cellarReqs (s : State) (n : Nat) (f : Core → Core) : (s.modCore n f).cellarReqs = s.cellarReqs := rfl
@[simp] theorem State.modCore_dieTlb (s : State) (n : Nat) (f : Core → Core) : (s.modCore n f).dieTlb = s.dieTlb := rfl
@[simp] theorem State.modCore_walks (s : State) (n : Nat) (f : Core → Core) : (s.modCore n f).walks = s.walks := rfl
@[simp] theorem State.modCore_deferReqs (s : State) (n : Nat) (f : Core → Core) : (s.modCore n f).deferReqs = s.deferReqs := rfl
@[simp] theorem State.modCore_windows (s : State) (n : Nat) (f : Core → Core) : (s.modCore n f).windows = s.windows := rfl
@[simp] theorem State.modCore_peerTable (s : State) (n : Nat) (f : Core → Core) : (s.modCore n f).peerTable = s.peerTable := rfl
@[simp] theorem State.modCore_routes (s : State) (n : Nat) (f : Core → Core) : (s.modCore n f).routes = s.routes := rfl
@[simp] theorem State.modCore_peersLost (s : State) (n : Nat) (f : Core → Core) : (s.modCore n f).peersLost = s.peersLost := rfl
@[simp] theorem State.modCore_oldPath (s : State) (n : Nat) (f : Core → Core) : (s.modCore n f).oldPath = s.oldPath := rfl
@[simp] theorem State.modCore_heldOut (s : State) (n : Nat) (f : Core → Core) : (s.modCore n f).heldOut = s.heldOut := rfl
@[simp] theorem State.modCore_linkErrors (s : State) (n : Nat) (f : Core → Core) : (s.modCore n f).linkErrors = s.linkErrors := rfl
@[simp] theorem State.modCore_uetDrops (s : State) (n : Nat) (f : Core → Core) : (s.modCore n f).uetDrops = s.uetDrops := rfl
@[simp] theorem State.modCore_discards (s : State) (n : Nat) (f : Core → Core) : (s.modCore n f).discards = s.discards := rfl
@[simp] theorem State.modCore_rejections (s : State) (n : Nat) (f : Core → Core) : (s.modCore n f).rejections = s.rejections := rfl
@[simp] theorem State.modCore_lockouts (s : State) (n : Nat) (f : Core → Core) : (s.modCore n f).lockouts = s.lockouts := rfl
@[simp] theorem State.modCore_outbox (s : State) (n : Nat) (f : Core → Core) : (s.modCore n f).outbox = s.outbox := rfl
@[simp] theorem State.modCore_ingressQ (s : State) (n : Nat) (f : Core → Core) : (s.modCore n f).ingressQ = s.ingressQ := rfl
@[simp] theorem State.modCore_msgs (s : State) (n : Nat) (f : Core → Core) : (s.modCore n f).msgs = s.msgs := rfl
@[simp] theorem State.modCore_refusals (s : State) (n : Nat) (f : Core → Core) : (s.modCore n f).refusals = s.refusals := rfl
@[simp] theorem State.modCore_tokens (s : State) (n : Nat) (f : Core → Core) : (s.modCore n f).tokens = s.tokens := rfl
@[simp] theorem State.modCore_turn (s : State) (n : Nat) (f : Core → Core) : (s.modCore n f).turn = s.turn := rfl
@[simp] theorem State.modCore_ingressRes (s : State) (n : Nat) (f : Core → Core) : (s.modCore n f).ingressRes = s.ingressRes := rfl
@[simp] theorem State.modCore_accounts (s : State) (n : Nat) (f : Core → Core) : (s.modCore n f).accounts = s.accounts := rfl
@[simp] theorem State.modCore_devAcct (s : State) (n : Nat) (f : Core → Core) : (s.modCore n f).devAcct = s.devAcct := rfl
@[simp] theorem State.modCore_snapshots (s : State) (n : Nat) (f : Core → Core) : (s.modCore n f).snapshots = s.snapshots := rfl
@[simp] theorem State.modCore_reassigned (s : State) (n : Nat) (f : Core → Core) : (s.modCore n f).reassigned = s.reassigned := rfl
@[simp] theorem State.modCore_plans (s : State) (n : Nat) (f : Core → Core) : (s.modCore n f).plans = s.plans := rfl
@[simp] theorem State.modCore_plansInForce (s : State) (n : Nat) (f : Core → Core) : (s.modCore n f).plansInForce = s.plansInForce := rfl
@[simp] theorem State.modCore_slopeUp (s : State) (n : Nat) (f : Core → Core) : (s.modCore n f).slopeUp = s.slopeUp := rfl
@[simp] theorem State.modCore_slopeDown (s : State) (n : Nat) (f : Core → Core) : (s.modCore n f).slopeDown = s.slopeDown := rfl
@[simp] theorem State.modCore_agenda (s : State) (n : Nat) (f : Core → Core) : (s.modCore n f).agenda = s.agenda := rfl
@[simp] theorem State.modCore_pending (s : State) (n : Nat) (f : Core → Core) : (s.modCore n f).pending = s.pending := rfl
@[simp] theorem State.modCore_inputs (s : State) (n : Nat) (f : Core → Core) : (s.modCore n f).inputs = s.inputs := rfl
@[simp] theorem State.modCore_fresh (s : State) (n : Nat) (f : Core → Core) : (s.modCore n f).fresh = s.fresh := rfl
@[simp] theorem State.modCore_nextId (s : State) (n : Nat) (f : Core → Core) : (s.modCore n f).nextId = s.nextId := rfl
@[simp] theorem State.modCore_cycleId (s : State) (n : Nat) (f : Core → Core) : (s.modCore n f).cycleId = s.cycleId := rfl
@[simp] theorem State.modCore_fills (s : State) (n : Nat) (f : Core → Core) : (s.modCore n f).fills = s.fills := rfl

/-! ### modOp -/

@[simp] theorem State.modOp_base (s : State) (n : Nat) (f : Op → Op) : (s.modOp n f).base = s.base := rfl
@[simp] theorem State.modOp_clusters (s : State) (n : Nat) (f : Op → Op) : (s.modOp n f).clusters = s.clusters := rfl
@[simp] theorem State.modOp_booted (s : State) (n : Nat) (f : Op → Op) : (s.modOp n f).booted = s.booted := rfl
@[simp] theorem State.modOp_bootFailed (s : State) (n : Nat) (f : Op → Op) : (s.modOp n f).bootFailed = s.bootFailed := rfl
@[simp] theorem State.modOp_bootStatus (s : State) (n : Nat) (f : Op → Op) : (s.modOp n f).bootStatus = s.bootStatus := rfl
@[simp] theorem State.modOp_parkedDev (s : State) (n : Nat) (f : Op → Op) : (s.modOp n f).parkedDev = s.parkedDev := rfl
@[simp] theorem State.modOp_flash (s : State) (n : Nat) (f : Op → Op) : (s.modOp n f).flash = s.flash := rfl
@[simp] theorem State.modOp_devid (s : State) (n : Nat) (f : Op → Op) : (s.modOp n f).devid = s.devid := rfl
@[simp] theorem State.modOp_podsize (s : State) (n : Nat) (f : Op → Op) : (s.modOp n f).podsize = s.podsize := rfl
@[simp] theorem State.modOp_hbtoNs (s : State) (n : Nat) (f : Op → Op) : (s.modOp n f).hbtoNs = s.hbtoNs := rfl
@[simp] theorem State.modOp_iver (s : State) (n : Nat) (f : Op → Op) : (s.modOp n f).iver = s.iver := rfl
@[simp] theorem State.modOp_laneMap (s : State) (n : Nat) (f : Op → Op) : (s.modOp n f).laneMap = s.laneMap := rfl
@[simp] theorem State.modOp_svs (s : State) (n : Nat) (f : Op → Op) : (s.modOp n f).svs = s.svs := rfl
@[simp] theorem State.modOp_mailboxes (s : State) (n : Nat) (f : Op → Op) : (s.modOp n f).mailboxes = s.mailboxes := rfl
@[simp] theorem State.modOp_busy (s : State) (n : Nat) (f : Op → Op) : (s.modOp n f).busy = s.busy := rfl
@[simp] theorem State.modOp_events (s : State) (n : Nat) (f : Op → Op) : (s.modOp n f).events = s.events := rfl
@[simp] theorem State.modOp_devRegs (s : State) (n : Nat) (f : Op → Op) : (s.modOp n f).devRegs = s.devRegs := rfl
@[simp] theorem State.modOp_queues (s : State) (n : Nat) (f : Op → Op) : (s.modOp n f).queues = s.queues := rfl
@[simp] theorem State.modOp_queueKeys (s : State) (n : Nat) (f : Op → Op) : (s.modOp n f).queueKeys = s.queueKeys := rfl
@[simp] theorem State.modOp_knockKeys (s : State) (n : Nat) (f : Op → Op) : (s.modOp n f).knockKeys = s.knockKeys := rfl
@[simp] theorem State.modOp_cqKeys (s : State) (n : Nat) (f : Op → Op) : (s.modOp n f).cqKeys = s.cqKeys := rfl
@[simp] theorem State.modOp_wqUnits (s : State) (n : Nat) (f : Op → Op) : (s.modOp n f).wqUnits = s.wqUnits := rfl
@[simp] theorem State.modOp_contexts (s : State) (n : Nat) (f : Op → Op) : (s.modOp n f).contexts = s.contexts := rfl
@[simp] theorem State.modOp_launches (s : State) (n : Nat) (f : Op → Op) : (s.modOp n f).launches = s.launches := rfl
@[simp] theorem State.modOp_teams (s : State) (n : Nat) (f : Op → Op) : (s.modOp n f).teams = s.teams := rfl
@[simp] theorem State.modOp_warps (s : State) (n : Nat) (f : Op → Op) : (s.modOp n f).warps = s.warps := rfl
@[simp] theorem State.modOp_issuing (s : State) (n : Nat) (f : Op → Op) : (s.modOp n f).issuing = s.issuing := rfl
@[simp] theorem State.modOp_ops (s : State) (n : Nat) (f : Op → Op) : (s.modOp n f).ops = tmod s.ops n f := rfl
@[simp] theorem State.modOp_cores (s : State) (n : Nat) (f : Op → Op) : (s.modOp n f).cores = s.cores := rfl
@[simp] theorem State.modOp_spares (s : State) (n : Nat) (f : Op → Op) : (s.modOp n f).spares = s.spares := rfl
@[simp] theorem State.modOp_preempts (s : State) (n : Nat) (f : Op → Op) : (s.modOp n f).preempts = s.preempts := rfl
@[simp] theorem State.modOp_hbm (s : State) (n : Nat) (f : Op → Op) : (s.modOp n f).hbm = s.hbm := rfl
@[simp] theorem State.modOp_l2 (s : State) (n : Nat) (f : Op → Op) : (s.modOp n f).l2 = s.l2 := rfl
@[simp] theorem State.modOp_undefined (s : State) (n : Nat) (f : Op → Op) : (s.modOp n f).undefined = s.undefined := rfl
@[simp] theorem State.modOp_poison (s : State) (n : Nat) (f : Op → Op) : (s.modOp n f).poison = s.poison := rfl
@[simp] theorem State.modOp_dieE (s : State) (n : Nat) (f : Op → Op) : (s.modOp n f).dieE = s.dieE := rfl
@[simp] theorem State.modOp_keySlots (s : State) (n : Nat) (f : Op → Op) : (s.modOp n f).keySlots = s.keySlots := rfl
@[simp] theorem State.modOp_cellar (s : State) (n : Nat) (f : Op → Op) : (s.modOp n f).cellar = s.cellar := rfl
@[simp] theorem State.modOp_cellarPoison (s : State) (n : Nat) (f : Op → Op) : (s.modOp n f).cellarPoison = s.cellarPoison := rfl
@[simp] theorem State.modOp_cellarWins (s : State) (n : Nat) (f : Op → Op) : (s.modOp n f).cellarWins = s.cellarWins := rfl
@[simp] theorem State.modOp_cellarReqs (s : State) (n : Nat) (f : Op → Op) : (s.modOp n f).cellarReqs = s.cellarReqs := rfl
@[simp] theorem State.modOp_dieTlb (s : State) (n : Nat) (f : Op → Op) : (s.modOp n f).dieTlb = s.dieTlb := rfl
@[simp] theorem State.modOp_walks (s : State) (n : Nat) (f : Op → Op) : (s.modOp n f).walks = s.walks := rfl
@[simp] theorem State.modOp_deferReqs (s : State) (n : Nat) (f : Op → Op) : (s.modOp n f).deferReqs = s.deferReqs := rfl
@[simp] theorem State.modOp_windows (s : State) (n : Nat) (f : Op → Op) : (s.modOp n f).windows = s.windows := rfl
@[simp] theorem State.modOp_peerTable (s : State) (n : Nat) (f : Op → Op) : (s.modOp n f).peerTable = s.peerTable := rfl
@[simp] theorem State.modOp_routes (s : State) (n : Nat) (f : Op → Op) : (s.modOp n f).routes = s.routes := rfl
@[simp] theorem State.modOp_peersLost (s : State) (n : Nat) (f : Op → Op) : (s.modOp n f).peersLost = s.peersLost := rfl
@[simp] theorem State.modOp_oldPath (s : State) (n : Nat) (f : Op → Op) : (s.modOp n f).oldPath = s.oldPath := rfl
@[simp] theorem State.modOp_heldOut (s : State) (n : Nat) (f : Op → Op) : (s.modOp n f).heldOut = s.heldOut := rfl
@[simp] theorem State.modOp_linkErrors (s : State) (n : Nat) (f : Op → Op) : (s.modOp n f).linkErrors = s.linkErrors := rfl
@[simp] theorem State.modOp_uetDrops (s : State) (n : Nat) (f : Op → Op) : (s.modOp n f).uetDrops = s.uetDrops := rfl
@[simp] theorem State.modOp_discards (s : State) (n : Nat) (f : Op → Op) : (s.modOp n f).discards = s.discards := rfl
@[simp] theorem State.modOp_rejections (s : State) (n : Nat) (f : Op → Op) : (s.modOp n f).rejections = s.rejections := rfl
@[simp] theorem State.modOp_lockouts (s : State) (n : Nat) (f : Op → Op) : (s.modOp n f).lockouts = s.lockouts := rfl
@[simp] theorem State.modOp_outbox (s : State) (n : Nat) (f : Op → Op) : (s.modOp n f).outbox = s.outbox := rfl
@[simp] theorem State.modOp_ingressQ (s : State) (n : Nat) (f : Op → Op) : (s.modOp n f).ingressQ = s.ingressQ := rfl
@[simp] theorem State.modOp_msgs (s : State) (n : Nat) (f : Op → Op) : (s.modOp n f).msgs = s.msgs := rfl
@[simp] theorem State.modOp_refusals (s : State) (n : Nat) (f : Op → Op) : (s.modOp n f).refusals = s.refusals := rfl
@[simp] theorem State.modOp_tokens (s : State) (n : Nat) (f : Op → Op) : (s.modOp n f).tokens = s.tokens := rfl
@[simp] theorem State.modOp_turn (s : State) (n : Nat) (f : Op → Op) : (s.modOp n f).turn = s.turn := rfl
@[simp] theorem State.modOp_ingressRes (s : State) (n : Nat) (f : Op → Op) : (s.modOp n f).ingressRes = s.ingressRes := rfl
@[simp] theorem State.modOp_accounts (s : State) (n : Nat) (f : Op → Op) : (s.modOp n f).accounts = s.accounts := rfl
@[simp] theorem State.modOp_devAcct (s : State) (n : Nat) (f : Op → Op) : (s.modOp n f).devAcct = s.devAcct := rfl
@[simp] theorem State.modOp_snapshots (s : State) (n : Nat) (f : Op → Op) : (s.modOp n f).snapshots = s.snapshots := rfl
@[simp] theorem State.modOp_reassigned (s : State) (n : Nat) (f : Op → Op) : (s.modOp n f).reassigned = s.reassigned := rfl
@[simp] theorem State.modOp_plans (s : State) (n : Nat) (f : Op → Op) : (s.modOp n f).plans = s.plans := rfl
@[simp] theorem State.modOp_plansInForce (s : State) (n : Nat) (f : Op → Op) : (s.modOp n f).plansInForce = s.plansInForce := rfl
@[simp] theorem State.modOp_slopeUp (s : State) (n : Nat) (f : Op → Op) : (s.modOp n f).slopeUp = s.slopeUp := rfl
@[simp] theorem State.modOp_slopeDown (s : State) (n : Nat) (f : Op → Op) : (s.modOp n f).slopeDown = s.slopeDown := rfl
@[simp] theorem State.modOp_agenda (s : State) (n : Nat) (f : Op → Op) : (s.modOp n f).agenda = s.agenda := rfl
@[simp] theorem State.modOp_pending (s : State) (n : Nat) (f : Op → Op) : (s.modOp n f).pending = s.pending := rfl
@[simp] theorem State.modOp_inputs (s : State) (n : Nat) (f : Op → Op) : (s.modOp n f).inputs = s.inputs := rfl
@[simp] theorem State.modOp_fresh (s : State) (n : Nat) (f : Op → Op) : (s.modOp n f).fresh = s.fresh := rfl
@[simp] theorem State.modOp_nextId (s : State) (n : Nat) (f : Op → Op) : (s.modOp n f).nextId = s.nextId := rfl
@[simp] theorem State.modOp_cycleId (s : State) (n : Nat) (f : Op → Op) : (s.modOp n f).cycleId = s.cycleId := rfl
@[simp] theorem State.modOp_fills (s : State) (n : Nat) (f : Op → Op) : (s.modOp n f).fills = s.fills := rfl

/-! ### delOp -/

@[simp] theorem State.delOp_base (s : State) (n : Nat) : (s.delOp n).base = s.base := rfl
@[simp] theorem State.delOp_clusters (s : State) (n : Nat) : (s.delOp n).clusters = s.clusters := rfl
@[simp] theorem State.delOp_booted (s : State) (n : Nat) : (s.delOp n).booted = s.booted := rfl
@[simp] theorem State.delOp_bootFailed (s : State) (n : Nat) : (s.delOp n).bootFailed = s.bootFailed := rfl
@[simp] theorem State.delOp_bootStatus (s : State) (n : Nat) : (s.delOp n).bootStatus = s.bootStatus := rfl
@[simp] theorem State.delOp_parkedDev (s : State) (n : Nat) : (s.delOp n).parkedDev = s.parkedDev := rfl
@[simp] theorem State.delOp_flash (s : State) (n : Nat) : (s.delOp n).flash = s.flash := rfl
@[simp] theorem State.delOp_devid (s : State) (n : Nat) : (s.delOp n).devid = s.devid := rfl
@[simp] theorem State.delOp_podsize (s : State) (n : Nat) : (s.delOp n).podsize = s.podsize := rfl
@[simp] theorem State.delOp_hbtoNs (s : State) (n : Nat) : (s.delOp n).hbtoNs = s.hbtoNs := rfl
@[simp] theorem State.delOp_iver (s : State) (n : Nat) : (s.delOp n).iver = s.iver := rfl
@[simp] theorem State.delOp_laneMap (s : State) (n : Nat) : (s.delOp n).laneMap = s.laneMap := rfl
@[simp] theorem State.delOp_svs (s : State) (n : Nat) : (s.delOp n).svs = s.svs := rfl
@[simp] theorem State.delOp_mailboxes (s : State) (n : Nat) : (s.delOp n).mailboxes = s.mailboxes := rfl
@[simp] theorem State.delOp_busy (s : State) (n : Nat) : (s.delOp n).busy = s.busy := rfl
@[simp] theorem State.delOp_events (s : State) (n : Nat) : (s.delOp n).events = s.events := rfl
@[simp] theorem State.delOp_devRegs (s : State) (n : Nat) : (s.delOp n).devRegs = s.devRegs := rfl
@[simp] theorem State.delOp_queues (s : State) (n : Nat) : (s.delOp n).queues = s.queues := rfl
@[simp] theorem State.delOp_queueKeys (s : State) (n : Nat) : (s.delOp n).queueKeys = s.queueKeys := rfl
@[simp] theorem State.delOp_knockKeys (s : State) (n : Nat) : (s.delOp n).knockKeys = s.knockKeys := rfl
@[simp] theorem State.delOp_cqKeys (s : State) (n : Nat) : (s.delOp n).cqKeys = s.cqKeys := rfl
@[simp] theorem State.delOp_wqUnits (s : State) (n : Nat) : (s.delOp n).wqUnits = s.wqUnits := rfl
@[simp] theorem State.delOp_contexts (s : State) (n : Nat) : (s.delOp n).contexts = s.contexts := rfl
@[simp] theorem State.delOp_launches (s : State) (n : Nat) : (s.delOp n).launches = s.launches := rfl
@[simp] theorem State.delOp_teams (s : State) (n : Nat) : (s.delOp n).teams = s.teams := rfl
@[simp] theorem State.delOp_warps (s : State) (n : Nat) : (s.delOp n).warps = s.warps := rfl
@[simp] theorem State.delOp_issuing (s : State) (n : Nat) : (s.delOp n).issuing = s.issuing := rfl
@[simp] theorem State.delOp_ops (s : State) (n : Nat) : (s.delOp n).ops = tdel s.ops n := rfl
@[simp] theorem State.delOp_cores (s : State) (n : Nat) : (s.delOp n).cores = s.cores := rfl
@[simp] theorem State.delOp_spares (s : State) (n : Nat) : (s.delOp n).spares = s.spares := rfl
@[simp] theorem State.delOp_preempts (s : State) (n : Nat) : (s.delOp n).preempts = s.preempts := rfl
@[simp] theorem State.delOp_hbm (s : State) (n : Nat) : (s.delOp n).hbm = s.hbm := rfl
@[simp] theorem State.delOp_l2 (s : State) (n : Nat) : (s.delOp n).l2 = s.l2 := rfl
@[simp] theorem State.delOp_undefined (s : State) (n : Nat) : (s.delOp n).undefined = s.undefined := rfl
@[simp] theorem State.delOp_poison (s : State) (n : Nat) : (s.delOp n).poison = s.poison := rfl
@[simp] theorem State.delOp_dieE (s : State) (n : Nat) : (s.delOp n).dieE = s.dieE := rfl
@[simp] theorem State.delOp_keySlots (s : State) (n : Nat) : (s.delOp n).keySlots = s.keySlots := rfl
@[simp] theorem State.delOp_cellar (s : State) (n : Nat) : (s.delOp n).cellar = s.cellar := rfl
@[simp] theorem State.delOp_cellarPoison (s : State) (n : Nat) : (s.delOp n).cellarPoison = s.cellarPoison := rfl
@[simp] theorem State.delOp_cellarWins (s : State) (n : Nat) : (s.delOp n).cellarWins = s.cellarWins := rfl
@[simp] theorem State.delOp_cellarReqs (s : State) (n : Nat) : (s.delOp n).cellarReqs = s.cellarReqs := rfl
@[simp] theorem State.delOp_dieTlb (s : State) (n : Nat) : (s.delOp n).dieTlb = s.dieTlb := rfl
@[simp] theorem State.delOp_walks (s : State) (n : Nat) : (s.delOp n).walks = s.walks := rfl
@[simp] theorem State.delOp_deferReqs (s : State) (n : Nat) : (s.delOp n).deferReqs = s.deferReqs := rfl
@[simp] theorem State.delOp_windows (s : State) (n : Nat) : (s.delOp n).windows = s.windows := rfl
@[simp] theorem State.delOp_peerTable (s : State) (n : Nat) : (s.delOp n).peerTable = s.peerTable := rfl
@[simp] theorem State.delOp_routes (s : State) (n : Nat) : (s.delOp n).routes = s.routes := rfl
@[simp] theorem State.delOp_peersLost (s : State) (n : Nat) : (s.delOp n).peersLost = s.peersLost := rfl
@[simp] theorem State.delOp_oldPath (s : State) (n : Nat) : (s.delOp n).oldPath = s.oldPath := rfl
@[simp] theorem State.delOp_heldOut (s : State) (n : Nat) : (s.delOp n).heldOut = s.heldOut := rfl
@[simp] theorem State.delOp_linkErrors (s : State) (n : Nat) : (s.delOp n).linkErrors = s.linkErrors := rfl
@[simp] theorem State.delOp_uetDrops (s : State) (n : Nat) : (s.delOp n).uetDrops = s.uetDrops := rfl
@[simp] theorem State.delOp_discards (s : State) (n : Nat) : (s.delOp n).discards = s.discards := rfl
@[simp] theorem State.delOp_rejections (s : State) (n : Nat) : (s.delOp n).rejections = s.rejections := rfl
@[simp] theorem State.delOp_lockouts (s : State) (n : Nat) : (s.delOp n).lockouts = s.lockouts := rfl
@[simp] theorem State.delOp_outbox (s : State) (n : Nat) : (s.delOp n).outbox = s.outbox := rfl
@[simp] theorem State.delOp_ingressQ (s : State) (n : Nat) : (s.delOp n).ingressQ = s.ingressQ := rfl
@[simp] theorem State.delOp_msgs (s : State) (n : Nat) : (s.delOp n).msgs = s.msgs := rfl
@[simp] theorem State.delOp_refusals (s : State) (n : Nat) : (s.delOp n).refusals = s.refusals := rfl
@[simp] theorem State.delOp_tokens (s : State) (n : Nat) : (s.delOp n).tokens = s.tokens := rfl
@[simp] theorem State.delOp_turn (s : State) (n : Nat) : (s.delOp n).turn = s.turn := rfl
@[simp] theorem State.delOp_ingressRes (s : State) (n : Nat) : (s.delOp n).ingressRes = s.ingressRes := rfl
@[simp] theorem State.delOp_accounts (s : State) (n : Nat) : (s.delOp n).accounts = s.accounts := rfl
@[simp] theorem State.delOp_devAcct (s : State) (n : Nat) : (s.delOp n).devAcct = s.devAcct := rfl
@[simp] theorem State.delOp_snapshots (s : State) (n : Nat) : (s.delOp n).snapshots = s.snapshots := rfl
@[simp] theorem State.delOp_reassigned (s : State) (n : Nat) : (s.delOp n).reassigned = s.reassigned := rfl
@[simp] theorem State.delOp_plans (s : State) (n : Nat) : (s.delOp n).plans = s.plans := rfl
@[simp] theorem State.delOp_plansInForce (s : State) (n : Nat) : (s.delOp n).plansInForce = s.plansInForce := rfl
@[simp] theorem State.delOp_slopeUp (s : State) (n : Nat) : (s.delOp n).slopeUp = s.slopeUp := rfl
@[simp] theorem State.delOp_slopeDown (s : State) (n : Nat) : (s.delOp n).slopeDown = s.slopeDown := rfl
@[simp] theorem State.delOp_agenda (s : State) (n : Nat) : (s.delOp n).agenda = s.agenda := rfl
@[simp] theorem State.delOp_pending (s : State) (n : Nat) : (s.delOp n).pending = s.pending := rfl
@[simp] theorem State.delOp_inputs (s : State) (n : Nat) : (s.delOp n).inputs = s.inputs := rfl
@[simp] theorem State.delOp_fresh (s : State) (n : Nat) : (s.delOp n).fresh = s.fresh := rfl
@[simp] theorem State.delOp_nextId (s : State) (n : Nat) : (s.delOp n).nextId = s.nextId := rfl
@[simp] theorem State.delOp_cycleId (s : State) (n : Nat) : (s.delOp n).cycleId = s.cycleId := rfl
@[simp] theorem State.delOp_fills (s : State) (n : Nat) : (s.delOp n).fills = s.fills := rfl

/-! ### soon -/

@[simp] theorem State.soon_base (s : State) (i : Instr) : (s.soon i).base = s.base := rfl
@[simp] theorem State.soon_clusters (s : State) (i : Instr) : (s.soon i).clusters = s.clusters := rfl
@[simp] theorem State.soon_booted (s : State) (i : Instr) : (s.soon i).booted = s.booted := rfl
@[simp] theorem State.soon_bootFailed (s : State) (i : Instr) : (s.soon i).bootFailed = s.bootFailed := rfl
@[simp] theorem State.soon_bootStatus (s : State) (i : Instr) : (s.soon i).bootStatus = s.bootStatus := rfl
@[simp] theorem State.soon_parkedDev (s : State) (i : Instr) : (s.soon i).parkedDev = s.parkedDev := rfl
@[simp] theorem State.soon_flash (s : State) (i : Instr) : (s.soon i).flash = s.flash := rfl
@[simp] theorem State.soon_devid (s : State) (i : Instr) : (s.soon i).devid = s.devid := rfl
@[simp] theorem State.soon_podsize (s : State) (i : Instr) : (s.soon i).podsize = s.podsize := rfl
@[simp] theorem State.soon_hbtoNs (s : State) (i : Instr) : (s.soon i).hbtoNs = s.hbtoNs := rfl
@[simp] theorem State.soon_iver (s : State) (i : Instr) : (s.soon i).iver = s.iver := rfl
@[simp] theorem State.soon_laneMap (s : State) (i : Instr) : (s.soon i).laneMap = s.laneMap := rfl
@[simp] theorem State.soon_svs (s : State) (i : Instr) : (s.soon i).svs = s.svs := rfl
@[simp] theorem State.soon_mailboxes (s : State) (i : Instr) : (s.soon i).mailboxes = s.mailboxes := rfl
@[simp] theorem State.soon_busy (s : State) (i : Instr) : (s.soon i).busy = s.busy := rfl
@[simp] theorem State.soon_events (s : State) (i : Instr) : (s.soon i).events = s.events := rfl
@[simp] theorem State.soon_devRegs (s : State) (i : Instr) : (s.soon i).devRegs = s.devRegs := rfl
@[simp] theorem State.soon_queues (s : State) (i : Instr) : (s.soon i).queues = s.queues := rfl
@[simp] theorem State.soon_queueKeys (s : State) (i : Instr) : (s.soon i).queueKeys = s.queueKeys := rfl
@[simp] theorem State.soon_knockKeys (s : State) (i : Instr) : (s.soon i).knockKeys = s.knockKeys := rfl
@[simp] theorem State.soon_cqKeys (s : State) (i : Instr) : (s.soon i).cqKeys = s.cqKeys := rfl
@[simp] theorem State.soon_wqUnits (s : State) (i : Instr) : (s.soon i).wqUnits = s.wqUnits := rfl
@[simp] theorem State.soon_contexts (s : State) (i : Instr) : (s.soon i).contexts = s.contexts := rfl
@[simp] theorem State.soon_launches (s : State) (i : Instr) : (s.soon i).launches = s.launches := rfl
@[simp] theorem State.soon_teams (s : State) (i : Instr) : (s.soon i).teams = s.teams := rfl
@[simp] theorem State.soon_warps (s : State) (i : Instr) : (s.soon i).warps = s.warps := rfl
@[simp] theorem State.soon_issuing (s : State) (i : Instr) : (s.soon i).issuing = s.issuing := rfl
@[simp] theorem State.soon_ops (s : State) (i : Instr) : (s.soon i).ops = s.ops := rfl
@[simp] theorem State.soon_cores (s : State) (i : Instr) : (s.soon i).cores = s.cores := rfl
@[simp] theorem State.soon_spares (s : State) (i : Instr) : (s.soon i).spares = s.spares := rfl
@[simp] theorem State.soon_preempts (s : State) (i : Instr) : (s.soon i).preempts = s.preempts := rfl
@[simp] theorem State.soon_hbm (s : State) (i : Instr) : (s.soon i).hbm = s.hbm := rfl
@[simp] theorem State.soon_l2 (s : State) (i : Instr) : (s.soon i).l2 = s.l2 := rfl
@[simp] theorem State.soon_undefined (s : State) (i : Instr) : (s.soon i).undefined = s.undefined := rfl
@[simp] theorem State.soon_poison (s : State) (i : Instr) : (s.soon i).poison = s.poison := rfl
@[simp] theorem State.soon_dieE (s : State) (i : Instr) : (s.soon i).dieE = s.dieE := rfl
@[simp] theorem State.soon_keySlots (s : State) (i : Instr) : (s.soon i).keySlots = s.keySlots := rfl
@[simp] theorem State.soon_cellar (s : State) (i : Instr) : (s.soon i).cellar = s.cellar := rfl
@[simp] theorem State.soon_cellarPoison (s : State) (i : Instr) : (s.soon i).cellarPoison = s.cellarPoison := rfl
@[simp] theorem State.soon_cellarWins (s : State) (i : Instr) : (s.soon i).cellarWins = s.cellarWins := rfl
@[simp] theorem State.soon_cellarReqs (s : State) (i : Instr) : (s.soon i).cellarReqs = s.cellarReqs := rfl
@[simp] theorem State.soon_dieTlb (s : State) (i : Instr) : (s.soon i).dieTlb = s.dieTlb := rfl
@[simp] theorem State.soon_walks (s : State) (i : Instr) : (s.soon i).walks = s.walks := rfl
@[simp] theorem State.soon_deferReqs (s : State) (i : Instr) : (s.soon i).deferReqs = s.deferReqs := rfl
@[simp] theorem State.soon_windows (s : State) (i : Instr) : (s.soon i).windows = s.windows := rfl
@[simp] theorem State.soon_peerTable (s : State) (i : Instr) : (s.soon i).peerTable = s.peerTable := rfl
@[simp] theorem State.soon_routes (s : State) (i : Instr) : (s.soon i).routes = s.routes := rfl
@[simp] theorem State.soon_peersLost (s : State) (i : Instr) : (s.soon i).peersLost = s.peersLost := rfl
@[simp] theorem State.soon_oldPath (s : State) (i : Instr) : (s.soon i).oldPath = s.oldPath := rfl
@[simp] theorem State.soon_heldOut (s : State) (i : Instr) : (s.soon i).heldOut = s.heldOut := rfl
@[simp] theorem State.soon_linkErrors (s : State) (i : Instr) : (s.soon i).linkErrors = s.linkErrors := rfl
@[simp] theorem State.soon_uetDrops (s : State) (i : Instr) : (s.soon i).uetDrops = s.uetDrops := rfl
@[simp] theorem State.soon_discards (s : State) (i : Instr) : (s.soon i).discards = s.discards := rfl
@[simp] theorem State.soon_rejections (s : State) (i : Instr) : (s.soon i).rejections = s.rejections := rfl
@[simp] theorem State.soon_lockouts (s : State) (i : Instr) : (s.soon i).lockouts = s.lockouts := rfl
@[simp] theorem State.soon_outbox (s : State) (i : Instr) : (s.soon i).outbox = s.outbox := rfl
@[simp] theorem State.soon_ingressQ (s : State) (i : Instr) : (s.soon i).ingressQ = s.ingressQ := rfl
@[simp] theorem State.soon_msgs (s : State) (i : Instr) : (s.soon i).msgs = s.msgs := rfl
@[simp] theorem State.soon_refusals (s : State) (i : Instr) : (s.soon i).refusals = s.refusals := rfl
@[simp] theorem State.soon_tokens (s : State) (i : Instr) : (s.soon i).tokens = s.tokens := rfl
@[simp] theorem State.soon_turn (s : State) (i : Instr) : (s.soon i).turn = s.turn := rfl
@[simp] theorem State.soon_ingressRes (s : State) (i : Instr) : (s.soon i).ingressRes = s.ingressRes := rfl
@[simp] theorem State.soon_accounts (s : State) (i : Instr) : (s.soon i).accounts = s.accounts := rfl
@[simp] theorem State.soon_devAcct (s : State) (i : Instr) : (s.soon i).devAcct = s.devAcct := rfl
@[simp] theorem State.soon_snapshots (s : State) (i : Instr) : (s.soon i).snapshots = s.snapshots := rfl
@[simp] theorem State.soon_reassigned (s : State) (i : Instr) : (s.soon i).reassigned = s.reassigned := rfl
@[simp] theorem State.soon_plans (s : State) (i : Instr) : (s.soon i).plans = s.plans := rfl
@[simp] theorem State.soon_plansInForce (s : State) (i : Instr) : (s.soon i).plansInForce = s.plansInForce := rfl
@[simp] theorem State.soon_slopeUp (s : State) (i : Instr) : (s.soon i).slopeUp = s.slopeUp := rfl
@[simp] theorem State.soon_slopeDown (s : State) (i : Instr) : (s.soon i).slopeDown = s.slopeDown := rfl
@[simp] theorem State.soon_agenda (s : State) (i : Instr) : (s.soon i).agenda = i :: s.agenda := rfl
@[simp] theorem State.soon_pending (s : State) (i : Instr) : (s.soon i).pending = s.pending := rfl
@[simp] theorem State.soon_inputs (s : State) (i : Instr) : (s.soon i).inputs = s.inputs := rfl
@[simp] theorem State.soon_fresh (s : State) (i : Instr) : (s.soon i).fresh = s.fresh := rfl
@[simp] theorem State.soon_nextId (s : State) (i : Instr) : (s.soon i).nextId = s.nextId := rfl
@[simp] theorem State.soon_cycleId (s : State) (i : Instr) : (s.soon i).cycleId = s.cycleId := rfl
@[simp] theorem State.soon_fills (s : State) (i : Instr) : (s.soon i).fills = s.fills := rfl

/-! ### later -/

@[simp] theorem State.later_base (s : State) (n : Nat) (i : Instr) : (s.later n i).base = s.base := rfl
@[simp] theorem State.later_clusters (s : State) (n : Nat) (i : Instr) : (s.later n i).clusters = s.clusters := rfl
@[simp] theorem State.later_booted (s : State) (n : Nat) (i : Instr) : (s.later n i).booted = s.booted := rfl
@[simp] theorem State.later_bootFailed (s : State) (n : Nat) (i : Instr) : (s.later n i).bootFailed = s.bootFailed := rfl
@[simp] theorem State.later_bootStatus (s : State) (n : Nat) (i : Instr) : (s.later n i).bootStatus = s.bootStatus := rfl
@[simp] theorem State.later_parkedDev (s : State) (n : Nat) (i : Instr) : (s.later n i).parkedDev = s.parkedDev := rfl
@[simp] theorem State.later_flash (s : State) (n : Nat) (i : Instr) : (s.later n i).flash = s.flash := rfl
@[simp] theorem State.later_devid (s : State) (n : Nat) (i : Instr) : (s.later n i).devid = s.devid := rfl
@[simp] theorem State.later_podsize (s : State) (n : Nat) (i : Instr) : (s.later n i).podsize = s.podsize := rfl
@[simp] theorem State.later_hbtoNs (s : State) (n : Nat) (i : Instr) : (s.later n i).hbtoNs = s.hbtoNs := rfl
@[simp] theorem State.later_iver (s : State) (n : Nat) (i : Instr) : (s.later n i).iver = s.iver := rfl
@[simp] theorem State.later_laneMap (s : State) (n : Nat) (i : Instr) : (s.later n i).laneMap = s.laneMap := rfl
@[simp] theorem State.later_svs (s : State) (n : Nat) (i : Instr) : (s.later n i).svs = s.svs := rfl
@[simp] theorem State.later_mailboxes (s : State) (n : Nat) (i : Instr) : (s.later n i).mailboxes = s.mailboxes := rfl
@[simp] theorem State.later_busy (s : State) (n : Nat) (i : Instr) : (s.later n i).busy = s.busy := rfl
@[simp] theorem State.later_events (s : State) (n : Nat) (i : Instr) : (s.later n i).events = s.events := rfl
@[simp] theorem State.later_devRegs (s : State) (n : Nat) (i : Instr) : (s.later n i).devRegs = s.devRegs := rfl
@[simp] theorem State.later_queues (s : State) (n : Nat) (i : Instr) : (s.later n i).queues = s.queues := rfl
@[simp] theorem State.later_queueKeys (s : State) (n : Nat) (i : Instr) : (s.later n i).queueKeys = s.queueKeys := rfl
@[simp] theorem State.later_knockKeys (s : State) (n : Nat) (i : Instr) : (s.later n i).knockKeys = s.knockKeys := rfl
@[simp] theorem State.later_cqKeys (s : State) (n : Nat) (i : Instr) : (s.later n i).cqKeys = s.cqKeys := rfl
@[simp] theorem State.later_wqUnits (s : State) (n : Nat) (i : Instr) : (s.later n i).wqUnits = s.wqUnits := rfl
@[simp] theorem State.later_contexts (s : State) (n : Nat) (i : Instr) : (s.later n i).contexts = s.contexts := rfl
@[simp] theorem State.later_launches (s : State) (n : Nat) (i : Instr) : (s.later n i).launches = s.launches := rfl
@[simp] theorem State.later_teams (s : State) (n : Nat) (i : Instr) : (s.later n i).teams = s.teams := rfl
@[simp] theorem State.later_warps (s : State) (n : Nat) (i : Instr) : (s.later n i).warps = s.warps := rfl
@[simp] theorem State.later_issuing (s : State) (n : Nat) (i : Instr) : (s.later n i).issuing = s.issuing := rfl
@[simp] theorem State.later_ops (s : State) (n : Nat) (i : Instr) : (s.later n i).ops = s.ops := rfl
@[simp] theorem State.later_cores (s : State) (n : Nat) (i : Instr) : (s.later n i).cores = s.cores := rfl
@[simp] theorem State.later_spares (s : State) (n : Nat) (i : Instr) : (s.later n i).spares = s.spares := rfl
@[simp] theorem State.later_preempts (s : State) (n : Nat) (i : Instr) : (s.later n i).preempts = s.preempts := rfl
@[simp] theorem State.later_hbm (s : State) (n : Nat) (i : Instr) : (s.later n i).hbm = s.hbm := rfl
@[simp] theorem State.later_l2 (s : State) (n : Nat) (i : Instr) : (s.later n i).l2 = s.l2 := rfl
@[simp] theorem State.later_undefined (s : State) (n : Nat) (i : Instr) : (s.later n i).undefined = s.undefined := rfl
@[simp] theorem State.later_poison (s : State) (n : Nat) (i : Instr) : (s.later n i).poison = s.poison := rfl
@[simp] theorem State.later_dieE (s : State) (n : Nat) (i : Instr) : (s.later n i).dieE = s.dieE := rfl
@[simp] theorem State.later_keySlots (s : State) (n : Nat) (i : Instr) : (s.later n i).keySlots = s.keySlots := rfl
@[simp] theorem State.later_cellar (s : State) (n : Nat) (i : Instr) : (s.later n i).cellar = s.cellar := rfl
@[simp] theorem State.later_cellarPoison (s : State) (n : Nat) (i : Instr) : (s.later n i).cellarPoison = s.cellarPoison := rfl
@[simp] theorem State.later_cellarWins (s : State) (n : Nat) (i : Instr) : (s.later n i).cellarWins = s.cellarWins := rfl
@[simp] theorem State.later_cellarReqs (s : State) (n : Nat) (i : Instr) : (s.later n i).cellarReqs = s.cellarReqs := rfl
@[simp] theorem State.later_dieTlb (s : State) (n : Nat) (i : Instr) : (s.later n i).dieTlb = s.dieTlb := rfl
@[simp] theorem State.later_walks (s : State) (n : Nat) (i : Instr) : (s.later n i).walks = s.walks := rfl
@[simp] theorem State.later_deferReqs (s : State) (n : Nat) (i : Instr) : (s.later n i).deferReqs = s.deferReqs := rfl
@[simp] theorem State.later_windows (s : State) (n : Nat) (i : Instr) : (s.later n i).windows = s.windows := rfl
@[simp] theorem State.later_peerTable (s : State) (n : Nat) (i : Instr) : (s.later n i).peerTable = s.peerTable := rfl
@[simp] theorem State.later_routes (s : State) (n : Nat) (i : Instr) : (s.later n i).routes = s.routes := rfl
@[simp] theorem State.later_peersLost (s : State) (n : Nat) (i : Instr) : (s.later n i).peersLost = s.peersLost := rfl
@[simp] theorem State.later_oldPath (s : State) (n : Nat) (i : Instr) : (s.later n i).oldPath = s.oldPath := rfl
@[simp] theorem State.later_heldOut (s : State) (n : Nat) (i : Instr) : (s.later n i).heldOut = s.heldOut := rfl
@[simp] theorem State.later_linkErrors (s : State) (n : Nat) (i : Instr) : (s.later n i).linkErrors = s.linkErrors := rfl
@[simp] theorem State.later_uetDrops (s : State) (n : Nat) (i : Instr) : (s.later n i).uetDrops = s.uetDrops := rfl
@[simp] theorem State.later_discards (s : State) (n : Nat) (i : Instr) : (s.later n i).discards = s.discards := rfl
@[simp] theorem State.later_rejections (s : State) (n : Nat) (i : Instr) : (s.later n i).rejections = s.rejections := rfl
@[simp] theorem State.later_lockouts (s : State) (n : Nat) (i : Instr) : (s.later n i).lockouts = s.lockouts := rfl
@[simp] theorem State.later_outbox (s : State) (n : Nat) (i : Instr) : (s.later n i).outbox = s.outbox := rfl
@[simp] theorem State.later_ingressQ (s : State) (n : Nat) (i : Instr) : (s.later n i).ingressQ = s.ingressQ := rfl
@[simp] theorem State.later_msgs (s : State) (n : Nat) (i : Instr) : (s.later n i).msgs = s.msgs := rfl
@[simp] theorem State.later_refusals (s : State) (n : Nat) (i : Instr) : (s.later n i).refusals = s.refusals := rfl
@[simp] theorem State.later_tokens (s : State) (n : Nat) (i : Instr) : (s.later n i).tokens = s.tokens := rfl
@[simp] theorem State.later_turn (s : State) (n : Nat) (i : Instr) : (s.later n i).turn = s.turn := rfl
@[simp] theorem State.later_ingressRes (s : State) (n : Nat) (i : Instr) : (s.later n i).ingressRes = s.ingressRes := rfl
@[simp] theorem State.later_accounts (s : State) (n : Nat) (i : Instr) : (s.later n i).accounts = s.accounts := rfl
@[simp] theorem State.later_devAcct (s : State) (n : Nat) (i : Instr) : (s.later n i).devAcct = s.devAcct := rfl
@[simp] theorem State.later_snapshots (s : State) (n : Nat) (i : Instr) : (s.later n i).snapshots = s.snapshots := rfl
@[simp] theorem State.later_reassigned (s : State) (n : Nat) (i : Instr) : (s.later n i).reassigned = s.reassigned := rfl
@[simp] theorem State.later_plans (s : State) (n : Nat) (i : Instr) : (s.later n i).plans = s.plans := rfl
@[simp] theorem State.later_plansInForce (s : State) (n : Nat) (i : Instr) : (s.later n i).plansInForce = s.plansInForce := rfl
@[simp] theorem State.later_slopeUp (s : State) (n : Nat) (i : Instr) : (s.later n i).slopeUp = s.slopeUp := rfl
@[simp] theorem State.later_slopeDown (s : State) (n : Nat) (i : Instr) : (s.later n i).slopeDown = s.slopeDown := rfl
@[simp] theorem State.later_agenda (s : State) (n : Nat) (i : Instr) : (s.later n i).agenda = s.agenda := rfl
@[simp] theorem State.later_pending (s : State) (n : Nat) (i : Instr) : (s.later n i).pending = s.pending ++ [⟨s.base + n, i⟩] := rfl
@[simp] theorem State.later_inputs (s : State) (n : Nat) (i : Instr) : (s.later n i).inputs = s.inputs := rfl
@[simp] theorem State.later_fresh (s : State) (n : Nat) (i : Instr) : (s.later n i).fresh = s.fresh := rfl
@[simp] theorem State.later_nextId (s : State) (n : Nat) (i : Instr) : (s.later n i).nextId = s.nextId := rfl
@[simp] theorem State.later_cycleId (s : State) (n : Nat) (i : Instr) : (s.later n i).cycleId = s.cycleId := rfl
@[simp] theorem State.later_fills (s : State) (n : Nat) (i : Instr) : (s.later n i).fills = s.fills := rfl

/-! ### laterFree -/

@[simp] theorem State.laterFree_base (s : State) (n : Nat) (i : Instr) : (s.laterFree n i).base = s.base := rfl
@[simp] theorem State.laterFree_clusters (s : State) (n : Nat) (i : Instr) : (s.laterFree n i).clusters = s.clusters := rfl
@[simp] theorem State.laterFree_booted (s : State) (n : Nat) (i : Instr) : (s.laterFree n i).booted = s.booted := rfl
@[simp] theorem State.laterFree_bootFailed (s : State) (n : Nat) (i : Instr) : (s.laterFree n i).bootFailed = s.bootFailed := rfl
@[simp] theorem State.laterFree_bootStatus (s : State) (n : Nat) (i : Instr) : (s.laterFree n i).bootStatus = s.bootStatus := rfl
@[simp] theorem State.laterFree_parkedDev (s : State) (n : Nat) (i : Instr) : (s.laterFree n i).parkedDev = s.parkedDev := rfl
@[simp] theorem State.laterFree_flash (s : State) (n : Nat) (i : Instr) : (s.laterFree n i).flash = s.flash := rfl
@[simp] theorem State.laterFree_devid (s : State) (n : Nat) (i : Instr) : (s.laterFree n i).devid = s.devid := rfl
@[simp] theorem State.laterFree_podsize (s : State) (n : Nat) (i : Instr) : (s.laterFree n i).podsize = s.podsize := rfl
@[simp] theorem State.laterFree_hbtoNs (s : State) (n : Nat) (i : Instr) : (s.laterFree n i).hbtoNs = s.hbtoNs := rfl
@[simp] theorem State.laterFree_iver (s : State) (n : Nat) (i : Instr) : (s.laterFree n i).iver = s.iver := rfl
@[simp] theorem State.laterFree_laneMap (s : State) (n : Nat) (i : Instr) : (s.laterFree n i).laneMap = s.laneMap := rfl
@[simp] theorem State.laterFree_svs (s : State) (n : Nat) (i : Instr) : (s.laterFree n i).svs = s.svs := rfl
@[simp] theorem State.laterFree_mailboxes (s : State) (n : Nat) (i : Instr) : (s.laterFree n i).mailboxes = s.mailboxes := rfl
@[simp] theorem State.laterFree_busy (s : State) (n : Nat) (i : Instr) : (s.laterFree n i).busy = s.busy := rfl
@[simp] theorem State.laterFree_events (s : State) (n : Nat) (i : Instr) : (s.laterFree n i).events = s.events := rfl
@[simp] theorem State.laterFree_devRegs (s : State) (n : Nat) (i : Instr) : (s.laterFree n i).devRegs = s.devRegs := rfl
@[simp] theorem State.laterFree_queues (s : State) (n : Nat) (i : Instr) : (s.laterFree n i).queues = s.queues := rfl
@[simp] theorem State.laterFree_queueKeys (s : State) (n : Nat) (i : Instr) : (s.laterFree n i).queueKeys = s.queueKeys := rfl
@[simp] theorem State.laterFree_knockKeys (s : State) (n : Nat) (i : Instr) : (s.laterFree n i).knockKeys = s.knockKeys := rfl
@[simp] theorem State.laterFree_cqKeys (s : State) (n : Nat) (i : Instr) : (s.laterFree n i).cqKeys = s.cqKeys := rfl
@[simp] theorem State.laterFree_wqUnits (s : State) (n : Nat) (i : Instr) : (s.laterFree n i).wqUnits = s.wqUnits := rfl
@[simp] theorem State.laterFree_contexts (s : State) (n : Nat) (i : Instr) : (s.laterFree n i).contexts = s.contexts := rfl
@[simp] theorem State.laterFree_launches (s : State) (n : Nat) (i : Instr) : (s.laterFree n i).launches = s.launches := rfl
@[simp] theorem State.laterFree_teams (s : State) (n : Nat) (i : Instr) : (s.laterFree n i).teams = s.teams := rfl
@[simp] theorem State.laterFree_warps (s : State) (n : Nat) (i : Instr) : (s.laterFree n i).warps = s.warps := rfl
@[simp] theorem State.laterFree_issuing (s : State) (n : Nat) (i : Instr) : (s.laterFree n i).issuing = s.issuing := rfl
@[simp] theorem State.laterFree_ops (s : State) (n : Nat) (i : Instr) : (s.laterFree n i).ops = s.ops := rfl
@[simp] theorem State.laterFree_cores (s : State) (n : Nat) (i : Instr) : (s.laterFree n i).cores = s.cores := rfl
@[simp] theorem State.laterFree_spares (s : State) (n : Nat) (i : Instr) : (s.laterFree n i).spares = s.spares := rfl
@[simp] theorem State.laterFree_preempts (s : State) (n : Nat) (i : Instr) : (s.laterFree n i).preempts = s.preempts := rfl
@[simp] theorem State.laterFree_hbm (s : State) (n : Nat) (i : Instr) : (s.laterFree n i).hbm = s.hbm := rfl
@[simp] theorem State.laterFree_l2 (s : State) (n : Nat) (i : Instr) : (s.laterFree n i).l2 = s.l2 := rfl
@[simp] theorem State.laterFree_undefined (s : State) (n : Nat) (i : Instr) : (s.laterFree n i).undefined = s.undefined := rfl
@[simp] theorem State.laterFree_poison (s : State) (n : Nat) (i : Instr) : (s.laterFree n i).poison = s.poison := rfl
@[simp] theorem State.laterFree_dieE (s : State) (n : Nat) (i : Instr) : (s.laterFree n i).dieE = s.dieE := rfl
@[simp] theorem State.laterFree_keySlots (s : State) (n : Nat) (i : Instr) : (s.laterFree n i).keySlots = s.keySlots := rfl
@[simp] theorem State.laterFree_cellar (s : State) (n : Nat) (i : Instr) : (s.laterFree n i).cellar = s.cellar := rfl
@[simp] theorem State.laterFree_cellarPoison (s : State) (n : Nat) (i : Instr) : (s.laterFree n i).cellarPoison = s.cellarPoison := rfl
@[simp] theorem State.laterFree_cellarWins (s : State) (n : Nat) (i : Instr) : (s.laterFree n i).cellarWins = s.cellarWins := rfl
@[simp] theorem State.laterFree_cellarReqs (s : State) (n : Nat) (i : Instr) : (s.laterFree n i).cellarReqs = s.cellarReqs := rfl
@[simp] theorem State.laterFree_dieTlb (s : State) (n : Nat) (i : Instr) : (s.laterFree n i).dieTlb = s.dieTlb := rfl
@[simp] theorem State.laterFree_walks (s : State) (n : Nat) (i : Instr) : (s.laterFree n i).walks = s.walks := rfl
@[simp] theorem State.laterFree_deferReqs (s : State) (n : Nat) (i : Instr) : (s.laterFree n i).deferReqs = s.deferReqs := rfl
@[simp] theorem State.laterFree_windows (s : State) (n : Nat) (i : Instr) : (s.laterFree n i).windows = s.windows := rfl
@[simp] theorem State.laterFree_peerTable (s : State) (n : Nat) (i : Instr) : (s.laterFree n i).peerTable = s.peerTable := rfl
@[simp] theorem State.laterFree_routes (s : State) (n : Nat) (i : Instr) : (s.laterFree n i).routes = s.routes := rfl
@[simp] theorem State.laterFree_peersLost (s : State) (n : Nat) (i : Instr) : (s.laterFree n i).peersLost = s.peersLost := rfl
@[simp] theorem State.laterFree_oldPath (s : State) (n : Nat) (i : Instr) : (s.laterFree n i).oldPath = s.oldPath := rfl
@[simp] theorem State.laterFree_heldOut (s : State) (n : Nat) (i : Instr) : (s.laterFree n i).heldOut = s.heldOut := rfl
@[simp] theorem State.laterFree_linkErrors (s : State) (n : Nat) (i : Instr) : (s.laterFree n i).linkErrors = s.linkErrors := rfl
@[simp] theorem State.laterFree_uetDrops (s : State) (n : Nat) (i : Instr) : (s.laterFree n i).uetDrops = s.uetDrops := rfl
@[simp] theorem State.laterFree_discards (s : State) (n : Nat) (i : Instr) : (s.laterFree n i).discards = s.discards := rfl
@[simp] theorem State.laterFree_rejections (s : State) (n : Nat) (i : Instr) : (s.laterFree n i).rejections = s.rejections := rfl
@[simp] theorem State.laterFree_lockouts (s : State) (n : Nat) (i : Instr) : (s.laterFree n i).lockouts = s.lockouts := rfl
@[simp] theorem State.laterFree_outbox (s : State) (n : Nat) (i : Instr) : (s.laterFree n i).outbox = s.outbox := rfl
@[simp] theorem State.laterFree_ingressQ (s : State) (n : Nat) (i : Instr) : (s.laterFree n i).ingressQ = s.ingressQ := rfl
@[simp] theorem State.laterFree_msgs (s : State) (n : Nat) (i : Instr) : (s.laterFree n i).msgs = s.msgs := rfl
@[simp] theorem State.laterFree_refusals (s : State) (n : Nat) (i : Instr) : (s.laterFree n i).refusals = s.refusals := rfl
@[simp] theorem State.laterFree_tokens (s : State) (n : Nat) (i : Instr) : (s.laterFree n i).tokens = s.tokens := rfl
@[simp] theorem State.laterFree_turn (s : State) (n : Nat) (i : Instr) : (s.laterFree n i).turn = s.turn := rfl
@[simp] theorem State.laterFree_ingressRes (s : State) (n : Nat) (i : Instr) : (s.laterFree n i).ingressRes = s.ingressRes := rfl
@[simp] theorem State.laterFree_accounts (s : State) (n : Nat) (i : Instr) : (s.laterFree n i).accounts = s.accounts := rfl
@[simp] theorem State.laterFree_devAcct (s : State) (n : Nat) (i : Instr) : (s.laterFree n i).devAcct = s.devAcct := rfl
@[simp] theorem State.laterFree_snapshots (s : State) (n : Nat) (i : Instr) : (s.laterFree n i).snapshots = s.snapshots := rfl
@[simp] theorem State.laterFree_reassigned (s : State) (n : Nat) (i : Instr) : (s.laterFree n i).reassigned = s.reassigned := rfl
@[simp] theorem State.laterFree_plans (s : State) (n : Nat) (i : Instr) : (s.laterFree n i).plans = s.plans := rfl
@[simp] theorem State.laterFree_plansInForce (s : State) (n : Nat) (i : Instr) : (s.laterFree n i).plansInForce = s.plansInForce := rfl
@[simp] theorem State.laterFree_slopeUp (s : State) (n : Nat) (i : Instr) : (s.laterFree n i).slopeUp = s.slopeUp := rfl
@[simp] theorem State.laterFree_slopeDown (s : State) (n : Nat) (i : Instr) : (s.laterFree n i).slopeDown = s.slopeDown := rfl
@[simp] theorem State.laterFree_agenda (s : State) (n : Nat) (i : Instr) : (s.laterFree n i).agenda = s.agenda := rfl
@[simp] theorem State.laterFree_pending (s : State) (n : Nat) (i : Instr) : (s.laterFree n i).pending = s.pending ++ [⟨s.base + n + Config.delay s.fresh, i⟩] := rfl
@[simp] theorem State.laterFree_inputs (s : State) (n : Nat) (i : Instr) : (s.laterFree n i).inputs = s.inputs := rfl
@[simp] theorem State.laterFree_fresh (s : State) (n : Nat) (i : Instr) : (s.laterFree n i).fresh = s.fresh + 1 := rfl
@[simp] theorem State.laterFree_nextId (s : State) (n : Nat) (i : Instr) : (s.laterFree n i).nextId = s.nextId := rfl
@[simp] theorem State.laterFree_cycleId (s : State) (n : Nat) (i : Instr) : (s.laterFree n i).cycleId = s.cycleId := rfl
@[simp] theorem State.laterFree_fills (s : State) (n : Nat) (i : Instr) : (s.laterFree n i).fills = s.fills := rfl

/-! ### bump -/

@[simp] theorem State.bump_base (s : State) : (s.bump).base = s.base := rfl
@[simp] theorem State.bump_clusters (s : State) : (s.bump).clusters = s.clusters := rfl
@[simp] theorem State.bump_booted (s : State) : (s.bump).booted = s.booted := rfl
@[simp] theorem State.bump_bootFailed (s : State) : (s.bump).bootFailed = s.bootFailed := rfl
@[simp] theorem State.bump_bootStatus (s : State) : (s.bump).bootStatus = s.bootStatus := rfl
@[simp] theorem State.bump_parkedDev (s : State) : (s.bump).parkedDev = s.parkedDev := rfl
@[simp] theorem State.bump_flash (s : State) : (s.bump).flash = s.flash := rfl
@[simp] theorem State.bump_devid (s : State) : (s.bump).devid = s.devid := rfl
@[simp] theorem State.bump_podsize (s : State) : (s.bump).podsize = s.podsize := rfl
@[simp] theorem State.bump_hbtoNs (s : State) : (s.bump).hbtoNs = s.hbtoNs := rfl
@[simp] theorem State.bump_iver (s : State) : (s.bump).iver = s.iver := rfl
@[simp] theorem State.bump_laneMap (s : State) : (s.bump).laneMap = s.laneMap := rfl
@[simp] theorem State.bump_svs (s : State) : (s.bump).svs = s.svs := rfl
@[simp] theorem State.bump_mailboxes (s : State) : (s.bump).mailboxes = s.mailboxes := rfl
@[simp] theorem State.bump_busy (s : State) : (s.bump).busy = s.busy := rfl
@[simp] theorem State.bump_events (s : State) : (s.bump).events = s.events := rfl
@[simp] theorem State.bump_devRegs (s : State) : (s.bump).devRegs = s.devRegs := rfl
@[simp] theorem State.bump_queues (s : State) : (s.bump).queues = s.queues := rfl
@[simp] theorem State.bump_queueKeys (s : State) : (s.bump).queueKeys = s.queueKeys := rfl
@[simp] theorem State.bump_knockKeys (s : State) : (s.bump).knockKeys = s.knockKeys := rfl
@[simp] theorem State.bump_cqKeys (s : State) : (s.bump).cqKeys = s.cqKeys := rfl
@[simp] theorem State.bump_wqUnits (s : State) : (s.bump).wqUnits = s.wqUnits := rfl
@[simp] theorem State.bump_contexts (s : State) : (s.bump).contexts = s.contexts := rfl
@[simp] theorem State.bump_launches (s : State) : (s.bump).launches = s.launches := rfl
@[simp] theorem State.bump_teams (s : State) : (s.bump).teams = s.teams := rfl
@[simp] theorem State.bump_warps (s : State) : (s.bump).warps = s.warps := rfl
@[simp] theorem State.bump_issuing (s : State) : (s.bump).issuing = s.issuing := rfl
@[simp] theorem State.bump_ops (s : State) : (s.bump).ops = s.ops := rfl
@[simp] theorem State.bump_cores (s : State) : (s.bump).cores = s.cores := rfl
@[simp] theorem State.bump_spares (s : State) : (s.bump).spares = s.spares := rfl
@[simp] theorem State.bump_preempts (s : State) : (s.bump).preempts = s.preempts := rfl
@[simp] theorem State.bump_hbm (s : State) : (s.bump).hbm = s.hbm := rfl
@[simp] theorem State.bump_l2 (s : State) : (s.bump).l2 = s.l2 := rfl
@[simp] theorem State.bump_undefined (s : State) : (s.bump).undefined = s.undefined := rfl
@[simp] theorem State.bump_poison (s : State) : (s.bump).poison = s.poison := rfl
@[simp] theorem State.bump_dieE (s : State) : (s.bump).dieE = s.dieE := rfl
@[simp] theorem State.bump_keySlots (s : State) : (s.bump).keySlots = s.keySlots := rfl
@[simp] theorem State.bump_cellar (s : State) : (s.bump).cellar = s.cellar := rfl
@[simp] theorem State.bump_cellarPoison (s : State) : (s.bump).cellarPoison = s.cellarPoison := rfl
@[simp] theorem State.bump_cellarWins (s : State) : (s.bump).cellarWins = s.cellarWins := rfl
@[simp] theorem State.bump_cellarReqs (s : State) : (s.bump).cellarReqs = s.cellarReqs := rfl
@[simp] theorem State.bump_dieTlb (s : State) : (s.bump).dieTlb = s.dieTlb := rfl
@[simp] theorem State.bump_walks (s : State) : (s.bump).walks = s.walks := rfl
@[simp] theorem State.bump_deferReqs (s : State) : (s.bump).deferReqs = s.deferReqs := rfl
@[simp] theorem State.bump_windows (s : State) : (s.bump).windows = s.windows := rfl
@[simp] theorem State.bump_peerTable (s : State) : (s.bump).peerTable = s.peerTable := rfl
@[simp] theorem State.bump_routes (s : State) : (s.bump).routes = s.routes := rfl
@[simp] theorem State.bump_peersLost (s : State) : (s.bump).peersLost = s.peersLost := rfl
@[simp] theorem State.bump_oldPath (s : State) : (s.bump).oldPath = s.oldPath := rfl
@[simp] theorem State.bump_heldOut (s : State) : (s.bump).heldOut = s.heldOut := rfl
@[simp] theorem State.bump_linkErrors (s : State) : (s.bump).linkErrors = s.linkErrors := rfl
@[simp] theorem State.bump_uetDrops (s : State) : (s.bump).uetDrops = s.uetDrops := rfl
@[simp] theorem State.bump_discards (s : State) : (s.bump).discards = s.discards := rfl
@[simp] theorem State.bump_rejections (s : State) : (s.bump).rejections = s.rejections := rfl
@[simp] theorem State.bump_lockouts (s : State) : (s.bump).lockouts = s.lockouts := rfl
@[simp] theorem State.bump_outbox (s : State) : (s.bump).outbox = s.outbox := rfl
@[simp] theorem State.bump_ingressQ (s : State) : (s.bump).ingressQ = s.ingressQ := rfl
@[simp] theorem State.bump_msgs (s : State) : (s.bump).msgs = s.msgs := rfl
@[simp] theorem State.bump_refusals (s : State) : (s.bump).refusals = s.refusals := rfl
@[simp] theorem State.bump_tokens (s : State) : (s.bump).tokens = s.tokens := rfl
@[simp] theorem State.bump_turn (s : State) : (s.bump).turn = s.turn := rfl
@[simp] theorem State.bump_ingressRes (s : State) : (s.bump).ingressRes = s.ingressRes := rfl
@[simp] theorem State.bump_accounts (s : State) : (s.bump).accounts = s.accounts := rfl
@[simp] theorem State.bump_devAcct (s : State) : (s.bump).devAcct = s.devAcct := rfl
@[simp] theorem State.bump_snapshots (s : State) : (s.bump).snapshots = s.snapshots := rfl
@[simp] theorem State.bump_reassigned (s : State) : (s.bump).reassigned = s.reassigned := rfl
@[simp] theorem State.bump_plans (s : State) : (s.bump).plans = s.plans := rfl
@[simp] theorem State.bump_plansInForce (s : State) : (s.bump).plansInForce = s.plansInForce := rfl
@[simp] theorem State.bump_slopeUp (s : State) : (s.bump).slopeUp = s.slopeUp := rfl
@[simp] theorem State.bump_slopeDown (s : State) : (s.bump).slopeDown = s.slopeDown := rfl
@[simp] theorem State.bump_agenda (s : State) : (s.bump).agenda = s.agenda := rfl
@[simp] theorem State.bump_pending (s : State) : (s.bump).pending = s.pending := rfl
@[simp] theorem State.bump_inputs (s : State) : (s.bump).inputs = s.inputs := rfl
@[simp] theorem State.bump_fresh (s : State) : (s.bump).fresh = s.fresh := rfl
@[simp] theorem State.bump_nextId (s : State) : (s.bump).nextId = s.nextId + 1 := rfl
@[simp] theorem State.bump_cycleId (s : State) : (s.bump).cycleId = s.cycleId := rfl
@[simp] theorem State.bump_fills (s : State) : (s.bump).fills = s.fills := rfl

/-! ### used -/

@[simp] theorem State.used_base (s : State) : (s.used).base = s.base := rfl
@[simp] theorem State.used_clusters (s : State) : (s.used).clusters = s.clusters := rfl
@[simp] theorem State.used_booted (s : State) : (s.used).booted = s.booted := rfl
@[simp] theorem State.used_bootFailed (s : State) : (s.used).bootFailed = s.bootFailed := rfl
@[simp] theorem State.used_bootStatus (s : State) : (s.used).bootStatus = s.bootStatus := rfl
@[simp] theorem State.used_parkedDev (s : State) : (s.used).parkedDev = s.parkedDev := rfl
@[simp] theorem State.used_flash (s : State) : (s.used).flash = s.flash := rfl
@[simp] theorem State.used_devid (s : State) : (s.used).devid = s.devid := rfl
@[simp] theorem State.used_podsize (s : State) : (s.used).podsize = s.podsize := rfl
@[simp] theorem State.used_hbtoNs (s : State) : (s.used).hbtoNs = s.hbtoNs := rfl
@[simp] theorem State.used_iver (s : State) : (s.used).iver = s.iver := rfl
@[simp] theorem State.used_laneMap (s : State) : (s.used).laneMap = s.laneMap := rfl
@[simp] theorem State.used_svs (s : State) : (s.used).svs = s.svs := rfl
@[simp] theorem State.used_mailboxes (s : State) : (s.used).mailboxes = s.mailboxes := rfl
@[simp] theorem State.used_busy (s : State) : (s.used).busy = s.busy := rfl
@[simp] theorem State.used_events (s : State) : (s.used).events = s.events := rfl
@[simp] theorem State.used_devRegs (s : State) : (s.used).devRegs = s.devRegs := rfl
@[simp] theorem State.used_queues (s : State) : (s.used).queues = s.queues := rfl
@[simp] theorem State.used_queueKeys (s : State) : (s.used).queueKeys = s.queueKeys := rfl
@[simp] theorem State.used_knockKeys (s : State) : (s.used).knockKeys = s.knockKeys := rfl
@[simp] theorem State.used_cqKeys (s : State) : (s.used).cqKeys = s.cqKeys := rfl
@[simp] theorem State.used_wqUnits (s : State) : (s.used).wqUnits = s.wqUnits := rfl
@[simp] theorem State.used_contexts (s : State) : (s.used).contexts = s.contexts := rfl
@[simp] theorem State.used_launches (s : State) : (s.used).launches = s.launches := rfl
@[simp] theorem State.used_teams (s : State) : (s.used).teams = s.teams := rfl
@[simp] theorem State.used_warps (s : State) : (s.used).warps = s.warps := rfl
@[simp] theorem State.used_issuing (s : State) : (s.used).issuing = s.issuing := rfl
@[simp] theorem State.used_ops (s : State) : (s.used).ops = s.ops := rfl
@[simp] theorem State.used_cores (s : State) : (s.used).cores = s.cores := rfl
@[simp] theorem State.used_spares (s : State) : (s.used).spares = s.spares := rfl
@[simp] theorem State.used_preempts (s : State) : (s.used).preempts = s.preempts := rfl
@[simp] theorem State.used_hbm (s : State) : (s.used).hbm = s.hbm := rfl
@[simp] theorem State.used_l2 (s : State) : (s.used).l2 = s.l2 := rfl
@[simp] theorem State.used_undefined (s : State) : (s.used).undefined = s.undefined := rfl
@[simp] theorem State.used_poison (s : State) : (s.used).poison = s.poison := rfl
@[simp] theorem State.used_dieE (s : State) : (s.used).dieE = s.dieE := rfl
@[simp] theorem State.used_keySlots (s : State) : (s.used).keySlots = s.keySlots := rfl
@[simp] theorem State.used_cellar (s : State) : (s.used).cellar = s.cellar := rfl
@[simp] theorem State.used_cellarPoison (s : State) : (s.used).cellarPoison = s.cellarPoison := rfl
@[simp] theorem State.used_cellarWins (s : State) : (s.used).cellarWins = s.cellarWins := rfl
@[simp] theorem State.used_cellarReqs (s : State) : (s.used).cellarReqs = s.cellarReqs := rfl
@[simp] theorem State.used_dieTlb (s : State) : (s.used).dieTlb = s.dieTlb := rfl
@[simp] theorem State.used_walks (s : State) : (s.used).walks = s.walks := rfl
@[simp] theorem State.used_deferReqs (s : State) : (s.used).deferReqs = s.deferReqs := rfl
@[simp] theorem State.used_windows (s : State) : (s.used).windows = s.windows := rfl
@[simp] theorem State.used_peerTable (s : State) : (s.used).peerTable = s.peerTable := rfl
@[simp] theorem State.used_routes (s : State) : (s.used).routes = s.routes := rfl
@[simp] theorem State.used_peersLost (s : State) : (s.used).peersLost = s.peersLost := rfl
@[simp] theorem State.used_oldPath (s : State) : (s.used).oldPath = s.oldPath := rfl
@[simp] theorem State.used_heldOut (s : State) : (s.used).heldOut = s.heldOut := rfl
@[simp] theorem State.used_linkErrors (s : State) : (s.used).linkErrors = s.linkErrors := rfl
@[simp] theorem State.used_uetDrops (s : State) : (s.used).uetDrops = s.uetDrops := rfl
@[simp] theorem State.used_discards (s : State) : (s.used).discards = s.discards := rfl
@[simp] theorem State.used_rejections (s : State) : (s.used).rejections = s.rejections := rfl
@[simp] theorem State.used_lockouts (s : State) : (s.used).lockouts = s.lockouts := rfl
@[simp] theorem State.used_outbox (s : State) : (s.used).outbox = s.outbox := rfl
@[simp] theorem State.used_ingressQ (s : State) : (s.used).ingressQ = s.ingressQ := rfl
@[simp] theorem State.used_msgs (s : State) : (s.used).msgs = s.msgs := rfl
@[simp] theorem State.used_refusals (s : State) : (s.used).refusals = s.refusals := rfl
@[simp] theorem State.used_tokens (s : State) : (s.used).tokens = s.tokens := rfl
@[simp] theorem State.used_turn (s : State) : (s.used).turn = s.turn := rfl
@[simp] theorem State.used_ingressRes (s : State) : (s.used).ingressRes = s.ingressRes := rfl
@[simp] theorem State.used_accounts (s : State) : (s.used).accounts = s.accounts := rfl
@[simp] theorem State.used_devAcct (s : State) : (s.used).devAcct = s.devAcct := rfl
@[simp] theorem State.used_snapshots (s : State) : (s.used).snapshots = s.snapshots := rfl
@[simp] theorem State.used_reassigned (s : State) : (s.used).reassigned = s.reassigned := rfl
@[simp] theorem State.used_plans (s : State) : (s.used).plans = s.plans := rfl
@[simp] theorem State.used_plansInForce (s : State) : (s.used).plansInForce = s.plansInForce := rfl
@[simp] theorem State.used_slopeUp (s : State) : (s.used).slopeUp = s.slopeUp := rfl
@[simp] theorem State.used_slopeDown (s : State) : (s.used).slopeDown = s.slopeDown := rfl
@[simp] theorem State.used_agenda (s : State) : (s.used).agenda = s.agenda := rfl
@[simp] theorem State.used_pending (s : State) : (s.used).pending = s.pending := rfl
@[simp] theorem State.used_inputs (s : State) : (s.used).inputs = s.inputs := rfl
@[simp] theorem State.used_fresh (s : State) : (s.used).fresh = s.fresh + 1 := rfl
@[simp] theorem State.used_nextId (s : State) : (s.used).nextId = s.nextId := rfl
@[simp] theorem State.used_cycleId (s : State) : (s.used).cycleId = s.cycleId := rfl
@[simp] theorem State.used_fills (s : State) : (s.used).fills = s.fills := rfl

end Sys2Proof.Machine
end

