-- ==== Sys2Proof/Laws/Table.lean ====
section
/-! SUPPORT. Tables keyed by a number and byte memories: reads after writes, and that every write keeps the canonical form. -/

namespace Sys2Proof.Machine

/-! ## Tables -/

@[simp] theorem tget_tset_same {α : Type} (t : Tbl α) (n : Nat) (v : α) : tget (tset t n v) n = some v := by
  induction t with
  | nil => simp [tset, tget]
  | cons e t ih =>
    obtain ⟨k, x⟩ := e
    simp only [tset]
    split
    · simp [tget]
    · split
      · simp [tget]
      · simp_all [tget]

theorem tget_tset_other {α : Type} (t : Tbl α) {n m : Nat} (v : α) (h : m ≠ n) : tget (tset t n v) m = tget t m := by
  induction t with
  | nil => simp [tset, tget, h]
  | cons e t ih =>
    obtain ⟨k, x⟩ := e
    simp only [tset]
    split
    · subst_vars; simp [tget, h]
    · split
      · simp only [tget, h, if_false]
        split
        · rw [if_neg (by omega), if_pos (by omega)]
        · rfl
      · simp only [tget, ih]

theorem tget_tset {α : Type} (t : Tbl α) (n m : Nat) (v : α) : tget (tset t n v) m = if m = n then some v else tget t m := by
  split
  · subst_vars; simp
  · exact tget_tset_other t v ‹_›

theorem tget_tmod_same {α : Type} {t : Tbl α} {n : Nat} {v : α} (f : α → α) (h : tget t n = some v) :
    tget (tmod t n f) n = some (f v) := by simp [tmod, h]

theorem tget_tmod_other {α : Type} (t : Tbl α) {n m : Nat} (f : α → α) (h : m ≠ n) : tget (tmod t n f) m = tget t m := by
  unfold tmod
  split
  · exact tget_tset_other t _ h
  · rfl

/-- An entry of a table with a key set is the new one or one of the old ones. -/
theorem mem_tset {α : Type} {t : Tbl α} {n : Nat} {v : α} {e : Nat × α} (h : e ∈ tset t n v) : e = (n, v) ∨ e ∈ t := by
  induction t with
  | nil => simp [tset] at h; exact .inl h
  | cons d t ih =>
    obtain ⟨k, x⟩ := d
    simp only [tset] at h
    split at h
    · simp at h ⊢; tauto
    · split at h
      · simp at h ⊢; tauto
      · simp at h ⊢; tauto

/-- An entry of a table without a key is one of the old ones. -/
theorem mem_tdel {α : Type} {t : Tbl α} {n : Nat} {e : Nat × α} (h : e ∈ tdel t n) : e ∈ t := by
  induction t with
  | nil => simp [tdel] at h
  | cons d t ih =>
    obtain ⟨k, x⟩ := d
    simp only [tdel] at h
    split at h
    · exact .tail _ h
    · split at h
      · exact h
      · cases h with
        | head => exact .head _
        | tail _ h => exact .tail _ (ih h)

/-- What a read of a table answers is one of its entries. -/
theorem mem_of_tget {α : Type} {t : Tbl α} {n : Nat} {v : α} (h : tget t n = some v) : (n, v) ∈ t := by
  induction t with
  | nil => simp [tget] at h
  | cons d t ih =>
    obtain ⟨k, x⟩ := d
    simp only [tget] at h
    split at h
    · simp_all
    · split at h
      · simp at h
      · exact .tail _ (ih h)

/-- A changed entry of a table satisfies what every entry does and the change keeps. -/
theorem all_tmod {α : Type} {t : Tbl α} {n : Nat} {f : α → α} {p : α → Bool} (h : ∀ e ∈ t, p e.2 = true)
    (hf : ∀ v, p v = true → p (f v) = true) : ∀ e ∈ tmod t n f, p e.2 = true := by
  intro e he
  unfold tmod at he
  split at he
  · rcases mem_tset he with rfl | he
    · exact hf _ (h _ (mem_of_tget ‹_›))
    · exact h _ he
  · exact h _ he

/-! ## Byte memories -/

theorem cwfFrom_mono {m : List Host.Cell} {lo hi : Nat} (h : lo ≤ hi) (w : cwfFrom hi m = true) : cwfFrom lo m = true := by
  cases m with
  | nil => rfl
  | cons e m => obtain ⟨a, b⟩ := e; simp_all [cwfFrom]; omega

theorem tget_below {m : List Host.Cell} {lo a : Nat} (h : a < lo) (w : cwfFrom lo m = true) : tget m a = none := by
  cases m with
  | nil => rfl
  | cons e m =>
    obtain ⟨k, b⟩ := e
    simp [cwfFrom] at w
    simp only [tget]
    rw [if_neg (by omega), if_pos (by omega)]

theorem cwfFrom_tset {m : List Host.Cell} {lo a : Nat} {b : Byte} (w : cwfFrom lo m = true) (h : lo ≤ a) (hb : b ≠ 0) :
    cwfFrom lo (tset m a b) = true := by
  replace hb : ¬b = 0#8 := hb
  induction m generalizing lo with
  | nil => simp [tset, cwfFrom, h, hb]
  | cons e m ih =>
    obtain ⟨k, x⟩ := e
    simp [cwfFrom] at w
    simp only [tset]
    split
    · subst_vars; simp [cwfFrom, h, hb, w.2]
    · split
      · simp [cwfFrom, h, hb, w.2]; exact ⟨‹a < k›, w.1.2⟩
      · simp [cwfFrom, w.1]; exact ih w.2 (by omega)

theorem cwfFrom_tdel {m : List Host.Cell} {lo a : Nat} (w : cwfFrom lo m = true) : cwfFrom lo (tdel m a) = true := by
  induction m generalizing lo with
  | nil => rfl
  | cons e m ih =>
    obtain ⟨k, x⟩ := e
    simp [cwfFrom] at w
    simp only [tdel]
    split
    · exact cwfFrom_mono (by omega) w.2
    · split
      · simp [cwfFrom, w]
      · simp [cwfFrom, w.1]; exact ih w.2

/-- A write of a byte keeps the canonical form. -/
theorem cwf_cset {m : List Host.Cell} (a : Nat) (b : Byte) (w : cwf m = true) : cwf (cset m a b) = true := by
  unfold cset
  split
  · exact cwfFrom_tdel w
  · exact cwfFrom_tset w (Nat.zero_le _) ‹_›

theorem cwf_csetN {m : List Host.Cell} (a n v : Nat) (w : cwf m = true) : cwf (csetN m a n v) = true := by
  induction n generalizing m a v with
  | zero => exact w
  | succ n ih => exact ih _ _ (cwf_cset _ _ w)

theorem cwf_csetL {m : List Host.Cell} (a : Nat) (bs : List Byte) (w : cwf m = true) : cwf (csetL m a bs) = true := by
  induction bs generalizing m a with
  | nil => exact w
  | cons b bs ih => exact ih _ (cwf_cset _ _ w)

theorem tget_tdel_same {m : List Host.Cell} {lo a : Nat} (w : cwfFrom lo m = true) : tget (tdel m a) a = none := by
  induction m generalizing lo with
  | nil => rfl
  | cons e m ih =>
    obtain ⟨k, x⟩ := e
    simp [cwfFrom] at w
    simp only [tdel]
    split
    · exact tget_below (by omega) w.2
    · split
      · simp [tget, *]
      · simp [tget, *]; exact ih w.2

theorem tget_tdel_other {m : List Host.Cell} {lo a c : Nat} (w : cwfFrom lo m = true) (h : c ≠ a) :
    tget (tdel m a) c = tget m c := by
  induction m generalizing lo with
  | nil => rfl
  | cons e m ih =>
    obtain ⟨k, x⟩ := e
    simp [cwfFrom] at w
    simp only [tdel]
    split
    · subst_vars
      simp only [tget, h, if_false]
      split
      · exact tget_below (by omega) w.2
      · rfl
    · split
      · rfl
      · simp only [tget, ih w.2]

/-- A byte read after a write to its address is the one written. -/
theorem cget_cset_same {m : List Host.Cell} (a : Nat) (b : Byte) (w : cwf m = true) : cget (cset m a b) a = b := by
  unfold cset cget
  split
  · rw [tget_tdel_same w]; simp_all
  · simp

/-- A byte read after a write to another address is what it was. -/
theorem cget_cset_other {m : List Host.Cell} {a c : Nat} (b : Byte) (w : cwf m = true) (h : c ≠ a) :
    cget (cset m a b) c = cget m c := by
  unfold cset cget
  split
  · rw [tget_tdel_other w h]
  · rw [tget_tset_other _ _ h]

/-- A byte read after a write of n bytes that does not reach its address is what it was. -/
theorem cget_csetN_other {m : List Host.Cell} {a n v c : Nat} (w : cwf m = true) (h : c < a ∨ a + n ≤ c) :
    cget (csetN m a n v) c = cget m c := by
  induction n generalizing m a v with
  | zero => rfl
  | succ n ih =>
    simp only [csetN]
    rw [ih (cwf_cset _ _ w) (by omega), cget_cset_other _ w (by omega)]

/-- The bytes read after a write of n bytes are those written. -/
theorem cget_csetN {m : List Host.Cell} {a n v i : Nat} (w : cwf m = true) (h : i < n) :
    cget (csetN m a n v) (a + i) = BitVec.ofNat 8 (v / 256 ^ i) := by
  induction n generalizing m a v i with
  | zero => omega
  | succ n ih =>
    simp only [csetN]
    cases i with
    | zero => rw [cget_csetN_other (cwf_cset _ _ w) (by omega), Nat.add_zero, cget_cset_same _ _ w]; simp
    | succ i =>
      rw [show a + (i + 1) = (a + 1) + i by omega, ih (cwf_cset _ _ w) (by omega), Nat.div_div_eq_div_mul, ← Nat.pow_succ']

/-! ## Lists -/

theorem lmod_length {α : Type} (l : List α) (n : Nat) (f : α → α) : (lmod l n f).length = l.length := by
  induction l generalizing n with
  | nil => rfl
  | cons x l ih => cases n <;> simp [lmod, ih]

theorem getElem?_lmod_same {α : Type} (l : List α) (n : Nat) (f : α → α) : (lmod l n f)[n]? = l[n]?.map f := by
  induction l generalizing n with
  | nil => rfl
  | cons x l ih => cases n <;> simp [lmod, ih]

theorem getElem?_lmod_other {α : Type} (l : List α) {n m : Nat} (f : α → α) (h : m ≠ n) : (lmod l n f)[m]? = l[m]? := by
  induction l generalizing n m with
  | nil => rfl
  | cons x l ih =>
    cases n <;> cases m <;> simp_all [lmod]

/-- A fold keeps what each of its steps keeps. -/
theorem foldl_keeps {α β : Type} {P : β → Prop} {f : β → α → β} (h : ∀ b a, P b → P (f b a)) (l : List α) (b : β) (hb : P b) :
    P (l.foldl f b) := by
  induction l generalizing b with
  | nil => exact hb
  | cons a l ih => exact ih _ (h _ _ hb)

end Sys2Proof.Machine
end

