-- ==== Sys2Proof/Laws/Issue.lean ====
section
/-! SUPPORT. Issuing a syllable: what a passed and a failed check lead to, and a fixed-latency result put in flight. -/

namespace Sys2Proof.Machine

/-! ## Checks -/

theorem findNone_of_all {α : Type} {p : α → Bool} {l : List α} (h : ∀ x ∈ l, p x = false) : l.find? p = none := by
  simpa using h

/-- The checks every syllable makes pass when it is ready. -/
theorem Ready.common {i : Instr} {s : State} {iss : Issue} {w : Warp} (r : Ready i s iss w) : commonPre i s w iss = .ok := by
  have hf : hookFull w i = false := by
    unfold hookFull
    split
    · rename_i h n he; have := r.hooks h n he; simp; omega
    · rfl
  unfold commonPre
  rw [hf]
  simp only [Bool.false_eq_true, if_false]
  split
  · rename_i f t hfi ht
    have : (popList f).find? (fun h => (headEntry t (popKey w h) s.base).isNone) = none := by
      apply findNone_of_all
      intro h hm
      have := r.hatches f t h hfi ht hm
      cases hh : headEntry t (popKey w h) s.base <;> simp_all
    rw [this]
  · rfl

/-- A ready syllable whose own checks pass has its effect. -/
theorem withIssue_ready {i : Instr} {chk : Rd → Pre} {eff : Rd → State → State} {s : State} {iss : Issue} {w : Warp}
    (r : Ready i s iss w) (h : chk (rdOf i s w iss) = .ok) :
    withIssue i chk eff s = .next (eff (rdOf i s w iss) ((rdOf i s w iss).taken s)) := by
  have hd := r.head
  unfold withIssue
  cases hi : s.issuing with
  | nil => simp [hi] at hd
  | cons a l =>
    have : a = iss := by simpa [hi] using hd
    subst this
    simp only [r.warp, r.common, Pre.andThen, h]

/-- A ready syllable whose own checks fail does what `stopFor` says, and its bundle is put back. -/
theorem withIssue_stops {i : Instr} {chk : Rd → Pre} {eff : Rd → State → State} {s : State} {iss : Issue} {rest : List Issue}
    {w : Warp} (hi : s.issuing = iss :: rest) (hw : s.warp? iss.wid = some w) {p : Pre}
    (hp : (commonPre i s w iss).andThen (chk (rdOf i s w iss)) = p) (h : p ≠ .ok) :
    withIssue i chk eff s = .next (stopFor p { s with issuing := rest } w iss) := by
  unfold withIssue
  simp only [hi, hw]
  split
  · rename_i hq; rw [hp] at hq; exact absurd hq h
  · rw [hp]

/-- Issuing a syllable always answers a next state. -/
theorem withIssue_next (i : Instr) (chk : Rd → Pre) (eff : Rd → State → State) (s : State) :
    ∃ t, withIssue i chk eff s = .next t := by
  unfold withIssue
  split
  · exact ⟨_, rfl⟩
  · split
    · exact ⟨_, rfl⟩
    · dsimp only
      split <;> exact ⟨_, rfl⟩

/-! ## Teams and warps after an update -/

@[simp] theorem State.warp?_putWarp (s : State) (w : Warp) (k : Nat) :
    (s.putWarp w).warp? k = if k = w.wid then some w else s.warp? k := tget_tset ..

@[simp] theorem State.warp?_bump (s : State) (k : Nat) : s.bump.warp? k = s.warp? k := rfl

theorem popAll_scratch (t : Team) (w : Warp) (hs : List Nat) : (t.popAll w hs).scratch = t.scratch := by
  unfold Team.popAll
  induction hs generalizing t with
  | nil => rfl
  | cons h hs ih => exact ih _

/-- Popping hatches changes neither memory nor warps. -/
theorem taken_memKept (rd : Rd) (s : State) : MemKept s (rd.taken s) where
  bytes _ := rfl
  undefined := rfl
  poison := rfl
  cellar _ := rfl
  scratch tid a := by
    unfold scratchByte Rd.taken State.team? State.modTeam
    by_cases h : tid = rd.w.team
    · subst h
      cases ht : tget s.teams rd.w.team with
      | none => simp [tmod, ht]
      | some t => simp [tmod, ht, popAll_scratch]
    · simp [tget_tmod_other _ _ h]
  engines _ := rfl

theorem MemKept.trans {s t u : State} (h : MemKept s t) (k : MemKept t u) : MemKept s u where
  bytes a := (k.bytes a).trans (h.bytes a)
  undefined := k.undefined.trans h.undefined
  poison := k.poison.trans h.poison
  cellar a := (k.cellar a).trans (h.cellar a)
  scratch tid a := (k.scratch tid a).trans (h.scratch tid a)
  engines c := (k.engines c).trans (h.engines c)

/-- A state with the same memories, teams and cores keeps memory. -/
theorem memKept_of_eq {s t : State} (h1 : t.l2 = s.l2) (h2 : t.hbm = s.hbm) (h3 : t.undefined = s.undefined) (h4 : t.poison = s.poison)
    (h5 : t.cellar = s.cellar) (h6 : t.teams = s.teams) (h7 : t.cores = s.cores) : MemKept s t where
  bytes a := by unfold byteAt l2Data hbmLine; rw [h1, h2]
  undefined := h3
  poison := h4
  cellar a := by rw [h5]
  scratch tid a := by unfold scratchByte State.team?; rw [h6]
  engines c := by unfold State.core; rw [h7]

theorem getD_lmod (cs : List Core) (n c : Nat) (f : Core → Core) (he : ∀ k, (f k).engine = k.engine) :
    ((lmod cs n f).getD c Core.reset).engine = (cs.getD c Core.reset).engine := by
  simp only [List.getD_eq_getElem?_getD]
  by_cases h : c = n
  · subst h
    rw [getElem?_lmod_same]
    cases cs[c]? <;> simp [he]
  · rw [getElem?_lmod_other _ _ h]

/-- The V pipe held changes neither memory nor warps. -/
theorem holdV_memKept (rd : Rd) (occ : Nat) (s : State) : MemKept s (holdV rd occ s) := by
  unfold holdV
  exact {
    bytes := fun _ => rfl
    undefined := rfl
    poison := rfl
    cellar := fun _ => rfl
    scratch := fun _ _ => rfl
    engines := fun c => getD_lmod _ _ _ _ fun _ => rfl }

theorem holdV_warp? (rd : Rd) (occ : Nat) (s : State) (k : Nat) : (holdV rd occ s).warp? k = s.warp? k := by
  rfl

/-! ## Results in flight -/

/-- A V syllable that is ready puts its result in flight and changes nothing else of its warp, another warp, or memory. -/
theorem vIssue_lands {i : Instr} {f : Fields} {dst : Dst} {comp : Rd → Nat → LaneRes} {s : State} {iss : Issue} {w : Warp}
    (r : Ready i s iss w) (he : exec i s = vIssue i f dst comp s) : Lands i f dst comp s iss w := by
  have hw : (rdOf i s w iss).w = w := by unfold rdOf; split <;> rfl
  have hi : (rdOf i s w iss).iss = iss := by unfold rdOf; split <;> rfl
  have hr : exec i s = .next (vEff i f dst comp (rdOf i s w iss) ((rdOf i s w iss).taken s)) := he.trans (withIssue_ready r rfl)
  refine ⟨_, Warp.noteWrite { w with flight := w.flight ++ [⟨s.nextId, iss.tick + latency i w.width, BitVec.ofNat 64 iss.pc, dst,
    enabled (rdOf i s w iss) f, evalRes (rdOf i s w iss) f (comp (rdOf i s w iss))⟩] } dst (enabled (rdOf i s w iss) f) s.nextId,
    hr, ?_, ?_, ?_, ?_⟩
  · unfold vEff launchFlight
    rw [holdV_warp?]
    simp only [State.warp?_bump, State.warp?_putWarp, hw, hi, Warp.noteWrite]
    split <;> simp [Rd.taken]
  · unfold Warp.noteWrite; split <;> rfl
  · intro k hk
    unfold vEff launchFlight
    rw [holdV_warp?]
    simp only [State.warp?_bump, State.warp?_putWarp, hw, Warp.noteWrite]
    split <;> rfl
  · have h1 := taken_memKept (rdOf i s w iss) s
    have h2 : MemKept ((rdOf i s w iss).taken s) (launchFlight (rdOf i s w iss) dst (enabled (rdOf i s w iss) f)
        (latency i (rdOf i s w iss).w.width) (evalRes (rdOf i s w iss) f (comp (rdOf i s w iss))) ((rdOf i s w iss).taken s)) :=
      memKept_of_eq rfl rfl rfl rfl rfl rfl rfl
    exact (h1.trans h2).trans (holdV_memKept _ _ _)

end Sys2Proof.Machine
end

