-- ==== Sys2Proof/Laws/Memory.lean ====
section
/-! SUPPORT. What the operations at the homes can do: they keep the memories in canonical form, and they leave every warp and
team alone. -/

namespace Sys2Proof.Machine

/-- What every operation at a home keeps: the canonical form of HBM, the cellar, the warps, the teams and the clock. -/
structure HomeKept (s t : State) : Prop where
  hbm : cwf s.hbm = true → cwf t.hbm = true
  cellar : t.cellar = s.cellar
  warps : t.warps = s.warps
  teams : t.teams = s.teams
  base : t.base = s.base

theorem HomeKept.refl (s : State) : HomeKept s s := ⟨id, rfl, rfl, rfl, rfl⟩

theorem HomeKept.trans {s t u : State} (h : HomeKept s t) (k : HomeKept t u) : HomeKept s u :=
  ⟨fun w => k.hbm (h.hbm w), k.cellar.trans h.cellar, k.warps.trans h.warps, k.teams.trans h.teams, k.base.trans h.base⟩

theorem charge_homeKept (s : State) (ctx k n : Nat) : HomeKept s (charge s ctx k n) := by
  unfold charge
  split <;> exact ⟨id, rfl, rfl, rfl, rfl⟩

theorem chargeFill_homeKept (s : State) (ctx : Nat) : HomeKept s (chargeFill s ctx) :=
  (charge_homeKept ..).trans ((charge_homeKept ..).trans (charge_homeKept ..))

theorem uncharge_homeKept (s : State) (ctx k n : Nat) : HomeKept s (uncharge s ctx k n) := by
  unfold uncharge
  split <;> exact ⟨id, rfl, rfl, rfl, rfl⟩

theorem noteFill_homeKept (s : State) (line : Nat) (who : Asker) : HomeKept s (noteFill s line who) :=
  (chargeFill_homeKept s who.ctx).trans ⟨id, rfl, rfl, rfl, rfl⟩

theorem chargeHit_homeKept (s : State) (line : Nat) (who : Asker) : HomeKept s (chargeHit s line who) := by
  unfold chargeHit
  split
  · exact (((uncharge_homeKept ..).trans ((uncharge_homeKept ..).trans (uncharge_homeKept ..))).trans (charge_homeKept ..)).trans
      (noteFill_homeKept ..)
  · exact charge_homeKept ..

theorem writeBack_homeKept (s : State) (line : Nat) (l : L2Line) : HomeKept s (writeBack s line l) := by
  have c := (charge_homeKept s l.owner 6 1).trans (charge_homeKept (charge s l.owner 6 1) l.owner 8 128)
  unfold writeBack
  simp only
  split
  · exact .refl s
  · split
    · split
      · exact ⟨fun w => cwf_csetN _ _ _ (c.hbm w), c.cellar, c.warps, c.teams, c.base⟩
      · exact c
    · exact ⟨fun w => cwf_csetN _ _ _ (c.hbm w), c.cellar, c.warps, c.teams, c.base⟩

theorem dropLine_homeKept (s : State) (line : Nat) (l : L2Line) : HomeKept s (dropLine s line l) :=
  (writeBack_homeKept s line l).trans ⟨id, rfl, rfl, rfl, rfl⟩

theorem discardLine_homeKept (s : State) (line : Nat) (l : L2Line) : HomeKept s (discardLine s line l) := ⟨id, rfl, rfl, rfl, rfl⟩

theorem fillLine_homeKept (s : State) (line : Nat) (enc : Bool) (keyid : Nat) (low : Bool) :
    HomeKept s (fillLine s line enc keyid low) := ⟨id, rfl, rfl, rfl, rfl⟩

theorem dropSpent_homeKept (s : State) (line : Nat) (p : L2Line → Bool) : HomeKept s (dropSpent s line p) := by
  unfold dropSpent
  split
  · split
    · exact discardLine_homeKept ..
    · exact .refl s
  · exact .refl s

theorem evictLine_homeKept (s : State) (line : Nat) : HomeKept s (evictLine s line) := by
  unfold evictLine
  split
  · split
    · exact discardLine_homeKept ..
    · exact dropLine_homeKept ..
  · exact .refl s

theorem makeRoom_homeKept (s : State) (line : Nat) : HomeKept s (makeRoom s line) := by
  unfold makeRoom
  split
  · split
    · exact HomeKept.trans (t := s.used) ⟨id, rfl, rfl, rfl, rfl⟩ (evictLine_homeKept ..)
    · exact .refl s
  · exact .refl s

/-- A line brought to its home: whatever it evicts or discards, the memories stay canonical and no warp or team changes. -/
theorem homeLine_homeKept (s : State) (line : Nat) (enc : Bool) (keyid : Nat) (who : Asker) (low : Bool) :
    HomeKept s (homeLine s line enc keyid who low) := by
  unfold homeLine
  dsimp only
  refine (dropSpent_homeKept s line (·.spent.any (· < s.base))).trans ?_
  generalize dropSpent s line (·.spent.any (· < s.base)) = u
  split
  · split
    · exact chargeHit_homeKept ..
    · exact ((dropLine_homeKept ..).trans (fillLine_homeKept ..)).trans (noteFill_homeKept ..)
  · exact ((makeRoom_homeKept ..).trans (fillLine_homeKept ..)).trans (noteFill_homeKept ..)

theorem countRead_homeKept (s : State) (line : Nat) : HomeKept s (countRead s line) := by
  unfold countRead
  split
  · split
    · exact .refl s
    · exact ⟨id, rfl, rfl, rfl, rfl⟩
  · exact .refl s

theorem clearPoison_homeKept (s : State) (line b : Nat) : HomeKept s (clearPoison s line b) := ⟨id, rfl, rfl, rfl, rfl⟩

/-- A write to a line present at its home touches that line of L2 alone. -/
theorem homePut_homeKept (s : State) (line ctx : Nat) (zp : Bool) (rc : Nat) (ws : List (Nat × Byte)) (rewrite : List Nat) :
    HomeKept s (homePut s line ctx zp rc ws rewrite).s := by
  have cl : ∀ (bs : List Nat) (x : State), HomeKept x (bs.foldl (fun s b => clearPoison s line b) x) := by
    intro bs
    induction bs with
    | nil => exact fun x => .refl x
    | cons b bs ih => exact fun x => (clearPoison_homeKept x line b).trans (ih _)
  unfold homePut
  dsimp only
  cases zp
  all_goals
    simp only [Bool.false_eq_true, if_true, if_false]
    split
    · exact cl _ s
    · split
      · exact cl _ s
      · exact ⟨(cl _ s).hbm, (cl _ s).cellar, (cl _ s).warps, (cl _ s).teams, (cl _ s).base⟩

/-- A write at a home touches the line of L2 alone, beyond what bringing the line there does. -/
theorem homeWrite_homeKept (s : State) (line : Nat) (enc : Bool) (keyid : Nat) (who : Asker) (low zp : Bool) (rc : Nat)
    (ws : List (Nat × Byte)) : HomeKept s (homeWrite s line enc keyid who low zp rc ws).s :=
  ((dropSpent_homeKept s line (·.spent.isSome)).trans (homeLine_homeKept _ line enc keyid who low)).trans (homePut_homeKept ..)

/-- A write of the cellar keeps its form, and touches nothing else that the form speaks of. -/
theorem cellarPut_cwf (s : State) (off : Nat) (data : List Byte) (zp : Bool) (h : cwf s.cellar = true) :
    cwf (cellarPut s off data zp).cellar = true := by
  have one (lost : List Nat) (ws : List (Nat × Byte)) (m : List Host.Cell) (hm : cwf m = true) :
      cwf (ws.foldl (fun m w => if lost.contains (w.1 / 64) then m else cset m w.1 w.2) m) = true :=
    foldl_keeps (P := fun m => cwf m = true) (fun m w k => by
      split
      · exact k
      · exact cwf_cset _ _ k) ws m hm
  have two (lost bs : List Nat) (m : List Host.Cell) (hm : cwf m = true) :
      cwf (bs.foldl (fun m b => if lost.contains b then m else csetN m (64 * b) 64 0) m) = true :=
    foldl_keeps (P := fun m => cwf m = true) (fun m b k => by
      split
      · exact k
      · exact cwf_csetN _ _ _ k) bs m hm
  exact one _ _ _ (two _ _ _ h)

@[simp] theorem cellarPut_hbm (s : State) (off : Nat) (data : List Byte) (zp : Bool) : (cellarPut s off data zp).hbm = s.hbm := rfl
@[simp] theorem cellarPut_teams (s : State) (off : Nat) (data : List Byte) (zp : Bool) : (cellarPut s off data zp).teams = s.teams := rfl

end Sys2Proof.Machine
end

