-- ==== Sys2Proof/Laws/PerInstr.lean ====
section
/-! SUPPORT. Statements made for every constructor of Instr, one lemma each: the family Encoding says that the fields of a well-formed
syllable's encoding fit their widths (R110). -/

set_option Elab.async false
set_option linter.unusedSimpArgs false
set_option linter.unusedVariables false

namespace Sys2Proof

/-- What a well-formed syllable says of its operand C and its modifiers. -/
theorem wf_parts {i : Instr} {sh : Shape} {f : Fields} (hs : i.shape = some sh) (hf : i.fields = some f) (h : i.wf = true) :
    f.c.num < 1024 ∧ i.modOk = true ∧ i.xOk = true := by
  simp only [Instr.wf, hs, hf, Fields.fits, Bool.and_eq_true] at h
  exact ⟨num_lt _ (by tauto), by tauto, by tauto⟩

theorem optNat_lt {o : Option Nat} {n : Nat} (hn : 0 < n) (h : immOk o n = true) : o.getD 0 < n := by
  cases o <;> simp_all [immOk]

theorem posLen_lt {o : Option (Nat × Nat)} (h : fieldImmOk o = true) : posLen o < 65536 := by
  cases o <;> simp_all [fieldImmOk, posLen]; omega

end Sys2Proof

namespace Sys2Proof.Laws

/-- The fields of a well-formed syllable's encoding fit their widths. -/
def Encoding.Statement (i : Instr) : Prop :=
  ∀ e f, i.enc = some e → i.fields = some f → i.wf = true → EncRange e f

theorem Encoding.nopV (gap : Nat) : Encoding.Statement (.nopV gap) := by
  intro e f_ he hf hw
  obtain ⟨hc, hm, hx⟩ := wf_parts rfl hf hw
  cases he; cases hf
  exact ⟨by decide, by decide, by decide, by decide, hc⟩

theorem Encoding.nopM (gap : Nat) : Encoding.Statement (.nopM gap) := by
  intro e f_ he hf hw
  obtain ⟨hc, hm, hx⟩ := wf_parts rfl hf hw
  cases he; cases hf
  exact ⟨by decide, by decide, by decide, by decide, hc⟩

theorem Encoding.nopK (gap : Nat) : Encoding.Statement (.nopK gap) := by
  intro e f_ he hf hw
  obtain ⟨hc, hm, hx⟩ := wf_parts rfl hf hw
  cases he; cases hf
  exact ⟨by decide, by decide, by decide, by decide, hc⟩

theorem Encoding.nopC (gap : Nat) : Encoding.Statement (.nopC gap) := by
  intro e f_ he hf hw
  obtain ⟨hc, hm, hx⟩ := wf_parts rfl hf hw
  cases he; cases hf
  exact ⟨by decide, by decide, by decide, by decide, hc⟩

theorem Encoding.iadd (f : Fields) (sat : Bool) (uns : Bool) : Encoding.Statement (.iadd f sat uns) := by
  intro e f_ he hf hw
  obtain ⟨hc, hm, hx⟩ := wf_parts rfl hf hw
  cases he; cases hf
  have h0 := sat.toNat_le
  have h1 := uns.toNat_le
  simp [Instr.xOk, immOk] at hx
  simp only [EncRange, Option.getD_none, Option.getD_some]
  omega

theorem Encoding.isub (f : Fields) (sat : Bool) (uns : Bool) : Encoding.Statement (.isub f sat uns) := by
  intro e f_ he hf hw
  obtain ⟨hc, hm, hx⟩ := wf_parts rfl hf hw
  cases he; cases hf
  have h0 := sat.toNat_le
  have h1 := uns.toNat_le
  simp [Instr.xOk, immOk] at hx
  simp only [EncRange, Option.getD_none, Option.getD_some]
  omega

theorem Encoding.iaddc (f : Fields) (co : Bool) (sb : Bool) (k : Nat) (j : Nat) : Encoding.Statement (.iaddc f co sb k j) := by
  intro e f_ he hf hw
  obtain ⟨hc, hm, hx⟩ := wf_parts rfl hf hw
  cases he; cases hf
  have h0 := co.toNat_le
  have h1 := sb.toNat_le
  simp [Instr.xOk, immOk] at hx
  simp only [EncRange, Option.getD_none, Option.getD_some]
  omega

theorem Encoding.imul (f : Fields) (sat : Bool) (uns : Bool) : Encoding.Statement (.imul f sat uns) := by
  intro e f_ he hf hw
  obtain ⟨hc, hm, hx⟩ := wf_parts rfl hf hw
  cases he; cases hf
  have h0 := sat.toNat_le
  have h1 := uns.toNat_le
  simp [Instr.xOk, immOk] at hx
  simp only [EncRange, Option.getD_none, Option.getD_some]
  omega

theorem Encoding.imulhi (f : Fields) (uns : Bool) : Encoding.Statement (.imulhi f uns) := by
  intro e f_ he hf hw
  obtain ⟨hc, hm, hx⟩ := wf_parts rfl hf hw
  cases he; cases hf
  have h0 := uns.toNat_le
  simp [Instr.xOk, immOk] at hx
  simp only [EncRange, Option.getD_none, Option.getD_some]
  omega

theorem Encoding.imad (f : Fields) (sat : Bool) (uns : Bool) : Encoding.Statement (.imad f sat uns) := by
  intro e f_ he hf hw
  obtain ⟨hc, hm, hx⟩ := wf_parts rfl hf hw
  cases he; cases hf
  have h0 := sat.toNat_le
  have h1 := uns.toNat_le
  simp [Instr.xOk, immOk] at hx
  simp only [EncRange, Option.getD_none, Option.getD_some]
  omega

theorem Encoding.imadw (f : Fields) (uns : Bool) : Encoding.Statement (.imadw f uns) := by
  intro e f_ he hf hw
  obtain ⟨hc, hm, hx⟩ := wf_parts rfl hf hw
  cases he; cases hf
  have h0 := uns.toNat_le
  simp [Instr.xOk, immOk] at hx
  simp only [EncRange, Option.getD_none, Option.getD_some]
  omega

theorem Encoding.imin (f : Fields) (uns : Bool) : Encoding.Statement (.imin f uns) := by
  intro e f_ he hf hw
  obtain ⟨hc, hm, hx⟩ := wf_parts rfl hf hw
  cases he; cases hf
  have h0 := uns.toNat_le
  simp [Instr.xOk, immOk] at hx
  simp only [EncRange, Option.getD_none, Option.getD_some]
  omega

theorem Encoding.imax (f : Fields) (uns : Bool) : Encoding.Statement (.imax f uns) := by
  intro e f_ he hf hw
  obtain ⟨hc, hm, hx⟩ := wf_parts rfl hf hw
  cases he; cases hf
  have h0 := uns.toNat_le
  simp [Instr.xOk, immOk] at hx
  simp only [EncRange, Option.getD_none, Option.getD_some]
  omega

theorem Encoding.iabs (f : Fields) (sat : Bool) : Encoding.Statement (.iabs f sat) := by
  intro e f_ he hf hw
  obtain ⟨hc, hm, hx⟩ := wf_parts rfl hf hw
  cases he; cases hf
  have h0 := sat.toNat_le
  simp [Instr.xOk, immOk] at hx
  simp only [EncRange, Option.getD_none, Option.getD_some]
  omega

theorem Encoding.isad (f : Fields) (h : Bool) (sat : Bool) (uns : Bool) : Encoding.Statement (.isad f h sat uns) := by
  intro e f_ he hf hw
  obtain ⟨hc, hm, hx⟩ := wf_parts rfl hf hw
  cases he; cases hf
  have h0 := h.toNat_le
  have h1 := sat.toNat_le
  have h2 := uns.toNat_le
  simp [Instr.xOk, immOk] at hx
  simp only [EncRange, Option.getD_none, Option.getD_some]
  omega

theorem Encoding.idot4 (f : Fields) (au : Bool) (bu : Bool) (sat : Bool) : Encoding.Statement (.idot4 f au bu sat) := by
  intro e f_ he hf hw
  obtain ⟨hc, hm, hx⟩ := wf_parts rfl hf hw
  cases he; cases hf
  have h0 := au.toNat_le
  have h1 := bu.toNat_le
  have h2 := sat.toNat_le
  simp [Instr.xOk, immOk] at hx
  simp only [EncRange, Option.getD_none, Option.getD_some]
  omega

theorem Encoding.icmp (f : Fields) (cc : ICc) (cmb : Cmb) (uns : Bool) (j : Nat) : Encoding.Statement (.icmp f cc cmb uns j) := by
  intro e f_ he hf hw
  obtain ⟨hc, hm, hx⟩ := wf_parts rfl hf hw
  cases he; cases hf
  have h0 := cc.code_lt
  have h1 := cmb.code_lt
  have h2 := uns.toNat_le
  simp [Instr.xOk, immOk] at hx
  simp only [EncRange, Option.getD_none, Option.getD_some]
  omega

theorem Encoding.bool3 (f : Fields) (tbl : BitVec 8) : Encoding.Statement (.bool3 f tbl) := by
  intro e f_ he hf hw
  obtain ⟨hc, hm, hx⟩ := wf_parts rfl hf hw
  cases he; cases hf
  have h0 := tbl.isLt
  simp [Instr.xOk, immOk] at hx
  simp only [EncRange, Option.getD_none, Option.getD_some]
  omega

theorem Encoding.shl (f : Fields) (imm : Option Nat) : Encoding.Statement (.shl f imm) := by
  intro e f_ he hf hw
  obtain ⟨hc, hm, hx⟩ := wf_parts rfl hf hw
  cases he; cases hf
  have h0 := imm.isSome.toNat_le
  have hi : imm.getD 0 < 64 := optNat_lt (by decide) hx
  simp only [EncRange, Option.getD_none, Option.getD_some]
  omega

theorem Encoding.shr (f : Fields) (imm : Option Nat) : Encoding.Statement (.shr f imm) := by
  intro e f_ he hf hw
  obtain ⟨hc, hm, hx⟩ := wf_parts rfl hf hw
  cases he; cases hf
  have h0 := imm.isSome.toNat_le
  have hi : imm.getD 0 < 64 := optNat_lt (by decide) hx
  simp only [EncRange, Option.getD_none, Option.getD_some]
  omega

theorem Encoding.sar (f : Fields) (imm : Option Nat) : Encoding.Statement (.sar f imm) := by
  intro e f_ he hf hw
  obtain ⟨hc, hm, hx⟩ := wf_parts rfl hf hw
  cases he; cases hf
  have h0 := imm.isSome.toNat_le
  have hi : imm.getD 0 < 64 := optNat_lt (by decide) hx
  simp only [EncRange, Option.getD_none, Option.getD_some]
  omega

theorem Encoding.rotl (f : Fields) (imm : Option Nat) : Encoding.Statement (.rotl f imm) := by
  intro e f_ he hf hw
  obtain ⟨hc, hm, hx⟩ := wf_parts rfl hf hw
  cases he; cases hf
  have h0 := imm.isSome.toNat_le
  have hi : imm.getD 0 < 64 := optNat_lt (by decide) hx
  simp only [EncRange, Option.getD_none, Option.getD_some]
  omega

theorem Encoding.fshl (f : Fields) (rt : Bool) (imm : Option Nat) : Encoding.Statement (.fshl f rt imm) := by
  intro e f_ he hf hw
  obtain ⟨hc, hm, hx⟩ := wf_parts rfl hf hw
  cases he; cases hf
  have h0 := rt.toNat_le
  have h1 := imm.isSome.toNat_le
  have hi : imm.getD 0 < 64 := optNat_lt (by decide) hx
  simp only [EncRange, Option.getD_none, Option.getD_some]
  omega

theorem Encoding.bfx (f : Fields) (uns : Bool) (imm : Option (Nat × Nat)) : Encoding.Statement (.bfx f uns imm) := by
  intro e f_ he hf hw
  obtain ⟨hc, hm, hx⟩ := wf_parts rfl hf hw
  cases he; cases hf
  have h0 := uns.toNat_le
  have h1 := imm.isSome.toNat_le
  have hi := posLen_lt (o := imm) hx
  simp only [EncRange, Option.getD_none, Option.getD_some]
  omega

theorem Encoding.bfi (f : Fields) (imm : Option (Nat × Nat)) : Encoding.Statement (.bfi f imm) := by
  intro e f_ he hf hw
  obtain ⟨hc, hm, hx⟩ := wf_parts rfl hf hw
  cases he; cases hf
  have h0 := imm.isSome.toNat_le
  have hi := posLen_lt (o := imm) hx
  simp only [EncRange, Option.getD_none, Option.getD_some]
  omega

theorem Encoding.popc (f : Fields) : Encoding.Statement (.popc f) := by
  intro e f_ he hf hw
  obtain ⟨hc, hm, hx⟩ := wf_parts rfl hf hw
  cases he; cases hf
  simp [Instr.xOk, immOk] at hx
  simp only [EncRange, Option.getD_none, Option.getD_some]
  omega

theorem Encoding.clz (f : Fields) : Encoding.Statement (.clz f) := by
  intro e f_ he hf hw
  obtain ⟨hc, hm, hx⟩ := wf_parts rfl hf hw
  cases he; cases hf
  simp [Instr.xOk, immOk] at hx
  simp only [EncRange, Option.getD_none, Option.getD_some]
  omega

theorem Encoding.brev (f : Fields) : Encoding.Statement (.brev f) := by
  intro e f_ he hf hw
  obtain ⟨hc, hm, hx⟩ := wf_parts rfl hf hw
  cases he; cases hf
  simp [Instr.xOk, immOk] at hx
  simp only [EncRange, Option.getD_none, Option.getD_some]
  omega

theorem Encoding.sel (f : Fields) (k : Nat) : Encoding.Statement (.sel f k) := by
  intro e f_ he hf hw
  obtain ⟨hc, hm, hx⟩ := wf_parts rfl hf hw
  cases he; cases hf
  simp [Instr.xOk, immOk] at hx
  simp only [EncRange, Option.getD_none, Option.getD_some]
  omega

theorem Encoding.mov (f : Fields) (w64 : Bool) : Encoding.Statement (.mov f w64) := by
  intro e f_ he hf hw
  obtain ⟨hc, hm, hx⟩ := wf_parts rfl hf hw
  cases he; cases hf
  have h0 := w64.toNat_le
  simp [Instr.xOk, immOk] at hx
  simp only [EncRange, Option.getD_none, Option.getD_some]
  omega

theorem Encoding.movi (d : Opnd) (imm : Word) (u : Bool) (gap : Nat) (w64 : Bool) : Encoding.Statement (.movi d imm u gap w64) := by
  intro e f_ he hf hw
  obtain ⟨hc, hm, hx⟩ := wf_parts rfl hf hw
  cases he; cases hf
  have h0 := imm.isLt
  have h1 := u.toNat_le
  have h2 := w64.toNat_le
  have hn : Opnd.none.num < 1024 := by decide
  simp [Instr.xOk, immOk] at hx
  simp only [EncRange, Option.getD_none, Option.getD_some]
  omega

theorem Encoding.prmt (f : Fields) (imm : Option Nat) : Encoding.Statement (.prmt f imm) := by
  intro e f_ he hf hw
  obtain ⟨hc, hm, hx⟩ := wf_parts rfl hf hw
  cases he; cases hf
  have h0 := imm.isSome.toNat_le
  have hi : imm.getD 0 < 65536 := optNat_lt (by decide) hx
  simp only [EncRange, Option.getD_none, Option.getD_some]
  omega

theorem Encoding.iclamp (f : Fields) (uns : Bool) : Encoding.Statement (.iclamp f uns) := by
  intro e f_ he hf hw
  obtain ⟨hc, hm, hx⟩ := wf_parts rfl hf hw
  cases he; cases hf
  have h0 := uns.toNat_le
  simp [Instr.xOk, immOk] at hx
  simp only [EncRange, Option.getD_none, Option.getD_some]
  omega

theorem Encoding.lea (f : Fields) (uns : Bool) (chk : Bool) (sh : Nat) : Encoding.Statement (.lea f uns chk sh) := by
  intro e f_ he hf hw
  obtain ⟨hc, hm, hx⟩ := wf_parts rfl hf hw
  cases he; cases hf
  have h0 := uns.toNat_le
  have h1 := chk.toNat_le
  simp [Instr.xOk, immOk] at hx
  simp only [EncRange, Option.getD_none, Option.getD_some]
  omega

theorem Encoding.add64 (f : Fields) (uns : Bool) (chk : Bool) : Encoding.Statement (.add64 f uns chk) := by
  intro e f_ he hf hw
  obtain ⟨hc, hm, hx⟩ := wf_parts rfl hf hw
  cases he; cases hf
  have h0 := uns.toNat_le
  have h1 := chk.toNat_le
  simp [Instr.xOk, immOk] at hx
  simp only [EncRange, Option.getD_none, Option.getD_some]
  omega

theorem Encoding.sub64 (f : Fields) (uns : Bool) (chk : Bool) : Encoding.Statement (.sub64 f uns chk) := by
  intro e f_ he hf hw
  obtain ⟨hc, hm, hx⟩ := wf_parts rfl hf hw
  cases he; cases hf
  have h0 := uns.toNat_le
  have h1 := chk.toNat_le
  simp [Instr.xOk, immOk] at hx
  simp only [EncRange, Option.getD_none, Option.getD_some]
  omega

theorem Encoding.cmp64 (f : Fields) (cc : ICc) (cmb : Cmb) (uns : Bool) (j : Nat) : Encoding.Statement (.cmp64 f cc cmb uns j) := by
  intro e f_ he hf hw
  obtain ⟨hc, hm, hx⟩ := wf_parts rfl hf hw
  cases he; cases hf
  have h0 := cc.code_lt
  have h1 := cmb.code_lt
  have h2 := uns.toNat_le
  simp [Instr.xOk, immOk] at hx
  simp only [EncRange, Option.getD_none, Option.getD_some]
  omega

theorem Encoding.shl64 (f : Fields) (imm : Option Nat) : Encoding.Statement (.shl64 f imm) := by
  intro e f_ he hf hw
  obtain ⟨hc, hm, hx⟩ := wf_parts rfl hf hw
  cases he; cases hf
  have h0 := imm.isSome.toNat_le
  have hi : imm.getD 0 < 128 := optNat_lt (by decide) hx
  simp only [EncRange, Option.getD_none, Option.getD_some]
  omega

theorem Encoding.shr64 (f : Fields) (ar : Bool) (imm : Option Nat) : Encoding.Statement (.shr64 f ar imm) := by
  intro e f_ he hf hw
  obtain ⟨hc, hm, hx⟩ := wf_parts rfl hf hw
  cases he; cases hf
  have h0 := ar.toNat_le
  have h1 := imm.isSome.toNat_le
  have hi : imm.getD 0 < 128 := optNat_lt (by decide) hx
  simp only [EncRange, Option.getD_none, Option.getD_some]
  omega

theorem Encoding.mad64 (f : Fields) (uns : Bool) (chk : Bool) : Encoding.Statement (.mad64 f uns chk) := by
  intro e f_ he hf hw
  obtain ⟨hc, hm, hx⟩ := wf_parts rfl hf hw
  cases he; cases hf
  have h0 := uns.toNat_le
  have h1 := chk.toNat_le
  simp [Instr.xOk, immOk] at hx
  simp only [EncRange, Option.getD_none, Option.getD_some]
  omega

theorem Encoding.fadd (f : Fields) (fr : Fr) : Encoding.Statement (.fadd f fr) := by
  intro e f_ he hf hw
  obtain ⟨hc, hm, hx⟩ := wf_parts rfl hf hw
  cases he; cases hf
  have h0 := fr.code_lt
  simp [Instr.xOk, immOk] at hx
  simp only [EncRange, Option.getD_none, Option.getD_some]
  omega

theorem Encoding.fsub (f : Fields) (fr : Fr) : Encoding.Statement (.fsub f fr) := by
  intro e f_ he hf hw
  obtain ⟨hc, hm, hx⟩ := wf_parts rfl hf hw
  cases he; cases hf
  have h0 := fr.code_lt
  simp [Instr.xOk, immOk] at hx
  simp only [EncRange, Option.getD_none, Option.getD_some]
  omega

theorem Encoding.fmul (f : Fields) (fr : Fr) : Encoding.Statement (.fmul f fr) := by
  intro e f_ he hf hw
  obtain ⟨hc, hm, hx⟩ := wf_parts rfl hf hw
  cases he; cases hf
  have h0 := fr.code_lt
  simp [Instr.xOk, immOk] at hx
  simp only [EncRange, Option.getD_none, Option.getD_some]
  omega

theorem Encoding.ffma (f : Fields) (fr : Fr) (np : Bool) (nc : Bool) : Encoding.Statement (.ffma f fr np nc) := by
  intro e f_ he hf hw
  obtain ⟨hc, hm, hx⟩ := wf_parts rfl hf hw
  cases he; cases hf
  have h0 := fr.code_lt
  have h1 := np.toNat_le
  have h2 := nc.toNat_le
  simp [Instr.xOk, immOk] at hx
  simp only [EncRange, Option.getD_none, Option.getD_some]
  omega

theorem Encoding.fmin (f : Fields) (num : Bool) (ftz : Bool) : Encoding.Statement (.fmin f num ftz) := by
  intro e f_ he hf hw
  obtain ⟨hc, hm, hx⟩ := wf_parts rfl hf hw
  cases he; cases hf
  have h0 := num.toNat_le
  have h1 := ftz.toNat_le
  simp [Instr.xOk, immOk] at hx
  simp only [EncRange, Option.getD_none, Option.getD_some]
  omega

theorem Encoding.fmax (f : Fields) (num : Bool) (ftz : Bool) : Encoding.Statement (.fmax f num ftz) := by
  intro e f_ he hf hw
  obtain ⟨hc, hm, hx⟩ := wf_parts rfl hf hw
  cases he; cases hf
  have h0 := num.toNat_le
  have h1 := ftz.toNat_le
  simp [Instr.xOk, immOk] at hx
  simp only [EncRange, Option.getD_none, Option.getD_some]
  omega

theorem Encoding.fcmp (f : Fields) (cc : FCc) (cmb : Cmb) (ftz : Bool) (j : Nat) : Encoding.Statement (.fcmp f cc cmb ftz j) := by
  intro e f_ he hf hw
  obtain ⟨hc, hm, hx⟩ := wf_parts rfl hf hw
  cases he; cases hf
  have h0 := cc.code_lt
  have h1 := cmb.code_lt
  have h2 := ftz.toNat_le
  simp [Instr.xOk, immOk] at hx
  simp only [EncRange, Option.getD_none, Option.getD_some]
  omega

theorem Encoding.fclass (f : Fields) (d64 : Bool) (ftz : Bool) : Encoding.Statement (.fclass f d64 ftz) := by
  intro e f_ he hf hw
  obtain ⟨hc, hm, hx⟩ := wf_parts rfl hf hw
  cases he; cases hf
  have h0 := d64.toNat_le
  have h1 := ftz.toNat_le
  simp [Instr.xOk, immOk] at hx
  simp only [EncRange, Option.getD_none, Option.getD_some]
  omega

theorem Encoding.frint (f : Fields) (fr : Fr) (ex : Bool) : Encoding.Statement (.frint f fr ex) := by
  intro e f_ he hf hw
  obtain ⟨hc, hm, hx⟩ := wf_parts rfl hf hw
  cases he; cases hf
  have h0 := fr.code_lt
  have h1 := ex.toNat_le
  simp [Instr.xOk, immOk] at hx
  simp only [EncRange, Option.getD_none, Option.getD_some]
  omega

theorem Encoding.fscale (f : Fields) (fr : Fr) : Encoding.Statement (.fscale f fr) := by
  intro e f_ he hf hw
  obtain ⟨hc, hm, hx⟩ := wf_parts rfl hf hw
  cases he; cases hf
  have h0 := fr.code_lt
  simp [Instr.xOk, immOk] at hx
  simp only [EncRange, Option.getD_none, Option.getD_some]
  omega

theorem Encoding.fexpnE (f : Fields) (ftz : Bool) : Encoding.Statement (.fexpnE f ftz) := by
  intro e f_ he hf hw
  obtain ⟨hc, hm, hx⟩ := wf_parts rfl hf hw
  cases he; cases hf
  have h0 := ftz.toNat_le
  simp [Instr.xOk, immOk] at hx
  simp only [EncRange, Option.getD_none, Option.getD_some]
  omega

theorem Encoding.fexpnM (f : Fields) (ftz : Bool) : Encoding.Statement (.fexpnM f ftz) := by
  intro e f_ he hf hw
  obtain ⟨hc, hm, hx⟩ := wf_parts rfl hf hw
  cases he; cases hf
  have h0 := ftz.toNat_le
  simp [Instr.xOk, immOk] at hx
  simp only [EncRange, Option.getD_none, Option.getD_some]
  omega

theorem Encoding.dadd (f : Fields) (fr : Fr) : Encoding.Statement (.dadd f fr) := by
  intro e f_ he hf hw
  obtain ⟨hc, hm, hx⟩ := wf_parts rfl hf hw
  cases he; cases hf
  have h0 := fr.code_lt
  simp [Instr.xOk, immOk] at hx
  simp only [EncRange, Option.getD_none, Option.getD_some]
  omega

theorem Encoding.dmul (f : Fields) (fr : Fr) : Encoding.Statement (.dmul f fr) := by
  intro e f_ he hf hw
  obtain ⟨hc, hm, hx⟩ := wf_parts rfl hf hw
  cases he; cases hf
  have h0 := fr.code_lt
  simp [Instr.xOk, immOk] at hx
  simp only [EncRange, Option.getD_none, Option.getD_some]
  omega

theorem Encoding.dfma (f : Fields) (fr : Fr) (np : Bool) (nc : Bool) : Encoding.Statement (.dfma f fr np nc) := by
  intro e f_ he hf hw
  obtain ⟨hc, hm, hx⟩ := wf_parts rfl hf hw
  cases he; cases hf
  have h0 := fr.code_lt
  have h1 := np.toNat_le
  have h2 := nc.toNat_le
  simp [Instr.xOk, immOk] at hx
  simp only [EncRange, Option.getD_none, Option.getD_some]
  omega

theorem Encoding.dcmp (f : Fields) (cc : FCc) (cmb : Cmb) (ftz : Bool) (j : Nat) : Encoding.Statement (.dcmp f cc cmb ftz j) := by
  intro e f_ he hf hw
  obtain ⟨hc, hm, hx⟩ := wf_parts rfl hf hw
  cases he; cases hf
  have h0 := cc.code_lt
  have h1 := cmb.code_lt
  have h2 := ftz.toNat_le
  simp [Instr.xOk, immOk] at hx
  simp only [EncRange, Option.getD_none, Option.getD_some]
  omega

theorem Encoding.dmin (f : Fields) (num : Bool) (ftz : Bool) : Encoding.Statement (.dmin f num ftz) := by
  intro e f_ he hf hw
  obtain ⟨hc, hm, hx⟩ := wf_parts rfl hf hw
  cases he; cases hf
  have h0 := num.toNat_le
  have h1 := ftz.toNat_le
  simp [Instr.xOk, immOk] at hx
  simp only [EncRange, Option.getD_none, Option.getD_some]
  omega

theorem Encoding.dmax (f : Fields) (num : Bool) (ftz : Bool) : Encoding.Statement (.dmax f num ftz) := by
  intro e f_ he hf hw
  obtain ⟨hc, hm, hx⟩ := wf_parts rfl hf hw
  cases he; cases hf
  have h0 := num.toNat_le
  have h1 := ftz.toNat_le
  simp [Instr.xOk, immOk] at hx
  simp only [EncRange, Option.getD_none, Option.getD_some]
  omega

theorem Encoding.hadd2 (f : Fields) (rnd : Rnd) (sat : Bool) (bf : Bool) : Encoding.Statement (.hadd2 f rnd sat bf) := by
  intro e f_ he hf hw
  obtain ⟨hc, hm, hx⟩ := wf_parts rfl hf hw
  cases he; cases hf
  have h0 := rnd.code_lt
  have h1 := sat.toNat_le
  have h2 := bf.toNat_le
  simp [Instr.xOk, immOk] at hx
  simp only [EncRange, Option.getD_none, Option.getD_some]
  omega

theorem Encoding.hmul2 (f : Fields) (rnd : Rnd) (sat : Bool) (bf : Bool) : Encoding.Statement (.hmul2 f rnd sat bf) := by
  intro e f_ he hf hw
  obtain ⟨hc, hm, hx⟩ := wf_parts rfl hf hw
  cases he; cases hf
  have h0 := rnd.code_lt
  have h1 := sat.toNat_le
  have h2 := bf.toNat_le
  simp [Instr.xOk, immOk] at hx
  simp only [EncRange, Option.getD_none, Option.getD_some]
  omega

theorem Encoding.hfma2 (f : Fields) (rnd : Rnd) (sat : Bool) (bf : Bool) (np : Bool) (nc : Bool) : Encoding.Statement (.hfma2 f rnd sat bf np nc) := by
  intro e f_ he hf hw
  obtain ⟨hc, hm, hx⟩ := wf_parts rfl hf hw
  cases he; cases hf
  have h0 := rnd.code_lt
  have h1 := sat.toNat_le
  have h2 := bf.toNat_le
  have h3 := np.toNat_le
  have h4 := nc.toNat_le
  simp [Instr.xOk, immOk] at hx
  simp only [EncRange, Option.getD_none, Option.getD_some]
  omega

theorem Encoding.hcmp2 (f : Fields) (cc : FCc) (cmb : Cmb) (bf : Bool) (j : Nat) : Encoding.Statement (.hcmp2 f cc cmb bf j) := by
  intro e f_ he hf hw
  obtain ⟨hc, hm, hx⟩ := wf_parts rfl hf hw
  cases he; cases hf
  have h0 := cc.code_lt
  have h1 := cmb.code_lt
  have h2 := bf.toNat_le
  simp [Instr.xOk, immOk] at hx
  simp only [EncRange, Option.getD_none, Option.getD_some]
  omega

theorem Encoding.hmin2 (f : Fields) (bf : Bool) (num : Bool) : Encoding.Statement (.hmin2 f bf num) := by
  intro e f_ he hf hw
  obtain ⟨hc, hm, hx⟩ := wf_parts rfl hf hw
  cases he; cases hf
  have h0 := bf.toNat_le
  have h1 := num.toNat_le
  simp [Instr.xOk, immOk] at hx
  simp only [EncRange, Option.getD_none, Option.getD_some]
  omega

theorem Encoding.hmax2 (f : Fields) (bf : Bool) (num : Bool) : Encoding.Statement (.hmax2 f bf num) := by
  intro e f_ he hf hw
  obtain ⟨hc, hm, hx⟩ := wf_parts rfl hf hw
  cases he; cases hf
  have h0 := bf.toNat_le
  have h1 := num.toNat_le
  simp [Instr.xOk, immOk] at hx
  simp only [EncRange, Option.getD_none, Option.getD_some]
  omega

theorem Encoding.rcp (f : Fields) (ftz : Bool) : Encoding.Statement (.rcp f ftz) := by
  intro e f_ he hf hw
  obtain ⟨hc, hm, hx⟩ := wf_parts rfl hf hw
  cases he; cases hf
  have h0 := ftz.toNat_le
  simp [Instr.xOk, immOk] at hx
  simp only [EncRange, Option.getD_none, Option.getD_some]
  omega

theorem Encoding.rsq (f : Fields) (ftz : Bool) : Encoding.Statement (.rsq f ftz) := by
  intro e f_ he hf hw
  obtain ⟨hc, hm, hx⟩ := wf_parts rfl hf hw
  cases he; cases hf
  have h0 := ftz.toNat_le
  simp [Instr.xOk, immOk] at hx
  simp only [EncRange, Option.getD_none, Option.getD_some]
  omega

theorem Encoding.sqrt (f : Fields) (ftz : Bool) : Encoding.Statement (.sqrt f ftz) := by
  intro e f_ he hf hw
  obtain ⟨hc, hm, hx⟩ := wf_parts rfl hf hw
  cases he; cases hf
  have h0 := ftz.toNat_le
  simp [Instr.xOk, immOk] at hx
  simp only [EncRange, Option.getD_none, Option.getD_some]
  omega

theorem Encoding.ex2 (f : Fields) (ftz : Bool) : Encoding.Statement (.ex2 f ftz) := by
  intro e f_ he hf hw
  obtain ⟨hc, hm, hx⟩ := wf_parts rfl hf hw
  cases he; cases hf
  have h0 := ftz.toNat_le
  simp [Instr.xOk, immOk] at hx
  simp only [EncRange, Option.getD_none, Option.getD_some]
  omega

theorem Encoding.lg2 (f : Fields) (ftz : Bool) : Encoding.Statement (.lg2 f ftz) := by
  intro e f_ he hf hw
  obtain ⟨hc, hm, hx⟩ := wf_parts rfl hf hw
  cases he; cases hf
  have h0 := ftz.toNat_le
  simp [Instr.xOk, immOk] at hx
  simp only [EncRange, Option.getD_none, Option.getD_some]
  omega

theorem Encoding.sin (f : Fields) (ftz : Bool) : Encoding.Statement (.sin f ftz) := by
  intro e f_ he hf hw
  obtain ⟨hc, hm, hx⟩ := wf_parts rfl hf hw
  cases he; cases hf
  have h0 := ftz.toNat_le
  simp [Instr.xOk, immOk] at hx
  simp only [EncRange, Option.getD_none, Option.getD_some]
  omega

theorem Encoding.cos (f : Fields) (ftz : Bool) : Encoding.Statement (.cos f ftz) := by
  intro e f_ he hf hw
  obtain ⟨hc, hm, hx⟩ := wf_parts rfl hf hw
  cases he; cases hf
  have h0 := ftz.toNat_le
  simp [Instr.xOk, immOk] at hx
  simp only [EncRange, Option.getD_none, Option.getD_some]
  omega

theorem Encoding.tanh (f : Fields) (ftz : Bool) : Encoding.Statement (.tanh f ftz) := by
  intro e f_ he hf hw
  obtain ⟨hc, hm, hx⟩ := wf_parts rfl hf hw
  cases he; cases hf
  have h0 := ftz.toNat_le
  simp [Instr.xOk, immOk] at hx
  simp only [EncRange, Option.getD_none, Option.getD_some]
  omega

theorem Encoding.drcp (f : Fields) (ftz : Bool) : Encoding.Statement (.drcp f ftz) := by
  intro e f_ he hf hw
  obtain ⟨hc, hm, hx⟩ := wf_parts rfl hf hw
  cases he; cases hf
  have h0 := ftz.toNat_le
  simp [Instr.xOk, immOk] at hx
  simp only [EncRange, Option.getD_none, Option.getD_some]
  omega

theorem Encoding.cvt (f : Fields) (fr : Fr) (dt : EType) (st : EType) (i : Nat) : Encoding.Statement (.cvt f fr dt st i) := by
  intro e f_ he hf hw
  obtain ⟨hc, hm, hx⟩ := wf_parts rfl hf hw
  cases he; cases hf
  have h0 := fr.code_lt
  have h1 := dt.code_lt
  have h2 := st.code_lt
  have hs : st.cvtSlots ≤ 8 := by cases st <;> decide
  simp [Instr.xOk, cvtOk] at hx
  simp only [EncRange, Option.getD_none, Option.getD_some]
  omega

theorem Encoding.cvtscScale (f : Fields) (dt : EType) : Encoding.Statement (.cvtscScale f dt) := by
  intro e f_ he hf hw
  obtain ⟨hc, hm, hx⟩ := wf_parts rfl hf hw
  cases he; cases hf
  have h0 := dt.code_lt
  simp [Instr.xOk, immOk] at hx
  simp only [EncRange, Option.getD_none, Option.getD_some]
  omega

theorem Encoding.cvtsc (f : Fields) (dt : EType) : Encoding.Statement (.cvtsc f dt) := by
  intro e f_ he hf hw
  obtain ⟨hc, hm, hx⟩ := wf_parts rfl hf hw
  cases he; cases hf
  have h0 := dt.code_lt
  simp [Instr.xOk, immOk] at hx
  simp only [EncRange, Option.getD_none, Option.getD_some]
  omega

theorem Encoding.pack2 (f : Fields) : Encoding.Statement (.pack2 f) := by
  intro e f_ he hf hw
  obtain ⟨hc, hm, hx⟩ := wf_parts rfl hf hw
  cases he; cases hf
  simp [Instr.xOk, immOk] at hx
  simp only [EncRange, Option.getD_none, Option.getD_some]
  omega

theorem Encoding.pack4 (f : Fields) (nib : Bool) : Encoding.Statement (.pack4 f nib) := by
  intro e f_ he hf hw
  obtain ⟨hc, hm, hx⟩ := wf_parts rfl hf hw
  cases he; cases hf
  have h0 := nib.toNat_le
  simp [Instr.xOk, immOk] at hx
  simp only [EncRange, Option.getD_none, Option.getD_some]
  omega

theorem Encoding.unpack (f : Fields) (sx : Bool) (wid : UnpW) (k : Nat) : Encoding.Statement (.unpack f sx wid k) := by
  intro e f_ he hf hw
  obtain ⟨hc, hm, hx⟩ := wf_parts rfl hf hw
  cases he; cases hf
  have h0 := sx.toNat_le
  have h1 := wid.code_lt
  have hk : k < 4 := by cases wid <;> simp [Instr.xOk] at hx <;> omega
  simp only [EncRange, Option.getD_none, Option.getD_some]
  omega

theorem Encoding.sigrd (f : Fields) : Encoding.Statement (.sigrd f) := by
  intro e f_ he hf hw
  obtain ⟨hc, hm, hx⟩ := wf_parts rfl hf hw
  cases he; cases hf
  simp [Instr.xOk, immOk] at hx
  simp only [EncRange, Option.getD_none, Option.getD_some]
  omega

theorem Encoding.sigwr (f : Fields) (low : Bool) : Encoding.Statement (.sigwr f low) := by
  intro e f_ he hf hw
  obtain ⟨hc, hm, hx⟩ := wf_parts rfl hf hw
  cases he; cases hf
  have h0 := low.toNat_le
  simp [Instr.xOk, immOk] at hx
  simp only [EncRange, Option.getD_none, Option.getD_some]
  omega

theorem Encoding.sigmin (f : Fields) : Encoding.Statement (.sigmin f) := by
  intro e f_ he hf hw
  obtain ⟨hc, hm, hx⟩ := wf_parts rfl hf hw
  cases he; cases hf
  simp [Instr.xOk, immOk] at hx
  simp only [EncRange, Option.getD_none, Option.getD_some]
  omega

theorem Encoding.nbr (f : Fields) (fill : NbrFill) (dn : Bool) (w64 : Bool) (k : Nat) : Encoding.Statement (.nbr f fill dn w64 k) := by
  intro e f_ he hf hw
  obtain ⟨hc, hm, hx⟩ := wf_parts rfl hf hw
  cases he; cases hf
  have h0 := fill.code_lt
  have h1 := dn.toNat_le
  have h2 := w64.toNat_le
  simp [Instr.xOk, immOk] at hx
  simp only [EncRange, Option.getD_none, Option.getD_some]
  omega

theorem Encoding.shflIdx (f : Fields) (w64 : Bool) : Encoding.Statement (.shflIdx f w64) := by
  intro e f_ he hf hw
  obtain ⟨hc, hm, hx⟩ := wf_parts rfl hf hw
  cases he; cases hf
  have h0 := w64.toNat_le
  simp [Instr.xOk, immOk] at hx
  simp only [EncRange, Option.getD_none, Option.getD_some]
  omega

theorem Encoding.shflXor (f : Fields) (w64 : Bool) (m : Nat) : Encoding.Statement (.shflXor f w64 m) := by
  intro e f_ he hf hw
  obtain ⟨hc, hm, hx⟩ := wf_parts rfl hf hw
  cases he; cases hf
  have h0 := w64.toNat_le
  simp [Instr.xOk, immOk] at hx
  simp only [EncRange, Option.getD_none, Option.getD_some]
  omega

theorem Encoding.voteBallot (f : Fields) (k : Nat) : Encoding.Statement (.voteBallot f k) := by
  intro e f_ he hf hw
  obtain ⟨hc, hm, hx⟩ := wf_parts rfl hf hw
  cases he; cases hf
  simp [Instr.xOk, immOk] at hx
  simp only [EncRange, Option.getD_none, Option.getD_some]
  omega

theorem Encoding.voteAny (f : Fields) (k : Nat) (j : Nat) (cmb : Cmb) : Encoding.Statement (.voteAny f k j cmb) := by
  intro e f_ he hf hw
  obtain ⟨hc, hm, hx⟩ := wf_parts rfl hf hw
  cases he; cases hf
  have h0 := cmb.code_lt
  simp [Instr.xOk, immOk] at hx
  simp only [EncRange, Option.getD_none, Option.getD_some]
  omega

theorem Encoding.voteAll (f : Fields) (k : Nat) (j : Nat) (cmb : Cmb) : Encoding.Statement (.voteAll f k j cmb) := by
  intro e f_ he hf hw
  obtain ⟨hc, hm, hx⟩ := wf_parts rfl hf hw
  cases he; cases hf
  have h0 := cmb.code_lt
  simp [Instr.xOk, immOk] at hx
  simp only [EncRange, Option.getD_none, Option.getD_some]
  omega

theorem Encoding.voteEq (f : Fields) (k : Nat) (j : Nat) (cmb : Cmb) : Encoding.Statement (.voteEq f k j cmb) := by
  intro e f_ he hf hw
  obtain ⟨hc, hm, hx⟩ := wf_parts rfl hf hw
  cases he; cases hf
  have h0 := cmb.code_lt
  simp [Instr.xOk, immOk] at hx
  simp only [EncRange, Option.getD_none, Option.getD_some]
  omega

theorem Encoding.red (f : Fields) (op : RedOp) (ty : RedTy) : Encoding.Statement (.red f op ty) := by
  intro e f_ he hf hw
  obtain ⟨hc, hm, hx⟩ := wf_parts rfl hf hw
  cases he; cases hf
  have h0 := op.code_lt
  have h1 := ty.code_lt
  simp [Instr.xOk, immOk] at hx
  simp only [EncRange, Option.getD_none, Option.getD_some]
  omega

theorem Encoding.scan (f : Fields) (op : RedOp) (ty : RedTy) (excl : Bool) : Encoding.Statement (.scan f op ty excl) := by
  intro e f_ he hf hw
  obtain ⟨hc, hm, hx⟩ := wf_parts rfl hf hw
  cases he; cases hf
  have h0 := op.code_lt
  have h1 := ty.code_lt
  have h2 := excl.toNat_le
  simp [Instr.xOk, immOk] at hx
  simp only [EncRange, Option.getD_none, Option.getD_some]
  omega

theorem Encoding.matchLanes (f : Fields) (w64 : Bool) : Encoding.Statement (.matchLanes f w64) := by
  intro e f_ he hf hw
  obtain ⟨hc, hm, hx⟩ := wf_parts rfl hf hw
  cases he; cases hf
  have h0 := w64.toNat_le
  simp [Instr.xOk, immOk] at hx
  simp only [EncRange, Option.getD_none, Option.getD_some]
  omega

theorem Encoding.ld (f : Fields) (sz : Sz) (sx : Bool) (stm : Bool) (hook : Nat) (off : Half) : Encoding.Statement (.ld f sz sx stm hook off) := by
  intro e f_ he hf hw
  obtain ⟨hc, hm, hx⟩ := wf_parts rfl hf hw
  cases he; cases hf
  have h0 := sz.code_lt
  have h1 := sx.toNat_le
  have h2 := stm.toNat_le
  have h3 := off.isLt
  simp [Instr.xOk, immOk] at hx
  simp only [EncRange, Option.getD_none, Option.getD_some]
  omega

theorem Encoding.st (f : Fields) (sz : Sz) (stm : Bool) (rc : Nat) (hook : Nat) (off : Half) : Encoding.Statement (.st f sz stm rc hook off) := by
  intro e f_ he hf hw
  obtain ⟨hc, hm, hx⟩ := wf_parts rfl hf hw
  cases he; cases hf
  have h0 := sz.code_lt
  have h1 := stm.toNat_le
  have h2 := off.isLt
  simp [Instr.xOk, immOk] at hx
  simp only [EncRange, Option.getD_none, Option.getD_some]
  omega

theorem Encoding.ldr (f : Fields) (sz : Sz) (sx : Bool) (ca : Ca) (rc : Nat) (hook : Nat) (off : Half) : Encoding.Statement (.ldr f sz sx ca rc hook off) := by
  intro e f_ he hf hw
  obtain ⟨hc, hm, hx⟩ := wf_parts rfl hf hw
  cases he; cases hf
  have h0 := sz.code_lt
  have h1 := sx.toNat_le
  have h2 := ca.code_lt
  have h3 := off.isLt
  simp [Instr.xOk, immOk] at hx
  simp only [EncRange, Option.getD_none, Option.getD_some]
  omega

theorem Encoding.lds (f : Fields) (sz : Sz) (sx : Bool) (off : Half) : Encoding.Statement (.lds f sz sx off) := by
  intro e f_ he hf hw
  obtain ⟨hc, hm, hx⟩ := wf_parts rfl hf hw
  cases he; cases hf
  have h0 := sz.code_lt
  have h1 := sx.toNat_le
  have h2 := off.isLt
  simp [Instr.xOk, immOk] at hx
  simp only [EncRange, Option.getD_none, Option.getD_some]
  omega

theorem Encoding.sts (f : Fields) (sz : Sz) (off : Half) : Encoding.Statement (.sts f sz off) := by
  intro e f_ he hf hw
  obtain ⟨hc, hm, hx⟩ := wf_parts rfl hf hw
  cases he; cases hf
  have h0 := sz.code_lt
  have h1 := off.isLt
  simp [Instr.xOk, immOk] at hx
  simp only [EncRange, Option.getD_none, Option.getD_some]
  omega

theorem Encoding.ldt (f : Fields) (sz : Sz) (stm : Bool) (hook : Nat) (off : Half) : Encoding.Statement (.ldt f sz stm hook off) := by
  intro e f_ he hf hw
  obtain ⟨hc, hm, hx⟩ := wf_parts rfl hf hw
  cases he; cases hf
  have h0 := sz.code_lt
  have h1 := stm.toNat_le
  have h2 := off.isLt
  simp [Instr.xOk, immOk] at hx
  simp only [EncRange, Option.getD_none, Option.getD_some]
  omega

theorem Encoding.stt (f : Fields) (sz : Sz) (stm : Bool) (hook : Nat) (off : Half) : Encoding.Statement (.stt f sz stm hook off) := by
  intro e f_ he hf hw
  obtain ⟨hc, hm, hx⟩ := wf_parts rfl hf hw
  cases he; cases hf
  have h0 := sz.code_lt
  have h1 := stm.toNat_le
  have h2 := off.isLt
  simp [Instr.xOk, immOk] at hx
  simp only [EncRange, Option.getD_none, Option.getD_some]
  omega

theorem Encoding.ldw (f : Fields) (sz : Sz) (sx : Bool) (hook : Nat) (off : Half) : Encoding.Statement (.ldw f sz sx hook off) := by
  intro e f_ he hf hw
  obtain ⟨hc, hm, hx⟩ := wf_parts rfl hf hw
  cases he; cases hf
  have h0 := sz.code_lt
  have h1 := sx.toNat_le
  have h2 := off.isLt
  simp [Instr.xOk, immOk] at hx
  simp only [EncRange, Option.getD_none, Option.getD_some]
  omega

theorem Encoding.atom (f : Fields) (op : AOp) (ty : ATy) (hook : Nat) (off : Half) : Encoding.Statement (.atom f op ty hook off) := by
  intro e f_ he hf hw
  obtain ⟨hc, hm, hx⟩ := wf_parts rfl hf hw
  cases he; cases hf
  have h0 := op.code_lt
  have h1 := ty.code_lt
  have h2 := off.isLt
  simp [Instr.xOk, immOk] at hx
  simp only [EncRange, Option.getD_none, Option.getD_some]
  omega

theorem Encoding.atoms (f : Fields) (op : AOp) (ty : ATy) (hook : Nat) (off : Half) : Encoding.Statement (.atoms f op ty hook off) := by
  intro e f_ he hf hw
  obtain ⟨hc, hm, hx⟩ := wf_parts rfl hf hw
  cases he; cases hf
  have h0 := op.code_lt
  have h1 := ty.code_lt
  have h2 := off.isLt
  simp [Instr.xOk, immOk] at hx
  simp only [EncRange, Option.getD_none, Option.getD_some]
  omega

theorem Encoding.rld (f : Fields) (sz : Sz) (sx : Bool) (stm : Bool) (hook : Nat) (off : Half) : Encoding.Statement (.rld f sz sx stm hook off) := by
  intro e f_ he hf hw
  obtain ⟨hc, hm, hx⟩ := wf_parts rfl hf hw
  cases he; cases hf
  have h0 := sz.code_lt
  have h1 := sx.toNat_le
  have h2 := stm.toNat_le
  have h3 := off.isLt
  simp [Instr.xOk, immOk] at hx
  simp only [EncRange, Option.getD_none, Option.getD_some]
  omega

theorem Encoding.rst (f : Fields) (sz : Sz) (stm : Bool) (rc : Nat) (hook : Nat) (off : Half) : Encoding.Statement (.rst f sz stm rc hook off) := by
  intro e f_ he hf hw
  obtain ⟨hc, hm, hx⟩ := wf_parts rfl hf hw
  cases he; cases hf
  have h0 := sz.code_lt
  have h1 := stm.toNat_le
  have h2 := off.isLt
  simp [Instr.xOk, immOk] at hx
  simp only [EncRange, Option.getD_none, Option.getD_some]
  omega

theorem Encoding.ratom (f : Fields) (op : AOp) (ty : ATy) (hook : Nat) (off : Half) : Encoding.Statement (.ratom f op ty hook off) := by
  intro e f_ he hf hw
  obtain ⟨hc, hm, hx⟩ := wf_parts rfl hf hw
  cases he; cases hf
  have h0 := op.code_lt
  have h1 := ty.code_lt
  have h2 := off.isLt
  simp [Instr.xOk, immOk] at hx
  simp only [EncRange, Option.getD_none, Option.getD_some]
  omega

theorem Encoding.fenceTeam (f : Fields) (hold : Bool) (hook : Nat) : Encoding.Statement (.fenceTeam f hold hook) := by
  intro e f_ he hf hw
  obtain ⟨hc, hm, hx⟩ := wf_parts rfl hf hw
  cases he; cases hf
  have h0 := hold.toNat_le
  simp [Instr.xOk, immOk] at hx
  simp only [EncRange, Option.getD_none, Option.getD_some]
  omega

theorem Encoding.fencePair (f : Fields) (hold : Bool) (hook : Nat) : Encoding.Statement (.fencePair f hold hook) := by
  intro e f_ he hf hw
  obtain ⟨hc, hm, hx⟩ := wf_parts rfl hf hw
  cases he; cases hf
  have h0 := hold.toNat_le
  simp [Instr.xOk, immOk] at hx
  simp only [EncRange, Option.getD_none, Option.getD_some]
  omega

theorem Encoding.fenceDev (f : Fields) (hold : Bool) (hook : Nat) : Encoding.Statement (.fenceDev f hold hook) := by
  intro e f_ he hf hw
  obtain ⟨hc, hm, hx⟩ := wf_parts rfl hf hw
  cases he; cases hf
  have h0 := hold.toNat_le
  simp [Instr.xOk, immOk] at hx
  simp only [EncRange, Option.getD_none, Option.getD_some]
  omega

theorem Encoding.fenceFab (f : Fields) (hold : Bool) (hook : Nat) : Encoding.Statement (.fenceFab f hold hook) := by
  intro e f_ he hf hw
  obtain ⟨hc, hm, hx⟩ := wf_parts rfl hf hw
  cases he; cases hf
  have h0 := hold.toNat_le
  simp [Instr.xOk, immOk] at hx
  simp only [EncRange, Option.getD_none, Option.getD_some]
  omega

theorem Encoding.afence (f : Fields) (hold : Bool) (hook : Nat) : Encoding.Statement (.afence f hold hook) := by
  intro e f_ he hf hw
  obtain ⟨hc, hm, hx⟩ := wf_parts rfl hf hw
  cases he; cases hf
  have h0 := hold.toNat_le
  simp [Instr.xOk, immOk] at hx
  simp only [EncRange, Option.getD_none, Option.getD_some]
  omega

theorem Encoding.icinv (f : Fields) (hook : Nat) : Encoding.Statement (.icinv f hook) := by
  intro e f_ he hf hw
  obtain ⟨hc, hm, hx⟩ := wf_parts rfl hf hw
  cases he; cases hf
  simp [Instr.xOk, immOk] at hx
  simp only [EncRange, Option.getD_none, Option.getD_some]
  omega

theorem Encoding.pref (f : Fields) (ca : Ca) (off : Half) : Encoding.Statement (.pref f ca off) := by
  intro e f_ he hf hw
  obtain ⟨hc, hm, hx⟩ := wf_parts rfl hf hw
  cases he; cases hf
  have h0 := ca.code_lt
  have h1 := off.isLt
  simp [Instr.xOk, immOk] at hx
  simp only [EncRange, Option.getD_none, Option.getD_some]
  omega

theorem Encoding.spmarkFull (f : Fields) (hook : Nat) : Encoding.Statement (.spmarkFull f hook) := by
  intro e f_ he hf hw
  obtain ⟨hc, hm, hx⟩ := wf_parts rfl hf hw
  cases he; cases hf
  simp [Instr.xOk, immOk] at hx
  simp only [EncRange, Option.getD_none, Option.getD_some]
  omega

theorem Encoding.spmarkEmpty (f : Fields) (hook : Nat) : Encoding.Statement (.spmarkEmpty f hook) := by
  intro e f_ he hf hw
  obtain ⟨hc, hm, hx⟩ := wf_parts rfl hf hw
  cases he; cases hf
  simp [Instr.xOk, immOk] at hx
  simp only [EncRange, Option.getD_none, Option.getD_some]
  omega

theorem Encoding.wqenq (f : Fields) (j : Nat) (hook : Nat) : Encoding.Statement (.wqenq f j hook) := by
  intro e f_ he hf hw
  obtain ⟨hc, hm, hx⟩ := wf_parts rfl hf hw
  cases he; cases hf
  simp [Instr.xOk, immOk] at hx
  simp only [EncRange, Option.getD_none, Option.getD_some]
  omega

theorem Encoding.wqdeq (f : Fields) (poll : Bool) (hook : Nat) : Encoding.Statement (.wqdeq f poll hook) := by
  intro e f_ he hf hw
  obtain ⟨hc, hm, hx⟩ := wf_parts rfl hf hw
  cases he; cases hf
  have h0 := poll.toNat_le
  simp [Instr.xOk, immOk] at hx
  simp only [EncRange, Option.getD_none, Option.getD_some]
  omega

theorem Encoding.cpyIn (f : Fields) (em : Bool) (stm : Bool) (hook : Nat) : Encoding.Statement (.cpyIn f em stm hook) := by
  intro e f_ he hf hw
  obtain ⟨hc, hm, hx⟩ := wf_parts rfl hf hw
  cases he; cases hf
  have h0 := em.toNat_le
  have h1 := stm.toNat_le
  simp [Instr.xOk, immOk] at hx
  simp only [EncRange, Option.getD_none, Option.getD_some]
  omega

theorem Encoding.cpyOut (f : Fields) (stm : Bool) (rc : Nat) (hook : Nat) : Encoding.Statement (.cpyOut f stm rc hook) := by
  intro e f_ he hf hw
  obtain ⟨hc, hm, hx⟩ := wf_parts rfl hf hw
  cases he; cases hf
  have h0 := stm.toNat_le
  simp [Instr.xOk, immOk] at hx
  simp only [EncRange, Option.getD_none, Option.getD_some]
  omega

theorem Encoding.cpytIn (f : Fields) (em : Bool) (stm : Bool) (hook : Nat) : Encoding.Statement (.cpytIn f em stm hook) := by
  intro e f_ he hf hw
  obtain ⟨hc, hm, hx⟩ := wf_parts rfl hf hw
  cases he; cases hf
  have h0 := em.toNat_le
  have h1 := stm.toNat_le
  simp [Instr.xOk, immOk] at hx
  simp only [EncRange, Option.getD_none, Option.getD_some]
  omega

theorem Encoding.cpytOut (f : Fields) (stm : Bool) (rc : Nat) (hook : Nat) : Encoding.Statement (.cpytOut f stm rc hook) := by
  intro e f_ he hf hw
  obtain ⟨hc, hm, hx⟩ := wf_parts rfl hf hw
  cases he; cases hf
  have h0 := stm.toNat_le
  simp [Instr.xOk, immOk] at hx
  simp only [EncRange, Option.getD_none, Option.getD_some]
  omega

theorem Encoding.cpyg (f : Fields) (em : Bool) (stm : Bool) (hook : Nat) : Encoding.Statement (.cpyg f em stm hook) := by
  intro e f_ he hf hw
  obtain ⟨hc, hm, hx⟩ := wf_parts rfl hf hw
  cases he; cases hf
  have h0 := em.toNat_le
  have h1 := stm.toNat_le
  simp [Instr.xOk, immOk] at hx
  simp only [EncRange, Option.getD_none, Option.getD_some]
  omega

theorem Encoding.cpys (f : Fields) (red : CpysRed) (stm : Bool) (rc : Nat) (hook : Nat) : Encoding.Statement (.cpys f red stm rc hook) := by
  intro e f_ he hf hw
  obtain ⟨hc, hm, hx⟩ := wf_parts rfl hf hw
  cases he; cases hf
  have h0 := red.code_lt
  have h1 := stm.toNat_le
  simp [Instr.xOk, immOk] at hx
  simp only [EncRange, Option.getD_none, Option.getD_some]
  omega

theorem Encoding.cpyfSp (f : Fields) (em : Bool) (hook : Nat) : Encoding.Statement (.cpyfSp f em hook) := by
  intro e f_ he hf hw
  obtain ⟨hc, hm, hx⟩ := wf_parts rfl hf hw
  cases he; cases hf
  have h0 := em.toNat_le
  simp [Instr.xOk, immOk] at hx
  simp only [EncRange, Option.getD_none, Option.getD_some]
  omega

theorem Encoding.cpyfMem (f : Fields) (stm : Bool) (rc : Nat) (hook : Nat) : Encoding.Statement (.cpyfMem f stm rc hook) := by
  intro e f_ he hf hw
  obtain ⟨hc, hm, hx⟩ := wf_parts rfl hf hw
  cases he; cases hf
  have h0 := stm.toNat_le
  simp [Instr.xOk, immOk] at hx
  simp only [EncRange, Option.getD_none, Option.getD_some]
  omega

theorem Encoding.cpyw (f : Fields) (em : Bool) (hook : Nat) : Encoding.Statement (.cpyw f em hook) := by
  intro e f_ he hf hw
  obtain ⟨hc, hm, hx⟩ := wf_parts rfl hf hw
  cases he; cases hf
  have h0 := em.toNat_le
  simp [Instr.xOk, immOk] at hx
  simp only [EncRange, Option.getD_none, Option.getD_some]
  omega

theorem Encoding.cpyc (f : Fields) (em : Bool) (hook : Nat) : Encoding.Statement (.cpyc f em hook) := by
  intro e f_ he hf hw
  obtain ⟨hc, hm, hx⟩ := wf_parts rfl hf hw
  cases he; cases hf
  have h0 := em.toNat_le
  simp [Instr.xOk, immOk] at hx
  simp only [EncRange, Option.getD_none, Option.getD_some]
  omega

theorem Encoding.bsend (f : Fields) (hook : Nat) : Encoding.Statement (.bsend f hook) := by
  intro e f_ he hf hw
  obtain ⟨hc, hm, hx⟩ := wf_parts rfl hf hw
  cases he; cases hf
  simp [Instr.xOk, immOk] at hx
  simp only [EncRange, Option.getD_none, Option.getD_some]
  omega

theorem Encoding.brecv (f : Fields) (hook : Nat) : Encoding.Statement (.brecv f hook) := by
  intro e f_ he hf hw
  obtain ⟨hc, hm, hx⟩ := wf_parts rfl hf hw
  cases he; cases hf
  simp [Instr.xOk, immOk] at hx
  simp only [EncRange, Option.getD_none, Option.getD_some]
  omega

theorem Encoding.bprobeSnd (f : Fields) (hook : Nat) : Encoding.Statement (.bprobeSnd f hook) := by
  intro e f_ he hf hw
  obtain ⟨hc, hm, hx⟩ := wf_parts rfl hf hw
  cases he; cases hf
  simp [Instr.xOk, immOk] at hx
  simp only [EncRange, Option.getD_none, Option.getD_some]
  omega

theorem Encoding.bprobeRcv (f : Fields) (hook : Nat) : Encoding.Statement (.bprobeRcv f hook) := by
  intro e f_ he hf hw
  obtain ⟨hc, hm, hx⟩ := wf_parts rfl hf hw
  cases he; cases hf
  simp [Instr.xOk, immOk] at hx
  simp only [EncRange, Option.getD_none, Option.getD_some]
  omega

theorem Encoding.bcancelSnd (f : Fields) (hook : Nat) : Encoding.Statement (.bcancelSnd f hook) := by
  intro e f_ he hf hw
  obtain ⟨hc, hm, hx⟩ := wf_parts rfl hf hw
  cases he; cases hf
  simp [Instr.xOk, immOk] at hx
  simp only [EncRange, Option.getD_none, Option.getD_some]
  omega

theorem Encoding.bcancelRcv (f : Fields) (hook : Nat) : Encoding.Statement (.bcancelRcv f hook) := by
  intro e f_ he hf hw
  obtain ⟨hc, hm, hx⟩ := wf_parts rfl hf hw
  cases he; cases hf
  simp [Instr.xOk, immOk] at hx
  simp only [EncRange, Option.getD_none, Option.getD_some]
  omega

theorem Encoding.mcfg (f : Fields) (s32 : Bool) (tile : Nat) (rc : Nat) (cc : Nat) (hook : Nat) : Encoding.Statement (.mcfg f s32 tile rc cc hook) := by
  intro e f_ he hf hw
  obtain ⟨hc, hm, hx⟩ := wf_parts rfl hf hw
  cases he; cases hf
  have h0 := s32.toNat_le
  simp [Instr.xOk, immOk] at hx
  simp only [EncRange, Option.getD_none, Option.getD_some]
  omega

theorem Encoding.mloft (f : Fields) (bt : EType) (lf : Nat) (hook : Nat) : Encoding.Statement (.mloft f bt lf hook) := by
  intro e f_ he hf hw
  obtain ⟨hc, hm, hx⟩ := wf_parts rfl hf hw
  cases he; cases hf
  have h0 := bt.code_lt
  simp [Instr.xOk, immOk] at hx
  simp only [EncRange, Option.getD_none, Option.getD_some]
  omega

theorem Encoding.mloftw (f : Fields) (bt : EType) (lf : Nat) (hook : Nat) : Encoding.Statement (.mloftw f bt lf hook) := by
  intro e f_ he hf hw
  obtain ⟨hc, hm, hx⟩ := wf_parts rfl hf hw
  cases he; cases hf
  have h0 := bt.code_lt
  simp [Instr.xOk, immOk] at hx
  simp only [EncRange, Option.getD_none, Option.getD_some]
  omega

theorem Encoding.mlofth (f : Fields) (lf : Nat) (hook : Nat) : Encoding.Statement (.mlofth f lf hook) := by
  intro e f_ he hf hw
  obtain ⟨hc, hm, hx⟩ := wf_parts rfl hf hw
  cases he; cases hf
  simp [Instr.xOk, immOk] at hx
  simp only [EncRange, Option.getD_none, Option.getD_some]
  omega

theorem Encoding.mma (f : Fields) (at_ : EType) (tile : Nat) (lf : Nat) (row0 : Nat) (hook : Nat) : Encoding.Statement (.mma f at_ tile lf row0 hook) := by
  intro e f_ he hf hw
  obtain ⟨hc, hm, hx⟩ := wf_parts rfl hf hw
  cases he; cases hf
  have h0 := at_.code_lt
  simp [Instr.xOk, immOk] at hx
  simp only [EncRange, Option.getD_none, Option.getD_some]
  omega

theorem Encoding.mmas (f : Fields) (at_ : EType) (tile : Nat) (lf : Nat) (row0 : Nat) (hook : Nat) : Encoding.Statement (.mmas f at_ tile lf row0 hook) := by
  intro e f_ he hf hw
  obtain ⟨hc, hm, hx⟩ := wf_parts rfl hf hw
  cases he; cases hf
  have h0 := at_.code_lt
  simp [Instr.xOk, immOk] at hx
  simp only [EncRange, Option.getD_none, Option.getD_some]
  omega

theorem Encoding.mscl (f : Fields) (cl : Bool) (lf : Nat) (hook : Nat) : Encoding.Statement (.mscl f cl lf hook) := by
  intro e f_ he hf hw
  obtain ⟨hc, hm, hx⟩ := wf_parts rfl hf hw
  cases he; cases hf
  have h0 := cl.toNat_le
  simp [Instr.xOk, immOk] at hx
  simp only [EncRange, Option.getD_none, Option.getD_some]
  omega

theorem Encoding.mdrainReg (f : Fields) (tile : Nat) (row0 : Nat) (hook : Nat) : Encoding.Statement (.mdrainReg f tile row0 hook) := by
  intro e f_ he hf hw
  obtain ⟨hc, hm, hx⟩ := wf_parts rfl hf hw
  cases he; cases hf
  simp [Instr.xOk, immOk] at hx
  simp only [EncRange, Option.getD_none, Option.getD_some]
  omega

theorem Encoding.mdrainScratch (f : Fields) (fmt : DrFmt) (t : Bool) (z : Bool) (em : Bool) (tile : Nat) (hook : Nat) : Encoding.Statement (.mdrainScratch f fmt t z em tile hook) := by
  intro e f_ he hf hw
  obtain ⟨hc, hm, hx⟩ := wf_parts rfl hf hw
  cases he; cases hf
  have h0 := fmt.code_lt
  have h1 := t.toNat_le
  have h2 := z.toNat_le
  have h3 := em.toNat_le
  simp [Instr.xOk, immOk] at hx
  simp only [EncRange, Option.getD_none, Option.getD_some]
  omega

theorem Encoding.mzero (f : Fields) (tile : Nat) (hook : Nat) : Encoding.Statement (.mzero f tile hook) := by
  intro e f_ he hf hw
  obtain ⟨hc, hm, hx⟩ := wf_parts rfl hf hw
  cases he; cases hf
  simp [Instr.xOk, immOk] at hx
  simp only [EncRange, Option.getD_none, Option.getD_some]
  omega

theorem Encoding.mfence (f : Fields) (hook : Nat) : Encoding.Statement (.mfence f hook) := by
  intro e f_ he hf hw
  obtain ⟨hc, hm, hx⟩ := wf_parts rfl hf hw
  cases he; cases hf
  simp [Instr.xOk, immOk] at hx
  simp only [EncRange, Option.getD_none, Option.getD_some]
  omega

theorem Encoding.bra (f : Fields) (t : Target) : Encoding.Statement (.bra f t) := by
  intro e f_ he hf hw
  obtain ⟨hc, hm, hx⟩ := wf_parts rfl hf hw
  cases he; cases hf
  have h0 := t.code_lt
  simp [Instr.xOk, immOk] at hx
  simp only [EncRange, Option.getD_none, Option.getD_some]
  omega

theorem Encoding.brx (f : Fields) : Encoding.Statement (.brx f) := by
  intro e f_ he hf hw
  obtain ⟨hc, hm, hx⟩ := wf_parts rfl hf hw
  cases he; cases hf
  simp [Instr.xOk, immOk] at hx
  simp only [EncRange, Option.getD_none, Option.getD_some]
  omega

theorem Encoding.call (f : Fields) (t : Target) : Encoding.Statement (.call f t) := by
  intro e f_ he hf hw
  obtain ⟨hc, hm, hx⟩ := wf_parts rfl hf hw
  cases he; cases hf
  have h0 := t.code_lt
  simp [Instr.xOk, immOk] at hx
  simp only [EncRange, Option.getD_none, Option.getD_some]
  omega

theorem Encoding.callx (f : Fields) : Encoding.Statement (.callx f) := by
  intro e f_ he hf hw
  obtain ⟨hc, hm, hx⟩ := wf_parts rfl hf hw
  cases he; cases hf
  simp [Instr.xOk, immOk] at hx
  simp only [EncRange, Option.getD_none, Option.getD_some]
  omega

theorem Encoding.ret (f : Fields) : Encoding.Statement (.ret f) := by
  intro e f_ he hf hw
  obtain ⟨hc, hm, hx⟩ := wf_parts rfl hf hw
  cases he; cases hf
  simp [Instr.xOk, immOk] at hx
  simp only [EncRange, Option.getD_none, Option.getD_some]
  omega

theorem Encoding.brp (f : Fields) (t : Target) : Encoding.Statement (.brp f t) := by
  intro e f_ he hf hw
  obtain ⟨hc, hm, hx⟩ := wf_parts rfl hf hw
  cases he; cases hf
  have h0 := t.code_lt
  simp [Instr.xOk, immOk] at hx
  simp only [EncRange, Option.getD_none, Option.getD_some]
  omega

theorem Encoding.brany (f : Fields) (t : Target) : Encoding.Statement (.brany f t) := by
  intro e f_ he hf hw
  obtain ⟨hc, hm, hx⟩ := wf_parts rfl hf hw
  cases he; cases hf
  have h0 := t.code_lt
  simp [Instr.xOk, immOk] at hx
  simp only [EncRange, Option.getD_none, Option.getD_some]
  omega

theorem Encoding.brall (f : Fields) (t : Target) : Encoding.Statement (.brall f t) := by
  intro e f_ he hf hw
  obtain ⟨hc, hm, hx⟩ := wf_parts rfl hf hw
  cases he; cases hf
  have h0 := t.code_lt
  simp [Instr.xOk, immOk] at hx
  simp only [EncRange, Option.getD_none, Option.getD_some]
  omega

theorem Encoding.brsig (f : Fields) (thr : Nat) (t : Target) : Encoding.Statement (.brsig f thr t) := by
  intro e f_ he hf hw
  obtain ⟨hc, hm, hx⟩ := wf_parts rfl hf hw
  cases he; cases hf
  have h0 := t.code_lt
  simp [Instr.modOk] at hm
  simp only [EncRange, Option.getD_none, Option.getD_some]
  omega

theorem Encoding.regang (f : Fields) (t : Target) : Encoding.Statement (.regang f t) := by
  intro e f_ he hf hw
  obtain ⟨hc, hm, hx⟩ := wf_parts rfl hf hw
  cases he; cases hf
  have h0 := t.code_lt
  simp [Instr.xOk, immOk] at hx
  simp only [EncRange, Option.getD_none, Option.getD_some]
  omega

theorem Encoding.exit (f : Fields) : Encoding.Statement (.exit f) := by
  intro e f_ he hf hw
  obtain ⟨hc, hm, hx⟩ := wf_parts rfl hf hw
  cases he; cases hf
  simp [Instr.xOk, immOk] at hx
  simp only [EncRange, Option.getD_none, Option.getD_some]
  omega

theorem Encoding.yield (f : Fields) : Encoding.Statement (.yield f) := by
  intro e f_ he hf hw
  obtain ⟨hc, hm, hx⟩ := wf_parts rfl hf hw
  cases he; cases hf
  simp [Instr.xOk, immOk] at hx
  simp only [EncRange, Option.getD_none, Option.getD_some]
  omega

theorem Encoding.loop (f : Fields) (step : BitVec 6) (t : Target) : Encoding.Statement (.loop f step t) := by
  intro e f_ he hf hw
  obtain ⟨hc, hm, hx⟩ := wf_parts rfl hf hw
  cases he; cases hf
  have h0 := step.isLt
  have h1 := t.code_lt
  simp [Instr.xOk, immOk] at hx
  simp only [EncRange, Option.getD_none, Option.getD_some]
  omega

theorem Encoding.trap (f : Fields) (n : Half) : Encoding.Statement (.trap f n) := by
  intro e f_ he hf hw
  obtain ⟨hc, hm, hx⟩ := wf_parts rfl hf hw
  cases he; cases hf
  have h0 := n.isLt
  simp [Instr.xOk, immOk] at hx
  simp only [EncRange, Option.getD_none, Option.getD_some]
  omega

theorem Encoding.rte (f : Fields) : Encoding.Statement (.rte f) := by
  intro e f_ he hf hw
  obtain ⟨hc, hm, hx⟩ := wf_parts rfl hf hw
  cases he; cases hf
  simp [Instr.xOk, immOk] at hx
  simp only [EncRange, Option.getD_none, Option.getD_some]
  omega

theorem Encoding.syscIcb (f : Fields) (hook : Nat) : Encoding.Statement (.syscIcb f hook) := by
  intro e f_ he hf hw
  obtain ⟨hc, hm, hx⟩ := wf_parts rfl hf hw
  cases he; cases hf
  simp [Instr.xOk, immOk] at hx
  simp only [EncRange, Option.getD_none, Option.getD_some]
  omega

theorem Encoding.sysc (f : Fields) (n : Nat) (hook : Nat) : Encoding.Statement (.sysc f n hook) := by
  intro e f_ he hf hw
  obtain ⟨hc, hm, hx⟩ := wf_parts rfl hf hw
  cases he; cases hf
  simp [Instr.xOk, immOk] at hx
  simp only [EncRange, Option.getD_none, Option.getD_some]
  omega

theorem Encoding.wait (f : Fields) (hook : Nat) : Encoding.Statement (.wait f hook) := by
  intro e f_ he hf hw
  obtain ⟨hc, hm, hx⟩ := wf_parts rfl hf hw
  cases he; cases hf
  simp [Instr.xOk, immOk] at hx
  simp only [EncRange, Option.getD_none, Option.getD_some]
  omega

theorem Encoding.waitAll (f : Fields) : Encoding.Statement (.waitAll f) := by
  intro e f_ he hf hw
  obtain ⟨hc, hm, hx⟩ := wf_parts rfl hf hw
  cases he; cases hf
  simp [Instr.xOk, immOk] at hx
  simp only [EncRange, Option.getD_none, Option.getD_some]
  omega

theorem Encoding.hkadjUp (f : Fields) (hook : Nat) (n : Nat) : Encoding.Statement (.hkadjUp f hook n) := by
  intro e f_ he hf hw
  obtain ⟨hc, hm, hx⟩ := wf_parts rfl hf hw
  cases he; cases hf
  simp [Instr.xOk, immOk] at hx
  simp only [EncRange, Option.getD_none, Option.getD_some]
  omega

theorem Encoding.hkadjDn (f : Fields) (hook : Nat) (n : Nat) (w : Option Nat) : Encoding.Statement (.hkadjDn f hook n w) := by
  intro e f_ he hf hw
  obtain ⟨hc, hm, hx⟩ := wf_parts rfl hf hw
  cases he; cases hf
  have h0 := w.isSome.toNat_le
  simp only [Instr.xOk, Bool.and_eq_true, decide_eq_true_eq] at hx
  have hi : w.getD 0 < 32 := optNat_lt (by decide) hx.2
  simp only [EncRange, Option.getD_none, Option.getD_some]
  omega

theorem Encoding.bar (f : Fields) (drain : Bool) (k : Nat) : Encoding.Statement (.bar f drain k) := by
  intro e f_ he hf hw
  obtain ⟨hc, hm, hx⟩ := wf_parts rfl hf hw
  cases he; cases hf
  have h0 := drain.toNat_le
  simp [Instr.xOk, immOk] at hx
  simp only [EncRange, Option.getD_none, Option.getD_some]
  omega

theorem Encoding.bara (f : Fields) (drain : Bool) (k : Nat) : Encoding.Statement (.bara f drain k) := by
  intro e f_ he hf hw
  obtain ⟨hc, hm, hx⟩ := wf_parts rfl hf hw
  cases he; cases hf
  have h0 := drain.toNat_le
  simp [Instr.xOk, immOk] at hx
  simp only [EncRange, Option.getD_none, Option.getD_some]
  omega

theorem Encoding.barw (f : Fields) (k : Nat) : Encoding.Statement (.barw f k) := by
  intro e f_ he hf hw
  obtain ⟨hc, hm, hx⟩ := wf_parts rfl hf hw
  cases he; cases hf
  simp [Instr.xOk, immOk] at hx
  simp only [EncRange, Option.getD_none, Option.getD_some]
  omega

theorem Encoding.sleepns (f : Fields) : Encoding.Statement (.sleepns f) := by
  intro e f_ he hf hw
  obtain ⟨hc, hm, hx⟩ := wf_parts rfl hf hw
  cases he; cases hf
  simp [Instr.xOk, immOk] at hx
  simp only [EncRange, Option.getD_none, Option.getD_some]
  omega

theorem Encoding.waitns (f : Fields) : Encoding.Statement (.waitns f) := by
  intro e f_ he hf hw
  obtain ⟨hc, hm, hx⟩ := wf_parts rfl hf hw
  cases he; cases hf
  simp [Instr.xOk, immOk] at hx
  simp only [EncRange, Option.getD_none, Option.getD_some]
  omega

theorem Encoding.knock (f : Fields) (hook : Nat) : Encoding.Statement (.knock f hook) := by
  intro e f_ he hf hw
  obtain ⟨hc, hm, hx⟩ := wf_parts rfl hf hw
  cases he; cases hf
  simp [Instr.xOk, immOk] at hx
  simp only [EncRange, Option.getD_none, Option.getD_some]
  omega

theorem Encoding.csrr (f : Fields) (w64 : Bool) (csr : Csr) : Encoding.Statement (.csrr f w64 csr) := by
  intro e f_ he hf hw
  obtain ⟨hc, hm, hx⟩ := wf_parts rfl hf hw
  cases he; cases hf
  have h0 := w64.toNat_le
  have h1 := csr.num_lt
  simp [Instr.xOk, immOk] at hx
  simp only [EncRange, Option.getD_none, Option.getD_some]
  omega

theorem Encoding.csrw (f : Fields) (w64 : Bool) (csr : Csr) : Encoding.Statement (.csrw f w64 csr) := by
  intro e f_ he hf hw
  obtain ⟨hc, hm, hx⟩ := wf_parts rfl hf hw
  cases he; cases hf
  have h0 := w64.toNat_le
  have h1 := csr.num_lt
  simp [Instr.xOk, immOk] at hx
  simp only [EncRange, Option.getD_none, Option.getD_some]
  omega

theorem Encoding.csrx (f : Fields) (w64 : Bool) (csr : Csr) : Encoding.Statement (.csrx f w64 csr) := by
  intro e f_ he hf hw
  obtain ⟨hc, hm, hx⟩ := wf_parts rfl hf hw
  cases he; cases hf
  have h0 := w64.toNat_le
  have h1 := csr.num_lt
  simp [Instr.xOk, immOk] at hx
  simp only [EncRange, Option.getD_none, Option.getD_some]
  omega

theorem Encoding.heartbeatTimeout (core : Nat) : Encoding.Statement (.heartbeatTimeout core) := by
  intro e f h; cases h

theorem Encoding.knockArrival (src : Nat) (port : Nat) (bits : BitVec 128) : Encoding.Statement (.knockArrival src port bits) := by
  intro e f h; cases h

theorem Encoding.parserLookaheadRead (qid : Nat) : Encoding.Statement (.parserLookaheadRead qid) := by
  intro e f h; cases h

theorem Encoding.parserSlotReread (qid : Nat) : Encoding.Statement (.parserSlotReread qid) := by
  intro e f h; cases h

theorem Encoding.stalledQueueEvent (qid : Nat) : Encoding.Statement (.stalledQueueEvent qid) := by
  intro e f h; cases h

theorem Encoding.packetIssue (qid : Nat) : Encoding.Statement (.packetIssue qid) := by
  intro e f h; cases h

theorem Encoding.wqUnitBind (lid : Nat) : Encoding.Statement (.wqUnitBind lid) := by
  intro e f h; cases h

theorem Encoding.teamAdmission (tid : Nat) : Encoding.Statement (.teamAdmission tid) := by
  intro e f h; cases h

theorem Encoding.activeSetEntry (wid : Nat) : Encoding.Statement (.activeSetEntry wid) := by
  intro e f h; cases h

theorem Encoding.fetchLineArrival (wid : Nat) (va : Dword) : Encoding.Statement (.fetchLineArrival wid va) := by
  intro e f h; cases h

theorem Encoding.mergeSelect (core : Nat) (room : Nat) : Encoding.Statement (.mergeSelect core room) := by
  intro e f h; cases h

theorem Encoding.resultLanding (wid : Nat) (seq : Nat) : Encoding.Statement (.resultLanding wid seq) := by
  intro e f h; cases h

theorem Encoding.hatchPushResume (wid : Nat) : Encoding.Statement (.hatchPushResume wid) := by
  intro e f h; cases h

theorem Encoding.hatchPopResume (wid : Nat) : Encoding.Statement (.hatchPopResume wid) := by
  intro e f h; cases h

theorem Encoding.hatchLoadEntryFill (op : Nat) : Encoding.Statement (.hatchLoadEntryFill op) := by
  intro e f h; cases h

theorem Encoding.scratchAccessPerform (wid : Nat) (seq : Nat) : Encoding.Statement (.scratchAccessPerform wid seq) := by
  intro e f h; cases h

theorem Encoding.scratchLineFullResume (wid : Nat) : Encoding.Statement (.scratchLineFullResume wid) := by
  intro e f h; cases h

theorem Encoding.hookDrop (wid : Nat) (h : Nat) : Encoding.Statement (.hookDrop wid h) := by
  intro e f h; cases h

theorem Encoding.homeAccessPerform (op : Nat) (line : Nat) : Encoding.Statement (.homeAccessPerform op line) := by
  intro e f h; cases h

theorem Encoding.loadDataArrival (op : Nat) : Encoding.Statement (.loadDataArrival op) := by
  intro e f h; cases h

theorem Encoding.storeCompletion (op : Nat) : Encoding.Statement (.storeCompletion op) := by
  intro e f h; cases h

theorem Encoding.l1LeaseExpiry (core : Nat) (ctx : Nat) (line : Nat) : Encoding.Statement (.l1LeaseExpiry core ctx line) := by
  intro e f h; cases h

theorem Encoding.l2Eviction (line : Nat) : Encoding.Statement (.l2Eviction line) := by
  intro e f h; cases h

theorem Encoding.refreshWindowEnd (wid : Nat) : Encoding.Statement (.refreshWindowEnd wid) := by
  intro e f h; cases h

theorem Encoding.tlbWalkComplete (walk : Nat) : Encoding.Statement (.tlbWalkComplete walk) := by
  intro e f h; cases h

theorem Encoding.tlbInvalidate (ctx : Nat) (va : Nat) (len : Nat) : Encoding.Statement (.tlbInvalidate ctx va len) := by
  intro e f h; cases h

theorem Encoding.cellarWrite (place : Nat × Nat) (data : List Byte) : Encoding.Statement (.cellarWrite place data) := by
  intro e f h; cases h

theorem Encoding.copyUnitMove (op : Nat) : Encoding.Statement (.copyUnitMove op) := by
  intro e f h; cases h

theorem Encoding.copyFinish (op : Nat) : Encoding.Statement (.copyFinish op) := by
  intro e f h; cases h

theorem Encoding.matrixOpPerform (op : Nat) : Encoding.Statement (.matrixOpPerform op) := by
  intro e f h; cases h

theorem Encoding.matrixOpFinish (op : Nat) : Encoding.Statement (.matrixOpFinish op) := by
  intro e f h; cases h

theorem Encoding.remoteRequestIngress (r : RemReq) : Encoding.Statement (.remoteRequestIngress r) := by
  intro e f h; cases h

theorem Encoding.remoteReplyArrival (op : Nat) (ans : List RemAns) : Encoding.Statement (.remoteReplyArrival op ans) := by
  intro e f h; cases h

theorem Encoding.remoteTimeout (op : Nat) : Encoding.Statement (.remoteTimeout op) := by
  intro e f h; cases h

theorem Encoding.bulkRequestArrival (r : BulkReq) : Encoding.Statement (.bulkRequestArrival r) := by
  intro e f h; cases h

theorem Encoding.bulkRequestRetry (msg : Nat) : Encoding.Statement (.bulkRequestRetry msg) := by
  intro e f h; cases h

theorem Encoding.pullTokenGrant (msg : Nat) (peer : Option (Nat × Nat × Nat)) : Encoding.Statement (.pullTokenGrant msg peer) := by
  intro e f h; cases h

theorem Encoding.tokenDataArrival (tok : Nat) (off : Nat) (data : List Byte) : Encoding.Statement (.tokenDataArrival tok off data) := by
  intro e f h; cases h

theorem Encoding.tokenExpiry (tok : Nat) : Encoding.Statement (.tokenExpiry tok) := by
  intro e f h; cases h

theorem Encoding.orphanNoticeArrival (msg : Nat) : Encoding.Statement (.orphanNoticeArrival msg) := by
  intro e f h; cases h

theorem Encoding.bulkAckArrival (msg : Nat) (units : Nat) (status : Nat) : Encoding.Statement (.bulkAckArrival msg units status) := by
  intro e f h; cases h

theorem Encoding.peerCancelArrival (msg : Nat) : Encoding.Statement (.peerCancelArrival msg) := by
  intro e f h; cases h

theorem Encoding.settlePoint (wid : Nat) (seq : Nat) : Encoding.Statement (.settlePoint wid seq) := by
  intro e f h; cases h

theorem Encoding.barrierRelease (tid : Nat) (k : Nat) : Encoding.Statement (.barrierRelease tid k) := by
  intro e f h; cases h

theorem Encoding.hookCreditCommit (wid : Nat) (h : Nat) (n : Nat) : Encoding.Statement (.hookCreditCommit wid h n) := by
  intro e f h; cases h

theorem Encoding.waitRelease (wid : Nat) : Encoding.Statement (.waitRelease wid) := by
  intro e f h; cases h

theorem Encoding.timedWaitExpiry (wid : Nat) : Encoding.Statement (.timedWaitExpiry wid) := by
  intro e f h; cases h

theorem Encoding.wqEntryArrival (unit : Nat) : Encoding.Statement (.wqEntryArrival unit) := by
  intro e f h; cases h

theorem Encoding.syscReply (op : Nat) (v : Word) : Encoding.Statement (.syscReply op v) := by
  intro e f h; cases h

theorem Encoding.trapEntry (wid : Nat) : Encoding.Statement (.trapEntry wid) := by
  intro e f h; cases h

theorem Encoding.watchdogExpiry (wid : Nat) : Encoding.Statement (.watchdogExpiry wid) := by
  intro e f h; cases h

theorem Encoding.voltageMachineCheck (wid : Nat) : Encoding.Statement (.voltageMachineCheck wid) := by
  intro e f h; cases h

theorem Encoding.preemptRequest (ctx : Nat) (cores : List Nat) : Encoding.Statement (.preemptRequest ctx cores) := by
  intro e f h; cases h

theorem Encoding.closetSave (ctx : Nat) : Encoding.Statement (.closetSave ctx) := by
  intro e f h; cases h

theorem Encoding.preemptRestore (tid : Nat) (core : Nat) (spots : List (Nat × Nat)) : Encoding.Statement (.preemptRestore tid core spots) := by
  intro e f h; cases h

theorem Encoding.warpEnd (wid : Nat) : Encoding.Statement (.warpEnd wid) := by
  intro e f h; cases h

theorem Encoding.launchRetirement (lid : Nat) : Encoding.Statement (.launchRetirement lid) := by
  intro e f h; cases h

theorem Encoding.fillerEnd (core : Nat) : Encoding.Statement (.fillerEnd core) := by
  intro e f h; cases h

theorem Encoding.islandEnterNt (core : Nat) (room : Nat) (k : Nat) : Encoding.Statement (.islandEnterNt core room k) := by
  intro e f h; cases h

theorem Encoding.islandExitNt (core : Nat) (room : Nat) (k : Nat) : Encoding.Statement (.islandExitNt core room k) := by
  intro e f h; cases h

theorem Encoding.islandEnterRet (core : Nat) (room : Nat) (k : Nat) : Encoding.Statement (.islandEnterRet core room k) := by
  intro e f h; cases h

theorem Encoding.islandExitRet (core : Nat) (room : Nat) (k : Nat) : Encoding.Statement (.islandExitRet core room k) := by
  intro e f h; cases h

theorem Encoding.powerOnBoot (img : List Byte) : Encoding.Statement (.powerOnBoot img) := by
  intro e f h; cases h

theorem Encoding.mailboxStore (src : Nat) (dst : Nat) (mb : Nat) (msg : BitVec 512) : Encoding.Statement (.mailboxStore src dst mb msg) := by
  intro e f h; cases h

theorem Encoding.mailboxAck (core : Nat) (mb : Nat) : Encoding.Statement (.mailboxAck core mb) := by
  intro e f h; cases h

theorem Encoding.heartbeatWrite (core : Nat) : Encoding.Statement (.heartbeatWrite core) := by
  intro e f h; cases h

theorem Encoding.supervisorFatal (core : Nat) : Encoding.Statement (.supervisorFatal core) := by
  intro e f h; cases h

theorem Encoding.supervisorRelease (core : Nat) : Encoding.Statement (.supervisorRelease core) := by
  intro e f h; cases h

theorem Encoding.complexReset (img : List Byte) : Encoding.Statement (.complexReset img) := by
  intro e f h; cases h

theorem Encoding.bootTimeoutPark : Encoding.Statement (.bootTimeoutPark ) := by
  intro e f h; cases h

theorem Encoding.parkedLaunchResume (lost : List Nat) : Encoding.Statement (.parkedLaunchResume lost) := by
  intro e f h; cases h

theorem Encoding.lockoutClear (src : Nat) : Encoding.Statement (.lockoutClear src) := by
  intro e f h; cases h

theorem Encoding.queueCreate (qid : Nat) (qbase : Dword) (qsz : Nat) (ctx : Nat) (slot : Nat) (key : BitVec 128) : Encoding.Statement (.queueCreate qid qbase qsz ctx slot key) := by
  intro e f h; cases h

theorem Encoding.contextEnable (ctx : Nat) : Encoding.Statement (.contextEnable ctx) := by
  intro e f h; cases h

theorem Encoding.contextDisable (ctx : Nat) : Encoding.Statement (.contextDisable ctx) := by
  intro e f h; cases h

theorem Encoding.teamPlacement (lid : Nat) (core : Nat) (spots : List (Nat × Nat)) : Encoding.Statement (.teamPlacement lid core spots) := by
  intro e f h; cases h

theorem Encoding.hbmUncorrectableError (block : Nat) : Encoding.Statement (.hbmUncorrectableError block) := by
  intro e f h; cases h

theorem Encoding.powerControllerPoison (block : Nat) : Encoding.Statement (.powerControllerPoison block) := by
  intro e f h; cases h

theorem Encoding.deferMap (walk : Nat) (pa : Nat) (e : Dword) : Encoding.Statement (.deferMap walk pa e) := by
  intro e f h; cases h

theorem Encoding.deferDecline (walk : Nat) : Encoding.Statement (.deferDecline walk) := by
  intro e f h; cases h

theorem Encoding.keySlotLoad (slot : Nat) (key : BitVec 512) : Encoding.Statement (.keySlotLoad slot key) := by
  intro e f h; cases h

theorem Encoding.keySlotClear (slot : Nat) : Encoding.Statement (.keySlotClear slot) := by
  intro e f h; cases h

theorem Encoding.cellarWindowGrant (ctx : Nat) (base : Nat) (len : Nat) (zp : Bool) : Encoding.Statement (.cellarWindowGrant ctx base len zp) := by
  intro e f h; cases h

theorem Encoding.windowEntryWrite (win : Nat) (e : BitVec 256) : Encoding.Statement (.windowEntryWrite win e) := by
  intro e f h; cases h

theorem Encoding.routeChange (src : Nat) (tgt : Nat) (via : Option Nat) : Encoding.Statement (.routeChange src tgt via) := by
  intro e f h; cases h

theorem Encoding.linkFailure (peer : Nat) : Encoding.Statement (.linkFailure peer) := by
  intro e f h; cases h

theorem Encoding.unsupportedFrameDiscard (peer : Nat) : Encoding.Statement (.unsupportedFrameDiscard peer) := by
  intro e f h; cases h

theorem Encoding.uetPacketDrop (port : Nat) : Encoding.Statement (.uetPacketDrop port) := by
  intro e f h; cases h

theorem Encoding.sv4Resume (wid : Nat) (regs : List (Nat × Nat × Word)) (csrs : List (Csr × Dword)) : Encoding.Statement (.sv4Resume wid regs csrs) := by
  intro e f h; cases h

theorem Encoding.sv4EnterHandler (wid : Nat) : Encoding.Statement (.sv4EnterHandler wid) := by
  intro e f h; cases h

theorem Encoding.sv4EndLaunch (wid : Nat) : Encoding.Statement (.sv4EndLaunch wid) := by
  intro e f h; cases h

theorem Encoding.coreFreeze (core : Nat) : Encoding.Statement (.coreFreeze core) := by
  intro e f h; cases h

theorem Encoding.spareMove (move : Nat × List Nat) : Encoding.Statement (.spareMove move) := by
  intro e f h; cases h

theorem Encoding.teamReplace (team : Nat × Bool) (core : Nat) (spots : List (Nat × Nat)) :
    Encoding.Statement (.teamReplace team core spots) := by
  intro e f h; cases h

theorem Encoding.clockTransition (cluster : Nat) (ratio : Nat) (stop : Nat) : Encoding.Statement (.clockTransition cluster ratio stop) := by
  intro e f h; cases h

theorem Encoding.attributedEccError (core : Nat) (room : Nat) (k : Nat) (lost : EccSite) :
    Encoding.Statement (.attributedEccError core room k lost) := by
  intro e f h; cases h

theorem Encoding.marginPlanInstall (cluster : Nat) (maxRatio : Nat) (guardMv : List Nat) (ntMv : List Nat) : Encoding.Statement (.marginPlanInstall cluster maxRatio guardMv ntMv) := by
  intro e f h; cases h

theorem Encoding.counterSnapshot (acct : Option Nat) (core : Nat) (room : Nat) : Encoding.Statement (.counterSnapshot acct core room) := by
  intro e f h; cases h

theorem Encoding.contextReassign (ctx : Nat) : Encoding.Statement (.contextReassign ctx) := by
  intro e f h; cases h

theorem Encoding.controlRegisterWrite (by' : Nat × Nat) (reg : Nat) (v : Dword) : Encoding.Statement (.controlRegisterWrite by' reg v) := by
  intro e f h; cases h

theorem Encoding.managementCancel (lid : Nat) : Encoding.Statement (.managementCancel lid) := by
  intro e f h; cases h

theorem Encoding.pageTableWrite (pa : Nat) (e : Dword) : Encoding.Statement (.pageTableWrite pa e) := by
  intro e f h; cases h

theorem Encoding.preemptWithdraw (ctx : Nat) : Encoding.Statement (.preemptWithdraw ctx) := by
  intro e f h; cases h

end Sys2Proof.Laws
end

