-- ==== Sys2Proof/Tests/Slice0.lean ====
section
/-! SUPPORT. Tests of the model: the decoding of words written out from the encoding tables, the well-formedness checks, one step
of an instruction on small states, and for every clause of a statement that has hypotheses a state and operands that meet them. -/

set_option Elab.async false

namespace Sys2Proof.Tests
open Sys2Proof Sys2Proof.Machine Sys2Proof.Claims

/-- Fields of a nop, and the modifiers of a float instruction. -/
def FN : Fields := ⟨.none, .none, .none, .none, false, false, false, .none, 0, false, false, 0⟩
def FR : Fr := ⟨.ru, false, true⟩

/-- Registers of lane 0 with values, of tag 63. -/
def regsOf (vs : List (Nat × Word)) : Tbl RegCell := vs.map fun v => (regKey v.1 0, ⟨v.2, 0, 63, false⟩)

/-! ## Decoding: words written out from the encoding tables of the spec, and the instructions they stand for -/

/-- Fields with these operands, no last use, no predicate, U and GAP 0 (R110). -/
def fd (d a b c : Opnd) : Fields := ⟨d, a, b, c, false, false, false, .none, 0, false, false, 0⟩

/-- Whether each word decodes to the instruction beside it. -/
def decodes (l : List (Nat × Instr)) : Bool := l.all fun p => decodeTableWord 96 p.1 == some p.2

/-- Integer (R186 to R188). -/
theorem test_decode_integer_0 : decodes [
    (0x004080100CFFC7FE00030000, .iadd (fd (.reg 8) (.reg 4) (.reg 12) .none) true true),
    (0x0080801303FFE03078010000, .isub { fd (.reg 8) (.reg 4) (.ln 3) .none with lua := true, p := .reg 24, pb := 7, pn := true } true false),
    (0x00C080100C0507FE000C0223, .iaddc (fd (.reg 8) (.reg 4) (.reg 12) (.reg 20)) true true 3 17),
    (0x01008FE40CFFD7FE03C00000, .imul { fd (.reg 8) (.kon .one) (.reg 12) .none with lub := true, gap := 15 } false false),
    (0x014080100CFFC7FE00020000, .imulhi (fd (.reg 8) (.reg 4) (.reg 12) .none) true),
    (0x018080100C050FFE00030000, .imad { fd (.reg 8) (.reg 4) (.reg 12) (.reg 20) with luc := true } true true),
    (0x01C080100C0507FE00020000, .imadw (fd (.reg 8) (.reg 4) (.reg 12) (.reg 20)) true),
    (0x023090100CFFC7FE00020000, .imin (fd (.hq 1) (.reg 4) (.reg 12) .none) true),
    (0x026FFC280CFFC7FE00000000, .imax (fd (.reg 767) (.hq 2) (.reg 12) .none) false),
    (0x02808013FFFFC7FE00010000, .iabs (fd (.reg 8) (.reg 4) .none .none) true),
    (0x02C080100C0507FE00060000, .isad (fd (.reg 8) (.reg 4) (.reg 12) (.reg 20)) true false true),
    (0x030080100C0507FE00090000, .idot4 (fd (.reg 8) (.reg 4) (.reg 12) (.reg 20)) false true true)] = true := by
  decide +kernel

/-- Integer (R186 to R188). -/
theorem test_decode_integer_1 : decodes [
    (0x034080100CFFC7FE00160BE0, .icmp (fd (.reg 8) (.reg 4) (.reg 12) .none) .ge .or true 31),
    (0x038080100C0507FE000000E8, .bool3 (fd (.reg 8) (.reg 4) (.reg 12) (.reg 20)) 0xE8#8),
    (0x03C08013FFFFC7FE0004003F, .shl (fd (.reg 8) (.reg 4) .none .none) (some 63)),
    (0x040080100CFFC7FE00000000, .shr (fd (.reg 8) (.reg 4) (.reg 12) .none) none),
    (0x04408013FFFFC7FE00040005, .sar (fd (.reg 8) (.reg 4) .none .none) (some 5)),
    (0x0480801320FFC7FE00000000, .rotl (fd (.reg 8) (.reg 4) (.sys .laneid) .none) none),
    (0x04C080100CFFC7FE000C0009, .fshl (fd (.reg 8) (.reg 4) (.reg 12) .none) true (some 9)),
    (0x05008013FFFFC7FE00060407, .bfx (fd (.reg 8) (.reg 4) .none .none) true (some (7, 32))),
    (0x054080100CFFC7FE0004003F, .bfi (fd (.reg 8) (.reg 4) (.reg 12) .none) (some (31, 1))),
    (0x05808013FFFFC7FE04000000, .popc { fd (.reg 8) (.reg 4) .none .none with u := true }),
    (0x05FFF013FFFFC7FE00000000, .clz (fd .none (.reg 4) .none .none)),
    (0x06008013FFFFC7FE00000000, .brev (fd (.reg 8) (.reg 4) .none .none))] = true := by
  decide +kernel

/-- Integer (R186 to R188). -/
theorem test_decode_integer_2 : decodes [
    (0x064080100CFEC7FE0000001E, .sel (fd (.reg 8) (.reg 4) (.reg 12) (.kon .ones)) 30),
    (0x06808FEBFFFFC7FE00040000, .mov (fd (.reg 8) (.kon .onef) .none .none) true),
    (0x070080100CFFC7FE00043210, .prmt (fd (.reg 8) (.reg 4) (.reg 12) .none) (some 0x3210)),
    (0x074080100C0507FE00020000, .iclamp (fd (.reg 8) (.reg 4) (.reg 12) (.reg 20)) true),
    (0x06C08FFF7AB6FBBC04800000, .movi (.reg 8) 0xDEADBEEF#32 true 2 false),
    (0x06C08FFE0000000400040000, .movi (.reg 8) 0x80000001#32 false 0 true)] = true := by
  decide +kernel

/-- Address (R186 to R188). -/
theorem test_decode_address_0 : decodes [
    (0x080080100CFFC7FE00060007, .lea (fd (.reg 8) (.reg 4) (.reg 12) .none) true true 7),
    (0x08408CB80CFFC7FE00040000, .add64 (fd (.reg 8) (.sys .timensLo) (.reg 12) .none) false true),
    (0x08808CC00CFFC7FE00020000, .sub64 (fd (.reg 8) (.sys .tickcntLo) (.reg 12) .none) true false),
    (0x08C080100CFFC7FE000A0520, .cmp64 (fd (.reg 8) (.reg 4) (.reg 12) .none) .lt .and true 9),
    (0x09306013FFFFC7FE0004007F, .shl64 (fd (.ln 6) (.reg 4) .none .none) (some 127)),
    (0x094080100CFFC7FE00080000, .shr64 (fd (.reg 8) (.reg 4) (.reg 12) .none) true none),
    (0x098080100C0507FE00020000, .mad64 (fd (.reg 8) (.reg 4) (.reg 12) (.reg 20)) true false)] = true := by
  decide +kernel

/-- Float (R21, R205). -/
theorem test_decode_float_0 : decodes [
    (0x100080100CFFC7FE00050000, .fadd (fd (.reg 8) (.reg 4) (.reg 12) .none) ⟨.rz, true, false⟩),
    (0x104080100CFFC7FE000A0000, .fsub (fd (.reg 8) (.reg 4) (.reg 12) .none) ⟨.rd, false, true⟩),
    (0x108080100CFFC7FE00000000, .fmul (fd (.reg 8) (.reg 4) (.reg 12) .none) ⟨.rn, false, false⟩),
    (0x10C080100C0507FE00100000, .ffma (fd (.reg 8) (.reg 4) (.reg 12) (.reg 20)) ⟨.rn, false, false⟩ true false),
    (0x110080100CFFC7FE00100000, .fmin (fd (.reg 8) (.reg 4) (.reg 12) .none) true false),
    (0x114080100CFFC7FE00080000, .fmax (fd (.reg 8) (.reg 4) (.reg 12) .none) false true),
    (0x118080100CFFC7FE0008088B, .fcmp (fd (.reg 8) (.reg 4) (.reg 12) .none) .geu .or true 4),
    (0x11C08013FFFFC7FE00100000, .fclass (fd (.reg 8) (.reg 4) .none .none) true false),
    (0x12008013FFFFC7FE00130000, .frint (fd (.reg 8) (.reg 4) .none .none) ⟨.ru, false, false⟩ true),
    (0x124080100CFFC7FE000B0000, .fscale (fd (.reg 8) (.reg 4) (.reg 12) .none) ⟨.ru, false, true⟩),
    (0x12808013FFFFC7FE00080000, .fexpnE (fd (.reg 8) (.reg 4) .none .none) true),
    (0x12808013FFFFC7FE00100000, .fexpnM (fd (.reg 8) (.reg 4) .none .none) false)] = true := by
  decide +kernel

/-- Float (R21, R205). -/
theorem test_decode_float_1 : decodes [
    (0x140080100CFFC7FE000E0000, .dadd (fd (.reg 8) (.reg 4) (.reg 12) .none) ⟨.rd, true, true⟩),
    (0x144080100CFFC7FE00010000, .dmul (fd (.reg 8) (.reg 4) (.reg 12) .none) ⟨.rz, false, false⟩),
    (0x148080100C0507FE00200000, .dfma (fd (.reg 8) (.reg 4) (.reg 12) (.reg 20)) ⟨.rn, false, false⟩ false true),
    (0x14C080100CFFC7FE00000046, .dcmp (fd (.reg 8) (.reg 4) (.reg 12) .none) .un .set false 2),
    (0x150080100CFFC7FE00180000, .dmin (fd (.reg 8) (.reg 4) (.reg 12) .none) true true),
    (0x154080100CFFC7FE00000000, .dmax (fd (.reg 8) (.reg 4) (.reg 12) .none) false false),
    (0x160080100CFFC7FE00010010, .hadd2 (fd (.reg 8) (.reg 4) (.reg 12) .none) .rz false true),
    (0x164080100CFFC7FE00040000, .hmul2 (fd (.reg 8) (.reg 4) (.reg 12) .none) .rn true false),
    (0x168080100C0507FE00130010, .hfma2 (fd (.reg 8) (.reg 4) (.reg 12) (.reg 20)) .ru false true true false),
    (0x16C080100CFFC7FE000007D4, .hcmp2 (fd (.reg 8) (.reg 4) (.reg 12) .none) .gt .and true 30),
    (0x170080100CFFC7FE00000010, .hmin2 (fd (.reg 8) (.reg 4) (.reg 12) .none) true false),
    (0x174080100CFFC7FE00100000, .hmax2 (fd (.reg 8) (.reg 4) (.reg 12) .none) false true)] = true := by
  decide +kernel

/-- Special (R205, R220). -/
theorem test_decode_special_0 : decodes [
    (0x18008013FFFFC7FE00000000, .rcp (fd (.reg 8) (.reg 4) .none .none) false),
    (0x18408013FFFFC7FE00080000, .rsq (fd (.reg 8) (.reg 4) .none .none) true),
    (0x18808013FFFFC7FE00000000, .sqrt (fd (.reg 8) (.reg 4) .none .none) false),
    (0x18C08013FFFFC7FE00080000, .ex2 (fd (.reg 8) (.reg 4) .none .none) true),
    (0x19008013FFFFC7FE00000000, .lg2 (fd (.reg 8) (.reg 4) .none .none) false),
    (0x19408013FFFFC7FE00080000, .sin (fd (.reg 8) (.reg 4) .none .none) true),
    (0x19808013FFFFC7FE00000000, .cos (fd (.reg 8) (.reg 4) .none .none) false),
    (0x19C08013FFFFC7FE00080000, .tanh (fd (.reg 8) (.reg 4) .none .none) true),
    (0x1A008013FFFFC7FE00080000, .drcp (fd (.reg 8) (.reg 4) .none .none) true),
    (0x1C008013FFFFC7FE0005074C, .cvt (fd (.reg 8) (.reg 4) .none .none) ⟨.rz, true, false⟩ .s32 .e2m1 7),
    (0x1C408013FFFFC7FE000100B0, .cvtscScale (fd (.reg 8) (.reg 4) .none .none) .e5m2),
    (0x1C4080100CFFC7FE000000C0, .cvtsc (fd (.reg 8) (.reg 4) (.reg 12) .none) .e2m1)] = true := by
  decide +kernel

/-- Special (R205, R220). -/
theorem test_decode_special_1 : decodes [
    (0x1C8080100CFFC7FE00000000, .pack2 (fd (.reg 8) (.reg 4) (.reg 12) .none)),
    (0x1CC080100C0507FE00010000, .pack4 (fd (.reg 8) (.reg 4) (.reg 12) (.reg 20)) true),
    (0x1D008013FFFFC7FE0001000E, .unpack (fd (.reg 8) (.reg 4) .none .none) true .w4 3),
    (0x1E008013FFFFC7FE00000000, .sigrd (fd (.reg 8) (.reg 4) .none .none)),
    (0x1E4080100CFFC7FE00010000, .sigwr (fd (.reg 8) (.reg 4) (.reg 12) .none) true),
    (0x1E808013FFFFC7FE00000000, .sigmin (fd (.reg 8) (.reg 4) .none .none))] = true := by
  decide +kernel

/-- Lanes (R229, R236). -/
theorem test_decode_lanes_0 : decodes [
    (0x20008013FFFFC7FE0006003F, .nbr (fd (.reg 8) (.reg 4) .none .none) .chain true false 63),
    (0x204080100CFFC7FE00080000, .shflIdx (fd (.reg 8) (.reg 4) (.reg 12) .none) true),
    (0x20408013FFFFC7FE00010021, .shflXor (fd (.reg 8) (.reg 4) .none .none) false 33),
    (0x20808013FFFFC7FE00000006, .voteBallot (fd (.reg 8) (.reg 4) .none .none) 6),
    (0x20808013FFFFC7FE000108A6, .voteAny (fd (.reg 8) (.reg 4) .none .none) 6 5 .or),
    (0x20808013FFFFC7FE00020441, .voteAll (fd (.reg 8) (.reg 4) .none .none) 1 2 .and),
    (0x20808013FFFFC7FE000303E0, .voteEq (fd (.reg 8) (.reg 4) .none .none) 0 31 .set),
    (0x20C08013FFFFC7FE001E0000, .red (fd (.reg 8) (.reg 4) .none .none) .amax .f64),
    (0x21008013FFFFC7FE000D0001, .scan (fd (.reg 8) (.reg 4) .none .none) .xor .z32 true),
    (0x21408013FFFFC7FE00080000, .matchLanes (fd (.reg 8) (.reg 4) .none .none) true)] = true := by
  decide +kernel

/-- Memory (R278 to R281, R291, R354, R355). -/
theorem test_decode_memory_0 : decodes [
    (0x40408053FF03C7FE0019FFF8, .ld (fd (.reg 8) (.reg 20) .none .none) .b16 true true 15 0xFFF8#16),
    (0x40BFF050092497FE00100010, .st { fd .none (.reg 20) (.reg 9) .none with lub := true } .b8 true 9 2 0x10#16),
    (0x40C08053FF3C47FE00240000, .ldr (fd (.reg 8) (.reg 20) .none .none) .b128 false .noL1 15 1 0#16),
    (0x4100805003FFC7FE00080004, .lds (fd (.reg 8) (.reg 20) (.reg 3) .none) .b8 true 4#16),
    (0x417FF05008FFC7FE00048000, .sts (fd .none (.reg 20) (.reg 8) .none) .b128 0x8000#16),
    (0x41808053FF00C7FE00130000, .ldt (fd (.reg 8) (.reg 20) .none .none) .b64 true 3 0#16),
    (0x41FFF050080107FE00020000, .stt (fd .none (.reg 20) (.reg 8) .none) .b32 false 4 0#16),
    (0x42008053FF0147FE00020008, .ldw (fd (.reg 8) (.reg 20) .none .none) .b32 false 5 8#16),
    (0x424080500C0187FE002F0020, .atom (fd (.reg 8) (.reg 20) (.reg 12) .none) .cas .z64 6 0x20#16),
    (0x428080500C01C7FE00160000, .atoms (fd (.reg 8) (.reg 20) (.reg 12) .none) .exch .f32 7 0#16),
    (0x447FF05003FFC7FE00200040, .pref (fd .none (.reg 20) (.reg 3) .none) .noL1 0x40#16),
    (0x43BFFFFFFFFFC7FE00000001, .fenceTeam (fd .none .none .none .none) false 1)] = true := by
  decide +kernel

/-- Memory (R278 to R281, R291, R354, R355). -/
theorem test_decode_memory_1 : decodes [
    (0x43BFFFFFFFFFC7FE00050002, .fencePair (fd .none .none .none .none) true 2),
    (0x43BFFFFFFFFFC7FE00020003, .fenceDev (fd .none .none .none .none) false 3),
    (0x43BFFFFFFFFFC7FE00070004, .fenceFab (fd .none .none .none .none) true 4),
    (0x43FFFFFFFFFFC7FE00040005, .afence (fd .none .none .none .none) true 5),
    (0x443FF05003FFC7FE04000006, .icinv { fd .none (.reg 20) (.reg 3) .none with u := true } 6),
    (0x44BFF053FFFFC7FE00010007, .spmarkFull (fd .none (.reg 20) .none .none) 7),
    (0x44BFF053FFFFC7FE00000008, .spmarkEmpty (fd .none (.reg 20) .none .none) 8),
    (0x450080500CFFC7FE000001F9, .wqenq (fd (.reg 8) (.reg 20) (.reg 12) .none) 31 9),
    (0x45408053FFFFC7FE0001000A, .wqdeq (fd (.reg 8) (.reg 20) .none .none) true 10),
    (0x42C08053FF00C7FE00130010, .rld (fd (.reg 8) (.reg 20) .none .none) .b64 false true 3 0x10#16),
    (0x433FF050083C87FE00020000, .rst (fd .none (.reg 20) (.reg 8) .none) .b32 false 15 2 0#16),
    (0x434080500C0047FE00220000, .ratom (fd (.reg 8) (.reg 20) (.reg 12) .none) .max .s64 1 0#16)] = true := by
  decide +kernel

/-- CopyAndBulk (R303, R304, R363, R364). -/
theorem test_decode_copyAndBulk_0 : decodes [
    (0x807FF050030107FE00060001, .cpyIn (fd .none (.reg 20) (.reg 3) (.reg 4)) true true 1),
    (0x807FF050030107FE00010052, .cpyOut (fd .none (.reg 20) (.reg 3) (.reg 4)) false 5 2),
    (0x80BFFFFC28FFC7FE00040004, .cpytIn (fd .none .none (.reg 40) .none) false true 4),
    (0x80BFFFFC28FFC7FE000500F5, .cpytOut (fd .none .none (.reg 40) .none) true 15 5),
    (0x80FFFFFC28FFC7FE00020006, .cpyg (fd .none .none (.reg 40) .none) true false 6),
    (0x813FFFFC28FFC7FE00240007, .cpys (fd .none .none (.reg 40) .none) .addi true 0 7),
    (0x813FFFFC28FFC7FE00000037, .cpys (fd .none .none (.reg 40) .none) .none false 3 7),
    (0x817FF050030107FE00020008, .cpyfSp (fd .none (.reg 20) (.reg 3) (.reg 4)) true 8),
    (0x817FF0501E0107FE00050029, .cpyfMem (fd .none (.reg 20) (.reg 30) (.reg 4)) true 2 9),
    (0x81BFF050030107FE0002000A, .cpyw (fd .none (.reg 20) (.reg 3) (.reg 4)) true 10),
    (0x81FFF05003010FFE0000000B, .cpyc { fd .none (.reg 20) (.reg 3) (.reg 4) with luc := true } false 11),
    (0x84003FFC30FFC7FE0000000C, .bsend (fd (.reg 3) .none (.reg 48) .none) 12)] = true := by
  decide +kernel

/-- CopyAndBulk (R303, R304, R363, R364). -/
theorem test_decode_copyAndBulk_1 : decodes [
    (0x84403FFC30FFC7FE00000006, .brecv (fd (.reg 3) .none (.reg 48) .none) 6),
    (0x84803017FFFFC7FE00000001, .bprobeSnd (fd (.reg 3) (.reg 5) .none .none) 1),
    (0x84803017FFFFC7FE00010002, .bprobeRcv (fd (.reg 3) (.reg 5) .none .none) 2),
    (0x84FFF017FFFFC7FE00000003, .bcancelSnd (fd .none (.reg 5) .none .none) 3),
    (0x84FFF017FFFFC7FE00010004, .bcancelRcv (fd .none (.reg 5) .none .none) 4)] = true := by
  decide +kernel

/-- Matrix (R325, R326). -/
theorem test_decode_matrix_0 : decodes [
    (0x883FFFFFFFFFC7FE00010FD1, .mcfg (fd .none .none .none .none) true 5 7 3 1),
    (0x887FF053FF0107FE000D0182, .mloft (fd .none (.reg 20) .none (.reg 4)) .s4 3 2),
    (0x88BFF053FF0107FE00070103, .mloftw (fd .none (.reg 20) .none (.reg 4)) .bf16 2 3),
    (0x88FFFFFC28FFC7FE00000084, .mlofth (fd .none .none (.reg 40) .none) 1 4),
    (0x893FF100481407FE000A10A5, .mma (fd .none (.reg 64) (.reg 72) (.reg 80)) .e4m3 2 1 8 5),
    (0x897FF053FF0107FE0001FE76, .mmas (fd .none (.reg 20) .none (.reg 4)) .z8 7 0 127 6),
    (0x89BFF053FF0107FE00100187, .mscl (fd .none (.reg 20) .none (.reg 4)) true 3 7),
    (0x89C10FFFFFFFC7FE00008248, .mdrainReg (fd (.reg 16) .none .none .none) 4 65 8),
    (0x89FFF05003FFC7FE002C0069, .mdrainScratch (fd .none (.reg 20) (.reg 3) .none) .e2m1 true false true 6 9),
    (0x89FFF053FFFFC7FE00110069, .mdrainScratch (fd .none (.reg 20) .none .none) .raw false true false 6 9),
    (0x8A3FFFFFFFFFC7FE0000003A, .mzero (fd .none .none .none .none) 3 10),
    (0x8A7FFFFFFFFFC7FE0000000B, .mfence (fd .none .none .none .none) 11)] = true := by
  decide +kernel

/-- Control (R167 to R169, R414). -/
theorem test_decode_control_0 : decodes [
    (0xC07FFFFFFFFFC605F000FFFC, .bra { fd .none .none .none .none with p := .ln 2, pb := 31 } ⟨0x1FFF#13, 4#3⟩),
    (0xC0BFF053FFFFC7FE00000000, .brx (fd .none (.reg 20) .none .none)),
    (0xC0FFFFFFFFFFC7FE00000008, .call (fd .none .none .none .none) ⟨1#13, 0#3⟩),
    (0xC13FF053FFFFE7FE00000000, .callx { fd .none (.reg 20) .none .none with lua := true }),
    (0xC17FFFFFFFFFC7FE00000000, .ret (fd .none .none .none .none)),
    (0xC1BFFFFFFFFFC01208000011, .brp { fd .none .none .none .none with p := .reg 9, pn := true } ⟨2#13, 1#3⟩),
    (0xC1FFFFFFFFFFC0121000001A, .brany { fd .none .none .none .none with p := .reg 9, pb := 1 } ⟨3#13, 2#3⟩),
    (0xC23FFFFFFFFFC01220000023, .brall { fd .none .none .none .none with p := .reg 9, pb := 2 } ⟨4#13, 3#3⟩),
    (0xC27FF053FFFFC7FE0028002C, .brsig (fd .none (.reg 20) .none .none) 40 ⟨5#13, 4#3⟩),
    (0xC2BFFFFFFFFFC7FE00000030, .regang (fd .none .none .none .none) ⟨6#13, 0#3⟩),
    (0xC2FFFFFFFFFFC66400000000, .exit { fd .none .none .none .none with p := .sys .lanemask }),
    (0xC3FFFFFFFFFFC7FE00C00000, .yield { fd .none .none .none .none with gap := 3 })] = true := by
  decide +kernel

/-- Control (R167 to R169, R414). -/
theorem test_decode_control_1 : decodes [
    (0xC6FFF02009FFC7FE0020FFF0, .loop (fd .none (.reg 8) (.reg 9) .none) 0x20#6 ⟨0x1FFE#13, 0#3⟩),
    (0xC33FFFFFFFFFC7FE0000BEEF, .trap (fd .none .none .none .none) 0xBEEF#16),
    (0xC37FFFFFFFFFC7FE00000000, .rte (fd .none .none .none .none)),
    (0xC3BFF05003FFC7FE00000400, .syscIcb (fd .none (.reg 20) (.reg 3) .none) 4),
    (0xC380805003FFC7FE000005FF, .sysc (fd (.reg 8) (.reg 20) (.reg 3) .none) 255 5)] = true := by
  decide +kernel

/-- WaitAndSystem (R391, R392). -/
theorem test_decode_waitAndSystem_0 : decodes [
    (0xC43FF027FFFFC7FE00000002, .wait (fd .none (.reg 9) .none .none) 2),
    (0xC43FFFFFFFFFC7FE00010000, .waitAll (fd .none .none .none .none)),
    (0xC47FFFFFFFFFC7FE000003F3, .hkadjUp (fd .none .none .none .none) 3 63),
    (0xC47FFFFFFFFFC7FE00010073, .hkadjDn (fd .none .none .none .none) 3 7 none),
    (0xC47FFFFFFFFFC7FE00037C73, .hkadjDn (fd .none .none .none .none) 3 7 (some 31)),
    (0xC4BFFFFC06FFC7FE00010003, .bar (fd .none .none (.reg 6) .none) true 3),
    (0xC4FFFFFFFFFFC7FE0000000F, .bara (fd .none .none .none .none) false 15),
    (0xC53FFFFFFFFFC7FE00000004, .barw (fd .none .none .none .none) 4),
    (0xC57FF027FFFFC7FE00000000, .sleepns (fd .none (.reg 9) .none .none)),
    (0xC5BFF027FFFFC7FE00000000, .waitns (fd .none (.reg 9) .none .none)),
    (0xC5FFF0240A02C7FE00000006, .knock (fd .none (.reg 9) (.reg 10) (.reg 11)) 6)] = true := by
  decide +kernel

/-- ControlRegister (R414, R417). -/
theorem test_decode_controlRegister_0 : decodes [
    (0xC6008FFFFFFFC7FE00000000, .csrr (fd (.reg 8) .none .none .none) false .fpsr),
    (0xC67FF023FFFFC7FE00000001, .csrw (fd .none (.reg 8) .none .none) false .fpte),
    (0xC6808033FFFFC7FE00000002, .csrx (fd (.reg 8) (.reg 12) .none .none) false .sigthr),
    (0xC6008FFFFFFFC7FE00010003, .csrr (fd (.reg 8) .none .none .none) true .shbase),
    (0xC67FF023FFFFC7FE00000004, .csrw (fd .none (.reg 8) .none .none) false .memst),
    (0xC6808033FFFFC7FE00010005, .csrx (fd (.reg 8) (.reg 12) .none .none) true .wct),
    (0xC6008FFFFFFFC7FE00010006, .csrr (fd (.reg 8) .none .none .none) true .wqbind),
    (0xC67FF023FFFFC7FE00010007, .csrw (fd .none (.reg 8) .none .none) true .refwin),
    (0xC6808033FFFFC7FE00000008, .csrx (fd (.reg 8) (.reg 12) .none .none) false .wdog),
    (0xC6008FFFFFFFC7FE00000009, .csrr (fd (.reg 8) .none .none .none) false .islhint),
    (0xC67FF023FFFFC7FE00000010, .csrw (fd .none (.reg 8) .none .none) false .trcause),
    (0xC6808033FFFFC7FE00010011, .csrx (fd (.reg 8) (.reg 12) .none .none) true .trpc)] = true := by
  decide +kernel

/-- ControlRegister (R414, R417). -/
theorem test_decode_controlRegister_1 : decodes [
    (0xC6008FFFFFFFC7FE00010012, .csrr (fd (.reg 8) .none .none .none) true .trlanes),
    (0xC67FF023FFFFC7FE00000013, .csrw (fd .none (.reg 8) .none .none) false .trdst),
    (0xC6808033FFFFC7FE00010014, .csrx (fd (.reg 8) (.reg 12) .none .none) true .trval),
    (0xC6008FFFFFFFC7FE00010015, .csrr (fd (.reg 8) .none .none .none) true .trhand),
    (0xC67FF023FFFFC7FE00010016, .csrw (fd .none (.reg 8) .none .none) true .trdel),
    (0xC6808033FFFFC7FE00000017, .csrx (fd (.reg 8) (.reg 12) .none .none) false .trstat),
    (0xC6008FFFFFFFC7FE00010018, .csrr (fd (.reg 8) .none .none .none) true .syshand),
    (0xC67FF023FFFFC7FE0001001C, .csrw (fd .none (.reg 8) .none .none) true .trsav0),
    (0xC6808033FFFFC7FE0001001D, .csrx (fd (.reg 8) (.reg 12) .none .none) true .trsav1),
    (0xC6008FFFFFFFC7FE0001001E, .csrr (fd (.reg 8) .none .none .none) true .trsav2),
    (0xC67FF023FFFFC7FE0001001F, .csrw (fd .none (.reg 8) .none .none) true .trsav3)] = true := by
  decide +kernel

/-- Example (the spec's own example words: R127, R169, R206, R229, R279, R304, R326, R355, R364, R392, R414). -/
theorem test_decode_example_0 : decodes [
    (0x003FFFFFFFFFC7FE00000000, .nopV 0),
    (0x403FFFFFFFFFC7FE00000000, .nopM 0),
    (0x803FFFFFFFFFC7FE00000000, .nopK 0),
    (0xC03FFFFFFFFFC7FE00000000, .nopC 0),
    (0x10C080100C05103000430000, .ffma { fd (.reg 8) (.reg 4) (.reg 12) (.reg 20) with lub := true, p := .reg 24, gap := 1 } ⟨.ru, false, false⟩ false false),
    (0x20C14023FFFFE7FE00100000, .red { fd (.reg 20) (.reg 8) .none .none with lua := true } .add .f32),
    (0x40408050030087FE00030100, .ld (fd (.reg 8) (.reg 20) (.reg 3) .none) .b64 false false 2 0x100#16),
    (0x80BFFFFC28FFC7FE00020003, .cpytIn (fd .none .none (.reg 40) .none) true false 3),
    (0x893FF100481407FE000A10A5, .mma (fd .none (.reg 64) (.reg 72) (.reg 80)) .e4m3 2 1 8 5),
    (0x42C08053FF00C7FE00030010, .rld (fd (.reg 8) (.reg 20) .none .none) .b64 false false 3 0x10#16),
    (0x84403FFC30FFC7FE00000006, .brecv (fd (.reg 3) .none (.reg 48) .none) 6),
    (0xC43FF027FFFFC7FE00000002, .wait (fd .none (.reg 9) .none .none) 2)] = true := by
  decide +kernel

/-- Example (the spec's own example words: R127, R169, R206, R229, R279, R304, R326, R355, R364, R392, R414). -/
theorem test_decode_example_1 : decodes [
    (0xC4BFFFFFFFFFC7FE00010003, .bar (fd .none .none .none .none) true 3),
    (0xC33FFFFFFFFFC7FE00000007, .trap (fd .none .none .none .none) 7#16),
    (0xC37FFFFFFFFFC7FE00000000, .rte (fd .none .none .none .none)),
    (0xC600CFFFFFFFC7FE00010012, .csrr (fd (.reg 12) .none .none .none) true .trlanes),
    (0xC67FFFE3FFFFC7FE00000000, .csrw (fd .none (.kon .zero) .none .none) false .fpsr),
    (0xC07FFFFFFFFFC0185800001A, .bra { fd .none .none .none .none with p := .reg 12, pb := 5, pn := true } ⟨3#13, 2#3⟩),
    (0xC6FFF02009FFC7FE0001FFF0, .loop (fd .none (.reg 8) (.reg 9) .none) 1#6 ⟨0x1FFE#13, 0#3⟩)] = true := by
  decide +kernel

/-! ## The well-formedness checks: an ill-formed term for each, which the check refuses -/

/-- Whether every syllable of a list is refused. -/
def refusedAll (l : List Instr) : Bool := l.all fun i => !i.wf

/-- Operands of a syllable with one source, with two and with three. -/
def f1 : Fields := fd (.reg 8) (.reg 4) .none .none
def f2 : Fields := fd (.reg 8) (.reg 4) (.reg 12) .none
def f3 : Fields := fd (.reg 8) (.reg 4) (.reg 12) (.reg 20)
def fA : Fields := fd .none (.reg 20) .none .none

/-- The operands the ill-formed terms below start from are well formed. -/
theorem test_wf_base : ([.popc f1, .iadd f2 false false, .imad f3 false false, .st { f2 with d := .none } .b32 false 0 0 0,
    .mmas (fd .none (.reg 4) .none (.reg 20)) .bf16 0 0 0 0, .mdrainReg (fd (.reg 8) .none .none .none) 0 0 0] : List Instr).all Instr.wf = true := by
  decide +kernel

/-- Operand numbers outside R116. -/
theorem test_wf_operands : refusedAll [.mov { f1 with a := .reg 768 } false, .mov { f1 with a := .ln 8 } false,
    .mov { f1 with a := .hq 4 } false, .mov { f1 with d := .reg 768 } false, .iadd { f2 with b := .ln 8 } false false,
    .imad { f3 with c := .hq 4 } false false, .popc { f1 with p := .reg 768 }] = true := by decide +kernel

/-- Destinations that do not fit (R116, R118, R119, R190, R282, R329). -/
theorem test_wf_destinations : refusedAll [.sts { f2 with d := .reg 8 } .b32 0, .popc { f1 with d := .sys .laneid },
    .popc { f1 with d := .kon .zero }, .icmp { f2 with d := .hq 0 } .eq .set false 0, .lds { f1 with d := .hq 0 } .b32 false 0,
    .mov { f1 with d := .reg 9 } true, .mov { f1 with d := .ln 1 } true, .mov { f1 with d := .hq 0 } true,
    .ld { f1 with d := .reg 10 } .b128 false false 0 0, .ld { f1 with d := .ln 2 } .b128 false false 0 0,
    .mdrainReg (fd (.reg 12) .none .none .none) 0 0 0, .mdrainReg (fd .none .none .none .none) 0 0 0] = true := by decide +kernel

/-- Sources that do not fit (R116 to R120, R44, R122, R282, R306, R329). -/
theorem test_wf_sources : refusedAll [.popc f2, .iadd f1 false false, .iadd f3 false false, .imad f2 false false,
    .st f2 .b32 false 0 0 0, .lds { f1 with a := .hq 0 } .b32 false 0, .lds { f1 with a := .none } .b32 false 0,
    .add64 { f2 with a := .reg 5 } false false, .add64 { f2 with a := .ln 3 } false false, .add64 { f2 with a := .hq 0 } false false,
    .add64 { f2 with b := .sys .laneid } false false, .mov { f1 with a := .sys .timensHi } true,
    .st { f2 with d := .none, b := .reg 10 } .b128 false 0 0 0, .st { f2 with d := .none, b := .kon .zero } .b128 false 0 0 0,
    .bar (fd .none .none (.hq 0) .none) false 0, .ld { f2 with b := .kon .zero, c := .reg 3 } .b32 false false 0 0,
    .brsig { fA with a := .kon .zero } 1 ⟨0, 0⟩, .cpytIn (fd .none .none (.reg 41) .none) false false 0,
    .cpytIn (fd .none .none (.reg 746) .none) false false 0, .cpytIn (fd .none .none (.ln 0) .none) false false 0,
    .cpyg (fd .none .none (.reg 762) .none) false false 0, .mma (fd .none (.reg 4) .none (.reg 20)) .bf16 0 0 0 0,
    .mma (fd .none (.reg 8) (.reg 3) (.reg 20)) .bf16 0 0 0 0, .mma (fd .none (.reg 8) .none (.reg 20)) .e4m3 0 0 0 0,
    .mma (fd .none (.reg 8) (.kon .one) (.reg 20)) .e4m3 0 0 0 0] = true := by decide +kernel

/-- Last-use bits, predicates, U, GAP and hatches that may not stand (R110, R115, R122 to R125, R325). -/
theorem test_wf_common : refusedAll [.mov { f1 with a := .kon .one, lua := true } false, .mov { f1 with lub := true } false,
    .mov { f1 with luc := true } false, .popc { f1 with p := .kon .one }, .popc { f1 with p := .hq 0 }, .popc { f1 with pb := 1 },
    .popc { f1 with pn := true }, .popc { f1 with p := .reg 3, pb := 32 }, .ret { fA with a := .none, p := .reg 3 },
    .sigmin { f1 with u := true }, .bra { fA with a := .none, u := true } ⟨0, 0⟩, .popc { f1 with gap := 16 },
    .popc { f1 with a := .hq 0, u := true }, .popc { f1 with d := .hq 0, u := true }, .iadd { f2 with a := .hq 1, b := .hq 1 } false false,
    .imad { f3 with b := .hq 1, c := .hq 1 } false false, .imad { f3 with a := .hq 1, c := .hq 1 } false false,
    .mma { fd .none (.reg 8) .none (.reg 20) with lua := true } .bf16 0 0 0 0,
    .mma { fd .none (.reg 8) (.reg 3) (.reg 20) with lub := true } .e4m3 0 0 0 0] = true := by decide +kernel

/-- Modifiers that are not defined (R126, R188, R236, R279, R291, R21, R326, R169, R414). -/
theorem test_wf_modifiers : refusedAll [.iadd f2 false true, .isub f2 false true, .imul f2 false true, .imad f3 false true,
    .red f1 .and .f32, .scan f1 .amax .s32 false, .ld f1 .b32 true false 0 0, .lds f1 .b64 true 0, .ldw f1 .b32 true 0 0,
    .ldr f1 .b128 true .normal 0 0 0, .rld f1 .b32 true false 0 0, .ldt f1 .b8 false 0 0, .stt { f2 with d := .none } .b16 false 0 0,
    .atom f2 .and .f32 0 0, .atoms { f2 with b := .reg 12 } .xor .f64 0 0, .ratom f2 .or .f32 0 0,
    .cvt f1 ⟨.rn, false, true⟩ .s32 .bf16 0, .mloft (fd .none (.reg 4) .none (.reg 20)) .s32 0 0,
    .mloftw (fd .none (.reg 4) .none (.reg 20)) .f32 0 0, .mmas (fd .none (.reg 4) .none (.reg 20)) .f64 0 0 0 0,
    .mdrainScratch { f2 with d := .none } .raw true false false 0 0, .brsig fA 0 ⟨0, 0⟩, .brsig fA 64 ⟨0, 0⟩,
    .loop (fd .none (.reg 4) (.reg 8) .none) 0 ⟨0, 0⟩, .csrr (fd (.reg 8) .none .none .none) true .fpsr,
    .csrw { fA with a := .reg 8 } false .trpc, .csrx f1 false .trval] = true := by decide +kernel

/-- Values of X out of range in the V slot (R188, R205, R220, R229). -/
theorem test_wf_x_vector : refusedAll [.iaddc f3 true false 32 0, .iaddc f3 true false 0 32, .iaddc f3 false false 0 1,
    .icmp f2 .eq .set false 32, .cmp64 f2 .eq .set false 32, .fcmp f2 .eq .set false 32, .dcmp f2 .eq .set false 32, .hcmp2 f2 .eq .set false 31,
    .shl f1 (some 64), .shr f1 (some 64), .sar f1 (some 64), .rotl f1 (some 64), .fshl f2 false (some 64), .shl64 f1 (some 128),
    .shr64 f1 false (some 128), .bfx f1 false (some (32, 1)), .bfx f1 false (some (0, 33)), .bfi f2 (some (32, 1)), .sel f3 32,
    .prmt f2 (some 65536), .lea f2 false false 8, .cvt f1 FR .s4 .f32 0, .cvt f1 FR .f32 .s4 0, .cvt f1 FR .sc8 .f32 0,
    .cvt f1 FR .s32 .sc8 0, .cvt f1 FR .f32 .f16 2, .cvtsc f2 .f16, .cvtscScale f1 .s8, .unpack f1 false .w16 1, .unpack f1 false .w8 2,
    .unpack f1 false .w4 4, .nbr f1 .wrap false false 0, .nbr f1 .wrap false false 64, .shflXor f1 false 64, .voteBallot f1 32,
    .voteAny f1 32 0 .set, .voteAll f1 0 32 .set, .voteEq f1 32 0 .set] = true := by decide +kernel

/-- Hooks, read counts, tiles and numbers out of range in the other slots (R278 to R281, R304, R326, R355, R364, R392, R414). -/
theorem test_wf_x_other : refusedAll [.ld f1 .b32 false false 16 0, .st { f2 with d := .none } .b32 false 16 0 0,
    .st { f2 with d := .none } .b32 false 0 16 0, .ldr f1 .b32 false .normal 16 0 0, .ldr f1 .b32 false .normal 0 16 0,
    .rst { f2 with d := .none } .b32 false 16 0 0, .fenceTeam FN true 16, .afence FN true 16, .icinv { f2 with d := .none } 16,
    .spmarkFull fA 16, .wqenq f2 32 0, .wqenq f2 0 16, .wqenq { f2 with d := .none } 1 0, .wqdeq f1 false 16,
    .cpyIn { f3 with d := .none } false false 16, .cpyOut { f3 with d := .none } false 16 0, .cpyfMem { f3 with d := .none } false 0 16,
    .cpys (fd .none .none (.reg 8) .none) .addf false 1 0, .cpys (fd .none .none (.reg 8) .none) .none false 16 0,
    .bsend (fd (.reg 3) .none (.reg 8) .none) 16, .mcfg FN false 8 0 0 0, .mcfg FN false 0 8 0 0, .mcfg FN false 0 0 8 0,
    .mcfg FN false 0 0 0 16, .mloft (fd .none (.reg 4) .none (.reg 20)) .s8 4 0, .mscl (fd .none (.reg 4) .none (.reg 20)) false 4 0,
    .mma (fd .none (.reg 8) .none (.reg 20)) .bf16 8 0 0 0, .mma (fd .none (.reg 8) .none (.reg 20)) .bf16 0 4 0 0,
    .mma (fd .none (.reg 8) .none (.reg 20)) .bf16 0 0 128 0, .mdrainReg (fd (.reg 8) .none .none .none) 8 0 0,
    .mdrainReg (fd (.reg 8) .none .none .none) 0 128 0, .mdrainScratch fA .raw false false false 8 0, .mzero FN 8 0, .mfence FN 16,
    .syscIcb { f2 with d := .none } 16, .sysc f2 0 0, .sysc f2 256 0, .sysc f2 1 16, .wait fA 16, .knock { f3 with d := .none } 16,
    .hkadjUp FN 16 1, .hkadjUp FN 0 0, .hkadjUp FN 0 64, .hkadjDn FN 0 0 none, .hkadjDn FN 0 1 (some 32), .bar FN false 16, .bara FN false 16,
    .barw FN 16] = true := by decide +kernel

/-! ## One step of an instruction on a small state; the expected values are calculated by hand from the rules -/

/-- The state about to issue the syllable `w` in lane 0 of warp 2, with these registers. -/
def about (w : Nat) (regs : List (Nat × Word)) : State :=
  let s := State.reset.withFetchWord 96 w
  let s := { s with issuing := s.issuing.map fun (i : Issue) => { i with lanes := 1 } }
  match s.warp? 2 with
  | some x => s.putWarp { x with regs := regsOf regs }
  | none => s

/-- The words in flight in lane 0 after one step. -/
def inFlight (w : Nat) (regs : List (Nat × Word)) : List Word :=
  match step (about w regs) with
  | .next t => (((t.warp? 2).bind fun x => x.flight.getLast?).bind fun f => f.lanes.head?).elim [] fun r => r.vals.map Prod.fst
  | _ => []

/-- Whether each word, with its registers, puts its words in flight. -/
def computes (l : List (Nat × List (Nat × Word) × List Word)) : Bool := l.all fun p => inFlight p.1 p.2.1 == p.2.2

/-- Integer instructions (R191 to R201). -/
theorem test_result_integer_0 : computes [
    (0x004080100CFFC7FE00000000, [(4, 0x7FFFFFFF), (12, 0x1)], [0x80000000]),
    (0x004080100CFFC7FE00010000, [(4, 0x7FFFFFFF), (12, 0x1)], [0x7FFFFFFF]),
    (0x004080100CFFC7FE00030000, [(4, 0xFFFFFFF0), (12, 0x20)], [0xFFFFFFFF]),
    (0x008080100CFFC7FE00030000, [(4, 0x3), (12, 0x5)], [0x0]),
    (0x00C080100C0507FE00000003, [(4, 0xFFFFFFFF), (12, 0x0), (20, 0x8)], [0x0]),
    (0x010080100CFFC7FE00000000, [(4, 0x10001), (12, 0xFFFF)], [0xFFFFFFFF])] = true := by
  decide +kernel

/-- Integer instructions (R191 to R201). -/
theorem test_result_integer_1 : computes [
    (0x014080100CFFC7FE00000000, [(4, 0xFFFFFFFF), (12, 0xFFFFFFFF)], [0x0]),
    (0x014080100CFFC7FE00020000, [(4, 0xFFFFFFFF), (12, 0xFFFFFFFF)], [0xFFFFFFFE]),
    (0x018080100C0507FE00000000, [(4, 0x7), (12, 0x6), (20, 0xFFFFFFFF)], [0x29]),
    (0x01C080100C0507FE00000000, [(4, 0xFFFFFFFF), (12, 0x2), (20, 0x0), (21, 0x1)], [0xFFFFFFFE, 0x0]),
    (0x020080100CFFC7FE00000000, [(4, 0xFFFFFFFF), (12, 0x1)], [0xFFFFFFFF]),
    (0x020080100CFFC7FE00020000, [(4, 0xFFFFFFFF), (12, 0x1)], [0x1])] = true := by
  decide +kernel

/-- Integer instructions (R191 to R201). -/
theorem test_result_integer_2 : computes [
    (0x024080100CFFC7FE00000000, [(4, 0xFFFFFFFF), (12, 0x1)], [0x1]),
    (0x02808013FFFFC7FE00000000, [(4, 0x80000000)], [0x80000000]),
    (0x02808013FFFFC7FE00010000, [(4, 0x80000000)], [0x7FFFFFFF]),
    (0x02C080100C0507FE00000000, [(4, 0xFF0180), (12, 0xFF000080), (20, 0xA)], [0xD]),
    (0x030080100C0507FE00000000, [(4, 0x2FF0303), (12, 0x1020304), (20, 0xFFFFFFFF)], [0x14]),
    (0x034080100CFFC7FE00080000, [(4, 0xFFFFFFFF), (8, 0x10), (12, 0x0)], [0x1])] = true := by
  decide +kernel

/-- Integer instructions (R191 to R201). -/
theorem test_result_integer_3 : computes [
    (0x038080100C0507FE00000088, [(4, 0xFF00FF00), (12, 0xF0F0F0F0), (20, 0xCCCCCCCC)], [0xF000F000]),
    (0x03C080100CFFC7FE00000000, [(4, 0x1), (12, 0x20)], [0x0]),
    (0x044080100CFFC7FE00000000, [(4, 0x80000000), (12, 0x28)], [0xFFFFFFFF]),
    (0x04008013FFFFC7FE0004001F, [(4, 0x80000000)], [0x1]),
    (0x048080100CFFC7FE00000000, [(4, 0x80000001), (12, 0x21)], [0x3]),
    (0x04C080100C0507FE00000000, [(4, 0x12345678), (12, 0x9ABCDEF0), (20, 0x8)], [0x3456789A])] = true := by
  decide +kernel

/-- Integer instructions (R191 to R201). -/
theorem test_result_integer_4 : computes [
    (0x04C080100C0507FE00080000, [(4, 0x12345678), (12, 0x9ABCDEF0), (20, 0x8)], [0x789ABCDE]),
    (0x05008013FFFFC7FE00040087, [(4, 0x780)], [0xFFFFFFFF]),
    (0x054080100CFFC7FE00040084, [(4, 0xA), (12, 0xFFFFFFFF)], [0xFFFFFFAF]),
    (0x05808013FFFFC7FE00000000, [(4, 0xF0F00001)], [0x9]),
    (0x05C08013FFFFC7FE00000000, [(4, 0x0)], [0x20]),
    (0x05C08013FFFFC7FE00000000, [(4, 0x10000)], [0xF])] = true := by
  decide +kernel

/-- Integer instructions (R191 to R201). -/
theorem test_result_integer_5 : computes [
    (0x06008013FFFFC7FE00000000, [(4, 0x1)], [0x80000000]),
    (0x064080100C0507FE00000006, [(4, 0x5), (12, 0x6), (20, 0x40)], [0x5]),
    (0x064080100C0507FE00000005, [(4, 0x5), (12, 0x6), (20, 0x40)], [0x6]),
    (0x06808FEBFFFFC7FE00000000, [], [0x3F800000]),
    (0x06808FEBFFFFC7FE00040000, [], [0x0, 0x3FF00000]),
    (0x070080100CFFC7FE00048741, [(4, 0x33221180), (12, 0x77665544)], [0xFF774411])] = true := by
  decide +kernel

/-- Integer instructions (R191 to R201). -/
theorem test_result_integer_6 : computes [
    (0x074080100C0507FE00000000, [(4, 0xFFFFFFFF), (12, 0x5), (20, 0x9)], [0x5]),
    (0x06C08FFF7AB6FBBC00000000, [], [0xDEADBEEF])] = true := by
  decide +kernel

/-- Address instructions (R202 to R204). -/
theorem test_result_address_0 : computes [
    (0x080080100CFFC7FE00000003, [(4, 0x1000), (5, 0x1), (12, 0xFFFFFFFF)], [0xFF8, 0x1]),
    (0x080080100CFFC7FE00020003, [(4, 0x1000), (5, 0x1), (12, 0xFFFFFFFF)], [0xFF8, 0x9]),
    (0x084080100CFFC7FE00000000, [(4, 0xFFFFFFFF), (5, 0x0), (12, 0x1), (13, 0x0)], [0x0, 0x1]),
    (0x088080100CFFC7FE00000000, [(4, 0x0), (5, 0x1), (12, 0x1), (13, 0x0)], [0xFFFFFFFF, 0x0]),
    (0x08C080100CFFC7FE00080000, [(4, 0x0), (5, 0x80000000), (12, 0x0), (13, 0x0)], [0x1]),
    (0x090080100CFFC7FE00000000, [(4, 0x1), (5, 0x0), (12, 0x21)], [0x0, 0x2])] = true := by
  decide +kernel

/-- Address instructions (R202 to R204). -/
theorem test_result_address_1 : computes [
    (0x094080100CFFC7FE00080000, [(4, 0x0), (5, 0x80000000), (12, 0x46)], [0xFFFFFFFF, 0xFFFFFFFF]),
    (0x098080100C0507FE00000000, [(4, 0x1), (5, 0x0), (12, 0xFFFFFFFF), (20, 0x2)], [0xFFFFFFFF, 0xFFFFFFFF])] = true := by
  decide +kernel

/-- Float instructions (R207 to R226). -/
theorem test_result_float_0 : computes [
    (0x100080100CFFC7FE00000000, [(4, 0x3FC00000), (12, 0x40100000)], [0x40700000]),
    (0x100080100CFFC7FE00000000, [(4, 0x3F800000), (12, 0x33800000)], [0x3F800000]),
    (0x100080100CFFC7FE00030000, [(4, 0x3F800000), (12, 0x33800000)], [0x3F800001]),
    (0x104080100CFFC7FE00020000, [(4, 0x3F800000), (12, 0x3F800000)], [0x80000000]),
    (0x108080100CFFC7FE00000000, [(4, 0x40400000), (12, 0xBF000000)], [0xBFC00000]),
    (0x108080100CFFC7FE00040000, [(4, 0x7F7FFFFF), (12, 0x40000000)], [0x7F7FFFFF])] = true := by
  decide +kernel

/-- Float instructions (R207 to R226). -/
theorem test_result_float_1 : computes [
    (0x10C080100C0507FE00100000, [(4, 0x40400000), (12, 0x40800000), (20, 0x3F800000)], [0xC1300000]),
    (0x110080100CFFC7FE00000000, [(4, 0x3F800000), (12, 0xC0000000)], [0xC0000000]),
    (0x114080100CFFC7FE00100000, [(4, 0x7FC00000), (12, 0x40000000)], [0x40000000]),
    (0x118080100CFFC7FE00000002, [(4, 0x3F800000), (12, 0x40000000)], [0x1]),
    (0x12008013FFFFC7FE00000000, [(4, 0x40200000)], [0x40000000]),
    (0x12008013FFFFC7FE00030000, [(4, 0x40200000)], [0x40400000])] = true := by
  decide +kernel

/-- Float instructions (R207 to R226). -/
theorem test_result_float_2 : computes [
    (0x124080100CFFC7FE00000000, [(4, 0x3FC00000), (12, 0x4)], [0x41C00000]),
    (0x140080100CFFC7FE00000000, [(4, 0x0), (5, 0x3FE00000), (12, 0x0), (13, 0x3FD00000)], [0x0, 0x3FE80000]),
    (0x148080100C0507FE00000000, [(4, 0x0), (5, 0x40080000), (12, 0x0), (13, 0x40100000), (20, 0x0), (21, 0x3FF00000)], [0x0, 0x402A0000]),
    (0x160080100CFFC7FE00000000, [(4, 0x3C004000), (12, 0x3C003C00)], [0x40004200]),
    (0x1C008013FFFFC7FE00000048, [(4, 0xC0600000)], [0xFFFFFFFC]),
    (0x1C008013FFFFC7FE00000048, [(4, 0x501502F9)], [0x7FFFFFFF])] = true := by
  decide +kernel

/-- Float instructions (R207 to R226). -/
theorem test_result_float_3 : computes [
    (0x1C8080100CFFC7FE00000000, [(4, 0x11112222), (12, 0x33334444)], [0x44442222]),
    (0x1D008013FFFFC7FE00010000, [(4, 0xFFF60005)], [0x5, 0xFFFFFFF6])] = true := by
  decide +kernel

/-- The state about to issue the syllable `w` in all lanes of warp 2, with v4 holding `a` by lane. -/
def abroad (w : Nat) (a : List Word) : State :=
  let s := State.reset.withFetchWord 96 w
  match s.warp? 2 with
  | some x => s.putWarp { x with regs := a.zipIdx.map fun v => (regKey 4 v.2, ⟨v.1, 0, 63, false⟩) }
  | none => s

/-- The first word in flight in each lane after one step. -/
def byLane (w : Nat) (a : List Word) : List Word :=
  match step (abroad w a) with
  | .next t => ((t.warp? 2).bind fun x => x.flight.getLast?).elim [] fun f => f.lanes.map fun r => (r.vals.headD (0, 0)).1
  | _ => []

/-- R231. -/
theorem test_nbr_up_wrap : byLane 0x20008013FFFFC7FE00000001 [0x3, 0xA, 0x11, 0x18, 0x1F, 0x26, 0x2D, 0x34, 0x3B, 0x42, 0x49, 0x50, 0x57, 0x5E, 0x65, 0x6C] =
    [0x6C, 0x3, 0xA, 0x11, 0x18, 0x1F, 0x26, 0x2D, 0x34, 0x3B, 0x42, 0x49, 0x50, 0x57, 0x5E, 0x65] := by
  decide +kernel

/-- R231. -/
theorem test_nbr_dn_zero : byLane 0x20008013FFFFC7FE00050002 [0x3, 0xA, 0x11, 0x18, 0x1F, 0x26, 0x2D, 0x34, 0x3B, 0x42, 0x49, 0x50, 0x57, 0x5E, 0x65, 0x6C] =
    [0x11, 0x18, 0x1F, 0x26, 0x2D, 0x34, 0x3B, 0x42, 0x49, 0x50, 0x57, 0x5E, 0x65, 0x6C, 0x0, 0x0] := by
  decide +kernel

/-- R233. -/
theorem test_shfl_xor : byLane 0x20408013FFFFC7FE00010005 [0x3, 0xA, 0x11, 0x18, 0x1F, 0x26, 0x2D, 0x34, 0x3B, 0x42, 0x49, 0x50, 0x57, 0x5E, 0x65, 0x6C] =
    [0x26, 0x1F, 0x34, 0x2D, 0xA, 0x3, 0x18, 0x11, 0x5E, 0x57, 0x6C, 0x65, 0x42, 0x3B, 0x50, 0x49] := by
  decide +kernel

/-- R233. -/
theorem test_shfl_idx : byLane 0x2040801004FFC7FE00000000 [0x3, 0xA, 0x11, 0x18, 0x1F, 0x26, 0x2D, 0x34, 0x3B, 0x42, 0x49, 0x50, 0x57, 0x5E, 0x65, 0x6C] =
    [0x18, 0x49, 0x0, 0x0, 0x0, 0x0, 0x0, 0x0, 0x0, 0x11, 0x42, 0x0, 0x0, 0x0, 0x0, 0x0] := by
  decide +kernel

/-- R234. -/
theorem test_vote_ballot : byLane 0x20808013FFFFC7FE00000001 [0x3, 0xA, 0x11, 0x18, 0x1F, 0x26, 0x2D, 0x34, 0x3B, 0x42, 0x49, 0x50, 0x57, 0x5E, 0x65, 0x6C] =
    [0x3333, 0x3333, 0x3333, 0x3333, 0x3333, 0x3333, 0x3333, 0x3333, 0x3333, 0x3333, 0x3333, 0x3333, 0x3333, 0x3333, 0x3333, 0x3333] := by
  decide +kernel

/-- R238. -/
theorem test_red_add : byLane 0x20C08013FFFFC7FE00000000 [0x3, 0xA, 0x11, 0x18, 0x1F, 0x26, 0x2D, 0x34, 0x3B, 0x42, 0x49, 0x50, 0x57, 0x5E, 0x65, 0x6C] =
    [0x378, 0x378, 0x378, 0x378, 0x378, 0x378, 0x378, 0x378, 0x378, 0x378, 0x378, 0x378, 0x378, 0x378, 0x378, 0x378] := by
  decide +kernel

/-- R239. -/
theorem test_scan_add : byLane 0x21008013FFFFC7FE00000000 [0x3, 0xA, 0x11, 0x18, 0x1F, 0x26, 0x2D, 0x34, 0x3B, 0x42, 0x49, 0x50, 0x57, 0x5E, 0x65, 0x6C] =
    [0x3, 0xD, 0x1E, 0x36, 0x55, 0x7B, 0xA8, 0xDC, 0x117, 0x159, 0x1A2, 0x1F2, 0x249, 0x2A7, 0x30C, 0x378] := by
  decide +kernel

/-- R239. -/
theorem test_scan_max_excl : byLane 0x21008013FFFFC7FE00020001 [0x3, 0xA, 0x11, 0x18, 0x1F, 0x26, 0x2D, 0x34, 0x3B, 0x42, 0x49, 0x50, 0x57, 0x5E, 0x65, 0x6C] =
    [0x80000000, 0x3, 0xA, 0x11, 0x18, 0x1F, 0x26, 0x2D, 0x34, 0x3B, 0x42, 0x49, 0x50, 0x57, 0x5E, 0x65] := by
  decide +kernel

/-- R235. -/
theorem test_match : byLane 0x21408013FFFFC7FE00000000 [0x0, 0x0, 0x0, 0x0, 0x1, 0x1, 0x1, 0x1, 0x2, 0x2, 0x2, 0x2, 0x3, 0x3, 0x3, 0x3] =
    [0xF, 0xF, 0xF, 0xF, 0xF0, 0xF0, 0xF0, 0xF0, 0xF00, 0xF00, 0xF00, 0xF00, 0xF000, 0xF000, 0xF000, 0xF000] := by
  decide +kernel

/-- R237: the spec's own example, 1.0 and three times 2^-24. -/
theorem test_red_tree : byLane 0x20C08013FFFFC7FE00100000 [0x3F800000, 0x33800000, 0x33800000, 0x33800000, 0x0, 0x0, 0x0, 0x0, 0x0, 0x0, 0x0, 0x0, 0x0, 0x0, 0x0, 0x0] =
    [0x3F800001, 0x3F800001, 0x3F800001, 0x3F800001, 0x3F800001, 0x3F800001, 0x3F800001, 0x3F800001, 0x3F800001, 0x3F800001, 0x3F800001, 0x3F800001, 0x3F800001, 0x3F800001, 0x3F800001, 0x3F800001] := by
  decide +kernel

/-! ## Witnesses: for every clause of a statement that has hypotheses, a state and operands that meet them together -/

/-- nop.v with no operand (R107). -/
def nopWord : Nat := 0x003FFFFFFFFFC7FE00000000

/-- A team of two warps of 16 lanes on core 0 with a nop at the head of the bundle of warp 0. -/
def P : State := State.reset.withFetchWord 96 nopWord
def I0 : Issue := { wid := 2, slices := [0, 1, 2, 3], lanes := 0xFFFF, tick := 0, seq0 := 3, pc := 0, img := nopWord, first := 0, syl := 0,
                    last := 0, primary := true, gap := 0, fresh0 := 0 }
def W0 : Warp := (P.warp? 2).getD { wid := 0, team := 0, w := 0, core := 0, room := 0, base := 0, width := 16, nreg := 32, slices := [], csr := {},
                                    csrSeen := {}, hooks := [] }
def T0 : Team := (P.team? 1).getD { tid := 0, launch := 0, lin := 0, core := 0, paired := false, rows := 0, barriers := [], live := 0 }
def L0 : Launch := (P.launch? 0).getD Launch.none

/-- The same with one lane active. -/
def I1 : Issue := { I0 with lanes := 1 }
def P1 : State := { P with issuing := [I1] }

/-- Warp 2 with registers in lane 0. -/
def WR (vs : List (Nat × Word)) : Warp := { W0 with regs := regsOf vs }

/-- A leaf of 64 KiB with every right, and the state with it in the TLB of core 0 for the first page of context 0. -/
def LF : Leaf := ⟨0x10000, 16, true, true, true, false, 0, false, 0, 1⟩
def withCore (s : State) (f : Core → Core) : State := { s with cores := f Core.reset :: (s.cores.drop 1) }
def PT : State := withCore P fun c => { c with tlb := [⟨0, 0, LF⟩] }

/-- Operands with values: v8 as destination, 1, 0 and all ones as sources; and with 0 as A and no other source. -/
def F0 : Fields := ⟨.reg 8, .kon .one, .kon .zero, .kon .ones, false, false, false, .none, 0, false, false, 0⟩
def FZ : Fields := { F0 with a := .kon .zero, b := .none, c := .none }

/-- `Ready` as a test. -/
def readyB (i : Instr) (s : State) (iss : Issue) (w : Warp) : Bool :=
  decide (s.issuing.head? = some iss) && decide (s.warp? iss.wid = some w) && decide (w.wid = iss.wid)
    && (match raisesOf i with | none => true | some p => decide (w.hookCount p.1 + p.2 ≤ 63))
    && (match i.fields with | none => true | some f => (popList f).isEmpty)

theorem ready {i : Instr} {s : State} {iss : Issue} {w : Warp} (h : readyB i s iss w = true) : Ready i s iss w := by
  simp only [readyB, Bool.and_eq_true, decide_eq_true_eq] at h
  obtain ⟨⟨⟨⟨h1, h2⟩, h3⟩, h4⟩, h5⟩ := h
  refine ⟨h1, h2, h3, ?_, ?_⟩
  · intro k n hk
    rw [hk] at h4
    simpa using h4
  · intro f t k hf _ hk
    rw [hf] at h5
    simp only [List.isEmpty_iff] at h5
    rw [h5] at hk
    cases hk

/-- A fact of every slice of a bundle, as a test. -/
theorem slicesAll {l : List Nat} {g : List Slice} (p : Nat → Slice → Prop) (q : Nat → Slice → Bool) (hq : ∀ k sl, q k sl = true → p k sl)
    (h : (l.all fun k => (g[k]?).all fun sl => q k sl) = true) : ∀ k ∈ l, ∀ sl, g[k]? = some sl → p k sl := by
  intro k hk sl hs
  have := List.all_eq_true.mp h k hk
  rw [hs] at this
  exact hq k sl this

/-- Registers that are defined read as their values, whatever the free values are. -/
theorem spanReads {rd : Rd} {l : Nat} (ho : rd.old.openDsts = []) : ∀ (vs : List Word) (n : Nat),
    ((vs.zipIdx n).all fun p => decide (rd.old.cell p.2 l = ⟨p.1, 0, 63, false⟩)) = true → srcSpan rd n l vs.length = vs.map fun v => (v, 63)
  | [], _, _ => rfl
  | v :: vs, n, h => by
    simp only [List.zipIdx_cons, List.all_cons, Bool.and_eq_true, decide_eq_true_eq] at h
    simp only [List.length_cons, srcSpan, List.map_cons, spanReads ho vs (n + 1) h.2]
    simp [regRead, h.1, ho, openBits, openTag]

/-- A piece of work of warp 2 on its hook 0. -/
def item : HookItem := { id := 9 }
def WI (it : HookItem) : Warp := { W0 with hooks := [{ items := [it] }] }
def opOf (k : OpKind) : Op := { id := 9, wid := 2, hook := 0, core := 0, ctx := 0, kind := k }
def PO (k : OpKind) (it : HookItem := item) : State := { P.putWarp (WI it) with ops := [(9, opOf k)] }

/-- The supervisors run. -/
def up (s : State) : State := { s with booted := true, svs := List.replicate 8 { inReset := false } }

/-- Context 0 with a page table whose one leaf maps its first GiB to the first GiB of HBM. -/
def PM : State :=
  up { P with contexts := [(0, { enabled := true, root := 0x1000 })], hbm := [(0x1000, 0x01), (0x1001, 0x20), (0x2000, 0x1F), (0x4000, 1)] }

theorem plainAt {s : State} {line : Nat} (h : (!poisonedAt s line 0 && !poisonedAt s line 64 && (tget s.l2 line).isNone) = true) :
    plainLine s line := by
  simp only [Bool.and_eq_true, Bool.not_eq_true', Option.isNone_iff_eq_none] at h
  exact ⟨h.1.1, h.1.2, fun l hl => absurd hl (by simp [h.2])⟩

/-- A line for which L2 has a place. -/
theorem roomAt {s : State} {line : Nat} (h : dieFull s (dieOfLine line) = false) : roomFor s line := .inr h

/-- The numbers of warps, teams and launches as a test. -/
def keyedB (s : State) : Bool :=
  decide ((s.warps.map Prod.fst).Pairwise (· < ·)) && s.warps.all (fun e => decide (e.2.wid = e.1))
    && (decide ((s.teams.map Prod.fst).Pairwise (· < ·)) && s.teams.all fun e => decide (e.2.tid = e.1))
    && (decide ((s.launches.map Prod.fst).Pairwise (· < ·)) && s.launches.all fun e => decide (e.2.lid = e.1))

theorem keyed {s : State} (h : keyedB s = true) : Keyed s := by
  simp only [keyedB, Bool.and_eq_true, decide_eq_true_eq, List.all_eq_true] at h
  exact ⟨h.1.1, h.1.2, h.2⟩

/-- What a bulk read, a run of translations, a slot read or a lane at the ingress holds when it has come through. -/
def bulkS : BulkRead → State × List Byte
  | .ok s bs => (s, bs)
  | .wait s => (s, [])
  | .bad _ _ => (P, [])
def bulkOk : BulkRead → Bool
  | .ok _ _ => true
  | .wait _ | .bad _ _ => false
theorem bulkEq {x : BulkRead} (h : bulkOk x = true) : x = .ok (bulkS x).1 (bulkS x).2 := by cases x <;> first | rfl | cases h
def linesS : EngLines → State × List (Nat × Leaf)
  | .ok s ls => (s, ls)
  | .wait s => (s, [])
  | .bad _ _ => (P, [])
def linesOk : EngLines → Bool
  | .ok _ _ => true
  | .wait _ | .bad _ _ => false
theorem linesEq {x : EngLines} (h : linesOk x = true) : x = .ok (linesS x).1 (linesS x).2 := by cases x <;> first | rfl | cases h
def laneM : InLane → MemLane
  | .ok m => m
  | .defer _ | .bad _ => ⟨0, 0, LF, 0, 0, 0, 0, 0, none, []⟩
def laneOk : InLane → Bool
  | .ok _ => true
  | .defer _ | .bad _ => false
theorem laneEq {x : InLane} (h : laneOk x = true) : x = .ok (laneM x) := by cases x <;> first | rfl | cases h
def slotOf : SlotRead → State × Packet
  | .packet s p => (s, p)
  | .wait s | .failed s => (s, 0)
def slotOk : SlotRead → Bool
  | .packet _ _ => true
  | .wait _ | .failed _ => false
theorem slotEq {x : SlotRead} (h : slotOk x = true) : x = .packet (slotOf x).1 (slotOf x).2 := by cases x <;> first | rfl | cases h
def slotS (s : State) (q : Queue) (i : Nat) : State × Packet := slotOf (readSlot s q i)

/-- A latchkey for window 0 with every right, that source 1 holds; and a knock of source 1 to queue 0 with TAIL `t`. -/
def entry : WinEntry := 1 + 2 ^ 10 + 2 ^ 11 + 2 ^ 12 + 2 ^ 13 + 0x1000 * 2 ^ 64
def key : Dword :=
  let k : Dword := BitVec.ofNat 64 ((1 + 7 * 2 ^ 13) * 2 ^ 32)
  k ||| BitVec.ofNat 64 (keyMac (winKey entry) k 1)
def knockBits (t : Nat) : BitVec 128 :=
  let n := t + 2 ^ 48
  BitVec.ofNat 128 (n + knockMac 0 n 1 * 2 ^ 96)
def queue0 : Queue := ⟨0x4000, 4, 0, 0, 0, 2, 0, [], none, false⟩
def PQ : State := { PM with queues := [(0, queue0)] }

/-- An engine of the team whose tile 7 is live (R324). -/
def liveTile : Engine := { holder := some 1, tiles := List.replicate 7 {} ++ [{ st := .live }] }

/-- One lane that reaches the last 16 bytes of a line, and an access of it. -/
def ln0 : MemLane := { lane := 0, va := 0x10070, leaf := LF, pa := 0x10070, data := 0x0F0E0D0C0B0A09080706050403020100 }
def memOp (k : MemKind) (rs : List LaneRes := []) : MemOp :=
  { kind := k, bytes := 16, sx := false, stream := false, rc := 0, fillL1 := false, enabled := 1, uni := false, lanes := [ln0], todo := [1024],
    results := rs }

theorem banksFree : ∀ b, (State.core (PO (.copy { kind := .fillSp, a := 0x01020304, b := 112, len := 16, lanes := 1 })) b).bankUse = [] ∧
    (State.core (PO (.copy { kind := .fillSp, a := 0x01020304, b := 112, len := 16, lanes := 1 })) b).engUse = [] := by
  intro b
  show ((List.replicate 192 Core.reset).getD b Core.reset).bankUse = [] ∧ ((List.replicate 192 Core.reset).getD b Core.reset).engUse = []
  rw [List.getD_eq_getElem?_getD, List.getElem?_replicate]
  split <;> exact ⟨rfl, rfl⟩

/-- A fetch line whose first bundle is a nop and may be entered (R103, R104). -/
def nopLine : Nat := nopWord + 0x109000 * 2 ^ 480

/-- Eight active warps and a ninth that waits; and a warp whose line is a nop. -/
def WAt (k : Nat) : Warp := { W0 with wid := 2 + k, w := k, apos := some k }
def fullRoom : State :=
  let s := (List.range 8).foldl (fun s k => s.putWarp (WAt k)) P
  s.putWarp { WAt 8 with apos := none }
def ready5 : State :=
  let lined (sl : Slice) : Slice := { sl with line := some ⟨0, nopLine, none⟩ }
  { P.putWarp { W0 with slices := W0.slices.map lined } with issuing := [] }
def warp5 : Warp := ((roomBoundaries ready5 0 0).warp? 2).getD W0
def gang5 : Gang := (warp5.gangAt [0, 1, 2, 3]).getD ⟨0, 0, [], 0⟩

theorem witness_IntegerArithmeticResults_0 : ∃ i f op, wordOp i = some (f, op) ∧ ∃ s iss w, Ready i s iss w :=
  ⟨.iadd F0 true false, F0, _, rfl, P, I0, W0, ready (by decide +kernel)⟩

theorem witness_TruthTableResults_0 : ∃ f t s iss w, Ready (.bool3 f t) s iss w :=
  ⟨F0, 0xE8, P, I0, W0, ready (by decide +kernel)⟩

theorem witness_ShiftResults_0 : ∃ i f op, shiftOp i = some (f, op) ∧ ∃ s iss w, Ready i s iss w :=
  ⟨.shl F0 (some 32), F0, _, rfl, P, I0, W0, ready (by decide +kernel)⟩

theorem witness_BitfieldResults_0 : ∃ i f op, fieldOp i = some (f, op) ∧ ∃ s iss w, Ready i s iss w :=
  ⟨.bfi F0 (some (31, 2)), F0, _, rfl, P, I0, W0, ready (by decide +kernel)⟩

theorem witness_CountAndPermuteResults_0 : ∃ i f op, countOp i = some (f, op) ∧ ∃ s iss w, Ready i s iss w :=
  ⟨.prmt F0 (some 0x8880), F0, _, rfl, P, I0, W0, ready (by decide +kernel)⟩

theorem witness_AddressAndBitResults_0 : ∃ i f chk x, addrOp i = some (f, chk, x) ∧ ∃ s iss w, Ready i s iss w :=
  ⟨.sub64 F0 false true, F0, true, _, rfl, P, I0, W0, ready (by decide +kernel)⟩

theorem witness_AddressAndBitResults_1 : ∃ i f j cmb p, flagOp i = some (f, j, cmb, p) ∧ ∃ s iss w, Ready i s iss w :=
  ⟨.iaddc F0 true true 31 31, F0, 31, .set, _, rfl, P, I0, W0, ready (by decide +kernel)⟩

theorem witness_MoveResults_0 : ∃ f k s iss w, Ready (.sel f k) s iss w :=
  ⟨F0, 31, P, I0, W0, ready (by decide +kernel)⟩

theorem witness_MoveResults_1 : ∃ f s iss w, Ready (.mov f false) s iss w :=
  ⟨F0, P, I0, W0, ready (by decide +kernel)⟩

theorem witness_MoveResults_2 : ∃ f s iss w, Ready (.mov f true) s iss w :=
  ⟨F0, P, I0, W0, ready (by decide +kernel)⟩

theorem witness_MoveResults_3 : ∃ d imm u gap s iss w, Ready (.movi d imm u gap false) s iss w :=
  ⟨.reg 767, 0x80000000, true, 15, P, I0, W0, ready (by decide +kernel)⟩

theorem witness_MoveResults_4 : ∃ d imm u gap s iss w, Ready (.movi d imm u gap true) s iss w :=
  ⟨.reg 766, 0x80000000, false, 0, P, I0, W0, ready (by decide +kernel)⟩

theorem witness_FloatArithmeticResults_0 : ∃ i f d64 fr x, floatOp i = some (f, d64, fr, x) ∧ ∃ s iss w, Ready i s iss w :=
  ⟨.fexpnM F0 true, F0, false, ⟨.rn, false, false⟩, _, rfl, P, I0, W0, ready (by decide +kernel)⟩

theorem witness_FloatArithmeticResults_1 : ∃ i f bf rnd sat op, halfOp i = some (f, bf, rnd, sat, op) ∧ ∃ s iss w, Ready i s iss w :=
  ⟨.hfma2 F0 .rd true true true false, F0, true, .rd, true, _, rfl, P, I0, W0, ready (by decide +kernel)⟩

theorem witness_MinMaxAndCompareResults_0 : ∃ i f d64 isMax num ftz, minMaxOp i = some (f, d64, isMax, num, ftz) ∧ ∃ s iss w,
    Ready i s iss w :=
  ⟨.dmax F0 true false, F0, true, true, true, false, rfl, P, I0, W0, ready (by decide +kernel)⟩

theorem witness_MinMaxAndCompareResults_1 : ∃ i f bf isMax num, (i = .hmin2 f bf num ∧ isMax = false ∨ i = .hmax2 f bf num ∧
    isMax = true) ∧ ∃ s iss w, Ready i s iss w :=
  ⟨.hmax2 F0 true false, F0, true, true, false, .inr ⟨rfl, rfl⟩, P, I0, W0, ready (by decide +kernel)⟩

theorem witness_MinMaxAndCompareResults_2 : ∃ f cc cmb ftz j s iss w, Ready (.fcmp f cc cmb ftz j) s iss w :=
  ⟨F0, .geu, .or, true, 31, P, I0, W0, ready (by decide +kernel)⟩

theorem witness_MinMaxAndCompareResults_3 : ∃ f cc cmb ftz j s iss w, Ready (.dcmp f cc cmb ftz j) s iss w :=
  ⟨F0, .ord, .and, false, 0, P, I0, W0, ready (by decide +kernel)⟩

theorem witness_MinMaxAndCompareResults_4 : ∃ f cc cmb bf j s iss w, Ready (.hcmp2 f cc cmb bf j) s iss w :=
  ⟨F0, .lt, .set, true, 30, P, I0, W0, ready (by decide +kernel)⟩

theorem witness_SpecialFunctionResults_0 : ∃ i f fn ftz, sfuOp i = some (f, fn, ftz) ∧ ∃ s iss w, Ready i s iss w :=
  ⟨.tanh F0 false, F0, .tanh, false, rfl, P, I0, W0, ready (by decide +kernel)⟩

theorem witness_SpecialFunctionResults_1 : ∃ f ftz s iss w, Ready (.drcp f ftz) s iss w :=
  ⟨F0, true, P, I0, W0, ready (by decide +kernel)⟩

theorem witness_ConversionResults_0 : ∃ f d64 ftz s iss w, Ready (.fclass f d64 ftz) s iss w :=
  ⟨F0, true, true, P, I0, W0, ready (by decide +kernel)⟩

theorem witness_ConversionResults_1 : ∃ f fr ex s iss w, Ready (.frint f fr ex) s iss w :=
  ⟨F0, FR, true, P, I0, W0, ready (by decide +kernel)⟩

theorem witness_ConversionResults_2 : ∃ f ftz s iss w, Ready (.fexpnE f ftz) s iss w :=
  ⟨F0, true, P, I0, W0, ready (by decide +kernel)⟩

theorem witness_ConversionResults_3 : ∃ f fr dt st k s iss w, Ready (.cvt f fr dt st k) s iss w :=
  ⟨F0, FR, .f64, .s4, 7, P, I0, W0, ready (by decide +kernel)⟩

theorem witness_ConversionResults_4 : ∃ f dt s iss w, Ready (.cvtscScale f dt) s iss w :=
  ⟨F0, .e2m1, P, I0, W0, ready (by decide +kernel)⟩

theorem witness_ConversionResults_5 : ∃ f dt s iss w, Ready (.cvtsc f dt) s iss w :=
  ⟨F0, .e5m2, P, I0, W0, ready (by decide +kernel)⟩

theorem witness_ConversionResults_6 : ∃ f sx wid k s iss w, Ready (.unpack f sx wid k) s iss w :=
  ⟨F0, true, .w4, 3, P, I0, W0, ready (by decide +kernel)⟩

theorem witness_ConversionResults_7 : ∃ f s iss w, Ready (.sigmin f) s iss w :=
  ⟨F0, P, I0, W0, ready (by decide +kernel)⟩

theorem witness_ConversionResults_8 : ∃ i f v, packOp i = some (f, v) ∧ ∃ s iss w, Ready i s iss w :=
  ⟨.sigwr F0 true, F0, _, rfl, P, I0, W0, ready (by decide +kernel)⟩

theorem witness_NeighbourAndShuffleResults_0 : ∃ f fill dn w64 k s iss w, Ready (.nbr f fill dn w64 k) s iss w ∧
    (fill = .chain → (launchD s w).paired = false) :=
  ⟨F0, .chain, true, true, 63, P, I0, W0, ready (by decide +kernel), fun _ => by decide +kernel⟩

theorem witness_NeighbourAndShuffleResults_1 : ∃ f dn w64 k s iss rest w, Ready (.nbr f .chain dn w64 k) s iss w ∧
    s.issuing = iss :: rest ∧ (launchD s w).paired = true :=
  ⟨F0, false, false, 1, P.putLaunch { L0 with packet := placedPacket ||| 512 }, I0, [], W0, ready (by decide +kernel), by decide +kernel,
    by decide +kernel⟩

theorem witness_NeighbourAndShuffleResults_2 : ∃ f w64 s iss w, Ready (.shflIdx f w64) s iss w :=
  ⟨F0, true, P, I0, W0, ready (by decide +kernel)⟩

theorem witness_NeighbourAndShuffleResults_3 : ∃ f w64 m s iss w, Ready (.shflXor f w64 m) s iss w :=
  ⟨F0, false, 63, P, I0, W0, ready (by decide +kernel)⟩

theorem witness_VoteAndMatchResults_0 : ∃ f k s iss w, Ready (.voteBallot f k) s iss w :=
  ⟨F0, 31, P, I0, W0, ready (by decide +kernel)⟩

theorem witness_VoteAndMatchResults_1 : ∃ i f j cmb p, voteOp i = some (f, j, cmb, p) ∧ ∃ s iss w, Ready i s iss w :=
  ⟨.voteEq F0 0 31 .and, F0, 31, .and, _, rfl, P, I0, W0, ready (by decide +kernel)⟩

theorem witness_VoteAndMatchResults_2 : ∃ f w64 s iss w, Ready (.matchLanes f w64) s iss w :=
  ⟨F0, true, P, I0, W0, ready (by decide +kernel)⟩

theorem witness_ReductionAndScanResults_0 : ∃ f op ty s iss w, (ty = .s32 ∨ ty = .z32) ∧ op ≠ .amax ∧ Ready (.red f op ty) s iss w :=
  ⟨F0, .min, .z32, P, I0, W0, .inr rfl, by decide, ready (by decide +kernel)⟩

theorem witness_ReductionAndScanResults_1 : ∃ f op ty s iss w, Ready (.red f op ty) s iss w :=
  ⟨F0, .amax, .f32, P, I0, W0, ready (by decide +kernel)⟩

theorem witness_ReductionAndScanResults_2 : ∃ f op ty ex s iss w, Ready (.scan f op ty ex) s iss w :=
  ⟨F0, .add, .f64, true, P, I0, W0, ready (by decide +kernel)⟩

theorem witness_MemoryAccessIssues_0 : ∃ i a, accessOf i = some a ∧ ∃ s iss w, Ready i s iss w ∧ (let rd := rdOf i s w iss;
    memChk a.f a.idx a.off a.bytes a.right a.shadow rd = .ok ∧ hatchWarpChk a.f rd = .ok ∧ hatchRoomChk a.f rd = .ok) :=
  ⟨.ld FZ .b128 true false 15 0, _, rfl, PT, I0, W0, ready (by decide +kernel), by decide +kernel⟩

theorem witness_CellarLoadIssues_0 : ∃ f sz sx hook off s iss w, Ready (.ldw f sz sx hook off) s iss w ∧
    (let rd := rdOf (.ldw f sz sx hook off) s w iss; ldwChk f sz off rd = .ok) :=
  ⟨{ FZ with p := .kon .zero }, .b64, false, 15, 0, P, I0, W0, ready (by decide +kernel), by decide +kernel⟩

theorem witness_CellarLoadIssues_1 : ∃ f sz sx hook off s iss rest w, Ready (.ldw f sz sx hook off) s iss w ∧ s.issuing = iss :: rest ∧
    (let rd := rdOf (.ldw f sz sx hook off) s w iss; (∀ n, f.d ≠ .hq n) ∧ ∃ l ∈ evalLanes rd f, (∀ v ∈ s.cellarWins,
    v.ctx = ctxOf s w → offOf rd f f.b off.toInt l < v.base ∨ (v.base : Int) + v.len < offOf rd f f.b off.toInt l + szBytes sz)) :=
  ⟨FZ, .b64, false, 15, 0xFFF8, P, I0, [], W0, ready (by decide +kernel), by decide +kernel, nofun, 0, by decide +kernel, by decide +kernel⟩

theorem witness_ScratchAccessesIssueAndStore_0 : ∃ f sz sx off s iss w, Ready (.lds f sz sx off) s iss w ∧
    (let rd := rdOf (.lds f sz sx off) s w iss; scrChk f f.b off.toInt (szBytes sz) rd = .ok) :=
  ⟨FZ, .b128, false, 0x7FF0, P, I0, W0, ready (by decide +kernel), by decide +kernel⟩

theorem witness_ScratchAccessesIssueAndStore_1 : ∃ f sz off s iss w, Ready (.sts f sz off) s iss w ∧
    (let rd := rdOf (.sts f sz off) s w iss; scrChk f .none off.toInt (szBytes sz) rd = .ok) :=
  ⟨{ FZ with b := .kon .ones }, .b32, 0, P, I0, W0, ready (by decide +kernel), by decide +kernel⟩

theorem witness_ScratchAccessesIssueAndStore_2 : ∃ f op ty hook off s iss w, Ready (.atoms f op ty hook off) s iss w ∧
    (let rd := rdOf (.atoms f op ty hook off) s w iss; scrChk f .none off.toInt (atyBytes ty) rd = .ok) :=
  ⟨FZ, .add, .s32, 15, 4, P, I0, W0, ready (by decide +kernel), by decide +kernel⟩

theorem witness_ScratchAccessesIssueAndStore_3 : ∃ i f full hook s iss w, (i = .spmarkFull f hook ∧
    full = true ∨ i = .spmarkEmpty f hook ∧ full = false) ∧ Ready i s iss w ∧ (let rd := rdOf i s w iss; markChk f rd = .ok) :=
  ⟨.spmarkEmpty FZ 3, FZ, false, 3, P, I0, W0, .inr ⟨rfl, rfl⟩, ready (by decide +kernel), by decide +kernel⟩

theorem witness_ScratchAccessesIssueAndStore_4 : ∃ s w tm a n, s.warp? w.wid = some w ∧ s.team? w.team = some tm ∧ tm.tid = w.team ∧
    cwf tm.scratch = true ∧ w.scr.find? (fun b => b.seq = a.seq) = some a ∧ a.kind = .store n ∧ a.tick ≤ w.tick ∧
    roomOldest s w.core w.room = some a.seq ∧ ((s.core w.core).rooms.getD w.room {}).scrAt ≠ some (coreCycle s w.core) ∧
    touchesEmpty tm a = false ∧ banksBusy s none (banksOf tm a) = false ∧ scrCycles tm a ≤ a.done + 1 :=
  ⟨P.putWarp { W0 with scr := [⟨3, 0, .store 4, [⟨0, 0, 0x11223344, 0⟩, ⟨1, 393212, 1, 0⟩], 3, 1⟩] },
    { W0 with scr := [⟨3, 0, .store 4, [⟨0, 0, 0x11223344, 0⟩, ⟨1, 393212, 1, 0⟩], 3, 1⟩] }, T0, ⟨3, 0, .store 4, [⟨0, 0, 0x11223344, 0⟩,
    ⟨1, 393212, 1, 0⟩], 3, 1⟩, 4, by decide +kernel⟩

theorem witness_FencesAndLinesIssue_0 : ∃ i f scope hold hook, fenceOf i = some (f, scope, hold, hook) ∧ ∃ s iss w, Ready i s iss w :=
  ⟨.afence F0 true 15, F0, 4, true, 15, rfl, P, I0, W0, ready (by decide +kernel)⟩

theorem witness_FencesAndLinesIssue_1 : ∃ f hook s iss w, Ready (.icinv f hook) s iss w ∧ (let rd := rdOf (.icinv f hook) s w iss;
    (∀ l ∈ evalLanes rd f, (val64 rd f.a l).toNat + (val32 rd f.b l).toNat ≤ 2 ^ 64) ∧ w.core < s.cores.length) :=
  ⟨{ F0 with a := .kon .zero, b := .kon .ones }, 0, P, I0, W0, ready (by decide +kernel), by decide +kernel⟩

theorem witness_FencesAndLinesIssue_2 : ∃ f ca off s iss w, Ready (.pref f ca off) s iss w ∧
    prefChk f off (rdOf (.pref f ca off) s w iss) = .ok :=
  ⟨FZ, .normal, 0x7FFF, PT, I0, W0, ready (by decide +kernel), by decide +kernel⟩

theorem witness_WorkQueueAccess_enq : ∃ f j hook s iss w, Ready (.wqenq f j hook) s iss w ∧ wqChk f (rdOf (.wqenq f j hook) s w iss) = .ok :=
  ⟨{ FZ with b := .reg 20 }, 31, 15, { P with wqUnits := [{ owner := some (0, 0) }] }, I0, W0, ready (by decide +kernel), by decide +kernel⟩

theorem witness_WorkQueueAccess_deq : ∃ f poll hook s iss w, Ready (.wqdeq f poll hook) s iss w ∧
    wqChk f (rdOf (.wqdeq f poll hook) s w iss) = .ok ∧ hook < w.hooks.length ∧ (∀ h ∈ w.hooks, ∀ x ∈ h.items, x.id ≠ s.nextId) :=
  ⟨FZ, false, 15, { P with wqUnits := [{ owner := some (0, 0) }] }, I0, W0, ready (by decide +kernel), by decide +kernel⟩

theorem witness_RemoteAccessesIssue_0 : ∃ i a, remoteSyl i = some a ∧ ∃ s iss w, Ready i s iss w ∧ (let rd := rdOf i s w iss;
    (∀ l ∈ evalLanes rd a.f, 0 ≤ a.at rd l ∧ a.at rd l < 2 ^ 64 ∧ a.at rd l % a.bytes = 0)) := by
  refine ⟨.rst { FZ with a := .reg 20, b := .kon .one } .b64 false 0 3 8, _, rfl, P1.putWarp (WR [(20, 1), (21, 2), (22, 0xFFFFFFF0), (23, 0xFFFFFFFF)]), I1,
    WR [(20, 1), (21, 2), (22, 0xFFFFFFF0), (23, 0xFFFFFFFF)], ready (by decide +kernel), ?_⟩
  intro rd l hl
  have he : evalLanes rd { FZ with a := .reg 20, b := .kon .one } = [0] := by decide +kernel
  have h0 : l = 0 := List.mem_singleton.mp (he ▸ (show l ∈ evalLanes rd { FZ with a := .reg 20, b := .kon .one } from hl))
  have h : srcQuad rd (.reg 20) 0 = _ := spanReads (by decide +kernel) [1, 2, 0xFFFFFFF0, 0xFFFFFFFF] 20 (by decide +kernel)
  subst h0
  simp only [Remote.at, h]
  decide

theorem witness_CopiesIssue_0 : ∃ i f k em hook, copySyl i = some (f, k, em, hook) ∧ ∃ s iss w, Ready i s iss w :=
  ⟨.cpyIn F0 true false 1, F0, .linIn, true, 1, rfl, P, I0, W0, ready (by decide +kernel)⟩

theorem witness_CopiesIssue_1 : ∃ f em stm hook s iss rest w tm l, Ready (.cpyIn f em stm hook) s iss w ∧ s.issuing = iss :: rest ∧
    (let rd := rdOf (.cpyIn f em stm hook) s w iss; (let a := (val64 rd f.a l).toNat; (let b := (val32 rd f.b l).toNat;
    (let n := (val32 rd f.c l).toNat; s.team? w.team = some tm ∧ (lanesOf (enabled rd f)).head? = some l ∧ copiesOn s w.core < 64 ∧
    a % 16 = 0 ∧ b % 16 = 0 ∧ n % 16 = 0 ∧ 0 < n ∧ a + n ≤ 2 ^ 64 ∧ tm.bytes < b + n)))) :=
  ⟨{ FZ with b := .kon .zero, c := .sys .width }, true, false, 1, P.putTeam { T0 with rows := 0 }, I0, [], W0, { T0 with rows := 0 }, 0,
    ready (by decide +kernel), by decide +kernel, by decide +kernel⟩

theorem witness_BulkSyllablesIssue_0 : ∃ f hook s iss w l, Ready (.bsend f hook) s iss w ∧ (let rd := rdOf (.bsend f hook) s w iss;
    (let ws := (srcSpan rd f.b.num l 8).map Prod.fst; (let wd (k : Nat) : Nat := (ws.getD k 0).toNat;
    (lanesOf (enabled rd f)).head? = some l ∧ 16 ≤ wd 4 ∧ wd 4 ≤ 2 ^ 30 ∧ wd 4 % 16 = 0 ∧ wd 6 < 1024 ∧ wd 7 = 0 ∧
    (wd 2 + 2 ^ 32 * wd 3) % 16 = 0 ∧ wd 2 + 2 ^ 32 * wd 3 + wd 4 ≤ 2 ^ 64 ∧ sendAt s (ctxOf s w) (wd 6 % 256) = none))) := by
  refine ⟨{ FZ with b := .reg 20 }, 1, P1.putWarp (WR [(20, 0), (21, 0), (22, 0xFFFFFFF0), (23, 0xFFFFFFFF), (24, 16), (25, 7), (26, 1023), (27, 0)]), I1,
    WR [(20, 0), (21, 0), (22, 0xFFFFFFF0), (23, 0xFFFFFFFF), (24, 16), (25, 7), (26, 1023), (27, 0)], 0, ready (by decide +kernel), ?_⟩
  intro rd ws wd
  have h : ws = [0, 0, 0xFFFFFFF0, 0xFFFFFFFF, 16, 7, 1023, 0] :=
    congrArg (List.map Prod.fst) (spanReads (by decide +kernel) [0, 0, 0xFFFFFFF0, 0xFFFFFFFF, 16, 7, 1023, 0] 20 (by decide +kernel))
  simp only [wd, h]
  decide +kernel

theorem witness_BulkSyllablesIssue_1 : ∃ f hook s iss w l e, Ready (.brecv f hook) s iss w ∧ (let rd := rdOf (.brecv f hook) s w iss;
    (let ws := (srcSpan rd f.b.num l 8).map Prod.fst; (let wd (k : Nat) : Nat := (ws.getD k 0).toNat;
    (lanesOf (enabled rd f)).head? = some l ∧ 16 ≤ wd 2 ∧ wd 2 ≤ 2 ^ 30 ∧ wd 2 % 16 = 0 ∧ wd 4 < 2 ^ 17 ∧ wd 5 < 256 ∧ wd 6 = 0 ∧
    wd 7 = 0 ∧ (wd 0 + 2 ^ 32 * wd 1) % 16 = 0 ∧ wd 0 + 2 ^ 32 * wd 1 + wd 2 ≤ 2 ^ 64 ∧ recvAt s (ctxOf s w) (wd 5) = none ∧
    tget s.windows (wd 4 % 1024) = some e ∧ winValid e = true ∧ winVest e = true ∧ winCtx e = ctxOf s w))) := by
  refine ⟨{ FZ with b := .reg 20 }, 1, { P1.putWarp (WR [(20, 0), (21, 0), (22, 0x40000000), (23, 9), (24, 0x103FF), (25, 255), (26, 0), (27, 0)]) with windows := [(1023, 0x2001)] }, I1,
    WR [(20, 0), (21, 0), (22, 0x40000000), (23, 9), (24, 0x103FF), (25, 255), (26, 0), (27, 0)], 0, 0x2001, ready (by decide +kernel), ?_⟩
  intro rd ws wd
  have h : ws = [0, 0, 0x40000000, 9, 0x103FF, 255, 0, 0] :=
    congrArg (List.map Prod.fst) (spanReads (by decide +kernel) [0, 0, 0x40000000, 9, 0x103FF, 255, 0, 0] 20 (by decide +kernel))
  simp only [wd, h]
  decide +kernel

theorem witness_BulkSyllablesIssue_2 : ∃ i f hook rcv s iss w l, (i = .bprobeSnd f hook ∧ rcv = false ∨ i = .bprobeRcv f hook ∧
    rcv = true) ∧ Ready i s iss w ∧ (let rd := rdOf i s w iss; (let slot := (val32 rd f.a l).toNat;
    (lanesOf (enabled rd f)).head? = some l ∧ slot < 256)) :=
  ⟨.bprobeRcv FZ 1, FZ, 1, true, P, I0, W0, 0, .inr ⟨rfl, rfl⟩, ready (by decide +kernel), by decide +kernel⟩

theorem witness_BulkSyllablesIssue_3 : ∃ i f hook rcv s iss w l, (i = .bcancelSnd f hook ∧ rcv = false ∨ i = .bcancelRcv f hook ∧
    rcv = true) ∧ Ready i s iss w ∧ (let rd := rdOf i s w iss; (let slot := (val32 rd f.a l).toNat;
    (lanesOf (enabled rd f)).head? = some l ∧ slot < 256)) :=
  ⟨.bcancelSnd FZ 1, FZ, 1, false, P, I0, W0, 0, .inl ⟨rfl, rfl⟩, ready (by decide +kernel), by decide +kernel⟩

theorem witness_MatrixSyllablesIssue_0 : ∃ i f hook dst, matrixSyl i = some (f, hook, dst) ∧ ∃ s iss w tm, Ready i s iss w ∧
    (let rd := rdOf i s w iss; (let en := enabled rd f; (let free := (s.core w.core).engine.holder = none; s.team? w.team = some tm ∧
    tm.tid = w.team ∧ w.core < s.cores.length ∧ (free ∨ (s.core w.core).engine.holder = some w.team) ∧ iss.lanes = allLanes w.width ∧
    (en = 0 ∨ en = iss.lanes ∧ matsOn s w.core < 32 ∧ matChecks s (ctxOf s w) tm (matOpOf i f rd) = none)))) :=
  ⟨.mcfg F0 true 7 7 7 15, F0, 15, _, rfl, P, I0, W0, T0, ready (by decide +kernel), by decide +kernel⟩

theorem witness_PerLaneBranches_0 : ∃ i s iss rest w b, Ready i s iss w ∧ s.issuing = iss :: rest ∧
    branchSyl (rdOf i s w iss) i = some b ∧ (let rd := rdOf i s w iss; ∃ quad : Nat → Quad, (∀ k j,
    (quad k).getLsbD j = (decide (j < 4) && b.takes k j)) ∧ (∀ k ∈ iss.slices, ∀ sl,
    w.slices[k]? = some sl → (b.opens = true → sl.depth < 2) ∧ (b.pushes = true → sl.stack.length < 16) ∧
    (b.opens = true ∨ quad k = 0 ∨ laneQuad k iss.lanes &&& ~~~(quad k) = 0 ∨ sl.pend = none))) := by
  refine ⟨.bra { FZ with p := .sys .laneid } ⟨3, 2⟩, P, I0, [], W0, _, ready (by decide +kernel), by decide +kernel, rfl,
    fun k => if k < 4 then 0xA else 0, ?_, ?_⟩
  · have h : enabled (rdOf (.bra { FZ with p := .sys .laneid } ⟨3, 2⟩) P W0 I0) { FZ with p := .sys .laneid } = 0xAAAA := by decide +kernel
    intro k j
    simp only [h]
    by_cases hj : j < 4
    · by_cases hk : k < 4
      · interval_cases k <;> interval_cases j <;> decide
      · have : ∀ n, 16 ≤ n → (0xAAAA : Lanes).getLsbD n = false := by
          intro n hn
          simp only [BitVec.getLsbD]
          exact Nat.testBit_lt_two_pow (lt_of_lt_of_le (by decide) (Nat.pow_le_pow_right (by decide) hn))
        simp only [hk, if_false, this (4 * k + j) (by omega), Bool.and_false]; exact BitVec.getLsbD_zero
    · simp [hj, BitVec.getLsbD_of_ge _ _ (Nat.le_of_not_lt hj)]
  · exact slicesAll _ (fun k sl => decide (sl.pend = none)) (fun _ _ h => ⟨nofun, nofun, .inr (.inr (.inr (of_decide_eq_true h)))⟩) (by decide +kernel)

theorem witness_WaitsHold_0 : ∃ i s iss w h, Ready i s iss w ∧ holdSyl s (rdOf i s w iss) i = some h :=
  ⟨.wait { FZ with a := .kon .one } 15, P, I0, W0, some (.hook 15 1), ready (by decide +kernel), by decide +kernel⟩

theorem witness_BarrierArrivalsAndCredit_0 : ∃ i f drain hold k s iss w tm b, (i = .bar f drain k ∧ hold = true ∨ i = .bara f drain k ∧
    hold = false) ∧ Ready i s iss w ∧ (let rd := rdOf i s w iss; (let c := if f.b = .none then (launchD s w).warps else lead32 rd f.b;
    s.team? w.team = some tm ∧ tm.barriers[k]? = some b ∧ k < (launchD s w).nbar ∧ 1 ≤ c ∧ c ≤ (launchD s w).warps ∧
    (tm.paired = true → (s.core (if w.core = tm.core then tm.core + 1 else tm.core)).frozen = false) ∧ (∀ a ∈ b.record, a.count = c ∧
    ¬(a.w = w.w ∧ a.lanes &&& iss.lanes ≠ 0)))) :=
  ⟨.bar FZ true 15, FZ, true, true, 15, P, I0, W0, T0, {}, .inl ⟨rfl, rfl⟩, ready (by decide +kernel), by decide +kernel⟩

theorem witness_BarrierArrivalsAndCredit_1 : ∃ f k s iss w tm b m, Ready (.barw f k) s iss w ∧ s.team? w.team = some tm ∧
    tm.barriers[k]? = some b ∧ k < (launchD s w).nbar ∧ tget b.ever w.w = some m ∧ iss.lanes &&& ~~~m = 0 :=
  ⟨FZ, 0, P.putTeam { T0 with barriers := [{ ever := [(0, 0xFFFF)] }] }, I0, W0, { T0 with barriers := [{ ever := [(0, 0xFFFF)] }] },
    { ever := [(0, 0xFFFF)] }, 0xFFFF, ready (by decide +kernel), by decide +kernel⟩

theorem witness_BarrierArrivalsAndCredit_2 : ∃ f hook n s iss w, Ready (.hkadjUp f hook n) s iss w :=
  ⟨FZ, 15, 63, P, I0, W0, ready (by decide +kernel)⟩

theorem witness_BarrierArrivalsAndCredit_3 : ∃ f hook n dest s iss w v, Ready (.hkadjDn f hook n dest) s iss w ∧
    (match dest with | none => v = w | some k => k < (launchD s w).warps ∧ s.warp? v.wid = some v ∧
    (s.warps.find? fun e => e.2.team = w.team && e.2.w = k) = some (v.wid, v)) ∧ (v.core ≠ w.core → (s.core v.core).frozen = false) ∧
    (v.hook hook).credit + (v.hook hook).promised + n ≤ 63 :=
  ⟨FZ, 15, 63, none, P, I0, W0, W0, ready (by decide +kernel), rfl, by decide +kernel⟩

theorem witness_TrapAndReturn_0 : ∃ f n s iss w, Ready (.trap f n) s iss w :=
  ⟨FZ, 0xFFFF, P, I0, W0, ready (by decide +kernel)⟩

theorem witness_TrapAndReturn_1 : ∃ f s iss rest w a, Ready (.rte f) s iss w ∧ s.issuing = iss :: rest ∧ w.attic = some a ∧
    w.csr.trstat.getLsbD 0 = true ∧ (rdOf (.rte f) s w iss).old.flight = [] ∧ (∀ x ∈ w.scr, iss.seq0 ≤ x.seq) :=
  ⟨FN, P.putWarp { W0 with attic := some ⟨[], W0.slices, [0], 0x40, 2⟩, csr := { W0.csr with trstat := 1 } }, I0, [],
    { W0 with attic := some ⟨[], W0.slices, [0], 0x40, 2⟩, csr := { W0.csr with trstat := 1 } }, ⟨[], W0.slices, [0], 0x40, 2⟩,
    ready (by decide +kernel), by decide +kernel⟩

theorem witness_TrapAndReturn_2 : ∃ f s iss rest w, Ready (.rte f) s iss w ∧ s.issuing = iss :: rest ∧ w.csr.trstat.getLsbD 0 = false :=
  ⟨FN, P, I0, [], W0, ready (by decide +kernel), by decide +kernel⟩

theorem witness_ServicesAndKnocks_0 : ∃ f n hook s iss w, Ready (.sysc f n hook) s iss w :=
  ⟨F0, 255, 15, P, I0, W0, ready (by decide +kernel)⟩

theorem witness_ServicesAndKnocks_1 : ∃ f hook s iss w l, Ready (.syscIcb f hook) s iss w ∧ (let rd := rdOf (.syscIcb f hook) s w iss;
    (let lo := (val64 rd f.a l).toNat; (let n := (val32 rd f.b l).toNat; (lanesOf (enabled rd f)).head? = some l ∧ lo + n ≤ 2 ^ 64))) :=
  ⟨{ F0 with a := .kon .zero, b := .kon .ones }, 15, P, I0, W0, 0, ready (by decide +kernel), by decide +kernel⟩

theorem witness_ServicesAndKnocks_2 : ∃ f hook s iss w key, Ready (.knock f hook) s iss w ∧ (let rd := rdOf (.knock f hook) s w iss;
    (let dev := lead32 rd f.a; (let qid := lead32 rd f.c; qid < 1024 ∧ dev < 64 ∧
    tget s.knockKeys (knockKeyAt (ctxOf s w) dev qid) = some key))) :=
  ⟨{ FZ with c := .kon .zero }, 15, { P with knockKeys := [(0, 5)] }, I0, W0, 5, ready (by decide +kernel), by decide +kernel⟩

theorem witness_ControlRegisters_0 : ∃ i f w64 r rd' wr' s iss w, (i = .csrr f w64 r ∧ rd' = true ∧ wr' = false ∨ i = .csrw f w64 r ∧
    rd' = false ∧ wr' = true ∨ i = .csrx f w64 r ∧ rd' = true ∧ wr' = true) ∧ Ready i s iss w ∧ (let rd := rdOf i s w iss;
    (let en := enabled rd f; (let old : Dword := if r = .syshand ∧ w.csr.trstat.getLsbD 1 = false then 0 else w.csrSeen.get r refwinVal;
    (let words : List (Word × Tag) := if w64 then [(old.extractLsb' 0 32, 63), (old.extractLsb' 32 32, 63)] else [(old.extractLsb' 0 32,
    63)]; (wr' = true → r = .syshand → w.csr.trstat.getLsbD 1 = true ∨ en = 0))))) :=
  ⟨.csrx F0 true .trhand, F0, true, .trhand, true, true, P, I0, W0, .inr (.inr ⟨rfl, rfl, rfl⟩), ready (by decide +kernel),
    by decide +kernel⟩

theorem witness_ControlRegisters_1 : ∃ i f w64 s iss rest w, (i = .csrw f w64 .syshand ∨ i = .csrx f w64 .syshand) ∧ Ready i s iss w ∧
    s.issuing = iss :: rest ∧ (let en := enabled (rdOf i s w iss) f; w.csr.trstat.getLsbD 1 = false ∧ en ≠ 0) :=
  ⟨.csrw F0 true .syshand, F0, true, P, I0, [], W0, .inl rfl, ready (by decide +kernel), by decide +kernel⟩

theorem witness_GangControlAndExit_0 : ∃ i s iss rest w t taken, Ready i s iss w ∧ s.issuing = iss :: rest ∧
    gangSyl (rdOf i s w iss) i = some (t, taken) ∧ (∀ f thr t, i = .brsig f thr t → thr < 64) :=
  ⟨.brsig F0 63 ⟨3, 2⟩, P, I0, [], W0, ⟨3, 2⟩, false, ready (by decide +kernel), by decide +kernel, by decide +kernel,
    fun _ _ _ h => by injection h; omega⟩

theorem witness_GangControlAndExit_1 : ∃ f t s iss rest w, Ready (.regang f t) s iss w ∧ s.issuing = iss :: rest ∧
    (let rd := rdOf (.regang f t) s w iss; (∀ k ∈ iss.slices, ∀ sl, w.slices[k]? = some sl → sl.depth < 2)) :=
  ⟨FZ, ⟨3, 2⟩, P, I0, [], W0, ready (by decide +kernel), by decide +kernel,
    slicesAll _ (fun _ sl => decide (sl.depth < 2)) (fun _ _ h => of_decide_eq_true h) (by decide +kernel)⟩

theorem witness_GangControlAndExit_2 : ∃ f t s iss rest w, Ready (.call f t) s iss w ∧ s.issuing = iss :: rest ∧
    (let rd := rdOf (.call f t) s w iss; (∀ k ∈ iss.slices, ∀ sl, w.slices[k]? = some sl → sl.stack.length < 16)) :=
  ⟨FZ, ⟨3, 2⟩, P, I0, [], W0, ready (by decide +kernel), by decide +kernel,
    slicesAll _ (fun _ sl => decide (sl.stack.length < 16)) (fun _ _ h => of_decide_eq_true h) (by decide +kernel)⟩

theorem witness_GangControlAndExit_3 : ∃ f s iss rest w, Ready (.ret f) s iss w ∧ s.issuing = iss :: rest ∧
    (let rd := rdOf (.ret f) s w iss; (∀ k ∈ iss.slices, ∀ sl, w.slices[k]? = some sl → ∃ a st, sl.stack = (a, sl.depth) :: st)) :=
  ⟨FN, P.putWarp ({ W0 with slices := W0.slices.map fun sl => { sl with stack := [(0x40, 0)] } }), I0, [],
    { W0 with slices := W0.slices.map fun sl => { sl with stack := [(0x40, 0)] } }, ready (by decide +kernel), by decide +kernel,
    slicesAll _ (fun _ sl => decide (sl.stack = [(0x40, sl.depth)])) (fun _ _ h => ⟨_, _, of_decide_eq_true h⟩) (by decide +kernel)⟩

theorem witness_GangControlAndExit_4 : ∃ f s iss w, Ready (.yield f) s iss w :=
  ⟨FN, P, I0, W0, ready (by decide +kernel)⟩

theorem witness_GangControlAndExit_5 : ∃ f s iss w, Ready (.exit f) s iss w :=
  ⟨FN, P, I0, W0, ready (by decide +kernel)⟩

theorem witness_GangControlAndExit_6 : ∃ i gap s iss w, (i = .nopV gap ∨ i = .nopM gap ∨ i = .nopK gap ∨ i = .nopC gap) ∧
    Ready i s iss w :=
  ⟨.nopC 15, 15, P, I0, W0, .inr (.inr (.inr rfl)), ready (by decide +kernel)⟩

theorem witness_ResultsLand_0 : ∃ (wid : Nat) (s : State) (w : Warp) (f : Flight), s.warp? wid = some w ∧ w.wid = wid ∧
    w.flight.find? (fun x => x.seq = f.seq) = some f ∧ (∀ n span, f.dst = .regs n span → n < 776 ∨ 780 ≤ n) ∧ (∀ r ∈ f.lanes,
    r.lane < 64) ∧ f.lanes.Pairwise (fun r q => r.lane ≠ q.lane) :=
  ⟨2,
    P.putWarp { W0 with flight := [⟨9, 0, 0, .regs 775 2, 3, [{ lane := 0, vals := [(5, 60), (6, 63)] }, { lane := 63, vals := [(7, 54)] }]⟩] },
    { W0 with flight := [⟨9, 0, 0, .regs 775 2, 3, [{ lane := 0, vals := [(5, 60), (6, 63)] }, { lane := 63, vals := [(7, 54)] }]⟩] },
    ⟨9, 0, 0, .regs 775 2, 3, [{ lane := 0, vals := [(5, 60), (6, 63)] }, { lane := 63, vals := [(7, 54)] }]⟩, by decide +kernel,
    by decide +kernel, by decide +kernel, fun n span h => by injection h with h1 _; omega, by decide +kernel, by decide +kernel⟩

theorem witness_ResultsLand_1 : ∃ (wid : Nat) (s : State) (w : Warp) (f : Flight) (tm : Team) (h : Nat), s.warp? wid = some w ∧
    w.wid = wid ∧ w.flight.find? (fun x => x.seq = f.seq) = some f ∧
    (f.dst = .regs (776 + h) 1 ∨ f.dst = .regs (776 + h) 2 ∨ f.dst = .regs (776 + h) 4) ∧ h < 4 ∧ s.team? w.team = some tm ∧
    tm.tid = w.team :=
  ⟨2, P.putWarp { W0 with flight := [⟨9, 0, 0, .regs 779 4, 3, []⟩] }, { W0 with flight := [⟨9, 0, 0, .regs 779 4, 3, []⟩] }, ⟨9, 0, 0,
    .regs 779 4, 3, []⟩, T0, 3, by decide +kernel⟩

theorem witness_ResultsLand_2 : ∃ (wid : Nat) (s : State) (w : Warp) (tm : Team), s.warp? wid = some w ∧ w.wid = wid ∧
    s.team? w.team = some tm :=
  ⟨2, P, W0, T0, by decide +kernel⟩

theorem witness_ResultsLand_3 : ∃ (wid : Nat) (s : State) (w : Warp) (tm : Team), s.warp? wid = some w ∧ w.wid = wid ∧
    s.team? w.team = some tm :=
  ⟨2, P, W0, T0, by decide +kernel⟩

theorem witness_TrapsAreTaken_0 : ∃ (s : State) (w : Warp) (d : TrapDue), s.warp? w.wid = some w ∧ w.nextTrap = some d ∧
    w.stopped = false ∧ w.ended = false ∧ w.scr = [] ∧ (∀ p ∈ w.csrPend, p.1 ≤ w.tick + 1) :=
  ⟨P.putWarp { W0 with due := [{ cause := 0x14, cls := 1, pc := 0x40, lanes := 1, val := 7, seq := 3, tick := 0 }], csrPend := [(1, .fpsr, 5)] },
    { W0 with due := [{ cause := 0x14, cls := 1, pc := 0x40, lanes := 1, val := 7, seq := 3, tick := 0 }], csrPend := [(1, .fpsr, 5)] },
    { cause := 0x14, cls := 1, pc := 0x40, lanes := 1, val := 7, seq := 3, tick := 0 }, by decide +kernel⟩

theorem witness_TrapsAreTaken_1 : ∃ (s : State) (w : Warp) (a : Attic), s.warp? w.wid = some w ∧ s.svUp 4 = true ∧ w.stopped = true ∧
    w.attic = some a :=
  ⟨up <| P.putWarp { W0 with stopped := true, attic := some ⟨[], W0.slices, [0], 0x40, 2⟩ },
    { W0 with stopped := true, attic := some ⟨[], W0.slices, [0], 0x40, 2⟩ }, ⟨[], W0.slices, [0], 0x40, 2⟩, by decide +kernel⟩

theorem witness_TrapsAreTaken_2 : ∃ (s : State) (w : Warp), s.warp? w.wid = some w ∧ s.svUp 4 = true ∧ w.stopped = true ∧
    w.csr.trhand ≠ 0 :=
  ⟨up <| P.putWarp { W0 with stopped := true, csr := { W0.csr with trhand := 0x80 } },
    { W0 with stopped := true, csr := { W0.csr with trhand := 0x80 } }, by decide +kernel⟩

theorem witness_TrapsAreTaken_3 : ∃ (s : State) (w : Warp), s.warp? w.wid = some w ∧ w.csr.wdog ≠ 0 ∧
    w.csr.wdog.toNat * 1000 < w.wdogNs :=
  ⟨P.putWarp { W0 with csr := { W0.csr with wdog := 1 }, wdogNs := 1001 }, { W0 with csr := { W0.csr with wdog := 1 }, wdogNs := 1001 },
    by decide +kernel⟩

theorem witness_TrapsAreTaken_4 : ∃ (s : State) (w : Warp) (o : Nat) (isl : _) (lanes : _) (att : _), s.warp? w.wid = some w ∧
    w.lost = some (o, isl, lanes, att) ∧ recovering s w = false :=
  ⟨P.putWarp { W0 with lost := some (775, 3, 0xFFFF, false) }, { W0 with lost := some (775, 3, 0xFFFF, false) }, 775, 3, 0xFFFF, false,
    by decide +kernel⟩

theorem witness_HooksDropAndTakeCredit_0 : ∃ (s : State) (w : Warp) (h : Nat) (k : HookSt) (it : HookItem) (rest : _),
    s.warp? w.wid = some w ∧ w.hooks[h]? = some k ∧ k.items = it :: rest ∧ k.credit = 0 ∧ it.fin = some s.base ∧ it.token = false ∧ (∀ x,
    rest.head? = some x → ∀ n, x.fin = some n → s.base < n) ∧ (∀ x ∈ rest, x.early = true → ∀ n, x.fin = some n → s.base < n) ∧
    (∀ e ∈ s.ops, ∀ n q, e.2.kind ≠ .fence n q) ∧ (∀ e ∈ s.ops, ∀ m, e.2.kind = .matrix m → m.spoiled w = false) ∧ (∀ r ∈ it.res, r.lane < 64) ∧
    it.res.Pairwise (fun r q => r.lane ≠ q.lane) :=
  ⟨P.putWarp { W0 with hooks := [{ items := [{ id := 9, fin := some 0, dst := .regs 8 1, res := [{ lane := 63, vals := [(5, 61)] }] }, { id := 10, fin := some 1 }] }] },
    { W0 with hooks := [{ items := [{ id := 9, fin := some 0, dst := .regs 8 1, res := [{ lane := 63, vals := [(5, 61)] }] }, { id := 10, fin := some 1 }] }] },
    0,
    { items := [{ id := 9, fin := some 0, dst := .regs 8 1, res := [{ lane := 63, vals := [(5, 61)] }] }, { id := 10, fin := some 1 }] },
    { id := 9, fin := some 0, dst := .regs 8 1, res := [{ lane := 63, vals := [(5, 61)] }] }, [{ id := 10, fin := some 1 }],
    by decide +kernel, by decide +kernel, rfl, rfl, rfl, rfl,
    fun x h n hn => by injection h with h; subst h; injection hn with hn; subst hn; decide, by decide +kernel, fun e he => absurd (show e ∈ ([] : Tbl Op) from he) List.not_mem_nil,
    fun e he => absurd (show e ∈ ([] : Tbl Op) from he) List.not_mem_nil, by decide +kernel, by decide +kernel⟩

theorem witness_HooksDropAndTakeCredit_1 : ∃ (s : State) (w : Warp) (h : Nat) (k : HookSt) (c : _) (n : _), s.warp? w.wid = some w ∧
    w.hooks[h]? = some k ∧ w.ended = false ∧ (c, n) ∈ k.coming ∧ c ≤ coreCycle s w.core :=
  ⟨P.putWarp { W0 with hooks := [{ promised := 63, coming := [(0, 63)] }] },
    { W0 with hooks := [{ promised := 63, coming := [(0, 63)] }] }, 0, { promised := 63, coming := [(0, 63)] }, 0, 63, by decide +kernel⟩

theorem witness_BarriersAndWaitsRelease_0 : ∃ (s : State) (w : Warp) (tm : Team) (k : Nat) (seq : _) (drain : _) (b : Barrier) (a : Arrival),
    s.warp? w.wid = some w ∧ s.team? w.team = some tm ∧ tm.barriers[k]? = some b ∧
    w.settles.find? (fun x => x.seq = seq) = some (.arrive seq k drain) ∧ w.settled seq (coreCycle s w.core) = true ∧
    (drain = true → w.hooksZero = true) ∧ b.record.find? (fun x => x.seq = seq) = some a :=
  ⟨(P.putWarp { W0 with settles := [.arrive 9 15 true] }).putTeam ({ T0 with barriers := List.replicate 15 {} ++ [{ record := [⟨9, 0, 0xFFFF, 2, false⟩] }] }),
    { W0 with settles := [.arrive 9 15 true] },
    { T0 with barriers := List.replicate 15 {} ++ [{ record := [⟨9, 0, 0xFFFF, 2, false⟩] }] }, 15, 9, true,
    { record := [⟨9, 0, 0xFFFF, 2, false⟩] }, ⟨9, 0, 0xFFFF, 2, false⟩, by decide +kernel⟩

theorem witness_BarriersAndWaitsRelease_1 : ∃ (s : State) (tid : _) (tm : Team) (k : Nat) (b : Barrier), s.team? tid = some tm ∧
    tm.barriers[k]? = some b ∧ b.isOpen = true ∧ (∃ a ∈ b.record, a.counted = true) ∧ b.e ≤ arrivedWarps s tm b :=
  ⟨P.putTeam { T0 with barriers := [{ record := [⟨9, 0, 0xFFFF, 1, true⟩], isOpen := true, e := 1 }] }, 1,
    { T0 with barriers := [{ record := [⟨9, 0, 0xFFFF, 1, true⟩], isOpen := true, e := 1 }] }, 0,
    { record := [⟨9, 0, 0xFFFF, 1, true⟩], isOpen := true, e := 1 }, by decide +kernel, by decide +kernel, by decide +kernel, ⟨⟨9, 0,
    0xFFFF, 1, true⟩, by decide +kernel⟩, by decide +kernel⟩

def awakeB (s : State) (i : Island) : Bool := !i.mode.isRet && decide (i.wakeNs ≤ timens s)
theorem awakeIs {s : State} {i : Island} (h : awakeB s i = true) : awake s i := by
  simp only [awakeB, Bool.and_eq_true, Bool.not_eq_true', decide_eq_true_eq] at h
  exact h

def barB : Barrier := { record := [⟨9, 0, 0xFFFF, 1, true⟩], isOpen := true, e := 1 }
def barT : Team := { T0 with barriers := [barB] }
def barW : Warp := { W0 with slices := W0.slices.map fun sl => { sl with cur := { sl.cur with hold := .bar 0 0xFFFF } } }
def barS : State := (P.putWarp barW).putTeam barT
theorem barAwake : ∀ i ∈ (barS.core barB.core).islands, awake barS i :=
  fun i hi => awakeIs (List.all_eq_true.mp (by decide +kernel : ((barS.core barB.core).islands.all (awakeB barS)) = true) i hi)

theorem witness_BarriersAndWaitsRelease_paths : ∃ (s : State) (tid : _) (tm : Team) (k : Nat) (b : Barrier) (w : Warp) (sl : Slice) (lanes : _),
    s.team? tid = some tm ∧ tm.barriers[k]? = some b ∧ b.isOpen = true ∧ (∃ a ∈ b.record, a.counted = true) ∧ b.e ≤ arrivedWarps s tm b ∧
    Keyed s ∧ (∀ i ∈ (s.core b.core).islands, awake s i) ∧ s.warp? w.wid = some w ∧ w.team = tid ∧ w.ended = false ∧ w.core = b.core ∧
    w.slices[0]? = some sl ∧ sl.cur.hold = .bar k lanes :=
  ⟨barS, 1, barT, 0, barB, barW, { Slice.start 0 with cur := { (Slice.start 0).cur with hold := .bar 0 0xFFFF } }, 0xFFFF,
    by decide +kernel, by decide +kernel, by decide +kernel, ⟨⟨9, 0, 0xFFFF, 1, true⟩, by decide +kernel⟩, by decide +kernel,
    keyed (by decide +kernel), barAwake, by decide +kernel, by decide +kernel, by decide +kernel, by decide +kernel, by decide +kernel,
    by decide +kernel⟩

theorem witness_RepliesArrive_0 : ∃ (s : State) (n : Nat) (u : WqUnit) (o : Op) (l : _) (e : _) (es : _) (it : HookItem) (k : HookSt) (w : Warp),
    s.wqUnits[n]? = some u ∧ u.waiters = [(o.id, l)] ∧ u.entries = e :: es ∧ tget s.ops o.id = some o ∧ o.kind = .wqdeq [(l, n)] [] ∧
    s.warp? o.wid = some w ∧ w.wid = o.wid ∧ w.hooks[o.hook]? = some k ∧ k.items.find? (fun x => x.id = o.id) = some it ∧
    it.lanes = lane1 l ∧ l < 64 :=
  ⟨{ PO (.wqdeq [(63, 0)] []) { id := 9, lanes := lane1 63, dst := .regs 8 4 } with wqUnits := [{ owner := some (0, 0), entries := [5], waiters := [(9, 63)] }] },
    0, { owner := some (0, 0), entries := [5], waiters := [(9, 63)] }, opOf (.wqdeq [(63, 0)] []), 63, 5, [],
    { id := 9, lanes := lane1 63, dst := .regs 8 4 }, { items := [{ id := 9, lanes := lane1 63, dst := .regs 8 4 }] },
    WI { id := 9, lanes := lane1 63, dst := .regs 8 4 }, by decide +kernel⟩

theorem witness_RepliesArrive_lanes : ∃ (s : State) (n : Nat) (u : WqUnit) (o : Op) (l : _) (ws : _) (e : _) (es : _) (waiting : _) (got : _)
    (w : Warp), s.wqUnits[n]? = some u ∧ u.waiters = (o.id, l) :: ws ∧ u.entries = e :: es ∧ (ws = [] ∨ es = []) ∧ tget s.ops o.id = some o ∧
    o.kind = .wqdeq waiting got ∧ s.warp? o.wid = some w ∧ (∃ p ∈ waiting, p.1 ≠ l) :=
  ⟨{ PO (.wqdeq [(0, 0), (63, 0)] []) with wqUnits := [{ owner := some (0, 0), entries := [5], waiters := [(9, 0), (9, 63)] }] }, 0,
    { owner := some (0, 0), entries := [5], waiters := [(9, 0), (9, 63)] }, opOf (.wqdeq [(0, 0), (63, 0)] []), 0, [(9, 63)], 5, [],
    [(0, 0), (63, 0)], [], WI item, by decide +kernel, by decide +kernel, by decide +kernel, .inr rfl, by decide +kernel, rfl,
    by decide +kernel, (63, 0), by decide, by decide⟩

theorem witness_RepliesArrive_1 : ∃ (s : State) (o : Op) (n : Nat) (a : _) (b : _) (w : Warp) (k : HookSt) (it : HookItem),
    tget s.ops o.id = some o ∧ o.kind = .sysc n a b ∧ s.svUp 4 = true ∧ s.warp? o.wid = some w ∧ w.wid = o.wid ∧
    w.hooks[o.hook]? = some k ∧ k.items.find? (fun x => x.id = o.id) = some it :=
  ⟨up (PO (.sysc 255 1 2)), opOf (.sysc 255 1 2), 255, 1, 2, WI item, { items := [item] }, item, by decide +kernel⟩

theorem witness_HomesHoldBytes_0 : ∃ (s : State) (o : Op) (m : MemOp) (l : MemLane), tget s.ops o.id = some o ∧ o.kind = .mem m ∧
    m.kind = .store ∧ m.lanes = [l] ∧ m.todo = [2 * (l.pa / 128)] ∧ l.sleaf = none ∧ l.leaf.enc = false ∧ m.bytes ≤ 16 ∧
    l.pa % 128 + m.bytes ≤ 128 ∧ plainLine s (l.pa / 128) ∧ roomFor s (l.pa / 128) ∧ olderFirst s o (m.ranges m.todo) = false :=
  ⟨PO (.mem (memOp .store)), opOf (.mem (memOp .store)), memOp .store, ln0, by decide +kernel, rfl, rfl, rfl, rfl, rfl, rfl, by decide,
    by decide, plainAt (by decide +kernel), roomAt (by decide +kernel), by decide +kernel⟩

theorem witness_HomesHoldBytes_1 : ∃ (s : State) (o : Op) (m : MemOp) (l : MemLane), tget s.ops o.id = some o ∧ o.kind = .mem m ∧
    m.kind = .load ∧ m.lanes = [l] ∧ m.todo = [2 * (l.pa / 128)] ∧ l.sleaf = none ∧ l.leaf.enc = false ∧ m.bytes ≤ 16 ∧
    l.pa % 128 + m.bytes ≤ 128 ∧ plainLine s (l.pa / 128) ∧ roomFor s (l.pa / 128) ∧ undefMask s (l.pa / 128) = 0 ∧
    olderFirst s o (m.ranges m.todo) = false :=
  ⟨PO (.mem (memOp .load)), opOf (.mem (memOp .load)), memOp .load, ln0, by decide +kernel, rfl, rfl, rfl, rfl, rfl, rfl, by decide,
    by decide, plainAt (by decide +kernel), roomAt (by decide +kernel), by decide +kernel, by decide +kernel⟩

theorem witness_AccessesComplete_0 : ∃ (s : State) (o : Op) (m : MemOp) (w : Warp) (it : HookItem) (n : _) (span : _),
    tget s.ops o.id = some o ∧ o.kind = .mem m ∧ m.kind = .load ∧ workOf s o w it ∧ it.dst = .regs n span ∧ m.poisoned = [] ∧
    m.tagRes = [] ∧ m.uni = false ∧ (∀ r ∈ m.results, r.lane < 64 ∧ m.enabled.getLsbD r.lane = true) ∧
    m.results.Pairwise (fun r q => r.lane ≠ q.lane) :=
  ⟨PO (.mem (memOp .load [{ lane := 0, vals := [(1, 62), (2, 54)] }])) { id := 9, dst := .regs 772 4, lanes := 1 },
    opOf (.mem (memOp .load [{ lane := 0, vals := [(1, 62), (2, 54)] }])), memOp .load [{ lane := 0, vals := [(1, 62), (2, 54)] }],
    WI { id := 9, dst := .regs 772 4, lanes := 1 }, { id := 9, dst := .regs 772 4, lanes := 1 }, 772, 4, by decide +kernel, rfl, rfl,
    ⟨by decide +kernel, by decide +kernel, { items := [{ id := 9, dst := .regs 772 4, lanes := 1 }] }, by decide +kernel⟩, rfl, rfl, rfl,
    rfl, by decide +kernel, by decide +kernel⟩

theorem witness_AccessesComplete_1 : ∃ (s : State) (o : Op) (m : MemOp) (w : Warp) (it : HookItem), tget s.ops o.id = some o ∧
    o.kind = .mem m ∧ m.kind = .store ∧ workOf s o w it ∧ it.dst = .regs 1023 0 ∧ m.poisoned = [] ∧ m.results = [] :=
  ⟨PO (.mem (memOp .store)), opOf (.mem (memOp .store)), memOp .store, WI item, item, by decide +kernel, rfl, rfl, ⟨by decide +kernel,
    by decide +kernel, { items := [item] }, by decide +kernel⟩, rfl, rfl, rfl⟩

theorem witness_AccessesComplete_2 : ∃ (s : State) (o : Op) (m : MemOp) (w : Warp) (it : HookItem) (tm : Team) (key : _),
    tget s.ops o.id = some o ∧ o.kind = .mem m ∧ m.kind = .load ∧ workOf s o w it ∧ m.hatch = some key ∧ s.team? w.team = some tm ∧
    m.poisoned = [] ∧ m.tagRes = [] ∧ m.uni = false ∧ (∀ r ∈ m.results, m.enabled.getLsbD r.lane = true ∧
    r = { lane := r.lane, vals := r.vals }) :=
  ⟨PO (.mem { memOp .load [{ lane := 0, vals := [(1, 62)] }] with hatch := some 4 }),
    opOf (.mem { memOp .load [{ lane := 0, vals := [(1, 62)] }] with hatch := some 4 }),
    { memOp .load [{ lane := 0, vals := [(1, 62)] }] with hatch := some 4 }, WI item, item, T0, 4, by decide +kernel, rfl, rfl,
    ⟨by decide +kernel, by decide +kernel, { items := [item] }, by decide +kernel⟩, rfl, by decide +kernel, rfl, rfl, rfl,
    by decide +kernel⟩

theorem witness_CachesPoisonAndCellar_0 : ∃ (s : State) (core : Nat), core < s.cores.length :=
  ⟨P, 191, by decide +kernel⟩

theorem witness_CachesPoisonAndCellar_1 : ∃ (s : State) (line : _) (l : L2Line), Memory.wf s = true ∧ tget s.l2 line = some l ∧
    l.spent = none ∧ l.dirty = true ∧ l.enc = false ∧ l.bad = 0 :=
  ⟨{ P with l2 := [(8, { data := 5, dirty := true })] }, 8, { data := 5, dirty := true }, by decide +kernel⟩

theorem witness_CachesPoisonAndCellar_2 : ∃ (i : Instr) (block : Nat),
    (i = .hbmUncorrectableError block ∨ i = .powerControllerPoison block) ∧ block < 0xC000000000 / 64 :=
  ⟨.hbmUncorrectableError 0x2FFFFFFFF, 0x2FFFFFFFF, .inl rfl, by decide⟩

theorem witness_CachesPoisonAndCellar_3 : ∃ (s : State) (ctx off : Nat) (data : List Byte) (v : CellarWin), Memory.wf s = true ∧ s.svUp 3 = true ∧
    v ∈ s.cellarWins ∧ v.ctx = ctx ∧ v.base ≤ off ∧ off + data.length ≤ v.base + v.len ∧ cellarInUse s off data.length = false ∧
    s.cellarPoison = [] :=
  ⟨up { P with cellarWins := [⟨511, 0x100000, 0x100000, false⟩] }, 511, 0x1FFFFF, [(1 : Byte)], ⟨511, 0x100000, 0x100000, false⟩,
    by decide +kernel⟩

theorem witness_CachesPoisonAndCellar_4 : ∃ (s : State) (ctx off : Nat) (data : List Byte) (v : CellarWin), v ∈ s.cellarWins ∧ v.ctx = ctx ∧
    v.base ≤ off ∧ off + data.length ≤ v.base + v.len ∧ s.svUp 3 = true ∧ cellarInUse s off data.length = true :=
  ⟨up { P with cellarWins := [⟨0, 0x100000, 0x100000, false⟩] }, 0, 0x1FFFFF, [(1 : Byte)], ⟨0, 0x100000, 0x100000, false⟩, by decide +kernel⟩

theorem witness_CachesPoisonAndCellar_waits : ∃ (s : State) (ctx off : Nat) (data : List Byte) (v : CellarWin), v ∈ s.cellarWins ∧ v.ctx = ctx ∧
    v.base ≤ off ∧ off + data.length ≤ v.base + v.len ∧ s.svUp 3 = false :=
  ⟨{ P with cellarWins := [⟨0, 0x100000, 0x100000, false⟩] }, 0, 0x100000, [(1 : Byte), 2], ⟨0, 0x100000, 0x100000, false⟩, by decide +kernel⟩

theorem witness_CachesPoisonAndCellar_outside : ∃ (s : State) (ctx off : Nat) (data : List Byte), s.cellarWins ≠ [] ∧
    (∀ v ∈ s.cellarWins, v.ctx = ctx → off < v.base ∨ v.base + v.len < off + data.length) :=
  ⟨{ P with cellarWins := [⟨0, 0x100000, 0x100000, false⟩] }, 0, 0xFFFFF, [(1 : Byte), 2], by decide +kernel⟩

theorem witness_CachesPoisonAndCellar_5 : ∃ (s : State) (slot : Nat), s.svUp 3 = true ∧ slot < 512 :=
  ⟨up P, 511, by decide +kernel⟩

theorem witness_CachesPoisonAndCellar_6 : ∃ (s : State), s.svUp 3 = true :=
  ⟨up P, by decide +kernel⟩

theorem witness_CachesPoisonAndCellar_7 : ∃ (s : State) (ctx : Nat) (base : Nat) (len : Nat), s.svUp 3 = true ∧
    (s.cellarWins.filter fun v => v.ctx = ctx).length < 8 ∧ base % 2 ^ 20 = 0 ∧ len % 2 ^ 20 = 0 ∧ base + len ≤ 2 ^ 29 :=
  ⟨up P, 511, 0x1FF00000, 0x100000, by decide +kernel⟩

theorem witness_TranslationAndLines_0 : ∃ (s : State) (w : Warp) (va : Dword) (ln : FLine), s.warp? w.wid = some w ∧
    fcFind s w.core (ctxOf s w) va.toNat = some ln :=
  ⟨withCore P fun c => { c with fcache := [⟨0, 64, nopWord⟩] }, W0, 64, ⟨0, 64, nopWord⟩, by decide +kernel⟩

theorem witness_TranslationAndLines_1 : ∃ (s : State) (w : Warp), s.warp? w.wid = some w :=
  ⟨P, W0, by decide +kernel⟩

theorem witness_TranslationAndLines_2 : ∃ (s : State) (w : Warp) (tm : Team), s.warp? w.wid = some w ∧ s.team? w.team = some tm :=
  ⟨P, W0, T0, by decide +kernel⟩

theorem witness_TranslationAndLines_3 : ∃ (s : State) (k : Walk), s.walks.find? (fun x => x.id = k.id) = some k ∧ k.deferred = false ∧
    2 ^ 48 ≤ k.va ∧ (∀ l, Machine.walk s k.ctx k.va ≠ .leaf l) ∧ Machine.walk s k.ctx k.va ≠ .defer :=
  ⟨{ P with walks := [⟨9, 0, 0x1000000000000, 0, false, [.warp 2], false, .r⟩] }, ⟨9, 0, 0x1000000000000, 0, false, [.warp 2], false, .r⟩,
    by decide +kernel, rfl, by decide, nofun, nofun⟩

theorem witness_TranslationAndLines_4 : ∃ (s : State) (k : Walk) (l : _), s.walks.find? (fun x => x.id = k.id) = some k ∧
    k.deferred = false ∧ k.va < 2 ^ 48 ∧
    Machine.walk (trimL2 (bringWalk s k.va (if k.retried then 512 else k.ctx) 4 0 (s.ctx k.ctx).root).used) k.ctx k.va = .leaf l :=
  ⟨{ PM with walks := [⟨9, 0, 0x3FFFFFFF, 0, false, [.warp 2], false, .r⟩] }, ⟨9, 0, 0x3FFFFFFF, 0, false, [.warp 2], false, .r⟩, ⟨0, 30, true,
    true, true, false, 0, false, 0, 1⟩, by decide +kernel, rfl, by decide, by decide +kernel⟩

theorem witness_TranslationAndLines_6 : ∃ (s : State) (pa : Nat), s.svUp 3 = true ∧ pa % 8 = 0 ∧ pa < 0xC000000000 ∧
    plainLine s (pa / 128) ∧ roomFor s (pa / 128) :=
  ⟨up P, 0xBFFFFFFFF8, by decide +kernel, by decide, by decide, plainAt (by decide +kernel), roomAt (by decide +kernel)⟩

theorem witness_TranslationAndLines_7 : ∃ (s : State) (id : Nat) (pa : Nat) (k : Walk), s.svUp 3 = true ∧ pa % 8 = 0 ∧
    pa < 0xC000000000 ∧ k ∈ s.walks ∧ k.id = id ∧ k.deferred = true :=
  ⟨up { P with walks := [⟨9, 0, 0x10000, 0, true, [.warp 2], false, .r⟩] }, 9, 0, ⟨9, 0, 0x10000, 0, true, [.warp 2], false, .r⟩, by decide +kernel⟩

theorem witness_TranslationAndLines_8 : ∃ (s : State) (id : Nat) (k : Walk) (w : Warp), s.svUp 3 = true ∧
    s.walks.find? (fun x => x.id = id && x.deferred) = some k ∧ k.reqs = [.warp w.wid] ∧ s.warp? w.wid = some w :=
  ⟨up { P with walks := [⟨9, 0, 0x10000, 0, true, [.warp 2], false, .r⟩] }, 9, ⟨9, 0, 0x10000, 0, true, [.warp 2], false, .r⟩, W0,
    by decide +kernel⟩

theorem witness_EnginesWork_0 : ∃ (s : State) (o : Op) (c : CopyOp) (w : Warp) (tm : Team), tget s.ops o.id = some o ∧ o.kind = .copy c ∧
    c.kind = .fillSp ∧ s.warp? o.wid = some w ∧ s.team? w.team = some tm ∧ tm.tid = w.team ∧ cwf tm.scratch = true ∧ c.asked = none ∧
    c.fault = none ∧ c.finished = false ∧ c.row = 0 ∧ c.pos = 0 ∧ 0 < c.len ∧ c.b % 128 + c.len ≤ 128 ∧ (∀ a ∈ w.scr, o.id ≤ a.seq) ∧
    (∀ p, w.scrDone = some p → o.id ≤ p.1 ∨ p.2 ≠ coreCycle s w.core) ∧ tm.place = .resident ∧
    (s.core o.core).copyFree ≤ coreCycle s o.core ∧ (∀ b, (s.core b).bankUse = [] ∧ (s.core b).engUse = []) ∧
    (∀ e ∈ s.ops, e.1 ≠ o.id → e.2.want = []) ∧ (∀ k < c.len, othersPut s o.id w.team (c.b + k) = false) :=
  ⟨PO (.copy { kind := .fillSp, a := 0x01020304, b := 112, len := 16, lanes := 1 }),
    opOf (.copy { kind := .fillSp, a := 0x01020304, b := 112, len := 16, lanes := 1 }),
    { kind := .fillSp, a := 0x01020304, b := 112, len := 16, lanes := 1 }, WI item, T0, by decide +kernel, rfl, rfl, by decide +kernel,
    by decide +kernel, by decide +kernel, by decide +kernel, rfl, rfl, rfl, rfl, rfl, by decide, by decide, by decide +kernel,
    nofun, by decide +kernel, by decide +kernel, banksFree, by decide +kernel,
    by decide +kernel⟩

theorem witness_EnginesWork_1 : ∃ (s : State) (o : Op) (c : CopyOp) (w : Warp) (it : HookItem), tget s.ops o.id = some o ∧
    o.kind = .copy c ∧ workOf s o w it :=
  ⟨PO (.copy { kind := .linIn, lanes := 1, zr := true, wct := 7, fault := some (0x16, 5) }),
    opOf (.copy { kind := .linIn, lanes := 1, zr := true, wct := 7, fault := some (0x16, 5) }),
    { kind := .linIn, lanes := 1, zr := true, wct := 7, fault := some (0x16, 5) }, WI item, item, by decide +kernel, rfl,
    ⟨by decide +kernel, by decide +kernel, { items := [item] }, by decide +kernel⟩⟩

theorem witness_EnginesWork_2 : ∃ (s : State) (o : Op) (m : MatOp) (w : Warp) (tm : Team) (f : _) (s32 : _) (tile : Nat) (rc : _) (cc : _) (hook : _),
    tget s.ops o.id = some o ∧ o.kind = .matrix m ∧ m.ins = .mcfg f s32 tile rc cc hook ∧ m.copy = none ∧ s.warp? o.wid = some w ∧
    s.team? w.team = some tm ∧ tm.tid = w.team ∧ tm.place = .resident ∧ w.core < s.cores.length ∧ m.performed = false ∧
    m.finished = false ∧ matReady s o w tm m = true ∧ matFault (s.core w.core).engine w tm m = none ∧
    tile < (s.core w.core).engine.tiles.length :=
  ⟨PO (.matrix { ins := .mcfg F0 true 7 7 7 15, lanes := 1, fenced := 0, issued := 0 }),
    opOf (.matrix { ins := .mcfg F0 true 7 7 7 15, lanes := 1, fenced := 0, issued := 0 }),
    { ins := .mcfg F0 true 7 7 7 15, lanes := 1, fenced := 0, issued := 0 }, WI item, T0, F0, true, 7, 7, 7, 15, by decide +kernel⟩

theorem witness_EnginesWork_3 : ∃ (s : State) (o : Op) (m : MatOp) (w : Warp) (tm : Team) (f : _) (tile : Nat) (hook : _),
    tget s.ops o.id = some o ∧ o.kind = .matrix m ∧ m.ins = .mzero f tile hook ∧ m.copy = none ∧ s.warp? o.wid = some w ∧
    s.team? w.team = some tm ∧ tm.tid = w.team ∧ tm.place = .resident ∧ w.core < s.cores.length ∧ m.performed = false ∧
    m.finished = false ∧ matReady s o w tm m = true ∧ matFault (s.core w.core).engine w tm m = none :=
  ⟨withCore (PO (.matrix { ins := .mzero F0 7 15, lanes := 1, fenced := 0, issued := 0 })) (fun c => { c with engine := liveTile }),
    opOf (.matrix { ins := .mzero F0 7 15, lanes := 1, fenced := 0, issued := 0 }),
    { ins := .mzero F0 7 15, lanes := 1, fenced := 0, issued := 0 }, WI item, T0, F0, 7, 15, by decide +kernel⟩

theorem witness_EnginesWork_4 : ∃ (s : State) (o : Op) (m : MatOp) (w : Warp) (it : HookItem), tget s.ops o.id = some o ∧
    o.kind = .matrix m ∧ workOf s o w it ∧ m.performed = true ∧ m.finished = false ∧ m.spoiled w = false ∧
    m.finishAt ≤ coreCycle s o.core ∧ (∀ tm,
    s.team? w.team = some tm → tm.tid = w.team) :=
  ⟨PO (.matrix { ins := .mzero F0 7 15, lanes := 1, fenced := 0, issued := 0, performed := true }),
    opOf (.matrix { ins := .mzero F0 7 15, lanes := 1, fenced := 0, issued := 0, performed := true }),
    { ins := .mzero F0 7 15, lanes := 1, fenced := 0, issued := 0, performed := true }, WI item, item, by decide +kernel, rfl,
    ⟨by decide +kernel, by decide +kernel, { items := [item] }, by decide +kernel⟩, rfl, rfl, by decide +kernel, by decide +kernel,
    fun tm h => by injection (show some T0 = some tm from h) with h; subst h; rfl⟩

theorem witness_FabricRequests_0 : ∃ (s : State) (win : Nat), s.svUp 5 = true ∧ win < 1024 :=
  ⟨up P, 1023, by decide +kernel⟩

theorem witness_FabricRequests_1 : ∃ (s : State) (src : Nat) (tgt : Nat) (m : Nat), s.svUp 5 = true ∧ src < s.podsize ∧ tgt < s.podsize ∧
    m < s.podsize ∧ m ≠ src ∧ m ≠ tgt :=
  ⟨up { P with podsize := 16 }, 0, 1, 15, by decide +kernel⟩

theorem witness_FabricRequests_2 : ∃ (s : State) (src : Nat) (tgt : Nat), s.svUp 5 = true ∧ src < s.podsize ∧ tgt < s.podsize :=
  ⟨up { P with podsize := 16 }, 0, 15, by decide +kernel⟩

theorem witness_FabricRequests_3 : ∃ (s : State) (peer : Nat), peer ∉ s.peersLost :=
  ⟨{ P with peersLost := [1] }, 2, by decide +kernel⟩

theorem witness_FabricRequests_4 : ∃ (s : State) (peer : Nat) (n : Nat), tget s.linkErrors peer = some n :=
  ⟨{ P with linkErrors := [(15, 4)] }, 15, 4, by decide +kernel⟩

theorem witness_FabricRequests_5 : ∃ (port : Nat), port < 4 :=
  ⟨3, by decide⟩

theorem witness_FabricRequests_6 : ∃ (s : State), s.svUp 5 = true :=
  ⟨up P, by decide +kernel⟩

theorem witness_FabricRequests_7 : ∃ (s : State) (r : RemReq) (reason : Nat), s.bootFailed = false ∧ ingressFirst s r = false ∧
    keyCheck s r.src r.key (rightBit r.kind) false = some reason ∧ r.src ≠ s.devid :=
  ⟨P, ⟨1, 7, key, .read .b32 false, false, false, []⟩, 1, by decide +kernel⟩

theorem witness_FabricRequests_8 : ∃ (s : State) (r : RemReq) (l : RemLane) (m : MemLane) (sz : _) (rc : _), s.bootFailed = false ∧
    ingressFirst s r = false ∧ keyCheck s r.src r.key (rightBit r.kind) false = none ∧ r.src ≠ s.devid ∧ r.kind = .write sz rc ∧
    r.lanes = [l] ∧ inLane s (winAt s r.key) r l = .ok m ∧ m.leaf.enc = false ∧ m.sleaf = none ∧ m.lane = l.lane ∧
    m.pa % 128 + szBytes sz ≤ 128 ∧ plainLine s (m.pa / 128) ∧ roomFor s (m.pa / 128) :=
  ⟨{ PM with windows := [(0, entry)] }, ⟨1, 7, key, .write .b128 0, false, false, [⟨0, 0xFF0, 5, 0⟩]⟩, ⟨0, 0xFF0, 5, 0⟩,
    laneM (inLane { PM with windows := [(0, entry)] } (winAt { PM with windows := [(0, entry)] } key) ⟨1, 7, key, .write .b128 0, false,
    false, [⟨0, 0xFF0, 5, 0⟩]⟩ ⟨0, 0xFF0, 5, 0⟩), .b128, 0, by decide +kernel, by decide +kernel, by decide +kernel, by decide +kernel,
    rfl, rfl, laneEq (by decide +kernel), by decide +kernel, by decide +kernel, by decide +kernel, by decide +kernel,
    plainAt (by decide +kernel), roomAt (by decide +kernel)⟩

theorem witness_FabricRequests_9 : ∃ (s : State) (o : Op) (r : RemOp) (w : Warp) (it : HookItem) (l : Nat) (key : _) (off : _) (n : Nat) (span : _),
    tget s.ops o.id = some o ∧ o.kind = .remote r ∧ workOf s o w it ∧ it.dst = .regs n span ∧ r.waiting = [(l, key, off)] ∧
    r.results = [] ∧ r.fails = [] ∧ r.uni = false ∧ l < 64 ∧ fabricShut s (keyDev key) = false :=
  ⟨PO (.remote { load := true, bytes := 4, sx := false, enabled := 1, uni := false, waiting := [(63, key, 8)] }) { id := 9, dst := .regs 8 1, lanes := lane1 63 },
    opOf (.remote { load := true, bytes := 4, sx := false, enabled := 1, uni := false, waiting := [(63, key, 8)] }),
    { load := true, bytes := 4, sx := false, enabled := 1, uni := false, waiting := [(63, key, 8)] },
    WI { id := 9, dst := .regs 8 1, lanes := lane1 63 }, { id := 9, dst := .regs 8 1, lanes := lane1 63 }, 63, key, 8, 8, 1,
    by decide +kernel, rfl, ⟨by decide +kernel, by decide +kernel, { items := [{ id := 9, dst := .regs 8 1, lanes := lane1 63 }] },
    by decide +kernel⟩, rfl, rfl, rfl, rfl, rfl, by decide, by decide +kernel⟩

theorem witness_FabricRequests_10 : ∃ (s : State) (o : Op) (r : RemOp) (w : Warp) (it : HookItem) (l : Nat) (key : _) (off : _),
    tget s.ops o.id = some o ∧ o.kind = .remote r ∧ workOf s o w it ∧ r.waiting = [(l, key, off)] ∧ r.results = [] ∧ r.fails = [] ∧
    l < 64 :=
  ⟨PO (.remote { load := true, bytes := 4, sx := false, enabled := 1, uni := false, waiting := [(63, key, 8)] }) { id := 9, dst := .regs 8 1, lanes := lane1 63 },
    opOf (.remote { load := true, bytes := 4, sx := false, enabled := 1, uni := false, waiting := [(63, key, 8)] }),
    { load := true, bytes := 4, sx := false, enabled := 1, uni := false, waiting := [(63, key, 8)] },
    WI { id := 9, dst := .regs 8 1, lanes := lane1 63 }, { id := 9, dst := .regs 8 1, lanes := lane1 63 }, 63, key, 8, by decide +kernel,
    rfl, ⟨by decide +kernel, by decide +kernel, { items := [{ id := 9, dst := .regs 8 1, lanes := lane1 63 }] }, by decide +kernel⟩, rfl,
    rfl, rfl, by decide⟩

theorem witness_PulledTransfers_0 : ∃ (s : State) (s1 : State) (o : Op) (b : SendOp) (bs : List Byte), tget s.ops o.id = some o ∧
    o.kind = .bsend b ∧ b.done = none ∧ sendFirst s o b = false ∧ reaches s (keyDev b.key) = true ∧ keyDev b.key ≠ s.devid ∧
    s1.devid = s.devid ∧ bulkRead s o b.src (min b.len 8192) = .ok s1 bs ∧ tget s1.ops o.id = some o :=
  ⟨(withCore { PO (.bsend { slot := 255, key := 1 <<< 58, src := 0, len := 16, mtag := 7, prio := 3, lanes := 1 }) with podsize := 2 } fun c => { c with tlb := [⟨0, 0, LF⟩] }),
    (bulkS (bulkRead (withCore { PO (.bsend { slot := 255, key := 1 <<< 58, src := 0, len := 16, mtag := 7, prio := 3, lanes := 1 }) with podsize := 2 } fun c => { c with tlb := [⟨0, 0, LF⟩] }) (opOf (.bsend { slot := 255, key := 1 <<< 58, src := 0, len := 16, mtag := 7, prio := 3, lanes := 1 })) 0 16)).1,
    opOf (.bsend { slot := 255, key := 1 <<< 58, src := 0, len := 16, mtag := 7, prio := 3, lanes := 1 }),
    { slot := 255, key := 1 <<< 58, src := 0, len := 16, mtag := 7, prio := 3, lanes := 1 },
    (bulkS (bulkRead (withCore { PO (.bsend { slot := 255, key := 1 <<< 58, src := 0, len := 16, mtag := 7, prio := 3, lanes := 1 }) with podsize := 2 } fun c => { c with tlb := [⟨0, 0, LF⟩] }) (opOf (.bsend { slot := 255, key := 1 <<< 58, src := 0, len := 16, mtag := 7, prio := 3, lanes := 1 })) 0 16)).2,
    by decide +kernel, rfl, rfl, by decide +kernel, by decide +kernel, by decide +kernel, by decide +kernel, bulkEq (by decide +kernel),
    by decide +kernel⟩

theorem witness_PulledTransfers_1 : ∃ (s : State) (r : BulkReq), s.bootFailed = false ∧ keyCheck s r.src r.key 1 true = none ∧
    findRecv s (winCtx (winAt s r.key)) (keyWin r.key) r.mtag r.src = none ∧ (waitingMsgs s).length < 4096 ∧
    refusedFirst s r = false :=
  ⟨{ PM with windows := [(0, entry)] }, ⟨1, 7, key, 9, 16, 3, []⟩, by decide +kernel⟩

theorem witness_PulledTransfers_2 : ∃ (s : State) (r : BulkReq) (o : Op) (v : RecvOp), s.bootFailed = false ∧
    keyCheck s r.src r.key 1 true = none ∧ findRecv s (winCtx (winAt s r.key)) (keyWin r.key) r.mtag r.src = some (o, v) ∧
    tget s.ops o.id = some o ∧ refusedFirst s r = false :=
  ⟨{ PO (.brecv { slot := 255, dst := 0, cap := 16, mtag := 9, win := 0, srcdev := 1, any := false, lanes := 1 }) with windows := [(0, entry)] },
    ⟨1, 7, key, 9, 16, 3, []⟩,
    opOf (.brecv { slot := 255, dst := 0, cap := 16, mtag := 9, win := 0, srcdev := 1, any := false, lanes := 1 }),
    { slot := 255, dst := 0, cap := 16, mtag := 9, win := 0, srcdev := 1, any := false, lanes := 1 }, by decide +kernel⟩

theorem witness_PulledTransfers_3 : ∃ (s : State) (r : BulkReq) (reason : Nat), s.bootFailed = false ∧
    keyCheck s r.src r.key 1 true = some reason ∧ r.src ≠ s.devid :=
  ⟨P, ⟨1, 7, key, 9, 16, 3, []⟩, 1, by decide +kernel⟩

theorem witness_PulledTransfers_4 : ∃ (s : State) (id : Nat) (m : BulkMsg) (off : Nat) (n : Nat) (rest : _), tget s.msgs id = some m ∧
    m.need = (off, n) :: rest ∧ msgLive s m = true ∧ grantNow s id = true ∧ m.src ≠ s.devid :=
  ⟨{ PO (.brecv { slot := 255, dst := 0, cap := 16, mtag := 9, win := 0, srcdev := 1, any := false, lanes := 1 }) with msgs := [(20, { src := 1, srcMsg := 7, ctx := 0, win := 0, mtag := 9, len := 0x80000, prio := 0, prefixBytes := [], recv := some 9, need := [(0, 0x80000)] })] },
    20,
    { src := 1, srcMsg := 7, ctx := 0, win := 0, mtag := 9, len := 0x80000, prio := 0, prefixBytes := [], recv := some 9, need := [(0, 0x80000)] },
    0, 0x80000, [], by decide +kernel⟩

theorem witness_PulledTransfers_5 : ∃ (s : State) (o : Op) (b : SendOp) (off : Nat) (n : Nat) (s1 : State) (bs : List Byte),
    tget s.ops o.id = some o ∧ o.kind = .bsend b ∧ b.done = none ∧ bulkRead s o (b.src + off) n = .ok s1 bs ∧ keyDev b.key ≠ s.devid ∧
    s1.devid = s.devid ∧ fabricShut s (keyDev b.key) = false :=
  ⟨(withCore { PO (.bsend { slot := 255, key := 1 <<< 58, src := 0, len := 16, mtag := 7, prio := 3, lanes := 1 }) with podsize := 2 } fun c => { c with tlb := [⟨0, 0, LF⟩] }),
    opOf (.bsend { slot := 255, key := 1 <<< 58, src := 0, len := 16, mtag := 7, prio := 3, lanes := 1 }),
    { slot := 255, key := 1 <<< 58, src := 0, len := 16, mtag := 7, prio := 3, lanes := 1 }, 0, 16,
    (bulkS (bulkRead (withCore { PO (.bsend { slot := 255, key := 1 <<< 58, src := 0, len := 16, mtag := 7, prio := 3, lanes := 1 }) with podsize := 2 } fun c => { c with tlb := [⟨0, 0, LF⟩] }) (opOf (.bsend { slot := 255, key := 1 <<< 58, src := 0, len := 16, mtag := 7, prio := 3, lanes := 1 })) 0 16)).1,
    (bulkS (bulkRead (withCore { PO (.bsend { slot := 255, key := 1 <<< 58, src := 0, len := 16, mtag := 7, prio := 3, lanes := 1 }) with podsize := 2 } fun c => { c with tlb := [⟨0, 0, LF⟩] }) (opOf (.bsend { slot := 255, key := 1 <<< 58, src := 0, len := 16, mtag := 7, prio := 3, lanes := 1 })) 0 16)).2,
    by decide +kernel, rfl, rfl, bulkEq (by decide +kernel), by decide +kernel, by decide +kernel, by decide +kernel⟩

theorem witness_PulledTransfers_6 : ∃ (s : State) (tok : Nat) (tk : Token) (m : BulkMsg) (o : Op) (r : RecvOp) (off : Nat) (data : List Byte) (s1 : State) (ls : _),
    tget s.tokens tok = some tk ∧ tget s.msgs tk.msg = some m ∧ m.recv = some o.id ∧ tget s.ops o.id = some o ∧ o.kind = .brecv r ∧
    r.done = none ∧ m.need ≠ [] ∧ (tk.expires = 0 ∨ fabricShut s m.src = false) ∧
    (let ws := (((List.range data.length).map (off + ·)).zip data).filter fun w => inRanges (tk.miss ++ tk.held) w.1;
    (let ps := ws.map fun w => (r.dst + w.1, w.2); engLines s o.id o.core o.ctx .w o.walkRes (lineReps (ps.map Prod.fst)) = .ok s1 ls ∧
    (engWrite s1 o 0 false ls ps).lost = none)) :=
  ⟨(withCore { PO (.brecv { slot := 255, dst := 0, cap := 16, mtag := 9, win := 0, srcdev := 1, any := false, lanes := 1 }) with msgs := [(20, { src := 1, srcMsg := 7, ctx := 0, win := 0, mtag := 9, len := 0x80000, prio := 0, prefixBytes := [], recv := some 9, need := [(0, 0x80000)] })], tokens := [(30, ⟨20, [(0, 16)], 5, []⟩)] } fun c => { c with tlb := [⟨0, 0, LF⟩] }),
    30, ⟨20, [(0, 16)], 5, []⟩,
    { src := 1, srcMsg := 7, ctx := 0, win := 0, mtag := 9, len := 0x80000, prio := 0, prefixBytes := [], recv := some 9, need := [(0, 0x80000)] },
    opOf (.brecv { slot := 255, dst := 0, cap := 16, mtag := 9, win := 0, srcdev := 1, any := false, lanes := 1 }),
    { slot := 255, dst := 0, cap := 16, mtag := 9, win := 0, srcdev := 1, any := false, lanes := 1 }, 0, [1],
    (linesS (engLines (withCore { PO (.brecv { slot := 255, dst := 0, cap := 16, mtag := 9, win := 0, srcdev := 1, any := false, lanes := 1 }) with msgs := [(20, { src := 1, srcMsg := 7, ctx := 0, win := 0, mtag := 9, len := 0x80000, prio := 0, prefixBytes := [], recv := some 9, need := [(0, 0x80000)] })], tokens := [(30, ⟨20, [(0, 16)], 5, []⟩)] } fun c => { c with tlb := [⟨0, 0, LF⟩] }) 9 0 0 .w [] [0])).1,
    (linesS (engLines (withCore { PO (.brecv { slot := 255, dst := 0, cap := 16, mtag := 9, win := 0, srcdev := 1, any := false, lanes := 1 }) with msgs := [(20, { src := 1, srcMsg := 7, ctx := 0, win := 0, mtag := 9, len := 0x80000, prio := 0, prefixBytes := [], recv := some 9, need := [(0, 0x80000)] })], tokens := [(30, ⟨20, [(0, 16)], 5, []⟩)] } fun c => { c with tlb := [⟨0, 0, LF⟩] }) 9 0 0 .w [] [0])).2,
    by decide +kernel, by decide +kernel, rfl, by decide +kernel, rfl, rfl, by decide, .inr (by decide +kernel),
    linesEq (x := (engLines (withCore { PO (.brecv { slot := 255, dst := 0, cap := 16, mtag := 9, win := 0, srcdev := 1, any := false, lanes := 1 }) with msgs := [(20, { src := 1, srcMsg := 7, ctx := 0, win := 0, mtag := 9, len := 0x80000, prio := 0, prefixBytes := [], recv := some 9, need := [(0, 0x80000)] })], tokens := [(30, ⟨20, [(0, 16)], 5, []⟩)] } fun c => { c with tlb := [⟨0, 0, LF⟩] }) 9 0 0 .w [] [0])) (by decide +kernel),
    by decide +kernel⟩

theorem witness_PulledTransfers_7 : ∃ (s : State) (tok : Nat) (tk : Token) (m : BulkMsg), tget s.tokens tok = some tk ∧ tk.expires ≠ 0 ∧
    tk.expires ≤ timens s ∧ tget s.msgs tk.msg = some m ∧ msgLive s m = true ∧ recvSaved s m = false ∧
    m.expired < 2 :=
  ⟨{ PO (.brecv { slot := 255, dst := 0, cap := 16, mtag := 9, win := 0, srcdev := 1, any := false, lanes := 1 }) with msgs := [(20, { src := 1, srcMsg := 7, ctx := 0, win := 0, mtag := 9, len := 0x80000, prio := 0, prefixBytes := [], recv := some 9, need := [(0, 0x80000)] })], tokens := [(30, ⟨20, [(0, 16)], 1, []⟩)], base := 2 },
    30, ⟨20, [(0, 16)], 1, []⟩,
    { src := 1, srcMsg := 7, ctx := 0, win := 0, mtag := 9, len := 0x80000, prio := 0, prefixBytes := [], recv := some 9, need := [(0, 0x80000)] },
    by decide +kernel⟩

theorem witness_PulledTransfers_8 : ∃ (i : Instr) (s : State) (o : Op) (b : SendOp) (st : Nat), (i = .orphanNoticeArrival o.id ∧
    st = 2 ∨ i = .peerCancelArrival o.id ∧ st = 3 ∧ tget s.msgs o.id = none ∨ ∃ u, i = .bulkAckArrival o.id u st) ∧
    tget s.ops o.id = some o ∧ o.kind = .bsend b ∧ b.done = none ∧ b.cancels = [] ∧ fabricShut s (keyDev b.key) = false :=
  ⟨.bulkAckArrival 9 1 0, PO (.bsend { slot := 255, key := 1 <<< 58, src := 0, len := 16, mtag := 7, prio := 3, lanes := 1 }),
    opOf (.bsend { slot := 255, key := 1 <<< 58, src := 0, len := 16, mtag := 7, prio := 3, lanes := 1 }),
    { slot := 255, key := 1 <<< 58, src := 0, len := 16, mtag := 7, prio := 3, lanes := 1 }, 0, .inr (.inr ⟨1, rfl⟩), by decide +kernel⟩

theorem witness_PulledTransfers_9 : ∃ (s : State) (id : Nat) (m : BulkMsg), tget s.msgs id = some m ∧ m.recv = none ∧
    fabricShut s m.src = false :=
  ⟨{ P with msgs := [(20, { src := 1, srcMsg := 7, ctx := 0, win := 0, mtag := 9, len := 16, prio := 0, prefixBytes := [] })] }, 20,
    { src := 1, srcMsg := 7, ctx := 0, win := 0, mtag := 9, len := 16, prio := 0, prefixBytes := [] }, by decide +kernel⟩

theorem witness_QueuesAndContexts_0 : ∃ (s : State) (qid : Nat) (qbase : _) (qsz : Nat) (ctx : Nat), s.svUp 1 = true ∧ qid < 1024 ∧ 4 ≤ qsz ∧ qsz ≤ 16 ∧
    BitVec.toNat (w := 64) qbase % 128 = 0 ∧ ctx < 512 :=
  ⟨up P, 1023, 128, 16, 511, by decide +kernel⟩

theorem witness_QueuesAndContexts_1 : ∃ (s : State) (src port : Nat) (b : BitVec 128) (q : Queue), port < 1024 ∧ goodKnock s src b q ∧
    stillToCome s (lowerPort (knockQueue b) port) = false ∧ ahead (knockTail b) q.head ≤ ahead q.tail q.head :=
  ⟨PQ, 1, 1023, knockBits 2, queue0, by decide, ⟨by decide +kernel, by decide +kernel, by decide +kernel, by decide +kernel, by decide +kernel,
    by decide +kernel, by decide +kernel⟩, by decide +kernel⟩

theorem witness_QueuesAndContexts_2 : ∃ (s : State) (src port : Nat) (b : BitVec 128) (q : Queue), port < 1024 ∧ goodKnock s src b q ∧
    stillToCome s (lowerPort (knockQueue b) port) = false ∧ ahead q.tail q.head < ahead (knockTail b) q.head ∧ ahead (knockTail b) q.head ≤ 2 ^ q.qsz :=
  ⟨PQ, 1, 1023, knockBits 16, queue0, by decide, ⟨by decide +kernel, by decide +kernel, by decide +kernel, by decide +kernel, by decide +kernel,
    by decide +kernel, by decide +kernel⟩, by decide +kernel⟩

theorem witness_QueuesAndContexts_3 : ∃ (s : State) (src port : Nat) (b : BitVec 128) (q : Queue), port < 1024 ∧ goodKnock s src b q ∧
    stillToCome s (lowerPort (knockQueue b) port) = false ∧ ahead q.tail q.head < ahead (knockTail b) q.head ∧ 2 ^ q.qsz < ahead (knockTail b) q.head :=
  ⟨PQ, 1, 1023, knockBits 17, queue0, by decide, ⟨by decide +kernel, by decide +kernel, by decide +kernel, by decide +kernel, by decide +kernel,
    by decide +kernel, by decide +kernel⟩, by decide +kernel⟩

theorem witness_QueuesAndContexts_4 : ∃ (s : State) (src port : Nat) (b : BitVec 128), port < 1024 ∧ s.bootFailed = false ∧
    stillToCome s (lowerPort (knockQueue b) port) = false ∧
    (s.lockouts.contains src = true ∨ tget s.queues (knockQueue b) = none ∨ b.toNat / 2 ^ 42 % 2 ^ 6 ≠ 0 ∨ b.toNat / 2 ^ 61 % 2 ^ 35 ≠ 0 ∨ unexpired s (b.toNat / 2 ^ 48 % 2 ^ 13) = false) :=
  ⟨P, 1, 0, knockBits 2, by decide +kernel⟩

theorem witness_QueuesAndContexts_5 : ∃ (s : State) (ctx : Nat) (c : Ctx), ctx < 512 ∧ s.svUp 3 = true ∧ tget s.contexts ctx = some c :=
  ⟨PM, 0, { enabled := true, root := 0x1000 }, by decide +kernel⟩

theorem witness_QueuesAndContexts_6 : ∃ (s : State) (ctx : Nat), ctx < 512 ∧ s.svUp 3 = true ∧ tget s.contexts ctx = none :=
  ⟨up P, 511, by decide +kernel⟩

theorem witness_QueuesAndContexts_7 : ∃ (s : State) (ctx : Nat) (c : Ctx), tget s.contexts ctx = some c :=
  ⟨PM, 0, { enabled := true, root := 0x1000 }, by decide +kernel⟩

theorem witness_QueuesAndContexts_8 : ∃ (s : State) (ctx : Nat) (a : Account), tget s.accounts ctx = some a ∧ ctx < 512 :=
  ⟨{ P with accounts := [(511, {})] }, 511, {}, by decide +kernel⟩

theorem witness_PacketsAndLaunches_0 : ∃ (s : State) (qid : Nat) (q : Queue) (s1 : State) (p : Packet), tget s.queues qid = some q ∧
    s.svUp 1 = true ∧ q.mismatch = none ∧ q.mayRead = true ∧ slotRead s q q.nextIndex s1 p :=
  ⟨PQ, 0, queue0, (slotS PQ queue0 0).1, (slotS PQ queue0 0).2, by decide +kernel, by decide +kernel, by decide +kernel, by decide +kernel,
    ⟨slotEq (by decide +kernel), by decide +kernel⟩⟩

theorem witness_PacketsAndLaunches_1 : ∃ (s : State) (qid : Nat) (q : Queue) (s1 : State) (p : Packet) (i : Nat) (since : Nat),
    tget s.queues qid = some q ∧ s.svUp 1 = true ∧ q.mismatch = some (i, since) ∧ timens s < since + 1000000 ∧ slotRead s q i s1 p ∧
    p.toNat / 2 ^ 32 % 2 ^ 32 = i :=
  ⟨{ PM with queues := [(0, { queue0 with mismatch := some (0, 0) })] }, 0, { queue0 with mismatch := some (0, 0) },
    (slotS { PM with queues := [(0, { queue0 with mismatch := some (0, 0) })] } { queue0 with mismatch := some (0, 0) } 0).1,
    (slotS { PM with queues := [(0, { queue0 with mismatch := some (0, 0) })] } { queue0 with mismatch := some (0, 0) } 0).2, 0, 0,
    by decide +kernel, by decide +kernel, rfl, by decide +kernel, ⟨slotEq (by decide +kernel), by decide +kernel⟩, by decide +kernel⟩

theorem witness_PacketsAndLaunches_2 : ∃ (s : State) (qid : Nat) (q : Queue), tget s.queues qid = some q ∧ q.mismatch ≠ none ∧
    q.stalled = false :=
  ⟨{ PM with queues := [(0, { queue0 with mismatch := some (0, 0) })] }, 0, { queue0 with mismatch := some (0, 0) }, by decide +kernel⟩

theorem witness_PacketsAndLaunches_5 : ∃ (s : State) (lid : Nat) (l : Launch), Keyed s ∧ s.launch? lid = some l ∧ l.phase = .queued ∧
    s.svUp 2 = true ∧ s.wqUnits.length = 128 ∧ (∃ d, d < 2 ∧ l.nwq ≤ (freeUnits s d).length) :=
  ⟨up (P.putLaunch { L0 with phase := .queued, packet := placedPacket + 8 * 2 ^ 656 }), 0,
    { L0 with phase := .queued, packet := placedPacket + 8 * 2 ^ 656 }, keyed (by decide +kernel), by decide +kernel, by decide +kernel,
    by decide +kernel, by decide +kernel, 1, by decide +kernel⟩

theorem witness_TeamsArePlaced_0 : ∃ (s : State) (lid : Nat) (core : Nat) (spots : _) (l : Launch), Keyed s ∧ s.launch? lid = some l ∧
    s.svUp 2 = true ∧ l.phase = .placing ∧ l.next < l.gx * l.gy * l.gz ∧ ctxPreempted s l.ctx = false ∧ s.parkedDev = false ∧
    canPlace s l core spots = true ∧ (l.next = 0 → ∀ n ∈ l.units, n / 64 = dieOf core) :=
  ⟨{ up State.reset with launches := [(0, { L0 with next := 0 })], nextId := 1 }, 0, 191, [(3, 12), (0, 0)], { L0 with next := 0 },
    keyed (by decide +kernel), by decide +kernel⟩

theorem witness_TeamsArePlaced_3 : ∃ (s : State) (wid : Nat) (w : Warp) (k : Nat), Keyed s ∧ s.warp? wid = some w ∧ eligible s w = true ∧
    w.moved ≠ coreCycle s w.core + 1 ∧ freePos s w.core w.room = some k :=
  ⟨P.putWarp { W0 with apos := none }, 2, { W0 with apos := none }, 0, keyed (by decide +kernel), by decide +kernel⟩

theorem witness_TeamsArePlaced_4 : ∃ (s : State) (wid : Nat) (w : Warp) (v : Warp), Keyed s ∧ s.warp? wid = some w ∧
    eligible s w = true ∧ w.moved ≠ coreCycle s w.core + 1 ∧ freePos s w.core w.room = none ∧ activeVictim s w = some v :=
  ⟨fullRoom, 10, { WAt 8 with apos := none }, WAt 1, keyed (by decide +kernel), by decide +kernel⟩

theorem witness_LaunchesRetire_0 : ∃ (s : State) (wid : Nat) (w : Warp) (tm : Team) (n : Nat), Keyed s ∧ s.warp? wid = some w ∧
    finished w ∧ s.team? w.team = some tm ∧ tm.live = n + 2 :=
  ⟨P.putWarp { W0 with retired := 0xFFFF }, 2, { W0 with retired := 0xFFFF }, T0, 0, keyed (by decide +kernel), by unfold finished; decide +kernel⟩

theorem witness_LaunchesRetire_1 : ∃ (s : State) (wid : Nat) (w : Warp) (tm : Team) (l : Launch), Keyed s ∧ s.warp? wid = some w ∧
    finished w ∧ s.team? w.team = some tm ∧ tm.live = 1 ∧ s.launch? tm.launch = some l :=
  ⟨(P.putWarp { W0 with retired := 0xFFFF }).putTeam { T0 with live := 1 }, 2, { W0 with retired := 0xFFFF }, { T0 with live := 1 }, L0,
    keyed (by decide +kernel), by unfold finished; decide +kernel⟩

theorem witness_LaunchesRetire_2 : ∃ (s : State) (lid : Nat) (l : Launch), s.launch? lid = some l ∧
    (l.phase = .retiring ∨ l.phase = .recorded) ∧ timens s < l.wct :=
  ⟨P.putLaunch { L0 with phase := .recorded, wct := 1 }, 0, { L0 with phase := .recorded, wct := 1 }, by decide +kernel⟩

theorem witness_LaunchesRetire_5 : ∃ (s : State) (lid : Nat) (l : Launch), Keyed s ∧ s.svUp 7 = true ∧ s.launch? lid = some l ∧
    (l.phase = .queued ∨ l.phase = .placing) :=
  ⟨up P, 0, L0, keyed (by decide +kernel), by decide +kernel⟩

theorem witness_LaunchesRetire_6 : ∃ (s : State) (wid : Nat) (w : Warp) (tm : Team) (l : Launch), Keyed s ∧ s.svUp 4 = true ∧
    s.warp? wid = some w ∧ w.stopped = true ∧ s.team? w.team = some tm ∧ s.launch? tm.launch = some l ∧
    (l.phase = .queued ∨ l.phase = .placing) :=
  ⟨up (P.putWarp { W0 with stopped := true }), 2, { W0 with stopped := true }, T0, L0, keyed (by decide +kernel), by decide +kernel⟩

theorem witness_PreemptionKeepsState_0 : ∃ (s : State), Keyed s ∧ s.svUp 2 = true :=
  ⟨up P, keyed (by decide +kernel), by decide +kernel⟩

theorem witness_PreemptionKeepsState_1 : ∃ (s : State) (ctx : Nat), Keyed s ∧ (∀ k tm,
    s.team? k = some tm → (launchT s tm).ctx = ctx → tm.place = .halting → teamDrained s tm = true) := by
  refine ⟨P.putTeam { T0 with place := .halting }, 0, keyed (by decide +kernel), ?_⟩
  intro k tm h _ _
  have h1 : k = 1 := by
    by_contra hk
    have : tget [(1, ({ T0 with place := .halting } : Team))] k = some tm := h
    simp only [tget] at this
    split at this
    · exact hk ‹_›
    · split at this <;> cases this
  subst h1
  injection (show some ({ T0 with place := .halting } : Team) = some tm from h) with h
  subst h
  decide +kernel

theorem witness_PreemptionKeepsState_2 : ∃ (s : State) (ctx : Nat) (k : Nat) (tm : Team), Keyed s ∧ s.team? k = some tm ∧
    (launchT s tm).ctx = ctx ∧ tm.place = .halting ∧ teamDrained s tm = false :=
  ⟨(P.putWarp { W0 with scr := [⟨3, 0, .store 4, [], 1, 0⟩] }).putTeam { T0 with place := .halting }, 0, 1, { T0 with place := .halting },
    keyed (by decide +kernel), by decide +kernel⟩

theorem witness_PreemptionKeepsState_3 : ∃ (i : Instr) (s : State) (tid : Nat) (core : Nat) (spots : _) (tm : Team),
    (i = .preemptRestore tid core spots ∨ i = .teamReplace (tid, false) core spots ∧ replaceable s tm core) ∧ Keyed s ∧
    s.team? tid = some tm ∧ mayRestore s tm (launchT s tm) core spots = true :=
  ⟨.preemptRestore 1 191 [(3, 12), (0, 0)], up (P.putTeam { T0 with place := .saved }), 1, 191, [(3, 12), (0, 0)],
    { T0 with place := .saved }, .inl rfl, keyed (by decide +kernel), by decide +kernel⟩

theorem witness_PreemptionKeepsState_replace : ∃ (s : State) (tid core : Nat) (spots : _) (tm : Team) (l : Launch), Keyed s ∧
    s.team? tid = some tm ∧ replaceable s tm core ∧ s.launch? tm.launch = some l ∧ l.phase = .placing ∧ mayRestore s tm l core spots = true :=
  ⟨up (withCore (P.putTeam { T0 with place := .saved }) fun c => { c with out := true }), 1, 191, [(3, 12), (0, 0)], { T0 with place := .saved }, L0,
    keyed (by decide +kernel), by decide +kernel, ⟨⟨0, by decide +kernel⟩, .inl (by decide +kernel)⟩, by decide +kernel⟩

theorem witness_PreemptionKeepsState_4 : ∃ (s : State) (ctx : Nat) (c : Ctx), tget s.contexts ctx = some c :=
  ⟨PM, 0, { enabled := true, root := 0x1000 }, by decide +kernel⟩

theorem witness_PreemptionKeepsState_5 : ∃ (s : State) (core : Nat), Keyed s ∧ core < 192 ∧ core < s.cores.length ∧
    (s.core core).frozen = false ∧ (s.core core).out = false :=
  ⟨P, 191, keyed (by decide +kernel), by decide +kernel⟩

theorem witness_PreemptionKeepsState_6 : ∃ (s : State) (core : Nat), Keyed s ∧ core < s.cores.length ∧ (s.core core).frozen = true ∧
    (s.core core).out = false ∧ 0 < s.spares.getD (dieOf core) 0 ∧ s.svUp 2 = true ∧ coreMovable s core = true :=
  ⟨up (withCore P fun c => { c with frozen := true }), 0, keyed (by decide +kernel), by decide +kernel⟩

theorem witness_PowerManagement_1 : ∃ (s : State) (core : Nat) (room : Nat) (k : Nat), core < s.cores.length ∧
    (s.core core).islands.length = 16 ∧ room < 4 ∧ k < 4 ∧ (s.island core room k).mode = .nt none :=
  ⟨withCore P fun c => { c with islands := { mode := .nt none } :: List.replicate 15 {} }, 0, 0, 0, by decide +kernel⟩

theorem witness_PowerManagement_4 : ∃ (s : State) (cluster : Nat) (stop : Nat) (c : Cluster), s.svUp 6 = true ∧ cluster < 24 ∧
    s.clusters[cluster]? = some c ∧ stop ≤ 500 ∧ c.stop = none ∧ (∀ n, c.lastNs = some n → n + 10000 ≤ timens s) ∧
    tget s.plans cluster = none :=
  ⟨{ up P with base := 12500, clusters := [{ lastNs := some 0 }] }, 0, 500, { lastNs := some 0 }, by decide +kernel, by decide +kernel,
    by decide +kernel, by decide, rfl, by intro n h; injection h with h; subst h; decide +kernel, by decide +kernel⟩

theorem witness_PowerManagement_5 : ∃ (s : State) (cluster : Nat), s.svUp 6 = true ∧ cluster < 24 :=
  ⟨up P, 23, by decide +kernel⟩

theorem witness_PowerManagement_bounds : ∃ (s : State) (lo hi : Nat), lo = (tget s.devRegs regFloor).elim 400 BitVec.toNat ∧
    hi = (tget s.devRegs regCeiling).elim 950 BitVec.toNat ∧ 400 ≤ lo ∧ lo ≤ hi ∧ hi ≤ 950 ∧ lo ≠ hi :=
  ⟨{ up P with devRegs := [(3, 600), (4, 900)] }, 600, 900, by decide +kernel⟩

theorem witness_PowerManagement_9 : ∃ (s : State) (ctx : Nat) (a : Account), s.svUp 7 = true ∧ ctx < 512 ∧ tget s.accounts ctx = some a :=
  ⟨{ up P with accounts := [(511, {})] }, 511, {}, by decide +kernel⟩

theorem witness_SupervisorComplex_0 : ∃ (s : State), s.booted = false :=
  ⟨P, rfl⟩

theorem witness_SupervisorComplex_1 : ∃ (s : State), s.booted = true :=
  ⟨up P, rfl⟩

theorem witness_SupervisorComplex_3 : ∃ (i : Instr) (s : State) (core : Nat) (v : Sv), (i = .heartbeatTimeout core ∧
    v.lastBeat + s.hbtoNs < timens s ∨ i = .supervisorFatal core ∧ core < 8) ∧ 0 < core ∧ s.booted = true ∧ s.svs[core]? = some v ∧
    v.inReset = false :=
  ⟨.heartbeatTimeout 7, { up P with base := 12500002 }, 7, { inReset := false }, .inl ⟨rfl, by decide +kernel⟩, by decide +kernel⟩

theorem witness_SupervisorComplex_4 : ∃ (i : Instr) (s : State) (v : Sv), (i = .heartbeatTimeout 0 ∧
    v.lastBeat + s.hbtoNs < timens s ∨ i = .supervisorFatal 0) ∧ s.booted = true ∧ s.svs[0]? = some v ∧ v.inReset = false :=
  ⟨.supervisorFatal 0, up P, { inReset := false }, .inr rfl, by decide +kernel⟩

theorem witness_SupervisorComplex_5 : ∃ (s : State) (core : Nat) (v : Sv), 0 < core ∧ s.booted = true ∧ s.svs[core]? = some v ∧
    v.restart ≠ none :=
  ⟨{ up P with svs := [{}, { restart := some 0 }] }, 1, { restart := some 0 }, by decide +kernel⟩

theorem witness_SupervisorComplex_6 : ∃ (s : State) (v : Sv), s.booted = false ∧ s.svs[0]? = some v ∧ v.restart ≠ none :=
  ⟨{ P with svs := [{ restart := some 0 }] }, { restart := some 0 }, by decide +kernel⟩

theorem witness_SupervisorComplex_8 : ∃ (s : State) (v : Sv) (r : Nat), s.booted = false ∧ s.svs[0]? = some v ∧ v.restart = some r ∧
    r + 1000000000 ≤ timens s :=
  ⟨{ P with svs := [{ restart := some 0 }], base := 1250000000 }, { restart := some 0 }, 0, by decide +kernel⟩

theorem witness_SupervisorComplex_9 : ∃ (s : State), s.svUp 2 = true ∧ s.parkedDev = true :=
  ⟨{ up P with parkedDev := true }, by decide +kernel⟩

theorem witness_SupervisorComplex_13 : ∃ (s : State) (core mode : Nat) (u : Sv), s.svUp core = true ∧ s.svs[core]? = some u ∧ mode ≠ 1 ∧ mode ≠ 3 :=
  ⟨up P, 7, 0, { inReset := false }, by decide +kernel⟩

theorem witness_StepRunsTheDecodedSyllable_0 : ∃ s iss rest w i, s.issuing = iss :: rest ∧ s.warp? iss.wid = some w ∧
    decodeRaw (Raw.ofWord (lineSyl iss.img iss.syl)) w.nreg (hasPair s w) [] (iss.syl == iss.last) = .ok i :=
  ⟨P, I0, [], W0, .nopV 0, by decide +kernel, by decide +kernel, rfl⟩

theorem witness_StepRunsTheNextEvent_0 : ∃ (s : State) (i : Instr) (rest : _), s.issuing = [] ∧ s.agenda = i :: rest :=
  ⟨{ State.reset with agenda := [.fillerEnd 0] }, .fillerEnd 0, [], rfl, rfl⟩

theorem witness_DecodeInvertsEncode_0 : ∃ (i : Instr) (w : Nat), i.wf = true ∧ encode i = some w :=
  ⟨.nopV 0, nopWord, by decide +kernel⟩

theorem witness_DecodeInvertsEncode_1 : ∃ (i : Instr) (w : Nat), w < 2 ^ 96 ∧ decodeTableWord 96 w = some i :=
  ⟨.nopV 0, nopWord, by decide +kernel⟩

theorem witness_MemoriesStayCanonical_0 : ∃ s t, (Memory.wf s = true ∧ Scratch.wf s = true) ∧ step s = .next t :=
  ⟨State.reset, beginCycle State.reset, by decide +kernel, rfl⟩

theorem witness_NumbersStayKeyed_0 : ∃ s t, Keyed s ∧ step s = .next t :=
  ⟨State.reset, beginCycle State.reset, keyed (by decide +kernel), rfl⟩

theorem witness_IssueWritesNoRegister_0 : ∃ i s t, i.enc.isSome = true ∧ Keyed s ∧ exec i s = .next t :=
  ⟨.nopV 0, P, _, by decide +kernel, keyed (by decide +kernel), rfl⟩


theorem witness_CopiesIssue_0_fits : ∃ f s iss w tm l, Ready (.cpyIn f true false 1) s iss w ∧
    (let rd := rdOf (.cpyIn f true false 1) s w iss; s.team? w.team = some tm ∧ (lanesOf (enabled rd f)).head? = some l ∧
      copiesOn s w.core < 64 ∧
      ∀ c : CopyOp, c.kind = .linIn → copyOperands rd f .linIn l c → copyFits s (ctxOf s w) tm.bytes c) := by
  refine ⟨{ FZ with b := .kon .zero, c := .sys .width }, P, I0, W0, T0, 0, ready (by decide +kernel), by decide +kernel, by decide +kernel,
    by decide +kernel, ?_⟩
  intro c hk ho
  have ha : c.a = 0 := ho.1.trans (by decide +kernel)
  have hb : c.b = 0 := ho.2.1.trans (by decide +kernel)
  have hl : c.len = 16 := ho.2.2.trans (by decide +kernel)
  have ht : T0.bytes = 393216 := by decide +kernel
  simp only [copyFits, hk, ha, hb, hl, ht]
  decide

/-- A send and a receive of context 0 in slot 255, under way; and one lane's operand that names it. -/
def sendB : SendOp := { slot := 255, key := 1 <<< 58, src := 0, len := 16, mtag := 7, prio := 3, lanes := 1 }
def recvB : RecvOp := { slot := 255, dst := 0, cap := 16, mtag := 9, win := 0, srcdev := 1, any := false, lanes := 1 }
def slotS255 (k : OpKind) : State := { P1.putWarp (WR [(20, 255)]) with ops := [(9, opOf k)] }
def F255 : Fields := { FZ with a := .reg 20 }

theorem witness_BulkSyllablesIssue_probeSnd : ∃ f hook s iss w l op b, Ready (.bprobeSnd f hook) s iss w ∧
    (let rd := rdOf (.bprobeSnd f hook) s w iss; (lanesOf (enabled rd f)).head? = some l ∧ (val32 rd f.a l).toNat = 255 ∧
      sendAt s (ctxOf s w) 255 = some (op, b)) :=
  ⟨F255, 1, slotS255 (.bsend sendB), I1, WR [(20, 255)], 0, opOf (.bsend sendB), sendB, ready (by decide +kernel), by decide +kernel⟩

theorem witness_BulkSyllablesIssue_probeRcv : ∃ f hook s iss w l op r, Ready (.bprobeRcv f hook) s iss w ∧
    (let rd := rdOf (.bprobeRcv f hook) s w iss; (lanesOf (enabled rd f)).head? = some l ∧ (val32 rd f.a l).toNat = 255 ∧
      recvAt s (ctxOf s w) 255 = some (op, r)) :=
  ⟨F255, 1, slotS255 (.brecv recvB), I1, WR [(20, 255)], 0, opOf (.brecv recvB), recvB, ready (by decide +kernel), by decide +kernel⟩

theorem witness_BulkSyllablesIssue_cancelSnd : ∃ f hook s iss w l op b, Ready (.bcancelSnd f hook) s iss w ∧
    (let rd := rdOf (.bcancelSnd f hook) s w iss; (lanesOf (enabled rd f)).head? = some l ∧ (val32 rd f.a l).toNat = 255 ∧
      sendAt s (ctxOf s w) 255 = some (op, b) ∧ b.done = none ∧ tget s.ops op.id = some op ∧ completedNow s op.id = false) :=
  ⟨F255, 1, slotS255 (.bsend sendB), I1, WR [(20, 255)], 0, opOf (.bsend sendB), sendB, ready (by decide +kernel), by decide +kernel⟩

theorem witness_BulkSyllablesIssue_cancelRcv : ∃ f hook s iss w l op r, Ready (.bcancelRcv f hook) s iss w ∧
    (let rd := rdOf (.bcancelRcv f hook) s w iss; (lanesOf (enabled rd f)).head? = some l ∧ (val32 rd f.a l).toNat = 255 ∧
      recvAt s (ctxOf s w) 255 = some (op, r) ∧ r.done = none ∧ tget s.ops op.id = some op) :=
  ⟨F255, 1, slotS255 (.brecv recvB), I1, WR [(20, 255)], 0, opOf (.brecv recvB), recvB, ready (by decide +kernel), by decide +kernel⟩

theorem witness_TranslationAndLines_invalidate : ∃ (s : State) (w : Warp) (ctx va len : Nat) (r : Nat × Nat × Nat), s.warp? w.wid = some w ∧
    ctxOf s w = ctx ∧ r ∈ w.walkRes ∧ 65536 * r.1 < va + len ∧ va < 65536 * r.1 + 65536 :=
  ⟨P.putWarp { W0 with walkRes := [(1, 4, 3)] }, { W0 with walkRes := [(1, 4, 3)] }, 0, 0x1FFFF, 1, (1, 4, 3), by decide +kernel⟩

/-- A queue whose slot 0 holds the packet of a launch that passes its validation. -/
def PQ1 : State :=
  { PM with
    queues := [(0, { queue0 with held := [(0, placedPacket)] })]
    hbm := PM.hbm.take 3 ++ (bytesFrom 0x4000 128 placedPacket.toNat).filter fun e => e.2 ≠ 0 }

/-! Copies and matrix operations in flight: their conditions as tests. -/

/-- No bank of any core is taken. -/
theorem banksAll {s : State} (h : (s.cores.all fun c => c.bankUse.isEmpty && c.engUse.isEmpty) = true) :
    ∀ b, (s.core b).bankUse = [] ∧ (s.core b).engUse = [] := by
  intro b
  simp only [List.all_eq_true, Bool.and_eq_true, List.isEmpty_iff] at h
  simp only [State.core, List.getD_eq_getElem?_getD]
  cases hb : s.cores[b]? with
  | none => exact ⟨rfl, rfl⟩
  | some c => exact h c (List.mem_of_getElem? hb)

/-- Where the only work in flight is that of `id`, nothing else writes scratchpad or memory. -/
theorem putNone {s : State} {id tid : Nat} (h : (s.ops.all fun e => e.1 == id) = true) : ∀ x, othersPut s id tid x = false := by
  intro x
  simp only [List.all_eq_true, beq_iff_eq] at h
  simp only [othersPut, List.any_eq_false, Bool.and_eq_true]
  rintro e he ⟨⟨hn, -⟩, -⟩
  exact (of_decide_eq_true hn) (h e he)

theorem rewritesNone {s : State} {o : Op} (h : (s.ops.all fun e => e.1 == o.id) = true)
    (hp : ((copyOf o.kind).all fun c => c.put.isEmpty) = true) : ∀ c, copyOf o.kind = some c → ∀ pa nib, rewrites s o.id c pa nib = false := by
  intro c hc pa nib
  rw [hc] at hp
  simp only [Option.all_some, List.isEmpty_iff] at hp
  simp only [List.all_eq_true, beq_iff_eq] at h
  simp only [rewrites, hp, Bool.or_eq_false_iff, List.any_eq_false, Bool.and_eq_true]
  have hn : hasNib [] pa nib = false := by cases nib <;> simp [hasNib, tget]
  exact ⟨by rw [hn, Bool.and_false], fun e he hx => (of_decide_eq_true hx.1) (h e he)⟩

def turnB (s : State) (o : Op) (c : CopyOp) (w : Warp) (tm : Team) : Bool :=
  decide (tget s.ops o.id = some o) && decide (copyOf o.kind = some c) && decide (s.warp? o.wid = some w) && decide (s.team? w.team = some tm)
    && decide (tm.tid = w.team) && decide (cwf tm.scratch = true)
    && decide (c.asked = none ∧ c.fault = none ∧ c.finished = false ∧ c.row < c.rows ∧ c.pos < c.rowLen)
    && decide (olderScr s w o.id = false) && decide ((s.core o.core).copyFree ≤ coreCycle s o.core)
    && (s.cores.all fun c => c.bankUse.isEmpty && c.engUse.isEmpty) && decide (portBusy s o = false) && decide (tm.empty = [])
    && decide (tm.dests = []) && (s.ops.all fun e => e.1 == o.id)
theorem turn {s : State} {o : Op} {c : CopyOp} {w : Warp} {tm : Team} (h : turnB s o c w tm = true) : CopyTurn s o c w tm := by
  simp only [turnB, Bool.and_eq_true, decide_eq_true_eq] at h
  obtain ⟨⟨⟨⟨⟨⟨⟨⟨⟨⟨⟨⟨⟨h1, h2⟩, h3⟩, h4⟩, h5⟩, h6⟩, h7⟩, h8⟩, h9⟩, h10⟩, h11⟩, h12⟩, h13⟩, h14⟩ := h
  exact ⟨h1, h2, h3, h4, h5, h6, h7, h8, h9, banksAll h10, h11, h12, h13, putNone h14⟩

def reachedB (s : State) (o : Op) (va : Nat) (n : Need) (l : Leaf) : Bool :=
  decide (lookupTr s o.core o.ctx va o.walkRes = .hit l) && decide (n.ok l = true) && decide (l.enc = false)
    && decide (l.pa % 128 = 0 ∧ 7 ≤ l.size)
    && (!poisonedAt s (l.phys va / 128) 0 && !poisonedAt s (l.phys va / 128) 64 && (tget s.l2 (l.phys va / 128)).isNone)
    && decide (dieFull s (dieOfLine (l.phys va / 128)) = false)
    && decide (lostMask s (l.phys va / 128) ||| claimMask s (l.phys va / 128) false (some o.id) = 0)
    && (s.ops.all fun e => e.1 == o.id) && ((copyOf o.kind).all fun c => c.put.isEmpty)
theorem reached {s : State} {o : Op} {va : Nat} {n : Need} {l : Leaf} (h : reachedB s o va n l = true) : Reached s o va n l := by
  simp only [reachedB, Bool.and_eq_true, decide_eq_true_eq] at h
  obtain ⟨⟨⟨⟨⟨⟨⟨⟨h1, h2⟩, h3⟩, h4⟩, h5⟩, h6⟩, h7⟩, h8⟩, h9⟩ := h
  exact ⟨h1, h2, h3, h4, ⟨plainAt (by simpa [Bool.and_eq_true] using h5), roomAt h6⟩, fun _ => h7, fun _ => rewritesNone h8 h9⟩

/-- The copy `c` in flight, of warp 2 on core 0, where the first page of its context is mapped. -/
def copyS (c : CopyOp) : State := withCore (PO (.copy c)) fun k => { k with tlb := [⟨0, 0, LF⟩] }
/-! ## Witnesses of the clauses on rounding, scratchpad, prefetch, work queues and copies -/

theorem witness_RoundingIsCorrect_tie : ∃ r neg m e q, let n := roundAt r neg m e q
    let err : ℚ := (n.1 : ℚ) * 2 ^ q - (m : ℚ) * 2 ^ e
    r = .rn ∧ |err| = 2 ^ q / 2 := by
  refine ⟨.rn, false, 3, 0, 1, ?_⟩
  have h : roundAt .rn false 3 0 1 = (2, true) := by decide +kernel
  simp only [h]
  norm_num

/-- A in v20, no other source. -/
def F20 : Fields := { FZ with a := .reg 20 }

def scrS (a : ScrAcc) (hooks : List HookSt) : State := P.putWarp { W0 with scr := [a], hooks := hooks }
def scrW (a : ScrAcc) (hooks : List HookSt) : Warp := { W0 with scr := [a], hooks := hooks }
def scrLoad : ScrAcc := ⟨3, 0, .load 4 false, [⟨0, 0, 0, 0⟩, ⟨15, 393212, 0, 0⟩], 0x8001, 0⟩
def scrAtom : ScrAcc := ⟨3, 0, .atomic .cas .z64 9, [⟨15, 393208, 7, 0⟩], 0x8000, 0⟩
def scrMark : ScrAcc := ⟨3, 0, .mark true 9, [⟨0, 393088, 0, 0⟩], 1, 0⟩
def scrStore : ScrAcc := ⟨3, 0, .store 4, [⟨0, 0, 0x11223344, 0⟩, ⟨1, 393212, 1, 0⟩], 3, 0⟩

def lastB (s : State) (w : Warp) (tm : Team) (a : ScrAcc) : Bool :=
  decide (s.warp? w.wid = some w) && decide (s.team? w.team = some tm) && decide (tm.tid = w.team) && decide (cwf tm.scratch = true)
    && decide (w.scr.find? (fun b => b.seq = a.seq) = some a) && decide (a.tick ≤ w.tick) && decide (roomOldest s w.core w.room = some a.seq)
    && decide (((s.core w.core).rooms.getD w.room {}).scrAt ≠ some (coreCycle s w.core)) && decide (touchesEmpty tm a = false)
    && decide (banksBusy s none (banksOf tm a) = false) && decide (scrCycles tm a ≤ a.done + 1)
theorem last {s : State} {w : Warp} {tm : Team} {a : ScrAcc} (h : lastB s w tm a = true) : LastBankCycle s w tm a := by
  simp only [lastB, Bool.and_eq_true, decide_eq_true_eq] at h
  obtain ⟨⟨⟨⟨⟨⟨⟨⟨⟨⟨h1, h2⟩, h3⟩, h4⟩, h5⟩, h6⟩, h7⟩, h8⟩, h9⟩, h10⟩, h11⟩ := h
  exact ⟨h1, h2, h3, h4, h5, h6, h7, h8, h9, h10, h11⟩

theorem witness_ScratchAccessesIssueAndStore_load : ∃ s w tm a n sx, LastBankCycle s w tm a ∧ a.kind = .load n sx ∧ tm.dests = [] ∧
    a.lanes.map ScrLane.lane = lanesOf a.enabled :=
  ⟨scrS scrLoad [], scrW scrLoad [], T0, scrLoad, 4, false, last (by decide +kernel), by decide +kernel⟩

theorem witness_ScratchAccessesIssueAndStore_atomic : ∃ s w tm a op ty item it l d span, LastBankCycle s w tm a ∧
    a.kind = .atomic op ty item ∧ tm.dests = [] ∧ a.lanes = [l] ∧ l.lane < 64 ∧ a.enabled = lane1 l.lane ∧
    l.data.toNat < 256 ^ atyBytes ty ∧ w.kills = [] ∧ (w.hooks.flatMap HookSt.items).find? (fun x => x.id = item) = some it ∧
    it.dst = .regs d span :=
  ⟨scrS scrAtom [{ items := [{ id := 9, lanes := 0x8000, dst := .regs 774 2 }] }],
    scrW scrAtom [{ items := [{ id := 9, lanes := 0x8000, dst := .regs 774 2 }] }], T0, scrAtom, .cas, .z64, 9,
    { id := 9, lanes := 0x8000, dst := .regs 774 2 }, ⟨15, 393208, 7, 0⟩, 774, 2, last (by decide +kernel), by decide +kernel⟩

theorem witness_ScratchAccessesIssueAndStore_mark : ∃ s w tm a full item it, LastBankCycle s w tm a ∧ a.kind = .mark full item ∧
    (w.hooks.flatMap HookSt.items).find? (fun x => x.id = item) = some it :=
  ⟨scrS scrMark [{ items := [Tests.item] }], scrW scrMark [{ items := [Tests.item] }], T0, scrMark, true, 9, Tests.item,
    last (by decide +kernel), by decide +kernel⟩

theorem witness_ScratchAccessesIssueAndStore_store : ∃ s w tm a n, LastBankCycle s w tm a ∧ a.kind = .store n ∧
    (∃ l ∈ a.lanes, ∀ m ∈ a.lanes, m = l ∨ m.off + n ≤ l.off ∨ l.off + n ≤ m.off) :=
  ⟨scrS scrStore [], scrW scrStore [], T0, scrStore, 4, last (by decide +kernel), rfl, ⟨1, 393212, 1, 0⟩, by decide +kernel, by decide +kernel⟩

/-- A prefetch of one lane that brings its line into the L1 too. -/
def prefM : MemOp :=
  { kind := .pref true, bytes := 1, sx := false, stream := false, rc := 0, fillL1 := true, enabled := 1, uni := false,
    lanes := [{ ln0 with leaf := { LF with ca := 1 } }], todo := [1024], lease := 3 }
theorem witness_FencesAndLinesIssue_pref : ∃ s o m l l1, tget s.ops o.id = some o ∧ o.kind = .mem m ∧ m.kind = .pref l1 ∧ m.lanes = [l] ∧
    m.todo = [2 * (l.pa / 128)] ∧ l.leaf.enc = false ∧ plainLine s (l.pa / 128) ∧ roomFor s (l.pa / 128) ∧ o.core < s.cores.length ∧
    l1 = true ∧ l.leaf.ca ≠ 2 ∧ l1Find s o.core o.ctx l.va = none :=
  ⟨PO (.mem prefM), opOf (.mem prefM), prefM, { ln0 with leaf := { LF with ca := 1 } }, true, by decide +kernel, rfl, rfl, rfl, by decide +kernel,
    rfl, plainAt (by decide +kernel), roomAt (by decide +kernel), by decide +kernel, rfl, by decide +kernel, by decide +kernel⟩

theorem witness_CopiesIssue_linIn : ∃ s o c w tm l, CopyTurn s o c w tm ∧ c.kind = .linIn ∧ Reached s o (c.a + c.pos) .r l :=
  let c : CopyOp := { kind := .linIn, a := 0xFFF0, b := 393200, len := 16, lanes := 1 }
  ⟨copyS c, opOf (.copy c), c, WI item, T0, LF, turn (by decide +kernel), rfl, reached (by decide +kernel)⟩

theorem witness_CopiesIssue_linOut : ∃ s o c w tm l, CopyTurn s o c w tm ∧ c.kind = .linOut ∧ Reached s o (c.a + c.pos) .w l :=
  let c : CopyOp := { kind := .linOut, a := 0xFF70, b := 0, len := 32, pos := 16, lanes := 1 }
  ⟨copyS c, opOf (.copy c), c, WI item, T0, LF, turn (by decide +kernel), rfl, reached (by decide +kernel)⟩

theorem witness_CopiesIssue_fillMem : ∃ s o c w tm l, CopyTurn s o c w tm ∧ c.kind = .fillMem ∧ Reached s o (c.b + c.pos) .w l :=
  let c : CopyOp := { kind := .fillMem, a := 0x01020304, b := 0xFFF0, len := 16, lanes := 1 }
  ⟨copyS c, opOf (.copy c), c, WI item, T0, LF, turn (by decide +kernel), rfl, reached (by decide +kernel)⟩

theorem witness_CopiesIssue_fillSp : ∃ s o c w tm, CopyTurn s o c w tm ∧ c.kind = .fillSp :=
  let c : CopyOp := { kind := .fillSp, a := 0x01020304, b := 393200, len := 16, em := true, lanes := 1 }
  ⟨copyS c, opOf (.copy c), c, WI item, T0, turn (by decide +kernel), rfl⟩

/-- The refresh windows of bank groups 0 and 8 never overlap, whatever the device's offset (R256). -/
theorem refreshApart {t : Nat} : 320 ≤ ((t + 32000 - refwinOffset) % 32000 + 64 + 32000 - 0) % 32000
    ∨ 320 ≤ ((t + 32000 - refwinOffset) % 32000 + 64 + 32000 - 16000) % 32000 := by
  have : refwinOffset < 32000 := Nat.mod_lt _ (by decide)
  omega
def group8 : Nat := 0x8000000
theorem refreshFree (s t : State) (e : timens t = timens s) : refreshEnd s 0 = none ∨ refreshEnd t group8 = none := by
  have h0 : bits 0 24 4 = 0 := by decide +kernel
  have h8 : bits group8 24 4 = 8 := by decide +kernel
  rcases refreshApart (t := timens s) with h | h
  · exact .inl (by simp only [refreshEnd, h0]; exact if_neg (Nat.not_lt.mpr h))
  · exact .inr (by simp only [refreshEnd, h8, e]; exact if_neg (Nat.not_lt.mpr h))

def cellarCopy (a : Nat) : CopyOp := { kind := .cellar, a := a, b := 0, len := 16, lanes := 1 }
theorem cellarAt (a : Nat) : (cellarCopy a).a + (cellarCopy a).pos = a := Nat.add_zero a
theorem witness_CopiesIssue_cellar : ∃ s o c w tm, CopyTurn s o c w tm ∧ c.kind = .cellar ∧ s.cellarPoison = [] ∧
    refreshEnd s (c.a + c.pos) = none := by
  rcases refreshFree (copyS (cellarCopy 0)) (copyS (cellarCopy group8)) (by decide +kernel) with h | h
  · exact ⟨copyS (cellarCopy 0), opOf (.copy (cellarCopy 0)), cellarCopy 0, WI item, T0, turn (by decide +kernel), rfl, rfl, (cellarAt _).symm ▸ h⟩
  · exact ⟨copyS (cellarCopy group8), opOf (.copy (cellarCopy group8)), cellarCopy group8, WI item, T0, turn (by decide +kernel),
      rfl, rfl, (cellarAt _).symm ▸ h⟩

/-- One lane of an ldw at the offset in v20, in a window of its context. -/
def cellarS (x : Nat) : State := { P1.putWarp (WR [(20, BitVec.ofNat 32 x)]) with cellarWins := [⟨0, 0, 0x10000000, false⟩] }
theorem cellarOk {x : Nat} (hx : x = 0 ∨ x = group8) (h : refreshEnd (cellarS x) x = none) :
    ldwChk F20 .b64 0 (rdOf (.ldw F20 .b64 false 15 0) (cellarS x) (WR [(20, BitVec.ofNat 32 x)]) I1) = .ok := by
  have e : (evalLanes (rdOf (.ldw F20 .b64 false 15 0) (cellarS x) (WR [(20, BitVec.ofNat 32 x)]) I1) F20).map
      (fun l => (l, cellarOff (rdOf (.ldw F20 .b64 false 15 0) (cellarS x) (WR [(20, BitVec.ofNat 32 x)]) I1) F20 0 l)) = [(0, (x : Int))] := by
    rcases hx with rfl | rfl <;> decide +kernel
  unfold ldwChk
  rw [e]
  have hr : refreshEnd (rdOf (.ldw F20 .b64 false 15 0) (cellarS x) (WR [(20, BitVec.ofNat 32 x)]) I1).s (x : Int).toNat = none := h
  simp only [List.filterMap_cons, List.filterMap_nil, hr]
  rcases hx with rfl | rfl <;> decide +kernel

theorem witness_CellarLoadIssues_lane : ∃ f sz sx hook off s iss w, Ready (.ldw f sz sx hook off) s iss w ∧
    (let rd := rdOf (.ldw f sz sx hook off) s w iss; ldwChk f sz off rd = .ok ∧ enabled rd f = 1) := by
  rcases refreshFree (cellarS 0) (cellarS group8) (by decide +kernel) with h | h
  · exact ⟨F20, .b64, false, 15, 0, cellarS 0, I1, WR [(20, BitVec.ofNat 32 0)], ready (by decide +kernel), cellarOk (x := 0) (.inl rfl) h, by decide +kernel⟩
  · exact ⟨F20, .b64, false, 15, 0, cellarS group8, I1, WR [(20, BitVec.ofNat 32 group8)], ready (by decide +kernel),
      cellarOk (x := group8) (.inr rfl) h, by decide +kernel⟩

theorem witness_CopiesIssue_readsAhead : ∃ s o c w tm start total, CopyTurn s o c w tm ∧ readsAhead c = some (start, total) ∧
    c.buf.length < total :=
  let c : CopyOp := { kind := .scr, a := 393200, b := 0, len := 16, lanes := 1 }
  ⟨copyS c, opOf (.copy c), c, WI item, T0, 393200, 16, turn (by decide +kernel), by decide +kernel⟩

theorem witness_CopiesIssue_readsIndex : ∃ s o c w tm start total, CopyTurn s o c w tm ∧ c.kind = .scatter .addi ∧
    readsAhead c = some (start, total) ∧ c.buf.length < total :=
  let c : CopyOp := { kind := .scatter .addi, words := [0, 0, 16, 16, 1, 393212, 0, 1], lanes := 1 }
  ⟨copyS c, opOf (.copy c), c, WI item, T0, 393212, 4, turn (by decide +kernel), by decide +kernel⟩

theorem witness_CopiesIssue_scr : ∃ s o c w tm, CopyTurn s o c w tm ∧ c.kind = .scr ∧ c.len ≤ c.buf.length :=
  let c : CopyOp := { kind := .scr, a := 0, b := 393200, len := 16, buf := List.replicate 16 7, lanes := 1 }
  ⟨copyS c, opOf (.copy c), c, WI item, T0, turn (by decide +kernel), by decide +kernel⟩

theorem witness_CopiesIssue_gatherZero : ∃ s o c w tm, CopyTurn s o c w tm ∧ c.kind = .gather ∧ readsAhead c = none ∧
    (let r := rowListOf c.words; r.limit ≤ rowIndex c ∨ rowIndex c = 0xFFFFFFFF) :=
  let c : CopyOp := { kind := .gather, words := [0, 0, 16, 16, 1, 0, 128, 3], buf := [3, 0, 0, 0], lanes := 1 }
  ⟨copyS c, opOf (.copy c), c, WI item, T0, turn (by decide +kernel), by decide +kernel⟩

theorem witness_CopiesIssue_gather : ∃ s o c w tm l, CopyTurn s o c w tm ∧ c.kind = .gather ∧ readsAhead c = none ∧
    (let r := rowListOf c.words; let a := r.base + rowIndex c * r.stride
      rowIndex c < r.limit ∧ rowIndex c ≠ 0xFFFFFFFF ∧ a + r.rowb ≤ 2 ^ 64 ∧ Reached s o (a + c.pos) .r l) :=
  let c : CopyOp := { kind := .gather, words := [0xFFD0, 0, 16, 16, 1, 0, 128, 3], buf := [2, 0, 0, 0], lanes := 1 }
  ⟨copyS c, opOf (.copy c), c, WI item, T0, LF, turn (by decide +kernel), by decide +kernel, by decide +kernel, by decide +kernel,
    by decide +kernel, by decide +kernel, reached (by decide +kernel)⟩

theorem witness_CopiesIssue_scatterSkips : ∃ s o c w tm red, CopyTurn s o c w tm ∧ c.kind = .scatter red ∧ readsAhead c = none ∧
    (let r := rowListOf c.words; r.limit ≤ rowIndex c ∨ rowIndex c = 0xFFFFFFFF) :=
  let c : CopyOp := { kind := .scatter .none, words := [0, 0, 16, 16, 1, 0, 128, 0], buf := [0xFF, 0xFF, 0xFF, 0xFF], lanes := 1 }
  ⟨copyS c, opOf (.copy c), c, WI item, T0, .none, turn (by decide +kernel), by decide +kernel⟩

theorem witness_CopiesIssue_scatter : ∃ s o c w tm red l, CopyTurn s o c w tm ∧ c.kind = .scatter red ∧ readsAhead c = none ∧
    (let r := rowListOf c.words; let a := r.base + rowIndex c * r.stride
      red = .none ∧ rowIndex c < r.limit ∧ rowIndex c ≠ 0xFFFFFFFF ∧ a + r.rowb ≤ 2 ^ 64 ∧ Reached s o (a + c.pos) .w l) :=
  let c : CopyOp := { kind := .scatter .none, words := [0xFFD0, 0, 16, 16, 1, 0, 128, 3], buf := [2, 0, 0, 0], lanes := 1 }
  ⟨copyS c, opOf (.copy c), c, WI item, T0, .none, LF, turn (by decide +kernel), rfl, by decide +kernel, rfl, by decide +kernel,
    by decide +kernel, by decide +kernel, reached (by decide +kernel)⟩

theorem witness_CopiesIssue_scatterAdds : ∃ s o c w tm red l, CopyTurn s o c w tm ∧ c.kind = .scatter red ∧ readsAhead c = none ∧
    (let r := rowListOf c.words; let a := r.base + rowIndex c * r.stride
      red ≠ .none ∧ rowIndex c < r.limit ∧ rowIndex c ≠ 0xFFFFFFFF ∧ a + r.rowb ≤ 2 ^ 64 ∧ Reached s o (a + c.pos) .rw l ∧
      lostMask s (l.phys (a + c.pos) / 128) ||| claimMask s (l.phys (a + c.pos) / 128) true none = 0 ∧
      r.count = 1 ∧ (a + c.pos) % 4 = 0 ∧ r.rowb % 4 = 0 ∧ c.pos % 4 = 0) :=
  let c : CopyOp := { kind := .scatter .addf, words := [0xFFD0, 0, 16, 16, 1, 0, 128, 3], buf := [2, 0, 0, 0], lanes := 1 }
  ⟨copyS c, opOf (.copy c), c, WI item, T0, .addf, LF, turn (by decide +kernel), rfl, by decide +kernel, nofun, by decide +kernel,
    by decide +kernel, by decide +kernel, reached (by decide +kernel), by decide +kernel⟩

/-- A local tensor of two elements of z8 of which a window takes four: the last two lie outside. -/
def tenWords : List Word := [0xFF80, 0, 0x11, 7, 2, 0, 0, 0, 0, 0, 0, 0, 0, 0, 0, 0, 0, 0, 4, 0, 0, 128, 0, 0]
def tenIn : CopyOp := { kind := .tenIn, words := tenWords, lanes := 1 }
def tenOut : CopyOp := { kind := .tenOut, words := tenWords, lanes := 1 }

def windowB (s : State) (o : Op) (y : Layout) (row : Nat) (l : Leaf) : Bool :=
  (List.range (y.box 0)).all fun j => (y.source row j).all fun ix => (List.range (y.ebits / 8)).all fun i =>
    reachedB s o (elemAddr y none y.base ix + i) .r l
theorem windowIs {s : State} {o : Op} {y : Layout} {row : Nat} {l : Leaf} (h : windowB s o y row l = true) :
    ∀ j < y.box 0, ∀ ix, y.source row j = some ix → ∀ i < y.ebits / 8, Reached s o (elemAddr y none y.base ix + i) .r l := by
  intro j hj ix hx i hi
  have := List.all_eq_true.mp h j (List.mem_range.mpr hj)
  rw [hx] at this
  exact reached (List.all_eq_true.mp this i (List.mem_range.mpr hi))

theorem witness_CopiesIssue_tenIn : ∃ s o c w tm l, CopyTurn s o c w tm ∧ c.kind = .tenIn ∧ (let y := layoutOf c.words; let b := y.ebits / 8
      y.otaddr = 0 ∧ c.table = none ∧ 8 ≤ y.ebits ∧ y.swz ≤ 1 ∧
      (∀ j < y.box 0, ∀ ix, y.source c.row j = some ix → ∀ i < b, Reached s o (elemAddr y none y.base ix + i) .r l) ∧
      y.source 0 0 ≠ none ∧ y.source 0 3 = none) :=
  ⟨copyS tenIn, opOf (.copy tenIn), tenIn, WI item, T0, LF, turn (by decide +kernel), rfl, by decide +kernel, by decide +kernel,
    by decide +kernel, by decide +kernel, windowIs (by decide +kernel), by decide +kernel, by decide +kernel⟩

def windowOutB (s : State) (o : Op) (y : Layout) (row : Nat) (l : Leaf) : Bool :=
  (List.range (y.box 0)).all fun j => !y.inside (y.coord row j) || (List.range (y.ebits / 8)).all fun i =>
    reachedB s o (elemAddr y none y.base (y.clamped (y.coord row j)) + i) .w l
theorem windowOut {s : State} {o : Op} {y : Layout} {row : Nat} {l : Leaf} (h : windowOutB s o y row l = true) :
    ∀ j < y.box 0, y.inside (y.coord row j) = true → ∀ i < y.ebits / 8,
      Reached s o (elemAddr y none y.base (y.clamped (y.coord row j)) + i) .w l := by
  intro j hj hx i hi
  have := List.all_eq_true.mp h j (List.mem_range.mpr hj)
  rw [hx] at this
  exact reached (List.all_eq_true.mp this i (List.mem_range.mpr hi))

theorem witness_CopiesIssue_tenOut : ∃ s o c w tm l, CopyTurn s o c w tm ∧ c.kind = .tenOut ∧ (let y := layoutOf c.words; let b := y.ebits / 8
      let at' (j : Nat) : Nat := elemAddr y none y.base (y.clamped (y.coord c.row j))
      let inTensor (j : Nat) : Prop := y.inside (y.coord c.row j) = true
      y.otaddr = 0 ∧ c.table = none ∧ 8 ≤ y.ebits ∧ y.swz ≤ 1 ∧
      (∀ j < y.box 0, inTensor j → ∀ i < b, Reached s o (at' j + i) .w l) ∧ inTensor 1 ∧ ¬inTensor 2) :=
  ⟨copyS tenOut, opOf (.copy tenOut), tenOut, WI item, T0, LF, turn (by decide +kernel), rfl, by decide +kernel, by decide +kernel,
    by decide +kernel, by decide +kernel, windowOut (by decide +kernel), by decide +kernel, by decide +kernel⟩
/-! ## Witnesses of the clauses on the matrix engine -/

def mturnB (s : State) (o : Op) (m : MatOp) (w : Warp) (tm : Team) : Bool :=
  decide (tget s.ops o.id = some o) && decide (o.kind = .matrix m) && decide (m.copy = none) && decide (s.warp? o.wid = some w)
    && decide (s.team? w.team = some tm) && decide (tm.tid = w.team) && decide (tm.place = .resident) && decide (cwf tm.scratch = true)
    && decide (w.core < s.cores.length) && decide (m.performed = false ∧ m.finished = false)
    && decide (matFault (s.core w.core).engine w tm m = none) && decide (s.cellarPoison = []) && decide (portBusy s o = false)
    && (s.cores.all fun c => c.bankUse.isEmpty && c.engUse.isEmpty)
    && decide (mostWords ((matReads (s.core w.core).engine m ++ matWrites m ((s.core w.core).engine.tile (matTile m.ins))).flatMap
      fun r => engBanks tm r.1 r.2) ≤ o.banked + 1)
theorem mturn' {s : State} {o : Op} {m : MatOp} {w : Warp} {tm : Team} (h : mturnB s o m w tm = true) (hr : matReady s o w tm m = true) :
    MatrixTurn s o m w tm := by
  simp only [mturnB, Bool.and_eq_true, decide_eq_true_eq] at h
  obtain ⟨⟨⟨⟨⟨⟨⟨⟨⟨⟨⟨⟨⟨⟨h1, h2⟩, h3⟩, h4⟩, h5⟩, h6⟩, h7⟩, h8⟩, h9⟩, h10⟩, h11⟩, h12⟩, h13⟩, h14⟩, h15⟩ := h
  exact ⟨h1, h2, h3, h4, h5, h6, h7, h8, h9, h10, hr, h11, h12, h13, banksAll h14, h15⟩
theorem mturn {s : State} {o : Op} {m : MatOp} {w : Warp} {tm : Team} (h : (mturnB s o m w tm && matReady s o w tm m) = true) :
    MatrixTurn s o m w tm := mturn' (Bool.and_eq_true .. ▸ h).1 (Bool.and_eq_true .. ▸ h).2

/-- A matrix operation of warp 2 in its last bank cycle, on an engine of its team. -/
def matO (m : MatOp) : Op := { opOf (.matrix m) with banked := 4096 }
def matS (e : Engine) (m : MatOp) (it : HookItem := item) : State :=
  withCore { P.putWarp (WI it) with ops := [(9, matO m)] } fun c => { c with engine := { e with holder := some 1 } }
def matOp (i : Instr) (a b c : Nat) : MatOp := { ins := i, a := a, b := b, c := c, lanes := 0xFFFF, fenced := 0, issued := 0 }

/-- A tile of the least shape, not free. -/
def small : Tile := { st := .live }
/-- Engines with a bf16 macro 3, with an e2m1 macro 3, and with zero tiles 6 and 7 of 128 by 128. -/
def big : Tile := { rows := 128, cols := 128, st := .zero }
def engOf (bt : EType) : Engine := { macros := [{}, {}, {}, { btype := some bt }], tiles := List.replicate 5 {} ++ [small, big, big] }

theorem witness_MatrixSyllablesIssue_mloft : ∃ s o m w tm f bt lf hook c, MatrixTurn s o m w tm ∧ m.ins = .mloft f bt lf hook ∧
    bt.mclass = some c ∧ tm.dests = [] ∧ lf < (s.core w.core).engine.macros.length :=
  let m := matOp (.mloft F0 .e2m1 3 15) 393088 0 1
  ⟨matS {} m, matO m, m, WI item, T0, F0, .e2m1, 3, 15, .f4, mturn (by decide +kernel), rfl, rfl, by decide +kernel, by decide +kernel⟩

theorem witness_MatrixSyllablesIssue_mscl : ∃ s o m w tm f cl lf hook bt c, MatrixTurn s o m w tm ∧ m.ins = .mscl f cl lf hook ∧
    bt.mclass = some c ∧ tm.dests = [] ∧ lf < (s.core w.core).engine.macros.length ∧ ((s.core w.core).engine.macro' lf).btype = some bt :=
  let m := matOp (.mscl F0 false 3 15) 392704 0 1
  ⟨matS (engOf .e2m1) m, matO m, m, WI item, T0, F0, false, 3, 15, .e2m1, .f4, mturn (by decide +kernel), rfl, rfl, by decide +kernel,
    by decide +kernel, by decide +kernel⟩

/-- The same from the cellar, in a bank group whose refresh window does not hold it. -/
def msclCl (a : Nat) : MatOp := matOp (.mscl F0 true 3 15) a 0 1
theorem msclReady {a : Nat} (ha : a = 0 ∨ a = group8) (h : refreshEnd (matS (engOf .e2m1) (msclCl a)) a = none) :
    matReady (matS (engOf .e2m1) (msclCl a)) (matO (msclCl a)) (WI item) T0 (msclCl a) = true := by
  have h2 : refreshEnd (matS (engOf .e2m1) (msclCl a)) (a + 256 * 1 - 1) = none := by
    have e : bits (a + 256 * 1 - 1) 24 4 = bits a 24 4 := by rcases ha with rfl | rfl <;> decide +kernel
    simp only [refreshEnd] at h ⊢
    rw [e]; exact h
  have h3 : matRefresh (matS (engOf .e2m1) (msclCl a)) (msclCl a) = none := by
    show (refreshEnd _ a).or (refreshEnd _ (a + 256 * 1 - 1)) = none
    rw [h, h2]; rfl
  unfold matReady
  rw [h3]
  rcases ha with rfl | rfl <;> decide +kernel

theorem witness_MatrixSyllablesIssue_msclCellar : ∃ s o m w tm f lf hook bt c, MatrixTurn s o m w tm ∧ m.ins = .mscl f true lf hook ∧
    bt.mclass = some c ∧ tm.dests = [] ∧ lf < (s.core w.core).engine.macros.length ∧ ((s.core w.core).engine.macro' lf).btype = some bt := by
  rcases refreshFree (matS (engOf .e2m1) (msclCl 0)) (matS (engOf .e2m1) (msclCl group8)) (by decide +kernel) with h | h
  · exact ⟨_, matO (msclCl 0), msclCl 0, WI item, T0, F0, 3, 15, .e2m1, .f4, mturn' (by decide +kernel) (msclReady (.inl rfl) h), rfl, rfl,
      by decide +kernel, by decide +kernel, by decide +kernel⟩
  · exact ⟨_, matO (msclCl group8), msclCl group8, WI item, T0, F0, 3, 15, .e2m1, .f4, mturn' (by decide +kernel) (msclReady (.inr rfl) h), rfl,
      rfl, by decide +kernel, by decide +kernel, by decide +kernel⟩

/-- Accumulators that nothing has left undefined. -/
theorem accDefined {e : Engine} (h : (e.tiles.all fun t => t.acc.isEmpty) = true) : ∀ k < 8, ∀ r n, ((e.tile k).cell r n).undef = 0 := by
  intro k _ r n
  simp only [List.all_eq_true, List.isEmpty_iff] at h
  have ha : (e.tile k).acc = [] := by
    simp only [Engine.tile, List.getD_eq_getElem?_getD]
    cases hk : e.tiles[k]? with
    | none => rfl
    | some t => exact h t (List.mem_of_getElem? hk)
  simp [Tile.cell, ha, tget, Tile.zeroCell]

theorem witness_MatrixSyllablesIssue_mma : ∃ s o m w tm i f ty tile lf row0 hook reg c bt, MatrixTurn s o m w tm ∧
    (i = .mma f ty tile lf row0 hook ∧ reg = true ∨ i = .mmas f ty tile lf row0 hook ∧ reg = false) ∧ m.ins = i ∧ ty.mclass = some c ∧
    (let e := (s.core w.core).engine
    let kk := m.c % 2 ^ 9 + 1
    (e.macro' lf).btype = some bt ∧ e.tiles.length = 8 ∧ (w.width = 16 ∨ w.width = 32 ∨ w.width = 64) ∧ kk ≤ mcKl c ∧
    (reg = true → settled w ∧ m.spoiled w = false) ∧ (reg = false → tm.dests = []) ∧
    (∀ k < 8, ∀ r n, ((e.tile k).cell r n).undef = 0)) :=
  let i : Instr := .mma { F0 with a := .reg 8, c := .reg 20 } .bf16 7 3 127 15
  let m := matOp i 0 0 (255 + 7 * 2 ^ 21)
  ⟨matS (engOf .bf16) m, matO m, m, WI item, T0, i, _, .bf16, 7, 3, 127, 15, true, .f16, .bf16, mturn (by decide +kernel), .inl ⟨rfl, rfl⟩, rfl,
    rfl, by decide +kernel, by decide +kernel, by decide +kernel, by decide +kernel,
    fun _ => ⟨⟨by decide +kernel, by decide +kernel, by decide +kernel⟩, by decide +kernel⟩, nofun, accDefined (by decide +kernel)⟩

theorem witness_MatrixSyllablesIssue_mmas : ∃ s o m w tm i f ty tile lf row0 hook reg c bt, MatrixTurn s o m w tm ∧
    (i = .mma f ty tile lf row0 hook ∧ reg = true ∨ i = .mmas f ty tile lf row0 hook ∧ reg = false) ∧ m.ins = i ∧ ty.mclass = some c ∧
    mcScaled c = true ∧ mcNc c = 256 ∧ reg = false ∧
    (let e := (s.core w.core).engine
    let kk := m.c % 2 ^ 9 + 1
    (e.macro' lf).btype = some bt ∧ e.tiles.length = 8 ∧ (w.width = 16 ∨ w.width = 32 ∨ w.width = 64) ∧ kk ≤ mcKl c ∧
    (reg = true → settled w ∧ m.spoiled w = false) ∧ (reg = false → tm.dests = []) ∧
    (∀ k < 8, ∀ r n, ((e.tile k).cell r n).undef = 0)) :=
  let i : Instr := .mmas F0 .e2m1 6 3 0 15
  let m := matOp i 0 393200 (511 + 16 * 2 ^ 9 + 3 * 2 ^ 21)
  ⟨matS (engOf .e2m1) m, matO m, m, WI item, T0, i, F0, .e2m1, 6, 3, 0, 15, false, .f4, .e2m1, mturn (by decide +kernel), .inr ⟨rfl, rfl⟩, rfl,
    rfl, rfl, rfl, rfl, by decide +kernel, by decide +kernel, by decide +kernel, by decide +kernel, nofun, by decide +kernel,
    accDefined (by decide +kernel)⟩

theorem accTagged {e : Engine} {k : Nat} (h : (e.tile k).acc.isEmpty = true) :
    ∀ r n, ((e.tile k).cell r n).undef = 0 ∧ ((e.tile k).cell r n).tagU = false := by
  intro r n
  simp [Tile.cell, List.isEmpty_iff.mp h, tget, Tile.zeroCell]

theorem witness_MatrixSyllablesIssue_mdrainReg : ∃ s o m w tm it f tile row0 hook, MatrixTurn s o m w tm ∧ workOf s o w it ∧
    m.ins = .mdrainReg f tile row0 hook ∧ (let y := (s.core w.core).engine.tile tile
    ∀ r n, (y.cell r n).undef = 0 ∧ (y.cell r n).tagU = false) :=
  let i : Instr := .mdrainReg { F0 with d := .reg 760 } 7 127 15
  let m := matOp i 0 0 0
  let it : HookItem := { id := 9, dst := .regs 760 8, lanes := 0xFFFF }
  ⟨matS (engOf .bf16) m it, matO m, m, WI it, T0, it, _, 7, 127, 15, mturn (by decide +kernel),
    ⟨by decide +kernel, by decide +kernel, { items := [it] }, by decide +kernel⟩, rfl, accTagged (by decide +kernel)⟩

theorem witness_MatrixSyllablesIssue_mdrainScratch : ∃ s o m w tm f fmt tr z em tile hook, MatrixTurn s o m w tm ∧
    m.ins = .mdrainScratch f fmt tr z em tile hook ∧ (let y := (s.core w.core).engine.tile tile
    let n := drainSize fmt y.rows y.cols
    let n' := if tr then drainSize fmt y.cols y.rows else 0
    (∀ r n, (y.cell r n).undef = 0) ∧ (∀ x, othersPut s o.id w.team x = false) ∧ (m.a + n ≤ m.b ∨ m.b + n' ≤ m.a ∨ tr = false) ∧
    (tr = true → fmt = .e4m3 ∨ fmt = .e2m1) ∧ tile < (s.core w.core).engine.tiles.length) :=
  let i : Instr := .mdrainScratch F0 .e2m1 true true false 5 15
  let m := matOp i 0 392896 0
  ⟨matS (engOf .bf16) m, matO m, m, WI item, T0, F0, .e2m1, true, true, false, 5, 15, mturn (by decide +kernel), rfl,
    fun r n => (accTagged (by decide +kernel) r n).1, putNone (by decide +kernel),
    .inl (by decide +kernel), fun _ => .inr rfl, by decide +kernel⟩

theorem witness_MatrixSyllablesIssue_mdrainRaw : ∃ s o m w tm f z em tile hook, MatrixTurn s o m w tm ∧
    m.ins = .mdrainScratch f .raw false z em tile hook ∧ (let y := (s.core w.core).engine.tile tile
    (∀ r n, (y.cell r n).undef = 0) ∧ (∀ x, othersPut s o.id w.team x = false) ∧ tile < (s.core w.core).engine.tiles.length) :=
  let i : Instr := .mdrainScratch F0 .raw false false false 5 15
  let m := matOp i 392192 0 0
  ⟨matS (engOf .bf16) m, matO m, m, WI item, T0, F0, false, false, 5, 15, mturn (by decide +kernel), rfl,
    fun r n => (accTagged (by decide +kernel) r n).1, putNone (by decide +kernel),
    by decide +kernel⟩

/-- A load of macro 3 made by the copy engine's means: its copy, its operation, and the state. -/
def loftC (k : CopyKind) (words : List Word) (a : Nat) : CopyOp := { kind := k, a := a, len := 16, words := words, lanes := 0xFFFF }
def loftM (c : CopyOp) : MatOp := { matOp (.mloftw F0 .e2m1 3 15) 0 0 1 with copy := some c }
def loftS (c : CopyOp) : State :=
  withCore { P.putWarp (WI item) with ops := [(9, matO (loftM c))] } fun k => { k with engine := { holder := some 1 }, tlb := [⟨0, 0, LF⟩] }

theorem witness_MatrixSyllablesIssue_begins : ∃ s o m w tm c, tget s.ops o.id = some o ∧ o.kind = .matrix m ∧ m.copy = some c ∧
    s.warp? o.wid = some w ∧ s.team? w.team = some tm ∧ m.performed = false ∧ m.finished = false ∧ m.begun = none ∧
    matReady s o w tm m = true ∧ c.rows ≠ 0 :=
  let c := loftC (.loftCellar .e2m1 3) [] 0
  ⟨loftS c, matO (loftM c), loftM c, WI item, T0, c, by decide +kernel⟩

theorem witness_MatrixSyllablesIssue_loftCellar : ∃ s o c w tm bt lf, CopyTurn s o c w tm ∧ c.kind = .loftCellar bt lf ∧ s.cellarPoison = [] ∧
    refreshEnd s (c.a + c.pos) = none ∧ tm.place = .resident ∧ w.core < s.cores.length ∧ lf < (s.core w.core).engine.macros.length := by
  let c (a : Nat) : CopyOp := loftC (.loftCellar .e2m1 3) [] a
  have ha (a : Nat) : (c a).a + (c a).pos = a := Nat.add_zero a
  rcases refreshFree (loftS (c 0)) (loftS (c group8)) (by decide +kernel) with h | h
  · exact ⟨loftS (c 0), matO (loftM (c 0)), c 0, WI item, T0, .e2m1, 3, turn (by decide +kernel), rfl, rfl, (ha _).symm ▸ h, by decide +kernel⟩
  · exact ⟨loftS (c group8), matO (loftM (c group8)), c group8, WI item, T0, .e2m1, 3, turn (by decide +kernel), rfl, rfl, (ha _).symm ▸ h,
      by decide +kernel⟩

theorem witness_MatrixSyllablesIssue_loftTen : ∃ s o c w tm lf l k, CopyTurn s o c w tm ∧ c.kind = .loftTen lf ∧ tm.place = .resident ∧
    w.core < s.cores.length ∧ lf < (s.core w.core).engine.macros.length ∧ (let y := layoutOf c.words; let b := y.ebits / 8
      y.otaddr = 0 ∧ c.table = none ∧ 8 ≤ y.ebits ∧ y.etype.mclass = some k ∧ y.rowBytes ≤ mcRb k ∧
      (∀ j < y.box 0, ∀ ix, y.source c.row j = some ix → ∀ i < b, Reached s o (elemAddr y none y.base ix + i) .r l)) :=
  let c := loftC (.loftTen 3) ([0xFF80, 0, 0x11, 7, 2] ++ List.replicate 13 0 ++ [4, 0, 0, 0, 0, 0]) 0
  ⟨loftS c, matO (loftM c), c, WI item, T0, 3, LF, .i8, turn (by decide +kernel), rfl, by decide +kernel, by decide +kernel, by decide +kernel,
    by decide +kernel, by decide +kernel, by decide +kernel, by decide +kernel, by decide +kernel, windowIs (by decide +kernel)⟩

theorem witness_MatrixSyllablesIssue_ends : ∃ s o m w it tm c lf bt, tget s.ops o.id = some o ∧ o.kind = .matrix m ∧ workOf s o w it ∧
    m.copy = some c ∧ m.performed = false ∧ m.finished = false ∧ c.fault = none ∧
    (c.kind = .loftCellar bt lf ∨ c.kind = .loftTen lf ∧ bt = (layoutOf c.words).etype) ∧ s.team? w.team = some tm ∧ tm.place = .resident ∧
    w.core < s.cores.length ∧ lf < (s.core w.core).engine.macros.length :=
  let c := loftC (.loftCellar .e2m1 3) [] 0
  ⟨loftS c, matO (loftM c), loftM c, WI item, item, T0, c, 3, .e2m1, by decide +kernel, rfl, ⟨by decide +kernel, by decide +kernel,
    { items := [item] }, by decide +kernel⟩, rfl, rfl, rfl, rfl, .inl rfl, by decide +kernel⟩
/-! ## Witnesses of inner clauses on values -/

/-- A rd of warp 2, whose source 1 is a constant. -/
def rd0 (i : Instr) : Rd := rdOf i P W0 I0

theorem witness_SpecialFunctionResults_ordinary : ∃ (rd : Rd) (f : Fields) (ftz : Bool) (l m : Nat) (neg : Bool) (e : Int),
    fval false ftz rd f.a l = .fin neg m e ∧ m ≠ 0 :=
  ⟨rd0 (.rcp { F0 with a := .kon .onef } true), { F0 with a := .kon .onef }, true, 15, 0x800000, false, -23, by decide +kernel⟩

theorem witness_ConversionResults_frint : ∃ (rd : Rd) (f : Fields) (l m : Nat) (neg : Bool) (e : Int), fval false false rd f.a l = .fin neg m e ∧
    (roundAt .rn neg m e 0).2 = true :=
  ⟨rdOf (.frint { F0 with a := .reg 20 } FR true) (P1.putWarp (WR [(20, 0x3F000000)])) (WR [(20, 0x3F000000)]) I1, { F0 with a := .reg 20 }, 0, 0x800000, false,
    -24, by decide +kernel⟩

theorem witness_ConversionResults_types : ∃ (st dt dt' : EType) (sf df : Fmt), fmtOf st = some sf ∧ fmtOf dt = some df ∧ fmtOf dt' = none ∧ dt' ≠ .sc8 :=
  ⟨.e2m1, .f64, .s4, fmtE2m1, fmtF64, rfl, rfl, rfl, by decide⟩

theorem witness_ReductionAndScanResults_tree : ∃ (rd : Rd) (f : Fields) (x : Word), rd.w.width = 16 ∧ enabled rd f = 0xAAAA ∧
    treeNode (redWord .add true) (leafOf rd f fun l => val32 rd f.a l) (Nat.log2 rd.w.width) 0 = some x ∧
    prefixNode (redWord .add true) (leafOf rd f fun l => val32 rd f.a l) 0 = none :=
  ⟨rd0 (.red { F0 with p := .sys .laneid } .add .s32), { F0 with p := .sys .laneid }, 8, by decide +kernel, by decide +kernel, by decide +kernel, by decide +kernel⟩

theorem witness_ReductionAndScanResults_float : ∃ (rd : Rd) (f : Fields) (x : FNode),
    treeNode (redFloatOf .amax true) (leafOf rd f (floatLeaf true rd f.a)) (Nat.log2 rd.w.width) 0 = some x :=
  ⟨rd0 (.red F0 .amax .f64), F0, Option.isSome_iff_exists.mp (by decide +kernel)⟩

/-! ## Witnesses of the clauses on translations, the fabric and pulled transfers -/

/-- A warp frozen for a walk of the page of 0x3FFFFFFF, the last that the table of context 0 maps. -/
def walkW : Warp := { W0 with freezes := [⟨5, .walk [(0x3FFF0000, .r)]⟩] }
def walkK (d : Bool) : Walk := ⟨9, 0, 0x3FFFFFFF, 0, d, [.warp 2], false, .r⟩
def walkS (d : Bool) : State := { PM.putWarp walkW with walks := [walkK d] }
theorem pagesElsewhere {s : State} {wid : Nat} (h : (s.warps.all fun e => e.1 == wid || (e.2.freezes.flatMap Freeze.pages).isEmpty) = true) :
    ∀ e ∈ s.warps, e.1 ≠ wid → e.2.freezes.flatMap Freeze.pages = [] := by
  intro e he hn
  have := List.all_eq_true.mp h e he
  simp only [Bool.or_eq_true, beq_iff_eq, List.isEmpty_iff] at this
  exact this.resolve_left hn

theorem witness_TranslationAndLines_tlb : ∃ (s : State) (k : Walk) (l : Leaf) (w : Warp), s.walks.find? (fun x => x.id = k.id) = some k ∧
    k.deferred = false ∧ k.va < 2 ^ 48 ∧
    Machine.walk (trimL2 (bringWalk s k.va (if k.retried then 512 else k.ctx) 4 0 (s.ctx k.ctx).root).used) k.ctx k.va = .leaf l ∧
    k.reqs = [.warp w.wid] ∧ s.warp? w.wid = some w ∧ ctxOf s w = k.ctx ∧ w.core < s.cores.length ∧
    tlbFind (s.core w.core).tlb k.ctx k.va = none ∧ (∀ e ∈ s.warps, e.1 ≠ w.wid → e.2.freezes.flatMap Freeze.pages = []) ∧
    (∀ p ∈ w.freezes.flatMap Freeze.pages, p.1 / 65536 = k.va / 65536) ∧ w.freezes ≠ [] :=
  ⟨walkS false, walkK false, ⟨0, 30, true, true, true, false, 0, false, 0, 1⟩, walkW, by decide +kernel, rfl, by decide, by decide +kernel,
    by decide +kernel, by decide +kernel, by decide +kernel, by decide +kernel, by decide +kernel, pagesElsewhere (by decide +kernel),
    by decide +kernel, by decide +kernel⟩

theorem witness_TranslationAndLines_sv3Down : ∃ (s : State), s.svUp 3 = false := ⟨P, by decide +kernel⟩

theorem witness_TranslationAndLines_sv3Up : ∃ (s : State) (ctx : Nat) (x : Walk), Keyed s ∧ s.svUp 3 = true ∧ x ∈ s.walks ∧ x.ctx = ctx ∧
    x.deferred = true :=
  ⟨walkS true, 0, walkK true, keyed (by decide +kernel), by decide +kernel⟩

theorem witness_TranslationAndLines_decline : ∃ (s : State) (id : Nat) (k : Walk) (w : Warp), s.svUp 3 = true ∧
    s.walks.find? (fun x => x.id = id && x.deferred) = some k ∧ k.reqs = [.warp w.wid] ∧ s.warp? w.wid = some w ∧
    (∀ e ∈ s.warps, e.1 ≠ w.wid → e.2.freezes.flatMap Freeze.pages = []) ∧
    (∀ p ∈ w.freezes.flatMap Freeze.pages, p.1 / 65536 = k.va / 65536) :=
  ⟨walkS true, 9, walkK true, walkW, by decide +kernel, by decide +kernel, by decide +kernel, by decide +kernel,
    pagesElsewhere (by decide +kernel), by decide +kernel⟩

theorem witness_FabricRequests_askedLate : ∃ s o c ns, tget s.ops o.id = some o ∧ (o.kind = .copy c ∨ ∃ m, o.kind = .matrix m ∧ m.copy = some c) ∧
    c.asked = some ns ∧ timens s < ns + 1000000 :=
  let c : CopyOp := { kind := .linIn, a := 0, b := 0, len := 16, asked := some 1, lanes := 1 }
  ⟨{ copyS c with base := 1250000 }, opOf (.copy c), c, 1, by decide +kernel, .inl rfl, rfl, by decide +kernel⟩

/-- A matched message, and the state with a receive, the message and a token of its bytes 96 to 111. -/
def msgB (expired : Nat) : BulkMsg :=
  { src := 1, srcMsg := 7, ctx := 0, win := 0, mtag := 9, len := 128, prio := 0, prefixBytes := [], recv := some 9, expired := expired, got := 48 }
def recvL : RecvOp := { slot := 255, dst := 0xFF80, cap := 128, mtag := 9, win := 0, srcdev := 1, any := false, lanes := 1 }
def tokS (expired : Nat) (expires : Nat) : State :=
  withCore { PO (.brecv recvL) with msgs := [(20, msgB expired)], tokens := [(30, ⟨20, [(112, 16)], expires, []⟩)], base := 12 }
    fun c => { c with tlb := [⟨0, 0, LF⟩] }

theorem witness_PulledTransfers_data : ∃ (s : State) (tok : Nat) (tk : Token) (m : BulkMsg) (o : Op) (r : RecvOp) (off : Nat) (data : List Byte)
    (l : Leaf), tget s.tokens tok = some tk ∧ tget s.msgs tk.msg = some m ∧ m.recv = some o.id ∧ tget s.ops o.id = some o ∧ o.kind = .brecv r ∧
    r.done = none ∧ (tk.expires = 0 ∨ fabricShut s m.src = false) ∧ Reached s o (r.dst + off) .w l ∧ data ≠ [] ∧
    (r.dst + off) % 128 + data.length ≤ 128 ∧ (∀ i < data.length, inRanges (tk.miss ++ tk.held) (off + i) = true) :=
  ⟨tokS 0 5, 30, ⟨20, [(112, 16)], 5, []⟩, msgB 0, opOf (.brecv recvL), recvL, 112, List.replicate 16 7, LF, by decide +kernel, by decide +kernel,
    rfl, by decide +kernel, rfl, rfl, .inr (by decide +kernel), reached (by decide +kernel), by decide, by decide, by decide +kernel⟩

theorem witness_PulledTransfers_third : ∃ (s : State) (tok : Nat) (tk : Token) (m : BulkMsg) (o : Op) (r : RecvOp), tget s.tokens tok = some tk ∧
    tk.expires ≠ 0 ∧ tk.expires ≤ timens s ∧ tget s.msgs tk.msg = some m ∧ m.recv = some o.id ∧ tget s.ops o.id = some o ∧ o.kind = .brecv r ∧
    r.done = none ∧ recvSaved s m = false ∧ 2 ≤ m.expired ∧ m.src ≠ s.devid :=
  ⟨tokS 2 9, 30, ⟨20, [(112, 16)], 9, []⟩, msgB 2, opOf (.brecv recvL), recvL, by decide +kernel⟩

/-! ## Witnesses of the clauses on queues, placement and retirement -/

theorem witness_QueuesAndContexts_mac : ∃ (s : State) (src port : Nat) (b : BitVec 128) (q : Queue), port < 1024 ∧ s.bootFailed = false ∧
    stillToCome s (lowerPort (knockQueue b) port) = false ∧ tget s.queues (knockQueue b) = some q ∧
    b.toNat / 2 ^ 96 ≠ knockMac ((tget s.queueKeys q.keySlot).getD 0) b.toNat src ∧
    (s.lockouts.contains src = false ∧ b.toNat / 2 ^ 42 % 2 ^ 6 = 0 ∧ b.toNat / 2 ^ 61 % 2 ^ 35 = 0 ∧
      unexpired s (b.toNat / 2 ^ 48 % 2 ^ 13) = true) :=
  ⟨PQ, 1, 1023, knockBits 2 ^^^ 1 <<< 127, queue0, by decide +kernel⟩

theorem witness_QueuesAndContexts_disable : ∃ (s s' : State) (ctx : Nat) (c : Ctx), s.svUp 3 = true ∧ tget s.contexts ctx = some c ∧ s'.svUp 3 = false :=
  ⟨PM, P, 0, { enabled := true, root := 0x1000 }, by decide +kernel⟩

theorem witness_PacketsAndLaunches_told : ∃ (s : State) (qid : Nat) (q : Queue) (i since : Nat), tget s.queues qid = some q ∧ s.svUp 1 = true ∧
    q.mismatch = some (i, since) ∧ q.stalled = false ∧ since + 1000000 ≤ timens s :=
  ⟨{ PM with queues := [(1023, { queue0 with mismatch := some (0, 0) })], base := 1250000 }, 1023, { queue0 with mismatch := some (0, 0) }, 0, 0,
    by decide +kernel⟩

theorem witness_PacketsAndLaunches_early : ∃ (s : State) (qid : Nat) (q : Queue) (i since : Nat), tget s.queues qid = some q ∧ s.svUp 1 = true ∧
    q.mismatch = some (i, since) ∧ q.stalled = false ∧ timens s < since + 1000000 :=
  ⟨{ PM with queues := [(1023, { queue0 with mismatch := some (0, 0) })], base := 1249999 }, 1023, { queue0 with mismatch := some (0, 0) }, 0, 0,
    by decide +kernel⟩

/-- A queue that holds a packet with SERIAL behind a launch that has not completed. -/
def serialP : Packet := placedPacket ||| 256
def serialS : State :=
  { (PM.putLaunch { L0 with lid := 5, qid := 0, phase := .retiring }) with queues := [(0, { queue0 with held := [(0, serialP)] })] }
theorem witness_PacketsAndLaunches_serial : ∃ (s : State) (qid : Nat) (q : Queue) (i : Nat) (p : Packet) (rest : _), tget s.queues qid = some q ∧
    s.svUp 1 = true ∧ s.svUp 2 = true ∧ q.held = (i, p) :: rest ∧ waitsSerial s qid p :=
  ⟨serialS, 0, { queue0 with held := [(0, serialP)] }, 0, serialP, [], by decide +kernel, by decide +kernel, by decide +kernel, by decide +kernel,
    by decide +kernel, (5, { L0 with lid := 5, qid := 0, phase := .retiring }), by decide +kernel, by decide +kernel⟩

theorem witness_PacketsAndLaunches_wrongType : ∃ (s : State) (qid : Nat) (q : Queue) (s1 : State) (i : Nat) (p : Packet) (rest : _),
    tget s.queues qid = some q ∧ s.svUp 1 = true ∧ s.svUp 2 = true ∧ q.held = (i, p) :: rest ∧ ¬waitsSerial s qid p ∧
    slotRead s q i s1 p ∧ p.toNat / 2 ^ 32 % 2 ^ 32 = i ∧ p.toNat % 256 ≠ 1 :=
  ⟨{ PM with queues := [(0, { queue0 with qbase := 0x8000, held := [(0, 0)] })] }, 0, { queue0 with qbase := 0x8000, held := [(0, 0)] },
    (slotS { PM with queues := [(0, { queue0 with qbase := 0x8000, held := [(0, 0)] })] } { queue0 with qbase := 0x8000, held := [(0, 0)] } 0).1,
    0,
    (slotS { PM with queues := [(0, { queue0 with qbase := 0x8000, held := [(0, 0)] })] } { queue0 with qbase := 0x8000, held := [(0, 0)] } 0).2,
    [], by decide +kernel, by decide +kernel, by decide +kernel, by decide +kernel, fun h => absurd h.1 (by decide +kernel),
    ⟨slotEq (by decide +kernel), by decide +kernel⟩, by decide +kernel, by decide +kernel⟩

theorem witness_PacketsAndLaunches_launch : ∃ (s : State) (qid : Nat) (q : Queue) (s1 : State) (i : Nat) (p : Packet) (rest : _) (l : Launch),
    tget s.queues qid = some q ∧ s.svUp 1 = true ∧ s.svUp 2 = true ∧ q.held = (i, p) :: rest ∧ ¬waitsSerial s qid p ∧
    slotRead s q i s1 p ∧ p.toNat / 2 ^ 32 % 2 ^ 32 = i ∧ p.toNat % 256 = 1 ∧
    l = { lid := s.nextId, packet := p, qid := qid, pseq := i, tstart := timens s } ∧ packetFaults p = [] ∧ l.ctx = q.ctx ∧
    (s.ctx q.ctx).enabled = true ∧ l.fits = true :=
  ⟨PQ1, 0, { queue0 with held := [(0, placedPacket)] }, (slotS PQ1 { queue0 with held := [(0, placedPacket)] } 0).1, 0, placedPacket, [],
    { lid := PQ1.nextId, packet := placedPacket, qid := 0, pseq := 0, tstart := timens PQ1 }, by decide +kernel, by decide +kernel,
    by decide +kernel, by decide +kernel, fun h => absurd h.1 (by decide +kernel),
    ⟨(slotEq (by decide +kernel)).trans (congrArg (SlotRead.packet _) (by decide +kernel)), by decide +kernel⟩, by decide +kernel, by decide +kernel,
    rfl, by decide +kernel, by decide +kernel, by decide +kernel, by decide +kernel⟩

theorem witness_TeamsArePlaced_slope : ∃ (s : State) (tid : Nat) (tm : Team), s.team? tid = some tm ∧ tm.admitted = false ∧ timens s < s.slopeUp :=
  ⟨{ P.putTeam { T0 with admitted := false } with slopeUp := 1 }, 1, { T0 with admitted := false }, by decide +kernel⟩

theorem witness_TeamsArePlaced_admitted : ∃ (s : State) (tid : Nat) (tm : Team), Keyed s ∧ s.team? tid = some tm ∧ tm.admitted = false ∧
    s.slopeUp ≤ timens s :=
  ⟨P.putTeam { T0 with admitted := false }, 1, { T0 with admitted := false }, keyed (by decide +kernel), by decide +kernel⟩

theorem witness_LaunchesRetire_waits : ∃ (s : State) (lid : Nat) (l : Launch) (id : Nat), s.launch? lid = some l ∧
    (l.phase = .retiring ∨ l.phase = .recorded) ∧ id ∈ l.waits ∧ tget s.ops id ≠ none :=
  ⟨{ P.putLaunch { L0 with phase := .retiring, waits := [8, 9] } with ops := [(9, opOf (.knock 0))] }, 0,
    { L0 with phase := .retiring, waits := [8, 9] }, 9, by decide +kernel⟩

theorem answeredIs {s : State} {l : Launch} (h : (l.waits.all fun id => (tget s.ops id).isNone) = true) : answered s l := fun id hi =>
  Option.isNone_iff_eq_none.mp (List.all_eq_true.mp h id hi)

theorem witness_LaunchesRetire_answered : ∃ (s : State) (lid : Nat) (l : Launch), Keyed s ∧ s.launch? lid = some l ∧ l.phase = .retiring ∧
    l.wct ≤ timens s ∧ answered s l ∧ l.craddr = 0 :=
  ⟨P.putLaunch { L0 with phase := .retiring, waits := [8] }, 0, { L0 with phase := .retiring, waits := [8] }, keyed (by decide +kernel),
    by decide +kernel, rfl, by decide +kernel, answeredIs (by decide +kernel), by decide +kernel⟩

theorem witness_LaunchesRetire_record : ∃ (s : State) (lid : Nat) (l : Launch) (lf : Leaf), Keyed s ∧ s.launch? lid = some l ∧
    l.phase = .retiring ∧ l.wct ≤ timens s ∧ answered s l ∧ l.craddr ≠ 0 ∧ l.craddr % 32 = 0 ∧ l.crkey = 0 ∧
    Machine.walk s (ownerCtx s l) l.craddr = .leaf lf ∧ lf.w = true ∧ lf.enc = false ∧ lf.phys l.craddr % 32 = 0 ∧
    plainLine s (lf.phys l.craddr / 128) ∧ roomFor s (lf.phys l.craddr / 128) ∧
    (∀ x ∈ s.ingressRes, ¬(x.1 = ownerCtx s l ∧ x.2.1 = l.craddr / 65536)) :=
  ⟨PM.putLaunch { L0 with phase := .retiring, packet := placedPacket + 0x8060 * 2 ^ 480 }, 0,
    { L0 with phase := .retiring, packet := placedPacket + 0x8060 * 2 ^ 480 }, ⟨0, 30, true, true, true, false, 0, false, 0, 1⟩,
    keyed (by decide +kernel), by decide +kernel, rfl, by decide +kernel, answeredIs (by decide +kernel), by decide +kernel, by decide +kernel,
    by decide +kernel, by decide +kernel, rfl, rfl, by decide +kernel, plainAt (by decide +kernel), roomAt (by decide +kernel), by decide +kernel⟩

/-- A launch whose record is complete, with CQDEV `dev` and CQID 1023. -/
def knockL (dev : Nat) : Launch := { L0 with phase := .recorded, packet := BitVec.ofNat 1024 (dev * 2 ^ 608 + 1023 * 2 ^ 614) }
theorem witness_LaunchesRetire_ownKnock : ∃ (s : State) (lid : Nat) (l : Launch) (key : BitVec 128), Keyed s ∧ s.launch? lid = some l ∧
    l.phase = .recorded ∧ l.wct ≤ timens s ∧ answered s l ∧
    tget s.cqKeys (l.packet.toNat / 2 ^ 608 % 2 ^ 6 * 1024 + l.packet.toNat / 2 ^ 614 % 2 ^ 10) = some key ∧
    l.packet.toNat / 2 ^ 608 % 2 ^ 6 = s.devid :=
  ⟨{ P.putLaunch (knockL 0) with cqKeys := [(1023, 5)] }, 0, knockL 0, 5, keyed (by decide +kernel), by decide +kernel, by decide +kernel,
    by decide +kernel, answeredIs (by decide +kernel), by decide +kernel⟩

theorem witness_LaunchesRetire_knock : ∃ (s : State) (lid : Nat) (l : Launch) (key : BitVec 128), Keyed s ∧ s.launch? lid = some l ∧
    l.phase = .recorded ∧ l.wct ≤ timens s ∧ answered s l ∧
    tget s.cqKeys (l.packet.toNat / 2 ^ 608 % 2 ^ 6 * 1024 + l.packet.toNat / 2 ^ 614 % 2 ^ 10) = some key ∧
    l.packet.toNat / 2 ^ 608 % 2 ^ 6 ≠ s.devid :=
  ⟨{ P.putLaunch (knockL 63) with cqKeys := [(65535, 5)] }, 0, knockL 63, 5, keyed (by decide +kernel), by decide +kernel, by decide +kernel,
    by decide +kernel, answeredIs (by decide +kernel), by decide +kernel⟩

theorem witness_LaunchesRetire_noKey : ∃ (s : State) (lid : Nat) (l : Launch), Keyed s ∧ s.launch? lid = some l ∧
    l.phase = .recorded ∧ l.wct ≤ timens s ∧ answered s l ∧
    tget s.cqKeys (l.packet.toNat / 2 ^ 608 % 2 ^ 6 * 1024 + l.packet.toNat / 2 ^ 614 % 2 ^ 10) = none :=
  ⟨P.putLaunch (knockL 63), 0, knockL 63, keyed (by decide +kernel), by decide +kernel, by decide +kernel,
    by decide +kernel, answeredIs (by decide +kernel), by decide +kernel⟩

theorem witness_PreemptionKeepsState_withdraw : ∃ (s s' : State) (ctx : Nat) (c : Ctx), s.svUp 2 = true ∧ tget s.contexts ctx = some c ∧
    s'.svUp 2 = false :=
  ⟨PM, P, 0, { enabled := true, root := 0x1000 }, by decide +kernel⟩

/-- A frozen core with a saved team that was to move, of a context that is pre-empted. -/
def barT' : Team := { T0 with place := .saved, moving := true }
def barS' : State :=
  { up (withCore (P.putTeam barT') fun c => { c with frozen := true }) with preempts := [(0, [0])] }
theorem witness_PreemptionKeepsState_barred : ∃ (s : State) (core k : Nat) (tm : Team), Keyed s ∧ core < s.cores.length ∧
    (s.core core).frozen = true ∧ (s.core core).out = false ∧ 0 < s.spares.getD (dieOf core) 0 ∧ s.svUp 2 = true ∧ coreMovable s core = true ∧
    s.team? k = some tm ∧ core ∈ tm.cores ∧ tm.place = .saved ∧ tm.moving = true ∧ ctxPreempted s (launchT s tm).ctx = true :=
  ⟨barS', 0, 1, barT', keyed (by decide +kernel), by decide +kernel⟩

theorem witness_BarriersAndWaitsRelease_islands : ∃ (i : Instr) (s : State) (w : Warp), s.warp? w.wid = some w ∧
    (∀ k ∈ w.islands, awake s (s.island w.core w.room k)) ∧ (i = .waitRelease w.wid ∨ i = .timedWaitExpiry w.wid) :=
  ⟨.waitRelease 2, P, W0, by decide +kernel, fun k hk =>
    awakeIs (List.all_eq_true.mp (by decide +kernel : (W0.islands.all fun k => awakeB P (P.island W0.core W0.room k)) = true) k hk), .inl rfl⟩

theorem witness_WorkQueueAccess_bit : ∃ f j hook s iss w l u, Ready (.wqenq f j hook) s iss w ∧ (let rd := rdOf (.wqenq f j hook) s w iss;
    wqChk f rd = .ok ∧ evalLanes rd f = [l] ∧ s.wqUnits[(val32 rd f.a l).toNat]? = some u) :=
  ⟨{ FZ with b := .reg 20 }, 31, 2, (({ P1 with wqUnits := [{ owner := some (0, 0), entries := [5] }] } : State).putWarp (WR [(20, 1), (21,
    2), (22, 3), (23, 4)])), I1, WR [(20, 1), (21, 2), (22, 3), (23, 4)], 0, { owner := some (0, 0), entries := [5] }, ready (by decide +kernel),
    by decide +kernel⟩

theorem witness_WorkQueueAccess_quad : ∃ f poll hook s iss w l u, Ready (.wqdeq f poll hook) s iss w ∧
    (let rd := rdOf (.wqdeq f poll hook) s w iss; wqChk f rd = .ok ∧ evalLanes rd f = [l] ∧ s.wqUnits[(val32 rd f.a l).toNat]? = some u ∧
    u.waiters = [] ∧ hook < w.hooks.length ∧ (∀ h ∈ w.hooks, ∀ x ∈ h.items, x.id ≠ s.nextId)) :=
  ⟨FZ, true, 2, (({ P1 with wqUnits := [{ owner := some (0, 0), entries := [5] }] } : State).putWarp (WR [(20, 1), (21, 2), (22, 3), (23,
    4)])), I1, WR [(20, 1), (21, 2), (22, 3), (23, 4)], 0, { owner := some (0, 0), entries := [5] }, ready (by decide +kernel),
    by decide +kernel⟩

theorem witness_TeamsArePlaced_merge : ∃ (s : State) (core : Nat) (room : Nat) (s1 : State) (n : _) (slices : _) (w : Warp) (g : Gang) (img : _) (is : _),
    ((s.core core).rooms.getD room {}).prim = none ∧ s1 = roomBoundaries s core room ∧ Keyed s1 ∧ roomCtxs s1 core room none = [(n, w.wid,
    slices)] ∧ s1.warp? w.wid = some w ∧ w.gangAt slices = some g ∧ gangStatus s1 w g = ([], .ok) ∧ nextBundle s1 w g = .syls img is ∧
    is ≠ [] :=
  ⟨ready5, 0, 0, roomBoundaries ready5 0 0, 0, [0, 1, 2, 3], warp5, gang5, nopLine, [.nopV 0], by decide +kernel, rfl, keyed (by decide +kernel),
    by decide +kernel, by decide +kernel, by decide +kernel, by decide +kernel, by decide +kernel, by decide⟩

/-- Core 0 with its first island as given. -/
def islS (i : Island) : State := withCore P fun c => { c with islands := i :: List.replicate 15 {} }

theorem witness_PowerManagement_0 : ∃ (s s' : State) (core room k : Nat), (core < s.cores.length ∧ (s.core core).islands.length = 16 ∧ room < 4 ∧
    k < 4 ∧ (s.island core room k).mode = .nom ∧ (s.island core room k).heldNom = false ∧ ntForbidden s core room k = false ∧
    timens s < s.slopeDown) ∧ core < s'.cores.length ∧ (s'.core core).islands.length = 16 ∧ (s'.island core room k).mode = .nom ∧
    (s'.island core room k).heldNom = false ∧ ntForbidden s' core room k = false ∧ s'.slopeDown ≤ timens s' :=
  ⟨{ P with slopeDown := 1 }, P, 191, 3, 3, by decide +kernel⟩

theorem witness_PowerManagement_2 : ∃ (s s' : State) (core room k : Nat), (core < s.cores.length ∧ (s.core core).islands.length = 16 ∧ room < 4 ∧
    k < 4 ∧ (s.island core room k).mode.isRet = false ∧ (s.island core room k).heldNom = false ∧ islandIdle s core room k = true ∧
    timens s < s.slopeDown) ∧ core < s'.cores.length ∧ (s'.core core).islands.length = 16 ∧ (s'.island core room k).mode.isRet = false ∧
    (s'.island core room k).heldNom = false ∧ islandIdle s' core room k = true ∧ s'.slopeDown ≤ timens s' :=
  ⟨{ P with slopeDown := 1 }, P, 191, 3, 3, by decide +kernel⟩

theorem witness_PowerManagement_held : ∃ (s : State) (core room k : Nat), (s.island core room k).heldNom = true :=
  ⟨islS { heldNom := true }, 0, 0, 0, by decide +kernel⟩

theorem witness_PowerManagement_3 : ∃ (s : State) (core : Nat) (room : Nat) (k : Nat) (wasNt : _), core < s.cores.length ∧
    (s.core core).islands.length = 16 ∧ room < 4 ∧ k < 4 ∧ (s.island core room k).mode = .ret wasNt ∧ (s.island core room k).waking = true :=
  ⟨islS { mode := .ret true, waking := true }, 0, 0, 0, true, by decide +kernel⟩

theorem witness_PowerManagement_asleep : ∃ (s : State) (core room k : Nat), (s.island core room k).waking = false :=
  ⟨islS { mode := .ret true }, 0, 0, 0, by decide +kernel⟩

theorem witness_PowerManagement_plan : ∃ (s : State) (cluster : Nat) (stop : Nat) (c : Cluster) (p : Plan), s.svUp 6 = true ∧ cluster < 24 ∧
    s.clusters[cluster]? = some c ∧ stop ≤ 500 ∧ c.stop = none ∧ (∀ n, c.lastNs = some n → n + 10000 ≤ timens s) ∧
    tget s.plans cluster = some p :=
  ⟨{ up P with base := 12500, clusters := [{ lastNs := some 0 }], plans := [(0, ⟨0x800, [], []⟩)] }, 0, 500, { lastNs := some 0 }, ⟨0x800, [], []⟩,
    by decide +kernel, by decide +kernel, by decide +kernel, by decide, rfl, by intro n h; injection h with h; subst h; decide +kernel,
    by decide +kernel⟩

theorem witness_PowerManagement_tooSoon : ∃ (s : State) (cluster : Nat) (c : Cluster) (n : Nat), s.clusters[cluster]? = some c ∧
    c.lastNs = some n ∧ timens s < n + 10000 :=
  ⟨{ up P with base := 12499, clusters := [{ lastNs := some 0 }] }, 0, { lastNs := some 0 }, 0, by decide +kernel⟩

theorem witness_PowerManagement_6 : ∃ (s : State) (core : Nat) (room : Nat) (k : Nat), core < 192 ∧ core < s.cores.length ∧
    (s.core core).islands.length = 16 ∧ room < 4 ∧ k < 4 ∧
    (EccSite.lineBuf = .filler ∨ EccSite.lineBuf = .lineBuf ∧ attributed s (s.island core room k) = true) :=
  ⟨islS { mode := .nt none }, 0, 0, 0, by decide +kernel⟩

theorem witness_PowerManagement_7 : ∃ (s : State) (core : Nat) (room : Nat) (k : Nat) (w : Warp) (opnd : Nat), Keyed s ∧ core < 192 ∧
    core < s.cores.length ∧ (s.core core).islands.length = 16 ∧ room < 4 ∧ k < 4 ∧ attributed s (s.island core room k) = true ∧
    s.warp? w.wid = some w ∧ opnd < 776 :=
  ⟨islS { mode := .ret false }, 0, 0, 0, W0, 775, keyed (by decide +kernel), by decide +kernel⟩

theorem witness_PowerManagement_8 : ∃ (s : State) (core : Nat) (room : Nat) (k : Nat) (lost : EccSite), core < 192 ∧ core < s.cores.length ∧ room < 4 ∧
    k < 4 ∧ attributed s (s.island core room k) = false ∧ lost ≠ .filler ∧ (s.core core).frozen = false :=
  ⟨P, 191, 3, 3, .lineBuf, by decide +kernel⟩

theorem witness_PowerManagement_snapshot : ∃ (s : State), s.svUp 7 = true := ⟨up P, by decide +kernel⟩

/-- Supervisor core 7 in U mode. -/
def umode : State := { P with booted := true, svs := List.replicate 7 { inReset := false } ++ [{ inReset := false, mode := 0 }] }

theorem witness_SupervisorComplex_beat : ∃ (s s' : State) (core : Nat) (v v' : Sv), s.booted = true ∧ s.svs[core]? = some v ∧ v.inReset = false ∧
    v.reaches = true ∧ s'.booted = true ∧ s'.svs[core]? = some v' ∧ v'.inReset = false ∧ v'.reaches = false :=
  ⟨up P, umode, 7, { inReset := false }, { inReset := false, mode := 0 }, by decide +kernel⟩

theorem witness_SupervisorComplex_uStore : ∃ (s : State) (src dst mb : Nat) (u : Sv), src < 8 ∧ dst < 8 ∧ mb < 16 ∧ s.svs[src]? = some u ∧
    u.reaches = false :=
  ⟨umode, 7, 7, 15, { inReset := false, mode := 0 }, by decide +kernel⟩

theorem witness_SupervisorComplex_10 : ∃ (s : State) (src : Nat) (dst : Nat) (mb : Nat), src < 8 ∧ dst < 8 ∧ mb < 16 ∧
    (s.sv src).reaches = true ∧ s.busy.length = 8 ∧ stillToCome s (lowerSender src dst mb) = false :=
  ⟨up P, 7, 7, 15, by decide +kernel⟩

theorem witness_SupervisorComplex_full : ∃ (s : State) (src dst mb : Nat) (m : Mailbox), src < 8 ∧ dst < 8 ∧ mb < 16 ∧ (s.sv src).reaches = true ∧
    s.busy.length = 8 ∧ stillToCome s (lowerSender src dst mb) = false ∧ tget s.mailboxes (16 * dst + mb) = some m ∧ m.full = true :=
  ⟨up { P with mailboxes := [(127, { full := true, msg := 7 })] }, 0, 7, 15, { full := true, msg := 7 }, by decide +kernel⟩

theorem witness_SupervisorComplex_lower : ∃ (s : State) (src : Nat) (dst : Nat) (mb : Nat), src < 8 ∧ dst < 8 ∧ mb < 16 ∧
    (s.sv src).reaches = true ∧ stillToCome s (lowerSender src dst mb) = true :=
  ⟨up { P with inputs := [⟨0, .mailboxStore 6 7 15 0⟩] }, 7, 7, 15, by decide +kernel⟩

theorem witness_SupervisorComplex_uAck : ∃ (s : State) (core : Nat) (u : Sv), s.svs[core]? = some u ∧ u.reaches = false :=
  ⟨umode, 7, { inReset := false, mode := 0 }, by decide +kernel⟩

theorem witness_SupervisorComplex_11 : ∃ (s : State) (core : Nat) (mb : Nat) (m : Mailbox) (u : Sv), tget s.mailboxes (16 * core + mb) = some m ∧
    s.svs[core]? = some u ∧ u.reaches = true :=
  ⟨up { P with mailboxes := [(127, { full := true, msg := 7 })] }, 7, 15, { full := true, msg := 7 }, { inReset := false }, by decide +kernel⟩

theorem witness_SupervisorComplex_12 : ∃ (s : State) (core mode : Nat) (u : Sv), s.svUp core = true ∧ s.svs[core]? = some u ∧ (mode = 1 ∨ mode = 3) :=
  ⟨up P, 7, 3, { inReset := false }, by decide +kernel⟩

theorem witness_SupervisorComplex_unit : ∃ (s : State) (core mode reg n : Nat) (u : Sv) (x : WqUnit), s.svUp core = true ∧ s.svs[core]? = some u ∧
    (mode = 1 ∨ mode = 3) ∧ reg = 0x400 + n ∧ n < 128 ∧ s.wqUnits[n]? = some x :=
  ⟨up P, 2, 1, 0x47F, 127, { inReset := false }, {}, by decide +kernel⟩

theorem witness_SupervisorComplex_queue : ∃ (s : State) (core mode reg qid k : Nat) (u : Sv) (q : Queue), s.svUp core = true ∧
    s.svs[core]? = some u ∧ (mode = 1 ∨ mode = 3) ∧ reg = 0x10000 + 4 * qid + k ∧ qid < 1024 ∧ k < 4 ∧ tget s.queues qid = some q :=
  ⟨PQ, 1, 3, 0x10003, 0, 3, { inReset := false }, queue0, by decide +kernel⟩

theorem witness_SupervisorComplex_keys : ∃ (reg reg' n n' h : Nat), reg = 2 ^ 20 + 2 * n + h ∧ n < 2 ^ 16 ∧ h < 2 ∧
    reg' = 2 ^ 26 + 2 * n' + h ∧ n' < 2 ^ 25 :=
  ⟨2 ^ 20 + 131071, 2 ^ 27 - 1, 65535, 2 ^ 25 - 1, 1, by decide +kernel⟩

theorem witness_SupervisorComplex_trhand : ∃ (s : State) (core mode reg wid : Nat) (u : Sv) (w : Warp), s.svUp core = true ∧ s.svs[core]? = some u ∧
    (mode = 1 ∨ mode = 3) ∧ reg = 2 ^ 40 + wid ∧ s.warp? wid = some w ∧ w.stopped = true ∧ w.wid = wid :=
  ⟨up (P.putWarp { W0 with stopped := true }), 4, 1, 2 ^ 40 + 2, 2, { inReset := false }, { W0 with stopped := true }, by decide +kernel,
    by decide +kernel, .inl rfl, rfl, by decide +kernel⟩

theorem witness_StepRunsTheNextEvent_1 : ∃ (s : State) (pre : _) (p : Pend) (post : _), s.issuing = [] ∧ s.agenda = [] ∧
    s.inputs = pre ++ p :: post ∧ p.due ≤ s.base ∧ lineOrder s p.ev = 0 ∧ (∀ q ∈ pre, q.due ≤ s.base → lineOrder s q.ev ≠ 0) :=
  ⟨{ State.reset with inputs := [⟨1, .fillerEnd 1⟩, ⟨0, .mailboxStore 7 0 0 0⟩, ⟨0, .fillerEnd 0⟩] },
    [⟨1, .fillerEnd 1⟩, ⟨0, .mailboxStore 7 0 0 0⟩], ⟨0, .fillerEnd 0⟩, [], rfl, rfl, rfl, by decide, by decide +kernel,
    by decide +kernel⟩

theorem witness_StepRunsTheNextEvent_2 : ∃ (s : State), s.issuing = [] ∧ s.agenda = [] ∧ (∀ q ∈ s.inputs, q.due ≤ s.base → lineOrder s q.ev ≠ 0) :=
  ⟨{ State.reset with inputs := [⟨1, .fillerEnd 1⟩, ⟨0, .mailboxStore 7 0 0 0⟩] }, rfl, rfl, by decide +kernel⟩

end Sys2Proof.Tests
end

section
/-! Bytes of a line after writes to it. -/

namespace Sys2Proof.Proofs
open Sys2Proof.Machine

/-! ## A byte of a line (R7) -/

theorem getLsbD_lineByte (d : BitVec 1024) (i j : Nat) : (lineByte d i).getLsbD j = (decide (j < 8) && d.getLsbD (8 * i + j)) := by
  rw [lineByte, BitVec.getLsbD_ofNat, Nat.testBit_div_two_pow, Nat.add_comm]
  rfl

theorem getLsbD_lineSet (d : BitVec 1024) (i : Nat) (b : Byte) (j : Nat) :
    (lineSet d i b).getLsbD j =
      (decide (j < 1024) && if 8 * i ≤ j ∧ j < 8 * i + 8 then b.getLsbD (j - 8 * i) else d.getLsbD j) := by
  have h255 : (255 : Nat) = 2 ^ 8 - 1 := rfl
  have hb : ∀ k, 8 ≤ k → b.toNat.testBit k = false := fun k hk => BitVec.getLsbD_of_ge b k hk
  simp only [lineSet, BitVec.getLsbD_or, BitVec.getLsbD_and, BitVec.getLsbD_not, BitVec.getLsbD_ofNat, Nat.testBit_mul_two_pow, h255,
    Nat.testBit_two_pow_sub_one]
  by_cases hj : j < 1024
  · by_cases hi : 8 * i ≤ j
    · by_cases hk : j < 8 * i + 8
      · simp [hj, hi, hk, show j - 8 * i < 8 by omega, BitVec.getLsbD]
      · simp [hj, hi, hk, show ¬j - 8 * i < 8 by omega, hb (j - 8 * i) (by omega)]
    · simp [hj, hi]
  · simp [hj, BitVec.getLsbD_of_ge d j (by omega)]

theorem lineByte_lineSet_same (d : BitVec 1024) {i : Nat} (b : Byte) (h : i < 128) : lineByte (lineSet d i b) i = b := by
  apply BitVec.eq_of_getLsbD_eq
  intro j hj
  rw [getLsbD_lineByte, getLsbD_lineSet, if_pos (by omega)]
  simp [hj, show 8 * i + j < 1024 by omega]

theorem lineByte_lineSet_other (d : BitVec 1024) {i j : Nat} (b : Byte) (h : j ≠ i) : lineByte (lineSet d i b) j = lineByte d j := by
  apply BitVec.eq_of_getLsbD_eq
  intro k hk
  rw [getLsbD_lineByte, getLsbD_lineByte, getLsbD_lineSet, if_neg (by omega)]
  by_cases hw : 8 * j + k < 1024
  · simp [hw]
  · simp [hw, BitVec.getLsbD_of_ge d (8 * j + k) (by omega)]

/-! ## Runs of bytes written into a line -/

theorem lineByte_putBytes_other (d : BitVec 1024) {ws : List (Nat × Byte)} {j : Nat} (h : ∀ w ∈ ws, w.1 ≠ j) :
    lineByte (putBytes d ws) j = lineByte d j := by
  induction ws generalizing d with
  | nil => rfl
  | cons w ws ih =>
    obtain ⟨hw, hws⟩ := List.forall_mem_cons.mp h
    exact (ih (lineSet d w.1 w.2) hws).trans (lineByte_lineSet_other d w.2 hw.symm)

theorem mem_bytesFrom {i n v : Nat} {w : Nat × Byte} (h : w ∈ bytesFrom i n v) : i ≤ w.1 ∧ w.1 < i + n := by
  induction n generalizing i v with
  | zero => cases h
  | succ n ih =>
    rcases List.mem_cons.mp h with rfl | h
    · simp
    · have := ih h
      omega

theorem lineByte_putBytes_bytesFrom_outside (d : BitVec 1024) {i n v j : Nat} (h : j < i ∨ i + n ≤ j) :
    lineByte (putBytes d (bytesFrom i n v)) j = lineByte d j :=
  lineByte_putBytes_other d fun w hw => by
    have := mem_bytesFrom hw
    omega

theorem lineByte_putBytes_bytesFrom (d : BitVec 1024) {i n v k : Nat} (hk : k < n) (hn : i + n ≤ 128) :
    lineByte (putBytes d (bytesFrom i n v)) (i + k) = BitVec.ofNat 8 (v / 256 ^ k) := by
  induction n generalizing d i v k with
  | zero => omega
  | succ n ih =>
    change lineByte (putBytes (lineSet d i (BitVec.ofNat 8 v)) (bytesFrom (i + 1) n (v / 256))) (i + k) = _
    cases k with
    | zero =>
      rw [lineByte_putBytes_bytesFrom_outside _ (by omega), Nat.add_zero, lineByte_lineSet_same d _ (by omega)]
      simp
    | succ k => rw [show i + (k + 1) = i + 1 + k by omega, ih _ (by omega) (by omega), Nat.div_div_eq_div_mul, ← Nat.pow_succ']

end Sys2Proof.Proofs
end

section
/-! A plain line at its home: what bringing it there keeps, what a write puts there, and what a read returns. -/

namespace Sys2Proof.Proofs
open Sys2Proof.Machine Sys2Proof.Claims

/-! ## Charges and evictions to come leave the homes as they are -/

/-- HBM, the lines of L2, which bytes are undefined or poisoned, and the work in flight are as before. -/
structure HomesSame (s t : State) : Prop where
  hbm : t.hbm = s.hbm
  l2 : t.l2 = s.l2
  undefined : t.undefined = s.undefined
  poison : t.poison = s.poison
  ops : t.ops = s.ops

theorem HomesSame.refl (s : State) : HomesSame s s := ⟨rfl, rfl, rfl, rfl, rfl⟩

theorem HomesSame.trans {s t u : State} (h : HomesSame s t) (k : HomesSame t u) : HomesSame s u :=
  ⟨k.hbm.trans h.hbm, k.l2.trans h.l2, k.undefined.trans h.undefined, k.poison.trans h.poison, k.ops.trans h.ops⟩

theorem charge_homesSame (s : State) (ctx k n : Nat) : HomesSame s (charge s ctx k n) := by
  unfold charge
  split <;> exact ⟨rfl, rfl, rfl, rfl, rfl⟩

theorem uncharge_homesSame (s : State) (ctx k n : Nat) : HomesSame s (uncharge s ctx k n) := by
  unfold uncharge
  split <;> exact ⟨rfl, rfl, rfl, rfl, rfl⟩

theorem noteFill_homesSame (s : State) (line : Nat) (who : Asker) : HomesSame s (noteFill s line who) :=
  ((charge_homesSame ..).trans ((charge_homesSame ..).trans (charge_homesSame ..))).trans ⟨rfl, rfl, rfl, rfl, rfl⟩

theorem chargeHit_homesSame (s : State) (line : Nat) (who : Asker) : HomesSame s (chargeHit s line who) := by
  unfold chargeHit
  split
  · exact (((uncharge_homesSame ..).trans ((uncharge_homesSame ..).trans (uncharge_homesSame ..))).trans (charge_homesSame ..)).trans
      (noteFill_homesSame ..)
  · exact charge_homesSame ..

theorem used_homeKept (s : State) : HomeKept s s.used := ⟨id, rfl, rfl, rfl, rfl⟩

theorem modOp_homeKept (s : State) (id : Nat) (f : Op → Op) : HomeKept s (s.modOp id f) := ⟨fun w => w, rfl, rfl, rfl, rfl⟩

theorem laterFree_homeKept (s : State) (n : Nat) (i : Instr) : HomeKept s (s.laterFree n i) := ⟨id, rfl, rfl, rfl, rfl⟩

/-- What a full L2 gives up leaves it in a step of its own. -/
theorem trimL2_same (s : State) : HomesSame s (trimL2 s) ∧ HomeKept s (trimL2 s) := by
  unfold trimL2
  refine foldl_keeps (P := fun t => HomesSame s t ∧ HomeKept s t) ?_ _ s ⟨.refl s, .refl s⟩
  intro t die ⟨hs, hk⟩
  split
  · split
    · exact ⟨hs.trans ⟨rfl, rfl, rfl, rfl, rfl⟩, hk.trans ⟨id, rfl, rfl, rfl, rfl⟩⟩
    · exact ⟨hs, hk⟩
  · exact ⟨hs, hk⟩

theorem HomesSame.l2Data {s t : State} (h : HomesSame s t) (line : Nat) : l2Data t line = l2Data s line := by
  unfold Machine.l2Data hbmLine
  rw [h.l2, h.hbm]

theorem HomesSame.poisonedAt {s t : State} (h : HomesSame s t) (line i : Nat) : poisonedAt t line i = poisonedAt s line i := by
  unfold Machine.poisonedAt
  rw [h.l2, h.poison]

theorem l2Data_putLine (s : State) (line : Nat) (l : L2Line) (k : Nat) :
    l2Data { s with l2 := tset s.l2 line l } k = if k = line then l.data else l2Data s k := by
  unfold l2Data hbmLine
  rw [tget_tset]
  by_cases hk : k = line <;> simp [hk]

theorem l2Data_of_tget {s : State} {line : Nat} {l : L2Line} (h : tget s.l2 line = some l) : l2Data s line = l.data := by
  simp [l2Data, h]

theorem byteAt_eq_of_l2Data {s t : State} {a : Nat} (h : l2Data t (a / 128) = l2Data s (a / 128)) : byteAt t a = byteAt s a := by
  unfold byteAt
  rw [h]

/-! ## A plain line brought to its home (R248) -/

/-- A line is in L2, and no home's data, no poison of the line and no undefined byte has changed on its way there. -/
structure LineBrought (s t : State) (line : Nat) : Prop where
  present : ∃ l, tget t.l2 line = some l
  data : ∀ k, l2Data t k = l2Data s k
  poisoned : ∀ i, poisonedAt t line i = poisonedAt s line i
  undefined : t.undefined = s.undefined
  ops : t.ops = s.ops

theorem LineBrought.andSame {s t u : State} {line : Nat} (h : LineBrought s t line) (k : HomesSame t u) : LineBrought s u line where
  present := k.l2 ▸ h.present
  data n := (k.l2Data n).trans (h.data n)
  poisoned i := (k.poisonedAt line i).trans (h.poisoned i)
  undefined := k.undefined.trans h.undefined
  ops := k.ops.trans h.ops

theorem LineBrought.byteAt {s t : State} {line : Nat} (h : LineBrought s t line) (a : Nat) : byteAt t a = byteAt s a :=
  byteAt_eq_of_l2Data (h.data _)

theorem LineBrought.memNat {s t : State} {line : Nat} (h : LineBrought s t line) (a n : Nat) : memNat t a n = memNat s a n := by
  induction n generalizing a with
  | zero => rfl
  | succ n ih => simp only [Claims.memNat, h.byteAt, ih]

theorem poisonedAt_of_plainLine {s : State} {line i : Nat} (h : plainLine s line) (hi : i < 128) : poisonedAt s line i = false := by
  obtain ⟨h0, h64, _⟩ := h
  by_cases hb : i < 64
  · simpa only [Machine.poisonedAt, show i / 64 = 0 / 64 by omega] using h0
  · simpa only [Machine.poisonedAt, show i / 64 = 64 / 64 by omega] using h64

/-- The copy of a plain line in L2 is unencrypted and not spent. -/
theorem copy_of_plainLine {s : State} {line : Nat} {l : L2Line} (h : plainLine s line) (hl : tget s.l2 line = some l) :
    l.enc = false ∧ l.spent = none :=
  h.2.2 l hl

theorem dropSpent_plainLine {s : State} {line : Nat} {p : L2Line → Bool} (h : plainLine s line)
    (hp : ∀ l, l.spent = none → p l = false) : dropSpent s line p = s := by
  unfold dropSpent
  split
  · rename_i l hl
    rw [hp l (copy_of_plainLine h hl).2]
    rfl
  · rfl

theorem makeRoom_of_place {s : State} {line : Nat} (h : dieFull s (dieOfLine line) = false) : makeRoom s line = s := by
  simp [makeRoom, h]

/-- A fill of a line that is not in L2 takes what HBM holds. -/
theorem fillLine_brings {s : State} {line : Nat} (keyid : Nat) (low : Bool) (h : tget s.l2 line = none) :
    LineBrought s (fillLine s line false keyid low) line where
  present := ⟨_, tget_tset_same ..⟩
  data k := by
    refine (l2Data_putLine s line _ k).trans ?_
    by_cases hk : k = line
    · subst hk
      simp [l2Data, h]
    · exact if_neg hk
  poisoned i := by simp [poisonedAt, fillLine, h]
  undefined := rfl
  ops := rfl

/-- An unencrypted access brings a plain line with a place in L2 to its home: by a hit, or by a fill from HBM. -/
theorem homeLine_brings {s : State} {line : Nat} (keyid : Nat) (who : Asker) (low : Bool) (h : plainLine s line) (hr : roomFor s line) :
    LineBrought s (homeLine s line false keyid who low) line := by
  have hd : dropSpent s line (·.spent.any (· < s.base)) = s := dropSpent_plainLine h fun l hl => by simp [hl]
  unfold homeLine
  simp only [hd]
  split
  · next l hl =>
    rw [if_pos (by simp [(copy_of_plainLine h hl).1])]
    exact LineBrought.andSame ⟨⟨l, hl⟩, fun _ => rfl, fun _ => rfl, rfl, rfl⟩ (chargeHit_homesSame ..)
  · next hl =>
    rw [makeRoom_of_place (hr.resolve_left (by simp [hl]))]
    exact (fillLine_brings keyid low hl).andSame (noteFill_homesSame ..)

theorem writeLine_brings {s : State} {line : Nat} (keyid : Nat) (who : Asker) (low : Bool) (h : plainLine s line) (hr : roomFor s line) :
    LineBrought s (writeLine s line false keyid who low) line := by
  unfold writeLine
  rw [dropSpent_plainLine h fun l hl => by simp [hl]]
  exact homeLine_brings keyid who low h hr

/-! ## A write to a plain line (R248, R288) -/

/-- The bytes of a list are written into a line, in order, and every other line holds what it did. -/
structure LineWritten (s t : State) (line : Nat) (ws : List (Nat × Byte)) : Prop where
  data : l2Data t line = putBytes (l2Data s line) ws
  others : ∀ k, k ≠ line → l2Data t k = l2Data s k
  ops : t.ops = s.ops

/-- A write to a line in L2 that is not poisoned puts its bytes there, whatever ZP is. -/
theorem homePut_writes {s : State} {line : Nat} (ctx : Nat) (zp : Bool) (rc : Nat) (ws : List (Nat × Byte))
    (hp : ∃ l, tget s.l2 line = some l) (h0 : poisonedAt s line 0 = false) (h64 : poisonedAt s line 64 = false) :
    LineWritten s (homePut s line ctx zp rc ws).s line ws := by
  obtain ⟨l, hl⟩ := hp
  have hit : ([0, 1].filter fun b => (touchesBlock ws b || ([] : List Nat).contains b) && poisonedAt s line (64 * b)) = [] := by
    simp [h0, h64]
  unfold homePut
  simp only [hit]
  simp only [List.filter_nil, ite_self, List.foldl_nil, List.flatMap_nil, List.nil_append, List.contains_nil, Bool.not_false,
    List.filter_true, hl]
  cases ws with
  | nil => exact ⟨rfl, fun _ _ => rfl, rfl⟩
  | cons w ws =>
    exact ⟨(l2Data_putLine s line _ line).trans (by simp [l2Data_of_tget hl]),
      fun k hk => (l2Data_putLine s line _ k).trans (if_neg hk), rfl⟩

theorem homeWrite_writes {s : State} {line : Nat} (keyid : Nat) (who : Asker) (low zp : Bool) (rc : Nat) (ws : List (Nat × Byte))
    (h : plainLine s line) (hr : roomFor s line) : LineWritten s (homeWrite s line false keyid who low zp rc ws).s line ws := by
  have b := writeLine_brings keyid who low h hr
  have unpoisoned : ∀ k < 128, poisonedAt (writeLine s line false keyid who low) line k = false :=
    fun k hk => (b.poisoned k).trans (poisonedAt_of_plainLine h hk)
  have w := homePut_writes who.ctx zp rc ws b.present (unpoisoned 0 (by omega)) (unpoisoned 64 (by omega))
  exact ⟨b.data line ▸ w.data, fun k hk => (w.others k hk).trans (b.data k), w.ops.trans b.ops⟩

theorem LineWritten.byteAt_inside {s t : State} {pa n v i : Nat} (h : LineWritten s t (pa / 128) (bytesFrom (pa % 128) n v))
    (hn : pa % 128 + n ≤ 128) (hi : i < n) : byteAt t (pa + i) = BitVec.ofNat 8 (v / 256 ^ i) := by
  unfold byteAt
  rw [show (pa + i) / 128 = pa / 128 by omega, show (pa + i) % 128 = pa % 128 + i by omega, h.data]
  exact lineByte_putBytes_bytesFrom _ hi hn

theorem LineWritten.byteAt_outside {s t : State} {pa n v a : Nat} (h : LineWritten s t (pa / 128) (bytesFrom (pa % 128) n v))
    (ha : a < pa ∨ pa + n ≤ a) : byteAt t a = byteAt s a := by
  by_cases hl : a / 128 = pa / 128
  · unfold byteAt
    rw [hl, h.data]
    exact lineByte_putBytes_bytesFrom_outside _ (by omega)
  · exact byteAt_eq_of_l2Data (h.others _ hl)

/-! ## A read of a plain line (R287) -/

/-- Engine work that reads finds undefined only bytes that every reader does (R311). -/
theorem claimMask_own_subset (s : State) (line : Nat) (atomic : Bool) (own : Option Nat) (i : Nat)
    (h : (claimMask s line atomic own).getLsbD i = true) : (claimMask s line atomic none).getLsbD i = true := by
  unfold claimMask at *
  refine List.foldl_rel (r := fun m n : BitVec 128 => m.getLsbD i = true → n.getLsbD i = true) id (fun e _ m n hmn => ?_) h
  by_cases ha : (atomic && e.2.kind.adds) = true
  · simpa [ha] using hmn
  · by_cases ho : own.any (· ≤ e.1) = true
    · simpa [ha, ho] using fun hm => .inl (hmn hm)
    · simpa [ha, ho] using Or.imp_left hmn

theorem readByte_defined {s : State} {line : Nat} (own : Option Nat) (i : Nat) (h : undefMask s line = 0) :
    readByte s own line i = byteAt s (128 * line + i) := by
  obtain ⟨hl, hc⟩ : lostMask s line = 0 ∧ claimMask s line false none = 0 := BitVec.or_eq_zero_iff.mp h
  have hown : (claimMask s line false own).getLsbD i = false := by
    by_contra hne
    have := claimMask_own_subset s line false own i (by simpa using hne)
    simp [hc] at this
  simp [readByte, hl, hown]

theorem readBytes_eq_memNat {s : State} {line : Nat} (own : Option Nat) (zero : Bool) {i n : Nat} (hn : i + n ≤ 128)
    (hp : ∀ k < 128, poisonedAt s line k = false) (hu : undefMask s line = 0) :
    readBytes s own line zero i n = memNat s (128 * line + i) n := by
  induction n generalizing i with
  | zero => rfl
  | succ n ih => simp [readBytes, memNat, hp i (by omega), readByte_defined own i hu, ih (i := i + 1) (by omega), Nat.add_assoc]

theorem undefMask_congr {s t : State} (line : Nat) (h : t.undefined = s.undefined) (ho : t.ops = s.ops) :
    undefMask t line = undefMask s line := by
  simp only [undefMask, lostMask, claimMask, h, ho]

/-- A counted read changes no byte of any line (R249). -/
theorem countRead_same (s : State) (line : Nat) :
    (∀ k, l2Data (countRead s line) k = l2Data s k) ∧ (countRead s line).ops = s.ops := by
  unfold countRead
  split
  · next l hl =>
    split
    · exact ⟨fun _ => rfl, rfl⟩
    · refine ⟨fun k => (l2Data_putLine s line _ k).trans ?_, rfl⟩
      by_cases hk : k = line
      · subst hk
        simp [l2Data_of_tget hl, L2Line.read]
      · exact if_neg hk
  · exact ⟨fun _ => rfl, rfl⟩

end Sys2Proof.Proofs
end

section
/-! An access of one lane performed at the home of its line. -/

namespace Sys2Proof.Proofs
open Sys2Proof.Machine Sys2Proof.Claims

/-- The record of a piece of work when its access has no line left to perform. -/
def withoutTodo (m : MemOp) : Op → Op := fun o => { o with kind := .mem { m with todo := [] } }

/-- What the performance of the last line of an access leads to: its record has no line left, and its completion is due. -/
def lastPerformed (o : Op) (r : State × MemOp) : State :=
  lastLine (trimL2 (r.1.modOp o.id (withoutTodo r.2))) o { r.2 with todo := [] }

/-- An access whose one line is left, with no older access of its warp to the same bytes, is performed there (R290, R377). -/
theorem execHomeAccessPerform_lastLine {s : State} {o : Op} {m : MemOp} {n : Nat} (ho : tget s.ops o.id = some o) (hk : o.kind = .mem m)
    (ht : m.todo = [2 * n]) (hf : olderFirst s o (m.ranges m.todo) = false) :
    exec (.homeAccessPerform o.id (2 * n)) s = .next (lastPerformed o (performLine s o m (2 * n))) := by
  change execHomeAccessPerform o.id (2 * n) s = _
  rw [ht] at hf
  simp [execHomeAccessPerform, ho, hk, ht, hf, lastPerformed]
  rfl

/-! ### A store -/

/-- One lane is a group of its own. -/
theorem storeLine_oneLane (s : State) (o : Op) (line : Nat) (m : MemOp) (l : MemLane) :
    storeLine s o line false m [l] = storeGroup s o line false m (l.leaf.enc, l.leaf.keyid, l.leaf.zp) [l] := by
  simp [storeLine, wattr, List.eraseDups_cons]

/-- A store of one lane at a plain line of data writes the lane's bytes there (R249: nothing is discarded first). -/
theorem performLine_store {s : State} {o : Op} {m : MemOp} {l : MemLane} (hk : m.kind = .store) (hl : m.lanes = [l])
    (hp : plainLine s (l.pa / 128)) :
    performLine s o m (2 * (l.pa / 128)) =
      storeGroup s o (l.pa / 128) false m (l.leaf.enc, l.leaf.keyid, l.leaf.zp) [l] := by
  rw [← storeLine_oneLane]
  cases hx : tget s.l2 (l.pa / 128) with
  | none => simp [performLine, hk, hl, hx, MemOp.bytesAt]
  | some x => simp [performLine, hk, hl, hx, (copy_of_plainLine hp hx).2, MemOp.bytesAt]

/-- The bytes of the lane are in its line, the warps, the teams and the cellar as they were, and the record is still that of a store. -/
theorem performLine_store_writes {s : State} {o : Op} {m : MemOp} {l : MemLane} (hk : m.kind = .store) (hl : m.lanes = [l])
    (he : l.leaf.enc = false) (hp : plainLine s (l.pa / 128)) (hr : roomFor s (l.pa / 128)) :
    LineWritten s (performLine s o m (2 * (l.pa / 128))).1 (l.pa / 128) (bytesFrom (l.pa % 128) m.bytes l.data.toNat)
      ∧ HomeKept s (performLine s o m (2 * (l.pa / 128))).1 ∧ (performLine s o m (2 * (l.pa / 128))).2.kind = .store := by
  have hw : [l].flatMap (storeBytes m false) = bytesFrom (l.pa % 128) m.bytes l.data.toNat := by simp [storeBytes]
  rw [performLine_store hk hl hp, storeGroup, he, hw]
  exact ⟨homeWrite_writes _ _ _ _ _ _ hp hr, homeWrite_homeKept .., hk⟩

/-! ### A load -/

/-- The record of a load that has taken a lane's bytes as memory holds them (R7). -/
def laneTaken (s : State) (m : MemOp) (l : MemLane) : MemOp :=
  { m with results := m.results ++ [{ lane := l.lane, vals := loadVals m.bytes m.sx (memNat s l.pa m.bytes) }] }

/-- What a load of one lane at a plain line has read: the lane's bytes as memory held them, its read counted. -/
structure LaneLoaded (s : State) (m : MemOp) (l : MemLane) (r : State × MemOp) : Prop where
  record : r.2 = laneTaken s m l
  data : ∀ k, l2Data r.1 k = l2Data s k
  ops : r.1.ops = s.ops
  kept : HomeKept s r.1

/-- Bytes of a line that is neither poisoned nor undefined are read as they are. -/
theorem readLane_plain {s : State} {m : MemOp} {l : MemLane} (leaf : Leaf) (va : Nat) (hn : l.pa % 128 + m.bytes ≤ 128)
    (hp : ∀ k < 128, poisonedAt s (l.pa / 128) k = false) (hu : undefMask s (l.pa / 128) = 0) :
    readLane s (l.pa / 128) m l leaf l.pa m.bytes va false = (s.used, laneTaken s m l) := by
  have hbad : poisonedFrom s (l.pa / 128) (l.pa % 128) m.bytes = [] := by
    simp only [poisonedFrom, List.filter_eq_nil_iff, List.mem_map, List.mem_range]
    rintro _ ⟨i, hi, rfl⟩
    simp [hp (l.pa % 128 + i) (by omega)]
  have hv := readBytes_eq_memNat m.reader true hn hp hu
  rw [Nat.div_add_mod] at hv
  simp [readLane, hbad, hv, laneTaken]

/-- The state with the line of a load's lane brought to its home, unencrypted. -/
def broughtFor (s : State) (o : Op) (m : MemOp) (l : MemLane) : State :=
  homeLine s (l.pa / 128) false l.leaf.keyid (o.asker s) (m.low l.leaf)

theorem broughtFor_brings {s : State} (o : Op) (m : MemOp) {l : MemLane} (hp : plainLine s (l.pa / 128)) (hr : roomFor s (l.pa / 128)) :
    LineBrought s (broughtFor s o m l) (l.pa / 128) ∧ ∀ k < 128, poisonedAt (broughtFor s o m l) (l.pa / 128) k = false := by
  have b : LineBrought s (broughtFor s o m l) (l.pa / 128) := homeLine_brings _ _ _ hp hr
  exact ⟨b, fun k hk => (b.poisoned k).trans (poisonedAt_of_plainLine hp hk)⟩

/-- A load of one lane at a plain line brings the line there and takes the bytes that memory held before. -/
theorem readLanes_plain {s : State} (o : Op) {m : MemOp} {l : MemLane} (he : l.leaf.enc = false) (hn : l.pa % 128 + m.bytes ≤ 128)
    (hp : plainLine s (l.pa / 128)) (hr : roomFor s (l.pa / 128)) (hu : undefMask s (l.pa / 128) = 0) :
    readLanes s o (l.pa / 128) false m none [l] = ((broughtFor s o m l).used, laneTaken s m l) := by
  obtain ⟨b, unpoisoned⟩ := broughtFor_brings o m hp hr
  have hread := readLane_plain l.leaf l.va hn unpoisoned ((undefMask_congr _ b.undefined b.ops).trans hu)
  rw [laneTaken, b.memNat, ← laneTaken] at hread
  rw [← hread]
  simp [readLanes, he, broughtFor]

theorem poisonBlocks_plain {s : State} {line : Nat} (rs : List (Nat × Nat)) (hp : ∀ k < 128, poisonedAt s line k = false) :
    poisonBlocks s line rs = 0 := by
  simp [poisonBlocks, hp 0 (by omega), hp 64 (by omega)]

/-- A load of one lane at a plain line of data has its line brought there, one read of it counted, and nothing charged for poison. -/
theorem performLine_load {s : State} {o : Op} {m : MemOp} {l : MemLane} (hk : m.kind = .load) (hl : m.lanes = [l])
    (he : l.leaf.enc = false) (hn : l.pa % 128 + m.bytes ≤ 128) (hp : plainLine s (l.pa / 128)) (hr : roomFor s (l.pa / 128))
    (hu : undefMask s (l.pa / 128) = 0) :
    performLine s o m (2 * (l.pa / 128)) = (countRead (broughtFor s o m l).used (l.pa / 128), laneTaken s m l) := by
  have hread := readLanes_plain o he hn hp hr hu
  have hblocks : poisonBlocks (broughtFor s o m l).used (l.pa / 128) [(l.pa % 128, m.bytes)] = 0 :=
    poisonBlocks_plain _ (broughtFor_brings o m hp hr).2
  cases hx : tget s.l2 (l.pa / 128) with
  | none => simp [performLine, hk, hl, hx, MemOp.bytesAt, hread, hblocks, ldrFills]
  | some x => simp [performLine, hk, hl, hx, (copy_of_plainLine hp hx).2, MemOp.bytesAt, hread, hblocks, ldrFills]

theorem performLine_load_takes {s : State} {o : Op} {m : MemOp} {l : MemLane} (hk : m.kind = .load) (hl : m.lanes = [l])
    (he : l.leaf.enc = false) (hn : l.pa % 128 + m.bytes ≤ 128) (hp : plainLine s (l.pa / 128)) (hr : roomFor s (l.pa / 128))
    (hu : undefMask s (l.pa / 128) = 0) : LaneLoaded s m l (performLine s o m (2 * (l.pa / 128))) := by
  obtain ⟨b, _⟩ := broughtFor_brings o m hp hr
  obtain ⟨hdata, hops⟩ := countRead_same (broughtFor s o m l).used (l.pa / 128)
  rw [performLine_load hk hl he hn hp hr hu]
  exact ⟨rfl, fun k => (hdata k).trans (b.data k), hops.trans b.ops,
    ((homeLine_homeKept ..).trans (used_homeKept (broughtFor s o m l))).trans (countRead_homeKept ..)⟩

/-! ### After the last line -/

/-- The last performance leaves the homes, the warps, the teams and the cellar as its line left them. -/
theorem lastPerformed_kept (o : Op) (r : State × MemOp) (hk : r.2.kind = .store ∨ r.2.kind = .load) :
    (∀ a, byteAt (lastPerformed o r) a = byteAt r.1 a) ∧ HomeKept r.1 (lastPerformed o r)
      ∧ (lastPerformed o r).ops = tmod r.1.ops o.id (withoutTodo r.2) := by
  obtain ⟨hs, ht⟩ := trimL2_same (r.1.modOp o.id (withoutTodo r.2))
  have hh : HomeKept r.1 (trimL2 (r.1.modOp o.id (withoutTodo r.2))) := (modOp_homeKept ..).trans ht
  rcases hk with hk | hk
  all_goals
    simp only [lastPerformed, lastLine, hk]
    exact ⟨fun a => byteAt_eq_of_l2Data (hs.l2Data _), hh.trans (laterFree_homeKept ..), hs.ops⟩

theorem lastPerformed_store_completes (o : Op) (r : State × MemOp) (hk : r.2.kind = .store) :
    ∃ p ∈ (lastPerformed o r).pending, p.ev = .storeCompletion o.id := by
  simp [lastPerformed, lastLine, hk]

theorem lastPerformed_load_arrives (o : Op) (r : State × MemOp) (hk : r.2.kind = .load) :
    ∃ p ∈ (lastPerformed o r).pending, p.ev = .loadDataArrival o.id ∨ p.ev = .hatchLoadEntryFill o.id := by
  cases hh : r.2.hatch <;> simp [lastPerformed, lastLine, hk, arrivalOf, hh]

/-! ## The statement -/

/-- Settles O37: the line of the access is brought to its home with every byte as it was; there a store puts its bytes, and a load takes
them. -/
theorem homesHoldBytes : Obligations.HomesHoldBytes := by
  unfold Obligations.HomesHoldBytes
  refine ⟨fun s o m l ho hk hkind hl ht _ he _ hn hp hr hf => ?_, fun s o m l ho hk hkind hl ht _ he _ hn hp hr hu hf => ?_⟩
  · obtain ⟨hw, hkept, hstore⟩ := performLine_store_writes (o := o) hkind hl he hp hr
    obtain ⟨hbytes, hkept', _⟩ := lastPerformed_kept o _ (.inl hstore)
    have h := hkept.trans hkept'
    exact ⟨_, execHomeAccessPerform_lastLine ho hk ht hf, fun i hi => (hbytes _).trans (hw.byteAt_inside hn hi),
      fun a ha => (hbytes a).trans (hw.byteAt_outside ha), lastPerformed_store_completes o _ hstore, h.warps, h.teams, h.cellar⟩
  · obtain ⟨hrec, hdata, hops, hkept⟩ := performLine_load_takes (o := o) hkind hl he hn hp hr hu
    have hload : (performLine s o m (2 * (l.pa / 128))).2.kind = .load := by rw [hrec]; exact hkind
    obtain ⟨hbytes, hkept', hops'⟩ := lastPerformed_kept o _ (.inr hload)
    have h := hkept.trans hkept'
    refine ⟨_, withoutTodo (performLine s o m (2 * (l.pa / 128))).2 o, { (performLine s o m (2 * (l.pa / 128))).2 with todo := [] },
      execHomeAccessPerform_lastLine ho hk ht hf, ?_, rfl, rfl, congrArg MemOp.results hrec,
      lastPerformed_load_arrives o _ hload, fun a => (hbytes a).trans (byteAt_eq_of_l2Data (hdata _)), h.warps, h.teams⟩
    rw [hops']
    exact tget_tmod_same _ (hops ▸ ho)

end Sys2Proof.Proofs
end

section
/-! Rounding of a magnitude to a multiple of a unit: which of its two neighbours it gives. -/

namespace Sys2Proof.Proofs
open Sys2Proof.Machine

/-- What R21 and R22 ask of a magnitude rounded to `n` units, given how far that lies above it: the nearest multiple, or the neighbour
on the side of RND. -/
structure RightlyRounded {K : Type} [Ring K] [LinearOrder K] (r : Rnd) (neg : Bool) (n : Nat) (inexact : Bool) (err unit : K) : Prop where
  exact : inexact = false ↔ err = 0
  near : |err| < unit
  nearest : r = .rn → 2 * |err| ≤ unit
  tie : r = .rn → 2 * |err| = unit → n % 2 = 0
  towardZero : r = .rz → err ≤ 0
  down : r = .rd → if neg then 0 ≤ err else err ≤ 0
  up : r = .ru → if neg then err ≤ 0 else 0 ≤ err

theorem RightlyRounded.of_no_error (r : Rnd) (neg : Bool) (n : Nat) : RightlyRounded r neg n false (0 : ℤ) 1 := by
  constructor <;> simp

/-- A finer measure of the same error: a rounding stays right. -/
theorem RightlyRounded.scale {K : Type} [Field K] [LinearOrder K] [IsStrictOrderedRing K] {r : Rnd} {neg : Bool} {n : Nat}
    {inexact : Bool} {err unit : ℤ} (h : RightlyRounded r neg n inexact err unit) {c : K} (hc : 0 < c) :
    RightlyRounded r neg n inexact (c * err) (c * unit) := by
  have habs : |c * (err : K)| = c * (|err| : ℤ) := by rw [abs_mul, abs_of_pos hc, Int.cast_abs]
  have htwice : 2 * |c * (err : K)| = c * (2 * |err| : ℤ) := by rw [habs]; push_cast; ring
  have hle : c * (err : K) ≤ 0 ↔ err ≤ 0 := by
    rw [← neg_nonneg, ← mul_neg, mul_nonneg_iff_of_pos_left hc, neg_nonneg, Int.cast_nonpos]
  have hge : 0 ≤ c * (err : K) ↔ 0 ≤ err := by rw [mul_nonneg_iff_of_pos_left hc, Int.cast_nonneg_iff]
  constructor
  case exact => simp [h.exact, hc.ne']
  case near => simpa only [habs, mul_lt_mul_iff_right₀ hc, Int.cast_lt] using h.near
  case nearest => simpa only [htwice, mul_le_mul_iff_right₀ hc, Int.cast_le] using h.nearest
  case tie => simpa only [htwice, mul_right_inj' hc.ne', Int.cast_inj] using h.tie
  case towardZero => simpa only [hle] using h.towardZero
  case down => simpa only [hle, hge] using h.down
  case up => simpa only [hle, hge] using h.up

/-! ## The choice between the neighbours (R21) -/

/-- `n` units and `rest` of one more, which is 2 × `half`, may give n where RND does not ask for the upper neighbour. -/
theorem RightlyRounded.of_kept {r : Rnd} {neg : Bool} {n rest half : Nat} (h : rest < 2 * half)
    (hn : r = .rn → rest ≤ half ∧ (rest = half → n % 2 = 0)) (hd : r = .rd → neg = true → rest = 0)
    (hu : r = .ru → neg = false → rest = 0) : RightlyRounded r neg n (rest ≠ 0) (0 - rest : ℤ) (2 * half) := by
  have habs : |(0 - rest : ℤ)| = rest := by simp
  constructor
  case exact => simp
  case near => omega
  case nearest => intro hr; have := hn hr; omega
  case tie => intro hr; have := hn hr; omega
  case towardZero => omega
  case down => intro hr; have := hd hr; split <;> simp_all
  case up => intro hr; have := hu hr; split <;> simp_all

/-- The upper neighbour is right where RND does not ask for the lower one. -/
theorem RightlyRounded.of_raised {r : Rnd} {neg : Bool} {n rest half : Nat} (h : rest < 2 * half) (h0 : rest ≠ 0) (hz : r ≠ .rz)
    (hn : r = .rn → half ≤ rest ∧ (rest = half → n % 2 = 1)) (hd : r = .rd → neg = true) (hu : r = .ru → neg = false) :
    RightlyRounded r neg (n + 1) (rest ≠ 0) (2 * half - rest : ℤ) (2 * half) := by
  have habs : |(2 * half - rest : ℤ)| = 2 * half - rest := abs_of_nonneg (by omega)
  constructor
  case exact => simp; omega
  case near => omega
  case nearest => intro hr; have := hn hr; omega
  case tie => intro hr; have := hn hr; omega
  case towardZero => exact fun hr => absurd hr hz
  case down => intro hr; simp [hd hr]; omega
  case up => intro hr; simp [hu hr]; omega

theorem roundsUp_rightly (r : Rnd) (neg : Bool) {n rest half : Nat} (h : rest < 2 * half) :
    RightlyRounded r neg (if roundsUp r neg (n % 2 = 1) rest half then n + 1 else n) (rest ≠ 0)
      ((if roundsUp r neg (n % 2 = 1) rest half then 2 * half else 0) - rest : ℤ) (2 * half) := by
  cases hup : roundsUp r neg (n % 2 = 1) rest half
  · simp only [Bool.false_eq_true, if_false]
    apply RightlyRounded.of_kept h
    all_goals rintro rfl; simp [roundsUp] at hup
    case hn => omega
    case hd => exact hup
    case hu => exact hup
  · simp only [if_true]
    have h0 : rest ≠ 0 := by cases r <;> simp [roundsUp] at hup <;> omega
    apply RightlyRounded.of_raised h h0
    all_goals rintro rfl; simp [roundsUp] at hup
    case hn => omega
    case hd => exact hup.1
    case hu => exact hup.1

/-- Two remainders below half a unit that are both zero or both not are rounded alike. -/
theorem roundsUp_below_half (r : Rnd) (neg odd odd' : Bool) {rest half rest' half' : Nat} (h : rest < half) (h' : rest' < half')
    (h0 : rest = 0 ↔ rest' = 0) : roundsUp r neg odd rest half = roundsUp r neg odd' rest' half' := by
  cases r <;> simp [roundsUp, h0, h.ne, h'.ne, h.not_gt, h'.not_gt]

/-! ## The multiple and the remainder (R22) -/

theorem roundAt_of_le (r : Rnd) (neg : Bool) (m : Nat) {e q : ℤ} (h : q ≤ e) :
    roundAt r neg m e q = (m * 2 ^ (e - q).toNat, false) := if_pos h

/-- A rounding to a unit of 2 ^ (j + 1) times the magnitude's own; `roundAt` cuts short only what is the same for every small m. -/
theorem roundAt_coarser (r : Rnd) (neg : Bool) (m : Nat) (e : ℤ) (j : Nat) :
    roundAt r neg m e (e + (j + 1 : Nat)) =
      (if roundsUp r neg (m / 2 ^ (j + 1) % 2 = 1) (m % 2 ^ (j + 1)) (2 ^ j) then m / 2 ^ (j + 1) + 1 else m / 2 ^ (j + 1),
        decide (m % 2 ^ (j + 1) ≠ 0)) := by
  have hk : (e + (j + 1 : Nat) - e).toNat = j + 1 := by omega
  unfold roundAt
  rw [if_neg (by omega)]
  simp only [hk]
  split
  · next hm =>
    have hlt : m < 2 ^ j := Nat.lt_log2_self.trans_le (Nat.pow_le_pow_right (by omega) (by omega))
    have hlt' : m < 2 ^ (j + 1) := hlt.trans (Nat.pow_lt_pow_right (by omega) (by omega))
    rw [Nat.div_eq_of_lt hlt', Nat.mod_eq_of_lt hlt',
      roundsUp_below_half r neg false (decide (0 % 2 = 1)) (by split <;> omega) hlt (by split <;> simp [*])]
  · rfl

/-- The error of `roundAt` is that of a right rounding: counted in the finer of the two exponents it is an integer, and `roundsUp`
decides its sign. -/
theorem roundAt_rightly (r : Rnd) (neg : Bool) (m : Nat) (e q : ℤ) :
    RightlyRounded r neg (roundAt r neg m e q).1 (roundAt r neg m e q).2 ((roundAt r neg m e q).1 * 2 ^ q - m * 2 ^ e : ℚ) (2 ^ q) := by
  have two : (2 : ℚ) ≠ 0 := two_ne_zero
  rcases le_or_gt q e with h | h
  · obtain ⟨k, rfl⟩ := Int.le.dest h
    have hexact := (RightlyRounded.of_no_error r neg (m * 2 ^ k)).scale (c := (2 : ℚ) ^ q) (by positivity)
    have herr : ((m * 2 ^ k : Nat) : ℚ) * 2 ^ q - m * 2 ^ (q + k) = 2 ^ q * (0 : ℤ) := by
      rw [zpow_add₀ two, zpow_natCast]
      push_cast
      ring
    rw [roundAt_of_le r neg m h, add_sub_cancel_left, Int.toNat_natCast, herr]
    simpa using hexact
  · obtain ⟨j, rfl⟩ : ∃ j : Nat, q = e + (j + 1 : Nat) := ⟨(q - e).toNat - 1, by omega⟩
    have hrest : m % 2 ^ (j + 1) < 2 * 2 ^ j := (Nat.mod_lt _ (by positivity)).trans_eq (pow_succ' ..)
    have hright := (roundsUp_rightly r neg (n := m / 2 ^ (j + 1)) hrest).scale (c := (2 : ℚ) ^ e) (by positivity)
    have hunit : (2 : ℚ) ^ (e + (j + 1 : Nat)) = 2 ^ e * (2 * 2 ^ j) := by rw [zpow_add₀ two, zpow_natCast, pow_succ']
    have hm : (m : ℚ) = 2 * 2 ^ j * (m / 2 ^ (j + 1) : Nat) + (m % 2 ^ (j + 1) : Nat) := by
      rw [← pow_succ']
      exact_mod_cast (Nat.div_add_mod m (2 ^ (j + 1))).symm
    rw [roundAt_coarser, hunit, hm]
    convert hright using 1
    · generalize m % 2 ^ (j + 1) = rest
      split <;> push_cast <;> ring
    · push_cast
      ring

/-- Settles O9: the rounding is right, the half unit written as half of 2 ^ q. -/
theorem roundingIsCorrect : Obligations.RoundingIsCorrect := by
  unfold Obligations.RoundingIsCorrect
  intro r neg m e q n err
  have h := roundAt_rightly r neg m e q
  have half : 2 * (2 ^ q / 2 : ℚ) = 2 ^ q := mul_div_cancel₀ _ two_ne_zero
  refine ⟨h.exact, h.near, fun hr => ?_, fun hr ht => h.tie hr ?_, h.towardZero, h.down, h.up⟩
  · exact le_of_mul_le_mul_left ((h.nearest hr).trans_eq half.symm) two_pos
  · exact (congrArg (2 * ·) ht).trans half

end Sys2Proof.Proofs
end

section
/-! Registers after a write: what each operation on them leaves in a lane's cell, and that it changes nothing else of the warp. -/

namespace Sys2Proof.Proofs
open Sys2Proof.Machine Sys2Proof.Claims

/-! ## Lane sets -/

theorem mem_lanesOf (m : Lanes) (l : Nat) : l ∈ lanesOf m ↔ m.getLsbD l = true := by
  simp only [lanesOf, List.mem_filter, List.mem_range, and_iff_right_iff_imp]
  exact BitVec.lt_of_getLsbD

theorem getLsbD_lane1 (k : Nat) {l : Nat} (h : l < 64) : (lane1 k).getLsbD l = decide (k = l) := by
  rw [lane1, BitVec.getLsbD_ofNat, Nat.testBit_two_pow]
  simp [h]

theorem getLsbD_laneSet (ls : List Nat) {l : Nat} (h : l < 64) : (laneSet ls).getLsbD l = decide (l ∈ ls) := by
  have general (m : Lanes) : (ls.foldl (fun m k => m ||| lane1 k) m).getLsbD l = (m.getLsbD l || decide (l ∈ ls)) := by
    induction ls generalizing m with
    | nil => simp
    | cons k ls ih => simp [ih, getLsbD_lane1 k h, Bool.or_assoc, eq_comm]
  simpa [laneSet] using general 0

/-! ## What a write leaves as it was -/

/-- A warp that differs from another at most in its registers and in the last uses to come. -/
def OnlyRegs (w v : Warp) : Prop := ∃ regs kills, v = { w with regs := regs, kills := kills }

theorem OnlyRegs.refl (w : Warp) : OnlyRegs w w := ⟨_, _, rfl⟩

theorem OnlyRegs.trans {w v u : Warp} : OnlyRegs w v → OnlyRegs v u → OnlyRegs w u := by
  rintro ⟨_, _, rfl⟩ ⟨regs, kills, rfl⟩
  exact ⟨regs, kills, rfl⟩

theorem OnlyRegs.foldl {α : Type} {f : Warp → α → Warp} (h : ∀ w a, OnlyRegs w (f w a)) (l : List α) (w : Warp) :
    OnlyRegs w (l.foldl f w) :=
  foldl_keeps (P := OnlyRegs w) (fun v a hv => hv.trans (h v a)) l w (.refl w)

theorem write_onlyRegs (w : Warp) (n lane : Nat) (v : Word) (t : Tag) : OnlyRegs w (w.write n lane v t) := by
  unfold Warp.write
  split <;> exact ⟨_, _, rfl⟩

theorem writeBit_onlyRegs (w : Warp) (fresh n lane j : Nat) (r : Bool) (cmb : Cmb) : OnlyRegs w (w.writeBit fresh n lane j r cmb) := by
  unfold Warp.writeBit
  split <;> exact ⟨_, _, rfl⟩

theorem kill_onlyRegs (w : Warp) (n lane : Nat) : OnlyRegs w (w.kill n lane) := by
  unfold Warp.kill
  split <;> exact ⟨_, _, rfl⟩

theorem writeVals_onlyRegs (w : Warp) (n lane : Nat) (vs : List (Word × Tag)) : OnlyRegs w (w.writeVals n lane vs) := by
  induction vs generalizing w n with
  | nil => exact .refl w
  | cons x vs ih => exact (write_onlyRegs w n lane x.1 x.2).trans (ih _ _)

theorem writeRes_onlyRegs (fresh : Nat) (d : Dst) (w : Warp) (r : LaneRes) : OnlyRegs w (w.writeRes fresh d r) := by
  cases d with
  | regs n span => exact writeVals_onlyRegs w n r.lane r.vals
  | bits n j count cmb => exact .foldl (fun w k => writeBit_onlyRegs w ..) _ w

theorem killNow_onlyRegs (lanes : Lanes) (w : Warp) (n : Nat) : OnlyRegs w (w.killNow lanes n) := by
  unfold Warp.killNow
  exact (OnlyRegs.foldl (fun w k => .foldl (fun w l => kill_onlyRegs w n l) _ w) w.kills w).trans ⟨_, _, rfl⟩

/-- The warp when the last uses of a destination's registers, in the lanes about to be written, have taken effect (R125). -/
def lastUsesDone (w : Warp) (d : Dst) (rs : List LaneRes) : Warp :=
  if w.kills.isEmpty then w else d.opnds.foldl (Warp.killNow · (laneSet (rs.map LaneRes.lane))) w

theorem writeAll_eq (w : Warp) (fresh : Nat) (d : Dst) (rs : List LaneRes) :
    w.writeAll fresh d rs = rs.foldl (fun v r => v.writeRes fresh d r) (lastUsesDone w d rs) := rfl

theorem writeAll_onlyRegs (w : Warp) (fresh : Nat) (d : Dst) (rs : List LaneRes) : OnlyRegs w (w.writeAll fresh d rs) := by
  refine OnlyRegs.trans (v := lastUsesDone w d rs) ?_ (.foldl (writeRes_onlyRegs fresh d) _ _)
  unfold lastUsesDone
  split
  · exact .refl w
  · exact .foldl (killNow_onlyRegs _) _ _

/-! ## The cells after a write -/

theorem regKey_inj {n l n' l' : Nat} (h : l < 64) (h' : l' < 64) : regKey n l = regKey n' l' ↔ n = n' ∧ l = l' := by
  unfold regKey
  omega

/-- A register set in one lane, read in a lane. -/
theorem cell_tset (w : Warp) (n n' : Nat) {l l' : Nat} (c : RegCell) (h : l < 64) (h' : l' < 64) :
    Warp.cell { w with regs := tset w.regs (regKey n l) c } n' l' = if n' = n ∧ l' = l then c else w.cell n' l' := by
  simp only [Warp.cell, tget_tset, regKey_inj h' h]
  split <;> rfl

theorem cell_write (w : Warp) (n n' : Nat) {l l' : Nat} (v : Word) (t : Tag) (h : l < 64) (h' : l' < 64) :
    (w.write n l v t).cell n' l' = if n < 776 ∧ n' = n ∧ l' = l then ⟨v, 0, storeTag t, false⟩ else w.cell n' l' := by
  unfold Warp.write
  split <;> simp [cell_tset, *]

theorem cell_kill (w : Warp) (n n' : Nat) {l l' : Nat} (h : l < 64) (h' : l' < 64) :
    (w.kill n l).cell n' l' = if n < 768 ∧ n' = n ∧ l' = l then ⟨0, 0xFFFFFFFF, 0, true⟩ else w.cell n' l' := by
  unfold Warp.kill
  split <;> simp [cell_tset, *]

/-! ### Last uses (R125) -/

theorem cell_kills (w : Warp) (n n' : Nat) {ls : List Nat} {l : Nat} (hs : ∀ k ∈ ls, k < 64) (h : l < 64) :
    (ls.foldl (fun v k => v.kill n k) w).cell n' l = if n < 768 ∧ n' = n ∧ l ∈ ls then ⟨0, 0xFFFFFFFF, 0, true⟩ else w.cell n' l := by
  induction ls generalizing w with
  | nil => simp
  | cons k ls ih =>
    obtain ⟨hk, hls⟩ := List.forall_mem_cons.mp hs
    rw [List.foldl_cons, ih _ hls, cell_kill w n n' hk h]
    grind

theorem cell_killSets (w : Warp) (n n' : Nat) {α : Type} (f : α → Lanes) (ks : List α) {l : Nat} (h : l < 64) :
    (ks.foldl (fun v k => (lanesOf (f k)).foldl (fun v l => v.kill n l) v) w).cell n' l =
      if n < 768 ∧ n' = n ∧ ∃ k ∈ ks, (f k).getLsbD l = true then ⟨0, 0xFFFFFFFF, 0, true⟩ else w.cell n' l := by
  have hs : ∀ i ∈ ks.flatMap fun k => lanesOf (f k), i < 64 := fun i hi => by
    obtain ⟨k, _, hik⟩ := List.mem_flatMap.mp hi
    exact BitVec.lt_of_getLsbD ((mem_lanesOf _ i).mp hik)
  rw [← List.foldl_flatMap, cell_kills w n n' hs h]
  simp only [List.mem_flatMap, mem_lanesOf]

/-- A last use of an operand in a lane is still to take effect. -/
def LastUseDue (w : Warp) (n l : Nat) : Prop := n < 768 ∧ ∃ k ∈ w.kills, k.2.1 = n ∧ k.2.2.getLsbD l = true

theorem lastUsed_of_due {w : Warp} {n l : Nat} (h : LastUseDue w n l) : lastUsed w n l = ⟨0, 0xFFFFFFFF, 0, true⟩ := if_pos h

theorem lastUsed_of_not_due {w : Warp} {n l : Nat} (h : ¬LastUseDue w n l) : lastUsed w n l = w.cell n l := if_neg h

/-- The lanes of a last use that `killNow` lets take effect. -/
def killHit (lanes : Lanes) (n : Nat) (k : Nat × Nat × Lanes) : Lanes := if k.2.1 = n then k.2.2 &&& lanes else 0

theorem getLsbD_killHit (lanes : Lanes) (n : Nat) (k : Nat × Nat × Lanes) (l : Nat) :
    (killHit lanes n k).getLsbD l = true ↔ (k.2.1 = n ∧ k.2.2.getLsbD l = true) ∧ lanes.getLsbD l = true := by
  unfold killHit
  split <;> simp [*]

theorem kills_killNow (w : Warp) (lanes : Lanes) (n : Nat) :
    (w.killNow lanes n).kills = w.kills.map fun k => (k.1, k.2.1, k.2.2 &&& ~~~(killHit lanes n k)) := rfl

theorem cell_killNow (w : Warp) (lanes : Lanes) (n n' : Nat) {l : Nat} (h : l < 64) :
    (w.killNow lanes n).cell n' l = if n' = n ∧ lanes.getLsbD l = true then lastUsed w n' l else w.cell n' l := by
  refine (cell_killSets w n n' (killHit lanes n) w.kills h).trans ?_
  simp only [getLsbD_killHit, lastUsed]
  split_ifs <;> grind

theorem lastUseDue_killNow (w : Warp) (lanes : Lanes) (n n' : Nat) {l : Nat} (h : l < 64) :
    LastUseDue (w.killNow lanes n) n' l ↔ LastUseDue w n' l ∧ ¬(n' = n ∧ lanes.getLsbD l = true) := by
  have left (k : Nat × Nat × Lanes) : (k.2.2 &&& ~~~(killHit lanes n k)).getLsbD l = true ↔
      k.2.2.getLsbD l = true ∧ ¬(k.2.1 = n ∧ lanes.getLsbD l = true) := by
    rw [BitVec.getLsbD_and, BitVec.getLsbD_not, Bool.and_eq_true, Bool.and_eq_true, Bool.not_eq_true', ← Bool.not_eq_true, getLsbD_killHit]
    grind
  simp only [LastUseDue, kills_killNow, List.mem_map, ↓existsAndEq, and_assoc, true_and, left]
  grind

/-- Last uses that have taken effect early change no cell once all have. -/
theorem lastUsed_killNow (w : Warp) (lanes : Lanes) (n n' : Nat) {l : Nat} (h : l < 64) :
    lastUsed (w.killNow lanes n) n' l = lastUsed w n' l := by
  by_cases hk : n' = n ∧ lanes.getLsbD l = true
  · rw [lastUsed_of_not_due (by simp [lastUseDue_killNow, h, hk]), cell_killNow w lanes n n' h, if_pos hk]
  · have hc := cell_killNow w lanes n n' h
    rw [if_neg hk] at hc
    by_cases hd : LastUseDue w n' l
    · rw [lastUsed_of_due hd, lastUsed_of_due ((lastUseDue_killNow w lanes n n' h).mpr ⟨hd, hk⟩)]
    · rw [lastUsed_of_not_due hd, lastUsed_of_not_due (fun h' => hd ((lastUseDue_killNow w lanes n n' h).mp h').1), hc]

theorem cell_lastUsesDone (w : Warp) (d : Dst) (rs : List LaneRes) (n : Nat) {l : Nat} (h : l < 64) :
    (lastUsesDone w d rs).cell n l = if n ∈ d.opnds ∧ ∃ r ∈ rs, r.lane = l then lastUsed w n l else w.cell n l := by
  have folded (ns : List Nat) (lanes : Lanes) (w : Warp) : (ns.foldl (Warp.killNow · lanes) w).cell n l =
      if n ∈ ns ∧ lanes.getLsbD l = true then lastUsed w n l else w.cell n l := by
    induction ns generalizing w with
    | nil => simp
    | cons m ns ih =>
      rw [List.foldl_cons, ih, lastUsed_killNow w lanes m n h, cell_killNow w lanes m n h]
      grind
  unfold lastUsesDone
  split
  · next hk => simp [lastUsed, List.isEmpty_iff.mp hk]
  · rw [folded, getLsbD_laneSet _ h]
    simp

/-! ### Whole registers -/

theorem cell_writeVals_outside (w : Warp) {n n' lane l : Nat} {vs : List (Word × Tag)} (hl : lane < 64) (h : l < 64)
    (ho : n' < n ∨ n + vs.length ≤ n' ∨ l ≠ lane) : (w.writeVals n lane vs).cell n' l = w.cell n' l := by
  induction vs generalizing w n with
  | nil => rfl
  | cons x vs ih =>
    obtain ⟨v, t⟩ := x
    rw [List.length_cons] at ho
    rw [Warp.writeVals, ih _ (by omega), cell_write w n n' v t hl h, if_neg (by omega)]

theorem cell_writeVals (w : Warp) {n k lane : Nat} {vs : List (Word × Tag)} {v : Word} {t : Tag} (hl : lane < 64)
    (hk : vs[k]? = some (v, t)) (hn : n + k < 776) : (w.writeVals n lane vs).cell (n + k) lane = ⟨v, 0, storeTag t, false⟩ := by
  induction vs generalizing w n k with
  | nil => simp at hk
  | cons x vs ih =>
    cases k with
    | zero =>
      obtain rfl : x = (v, t) := by simpa using hk
      rw [Warp.writeVals, cell_writeVals_outside _ hl hl (by omega), cell_write w n _ v t hl hl, if_pos (by omega)]
    | succ k =>
      rw [show n + (k + 1) = n + 1 + k by omega, Warp.writeVals, ih _ (by simpa using hk) (by omega)]

/-! ### Bits (R190) -/

/-- A cell in which `count` bits from `j` up have been combined with new ones. -/
structure BitsCombined (c new : RegCell) (j count : Nat) (cmb : Cmb) (bit : Nat → Bool) : Prop where
  tag : 0 < count → new.tag = 63 ∧ new.tagU = false
  inside : ∀ i < 32, j ≤ i ∧ i < j + count → new.undef.getLsbD i = false ∧
    ∃ old, (c.undef.getLsbD i = false → old = c.val.getLsbD i) ∧ new.val.getLsbD i = combined cmb old (bit (i - j))
  outside : ∀ i < 32, ¬(j ≤ i ∧ i < j + count) → new.val.getLsbD i = c.val.getLsbD i ∧ new.undef.getLsbD i = c.undef.getLsbD i

theorem BitsCombined.none (c : RegCell) (j : Nat) (cmb : Cmb) (bit : Nat → Bool) : BitsCombined c c j 0 cmb bit :=
  ⟨fun h => absurd h (lt_irrefl 0), fun i _ h => by omega, fun _ _ _ => ⟨rfl, rfl⟩⟩

/-- One bit more. -/
theorem BitsCombined.succ {c c' c'' : RegCell} {j count : Nat} {cmb : Cmb} {bit : Nat → Bool} (h : BitsCombined c c' j count cmb bit)
    (h' : BitsCombined c' c'' (j + count) 1 cmb fun _ => bit count) : BitsCombined c c'' j (count + 1) cmb bit where
  tag _ := h'.tag one_pos
  inside i hi hin := by
    by_cases hlast : i = j + count
    · obtain ⟨hdef, old, hold, hval⟩ := h'.inside i hi (by omega)
      obtain ⟨hv, hu⟩ := h.outside i hi (by omega)
      exact ⟨hdef, old, by rwa [← hv, ← hu], by rwa [show i - j = count by omega]⟩
    · obtain ⟨hv, hu⟩ := h'.outside i hi (by omega)
      rw [hv, hu]
      exact h.inside i hi (by omega)
  outside i hi hout := by
    obtain ⟨hv, hu⟩ := h'.outside i hi (by omega)
    rw [hv, hu]
    exact h.outside i hi (by omega)

theorem combine_eq_combined (c : Cmb) (old new : Bool) : combine c old new = combined c old new := by
  cases c <;> rfl

theorem getLsbD_oneBit {j i : Nat} (h : i < 32) : (BitVec.ofNat 32 (2 ^ j)).getLsbD i = decide (j = i) := by
  rw [BitVec.getLsbD_ofNat, Nat.testBit_two_pow]
  simp [h]

/-- A word with bit `j` set to `b` and the others as they were. -/
theorem getLsbD_withBit (v : Word) {j i : Nat} (b : Bool) (h : i < 32) :
    (if b then v ||| BitVec.ofNat 32 (2 ^ j) else v &&& ~~~(BitVec.ofNat 32 (2 ^ j))).getLsbD i = if i = j then b else v.getLsbD i := by
  cases b
  all_goals
    simp only [Bool.false_eq_true, if_false, if_true, BitVec.getLsbD_or, BitVec.getLsbD_and, BitVec.getLsbD_not, getLsbD_oneBit h]
    by_cases hi : i = j <;> simp [hi, h, Ne.symm]

theorem cell_writeBit_other (w : Warp) (fresh n n' j : Nat) {l l' : Nat} (r : Bool) (cmb : Cmb) (h : l < 64) (h' : l' < 64)
    (ho : ¬(n' = n ∧ l' = l)) : (w.writeBit fresh n l j r cmb).cell n' l' = w.cell n' l' := by
  unfold Warp.writeBit
  split
  · exact (cell_tset w n n' _ h h').trans (if_neg ho)
  · rfl

theorem cell_writeBit (w : Warp) (fresh : Nat) {n l : Nat} (j : Nat) (r : Bool) (cmb : Cmb) (hn : n < 776) (h : l < 64) :
    BitsCombined (w.cell n l) ((w.writeBit fresh n l j r cmb).cell n l) j 1 cmb fun _ => r := by
  unfold Warp.writeBit
  rw [if_pos hn]
  simp only [cell_tset w n n _ h h, and_self, if_true]
  refine ⟨fun _ => ⟨rfl, rfl⟩, fun i hi hin => ?_, fun i hi hout => ?_⟩
  · obtain rfl : i = j := by omega
    rw [getLsbD_withBit _ _ hi, if_pos rfl, combine_eq_combined]
    exact ⟨(getLsbD_withBit _ false hi).trans (if_pos rfl), _, fun hdef => if_neg (by simp [hdef]), rfl⟩
  · have hne : i ≠ j := by omega
    rw [getLsbD_withBit _ _ hi, if_neg hne]
    exact ⟨rfl, (getLsbD_withBit _ false hi).trans (if_neg hne)⟩

theorem cell_writeBits_other (w : Warp) (fresh n n' j : Nat) {l l' : Nat} (bit : Nat → Bool) (cmb : Cmb) (ks : List Nat) (h : l < 64)
    (h' : l' < 64) (ho : ¬(n' = n ∧ l' = l)) :
    (ks.foldl (fun w k => w.writeBit fresh n l (j + k) (bit k) cmb) w).cell n' l' = w.cell n' l' :=
  foldl_keeps (P := fun v => v.cell n' l' = w.cell n' l') (fun v _ hv => (cell_writeBit_other v fresh n n' _ _ _ h h' ho).trans hv) ks w rfl

theorem cell_writeBits (w : Warp) (fresh : Nat) {n l : Nat} (j count : Nat) (bit : Nat → Bool) (cmb : Cmb) (hn : n < 776) (h : l < 64) :
    BitsCombined (w.cell n l) (((List.range count).foldl (fun w k => w.writeBit fresh n l (j + k) (bit k) cmb) w).cell n l) j count cmb
      bit := by
  induction count with
  | zero => exact .none ..
  | succ count ih =>
    rw [List.range_succ, List.foldl_append]
    exact ih.succ (cell_writeBit _ fresh _ _ cmb hn h)

/-! ### Results of several lanes (R154) -/

/-- The operand `n` in lane `l` is one that a lane's result is written to. -/
def Written (d : Dst) (r : LaneRes) (n l : Nat) : Prop :=
  r.lane = l ∧ match d with
    | .regs o _ => o ≤ n ∧ n < o + r.vals.length
    | .bits o _ _ _ => n = o

theorem cell_writeRes_other (w : Warp) (fresh : Nat) {d : Dst} {r : LaneRes} {n l : Nat} (hr : r.lane < 64) (h : l < 64)
    (ho : ¬Written d r n l) : (w.writeRes fresh d r).cell n l = w.cell n l := by
  cases d with
  | regs o span => exact cell_writeVals_outside w hr h (by simp only [Written] at ho; omega)
  | bits o j count cmb =>
    exact cell_writeBits_other w fresh o n j (fun _ => _) cmb _ hr h fun hs => ho ⟨hs.2.symm, hs.1⟩

theorem cell_writeResults_other (w : Warp) (fresh : Nat) {d : Dst} {rs : List LaneRes} {n l : Nat} (hr : ∀ r ∈ rs, r.lane < 64)
    (h : l < 64) (ho : ∀ r ∈ rs, ¬Written d r n l) : (rs.foldl (fun v r => v.writeRes fresh d r) w).cell n l = w.cell n l := by
  induction rs generalizing w with
  | nil => rfl
  | cons r rs ih =>
    obtain ⟨hr0, hrs⟩ := List.forall_mem_cons.mp hr
    obtain ⟨ho0, hos⟩ := List.forall_mem_cons.mp ho
    rw [List.foldl_cons, ih _ hrs hos, cell_writeRes_other w fresh hr0 h ho0]

/-- In its own lane a result is written over the cells as they were before any of the results. -/
theorem cell_writeResults (w : Warp) (fresh : Nat) (d : Dst) {rs : List LaneRes} {r : LaneRes} (hr : ∀ r ∈ rs, r.lane < 64)
    (hd : rs.Pairwise fun r q => r.lane ≠ q.lane) (hm : r ∈ rs) :
    ∃ v : Warp, (∀ n, v.cell n r.lane = w.cell n r.lane) ∧
      ∀ n, (rs.foldl (fun v r => v.writeRes fresh d r) w).cell n r.lane = (v.writeRes fresh d r).cell n r.lane := by
  induction rs generalizing w with
  | nil => cases hm
  | cons q rs ih =>
    obtain ⟨hq, hrs⟩ := List.forall_mem_cons.mp hr
    obtain ⟨hne, hd'⟩ := List.pairwise_cons.mp hd
    rcases List.mem_cons.mp hm with rfl | hm
    · exact ⟨w, fun _ => rfl, fun n => cell_writeResults_other _ fresh hrs hq fun q hm hw => hne q hm hw.1.symm⟩
    · obtain ⟨v, hv, hlast⟩ := ih (w.writeRes fresh d q) hrs hd' hm
      exact ⟨v, fun n => (hv n).trans (cell_writeRes_other w fresh hq (hrs r hm) fun hw => hne r hm hw.1), hlast⟩

end Sys2Proof.Proofs
end

section
/-! A result that lands: in the registers of its warp, or as an entry of a hatch; and the freezes of a hatch that end. -/

namespace Sys2Proof.Proofs
open Sys2Proof.Machine Sys2Proof.Claims

/-! ## The warp of a result that lands -/

/-- A landing takes its result out of flight and writes it, adds its flags, and may make a trap due. -/
theorem landing_shape (w : Warp) (f : Flight) (fresh : Nat) :
    ∃ kills due csr sg, w.landing f fresh =
        { w with
          flight := w.flight.filter fun x => x.seq ≠ f.seq
          regs := ((w.dropFlight f.seq).writeAll fresh f.dst f.lanes).regs
          kills := kills, due := due, csr := csr, recent := w.recent ++ [(f.dst, f.mask)] }
      ∧ csr.fpsr = (orFlags w.csr (f.lanes.foldl (fun m r => m ||| r.flags) 0) sg).fpsr := by
  obtain ⟨regs, kills, hw⟩ := writeAll_onlyRegs (w.dropFlight f.seq) fresh f.dst f.lanes
  unfold Warp.landing
  simp only [hw]
  cases landTrap w f with
  | none => exact ⟨_, _, _, _, rfl, rfl⟩
  | some t =>
    refine ⟨_, _, _, f.lanes.any (belowThr w.csr.sigthr), rfl, ?_⟩
    simp only [Csrs.pend]
    split <;> rfl

theorem landing_wid (w : Warp) (f : Flight) (fresh : Nat) : (w.landing f fresh).wid = w.wid := by
  obtain ⟨_, _, _, _, h, _⟩ := landing_shape w f fresh
  rw [h]

theorem landing_flight (w : Warp) (f : Flight) (fresh : Nat) :
    (w.landing f fresh).flight = w.flight.filter fun x => x.seq ≠ f.seq := by
  obtain ⟨_, _, _, _, h, _⟩ := landing_shape w f fresh
  rw [h]

theorem landing_regs (w : Warp) (f : Flight) (fresh : Nat) :
    (w.landing f fresh).regs = ((w.dropFlight f.seq).writeAll fresh f.dst f.lanes).regs := by
  obtain ⟨_, _, _, _, h, _⟩ := landing_shape w f fresh
  rw [h]

/-- SG, bit 5 of FPSR, does not reach the five exception flags (R25, R28). -/
theorem orFlags_flags (c : Csrs) (m : Flags) (sg : Bool) :
    (orFlags c m sg).fpsr &&& 0x1F = (c.fpsr ||| BitVec.ofNat 32 (m.toNat % 32)) &&& 0x1F := by
  have low (n : Nat) : (BitVec.ofNat 32 n &&& 0x1F : Word) = BitVec.ofNat 32 (n % 32) := by
    apply BitVec.eq_of_toNat_eq
    have h := Nat.and_two_pow_sub_one_eq_mod (n % 2 ^ 32) 5
    simp at h ⊢
    omega
  simp only [orFlags, BitVec.and_or_distrib_right, low]
  rw [Nat.add_mul_mod_self_left]

theorem landing_flags (w : Warp) (f : Flight) (fresh : Nat) : (w.landing f fresh).csr.fpsr &&& 0x1F =
    (w.csr.fpsr ||| BitVec.ofNat 32 ((f.lanes.foldl (fun (m : BitVec 6) (r : LaneRes) => m ||| r.flags) 0).toNat % 32)) &&& 0x1F := by
  obtain ⟨_, _, _, sg, h, hf⟩ := landing_shape w f fresh
  rw [h, ← orFlags_flags _ _ sg, ← hf]

/-! ## The cells of a result that lands (R154, R190, R125) -/

theorem cell_landing (w : Warp) (f : Flight) (fresh n l : Nat) : (w.landing f fresh).cell n l =
    (f.lanes.foldl (fun v r => v.writeRes fresh f.dst r) (lastUsesDone (w.dropFlight f.seq) f.dst f.lanes)).cell n l := by
  rw [Warp.cell, landing_regs, writeAll_eq]
  rfl

section
variable {w : Warp} {f : Flight} (hl : ∀ r ∈ f.lanes, r.lane < 64)
include hl

theorem cell_landing_other (fresh n : Nat) {l : Nat} (h : l < 64) (ho : ∀ r ∈ f.lanes, ¬Written f.dst r n l) :
    (w.landing f fresh).cell n l = if n ∈ f.dst.opnds ∧ ∃ r ∈ f.lanes, r.lane = l then lastUsed w n l else w.cell n l := by
  rw [cell_landing, cell_writeResults_other _ fresh hl h ho, cell_lastUsesDone _ f.dst f.lanes n h]
  rfl

variable (hd : f.lanes.Pairwise fun r q => r.lane ≠ q.lane) {r : LaneRes} (hr : r ∈ f.lanes)
include hd hr

theorem cell_landing_regs (fresh : Nat) {n span k : Nat} {v : Word} {t : Tag} (hf : f.dst = .regs n span) (hk : r.vals[k]? = some (v, t))
    (hn : n + k < 776) : (w.landing f fresh).cell (n + k) r.lane = ⟨v, 0, storeTag t, false⟩ := by
  obtain ⟨u, _, hlast⟩ := cell_writeResults (lastUsesDone (w.dropFlight f.seq) f.dst f.lanes) fresh f.dst hl hd hr
  rw [cell_landing, hlast, hf]
  exact cell_writeVals u (hl r hr) hk hn

theorem cell_landing_bits (fresh : Nat) {n j count : Nat} {cmb : Cmb} {v : Word} (hf : f.dst = .bits n j count cmb) (hn : n < 776)
    (hv : r.vals.head?.map Prod.fst = some v) :
    BitsCombined (lastUsed w n r.lane) ((w.landing f fresh).cell n r.lane) j count cmb v.getLsbD := by
  obtain ⟨u, hu, hlast⟩ := cell_writeResults (lastUsesDone (w.dropFlight f.seq) f.dst f.lanes) fresh f.dst hl hd hr
  have hopnd : n ∈ f.dst.opnds := by simp [hf, Dst.opnds, hn]
  have hu' : u.cell n r.lane = lastUsed w n r.lane := by
    rw [hu, cell_lastUsesDone _ f.dst f.lanes n (hl r hr), if_pos ⟨hopnd, r, hr, rfl⟩]
    rfl
  obtain ⟨⟨v', t⟩, vs, hvals⟩ : ∃ x vs, r.vals = x :: vs := by
    cases hvals : r.vals with
    | nil => simp [hvals] at hv
    | cons x vs => exact ⟨x, vs, rfl⟩
  obtain rfl : v' = v := by simpa [hvals] using hv
  rw [cell_landing, hlast, hf, ← hu']
  simp only [Warp.writeRes, hvals]
  exact cell_writeBits u fresh j count v'.getLsbD cmb hn (hl r hr)

end

/-! ## The step of a landing -/

theorem hatch_eq_none {d : Dst} (h : ∀ n span, d = .regs n span → n < 776 ∨ 780 ≤ n) : d.hatch = none := by
  cases d with
  | regs n span =>
    have := h n span rfl
    simp [Dst.hatch]
    omega
  | bits => rfl

theorem hatch_regs {h : Nat} (span : Nat) (hh : h < 4) : (Dst.regs (776 + h) span).hatch = some h := by
  simp [Dst.hatch]
  omega

theorem execResultLanding_registers {wid : Nat} {s : State} {w : Warp} {f : Flight} (hw : s.warp? wid = some w)
    (hf : w.flight.find? (fun x => x.seq = f.seq) = some f) (hh : f.dst.hatch = none) :
    exec (.resultLanding wid f.seq) s = .next (s.putWarp (w.landing f s.fresh)).used := by
  change execResultLanding wid f.seq s = _
  simp [execResultLanding, hw, hf, hh]

theorem execResultLanding_hatch {wid h : Nat} {s : State} {w : Warp} {f : Flight} {t : Team} (hw : s.warp? wid = some w)
    (hf : w.flight.find? (fun x => x.seq = f.seq) = some f) (hh : f.dst.hatch = some h) (ht : s.team? w.team = some t) :
    exec (.resultLanding wid f.seq) s = .next (if t.hasRoom (pushKey w h) then
        ((s.putWarp (w.landing f s.fresh)).putTeam (t.push (pushKey w h) ⟨f.seq, f.lanes, some s.base⟩)).used
      else s.putWarp (w.freezeFor 6 (.push (pushKey w h)))) := by
  change execResultLanding wid f.seq s = _
  simp only [execResultLanding, hw, hf, hh, teamOf, ht]
  split <;> rfl

/-- The hatches hold nothing in the registers (R122). -/
theorem writeAll_hatch_regs (w : Warp) (fresh h span : Nat) (rs : List LaneRes) :
    (w.writeAll fresh (.regs (776 + h) span) rs).regs = w.regs := by
  have hvals (vs : List (Word × Tag)) (n lane : Nat) (v : Warp) (hn : 776 ≤ n) : v.writeVals n lane vs = v := by
    induction vs generalizing n with
    | nil => rfl
    | cons x vs ih =>
      have hx : v.write n lane x.1 x.2 = v := if_neg (by omega)
      exact (congrArg (Warp.writeVals · (n + 1) lane vs) hx).trans (ih (n + 1) (by omega))
  have hopnds : (Dst.regs (776 + h) span).opnds = [] := if_neg (by omega)
  rw [writeAll_eq, lastUsesDone, hopnds]
  simp only [List.foldl_nil, ite_self]
  exact foldl_keeps (P := fun v => v.regs = w.regs) (fun v r hv =>
    (congrArg Warp.regs (hvals r.vals (776 + h) r.lane v (by omega))).trans hv) rs w rfl

theorem team?_putTeam (s : State) (t : Team) (k : Nat) :
    (s.putTeam t).team? k = if k = t.tid then some t else s.team? k := tget_tset ..

theorem hasRoom_iff (t : Team) (key : Nat) : t.hasRoom key = true ↔ (t.queue key).length < hatchDepth key := by
  simp [Team.hasRoom]

theorem queue_push (t : Team) (key : Nat) (e : HatchEnt) : (t.push key e).queue key = t.queue key ++ [e] := by
  simp [Team.push, Team.queue]

/-! ## Freezes of a hatch that end (R259, R260, R262) -/

/-- The freezes that end once a queue can be pushed. -/
def pushable (t : Team) : FreezeWhy → Bool
  | .push key => t.hasRoom key
  | _ => false

/-- The freezes that end once a queue can be popped, or never can be. -/
def poppable (s : State) (w : Warp) (t : Team) : FreezeWhy → Bool
  | .pop key => (headEntry t key s.base).isSome || ((t.queue key).isEmpty && partnerEnded s w)
  | _ => false

theorem execHatchPushResume_thaws {wid : Nat} {s : State} {w : Warp} {t : Team} (hw : s.warp? wid = some w)
    (ht : s.team? w.team = some t) : exec (.hatchPushResume wid) s = .next (s.putWarp (w.thaw (pushable t))) := by
  change execHatchPushResume wid s = _
  simp only [execHatchPushResume, hw, teamOf, ht]
  rfl

theorem execHatchPopResume_thaws {wid : Nat} {s : State} {w : Warp} {t : Team} (hw : s.warp? wid = some w)
    (ht : s.team? w.team = some t) : exec (.hatchPopResume wid) s = .next (s.putWarp (w.thaw (poppable s w t))) := by
  change execHatchPopResume wid s = _
  simp only [execHatchPopResume, hw, teamOf, ht]
  rfl

theorem mem_thaw (w : Warp) (p : FreezeWhy → Bool) (z : Freeze) : z ∈ (w.thaw p).freezes ↔ z ∈ w.freezes ∧ p z.why = false := by
  simp [Warp.thaw]

theorem pushable_eq_false (t : Team) (y : FreezeWhy) :
    pushable t y = false ↔ ∀ key, y = .push key → hatchDepth key ≤ (t.queue key).length := by
  cases y <;> simp [pushable, Team.hasRoom]

theorem poppable_eq_false (s : State) (w : Warp) (t : Team) (y : FreezeWhy) : poppable s w t y = false ↔
    ∀ key, y = .pop key → headEntry t key s.base = none ∧ ¬(t.queue key = [] ∧ partnerEnded s w = true) := by
  cases y <;> simp [poppable]

/-! ## The statement -/

theorem landing_in_registers {wid : Nat} {s : State} {w : Warp} {f : Flight} (hw : s.warp? wid = some w) (hwid : w.wid = wid)
    (hf : w.flight.find? (fun x => x.seq = f.seq) = some f) (hh : f.dst.hatch = none) :
    ∃ t, exec (.resultLanding wid f.seq) s = .next t ∧ t.warp? wid = some (w.landing f s.fresh) ∧ OthersKept s t wid ∧ MemKept s t := by
  refine ⟨_, execResultLanding_registers hw hf hh, ?_, fun k hk => ?_, memKept_of_eq rfl rfl rfl rfl rfl rfl rfl⟩
  · exact (State.warp?_putWarp ..).trans (if_pos (by rw [landing_wid, hwid]))
  · exact (State.warp?_putWarp ..).trans (if_neg (by rwa [landing_wid, hwid]))

section
variable {wid h : Nat} {s : State} {w : Warp} {f : Flight} {tm : Team} (hw : s.warp? wid = some w) (hwid : w.wid = wid)
  (hf : w.flight.find? (fun x => x.seq = f.seq) = some f) (hh : f.dst.hatch = some h) (ht : s.team? w.team = some tm)
include hw hwid hf hh ht

theorem landing_in_hatch (htid : tm.tid = w.team) (hroom : tm.hasRoom (pushKey w h) = true) :
    ∃ t, exec (.resultLanding wid f.seq) s = .next t ∧ t.team? w.team = some (tm.push (pushKey w h) ⟨f.seq, f.lanes, some s.base⟩)
      ∧ t.warp? wid = some (w.landing f s.fresh) := by
  refine ⟨_, (execResultLanding_hatch hw hf hh ht).trans (congrArg Host.Outcome.next (if_pos hroom)), ?_, ?_⟩
  · exact (team?_putTeam ..).trans (if_pos htid.symm)
  · exact (State.warp?_putWarp ..).trans (if_pos (by rw [landing_wid, hwid]))

theorem landing_freezes (hroom : ¬tm.hasRoom (pushKey w h) = true) :
    ∃ t, exec (.resultLanding wid f.seq) s = .next t ∧ t.team? w.team = some tm
      ∧ t.warp? wid = some (w.freezeFor 6 (.push (pushKey w h))) :=
  ⟨_, (execResultLanding_hatch hw hf hh ht).trans (congrArg Host.Outcome.next (if_neg hroom)), ht,
    (State.warp?_putWarp ..).trans (if_pos hwid.symm)⟩

end

/-- Settles O32: the cells, flags and flights of a landing, what it leaves as it was, and the hatches. -/
theorem resultsLand : Obligations.ResultsLand := by
  unfold Obligations.ResultsLand
  refine ⟨fun wid s w f hw hwid hf hreg hl hd => ?_, fun wid s w f tm h hw hwid hf hdst hh ht htid => ?_,
    fun wid s w tm hw hwid ht => ?_, fun wid s w tm hw hwid ht => ?_⟩
  · obtain ⟨t, hexec, hwarp, hothers, hmem⟩ := landing_in_registers hw hwid hf (hatch_eq_none hreg)
    refine ⟨t, _, hexec, hwarp, landing_flight .., fun n span hdst r hr k v tg hk hn => ?_,
      fun n j count cmb hdst hn hcount _ r hr v hv => ?_, fun n l h ho => ?_, landing_flags .., hothers, hmem⟩
    · rw [cell_landing_regs hl hd hr s.fresh hdst hk hn]
      simp [storeTag]
    · have hbits := cell_landing_bits (w := w) hl hd hr s.fresh hdst hn hv
      obtain ⟨htag, hdef⟩ := hbits.tag hcount
      refine ⟨htag, hdef, fun i hi => ?_⟩
      split
      · exact hbits.inside i hi ‹_›
      · exact hbits.outside i hi ‹_›
    · refine cell_landing_other hl s.fresh n h fun r hr hw => ?_
      obtain ⟨hlane, hin⟩ := hw
      have hout := ho r hr hlane
      cases hdst : f.dst <;> simp only [hdst] at hin hout <;> omega
  · obtain ⟨span, hspan⟩ : ∃ span, f.dst = .regs (776 + h) span := by
      rcases hdst with hdst | hdst | hdst <;> exact ⟨_, hdst⟩
    have hhatch : f.dst.hatch = some h := hspan ▸ hatch_regs span hh
    intro key
    by_cases hroom : tm.hasRoom key = true
    · obtain ⟨t, hexec, hteam, hwarp⟩ := landing_in_hatch hw hwid hf hhatch ht htid hroom
      refine ⟨t, _, _, hexec, hteam, hwarp, ?_, ?_⟩
      · rw [landing_regs, hspan, writeAll_hatch_regs]
        rfl
      · rw [if_pos ((hasRoom_iff tm key).mp hroom)]
        exact ⟨queue_push .., landing_flight ..⟩
    · obtain ⟨t, hexec, hteam, hwarp⟩ := landing_freezes hw hwid hf hhatch ht hroom
      refine ⟨t, _, _, hexec, hteam, hwarp, rfl, ?_⟩
      rw [if_neg (mt (hasRoom_iff tm key).mpr hroom)]
      exact ⟨rfl, rfl, _, List.mem_cons_self, rfl, rfl⟩
  · refine ⟨_, _, execHatchPushResume_thaws hw ht, (State.warp?_putWarp ..).trans (if_pos hwid.symm), rfl, fun z => ?_⟩
    rw [mem_thaw, pushable_eq_false]
  · refine ⟨_, _, execHatchPopResume_thaws hw ht, (State.warp?_putWarp ..).trans (if_pos hwid.symm), rfl, fun z => ?_⟩
    rw [mem_thaw, poppable_eq_false]

end Sys2Proof.Proofs
end

section
/-! Tables that hold every entry under its own number: setting, removing and changing entries keeps them so. -/

namespace Sys2Proof.Claims
open Sys2Proof.Machine

variable {α : Type} {num : α → Nat} {t : Tbl α}

theorem rising_tset (n : Nat) (v : α) (h : (t.map Prod.fst).Pairwise (· < ·)) :
    ((tset t n v).map Prod.fst).Pairwise (· < ·) := by
  induction t with
  | nil => simp [tset]
  | cons e t ih =>
    obtain ⟨k, x⟩ := e
    obtain ⟨hk, ht⟩ := List.pairwise_cons.mp h
    simp only [tset]
    split
    · subst_vars
      exact h
    split
    · refine List.pairwise_cons.mpr ⟨fun m hm => ?_, h⟩
      rcases List.mem_cons.mp hm with rfl | hm
      · assumption
      · exact Nat.lt_trans ‹n < k› (hk m hm)
    · refine List.pairwise_cons.mpr ⟨fun m hm => ?_, ih ht⟩
      obtain ⟨e, he, rfl⟩ := List.mem_map.mp hm
      rcases mem_tset he with rfl | he
      · change k < n
        omega
      · exact hk _ (List.mem_map_of_mem he)

theorem tdel_sublist (t : Tbl α) (n : Nat) : (tdel t n).Sublist t := by
  induction t with
  | nil => exact .slnil
  | cons e t ih =>
    obtain ⟨k, x⟩ := e
    simp only [tdel]
    split
    · exact List.sublist_cons_self _ _
    split
    · exact .refl _
    · exact ih.cons_cons _

protected theorem keyedBy.tset (h : keyedBy num t) (v : α) : keyedBy num (tset t (num v) v) := by
  refine ⟨rising_tset _ v h.1, fun e he => ?_⟩
  rcases mem_tset he with rfl | he
  · rfl
  · exact h.2 e he

protected theorem keyedBy.tmod (h : keyedBy num t) (n : Nat) {f : α → α} (hf : ∀ v, num (f v) = num v) :
    keyedBy num (tmod t n f) := by
  unfold Machine.tmod
  split
  · next v hv =>
    have hn : num (f v) = n := (hf v).trans (h.2 _ (mem_of_tget hv))
    exact hn ▸ h.tset (f v)
  · exact h

protected theorem keyedBy.sublist {u : Tbl α} (h : keyedBy num t) (hu : u.Sublist t) : keyedBy num u :=
  ⟨h.1.sublist (hu.map _), fun e he => h.2 e (hu.subset he)⟩

protected theorem keyedBy.map (h : keyedBy num t) {f : α → α} (hf : ∀ v, num (f v) = num v) :
    keyedBy num (t.map fun e => (e.1, f e.2)) := by
  refine ⟨by simpa [Function.comp_def] using h.1, fun e he => ?_⟩
  obtain ⟨d, hd, rfl⟩ := List.mem_map.mp he
  exact (hf d.2).trans (h.2 d hd)

end Sys2Proof.Claims
end

section
/-! Warps, teams and launches under their own numbers: what each write of the state keeps, and how branches, folds and outcomes are
put together. From here on `Keyed.f` says of the model's function `f` that it keeps them, and its proof has the shape of `f`: a write
of the state is a step of the chain `h.putWarp.bump…`, a branch is an `.ite` or a `split`, a fold is `h.foldl fun _ hs => …`. -/

namespace Sys2Proof.Claims
open Sys2Proof.Machine

variable {s : State}

/-! ## The tables of warps, teams and launches -/

protected theorem Keyed.putWarp (h : Keyed s) {w : Warp} : Keyed (s.putWarp w) :=
  have ⟨hw, ht⟩ := h
  ⟨hw.tset w, ht⟩

protected theorem Keyed.putTeam (h : Keyed s) {t : Team} : Keyed (s.putTeam t) :=
  have ⟨hw, ht, hl⟩ := h
  ⟨hw, ht.tset t, hl⟩

protected theorem Keyed.putLaunch (h : Keyed s) {l : Launch} : Keyed (s.putLaunch l) :=
  have ⟨hw, ht, hl⟩ := h
  ⟨hw, ht, hl.tset l⟩

protected theorem Keyed.modWarp (h : Keyed s) {wid : Nat} {f : Warp → Warp}
    (hf : ∀ w, (f w).wid = w.wid := by exact fun _ => rfl) :
    Keyed (s.modWarp wid f) :=
  have ⟨hw, ht⟩ := h
  ⟨hw.tmod wid hf, ht⟩

protected theorem Keyed.modTeam (h : Keyed s) {tid : Nat} {f : Team → Team}
    (hf : ∀ t, (f t).tid = t.tid := by exact fun _ => rfl) :
    Keyed (s.modTeam tid f) :=
  have ⟨hw, ht, hl⟩ := h
  ⟨hw, ht.tmod tid hf, hl⟩

protected theorem Keyed.modLaunch (h : Keyed s) {lid : Nat} {f : Launch → Launch}
    (hf : ∀ l, (f l).lid = l.lid := by exact fun _ => rfl) :
    Keyed (s.modLaunch lid f) :=
  have ⟨hw, ht, hl⟩ := h
  ⟨hw, ht, hl.tmod lid hf⟩

/-- An update of other fields. -/
protected theorem Keyed.same (h : Keyed s) {t : State} (hw : t.warps = s.warps := by rfl) (ht : t.teams = s.teams := by rfl)
    (hl : t.launches = s.launches := by rfl) : Keyed t := by
  rw [Keyed, hw, ht, hl]
  exact h

/-! ## Outcomes, branches and folds -/

/-- The state that a step leads to, where it leads to one, is keyed. -/
def NextKeyed : Result → Prop
  | .next t => Keyed t
  | .fault _ | .refused _ => True

protected theorem Keyed.ite {c : Prop} {_ : Decidable c} {a b : State} (ha : Keyed a) (hb : Keyed b) :
    Keyed (if c then a else b) := by
  split <;> assumption

protected theorem Keyed.iteFst {c : Prop} {_ : Decidable c} {β : Type} {a b : State × β} (ha : Keyed a.1) (hb : Keyed b.1) :
    Keyed (if c then a else b).1 := by
  split <;> assumption

protected theorem NextKeyed.ite {c : Prop} {_ : Decidable c} {a b : Result} (ha : NextKeyed a) (hb : NextKeyed b) :
    NextKeyed (if c then a else b) := by
  split <;> assumption

protected theorem Keyed.foldl (h : Keyed s) {α : Type} {l : List α} {f : State → α → State}
    (hf : ∀ {s} a, Keyed s → Keyed (f s a)) : Keyed (l.foldl f s) :=
  foldl_keeps (fun _ a => hf a) l s h

/-- Folds that carry a value beside the state. -/
protected theorem Keyed.foldlFst {α β : Type} {l : List α} {p : State × β} {f : State × β → α → State × β}
    (h : Keyed p.1) (hf : ∀ {p : State × β} a, Keyed p.1 → Keyed (f p a).1) : Keyed (l.foldl f p).1 :=
  foldl_keeps (P := fun p => Keyed p.1) (fun _ a => hf a) l p h

/-- The state of a pair whose parts have been taken apart. -/
protected theorem Keyed.ofFst {β : Type} {p : State × β} {t : State} {b : β} (h : Keyed p.1) (heq : p = (t, b)) : Keyed t := by
  subst heq
  exact h

/-- An update that removes warps and teams. -/
protected theorem Keyed.fewer (h : Keyed s) {t : State} (hw : t.warps.Sublist s.warps) (ht : t.teams.Sublist s.teams)
    (hl : t.launches = s.launches) : Keyed t := by
  obtain ⟨hws, hts, hls⟩ := h
  exact ⟨hws.sublist hw, hts.sublist ht, hl ▸ hls⟩

protected theorem Keyed.mapLaunches (h : Keyed s) {f : Launch → Launch} (hf : ∀ l, (f l).lid = l.lid) {t : State}
    (hw : t.warps = s.warps := by rfl) (ht : t.teams = s.teams := by rfl)
    (hl : t.launches = s.launches.map fun e => (e.1, f e.2) := by rfl) : Keyed t := by
  rw [Keyed, hw, ht, hl]
  obtain ⟨hws, hts, hls⟩ := h
  exact ⟨hws, hts, hls.map hf⟩

protected theorem NextKeyed.next {r : Result} (h : NextKeyed r) (heq : r = .next s) : Keyed s := by
  subst heq
  exact h

/-! ## Outcomes that carry a state -/

def EngX.Keyed : EngX → Prop
  | .ok s _ | .wait s => Claims.Keyed s
  | .bad _ _ => True

def EngLines.Keyed : EngLines → Prop
  | .ok s _ | .wait s => Claims.Keyed s
  | .bad _ _ => True

def AtBanks.Keyed : AtBanks → Prop
  | .done s | .again s => Claims.Keyed s

def UnitRes.Keyed : UnitRes → Prop
  | .moved s _ _ | .wait s _ _ | .sent s _ _ | .fail s _ _ _ => Claims.Keyed s

def BulkRead.Keyed : BulkRead → Prop
  | .ok s _ | .wait s => Claims.Keyed s
  | .bad _ _ => True

def SlotRead.Keyed : SlotRead → Prop
  | .packet s _ | .wait s | .failed s => Claims.Keyed s

section
variable {r : EngX} {l : Leaf} (h : EngX.Keyed r)
include h

protected theorem EngX.Keyed.ok (heq : r = .ok s l) : Claims.Keyed s :=
  heq.subst (motive := EngX.Keyed) h
protected theorem EngX.Keyed.wait (heq : r = .wait s) : Claims.Keyed s :=
  heq.subst (motive := EngX.Keyed) h

end

section
variable {r : EngLines} {ls : List (Nat × Leaf)} (h : EngLines.Keyed r)
include h

protected theorem EngLines.Keyed.ok (heq : r = .ok s ls) : Claims.Keyed s :=
  heq.subst (motive := EngLines.Keyed) h
protected theorem EngLines.Keyed.wait (heq : r = .wait s) : Claims.Keyed s :=
  heq.subst (motive := EngLines.Keyed) h

end

section
variable {r : AtBanks} (h : AtBanks.Keyed r)
include h

protected theorem AtBanks.Keyed.done (heq : r = .done s) : Claims.Keyed s :=
  heq.subst (motive := AtBanks.Keyed) h
protected theorem AtBanks.Keyed.again (heq : r = .again s) : Claims.Keyed s :=
  heq.subst (motive := AtBanks.Keyed) h

end

section
variable {r : UnitRes} {c : CopyOp} {n cause : Nat} {bank : Bool} (h : UnitRes.Keyed r)
include h

protected theorem UnitRes.Keyed.moved (heq : r = .moved s c n) : Claims.Keyed s :=
  heq.subst (motive := UnitRes.Keyed) h
protected theorem UnitRes.Keyed.wait (heq : r = .wait s n bank) : Claims.Keyed s :=
  heq.subst (motive := UnitRes.Keyed) h
protected theorem UnitRes.Keyed.sent (heq : r = .sent s c n) : Claims.Keyed s :=
  heq.subst (motive := UnitRes.Keyed) h
protected theorem UnitRes.Keyed.fail (heq : r = .fail s c cause n) : Claims.Keyed s :=
  heq.subst (motive := UnitRes.Keyed) h

end

section
variable {r : BulkRead} {bs : List Byte} (h : BulkRead.Keyed r)
include h

protected theorem BulkRead.Keyed.ok (heq : r = .ok s bs) : Claims.Keyed s :=
  heq.subst (motive := BulkRead.Keyed) h
protected theorem BulkRead.Keyed.wait (heq : r = .wait s) : Claims.Keyed s :=
  heq.subst (motive := BulkRead.Keyed) h

end

section
variable {r : SlotRead} {p : Packet} (h : SlotRead.Keyed r)
include h

protected theorem SlotRead.Keyed.packet (heq : r = .packet s p) : Claims.Keyed s :=
  heq.subst (motive := SlotRead.Keyed) h
protected theorem SlotRead.Keyed.wait (heq : r = .wait s) : Claims.Keyed s :=
  heq.subst (motive := SlotRead.Keyed) h
protected theorem SlotRead.Keyed.failed (heq : r = .failed s) : Claims.Keyed s :=
  heq.subst (motive := SlotRead.Keyed) h

end

protected theorem UnitRes.Keyed.ite {c : Prop} {_ : Decidable c} {a b : UnitRes} (ha : UnitRes.Keyed a) (hb : UnitRes.Keyed b) :
    UnitRes.Keyed (if c then a else b) := by
  split <;> assumption

/-! ## Changes that keep the number -/

theorem tid_popAll (t : Team) (w : Warp) (hs : List Nat) : (t.popAll w hs).tid = t.tid := by
  refine foldl_keeps (P := fun u => u.tid = t.tid) (fun _ _ hu => ?_) hs t rfl
  exact hu

theorem tid_drainBegin (s : State) (w : Warp) (id : Nat) (t : Team) (m : MatOp) : (drainBegin s w id t m).tid = t.tid := by
  unfold drainBegin; dsimp only
  split
  · split <;> rfl
  · rfl

theorem wid_loseData (w : Warp) (fresh k opnd : Nat) (lanes : Lanes) (attic halts : Bool) (found : Option Dword) :
    (w.loseData fresh k opnd lanes attic halts found).wid = w.wid := by
  unfold Warp.loseData; dsimp only
  split
  · rfl
  · split <;> rfl

end Sys2Proof.Claims
end

section
/-! Records, charges and lines of the second-level cache: they change the three tables
by writes of entries under their own numbers alone. -/

namespace Sys2Proof.Claims
open Sys2Proof.Machine

set_option Elab.async false

variable {s : State} {ctx dev id k keyid line n rc : Nat} {enc low zp : Bool} {f : Frame} {i : Instr} {ws : List (Nat × Byte)}
  {t : Team} {l : L2Line} {who : Asker}
variable (h : Keyed s)
include h

protected theorem Keyed.modCore {c : Nat} {f : Core → Core} : Keyed (s.modCore c f) := h.same
protected theorem Keyed.modOp {f : Op → Op} : Keyed (s.modOp id f) := h.same
protected theorem Keyed.delOp : Keyed (s.delOp id) := h.same
protected theorem Keyed.modSv {f : Sv → Sv} : Keyed (s.modSv k f) := h.same
protected theorem Keyed.soon : Keyed (s.soon i) := h.same
protected theorem Keyed.later : Keyed (s.later n i) := h.same
protected theorem Keyed.laterFree : Keyed (s.laterFree n i) := h.same
protected theorem Keyed.bump : Keyed s.bump := h.same
protected theorem Keyed.used : Keyed s.used := h.same
protected theorem Keyed.releaseHeld : Keyed (releaseHeld s) := .ite h h.same
protected theorem Keyed.emit : Keyed (s.emit dev f) := .ite h.same h.same
protected theorem Keyed.unsend : Keyed (s.unsend f) := h.same

protected theorem Keyed.overwrite {ws : List (Nat × Nat)} : Keyed (overwrite s t ws) :=
  .ite h.modTeam (h.foldl fun _ hs => hs.modCore)

protected theorem Keyed.charge : Keyed (charge s ctx k n) := .ite h.same h.same
protected theorem Keyed.chargeDev : Keyed (chargeDev s k n) := h.same
protected theorem Keyed.chargeEnergy {kind mv ratio : Nat} : Keyed (chargeEnergy s ctx kind mv ratio) := h.charge
protected theorem Keyed.uncharge : Keyed (uncharge s ctx k n) := .ite h.same h.same

protected theorem Keyed.writeBack : Keyed (writeBack s line l) := by
  unfold writeBack; dsimp only
  split
  · exact h
  split
  · split
    · exact h.charge.charge.same
    · exact h.charge.charge
  · exact h.charge.charge.same

protected theorem Keyed.dropLine : Keyed (dropLine s line l) := h.writeBack.same
protected theorem Keyed.fillLine : Keyed (fillLine s line enc keyid low) := h.same
protected theorem Keyed.discardLine : Keyed (discardLine s line l) := h.same

protected theorem Keyed.evictLine : Keyed (evictLine s line) := by
  unfold evictLine
  split
  · exact .ite h.discardLine h.dropLine
  · exact h

protected theorem Keyed.makeRoom : Keyed (makeRoom s line) := by
  unfold makeRoom
  split
  · split
    · exact h.used.evictLine
    · exact h
  · exact h

protected theorem Keyed.trimL2 : Keyed (trimL2 s) := by
  unfold trimL2
  refine h.foldl fun _ hs => ?_
  split
  · split
    · exact hs.used.soon
    · exact hs
  · exact hs

protected theorem Keyed.dropSpent {p : L2Line → Bool} : Keyed (dropSpent s line p) := by
  unfold dropSpent
  split
  · exact .ite h.discardLine h
  · exact h

protected theorem Keyed.chargeFill : Keyed (chargeFill s ctx) := h.charge.charge.chargeEnergy
protected theorem Keyed.unchargeFill : Keyed (unchargeFill s ctx) := h.uncharge.uncharge.uncharge
protected theorem Keyed.noteFill : Keyed (noteFill s line who) := h.chargeFill.same

protected theorem Keyed.chargeHit : Keyed (chargeHit s line who) := by
  unfold chargeHit
  split
  · exact h.unchargeFill.charge.noteFill
  · exact h.charge

protected theorem Keyed.homeLine : Keyed (homeLine s line enc keyid who low) := by
  unfold homeLine; dsimp only
  split
  · exact .ite h.dropSpent.chargeHit h.dropSpent.dropLine.fillLine.noteFill
  · exact h.dropSpent.makeRoom.fillLine.noteFill

protected theorem Keyed.countRead : Keyed (countRead s line) := by
  unfold countRead
  split
  · exact .ite h h.same
  · exact h

protected theorem Keyed.raiseHorizon {lease : Nat} : Keyed (raiseHorizon s line lease) := h.same
protected theorem Keyed.clearPoison {b : Nat} : Keyed (clearPoison s line b) := h.same

protected theorem Keyed.homePut {rewrite : List Nat} : Keyed (homePut s line ctx zp rc ws rewrite).s := by
  unfold homePut
  extract_lets hit part lost zeros ws clear
  have hs : Keyed clear := h.foldl fun _ hs => hs.clearPoison
  split
  · exact hs
  dsimp only
  split
  · exact hs
  · exact hs.same

protected theorem Keyed.writeLine : Keyed (writeLine s line enc keyid who low) := h.dropSpent.homeLine
protected theorem Keyed.homeWrite : Keyed (homeWrite s line enc keyid who low zp rc ws).s := h.writeLine.homePut

end Sys2Proof.Claims
end

section
/-! Translation, the checks at issue and the results of a syllable (R150 to R154, R264 to R277). -/

namespace Sys2Proof.Claims
open Sys2Proof.Machine

set_option Elab.async false

variable {s : State} {core ctx k n va wid : Nat} {rd : Rd} {l : Leaf} {who : WalkReq} {need : Need} {pages : List Nat} {w : Warp}
  {i : Instr} {dst : Dst} {comp : Rd → Nat → LaneRes} {f : Fields}
variable (h : Keyed s)
include h

protected theorem Keyed.taken : Keyed (rd.taken s) := h.modTeam fun _ => tid_popAll _ _ _

protected theorem Keyed.bringWalk {level table : Nat} : Keyed (bringWalk s va ctx n level table) := by
  induction n generalizing s level table with
  | zero => exact h
  | succ n ih => exact .ite h.homeLine (ih h.homeLine)

protected theorem Keyed.coreTlbAdd : Keyed (coreTlbAdd s core ctx va l) := h.modCore.used
protected theorem Keyed.dieTlbAdd {die : Nat} : Keyed (dieTlbAdd s die ctx va l) := h.same
protected theorem Keyed.joinWalk : Keyed (joinWalk s who core ctx va need) := .ite h.same h.same.bump.laterFree
protected theorem Keyed.askWalks {pages : List (Nat × Need)} : Keyed (askWalks s w pages) := h.foldl fun _ hs => .ite hs hs.joinWalk

protected theorem Keyed.fillPages : Keyed (fillPages s core ctx pages) := by
  unfold fillPages
  refine h.foldl fun _ hs => ?_
  split
  · exact hs.coreTlbAdd
  · exact hs

protected theorem Keyed.engXlate {res : List (Nat × Nat × Nat)} : EngX.Keyed (engXlate s who core ctx va need res) := by
  unfold engXlate
  split
  · exact trivial
  · exact h.joinWalk
  · split
    · exact trivial
    · exact h.coreTlbAdd
  · split
    · exact trivial
    · exact h

protected theorem Keyed.fillDie : Keyed (fillDie s w pages) := h.putWarp.fillPages

protected theorem Keyed.stopFor {p : Pre} {iss : Issue} : Keyed (stopFor p s w iss) := by
  unfold stopFor
  split
  · exact h
  · exact h
  · exact h.putWarp
  · exact (Keyed.ite h.putWarp h.fillDie).askWalks
  · exact h.fillDie
  · exact h.putWarp.bump.soon

protected theorem Keyed.withIssue {chk : Rd → Pre} {eff : Rd → State → State} (heff : ∀ {rd s}, Keyed s → Keyed (eff rd s)) :
    NextKeyed (withIssue i chk eff s) := by
  unfold withIssue; dsimp only
  split
  · exact h
  split
  · exact h.same
  split
  · exact heff h.taken
  · exact h.same.stopFor

protected theorem Keyed.launchFlight {mask : Lanes} {lat : Nat} {rs : List LaneRes} : Keyed (launchFlight rd dst mask lat rs s) :=
  h.putWarp.bump

protected theorem Keyed.holdV {occ : Nat} : Keyed (holdV rd occ s) := h.modCore
protected theorem Keyed.vEff : Keyed (vEff i f dst comp rd s) := h.launchFlight.holdV
protected theorem Keyed.vIssue : NextKeyed (vIssue i f dst comp s) := h.withIssue fun hs => hs.vEff

protected theorem Keyed.execNbr {fill : NbrFill} {dn w64 : Bool} : NextKeyed (execNbr f fill dn w64 k s) :=
  h.withIssue fun hs => hs.vEff

protected theorem Keyed.requestFetch : Keyed (requestFetch s wid) := by
  unfold requestFetch; dsimp only
  split
  · exact h
  split
  · exact h
  refine h.foldl fun _ hs => ?_
  split
  · exact hs
  split
  · exact hs.modWarp
  · exact hs.laterFree

protected theorem Keyed.dropSoon : Keyed (dropSoon s wid) := by
  unfold dropSoon
  split
  · exact h
  · exact h.same

protected theorem Keyed.advanceIssue : Keyed (advanceIssue i s) := by
  unfold advanceIssue
  split
  · exact h
  · exact .ite h.same h.same.modWarp.requestFetch.dropSoon

end Sys2Proof.Claims
end

section
/-! What the control, scratchpad and memory syllables do when they issue. -/

namespace Sys2Proof.Claims
open Sys2Proof.Machine

set_option Elab.async false

variable {s : State} {core ctx hook id rc seq wid : Nat} {stm sx : Bool} {rd : Rd} {t : Team} {f : Fields} {tgt : Target} {w : Warp}
  {off : Half} {sz : Sz} {op : AOp} {ty : ATy} {a : ScrAcc} {m : MemOp} {ca : Ca}
variable (h : Keyed s)
include h

protected theorem Keyed.ctlEff {go : Nat → Slice → Slice} : Keyed (ctlEff go rd s) := h.putWarp.same
protected theorem Keyed.braEff {t : Target} : Keyed (braEff f t rd s) := h.ctlEff
protected theorem Keyed.brpEff {t : Target} : Keyed (brpEff f t rd s) := h.ctlEff
protected theorem Keyed.loopEff {step : BitVec 6} {t : Target} : Keyed (loopEff f step t rd s) := h.ctlEff
protected theorem Keyed.gangEff {taken : Rd → Bool} {t : Target} : Keyed (gangEff taken t rd s) := h.ctlEff
protected theorem Keyed.execBrx : NextKeyed (execBrx f s) := h.withIssue fun hs => hs.ctlEff
protected theorem Keyed.execRegang : NextKeyed (execRegang f tgt s) := h.withIssue fun hs => hs.ctlEff
protected theorem Keyed.execCall : NextKeyed (execCall f tgt s) := h.withIssue fun hs => hs.ctlEff
protected theorem Keyed.execCallx : NextKeyed (execCallx f s) := h.withIssue fun hs => hs.ctlEff
protected theorem Keyed.execRet : NextKeyed (execRet f s) := h.withIssue fun hs => hs.ctlEff
protected theorem Keyed.execExit : NextKeyed (execExit f s) := h.withIssue fun hs => .ite hs.putWarp hs.putWarp.modTeam
protected theorem Keyed.execYield : NextKeyed (execYield f s) := h.withIssue fun hs => hs.ctlEff.modWarp
protected theorem Keyed.queueScr {kind : ScrKind} {lanes : List ScrLane} : Keyed (queueScr rd f kind lanes w s) := h.putWarp.bump
protected theorem Keyed.ldsEff : Keyed (ldsEff f sz sx off rd s) := h.queueScr
protected theorem Keyed.stsEff : Keyed (stsEff f sz off rd s) := h.queueScr
protected theorem Keyed.atomsEff : Keyed (atomsEff f op ty hook off rd s) := .ite h.putWarp.bump h.queueScr
protected theorem Keyed.markEff {full : Bool} : Keyed (markEff f full hook rd s) := .ite h.putWarp.bump h.queueScr

protected theorem Keyed.performScr : Keyed (performScr s w t a) := by
  unfold performScr
  split
  · exact h.putWarp.used
  · exact h.putWarp.putTeam.overwrite
  · exact .ite h.putWarp.putTeam.used.overwrite h.putWarp.putTeam.used
  · exact h.putWarp.putTeam

protected theorem Keyed.takeBanks {bs : List (Nat × Nat)} : Keyed (takeBanks s bs) := h.foldl fun _ hs => hs.modCore
protected theorem Keyed.scrWait : Keyed (scrWait s w a) := h.putWarp

protected theorem Keyed.scrStep : Keyed (scrStep s w t a) :=
  .ite h (.ite h.scrWait (.ite h.putWarp (.ite h.scrWait (.ite h.takeBanks.modCore.putWarp h.takeBanks.modCore.performScr))))

protected theorem Keyed.execScratchAccessPerform : NextKeyed (execScratchAccessPerform wid seq s) := by
  unfold execScratchAccessPerform
  split
  · exact h
  split
  · exact h.scrStep
  · exact h

protected theorem Keyed.execScratchLineFullResume : NextKeyed (execScratchLineFullResume wid s) := by
  unfold execScratchLineFullResume
  split
  · exact h
  split
  · exact h
  · exact h.putWarp

protected theorem Keyed.reserveEntry : Keyed (reserveEntry rd f id s) := by
  unfold reserveEntry
  split
  · exact h.modTeam
  · exact h

protected theorem Keyed.postLines : Keyed (postLines s id m) := h.foldl fun _ hs => hs.laterFree

protected theorem Keyed.launchMem {dst : Dst} : Keyed (launchMem rd f hook dst m s) :=
  .ite h.putWarp.reserveEntry.bump (.ite h.putWarp.reserveEntry.bump.same.laterFree h.putWarp.reserveEntry.bump.same.postLines)

protected theorem Keyed.ldEff : Keyed (ldEff f sz sx stm hook off rd s) := h.launchMem
protected theorem Keyed.stEff : Keyed (stEff f sz stm rc hook off rd s) := h.launchMem
protected theorem Keyed.ldtEff : Keyed (ldtEff f sz stm hook off rd s) := h.launchMem
protected theorem Keyed.sttEff : Keyed (sttEff f sz stm hook off rd s) := h.launchMem
protected theorem Keyed.l1Count {vas : List Nat} : Keyed (l1Count s core ctx vas) := h.modCore
protected theorem Keyed.ldrEff : Keyed (ldrEff f sz sx ca rc hook off rd s) := h.l1Count.launchMem
protected theorem Keyed.atomEff : Keyed (atomEff f op ty hook off rd s) := h.launchMem
protected theorem Keyed.prefEff : Keyed (prefEff f ca off rd s) := .ite h h.same.bump.postLines
protected theorem Keyed.ldwEff : Keyed (ldwEff f sz sx hook off rd s) := h.launchMem

protected theorem Keyed.fenceEff {scope : Nat} {hold : Bool} : Keyed (fenceEff f scope hold hook rd s) :=
  .ite h.putWarp.bump h.same.putWarp.bump

protected theorem Keyed.icinvEff : Keyed (icinvEff f hook rd s) := h.putWarp.modCore.bump
protected theorem Keyed.execIcinv : NextKeyed (execIcinv f hook s) := h.withIssue fun hs => hs.icinvEff

end Sys2Proof.Claims
end

section
/-! Work queues, hooks, barriers, waits, traps, control registers and knocks (R300, R391 to R403, R412 to R418, R68). -/

namespace Sys2Proof.Claims
open Sys2Proof.Machine

set_option Elab.async false

variable {s : State} {core dev hook id k n room seq tid wid : Nat} {poll w64 : Bool} {ls : List Nat} {f : Fields} {rd : Rd}
  {w : Warp} {t : Team} {r : Csr} {l : Launch} {o : Op}
variable (h : Keyed s)
include h

protected theorem Keyed.wqPut {e : BitVec 128} : Keyed (wqPut s n e).1 := by
  unfold wqPut
  split
  · exact h
  · exact .iteFst h (.ite h.same h.same.later)

protected theorem Keyed.wqPutAll : Keyed (wqPutAll rd f ls s).1 := by
  induction ls generalizing s with
  | nil => exact h
  | cons l ls ih => exact ih h.wqPut

protected theorem Keyed.wqenqEff {j : Nat} : Keyed (wqenqEff f j hook rd s) := h.wqPutAll.putWarp.bump

protected theorem Keyed.wqTake : Keyed (wqTake rd f poll id ls s).1 := by
  induction ls generalizing s with
  | nil => exact h
  | cons l ls ih =>
    unfold wqTake; dsimp only
    split
    · exact ih h.same
    · exact .iteFst (ih h) (ih h.same)

protected theorem Keyed.wqDone {en : Lanes} {got : List LaneRes} : Keyed (wqDone s w hook id en got) := h.putWarp
protected theorem Keyed.wqdeqEff : Keyed (wqdeqEff f poll hook rd s) := .ite h.wqTake.bump.wqDone h.wqTake.bump.same.putWarp
protected theorem Keyed.holdEff {hold : Hold} : Keyed (holdEff hold rd s) := h.putWarp
protected theorem Keyed.execWait : NextKeyed (execWait f hook s) := h.withIssue fun hs => hs.holdEff

protected theorem Keyed.raiseTokens {pc : Dword} : Keyed (raiseTokens s wid hook pc n) := by
  induction n generalizing s with
  | zero => exact h
  | succ n ih => exact ih h.modWarp.bump

protected theorem Keyed.execHkadjUp : NextKeyed (execHkadjUp f hook n s) := h.withIssue fun hs => hs.putWarp.raiseTokens

protected theorem Keyed.hkadjDnEff {w : Option Nat} : Keyed (hkadjDnEff hook n w rd s) := by
  unfold hkadjDnEff
  split
  · exact h
  · exact (Keyed.ite h.modWarp h.modWarp.modWarp).bump.soon

protected theorem Keyed.barEff {drain hold : Bool} : Keyed (barEff f drain hold k rd s) := h.putWarp.modTeam.bump.soon

protected theorem Keyed.barwEff : Keyed (barwEff k rd s) := by
  unfold barwEff
  split
  · exact h
  · exact .ite h.holdEff h

protected theorem Keyed.sleepEff {sleep : Bool} : Keyed (sleepEff f sleep rd s) := .ite h h.holdEff
protected theorem Keyed.modIsland {f : Island → Island} : Keyed (s.modIsland core room k f) := h.modCore

protected theorem Keyed.wakeIslands {ks : List Nat} : Keyed (wakeIslands s core room ks) :=
  .ite h (h.foldl fun _ hs => hs.modIsland.soon).same

protected theorem Keyed.releasePaths {cyc : Nat} {saved : Bool} {ends : Hold → Option Nat} :
    Keyed (releasePaths s w cyc saved ends) :=
  h.putWarp.wakeIslands

protected theorem Keyed.execWaitRelease : NextKeyed (execWaitRelease wid s) := by
  unfold execWaitRelease
  split
  · exact h
  · exact h.releasePaths

protected theorem Keyed.execTimedWaitExpiry : NextKeyed (execTimedWaitExpiry wid s) := by
  unfold execTimedWaitExpiry
  split
  · exact h
  · exact h.releasePaths

protected theorem Keyed.endPhase : Keyed (endPhase s tid k) := h.same

protected theorem Keyed.settleDo {x : Settle} : Keyed (settleDo s w x) := by
  unfold settleDo; dsimp only
  split
  · exact .ite h h.modWarp.modTeam.endPhase
  split
  · exact h.modWarp
  · exact .ite h.modWarp (.ite h.modWarp.putWarp.soon h.modWarp.putWarp)

protected theorem Keyed.execSettlePoint : NextKeyed (execSettlePoint wid seq s) := by
  unfold execSettlePoint
  split
  · exact h
  split
  · exact h
  · exact Keyed.ite h.settleDo h

protected theorem Keyed.execHookCreditCommit : NextKeyed (execHookCreditCommit wid hook n s) := by
  unfold execHookCreditCommit
  split
  · exact h
  · exact .ite h h.putWarp.dropSoon

protected theorem Keyed.releaseBar {b : Barrier} : Keyed (releaseBar s t b k) := h.foldl fun _ hs => .ite hs.releasePaths hs

protected theorem Keyed.execBarrierRelease : NextKeyed (execBarrierRelease tid k s) := by
  unfold execBarrierRelease
  split
  · exact h
  · exact .ite h.modTeam.releaseBar h

protected theorem Keyed.trapEff {n : Half} : Keyed (trapEff f n rd s) := .ite h h.putWarp.bump
protected theorem Keyed.rteEff : Keyed (rteEff rd s) := h.putWarp.same
protected theorem Keyed.icbEff : Keyed (icbEff f hook rd s) := h.same.putWarp.bump
protected theorem Keyed.execSyscIcb : NextKeyed (execSyscIcb f hook s) := h.withIssue fun hs => hs.icbEff

protected theorem Keyed.syscEff : Keyed (syscEff f n hook rd s) := by
  unfold syscEff
  split
  · exact h.putWarp.bump
  · exact h.putWarp.bump.same

protected theorem Keyed.finishItem {res : List LaneRes} {fault : Option TrapDue} : Keyed (finishItem s wid hook id res fault) :=
  h.modWarp

protected theorem Keyed.execSyscReply {op : Nat} {v : Word} : NextKeyed (execSyscReply op v s) := by
  unfold execSyscReply
  split
  · exact h
  split
  · exact h.later
  split
  · exact h.finishItem.delOp
  · exact h

protected theorem Keyed.csrrEff : Keyed (csrrEff f w64 r rd s) := h.launchFlight

protected theorem Keyed.csrwEff : Keyed (csrwEff f w64 r rd s) := by
  unfold csrwEff
  split
  · exact h
  · exact h.modWarp

protected theorem Keyed.execCsrx {csr : Csr} : NextKeyed (execCsrx f w64 csr s) := h.withIssue fun hs => hs.csrrEff.csrwEff

protected theorem Keyed.knockEff : Keyed (knockEff f hook rd s) :=
  .ite h.same.putWarp.bump.later (.ite h.same.putWarp.bump.later.later h.same.putWarp.bump.emit.later)

protected theorem Keyed.event {e : Sv4Event} : Keyed (s.event e) := h.same
protected theorem Keyed.sendKnock {bits : BitVec 128} : Keyed (sendKnock s dev bits) := .ite h.later h.emit

protected theorem Keyed.completionKnock : Keyed (completionKnock s l) := by
  unfold completionKnock
  split
  · exact h.event
  · exact h.sendKnock

protected theorem Keyed.knockDone {reason : Option Nat} : Keyed (knockDone s o dev reason) := by
  unfold knockDone
  split
  · exact h.delOp
  · exact h.finishItem.delOp

end Sys2Proof.Claims
end

section
/-! Accesses at their homes and their completion (R251 to R261, R285, R377, R382), the cellar and the work-queue units. -/

namespace Sys2Proof.Claims
open Sys2Proof.Machine

set_option Elab.async false

variable {s : State} {core ctx line n op pa rc va wid : Nat} {tag zp : Bool} {o : Op} {l : MemLane} {m : MemOp} {ls : List MemLane}
  {ty : ATy} {data : List Byte}
variable (h : Keyed s)
include h

protected theorem Keyed.execL2Eviction : NextKeyed (execL2Eviction line s) := h.evictLine
protected theorem Keyed.giveUpL1 : Keyed (giveUpL1 s o va) := h.modCore

protected theorem Keyed.fillL1 {lease reads : Nat} : Keyed (fillL1 s o va line lease rc reads) :=
  .ite h.giveUpL1 h.modCore.used.raiseHorizon.charge

protected theorem Keyed.readLane {leaf : Leaf} : Keyed (readLane s line m l leaf pa n va tag).1 := .iteFst h.used h.used

protected theorem Keyed.readLanes {key : Option (Bool × Nat)} : Keyed (readLanes s o line tag m key ls).1 := by
  induction ls generalizing s m key with
  | nil => exact h
  | cons l ls ih => exact ih (Keyed.ite h h.homeLine).readLane

protected theorem Keyed.ldrFills : Keyed (ldrFills s o line m ls) := by
  unfold ldrFills
  split
  · exact h.foldl fun _ hs => .ite hs.fillL1 hs.giveUpL1
  all_goals exact h

protected theorem Keyed.prefLine : Keyed (prefLine s o line m ls) :=
  h.foldl fun _ hs => .ite hs (.ite hs.homeLine.fillL1 hs.homeLine)

protected theorem Keyed.storeGroup {a : Bool × Nat × Bool} : Keyed (storeGroup s o line tag m a ls).1 := h.homeWrite
protected theorem Keyed.storeLine : Keyed (storeLine s o line tag m ls).1 := Keyed.foldlFst h fun _ hs => hs.storeGroup
protected theorem Keyed.ordinary : Keyed (ordinary s line) := h.same

protected theorem Keyed.atomLane {op : AOp} : Keyed (atomLane s o line op ty m l).1 :=
  .iteFst (Keyed.ite h.writeLine h.writeLine.charge).used (Keyed.ite h.writeLine h.writeLine.charge).used.homePut.ordinary

protected theorem Keyed.atomLine {op : AOp} : Keyed (atomLine s o line op ty m ls).1 := Keyed.foldlFst h fun _ hs => hs.atomLane

protected theorem Keyed.performLine : Keyed (performLine s o m line).1 := by
  unfold performLine
  extract_lets tag n ls d
  have hd : Keyed d := by
    unfold d
    split
    · exact .ite h.discardLine h
    · exact h
  split
  · exact .ite hd.readLanes.countRead.ldrFills hd.readLanes.countRead.ldrFills.charge
  · exact .ite hd.readLanes.countRead.ldrFills hd.readLanes.countRead.ldrFills.charge
  · exact .ite hd.readLanes.countRead.ldrFills hd.readLanes.countRead.ldrFills.charge
  · exact hd.storeLine
  · exact hd.storeLine
  · exact hd.atomLine
  · exact hd.prefLine
  · exact hd

protected theorem Keyed.lastLine : Keyed (lastLine s o m) := by
  unfold lastLine
  split
  any_goals exact h.laterFree
  exact h.delOp

protected theorem Keyed.execHomeAccessPerform : NextKeyed (execHomeAccessPerform op line s) := by
  unfold execHomeAccessPerform
  split
  · exact h
  split
  · extract_lets here r
    have hr : Keyed r.1 := Keyed.foldlFst h fun _ hs => hs.performLine
    exact .ite h (.ite h.later (Keyed.ite hr.modOp.trimL2.lastLine hr.modOp.trimL2))
  · exact h

protected theorem Keyed.completeMem : Keyed (completeMem s o m) := by
  unfold completeMem
  split
  · exact h.putWarp.delOp.used
  · exact h.delOp

protected theorem Keyed.chargeCellar : Keyed (chargeCellar s o m) := by
  unfold chargeCellar
  split
  · exact .ite h h.charge
  all_goals exact h

protected theorem Keyed.execLoadDataArrival : NextKeyed (execLoadDataArrival op s) := by
  unfold execLoadDataArrival
  split
  · split
    · exact h.chargeCellar.completeMem
    · exact h
  · exact h

protected theorem Keyed.execStoreCompletion : NextKeyed (execStoreCompletion op s) := by
  unfold execStoreCompletion
  split
  · split
    · exact h.completeMem
    · exact h
  · exact h

protected theorem Keyed.execHatchLoadEntryFill : NextKeyed (execHatchLoadEntryFill op s) := by
  unfold execHatchLoadEntryFill; dsimp only
  split
  · split
    · split
      · exact h.chargeCellar.modTeam.completeMem
      · exact h
    · exact h
  · exact h

protected theorem Keyed.execL1LeaseExpiry : NextKeyed (execL1LeaseExpiry core ctx line s) := h.modCore
protected theorem Keyed.execRefreshWindowEnd : NextKeyed (execRefreshWindowEnd wid s) := h.modWarp
protected theorem Keyed.cellarPut {off : Nat} : Keyed (cellarPut s off data zp) := h.same

protected theorem Keyed.execCellarWrite {place : Nat × Nat} : NextKeyed (execCellarWrite place data s) := by
  unfold execCellarWrite; dsimp only
  split
  · exact h
  · exact .ite h.same h.cellarPut

protected theorem Keyed.serveUnit {fuel : Nat} : Keyed (serveUnit s n fuel) := by
  induction fuel generalizing s with
  | zero => exact h
  | succ fuel ih =>
    unfold serveUnit
    split
    · refine ih ?_
      split
      · split
        · exact .ite h.same.wqDone.delOp h.same.modOp
        · exact h.same
      · exact h.same
    · exact h

protected theorem Keyed.execWqEntryArrival {unit : Nat} : NextKeyed (execWqEntryArrival unit s) := h.serveUnit

end Sys2Proof.Claims
end

section
/-! The end of a walk, the matrix engine's operands, engine work, landings and drops (R266 to R273, R163, R331). -/

namespace Sys2Proof.Claims
open Sys2Proof.Machine

set_option Elab.async false

variable {s : State} {core ctx hook id len level rc reason seq va walk wid : Nat} {r : RemReq} {w : Warp} {k : Walk}
  {ls : List (Nat × Leaf)} {o : Op} {stm : Bool} {t : Team}
variable (h : Keyed s)
include h

protected theorem Keyed.keepFault {r : WalkReq} : Keyed (keepFault s ctx va reason level r) := by
  unfold keepFault
  split
  · exact h.modWarp
  · exact h.modWarp
  · exact h.modOp
  · exact h.same

protected theorem Keyed.wakeWalker : Keyed (wakeWalker s w) := by
  unfold wakeWalker; dsimp only
  split
  · exact .ite h.putWarp h.fillDie
  · exact (Keyed.ite h h.fillDie).askWalks

protected theorem Keyed.wakeReq {r : WalkReq} : Keyed (wakeReq s r) := by
  unfold wakeReq
  split
  · exact h.requestFetch
  all_goals exact h

protected theorem Keyed.wakeWalkers : Keyed (wakeWalkers s) := by
  unfold wakeWalkers
  refine h.foldl fun _ hs => ?_
  split
  · exact .ite hs hs.wakeWalker
  · exact hs

protected theorem Keyed.endWalk {f : State → State} (hf : ∀ {s}, Keyed s → Keyed (f s)) : Keyed (endWalk s k f) :=
  ((hf h.same).foldl fun _ hs => hs.wakeReq).wakeWalkers

protected theorem Keyed.walkFault : Keyed (walkFault s k reason level) := h.endWalk fun hs => hs.foldl fun _ hs => hs.keepFault
protected theorem Keyed.deferWalk : Keyed (deferWalk s k) := h.same

protected theorem Keyed.execTlbWalkComplete : NextKeyed (execTlbWalkComplete walk s) := by
  unfold execTlbWalkComplete
  split
  · exact h
  next k _ =>
  extract_lets b
  have hb : Keyed b := .ite h h.bringWalk.used.trimL2
  split
  · exact hb
  split
  · exact hb.endWalk fun hs => hs.dieTlbAdd.foldl fun _ hs => hs.coreTlbAdd
  · exact hb.walkFault
  · exact hb.deferWalk

protected theorem Keyed.restartWalks : Keyed (restartWalks s ctx va len) := h.same.foldl fun _ hs => hs.laterFree

protected theorem Keyed.forgetWalks : Keyed (forgetWalks s ctx va len) :=
  (h.same.foldl fun _ hs => hs.modWarp.requestFetch).restartWalks

protected theorem Keyed.modEngine {f : Engine → Engine} : Keyed (modEngine s w f) := by
  unfold modEngine
  split
  · exact .ite h.putTeam h.modCore
  · exact h

protected theorem Keyed.spoilDrain {d : Drained} : Keyed (spoilDrain s d) := by
  unfold spoilDrain
  split
  · exact h
  · exact h.putWarp.modTeam

protected theorem Keyed.spoilTile {tile row0 : Nat} : Keyed (spoilTile s w id tile row0) :=
  (Keyed.ite h.modEngine h).foldl fun _ hs => hs.spoilDrain

protected theorem Keyed.taintMma {m : MatOp} : Keyed (taintMma s w id m) := by
  unfold taintMma
  split
  · exact .ite (Keyed.ite h.spoilTile.spoilTile h.spoilTile).modOp.used h
  · exact h

protected theorem Keyed.taintAll : Keyed (taintAll s w) := by
  unfold taintAll
  refine h.foldl fun _ hs => ?_
  split
  · exact .ite hs.taintMma hs
  · exact hs

protected theorem Keyed.engLines {need : Need} {res : List (Nat × Nat × Nat)} {vas : List Nat} :
    EngLines.Keyed (engLines s id core ctx need res vas) := by
  induction vas generalizing s with
  | nil => exact h
  | cons va vas ih =>
    unfold engLines
    split
    · exact trivial
    · next heq => exact h.engXlate.wait heq
    next heq =>
    have hs := h.engXlate.ok heq
    split
    · next heq => exact (ih hs).ok heq
    · next heq => exact (ih hs).wait heq
    · exact trivial

protected theorem Keyed.bringLines : Keyed (bringLines s o stm ls) := h.foldl fun _ hs => hs.homeLine.countRead

protected theorem Keyed.engWrite {ws : List (Nat × Byte)} : Keyed (engWrite s o rc stm ls ws).s := by
  refine foldl_keeps (P := fun r : EngWrite => Keyed r.s) (fun r e hr => ?_) ls _ h
  dsimp only
  split
  · exact hr
  · exact hr.homeWrite

protected theorem Keyed.atBanks {ws : List (Nat × Nat)} : AtBanks.Keyed (atBanks s t o ws) := by
  unfold atBanks; dsimp only
  split
  · exact h
  split
  · exact h
  split
  · exact h.modOp
  split
  · exact h.takeBanks.modOp
  · exact h.takeBanks

protected theorem Keyed.keepBanks : Keyed (keepBanks s) := h.foldl fun _ hs => .ite (hs.foldl fun _ hs => hs.modCore) hs
protected theorem Keyed.sendReq : Keyed (sendReq s ctx r) := .ite h.later.later h.charge.emit.later

protected theorem Keyed.execResultLanding : NextKeyed (execResultLanding wid seq s) := by
  unfold execResultLanding
  split
  · exact h
  split
  · exact h
  split
  · exact .ite h.putWarp.putTeam.used h.putWarp
  · exact h.putWarp.used

protected theorem Keyed.execHatchPushResume : NextKeyed (execHatchPushResume wid s) := by
  unfold execHatchPushResume
  split
  · exact h
  split
  · exact h
  · exact h.putWarp

protected theorem Keyed.execHatchPopResume : NextKeyed (execHatchPopResume wid s) := by
  unfold execHatchPopResume
  split
  · exact h
  split
  · exact h
  · exact h.putWarp

protected theorem Keyed.dropL1 : Keyed (dropL1 s core ctx) := h.modCore
protected theorem Keyed.fenceDone {scope : Nat} : Keyed (fenceDone s w hook scope id) := .ite h.putWarp.delOp.dropL1 h.putWarp.delOp

protected theorem Keyed.fencesDone {is : List HookItem} : Keyed (fencesDone s wid hook is) := by
  induction is generalizing s with
  | nil => exact h
  | cons i is ih =>
    unfold fencesDone
    refine ih ?_
    split
    · split
      · exact .ite h.fenceDone h
      · exact h
    · exact h

protected theorem Keyed.retireOp : Keyed (retireOp s id) := by
  unfold retireOp
  split
  · split
    · refine Keyed.delOp ?_
      split
      · exact h.same
      · exact h
    · exact h.delOp
  · exact h

protected theorem Keyed.execHookDrop : NextKeyed (execHookDrop wid hook s) := by
  unfold execHookDrop; dsimp only
  split
  · exact h
  split
  · exact h.fencesDone.taintAll
  · exact (h.fencesDone.taintAll.putWarp.foldl fun _ hs => hs.retireOp).used

end Sys2Proof.Claims
end

section
/-! Copies, unit by unit (R305 to R317). -/

namespace Sys2Proof.Claims
open Sys2Proof.Machine

set_option Elab.async false

variable {s : State} {blk cause hook id n op rc tid va val : Nat} {ms : List Mv} {w : Warp} {c : CopyOp} {ls : List (Nat × Leaf)}
  {o : Op} {t : Team} {y : Layout} {key : Dword} {ans : List RemAns} {ty : ATy} {rd : Rd} {f : Fields} {stm : Bool}
variable (h : Keyed s)
include h

protected theorem Keyed.landMoves {ms : List (Mv × Byte)} : Keyed (landMoves s w id c ms) := by
  unfold landMoves
  split
  · exact h.modEngine
  split
  · exact h.putTeam.overwrite
  · exact h

protected theorem Keyed.chargePoison {vas : List Nat} : Keyed (chargePoison s o ls vas) := .ite h h.charge

protected theorem Keyed.moveIn : UnitRes.Keyed (moveIn s o c w t ms n) := by
  unfold moveIn; dsimp only
  split
  · exact h
  · next heq => exact h.engLines.wait heq
  next heq =>
  have hs := h.engLines.ok heq
  split
  · next heq => exact hs.atBanks.again heq
  next heq =>
  have hb := hs.atBanks.done heq
  split
  · exact hb.bringLines.chargePoison
  · exact hb.bringLines.chargePoison.landMoves.used

protected theorem Keyed.moveOut : UnitRes.Keyed (moveOut s o c t ms n) := by
  unfold moveOut; dsimp only
  split
  · exact h
  split
  · exact h
  · next heq => exact h.engLines.wait heq
  next heq =>
  have hs := h.engLines.ok heq
  split
  · next heq => exact hs.atBanks.again heq
  next heq =>
  have hw := hs.atBanks.done heq
  split <;> exact hw.engWrite.used

protected theorem Keyed.cellarUnit : UnitRes.Keyed (cellarUnit s o c w t) := by
  unfold cellarUnit; dsimp only
  split
  · exact h
  refine .ite (Keyed.ite h h.charge) ?_
  split
  · next heq => exact Keyed.ite (h.moveIn.moved heq) (h.moveIn.moved heq).charge
  · exact h.moveIn

protected theorem Keyed.bufUnit {start total : Nat} : UnitRes.Keyed (bufUnit s o c t start total) := by
  unfold bufUnit; dsimp only
  split
  · exact h
  split
  · next heq => exact h.atBanks.again heq
  · next heq => exact (h.atBanks.done heq).used

protected theorem Keyed.scrUnit : UnitRes.Keyed (scrUnit s o c w t) := by
  unfold scrUnit
  split
  · exact h.bufUnit
  · exact h.moveIn

protected theorem Keyed.headerUnit : UnitRes.Keyed (headerUnit s o c y) := by
  unfold headerUnit; dsimp only
  split
  · exact h
  · next heq => exact h.engLines.wait heq
  next heq =>
  have hs := h.engLines.ok heq
  split
  · exact hs.bringLines.chargePoison
  split
  · exact hs.bringLines.chargePoison
  · exact hs.bringLines.chargePoison.used

protected theorem Keyed.entryUnit {tb ix : List Nat} : UnitRes.Keyed (entryUnit s o c y tb blk ix) := by
  unfold entryUnit; dsimp only
  split
  · exact h
  · next heq => exact h.engLines.wait heq
  next heq =>
  have hs := h.engLines.ok heq
  split
  · exact hs.bringLines.chargePoison
  split
  · exact hs.bringLines.chargePoison
  · exact (Keyed.ite hs.bringLines.chargePoison.charge hs.bringLines.chargePoison).used

protected theorem Keyed.answerUnit : UnitRes.Keyed (answerUnit s o c w t y blk key ms n ans) := by
  unfold answerUnit
  split
  · exact h
  split
  · exact h
  split
  · next heq => exact h.atBanks.again heq
  · next heq => exact (h.atBanks.done heq).landMoves.used

protected theorem Keyed.askUnit : UnitRes.Keyed (askUnit s o c t y blk key ms) := by
  unfold askUnit
  split
  · exact h
  split
  · split
    · exact h
    split
    · next heq => exact h.atBanks.again heq
    · next heq => exact (h.atBanks.done heq).sendReq.used
  · exact h.sendReq

protected theorem Keyed.elemUnit {base : Nat} : UnitRes.Keyed (elemUnit s o c w t y base key blk) := by
  unfold elemUnit
  extract_lets es n out ms
  split
  · exact h
  refine .ite (.ite h.moveOut h.moveIn) ?_
  split
  · exact h.answerUnit
  · exact h.askUnit

protected theorem Keyed.tenUnit : UnitRes.Keyed (tenUnit s o c w t) := by
  unfold tenUnit; dsimp only
  split
  · exact h.elemUnit
  split
  · exact h.headerUnit
  split
  · exact h.elemUnit
  split
  · split
    · exact h.elemUnit
    · exact h.entryUnit
  · exact h.entryUnit

protected theorem Keyed.gatherUnit : UnitRes.Keyed (gatherUnit s o c w t) := by
  unfold gatherUnit; dsimp only
  split
  · exact h.bufUnit
  split
  · exact h.moveIn
  split
  · exact h
  · exact h.moveIn

protected theorem Keyed.scatterUnit : UnitRes.Keyed (scatterUnit s o c t) := by
  unfold scatterUnit; dsimp only
  split
  · exact h.bufUnit
  split
  · exact h
  split
  · exact h
  · exact h.moveOut

protected theorem Keyed.addOnce {v : Nat} : Keyed (addOnce s o c ty ls va v).1 := h.atomLane

protected theorem Keyed.addWord {offs : List Nat} : Keyed (addWord s o c t ty ls va offs).1 := by
  induction offs generalizing s c with
  | nil => exact h
  | cons off offs ih =>
    unfold addWord
    split
    · next heq => exact h.addOnce.ofFst heq
    · next heq => exact ih (h.addOnce.ofFst heq)

protected theorem Keyed.addWords {ws : List (Nat × List Nat)} : Keyed (addWords s o c t ty ls ws).1 := by
  induction ws generalizing s c with
  | nil => exact h
  | cons w ws ih =>
    unfold addWords
    split
    · next heq => exact h.addWord.ofFst heq
    · next heq => exact ih (h.addWord.ofFst heq)

protected theorem Keyed.scatterAdd : UnitRes.Keyed (scatterAdd s o c t ty) := by
  unfold scatterAdd; dsimp only
  split
  · exact h.bufUnit
  split
  · exact h
  split
  · exact h
  split
  · exact h
  split
  · exact h
  · next heq => exact h.engLines.wait heq
  next heq =>
  have hs := h.engLines.ok heq
  split
  · next heq => exact hs.atBanks.again heq
  next heq =>
  have hb := hs.atBanks.done heq
  split
  · next heq => exact hb.addWords.ofFst heq
  · next heq => exact (hb.addWords.ofFst heq).used

protected theorem Keyed.copyUnit : UnitRes.Keyed (copyUnit s o c w t) := by
  unfold copyUnit
  split
  · exact h.moveIn
  · exact h.moveOut
  · exact h.moveIn
  · exact h.moveOut
  · exact h.cellarUnit
  · exact h.cellarUnit
  · exact h.scrUnit
  · exact h.tenUnit
  · exact h.tenUnit
  · exact h.tenUnit
  · exact h.gatherUnit
  split
  · exact h.scatterUnit
  · exact h.scatterAdd

protected theorem Keyed.markLanded {upTo : Nat} : Keyed (markLanded s id tid c upTo).1 := .iteFst h.modTeam h
protected theorem Keyed.putCopy : Keyed (s.putCopy id c) := h.modOp
protected theorem Keyed.copyNext : Keyed (copyNext s o w c) := .ite h.markLanded.putCopy.laterFree h.markLanded.putCopy.laterFree
protected theorem Keyed.copyFail : Keyed (copyFail s o w c cause val) := h.markLanded.putCopy.later
protected theorem Keyed.engineBusy {bytes : Nat} : Keyed (engineBusy s o c bytes) := (Keyed.ite h h.chargeEnergy).modCore

protected theorem Keyed.copyStep : Keyed (copyStep s o w t c) := by
  unfold copyStep
  split
  · next heq => exact (h.copyUnit.moved heq).engineBusy.copyNext
  · next heq => exact (Keyed.ite (h.copyUnit.wait heq) (h.copyUnit.wait heq).modOp).later
  · next heq => exact (h.copyUnit.sent heq).engineBusy.putCopy
  · next heq => exact (h.copyUnit.fail heq).copyFail

protected theorem Keyed.execCopyUnitMove : NextKeyed (execCopyUnitMove op s) := by
  unfold execCopyUnitMove
  split
  · exact h
  split
  · split
    · exact h
    · exact .ite h (.ite h.later h.copyStep)
  · exact h

protected theorem Keyed.execCopyFinish : NextKeyed (execCopyFinish op s) := by
  unfold execCopyFinish
  split
  · exact h
  split
  · refine Keyed.putCopy ?_
    refine Keyed.modWarp ?_
    split
    · exact h.modTeam
    · exact h
  · exact h

protected theorem Keyed.copyReply : Keyed (copyReply s o c ans) := h.putCopy.later

protected theorem Keyed.startCopy : Keyed (startCopy rd s id c) := by
  unfold startCopy
  extract_lets c' p
  have hp : Keyed p := .ite h.charge h
  split
  extract_lets d q
  have hq : Keyed q := .ite hp hp.modTeam
  exact .ite hq.modTeam hq

protected theorem Keyed.putWork {dst : Dst} {lanes : Lanes} {k : OpKind} : Keyed (putWork rd f hook dst lanes k s) :=
  .ite h.putWarp.bump h.putWarp.same.bump

protected theorem Keyed.copyEff {kind : CopyKind} {em : Bool} : Keyed (copyEff f kind em stm rc hook rd s) := by
  unfold copyEff
  split
  · exact h.putWork
  · exact .ite h.putWork.startCopy.laterFree h.putWork.startCopy.laterFree

end Sys2Proof.Claims
end

section
/-! Matrix operations (R323 to R342). -/

namespace Sys2Proof.Claims
open Sys2Proof.Machine

set_option Elab.async false

variable {s : State} {hook id op : Nat} {m : MatOp} {o : Op} {w : Warp} {t : Team} {c : CopyOp} {f : Fields} {rd : Rd} {i : Instr}
variable (h : Keyed s)
include h

protected theorem Keyed.putMat : Keyed (s.putMat id m) := h.modOp

protected theorem Keyed.matDo : Keyed (matDo s o w t m) := by
  unfold matDo; dsimp only
  split
  · exact h.putTeam.putMat.later
  refine Keyed.later (Keyed.used (Keyed.taintMma (Keyed.putMat ?_)))
  split
  · exact h.putTeam.overwrite.modEngine.modWarp
  · exact h.putTeam.overwrite.modEngine

protected theorem Keyed.execMatrixOpPerform : NextKeyed (execMatrixOpPerform op s) := by
  unfold execMatrixOpPerform; dsimp only
  split
  · exact h
  split
  · split
    · exact h
    split
    · exact h
    split
    · exact h.later
    split
    · exact h.putMat.later
    split
    · next heq => exact (h.atBanks.again heq).modOp.later
    · next heq => exact (h.atBanks.done heq).chargeEnergy.matDo
  · exact h

protected theorem Keyed.loftEnd : Keyed (loftEnd s o w m c) := by
  unfold loftEnd
  refine Keyed.putMat ?_
  split
  · exact h
  split
  · exact h.modEngine
  · exact h

protected theorem Keyed.execMatrixOpFinish : NextKeyed (execMatrixOpFinish op s) := by
  unfold execMatrixOpFinish
  split
  · exact h
  split
  · split
    · exact h
    split
    · exact h.loftEnd.later
    · exact h
    · exact .ite h.later h.modWarp.putMat.taintMma
  · exact h

protected theorem Keyed.takeEngine : Keyed (takeEngine s w) := .ite h h.modCore

protected theorem Keyed.matEff : Keyed (matEff i f hook rd s) := by
  unfold matEff
  extract_lets id m e c fresh p q d
  have hp : Keyed p := h.takeEngine.putWork
  have hq : Keyed q := by
    unfold q c
    split
    · exact .ite hp.charge hp
    · exact hp
  have hd : Keyed d := hq.modTeam fun _ => tid_drainBegin _ _ _ _ _
  exact .ite hp (Keyed.ite hd.modWarp hd).later

protected theorem Keyed.matIssue : NextKeyed (matIssue i f hook s) := h.withIssue fun hs => hs.matEff

end Sys2Proof.Claims
end

section
/-! Remote accesses (R346 to R360). -/

namespace Sys2Proof.Claims
open Sys2Proof.Machine

set_option Elab.async false

variable {s : State} {ctx hook lid op src va : Nat} {stm sx : Bool} {r : RemReq} {rd : Rd} {f : Fields} {m : MemOp} {o : Op}
  {ans : List RemAns}
variable (h : Keyed s)
include h

protected theorem Keyed.countRejection : Keyed (countRejection s src) := .ite h.same h.same
protected theorem Keyed.sendGroup : Keyed (sendGroup s ctx r) := .ite h.sendReq h.later
protected theorem Keyed.holdM {d : Nat} : Keyed (holdM rd d s) := .ite h h.modWarp.modCore

protected theorem Keyed.remEff {kind : RemKind} {dst : Dst} {load : Bool} {bytes : Nat} {off : Half} {data cmp : Rd → Nat → Nat} :
    Keyed (remEff f kind dst load bytes sx stm hook off data cmp rd s) :=
  (h.putWork.foldl fun _ hs => hs.sendGroup).holdM

protected theorem Keyed.deferFor {need : Need} : Keyed (deferFor s ctx va need) := .ite h h.same.bump
protected theorem Keyed.usedAnswers {vas : List Nat} : Keyed (usedAnswers s ctx vas) := h.same
protected theorem Keyed.inLines : Keyed (inLines s o m).1 := Keyed.foldlFst h fun _ hs => hs.performLine

protected theorem Keyed.inMasked {ls : List MemLane} : Keyed (inMasked s o r ls).1 := by
  induction ls generalizing s with
  | nil => exact h
  | cons l ls ih => exact ih h.used.inLines

protected theorem Keyed.sendAns {ns : Nat} : Keyed (sendAns s r ns ans) := .ite h.laterFree h.emit
protected theorem Keyed.holdReq : Keyed (holdReq s r) := .ite h h.same

protected theorem Keyed.nextHeld : Keyed (nextHeld s r) := by
  unfold nextHeld; dsimp only
  split
  · exact h
  split
  · exact h.same.later
  · exact h.same

protected theorem Keyed.performReq {e : WinEntry} {ls : List (RemLane × InLane)} : Keyed (performReq s e r ls) := by
  unfold performReq
  extract_lets ctx ok src out rej q
  have ho : Keyed out.1 := by
    unfold out
    split
    · exact h.inMasked
    all_goals exact h.inLines
  have hq : Keyed q := ho.charge.trimL2
  exact (Keyed.ite hq.countRejection hq).sendAns

protected theorem Keyed.execRemoteRequestIngress : NextKeyed (execRemoteRequestIngress r s) := by
  unfold execRemoteRequestIngress; dsimp only
  split
  · exact h
  split
  · exact h.holdReq
  split
  · exact (Keyed.ite h.countRejection h).sendAns.nextHeld
  split
  · exact h.deferFor.holdReq.later
  · exact h.performReq.usedAnswers.nextHeld

protected theorem Keyed.remDone {r : RemOp} : Keyed (remDone s o r) := by
  unfold remDone
  split
  · exact h.putWarp.delOp.used
  · exact h.delOp

protected theorem Keyed.remTake {r : RemOp} : Keyed (remTake s o r ans) := .ite h.remDone h.modOp

protected theorem Keyed.finishAlso {items : List (Nat × Nat × Nat)} : Keyed (finishAlso s items) :=
  h.foldl fun _ hs => hs.finishItem

protected theorem Keyed.sendReject {b : SendOp} {reason : Nat} : Keyed (sendReject s o b reason) := by
  unfold sendReject
  split
  · exact h.modOp.used.finishItem.finishAlso
  · exact h.delOp

protected theorem Keyed.endRecord {written : Bool} : Keyed (endRecord s lid written) := by
  unfold endRecord; dsimp only
  split
  · exact h.modLaunch.event
  split
  · exact h.modLaunch.completionKnock
  · exact h.modLaunch

protected theorem Keyed.recordReply {key : Dword} {acks : Nat} : Keyed (recordReply s o lid key acks ans) :=
  .ite h.delOp.endRecord (.ite h.modOp h.delOp.endRecord)

protected theorem Keyed.replyTo : Keyed (replyTo s o ans) := by
  unfold replyTo; dsimp only
  split
  · exact h.remTake
  · exact h.knockDone
  · split
    · split
      · exact .ite h.copyReply h
      · exact h
    · exact h
  · split
    · split
      · exact .ite h.copyReply h
      · exact h
    · exact h
  · split
    · exact .ite h.sendReject h
    · exact h
  · exact h.recordReply
  all_goals exact h

protected theorem Keyed.execRemoteReplyArrival : NextKeyed (execRemoteReplyArrival op ans s) := by
  unfold execRemoteReplyArrival
  split
  · exact h
  · exact .ite h (Keyed.ite h.charge h).replyTo

protected theorem Keyed.execRemoteTimeout : NextKeyed (execRemoteTimeout op s) := by
  unfold execRemoteTimeout
  split
  · exact h
  split
  · exact h.remTake
  · split
    · exact Keyed.ite h.replyTo h
    · exact h
  · split
    · exact Keyed.ite h.replyTo h
    · exact h
  · exact h.replyTo
  · exact h.replyTo
  all_goals exact h

end Sys2Proof.Claims
end

section
/-! Bulk messages (R365 to R375). -/

namespace Sys2Proof.Claims
open Sys2Proof.Machine

set_option Elab.async false

variable {s : State} {cause ctx hook id len msg n off slot src st status tok units va val : Nat} {fault : Option TrapDue} {o : Op}
  {b : SendOp} {r : RecvOp} {m : BulkMsg} {f : Fields} {rd : Rd} {rcv : Bool} {data : List Byte}
variable (h : Keyed s)
include h

protected theorem Keyed.endItem : Keyed (endItem s o st units fault) := by
  unfold endItem
  split
  · exact h.finishItem
  · exact h

protected theorem Keyed.endSend : Keyed (endSend s o b st units fault) := h.modOp.endItem.finishAlso.used
protected theorem Keyed.endRecv : Keyed (endRecv s o r st units fault) := h.modOp.endItem.modWarp

protected theorem Keyed.endOwnSend : Keyed (endOwnSend s id st) := by
  unfold endOwnSend
  split
  · split
    · exact .ite h.endSend h
    · exact h
  · exact h

protected theorem Keyed.endOwnRecv : Keyed (endOwnRecv s id st) := by
  unfold endOwnRecv
  split
  · split
    · exact .ite h.endRecv h
    · exact h
  · exact h

protected theorem Keyed.tellSender {f : Frame} : Keyed (tellSender s m st f) := .ite h.endOwnSend h.emit
protected theorem Keyed.noRefusal : Keyed (noRefusal s src msg) := h.same

protected theorem Keyed.tellReceiver : Keyed (tellReceiver s id b) := by
  unfold tellReceiver
  extract_lets q
  have hq : Keyed q := h.noRefusal
  refine .ite hq.emit ?_
  split
  · split
    · exact hq.endOwnRecv
    · exact hq.same
  · exact hq

protected theorem Keyed.recvFault : Keyed (recvFault s o r cause val) := by
  unfold recvFault
  refine Keyed.endRecv ?_
  split
  · exact h.tellSender
  · exact h

protected theorem Keyed.sendFault : Keyed (sendFault s o b cause val) := h.tellReceiver.endSend

protected theorem Keyed.bsendEff : Keyed (bsendEff f hook rd s) := by
  unfold bsendEff
  split
  · exact h.putWork
  · exact h.putWork.laterFree

protected theorem Keyed.matchMsg {mid : Nat} : Keyed (matchMsg s mid m o r) := by
  unfold matchMsg
  extract_lets n pre m' p q tok x
  have hq : Keyed q := h.same.modOp
  have hx : Keyed x := .ite hq hq.same.bump.laterFree
  exact .ite hx hx.laterFree

protected theorem Keyed.brecvEff : Keyed (brecvEff f hook rd s) := by
  unfold brecvEff; dsimp only
  split
  · exact h.putWork
  split
  · exact h.putWork.matchMsg
  · exact h.putWork

protected theorem Keyed.wordEff {v : Rd → Nat → Word} : Keyed (wordEff f hook v rd s) := h.putWarp.bump
protected theorem Keyed.probeEff : Keyed (probeEff f rcv hook rd s) := h.wordEff.used

protected theorem Keyed.cancelSend {item : Nat × Nat × Nat} : Keyed (cancelSend s ctx slot item) := by
  unfold cancelSend
  split
  · exact .ite h (.ite h.modOp.modWarp h.tellReceiver.endSend)
  · exact h

protected theorem Keyed.cancelRecv : Keyed (cancelRecv s ctx slot) := by
  unfold cancelRecv
  split
  · split
    · refine Keyed.endRecv ?_
      split
      · exact h.tellSender
      · exact h
    · exact h
  · exact h

protected theorem Keyed.cancelEff : Keyed (cancelEff f rcv hook rd s) := by
  unfold cancelEff
  split
  · exact h.putWarp.bump
  · exact .ite h.putWarp.bump.cancelRecv h.putWarp.bump.cancelSend

protected theorem Keyed.bulkRead : BulkRead.Keyed (bulkRead s o va n) := by
  unfold bulkRead; dsimp only
  split
  · exact trivial
  · next heq => exact h.engLines.wait heq
  next heq =>
  split
  · exact trivial
  · exact (h.engLines.ok heq).bringLines.chargePoison.modWarp.used

protected theorem Keyed.execBulkRequestRetry : NextKeyed (execBulkRequestRetry msg s) := by
  unfold execBulkRequestRetry; dsimp only
  split
  · exact h
  split
  · split
    · exact h
    split
    · exact h.later
    split
    · exact h.sendReject
    split
    · next heq => exact (h.bulkRead.wait heq).later
    · exact h.sendFault
    next heq =>
    have hs := h.bulkRead.ok heq
    split
    · exact hs.modOp.later
    · exact hs.modOp.charge.emit
  · exact h

protected theorem Keyed.refuse {r : BulkReq} : Keyed (refuse s r) := .ite (Keyed.ite h h.same).modOp.later (Keyed.ite h h.same).emit

protected theorem Keyed.execBulkRequestArrival {r : BulkReq} : NextKeyed (execBulkRequestArrival r s) := by
  unfold execBulkRequestArrival
  refine .ite h ?_
  split
  · extract_lets q
    have hq : Keyed q := (Keyed.ite h.countRejection h).noRefusal
    exact .ite hq.laterFree hq.emit
  extract_lets ctx win id m
  refine .ite h.refuse ?_
  split
  · exact h.noRefusal.bump.matchMsg
  · exact .ite h.refuse (Keyed.same (s := noRefusal s r.src r.msg) h.noRefusal).bump

protected theorem Keyed.grantToken : Keyed (grantToken s id m) := by
  unfold grantToken
  split
  · exact h
  extract_lets tok p q x
  have hq : Keyed q := h.same.bump.later
  have hx : Keyed x := .ite hq hq.laterFree
  exact .ite h (.ite h.later (.ite hx.laterFree hx.emit))

protected theorem Keyed.serveToken : Keyed (serveToken s o b tok off n) := by
  unfold serveToken
  split
  · exact h
  split
  · next heq => exact (h.bulkRead.wait heq).later
  · exact h.sendFault
  next heq =>
  have hs := h.bulkRead.ok heq
  exact .ite hs.modOp.chargeEnergy.laterFree hs.modOp.chargeEnergy.charge.emit

protected theorem Keyed.execPullTokenGrant {peer : Option (Nat × Nat × Nat)} : NextKeyed (execPullTokenGrant msg peer s) := by
  unfold execPullTokenGrant
  split
  · split
    · exact h.grantToken
    · exact h
  · split
    · split
      · exact Keyed.ite h h.serveToken
      · exact h
    · exact h

protected theorem Keyed.reopenSend {p : Op} : Keyed (reopenSend s p b) := h.modOp.modWarp.foldl fun _ hs => hs.modWarp

protected theorem Keyed.finishRecv : Keyed (finishRecv s o r m) := by
  unfold finishRecv
  extract_lets st units e p
  have he : Keyed e := h.endRecv
  have hp : Keyed p := by
    unfold p
    split
    · split
      · exact .ite he.reopenSend he
      · exact he
    · exact he
  exact .ite (Keyed.ite he.unsend he).emit hp.laterFree

protected theorem Keyed.writeData {t : Token} : Keyed (writeData s tok t m o r off data) := by
  unfold writeData
  extract_lets ws n ps _ t' m'
  split
  · next heq => exact (h.engLines.wait heq).same.later
  · exact h.recvFault
  next heq =>
  extract_lets w r' u v x
  have hv : Keyed v := (h.engLines.ok heq).engWrite.charge.modOp
  have hx : Keyed x := hv.same
  split
  · exact hx.recvFault
  · exact .ite hx.finishRecv hx

protected theorem Keyed.execTokenDataArrival : NextKeyed (execTokenDataArrival tok off data s) := by
  unfold execTokenDataArrival
  split
  · exact h
  split
  · exact h
  split
  · split
    · exact Keyed.ite h.writeData h
    · exact h
  · exact h

protected theorem Keyed.orphan : Keyed (orphan s m) := by
  unfold orphan
  split
  · split
    · exact .ite h.endRecv.same.laterFree h.endRecv.same.emit
    · exact h
  · exact h

protected theorem Keyed.execTokenExpiry : NextKeyed (execTokenExpiry tok s) := by
  unfold execTokenExpiry
  split
  · exact h
  split
  · exact h
  split
  · exact h.same
  · exact .ite h.same (.ite h.same.charge.orphan h.same.charge.laterFree)

protected theorem Keyed.execOrphanNoticeArrival : NextKeyed (execOrphanNoticeArrival msg s) := Keyed.ite h h.endOwnSend

protected theorem Keyed.execBulkAckArrival : NextKeyed (execBulkAckArrival msg units status s) := by
  unfold execBulkAckArrival
  split
  · exact h
  split
  · exact .ite h (Keyed.ite h.unsend h).endSend
  · exact h

protected theorem Keyed.execPeerCancelArrival : NextKeyed (execPeerCancelArrival msg s) := by
  unfold execPeerCancelArrival
  split
  · split
    · exact h
    split
    · exact h.endOwnRecv
    · exact h.same
  · exact Keyed.ite h (.ite h.endOwnSend h.same)

protected theorem Keyed.reclaim : Keyed (reclaim s) := by
  unfold reclaim
  refine h.foldl fun _ hs => ?_
  split
  · exact .ite hs hs.modOp
  · exact .ite hs hs.modOp
  all_goals exact hs

protected theorem Keyed.endRevoked : Keyed (endRevoked s ctx va len id) := by
  unfold endRevoked
  split
  · exact h
  split
  · exact .ite h.tellReceiver.endSend h
  · split
    · refine Keyed.endRecv ?_
      split
      · exact h.tellSender
      · exact h
    · exact h
  all_goals exact h

protected theorem Keyed.endMessages : Keyed (endMessages s ctx va len) := h.foldl fun _ hs => hs.endRevoked

end Sys2Proof.Claims
end

section
/-! Fetch, the merge of a room, trap entry and the watchdog (R96, R108, R165, R404 to R419). -/

namespace Sys2Proof.Claims
open Sys2Proof.Machine

set_option Elab.async false

variable {s : State} {core ctx room va wid : Nat} {img : LineImage} {w : Warp} {primary : Bool} {c : Cand}
  {issued : List (Nat × List Nat)} {sec : Option Cand}
variable (h : Keyed s)
include h

protected theorem Keyed.fcFill : Keyed (fcFill s core ctx va img) := h.modCore.used

protected theorem Keyed.fetchRead {l : Leaf} : Keyed (fetchRead s w va l) :=
  .ite h.homeLine.charge.modWarp h.homeLine.used.fcFill.modWarp

protected theorem Keyed.execFetchLineArrival {va : Dword} : NextKeyed (execFetchLineArrival wid va s) := by
  unfold execFetchLineArrival; dsimp only
  split
  · exact h
  split
  · exact h.modWarp
  split
  · next heq => exact h.engXlate.wait heq
  · exact h.modWarp
  · next heq => exact (h.engXlate.ok heq).fetchRead.trimL2

protected theorem Keyed.pick {g : Gang} {is : List Instr} : Keyed (pick s w g img is primary) := h.charge.chargeEnergy.putWarp.same

protected theorem Keyed.tryPicks {used : List Nat} {cs : List (Nat × Nat × List Nat)} : Keyed (tryPicks used primary s cs).1 := by
  induction cs generalizing s with
  | nil => exact h
  | cons c cs ih =>
    obtain ⟨n, wid, slices⟩ := c
    unfold tryPicks
    split
    · exact ih h
    split
    · exact ih h
    · exact .iteFst (ih h) (.iteFst h (ih h.stopFor))
    · exact ih h.stopFor
    · exact ih h.stopFor

protected theorem Keyed.candPick : Keyed (c.pick primary s) := h.pick

protected theorem Keyed.countStall {code : Nat} : Keyed (countStall s w code) := by
  unfold countStall
  extract_lets ctx rec' p
  have hp : Keyed p := h.modCore
  exact .ite hp.same hp.same

protected theorem Keyed.countWarp : Keyed (countWarp issued s w) :=
  .ite h.countStall ((h.foldl fun _ hs => hs.countStall).foldl fun _ hs => hs.countStall)

protected theorem Keyed.execActiveSetEntry : NextKeyed (execActiveSetEntry wid s) := by
  unfold execActiveSetEntry; dsimp only
  split
  · exact h
  split
  · exact h
  split
  · exact h.putWarp.requestFetch
  split
  · exact h.putWarp.putWarp.requestFetch
  · exact h

protected theorem Keyed.roomBoundaries : Keyed (roomBoundaries s core room) := h.foldl fun _ hs => .ite hs hs.putWarp.requestFetch

protected theorem Keyed.yieldersLeave {ents : List Warp} : Keyed (yieldersLeave s core room ents) :=
  .ite h (h.foldl fun _ hs => hs.putWarp)

protected theorem Keyed.finishMerge : Keyed (finishMerge s core room issued) :=
  (h.foldl fun _ hs => hs.countWarp).yieldersLeave.same.modCore

protected theorem Keyed.notePrimary : Keyed (notePrimary s core room c sec) := h.modCore
protected theorem Keyed.noteSecondary : Keyed (noteSecondary s core room c) := h.modCore

protected theorem Keyed.openBeside {prim : Cand} : Keyed (openBeside s prim sec) := by
  unfold openBeside
  split
  · exact .ite h.same h
  · exact h

protected theorem Keyed.execMergeSelect : NextKeyed (execMergeSelect core room s) := by
  unfold execMergeSelect; dsimp only
  split
  · split
    · next heq => exact (h.roomBoundaries.tryPicks.ofFst heq).candPick.tryPicks.notePrimary.openBeside.soon
    · next heq => exact (h.roomBoundaries.tryPicks.ofFst heq).finishMerge
  · exact h.finishMerge
  · split
    · next heq => exact (h.tryPicks.ofFst heq).noteSecondary.candPick.soon
    · next heq => exact (h.tryPicks.ofFst heq).finishMerge
  · exact h.finishMerge

protected theorem Keyed.wakeForTrap : Keyed (wakeForTrap s w) := .ite h.putWarp h.putWarp.wakeIslands

protected theorem Keyed.execTrapEntry : NextKeyed (execTrapEntry wid s) := by
  unfold execTrapEntry
  split
  · exact h
  split
  · exact h.putWarp
  · exact .ite h (.ite h.putWarp (Keyed.ite h.bump.wakeForTrap.requestFetch.event h.bump.wakeForTrap.requestFetch))

protected theorem Keyed.execSv4Resume {regs : List (Nat × Nat × Word)} {csrs : List (Csr × Dword)} :
    NextKeyed (execSv4Resume wid regs csrs s) := by
  unfold execSv4Resume
  split
  · exact h
  · exact .ite h h.putWarp.requestFetch

protected theorem Keyed.execSv4EnterHandler : NextKeyed (execSv4EnterHandler wid s) := by
  unfold execSv4EnterHandler
  split
  · exact h
  · exact .ite h h.wakeForTrap.requestFetch

protected theorem Keyed.execWatchdogExpiry : NextKeyed (execWatchdogExpiry wid s) := by
  unfold execWatchdogExpiry
  split
  · exact h
  · exact .ite h h.putWarp.bump

end Sys2Proof.Claims
end

section
/-! Completion records, and the end of warps, teams and launches (R79, R80, R182, R437 to R440). -/

namespace Sys2Proof.Claims
open Sys2Proof.Machine

set_option Elab.async false

variable {s : State} {core ctx data detail id lid status wid : Nat} {l : Launch} {t : Team} {w : Warp} {r : RemReq} {o : Op}
variable (h : Keyed s)
include h

protected theorem Keyed.localRecord : Keyed (localRecord s l data) := by
  unfold localRecord; dsimp only
  split
  · exact h.deferFor.later
  · exact h.usedAnswers.endRecord
  · exact .ite h.homeWrite.putLaunch.soon h.homeWrite.endRecord

protected theorem Keyed.remoteRecord : Keyed (remoteRecord s l data) := .ite h.endRecord h.same.bump.sendReq

protected theorem Keyed.writeRecord : Keyed (writeRecord s l status detail) :=
  .ite h.putLaunch (.ite h.endRecord (.ite h.localRecord h.remoteRecord))

protected theorem Keyed.freeEngines : Keyed (freeEngines s t) := h.foldl fun _ hs => hs.modCore
protected theorem Keyed.warpGone : Keyed (warpGone s t w) := .ite (.ite h h.modTeam) (Keyed.ite h h.modTeam).modCore

protected theorem Keyed.endFiller : Keyed (endFiller s core) := by
  unfold endFiller
  split
  · exact h
  · exact h.modCore.charge.charge

protected theorem Keyed.startFiller : Keyed (startFiller s t ctx) := (h.foldl fun _ hs => hs.endFiller.modCore.later).same

protected theorem Keyed.retireTeam : Keyed (retireTeam s t) := by
  unfold retireTeam
  extract_lets ctx p q
  have hp : Keyed p := h.freeEngines.startFiller
  have hq : Keyed q := hp.fewer List.filter_sublist (tdel_sublist _ _) rfl
  exact hq.modLaunch

protected theorem Keyed.launchOver : Keyed (launchOver s lid) := by
  unfold launchOver
  split
  · exact .ite h.putLaunch.later h
  · exact h

protected theorem Keyed.execWarpEnd : NextKeyed (execWarpEnd wid s) := by
  unfold execWarpEnd
  split
  · exact h
  extract_lets p q
  have hp : Keyed p := h.putWarp.modTeam
  have hq : Keyed q := by
    unfold q
    split
    · exact hp.warpGone.modLaunch
    · exact hp
  refine .ite h ?_
  split
  · exact Keyed.ite hq.retireTeam.launchOver hq
  · exact hq

protected theorem Keyed.unbindUnits : Keyed (unbindUnits s lid) := h.same
protected theorem Keyed.retryCellar : Keyed (retryCellar s) := h.same

protected theorem Keyed.execLaunchRetirement : NextKeyed (execLaunchRetirement lid s) := by
  unfold execLaunchRetirement
  split
  · exact h
  · exact .ite h (.ite h.later (.ite h.endRecord h.unbindUnits.writeRecord.retryCellar))

protected theorem Keyed.performOwn : Keyed (performOwn s r) := by
  unfold performOwn
  split
  · next heq => exact h.execRemoteRequestIngress.next heq
  · exact h
  · exact h

protected theorem Keyed.endRequests : Keyed (endRequests s id) := (h.foldl fun _ hs => .ite hs.used.performOwn hs.used).same

protected theorem Keyed.endAccess : Keyed (endAccess s o) := by
  unfold endAccess
  split
  · next m _ => exact .ite (Keyed.foldlFst (p := (s.used, m)) h.used fun _ hs => hs.performLine) h.used
  · exact h.endRequests
  · exact h.endRequests
  · exact h.endRequests
  · exact .ite h h.tellReceiver
  · split
    · exact .ite h h.tellSender
    · exact h
  all_goals exact h

protected theorem Keyed.dropWork : Keyed (dropWork s wid) := by
  unfold dropWork
  refine .same ?_
  refine h.foldl fun _ hs => ?_
  split
  · exact hs.endAccess.modOp
  · exact hs.endAccess.retireOp

protected theorem Keyed.endLaunch : Keyed (endLaunch s lid status detail) := by
  unfold endLaunch
  split
  · exact h
  · exact .ite h ((h.foldl fun _ hs => hs.dropWork).foldl fun _ hs => hs.retireTeam).same.modLaunch.later

protected theorem Keyed.execSv4EndLaunch : NextKeyed (execSv4EndLaunch wid s) := by
  unfold execSv4EndLaunch
  split
  · exact h
  split
  · exact h
  split
  · exact h.endLaunch
  · exact h

protected theorem Keyed.execManagementCancel : NextKeyed (execManagementCancel lid s) := Keyed.ite h.endLaunch h.later

end Sys2Proof.Claims
end

section
/-! Boot, the Lintel, mailboxes, control space and queues (R58 to R77). -/

namespace Sys2Proof.Claims
open Sys2Proof.Machine

set_option Elab.async false

variable {s : State} {core ctx k mb port qid qsz reg slot src : Nat} {qbase v : Dword} {img : List Byte} {key : BitVec 128}
  {i : Instr} {q : Queue}
variable (h : Keyed s)
include h

protected theorem Keyed.imageLimit : Keyed (imageLimit s img k) := .ite h h.same
protected theorem Keyed.newQueue : Keyed (newQueue s qid qbase qsz ctx slot key) := .ite h.same h
protected theorem Keyed.imageQueues : Keyed (imageQueues s img) := h.foldl fun _ hs => .ite hs hs.newQueue
protected theorem Keyed.bootWith : Keyed (bootWith s img) := .ite (h.same.foldl fun _ hs => hs.imageLimit).imageQueues h.same
protected theorem Keyed.execPowerOnBoot : NextKeyed (execPowerOnBoot img s) := Keyed.ite h h.bootWith
protected theorem Keyed.failSv : Keyed (failSv s core) := .ite h.soon h.modSv.used.later
protected theorem Keyed.execHeartbeatTimeout : NextKeyed (execHeartbeatTimeout core s) := Keyed.ite h.failSv h
protected theorem Keyed.execHeartbeatWrite : NextKeyed (execHeartbeatWrite core s) := Keyed.ite h.modSv h
protected theorem Keyed.execSupervisorFatal : NextKeyed (execSupervisorFatal core s) := Keyed.ite h.failSv h

protected theorem Keyed.execSupervisorRelease : NextKeyed (execSupervisorRelease core s) :=
  .ite (Keyed.ite h h.bootWith) (Keyed.ite (.ite h.modSv.retryCellar h.modSv) h)

protected theorem Keyed.execComplexReset : NextKeyed (execComplexReset img s) := h.same.later.laterFree

protected theorem Keyed.execBootTimeoutPark : NextKeyed (execBootTimeoutPark s) := by
  refine .ite h ?_
  extract_lets park
  exact h.mapLaunches (f := park) fun _ => rfl

protected theorem Keyed.execParkedLaunchResume {lost : List Nat} : NextKeyed (execParkedLaunchResume lost s) := by
  refine .ite h ?_
  extract_lets e go
  have he : Keyed e := h.foldl fun _ hs => .ite hs.endLaunch hs
  exact he.mapLaunches (f := go) fun _ => rfl

protected theorem Keyed.afterThose {p : Instr → Bool} : Keyed (afterThose s p i) := .ite h.same h.same
protected theorem Keyed.setBusy {b : Bool} : Keyed (setBusy s src b) := h.same

protected theorem Keyed.execMailboxStore {dst : Nat} {msg : BitVec 512} : NextKeyed (execMailboxStore src dst mb msg s) :=
  .ite h (.ite h.modSv (.ite h.afterThose (.ite h.setBusy h.same.setBusy.modSv)))

protected theorem Keyed.execMailboxAck : NextKeyed (execMailboxAck core mb s) := Keyed.ite h.same.modSv h.modSv

protected theorem Keyed.putReg : Keyed (putReg s reg v) :=
  .ite (h.modWarp fun w => (apply_ite Warp.wid _ _ _).trans (ite_self _))
    (.ite h.same (.ite h.same (.ite h.same (.ite h.same (.ite h.same h.same)))))

protected theorem Keyed.execControlRegisterWrite {by' : Nat × Nat} : NextKeyed (execControlRegisterWrite by' reg v s) :=
  Keyed.ite h (.ite h.putReg.modSv h.modSv)

protected theorem Keyed.execContextEnable : NextKeyed (execContextEnable ctx s) := by
  unfold execContextEnable
  split
  · exact h
  split
  · exact h.later
  · split <;> exact h.same

protected theorem Keyed.execContextDisable : NextKeyed (execContextDisable ctx s) := Keyed.ite h.same h
protected theorem Keyed.execQueueCreate : NextKeyed (execQueueCreate qid qbase qsz ctx slot key s) := Keyed.ite h.newQueue h.later
protected theorem Keyed.modQueue {f : Queue → Queue} : Keyed (s.modQueue qid f) := h.same

protected theorem Keyed.applyKnock {tail : Nat} : Keyed (applyKnock s src qid tail q) :=
  .ite h.modQueue (.ite h.modQueue.later h.event)

protected theorem Keyed.answerKnock {reason : Option Nat} : Keyed (answerKnock s src port reason) := by
  unfold answerKnock
  split
  · exact h
  split
  · exact h.knockDone
  · exact h

protected theorem Keyed.execKnockArrival {b : BitVec 128} : NextKeyed (execKnockArrival src port b s) := by
  unfold execKnockArrival
  split
  · exact h
  split
  · exact h.afterThose
  split
  · exact (Keyed.ite h h.countRejection).answerKnock
  split
  · exact h.applyKnock.answerKnock
  · exact h

protected theorem Keyed.readSlot {i : Nat} : SlotRead.Keyed (readSlot s q i) := by
  unfold readSlot
  split
  · exact h.deferFor
  · exact h.usedAnswers
  · exact h.homeLine.countRead.used

protected theorem Keyed.rereadLater : Keyed (rereadLater s qid q) := h.later

protected theorem Keyed.takeSlot {i since : Nat} : Keyed (takeSlot s qid i since q) := by
  unfold takeSlot
  split
  · next heq =>
    have hs := h.readSlot.packet heq
    exact .ite hs.modQueue.later.later hs.modQueue.later
  · next heq => exact (h.readSlot.failed heq).modQueue.later
  · next heq => exact (h.readSlot.wait heq).rereadLater

protected theorem Keyed.execParserLookaheadRead : NextKeyed (execParserLookaheadRead qid s) := by
  unfold execParserLookaheadRead
  split
  · exact h
  · exact .ite h (.ite h.later h.takeSlot)

protected theorem Keyed.execParserSlotReread : NextKeyed (execParserSlotReread qid s) := by
  unfold execParserSlotReread
  split
  · exact h
  split
  · exact h
  · exact .ite h.later (Keyed.ite h.soon h).takeSlot

protected theorem Keyed.execStalledQueueEvent : NextKeyed (execStalledQueueEvent qid s) := by
  unfold execStalledQueueEvent
  split
  · exact h
  · exact Keyed.ite h.event.modQueue h

end Sys2Proof.Claims
end

section
/-! Launches and the placement of teams (R73 to R78, R93, R94). -/

namespace Sys2Proof.Claims
open Sys2Proof.Machine

set_option Elab.async false

variable {s : State} {core ctx lid qid tid : Nat} {p : Packet} {q : Queue} {l : Launch}
variable (h : Keyed s)
include h

protected theorem Keyed.launchPacket : Keyed (launchPacket s qid q p) := by
  unfold launchPacket; dsimp only
  split <;> exact h.bump.putLaunch.later

protected theorem Keyed.consume : Keyed (consume s qid q p) :=
  (Keyed.ite h.modQueue.later.launchPacket (.ite h.modQueue.later h.modQueue.later.event)).later

protected theorem Keyed.execPacketIssue : NextKeyed (execPacketIssue qid s) := by
  unfold execPacketIssue
  split
  · exact h
  split
  · exact h
  split
  · exact h.later
  split
  · exact h.later
  split
  · next heq => exact (h.readSlot.failed heq).later
  · next heq => exact (h.readSlot.wait heq).later
  next heq =>
  have hs := h.readSlot.packet heq
  exact .ite hs.same.modQueue.takeSlot (.ite hs.same.later hs.same.consume)

protected theorem Keyed.bindUnits {ns : List Nat} : Keyed (bindUnits s l ns) := (h.foldl fun _ hs => hs.same).putLaunch

protected theorem Keyed.execWqUnitBind : NextKeyed (execWqUnitBind lid s) := by
  unfold execWqUnitBind; dsimp only
  split
  · exact h
  split
  · exact h
  split
  · exact h.later
  split
  · exact h.used.bindUnits
  · exact h

protected theorem Keyed.wakePlaced {ws : List Warp} : Keyed (wakePlaced s ws) := h.foldl fun _ hs => hs.wakeIslands.modWarp

protected theorem Keyed.takeArmed {cores : List Nat} : Keyed (takeArmed s tid ctx cores) := by
  unfold takeArmed
  split
  · exact h
  · exact h.same.modTeam

protected theorem Keyed.execTeamPlacement {spots : List (Nat × Nat)} : NextKeyed (execTeamPlacement lid core spots s) := by
  unfold execTeamPlacement
  split
  · exact h
  · exact .ite h (h.putTeam.foldl fun _ hs => hs.putWarp).putLaunch.same.wakePlaced.laterFree.takeArmed

protected theorem Keyed.execFillerEnd : NextKeyed (execFillerEnd core s) := h.endFiller

protected theorem Keyed.execTeamAdmission : NextKeyed (execTeamAdmission tid s) := by
  unfold execTeamAdmission
  split
  · exact h
  · exact .ite h (.ite h.later (h.foldl fun _ hs => hs.endFiller).same.putTeam)

end Sys2Proof.Claims
end

section
/-! Pre-emption, frozen cores and spares (R100, R101, R420 to R425). -/

namespace Sys2Proof.Claims
open Sys2Proof.Machine

set_option Elab.async false

variable {s : State} {core ctx tid wid : Nat} {ts : List Team} {w : Warp} {t : Team} {spots : List (Nat × Nat)} {l : Launch}
variable (h : Keyed s)
include h

protected theorem Keyed.haltTeams : Keyed (haltTeams s ts) := h.foldl fun _ hs => hs.modTeam

protected theorem Keyed.execPreemptRequest {cores : List Nat} : NextKeyed (execPreemptRequest ctx cores s) :=
  Keyed.ite h.same.haltTeams h

protected theorem Keyed.execPreemptWithdraw : NextKeyed (execPreemptWithdraw ctx s) := Keyed.ite h.same h

protected theorem Keyed.leaveCore : Keyed (leaveCore s w) := by
  unfold leaveCore
  extract_lets go free p
  have hp : Keyed p := h.modCore
  exact hp.same

protected theorem Keyed.dropWalks : Keyed (dropWalks s wid) := h.same

protected theorem Keyed.saveTeam : Keyed (saveTeam s t) :=
  ((h.foldl fun _ hs => hs.dropWalks.leaveCore.putWarp).freeEngines.foldl fun _ hs => hs.dropL1).modTeam.used

protected theorem Keyed.execClosetSave : NextKeyed (execClosetSave ctx s) := Keyed.ite (h.foldl fun _ hs => hs.saveTeam) h
protected theorem Keyed.moveOps : Keyed (moveOps s wid core) := h.same

protected theorem Keyed.restoreTeam {rows : Team → Team} (hrows : ∀ t, (rows t).tid = t.tid) :
    Keyed (restoreTeam s t l core spots rows) :=
  (((h.foldl fun _ hs => hs.modCore).foldl fun _ hs => hs.moveOps.putWarp).foldl fun _ hs =>
    .ite hs.endFiller.dropL1 hs).modTeam hrows

protected theorem Keyed.putBack : Keyed (putBack s t l core spots) :=
  (h.restoreTeam (rows := fun t => t.putRows s core) fun _ => rfl).wakePlaced

protected theorem Keyed.execPreemptRestore : NextKeyed (execPreemptRestore tid core spots s) := by
  unfold execPreemptRestore
  split
  · exact h
  · exact Keyed.ite h.putBack h

protected theorem Keyed.takeOff : Keyed (takeOff s ts) := h.foldl fun _ hs => hs.modTeam
protected theorem Keyed.strand : Keyed (strand s core) := h.modCore.takeOff
protected theorem Keyed.freezeCore : Keyed (freezeCore s core) := .ite h.modCore.takeOff h.modCore.takeOff.strand
protected theorem Keyed.execCoreFreeze : NextKeyed (execCoreFreeze core s) := Keyed.ite h.freezeCore h
protected theorem Keyed.strandRest : Keyed (strandRest s core) := .ite h (h.foldl fun _ hs => hs.strand)

protected theorem Keyed.execSpareMove {move : Nat × List Nat} : NextKeyed (execSpareMove move s) := by
  unfold execSpareMove
  extract_lets core p q r bar back gone lost
  have hq : Keyed q := (h.foldl fun _ hs => hs.dropWalks.leaveCore.putWarp).endFiller.modCore
  have hl : Keyed lost := hq.same.foldl fun _ hs => hs.endLaunch
  have hb : Keyed ((teamsOf lost core).foldl back lost) :=
    hl.foldl fun _ hs => .ite hs (.ite hs.modTeam (hs.restoreTeam fun _ => rfl))
  exact .ite h hb.strandRest

protected theorem Keyed.execTeamReplace {team : Nat × Bool} : NextKeyed (execTeamReplace team core spots s) := by
  unfold execTeamReplace
  split
  · exact h
  · exact Keyed.ite h (.ite h.endLaunch h.putBack)

end Sys2Proof.Claims
end

section
/-! Clocks, islands, errors and what the supervisor cores write (R62, R426 to R436, R444). -/

namespace Sys2Proof.Claims
open Sys2Proof.Machine

set_option Elab.async false

variable {s : State} {block cluster core ctx k len pa peer port room slot src tgt va walk wid : Nat} {e : Dword} {zp : Bool}
variable (h : Keyed s)
include h

protected theorem Keyed.modCluster {f : Cluster → Cluster} : Keyed (s.modCluster k f) := h.same

protected theorem Keyed.putPlan : Keyed (putPlan s cluster) := by
  unfold putPlan
  split
  · exact h
  · exact h.same.modCluster

protected theorem Keyed.execMarginPlanInstall {maxRatio : Nat} {guardMv ntMv : List Nat} :
    NextKeyed (execMarginPlanInstall cluster maxRatio guardMv ntMv s) :=
  .ite h (h.foldl fun _ hs => hs.modCore).same

protected theorem Keyed.execClockTransition {ratio stop : Nat} : NextKeyed (execClockTransition cluster ratio stop s) :=
  .ite h h.putPlan.modCluster

protected theorem Keyed.fallSlope : Keyed (fallSlope s) := h.same

protected theorem Keyed.execIslandEnterNt : NextKeyed (execIslandEnterNt core room k s) :=
  .ite h (.ite h.later h.putPlan.modIsland.fallSlope)

protected theorem Keyed.execIslandExitNt : NextKeyed (execIslandExitNt core room k s) := by
  unfold execIslandExitNt
  split
  · exact h.putPlan.modIsland.used
  all_goals exact h

protected theorem Keyed.execIslandEnterRet : NextKeyed (execIslandEnterRet core room k s) :=
  .ite h (.ite h.later h.putPlan.modIsland.fallSlope)

protected theorem Keyed.execIslandExitRet : NextKeyed (execIslandExitRet core room k s) := by
  unfold execIslandExitRet; dsimp only
  split
  · exact h.putPlan.modIsland
  · exact h

protected theorem Keyed.recoverIsland : Keyed (recoverIsland s core room k) := h.modIsland.used.chargeDev

protected theorem Keyed.execAttributedEccError {lost : EccSite} : NextKeyed (execAttributedEccError core room k lost s) := by
  unfold execAttributedEccError
  split
  · exact h
  split
  · exact h.recoverIsland
  all_goals
    split
    · exact Keyed.ite h h.freezeCore
    split
    · exact (h.recoverIsland.modWarp fun _ => wid_loseData _ _ _ _ _ _ _ _).used
    all_goals exact h.recoverIsland

protected theorem Keyed.execVoltageMachineCheck : NextKeyed (execVoltageMachineCheck wid s) := by
  unfold execVoltageMachineCheck
  split
  · exact h
  split
  · exact h
  · exact .ite h h.putWarp.bump

protected theorem Keyed.execTlbInvalidate : NextKeyed (execTlbInvalidate ctx va len s) :=
  .ite h.later (Keyed.ite h.same.forgetWalks.endMessages.later h.same.forgetWalks.endMessages)

protected theorem Keyed.devWrite8 : Keyed (devWrite8 s pa e) := h.homeWrite.trimL2
protected theorem Keyed.execPageTableWrite : NextKeyed (execPageTableWrite pa e s) := Keyed.ite h.devWrite8 h

protected theorem Keyed.execDeferMap : NextKeyed (execDeferMap walk pa e s) := by
  refine .ite h ?_
  extract_lets go p
  have hp : Keyed p := h.devWrite8
  exact hp.same.laterFree

protected theorem Keyed.execDeferDecline : NextKeyed (execDeferDecline walk s) := by
  unfold execDeferDecline
  split
  · exact h
  · exact Keyed.ite h.same.walkFault h

protected theorem Keyed.execKeySlotLoad {key : BitVec 512} : NextKeyed (execKeySlotLoad slot key s) := Keyed.ite h.same h
protected theorem Keyed.execKeySlotClear : NextKeyed (execKeySlotClear slot s) := Keyed.ite h.same h
protected theorem Keyed.execCellarWindowGrant {base : Nat} : NextKeyed (execCellarWindowGrant ctx base len zp s) := .ite h h.same
protected theorem Keyed.poisonBlock : Keyed (poisonBlock s block) := .ite (.ite h h.same) (.ite h.same h)
protected theorem Keyed.execHbmUncorrectableError : NextKeyed (execHbmUncorrectableError block s) := h.poisonBlock
protected theorem Keyed.execPowerControllerPoison : NextKeyed (execPowerControllerPoison block s) := h.poisonBlock

protected theorem Keyed.execWindowEntryWrite {win : Nat} {e : BitVec 256} : NextKeyed (execWindowEntryWrite win e s) :=
  Keyed.ite h.same h

protected theorem Keyed.keepOldPath : Keyed (keepOldPath s src tgt) := .ite h h.same

protected theorem Keyed.execRouteChange {via : Option Nat} : NextKeyed (execRouteChange src tgt via s) := by
  unfold execRouteChange
  split
  · exact h
  split
  · exact Keyed.ite h.keepOldPath.same h.keepOldPath
  · exact h.keepOldPath.same

protected theorem Keyed.execLinkFailure : NextKeyed (execLinkFailure peer s) := Keyed.ite h h.same
protected theorem Keyed.execUnsupportedFrameDiscard : NextKeyed (execUnsupportedFrameDiscard peer s) := h.same
protected theorem Keyed.execUetPacketDrop : NextKeyed (execUetPacketDrop port s) := Keyed.ite h.same h
protected theorem Keyed.execLockoutClear : NextKeyed (execLockoutClear src s) := Keyed.ite h.same h

protected theorem Keyed.execCounterSnapshot {acct : Option Nat} : NextKeyed (execCounterSnapshot acct core room s) :=
  Keyed.ite h.same h

protected theorem Keyed.execContextReassign : NextKeyed (execContextReassign ctx s) := h.same

end Sys2Proof.Claims
end

section
/-! Every instruction, the clock cycle, and a step. -/

namespace Sys2Proof.Claims
open Sys2Proof.Machine

set_option Elab.async false

variable {s : State} {i : Instr} {ticked : List Bool}
variable (h : Keyed s)
include h

protected theorem Keyed.exec : NextKeyed (exec i s) := by
  cases i with
  | nopV | nopM | nopK | nopC => exact h.withIssue fun hs => hs
  | iadd | isub | imul | imulhi | imad | imadw | imin | imax | iabs | isad | idot4 | icmp | bool3 | shl | shr | sar | rotl | fshl
  | bfx | bfi | popc | clz | brev | sel | mov | movi | prmt | iclamp | lea | add64 | sub64 | cmp64 | shl64 | shr64 | mad64 | fadd
  | fsub | fmul | ffma | fmin | fmax | fcmp | fclass | frint | fscale | fexpnE | fexpnM | dadd | dmul | dfma | dcmp | dmin | dmax
  | hadd2 | hmul2 | hfma2 | hcmp2 | hmin2 | hmax2 | rcp | rsq | sqrt | ex2 | lg2 | sin | cos | tanh | drcp | cvt | cvtscScale
  | cvtsc | pack2 | pack4 | unpack | sigrd | sigwr | sigmin | shflIdx | shflXor | voteBallot | voteAny | voteAll | voteEq
  | red | scan | matchLanes =>
    exact h.vIssue
  | iaddc => exact .ite h.vIssue h.vIssue
  | ld => exact h.withIssue fun hs => hs.ldEff
  | st => exact h.withIssue fun hs => hs.stEff
  | ldr => exact h.withIssue fun hs => hs.ldrEff
  | lds => exact h.withIssue fun hs => hs.ldsEff
  | sts => exact h.withIssue fun hs => hs.stsEff
  | ldt => exact h.withIssue fun hs => hs.ldtEff
  | stt => exact h.withIssue fun hs => hs.sttEff
  | ldw => exact h.withIssue fun hs => hs.ldwEff
  | atom => exact h.withIssue fun hs => hs.atomEff
  | atoms => exact h.withIssue fun hs => hs.atomsEff
  | rld | rst | ratom => exact h.withIssue fun hs => hs.remEff
  | fenceTeam | fencePair | fenceDev | fenceFab | afence => exact h.withIssue fun hs => hs.fenceEff
  | nbr => exact h.execNbr
  | icinv => exact h.execIcinv
  | pref => exact h.withIssue fun hs => hs.prefEff
  | spmarkFull | spmarkEmpty => exact h.withIssue fun hs => hs.markEff
  | wqenq => exact h.withIssue fun hs => hs.wqenqEff
  | wqdeq => exact h.withIssue fun hs => hs.wqdeqEff
  | cpyIn | cpyOut | cpytIn | cpytOut | cpyg | cpys | cpyfSp | cpyfMem | cpyw | cpyc => exact h.withIssue fun hs => hs.copyEff
  | bsend => exact h.withIssue fun hs => hs.bsendEff
  | brecv => exact h.withIssue fun hs => hs.brecvEff
  | bprobeSnd | bprobeRcv => exact h.withIssue fun hs => hs.probeEff
  | bcancelSnd | bcancelRcv => exact h.withIssue fun hs => hs.cancelEff
  | mcfg | mloft | mloftw | mlofth | mma | mmas | mscl | mdrainReg | mdrainScratch | mzero | mfence => exact h.matIssue
  | bra => exact h.withIssue fun hs => hs.braEff
  | brx => exact h.execBrx
  | call => exact h.execCall
  | callx => exact h.execCallx
  | ret => exact h.execRet
  | regang => exact h.execRegang
  | brp => exact h.withIssue fun hs => hs.brpEff
  | brany | brall | brsig => exact h.withIssue fun hs => hs.gangEff
  | exit => exact h.execExit
  | yield => exact h.execYield
  | loop => exact h.withIssue fun hs => hs.loopEff
  | trap => exact h.withIssue fun hs => hs.trapEff
  | rte => exact h.withIssue fun hs => hs.rteEff
  | syscIcb => exact h.execSyscIcb
  | sysc => exact h.withIssue fun hs => hs.syscEff
  | wait => exact h.execWait
  | waitAll => exact h.withIssue fun hs => hs.holdEff
  | hkadjUp => exact h.execHkadjUp
  | hkadjDn => exact h.withIssue fun hs => hs.hkadjDnEff
  | bar | bara => exact h.withIssue fun hs => hs.barEff
  | barw => exact h.withIssue fun hs => hs.barwEff
  | sleepns | waitns => exact h.withIssue fun hs => hs.sleepEff
  | knock => exact h.withIssue fun hs => hs.knockEff
  | csrr => exact h.withIssue fun hs => hs.csrrEff
  | csrw => exact h.withIssue fun hs => hs.csrwEff
  | csrx => exact h.execCsrx
  | heartbeatTimeout => exact h.execHeartbeatTimeout
  | knockArrival => exact h.execKnockArrival
  | parserLookaheadRead => exact h.execParserLookaheadRead
  | parserSlotReread => exact h.execParserSlotReread
  | stalledQueueEvent => exact h.execStalledQueueEvent
  | packetIssue => exact h.execPacketIssue
  | wqUnitBind => exact h.execWqUnitBind
  | teamAdmission => exact h.execTeamAdmission
  | activeSetEntry => exact h.execActiveSetEntry
  | fetchLineArrival => exact h.execFetchLineArrival
  | mergeSelect => exact h.execMergeSelect
  | resultLanding => exact h.execResultLanding
  | hatchPushResume => exact h.execHatchPushResume
  | hatchPopResume => exact h.execHatchPopResume
  | hatchLoadEntryFill => exact h.execHatchLoadEntryFill
  | scratchAccessPerform => exact h.execScratchAccessPerform
  | scratchLineFullResume => exact h.execScratchLineFullResume
  | hookDrop => exact h.execHookDrop
  | homeAccessPerform => exact h.execHomeAccessPerform
  | loadDataArrival => exact h.execLoadDataArrival
  | storeCompletion => exact h.execStoreCompletion
  | l1LeaseExpiry => exact h.execL1LeaseExpiry
  | l2Eviction => exact h.execL2Eviction
  | refreshWindowEnd => exact h.execRefreshWindowEnd
  | tlbWalkComplete => exact h.execTlbWalkComplete
  | tlbInvalidate => exact h.execTlbInvalidate
  | cellarWrite => exact h.execCellarWrite
  | copyUnitMove => exact h.execCopyUnitMove
  | copyFinish => exact h.execCopyFinish
  | matrixOpPerform => exact h.execMatrixOpPerform
  | matrixOpFinish => exact h.execMatrixOpFinish
  | remoteRequestIngress => exact h.execRemoteRequestIngress
  | remoteReplyArrival => exact h.execRemoteReplyArrival
  | remoteTimeout => exact h.execRemoteTimeout
  | bulkRequestArrival => exact h.execBulkRequestArrival
  | bulkRequestRetry => exact h.execBulkRequestRetry
  | pullTokenGrant => exact h.execPullTokenGrant
  | tokenDataArrival => exact h.execTokenDataArrival
  | tokenExpiry => exact h.execTokenExpiry
  | orphanNoticeArrival => exact h.execOrphanNoticeArrival
  | bulkAckArrival => exact h.execBulkAckArrival
  | peerCancelArrival => exact h.execPeerCancelArrival
  | settlePoint => exact h.execSettlePoint
  | barrierRelease => exact h.execBarrierRelease
  | hookCreditCommit => exact h.execHookCreditCommit
  | waitRelease => exact h.execWaitRelease
  | timedWaitExpiry => exact h.execTimedWaitExpiry
  | wqEntryArrival => exact h.execWqEntryArrival
  | syscReply => exact h.execSyscReply
  | trapEntry => exact h.execTrapEntry
  | watchdogExpiry => exact h.execWatchdogExpiry
  | preemptRequest => exact h.execPreemptRequest
  | closetSave => exact h.execClosetSave
  | preemptRestore => exact h.execPreemptRestore
  | warpEnd => exact h.execWarpEnd
  | launchRetirement => exact h.execLaunchRetirement
  | fillerEnd => exact h.execFillerEnd
  | islandEnterNt => exact h.execIslandEnterNt
  | islandExitNt => exact h.execIslandExitNt
  | islandEnterRet => exact h.execIslandEnterRet
  | islandExitRet => exact h.execIslandExitRet
  | powerOnBoot => exact h.execPowerOnBoot
  | mailboxStore => exact h.execMailboxStore
  | mailboxAck => exact h.execMailboxAck
  | heartbeatWrite => exact h.execHeartbeatWrite
  | supervisorFatal => exact h.execSupervisorFatal
  | supervisorRelease => exact h.execSupervisorRelease
  | complexReset => exact h.execComplexReset
  | bootTimeoutPark => exact h.execBootTimeoutPark
  | parkedLaunchResume => exact h.execParkedLaunchResume
  | lockoutClear => exact h.execLockoutClear
  | queueCreate => exact h.execQueueCreate
  | contextEnable => exact h.execContextEnable
  | contextDisable => exact h.execContextDisable
  | teamPlacement => exact h.execTeamPlacement
  | hbmUncorrectableError => exact h.execHbmUncorrectableError
  | powerControllerPoison => exact h.execPowerControllerPoison
  | deferMap => exact h.execDeferMap
  | deferDecline => exact h.execDeferDecline
  | keySlotLoad => exact h.execKeySlotLoad
  | keySlotClear => exact h.execKeySlotClear
  | cellarWindowGrant => exact h.execCellarWindowGrant
  | windowEntryWrite => exact h.execWindowEntryWrite
  | routeChange => exact h.execRouteChange
  | linkFailure => exact h.execLinkFailure
  | unsupportedFrameDiscard => exact h.execUnsupportedFrameDiscard
  | uetPacketDrop => exact h.execUetPacketDrop
  | sv4Resume => exact h.execSv4Resume
  | sv4EnterHandler => exact h.execSv4EnterHandler
  | sv4EndLaunch => exact h.execSv4EndLaunch
  | coreFreeze => exact h.execCoreFreeze
  | spareMove => exact h.execSpareMove
  | teamReplace => exact h.execTeamReplace
  | clockTransition => exact h.execClockTransition
  | attributedEccError => exact h.execAttributedEccError
  | voltageMachineCheck => exact h.execVoltageMachineCheck
  | marginPlanInstall => exact h.execMarginPlanInstall
  | counterSnapshot => exact h.execCounterSnapshot
  | contextReassign => exact h.execContextReassign
  | controlRegisterWrite => exact h.execControlRegisterWrite
  | managementCancel => exact h.execManagementCancel
  | pageTableWrite => exact h.execPageTableWrite
  | preemptWithdraw => exact h.execPreemptWithdraw

protected theorem Keyed.dropIssue : Keyed (dropIssue s) := h.same
protected theorem Keyed.afterSyllable {old : State} : Keyed (afterSyllable i old s) := .ite h.advanceIssue h

protected theorem Keyed.beginWarps {dns : Nat} : Keyed (beginWarps s ticked dns) :=
  h.foldl fun _ hs => .ite hs (Keyed.ite hs.charge hs).putWarp

protected theorem Keyed.chargeIslands : Keyed (chargeIslands s ticked) :=
  .ite (h.foldl fun _ hs => .ite hs.chargeDev hs.charge) (h.foldl fun _ hs => .ite hs.chargeDev hs.charge).chargeDev

protected theorem Keyed.chargeRefresh {old : Nat} : Keyed (chargeRefresh s old) := .ite h h.chargeDev
protected theorem Keyed.beginTeams : Keyed (beginTeams s ticked) := h.foldl fun _ hs => .ite hs hs.putTeam

protected theorem Keyed.beginCycle : Keyed (beginCycle s) := by
  unfold beginCycle
  extract_lets old base cl ticked p ns fresh q r ws free evs
  have hp : Keyed p := h.same.reclaim
  have hq : Keyed q := hp.same.releaseHeld.keepBanks
  have hr : Keyed r := hq.beginTeams.beginWarps.chargeIslands.chargeRefresh
  exact hr.same

protected theorem Keyed.takeInput {u : State} (heq : takeInput s = some (i, u)) : Keyed u := by
  unfold takeInput at heq
  split at heq
  · cases heq
    exact h.same
  · cases heq

protected theorem Keyed.step : NextKeyed (step s) := by
  unfold step
  split
  · split
    · split
      · next heq => exact (h.exec.next heq).afterSyllable
      · exact trivial
      · exact trivial
    · exact h.dropIssue
  split
  · exact h.same.exec
  split
  · next heq => exact (h.takeInput heq).exec
  · exact h.beginCycle

end Sys2Proof.Claims
end

section
/-! O57 (R84, R90): warps, teams and launches stay under their own numbers. -/

namespace Sys2Proof.Proofs
open Sys2Proof.Machine Sys2Proof.Claims

/-- Settles O57: every write puts an entry under its own number, and no change of an entry touches its number. -/
theorem numbersStayKeyed : Obligations.NumbersStayKeyed := by
  unfold Obligations.NumbersStayKeyed
  intro s t h hstep
  exact h.step.next hstep

end Sys2Proof.Proofs
end


section
/-! What a decoded syllable is: the instruction that its fields build, with no fault among them (R133). -/

namespace Sys2Proof.Proofs

theorem firstFault_eq_none {l : List FieldFault} : firstFault l = none ↔ l = [] := by
  cases l with
  | nil => simp [firstFault]
  | cons f fs =>
    simp only [firstFault, reduceCtorEq, iff_false]
    split
    · split <;> simp
    · simp

theorem decodeRaw_eq_ok {r : Raw} {nreg : Nat} {hpair closing paired : Bool} {popped : List Nat} {i : Instr} :
    decodeRaw r nreg hpair popped closing paired = .ok i ↔ r.build = some i ∧ r.faults i nreg hpair popped closing paired = [] := by
  unfold decodeRaw
  cases hb : r.build with
  | none => simp
  | some j =>
    rw [← firstFault_eq_none]
    dsimp only
    cases hf : firstFault (r.faults j nreg hpair popped closing paired) with
    | none =>
      simp only [Except.ok.injEq, Option.some.injEq]
      constructor
      · rintro rfl
        exact ⟨rfl, hf⟩
      · exact And.left
    | some f =>
      simp only [reduceCtorEq, Option.some.injEq, false_iff, not_and]
      rintro rfl
      simp [hf]

theorem encoded_of_no_faults {r : Raw} {i : Instr} {nreg : Nat} {hpair closing paired : Bool} {popped : List Nat}
    (h : r.faults i nreg hpair popped closing paired = []) : ∃ sh e, i.shape = some sh ∧ i.enc = some e := by
  unfold Raw.faults at h
  split at h
  · next sh e hs he => exact ⟨sh, e, hs, he⟩
  · cases h

end Sys2Proof.Proofs
end

section
/-! O51 (R102, R105, R107): a step at a bundle under way runs the syllable at its head. -/

namespace Sys2Proof.Proofs
open Sys2Proof.Machine Sys2Proof.Claims

/-- A syllable always answers a next state: its checks only choose which. -/
theorem exec_syllable_next {i : Instr} {e : Enc} (he : i.enc = some e) (s : State) : ∃ t, exec i s = .next t := by
  cases i with
  | iaddc _ co => cases co <;> exact withIssue_next ..
  | nopV | nopM | nopK | nopC | icinv | brx | call | callx | ret | regang | exit | yield | syscIcb | wait | hkadjUp | csrx =>
    unfold exec
    exact withIssue_next ..
  | iadd | isub | imul | imulhi | imad | imadw | imin | imax | iabs | isad | idot4 | icmp | bool3 | shl | shr | sar | rotl | fshl
  | bfx | bfi | popc | clz | brev | sel | mov | movi | prmt | iclamp | lea | add64 | sub64 | cmp64 | shl64 | shr64 | mad64 | fadd
  | fsub | fmul | ffma | fmin | fmax | fcmp | fclass | frint | fscale | fexpnE | fexpnM | dadd | dmul | dfma | dcmp | dmin | dmax
  | hadd2 | hmul2 | hfma2 | hcmp2 | hmin2 | hmax2 | rcp | rsq | sqrt | ex2 | lg2 | sin | cos | tanh | drcp | cvt | cvtscScale
  | cvtsc | pack2 | pack4 | unpack | sigrd | sigwr | sigmin | nbr | shflIdx | shflXor | voteBallot | voteAny | voteAll | voteEq
  | red | scan | matchLanes
  | ld | st | ldr | lds | sts | ldt | stt | ldw | atom | atoms | rld | rst | ratom | fenceTeam | fencePair | fenceDev | fenceFab
  | afence | pref | spmarkFull | spmarkEmpty | wqenq | wqdeq
  | cpyIn | cpyOut | cpytIn | cpytOut | cpyg | cpys | cpyfSp | cpyfMem | cpyw | cpyc | bsend | brecv | bprobeSnd | bprobeRcv
  | bcancelSnd | bcancelRcv | mcfg | mloft | mloftw | mlofth | mma | mmas | mscl | mdrainReg | mdrainScratch | mzero | mfence
  | bra | brp | brany | brall | brsig | loop | trap | rte | sysc | waitAll | hkadjDn | bar | bara | barw | sleepns | waitns | knock
  | csrr | csrw =>
    exact withIssue_next ..
  | _ => cases he

theorem headInstr_of_decodeRaw {s : State} {iss : Issue} {w : Warp} {i : Instr} (hw : s.warp? iss.wid = some w)
    (hd : decodeRaw (Raw.ofWord (lineSyl iss.img iss.syl)) w.nreg (hasPair s w) [] (iss.syl == iss.last) = .ok i) :
    headInstr s iss = some i := by
  simp only [headInstr, hw, Option.bind_some, hd]

theorem step_of_headInstr {s t : State} {iss : Issue} {rest : List Issue} {i : Instr} (hs : s.issuing = iss :: rest)
    (hi : headInstr s iss = some i) (ht : exec i s = .next t) : step s = .next (afterSyllable i s t) := by
  simp only [step, hs, hi, ht]

/-- Settles O51: what the decoder reads has an encoding, every syllable answers a next state, and a step is that answer. -/
theorem stepRunsTheDecodedSyllable : Obligations.StepRunsTheDecodedSyllable := by
  unfold Obligations.StepRunsTheDecodedSyllable
  intro s iss rest w i hs hw hd
  obtain ⟨_, e, _, he⟩ := encoded_of_no_faults (decodeRaw_eq_ok.mp hd).2
  obtain ⟨t, ht⟩ := exec_syllable_next he s
  exact ⟨t, ht, step_of_headInstr hs (headInstr_of_decodeRaw hw hd) ht⟩

end Sys2Proof.Proofs
end

section
/-! O54 (R110 to R112): the words that the spec writes out. -/

namespace Sys2Proof.Proofs

/-- Settles O54: the decoder run on each word. -/
theorem wordsOfTheSpecDecode : Obligations.WordsOfTheSpecDecode := by
  unfold Obligations.WordsOfTheSpecDecode
  decide +kernel

end Sys2Proof.Proofs
end

section
/-! O40 (R257, R266 to R270): a walk that finds a leaf, and a warp frozen for walks of no page. -/

namespace Sys2Proof.Proofs
open Sys2Proof.Machine Sys2Proof.Claims

/-- A warp on core 0 whose one freeze is for walks and lists no page. -/
def pagelessWarp : Warp :=
  { wid := 2, team := 0, w := 0, core := 0, room := 0, base := 0, width := 16, nreg := 32, slices := [], csr := {}, csrSeen := {}, hooks := [],
    freezes := [⟨5, .walk []⟩] }

/-- A walk of context 0 that this warp waits for. -/
def pagelessWalk : Walk := ⟨9, 0, 0x3FFFFFFF, 0, false, [.warp 2], false, .r⟩

/-- The state with both, after reset, where the page table of context 0 maps its first GiB to the first GiB of HBM. -/
def pagelessState : State :=
  { State.reset with
    contexts := [(0, { enabled := true, root := 0x1000 })], hbm := [(0x1000, 0x01), (0x1001, 0x20), (0x2000, 0x1F), (0x4000, 1)],
    warps := [(2, pagelessWarp)], walks := [pagelessWalk] }

/-- The leaf of that GiB (R266). -/
def gibLeaf : Leaf := ⟨0, 30, true, true, true, false, 0, false, 0, 1⟩

theorem pagelessWalk_finds_leaf :
    walk (trimL2 (bringWalk pagelessState pagelessWalk.va (if pagelessWalk.retried then 512 else pagelessWalk.ctx) 4 0
      (pagelessState.ctx pagelessWalk.ctx).root).used) pagelessWalk.ctx pagelessWalk.va = .leaf gibLeaf := by
  decide +kernel

/-- The freezes of that warp after a step. -/
def freezesAfter : Result → Option (List Freeze)
  | .next t => (t.warp? pagelessWarp.wid).map Warp.freezes
  | .fault _ | .refused _ => none

theorem pagelessWarp_stays_frozen : freezesAfter (exec (.tlbWalkComplete pagelessWalk.id) pagelessState) = some [⟨5, .walk []⟩] := by
  decide +kernel

/-- Refutes O40: of the warps that wait for a walk, the model wakes those whose freezes list a page; a freeze for walks that lists none stays,
where the clause on a walk that finds a leaf has the warp go on. -/
theorem not_translationAndLines : ¬ Obligations.TranslationAndLines := by
  unfold Obligations.TranslationAndLines
  intro h
  obtain ⟨-, -, -, -, hleaf, -⟩ := h
  obtain ⟨t, ht, -, hwakes⟩ := hleaf pagelessState pagelessWalk gibLeaf (by decide +kernel) rfl (by decide) pagelessWalk_finds_leaf
  obtain ⟨w', hw', -, -, -, hgoesOn⟩ := hwakes pagelessWarp rfl (by decide +kernel) (by decide +kernel) (by decide +kernel)
    (by decide +kernel) (by decide +kernel) (by decide +kernel)
  have hstays := pagelessWarp_stays_frozen
  rw [ht, freezesAfter, hw', Option.map_some, hgoesOn] at hstays
  cases hstays

end Sys2Proof.Proofs
end

section
/-! Numbers packed into a word, and the codes of modifiers with the bounds that reading them back needs (R110, R126). -/

namespace Sys2Proof.Proofs

/-! ## A field of a number whose parts do not overlap -/

@[simp] theorem bits_add_below {a b c lo w : Nat} (h : 2 ^ (lo + w) ∣ c) : bits (a + c * b) lo w = bits a lo w := by
  obtain ⟨d, rfl⟩ := h
  unfold bits
  rw [Nat.pow_add, Nat.mul_assoc, Nat.mul_assoc, Nat.add_mul_div_left _ _ (by positivity), Nat.add_mul_mod_self_left]

@[simp] theorem bits_add_at {a b c lo w : Nat} (hc : c = 2 ^ lo) (ha : a < c) : bits (a + c * b) lo w = bits b 0 w := by
  subst hc
  unfold bits
  rw [Nat.add_mul_div_left _ _ (by positivity), Nat.div_eq_of_lt ha]
  simp

@[simp] theorem bits_mul_below {b c lo w : Nat} (h : 2 ^ (lo + w) ∣ c) : bits (c * b) lo w = 0 := by
  simpa [bits] using bits_add_below (a := 0) (b := b) h

@[simp] theorem bits_mul_at {b c lo w : Nat} (hc : c = 2 ^ lo) : bits (c * b) lo w = bits b 0 w := by
  simpa using bits_add_at (a := 0) (b := b) (w := w) hc (hc ▸ Nat.two_pow_pos lo)

@[simp] theorem bits_of_lt {n w : Nat} (h : n < 2 ^ w) : bits n 0 w = n := by
  simpa [bits] using Nat.mod_eq_of_lt h

@[simp] theorem bits_above {n lo w : Nat} (h : n < 2 ^ lo) : bits n lo w = 0 := by
  simp [bits, Nat.div_eq_of_lt h]

/-! ## Codes as numbers below a bound

`omega` knows that an element of `Fin n` is below n, so that in this form the rules above need no bound given by hand. -/

/-- A flag as a number. -/
def flagFin (b : Bool) : Fin 2 := ⟨b.toNat, b.toNat_lt⟩

/-! A modifier's code, or a control register's number, as a number below its bound. -/

def rndFin (x : Rnd) : Fin 4 := ⟨x.code, x.code_lt⟩
def frFin (x : Fr) : Fin 16 := ⟨x.code, x.code_lt⟩
def iccFin (x : ICc) : Fin 6 := ⟨x.code, x.code_lt⟩
def fccFin (x : FCc) : Fin 12 := ⟨x.code, x.code_lt⟩
def cmbFin (x : Cmb) : Fin 3 := ⟨x.code, x.code_lt⟩
def etypeFin (x : EType) : Fin 15 := ⟨x.code, x.code_lt⟩
def nbrFillFin (x : NbrFill) : Fin 3 := ⟨x.code, x.code_lt⟩
def redOpFin (x : RedOp) : Fin 7 := ⟨x.code, x.code_lt⟩
def redTyFin (x : RedTy) : Fin 4 := ⟨x.code, x.code_lt⟩
def szFin (x : Sz) : Fin 5 := ⟨x.code, x.code_lt⟩
def caFin (x : Ca) : Fin 3 := ⟨x.code, x.code_lt⟩
def aopFin (x : AOp) : Fin 8 := ⟨x.code, x.code_lt⟩
def atyFin (x : ATy) : Fin 6 := ⟨x.code, x.code_lt⟩
def cpysRedFin (x : CpysRed) : Fin 3 := ⟨x.code, x.code_lt⟩
def unpWFin (x : UnpW) : Fin 3 := ⟨x.code, x.code_lt⟩
def drFmtFin (x : DrFmt) : Fin 5 := ⟨x.code, x.code_lt⟩
def csrFin (x : Csr) : Fin 4096 := ⟨x.num, x.num_lt⟩

theorem code_eq_fin :
    (∀ b : Bool, b.toNat = flagFin b) ∧ (∀ x : Rnd, x.code = rndFin x) ∧ (∀ x : Fr, x.code = frFin x) ∧ (∀ x : ICc, x.code = iccFin x)
      ∧ (∀ x : FCc, x.code = fccFin x) ∧ (∀ x : Cmb, x.code = cmbFin x) ∧ (∀ x : EType, x.code = etypeFin x)
      ∧ (∀ x : NbrFill, x.code = nbrFillFin x) ∧ (∀ x : RedOp, x.code = redOpFin x) ∧ (∀ x : RedTy, x.code = redTyFin x)
      ∧ (∀ x : Sz, x.code = szFin x) ∧ (∀ x : Ca, x.code = caFin x) ∧ (∀ x : AOp, x.code = aopFin x) ∧ (∀ x : ATy, x.code = atyFin x)
      ∧ (∀ x : CpysRed, x.code = cpysRedFin x) ∧ (∀ x : UnpW, x.code = unpWFin x) ∧ (∀ x : DrFmt, x.code = drFmtFin x)
      ∧ ∀ x : Csr, x.num = csrFin x := by
  refine ⟨?_, ?_, ?_, ?_, ?_, ?_, ?_, ?_, ?_, ?_, ?_, ?_, ?_, ?_, ?_, ?_, ?_, ?_⟩ <;> exact fun _ => rfl

@[simp] theorem flagFin_beq_one (b : Bool) : ((flagFin b : Nat) == 1) = b := by cases b <;> rfl
@[simp] theorem ofCode_rndFin (x : Rnd) : Rnd.ofCode (rndFin x) = x := x.ofCode_code
@[simp] theorem ofCode_frFin (x : Fr) : Fr.ofCode (frFin x) = x := x.ofCode_code
@[simp] theorem ofCode_iccFin (x : ICc) : ICc.ofCode (iccFin x) = x := x.ofCode_code
@[simp] theorem ofCode_fccFin (x : FCc) : FCc.ofCode (fccFin x) = x := x.ofCode_code
@[simp] theorem ofCode_cmbFin (x : Cmb) : Cmb.ofCode (cmbFin x) = x := x.ofCode_code
@[simp] theorem ofCode_etypeFin (x : EType) : EType.ofCode (etypeFin x) = x := x.ofCode_code
@[simp] theorem ofCode_nbrFillFin (x : NbrFill) : NbrFill.ofCode (nbrFillFin x) = x := x.ofCode_code
@[simp] theorem ofCode_redOpFin (x : RedOp) : RedOp.ofCode (redOpFin x) = x := x.ofCode_code
@[simp] theorem ofCode_redTyFin (x : RedTy) : RedTy.ofCode (redTyFin x) = x := x.ofCode_code
@[simp] theorem ofCode_szFin (x : Sz) : Sz.ofCode (szFin x) = x := x.ofCode_code
@[simp] theorem ofCode_caFin (x : Ca) : Ca.ofCode (caFin x) = x := x.ofCode_code
@[simp] theorem ofCode_aopFin (x : AOp) : AOp.ofCode (aopFin x) = x := x.ofCode_code
@[simp] theorem ofCode_atyFin (x : ATy) : ATy.ofCode (atyFin x) = x := x.ofCode_code
@[simp] theorem ofCode_cpysRedFin (x : CpysRed) : CpysRed.ofCode (cpysRedFin x) = x := x.ofCode_code
@[simp] theorem ofCode_unpWFin (x : UnpW) : UnpW.ofCode (unpWFin x) = x := x.ofCode_code
@[simp] theorem ofCode_drFmtFin (x : DrFmt) : DrFmt.ofCode (drFmtFin x) = x := x.ofCode_code
@[simp] theorem ofNum_csrFin (x : Csr) : Csr.ofNum (csrFin x) = x := x.ofNum_num

/-- No format of a scratchpad drain has code 0, which is that of a drain to registers (R326). -/
@[simp] theorem drFmtFin_ne_zero (x : DrFmt) : drFmtFin x ≠ 0 := by cases x <;> decide

/-- The modifiers of class FR are the low four bits (R21). -/
@[simp] theorem Fr.ofCode_add {a b c : Nat} (h : 16 ∣ c) : Fr.ofCode (a + c * b) = Fr.ofCode a := by
  simp (disch := omega) only [Fr.ofCode, testBit_eq_bits, bits_add_below]

/-! ## Immediates -/

theorem immOk_iff {o : Option Nat} {n : Nat} (hn : 0 < n) : immOk o n = true ↔ o.getD 0 < n := by
  cases o <;> simp [immOk, hn]

theorem fieldImmOk_iff (o : Option (Nat × Nat)) : fieldImmOk o = true ↔ (o.getD (0, 0)).1 < 32 ∧ (o.getD (0, 0)).2 ≤ 32 := by
  cases o <;> simp [fieldImmOk]

theorem posLen_eq (o : Option (Nat × Nat)) : posLen o = (o.getD (0, 0)).1 + 32 * (o.getD (0, 0)).2 := by
  cases o <;> rfl

@[simp] theorem optBits_isSome_getD {α : Type} (o : Option α) (d : α) : optBits o.isSome (o.getD d) = o := by
  cases o <;> rfl

theorem cvtOk_lt {dt st : EType} {i : Nat} (h : cvtOk dt st i = true) : i < 16 := by
  simp only [cvtOk, Bool.and_eq_true, decide_eq_true_eq] at h
  have : st.cvtSlots ≤ 8 := by cases st <;> decide
  omega

end Sys2Proof.Proofs
end

section
/-! The decoder's reading of the fields that an encoding lays out: SLOT, OP, MOD, X and HC give back the instruction they were taken from
(R110, R127 to R131). -/

namespace Sys2Proof.Proofs

/-- The fields `r` are those that the encoding `e` of `i` and its common fields `f` lay out (R110); where HC stands in place of the operand C,
`f` names no operand there (R278). -/
structure LaidOut (i : Instr) (e : Enc) (f : Fields) (r : Raw) : Prop where
  enc : i.enc = some e
  fields : i.fields = some f
  xOk : i.xOk = true
  slot : r.slot = e.slot
  op : r.op = e.op
  mod : r.mod = e.mod
  x : r.x = e.x
  noHook : e.hc = none → r.fields = f
  hook : ∀ h, e.hc = some h → r.c = h ∧ { r.fields with c := .none } = f

variable {i : Instr} {e : Enc} {f : Fields} {r : Raw}

/-- Integer (R188); movi has a form of its own (R111). -/
theorem LaidOut.build_integer (h : LaidOut i e f r) (hp : e.slot = 0 ∧ 0 < e.op ∧ e.op < 0x20 ∧ e.op ≠ 0x1B) : r.build = some i := by
  obtain ⟨he, hf, hx, hslot, hop, hmod, hxf, hfields, hhook⟩ := h
  cases i with
  | iadd | isub | iaddc | imul | imulhi | imad | imadw | imin | imax | iabs | isad | idot4 | icmp | shl | shr | sar | rotl | fshl | bfx
  | bfi | popc | clz | brev | sel | mov | prmt | iclamp | bool3 =>
    cases he; cases hf
    simp (disch := decide) only [Instr.xOk, Bool.and_eq_true, decide_eq_true_eq, immOk_iff, fieldImmOk_iff] at hx
    simp (disch := omega) [Raw.build, hslot, hop, buildV, hmod, hxf, hfields rfl, testBit_eq_bits, code_eq_fin, posLen_eq]
  | _ => cases he <;> simp at hp

/-- Addresses and 64 bits (R188). -/
theorem LaidOut.build_address (h : LaidOut i e f r) (hp : e.slot = 0 ∧ 0x20 ≤ e.op ∧ e.op < 0x40) : r.build = some i := by
  obtain ⟨he, hf, hx, hslot, hop, hmod, hxf, hfields, hhook⟩ := h
  cases i with
  | lea | add64 | sub64 | cmp64 | shl64 | shr64 | mad64 =>
    cases he; cases hf
    simp (disch := decide) only [Instr.xOk, decide_eq_true_eq, immOk_iff] at hx
    simp (disch := omega) [Raw.build, hslot, hop, buildV, hmod, hxf, hfields rfl, testBit_eq_bits, code_eq_fin]
  | _ => cases he <;> simp at hp

/-- Float and packed (R205). -/
theorem LaidOut.build_float (h : LaidOut i e f r) (hp : e.slot = 0 ∧ 0x40 ≤ e.op ∧ e.op < 0x60) : r.build = some i := by
  obtain ⟨he, hf, hx, hslot, hop, hmod, hxf, hfields, hhook⟩ := h
  cases i with
  | fadd | fsub | fmul | ffma | fmin | fmax | fcmp | fclass | frint | fscale | fexpnE | dadd | dmul | dfma | dcmp | dmin | dmax | hadd2
  | hmul2 | hfma2 | hcmp2 | hmin2 | hmax2 =>
    cases he; cases hf
    simp only [Instr.xOk, decide_eq_true_eq] at hx
    simp (disch := omega) [Raw.build, hslot, hop, buildV, hmod, hxf, hfields rfl, testBit_eq_bits, code_eq_fin]
  | fexpnM _ ftz =>
    cases he; cases hf
    cases ftz <;> simp [Raw.build, hslot, hop, buildV, hmod, hfields rfl, testBit_eq_bits, bits]
  | _ => cases he <;> simp at hp

/-- Special functions, conversions and significance (R205). -/
theorem LaidOut.build_special (h : LaidOut i e f r) (hp : e.slot = 0 ∧ 0x60 ≤ e.op ∧ e.op < 0x80) : r.build = some i := by
  obtain ⟨he, hf, hx, hslot, hop, hmod, hxf, hfields, hhook⟩ := h
  cases i with
  | rcp | rsq | sqrt | ex2 | lg2 | sin | cos | tanh | drcp | cvtscScale | cvtsc | pack2 | pack4 | sigrd | sigwr | sigmin =>
    cases he; cases hf
    simp only [Instr.xOk] at hx
    simp (disch := omega) [Raw.build, hslot, hop, buildV, hmod, hxf, hfields rfl, testBit_eq_bits, code_eq_fin]
  | cvt =>
    cases he; cases hf
    have := cvtOk_lt hx
    simp (disch := omega) [Raw.build, hslot, hop, buildV, hmod, hxf, hfields rfl, code_eq_fin]
  | unpack _ _ wid k =>
    cases he; cases hf
    have : k < 4 := by
      simp only [Instr.xOk] at hx
      cases wid <;> simp at hx <;> omega
    simp (disch := omega) [Raw.build, hslot, hop, buildV, hmod, hxf, hfields rfl, testBit_eq_bits, code_eq_fin]
  | _ => cases he <;> simp at hp

/-- Cross-lane (R229). -/
theorem LaidOut.build_crossLane (h : LaidOut i e f r) (hp : e.slot = 0 ∧ 0x80 ≤ e.op) : r.build = some i := by
  obtain ⟨he, hf, hx, hslot, hop, hmod, hxf, hfields, hhook⟩ := h
  cases i with
  | nbr | shflIdx | shflXor | voteBallot | voteAny | voteAll | voteEq | red | scan | matchLanes =>
    cases he; cases hf
    simp only [Instr.xOk, Bool.and_eq_true, decide_eq_true_eq] at hx
    simp (disch := omega) [Raw.build, hslot, hop, buildV, hmod, hxf, hfields rfl, testBit_eq_bits, code_eq_fin]
  | _ => cases he <;> simp at hp

/-- Memory syllables with HC (R279, R355). -/
theorem LaidOut.build_hooked (h : LaidOut i e f r) (hp : e.slot = 1 ∧ e.hc ≠ none) : r.build = some i := by
  obtain ⟨he, hf, hx, hslot, hop, hmod, hxf, hfields, hhook⟩ := h
  cases i with
  | ld | st | ldr | ldt | stt | ldw | atom | atoms | rld | rst | ratom =>
    cases he; cases hf
    simp only [Instr.xOk, Bool.and_eq_true, decide_eq_true_eq] at hx
    simp (disch := omega) [Raw.build, hslot, hop, buildM, hmod, hxf, hhook _ rfl, testBit_eq_bits, code_eq_fin]
  | _ => cases he <;> simp at hp

/-- Scratchpad, fences, caches, marks and work queues (R279, R281). -/
theorem LaidOut.build_scratch (h : LaidOut i e f r) (hp : e.slot = 1 ∧ 0 < e.op ∧ e.hc = none) : r.build = some i := by
  obtain ⟨he, hf, hx, hslot, hop, hmod, hxf, hfields, hhook⟩ := h
  cases i with
  | lds | sts | fenceTeam | fencePair | fenceDev | fenceFab | afence | icinv | pref | spmarkFull | spmarkEmpty | wqenq | wqdeq =>
    cases he; cases hf
    simp only [Instr.xOk, Bool.and_eq_true, decide_eq_true_eq] at hx
    simp (disch := omega) [Raw.build, hslot, hop, buildM, hmod, hxf, hfields rfl, testBit_eq_bits, code_eq_fin]
  | _ => cases he <;> simp at hp

/-- Copies and bulk transfers (R304, R364). -/
theorem LaidOut.build_copy (h : LaidOut i e f r) (hp : e.slot = 2 ∧ 0 < e.op ∧ e.op < 0x20) : r.build = some i := by
  obtain ⟨he, hf, hx, hslot, hop, hmod, hxf, hfields, hhook⟩ := h
  cases i with
  | cpyIn | cpyOut | cpytIn | cpytOut | cpyg | cpys | cpyfSp | cpyfMem | cpyw | cpyc | bsend | brecv | bprobeSnd | bprobeRcv |
  bcancelSnd | bcancelRcv =>
    cases he; cases hf
    simp only [Instr.xOk, Bool.and_eq_true, decide_eq_true_eq] at hx
    simp (disch := omega) [Raw.build, hslot, hop, buildK, hmod, hxf, hfields rfl, testBit_eq_bits, code_eq_fin]
  | _ => cases he <;> simp at hp

/-- Matrix (R326). -/
theorem LaidOut.build_matrix (h : LaidOut i e f r) (hp : e.slot = 2 ∧ 0x20 ≤ e.op) : r.build = some i := by
  obtain ⟨he, hf, hx, hslot, hop, hmod, hxf, hfields, hhook⟩ := h
  cases i with
  | mcfg | mloft | mloftw | mlofth | mma | mmas | mscl | mdrainReg | mdrainScratch | mzero | mfence =>
    cases he; cases hf
    simp only [Instr.xOk, Bool.and_eq_true, decide_eq_true_eq] at hx
    simp (disch := omega) [Raw.build, hslot, hop, buildK, hmod, hxf, hfields rfl, testBit_eq_bits, code_eq_fin]
  | _ => cases he <;> simp at hp

/-- Control (R169, R392, R414). -/
theorem LaidOut.build_control (h : LaidOut i e f r) (hp : e.slot = 3 ∧ 0 < e.op) : r.build = some i := by
  obtain ⟨he, hf, hx, hslot, hop, hmod, hxf, hfields, hhook⟩ := h
  cases i with
  | bra | brx | call | callx | ret | regang | brp | brany | brall | brsig | exit | yield | loop | trap | rte | syscIcb | wait | waitAll
  | hkadjUp | hkadjDn | bar | bara | barw | sleepns | waitns | knock | csrr | csrw | csrx =>
    cases he; cases hf
    simp (disch := decide) only [Instr.xOk, Bool.and_eq_true, decide_eq_true_eq, immOk_iff] at hx
    simp (disch := omega) [Raw.build, hslot, hop, buildC, hmod, hxf, hfields rfl, testBit_eq_bits, code_eq_fin]
  | sysc _ n =>
    cases he; cases hf
    simp only [Instr.xOk, Bool.and_eq_true, decide_eq_true_eq] at hx
    have : n ≠ 0 := by omega
    simp (disch := omega) [Raw.build, hslot, hop, buildC, hxf, hfields rfl, this]
  | _ => cases he <;> simp at hp

end Sys2Proof.Proofs
end

section
/-! What is true of every instruction with an encoding: its fields' widths (R110), its shape, and where HC stands (R278, R354). -/

namespace Sys2Proof.Proofs

theorem encRange_of_wf (i : Instr) : Laws.Encoding.Statement i := by
  cases i with
  | nopV => apply Laws.Encoding.nopV | nopM => apply Laws.Encoding.nopM | nopK => apply Laws.Encoding.nopK
  | nopC => apply Laws.Encoding.nopC | movi => apply Laws.Encoding.movi | iadd => apply Laws.Encoding.iadd
  | isub => apply Laws.Encoding.isub | iaddc => apply Laws.Encoding.iaddc | imul => apply Laws.Encoding.imul
  | imulhi => apply Laws.Encoding.imulhi | imad => apply Laws.Encoding.imad | imadw => apply Laws.Encoding.imadw
  | imin => apply Laws.Encoding.imin | imax => apply Laws.Encoding.imax | iabs => apply Laws.Encoding.iabs
  | isad => apply Laws.Encoding.isad | idot4 => apply Laws.Encoding.idot4 | icmp => apply Laws.Encoding.icmp
  | shl => apply Laws.Encoding.shl | shr => apply Laws.Encoding.shr | sar => apply Laws.Encoding.sar
  | rotl => apply Laws.Encoding.rotl | fshl => apply Laws.Encoding.fshl | bfx => apply Laws.Encoding.bfx
  | bfi => apply Laws.Encoding.bfi | popc => apply Laws.Encoding.popc | clz => apply Laws.Encoding.clz
  | brev => apply Laws.Encoding.brev | sel => apply Laws.Encoding.sel | mov => apply Laws.Encoding.mov
  | prmt => apply Laws.Encoding.prmt | iclamp => apply Laws.Encoding.iclamp | lea => apply Laws.Encoding.lea
  | add64 => apply Laws.Encoding.add64 | sub64 => apply Laws.Encoding.sub64 | cmp64 => apply Laws.Encoding.cmp64
  | shl64 => apply Laws.Encoding.shl64 | shr64 => apply Laws.Encoding.shr64 | mad64 => apply Laws.Encoding.mad64
  | fadd => apply Laws.Encoding.fadd | fsub => apply Laws.Encoding.fsub | fmul => apply Laws.Encoding.fmul
  | ffma => apply Laws.Encoding.ffma | fmin => apply Laws.Encoding.fmin | fmax => apply Laws.Encoding.fmax
  | fcmp => apply Laws.Encoding.fcmp | fclass => apply Laws.Encoding.fclass | frint => apply Laws.Encoding.frint
  | fscale => apply Laws.Encoding.fscale | fexpnE => apply Laws.Encoding.fexpnE | fexpnM => apply Laws.Encoding.fexpnM
  | dadd => apply Laws.Encoding.dadd | dmul => apply Laws.Encoding.dmul | dfma => apply Laws.Encoding.dfma
  | dcmp => apply Laws.Encoding.dcmp | dmin => apply Laws.Encoding.dmin | dmax => apply Laws.Encoding.dmax
  | hadd2 => apply Laws.Encoding.hadd2 | hmul2 => apply Laws.Encoding.hmul2 | hfma2 => apply Laws.Encoding.hfma2
  | hcmp2 => apply Laws.Encoding.hcmp2 | hmin2 => apply Laws.Encoding.hmin2 | hmax2 => apply Laws.Encoding.hmax2
  | rcp => apply Laws.Encoding.rcp | rsq => apply Laws.Encoding.rsq | sqrt => apply Laws.Encoding.sqrt
  | ex2 => apply Laws.Encoding.ex2 | lg2 => apply Laws.Encoding.lg2 | sin => apply Laws.Encoding.sin
  | cos => apply Laws.Encoding.cos | tanh => apply Laws.Encoding.tanh | drcp => apply Laws.Encoding.drcp
  | cvt => apply Laws.Encoding.cvt | cvtscScale => apply Laws.Encoding.cvtscScale | cvtsc => apply Laws.Encoding.cvtsc
  | pack2 => apply Laws.Encoding.pack2 | pack4 => apply Laws.Encoding.pack4 | unpack => apply Laws.Encoding.unpack
  | sigrd => apply Laws.Encoding.sigrd | sigwr => apply Laws.Encoding.sigwr | sigmin => apply Laws.Encoding.sigmin
  | nbr => apply Laws.Encoding.nbr | shflIdx => apply Laws.Encoding.shflIdx | shflXor => apply Laws.Encoding.shflXor
  | voteBallot => apply Laws.Encoding.voteBallot | voteAny => apply Laws.Encoding.voteAny
  | voteAll => apply Laws.Encoding.voteAll | voteEq => apply Laws.Encoding.voteEq | red => apply Laws.Encoding.red
  | scan => apply Laws.Encoding.scan | matchLanes => apply Laws.Encoding.matchLanes | bool3 => apply Laws.Encoding.bool3
  | ld => apply Laws.Encoding.ld | st => apply Laws.Encoding.st | ldr => apply Laws.Encoding.ldr
  | ldt => apply Laws.Encoding.ldt | stt => apply Laws.Encoding.stt | ldw => apply Laws.Encoding.ldw
  | atom => apply Laws.Encoding.atom | atoms => apply Laws.Encoding.atoms | rld => apply Laws.Encoding.rld
  | rst => apply Laws.Encoding.rst | ratom => apply Laws.Encoding.ratom | lds => apply Laws.Encoding.lds
  | sts => apply Laws.Encoding.sts | fenceTeam => apply Laws.Encoding.fenceTeam | fencePair => apply Laws.Encoding.fencePair
  | fenceDev => apply Laws.Encoding.fenceDev | fenceFab => apply Laws.Encoding.fenceFab | afence => apply Laws.Encoding.afence
  | icinv => apply Laws.Encoding.icinv | pref => apply Laws.Encoding.pref | spmarkFull => apply Laws.Encoding.spmarkFull
  | spmarkEmpty => apply Laws.Encoding.spmarkEmpty | wqenq => apply Laws.Encoding.wqenq | wqdeq => apply Laws.Encoding.wqdeq
  | cpyIn => apply Laws.Encoding.cpyIn | cpyOut => apply Laws.Encoding.cpyOut | cpytIn => apply Laws.Encoding.cpytIn
  | cpytOut => apply Laws.Encoding.cpytOut | cpyg => apply Laws.Encoding.cpyg | cpys => apply Laws.Encoding.cpys
  | cpyfSp => apply Laws.Encoding.cpyfSp | cpyfMem => apply Laws.Encoding.cpyfMem | cpyw => apply Laws.Encoding.cpyw
  | cpyc => apply Laws.Encoding.cpyc | bsend => apply Laws.Encoding.bsend | brecv => apply Laws.Encoding.brecv
  | bprobeSnd => apply Laws.Encoding.bprobeSnd | bprobeRcv => apply Laws.Encoding.bprobeRcv
  | bcancelSnd => apply Laws.Encoding.bcancelSnd | bcancelRcv => apply Laws.Encoding.bcancelRcv
  | mcfg => apply Laws.Encoding.mcfg | mloft => apply Laws.Encoding.mloft | mloftw => apply Laws.Encoding.mloftw
  | mlofth => apply Laws.Encoding.mlofth | mma => apply Laws.Encoding.mma | mmas => apply Laws.Encoding.mmas
  | mscl => apply Laws.Encoding.mscl | mdrainReg => apply Laws.Encoding.mdrainReg
  | mdrainScratch => apply Laws.Encoding.mdrainScratch | mzero => apply Laws.Encoding.mzero
  | mfence => apply Laws.Encoding.mfence | bra => apply Laws.Encoding.bra | brx => apply Laws.Encoding.brx
  | call => apply Laws.Encoding.call | callx => apply Laws.Encoding.callx | ret => apply Laws.Encoding.ret
  | regang => apply Laws.Encoding.regang | brp => apply Laws.Encoding.brp | brany => apply Laws.Encoding.brany
  | brall => apply Laws.Encoding.brall | brsig => apply Laws.Encoding.brsig | exit => apply Laws.Encoding.exit
  | yield => apply Laws.Encoding.yield | loop => apply Laws.Encoding.loop | trap => apply Laws.Encoding.trap
  | rte => apply Laws.Encoding.rte | syscIcb => apply Laws.Encoding.syscIcb | sysc => apply Laws.Encoding.sysc
  | wait => apply Laws.Encoding.wait | waitAll => apply Laws.Encoding.waitAll | hkadjUp => apply Laws.Encoding.hkadjUp
  | hkadjDn => apply Laws.Encoding.hkadjDn | bar => apply Laws.Encoding.bar | bara => apply Laws.Encoding.bara
  | barw => apply Laws.Encoding.barw | sleepns => apply Laws.Encoding.sleepns | waitns => apply Laws.Encoding.waitns
  | knock => apply Laws.Encoding.knock | csrr => apply Laws.Encoding.csrr | csrw => apply Laws.Encoding.csrw
  | csrx => apply Laws.Encoding.csrx
  | _ => exact fun _ _ he => nomatch he

theorem immS_ne_hc {α : Type} (o : Option α) : immS o ≠ .hc := by cases o <;> simp [immS]

/-- HC is encoded exactly where the shape has it in place of the operand C. -/
theorem hc_isSome {i : Instr} {sh : Shape} {e : Enc} (hs : i.shape = some sh) (he : i.enc = some e) : e.hc.isSome = (sh.c == .hc) := by
  cases i with
  | fshl | bfi | prmt =>
    cases he; cases hs
    exact (beq_false_of_ne (immS_ne_hc _)).symm
  | mov | nbr | shflIdx | shflXor | red | scan =>
    cases he; cases hs
    split <;> rfl
  | _ => cases he <;> cases hs <;> rfl

theorem Sz.src_ne_hc (z : Sz) : z.src ≠ .hc ∧ z.srcN ≠ .hc := by cases z <;> decide

theorem ATy.src_ne_hc (t : ATy) (op : AOp) (hatch : Bool) : t.src op hatch ≠ .hc := by
  cases t <;> cases op <;> cases hatch <;> decide

/-- HC never stands in place of the operands A and B. -/
theorem ab_ne_hc {i : Instr} {sh : Shape} (hs : i.shape = some sh) : sh.a ≠ .hc ∧ sh.b ≠ .hc := by
  cases i with
  | shl | shr | sar | rotl | bfx | shl64 | shr64 =>
    cases hs
    exact ⟨nofun, immS_ne_hc _⟩
  | st | stt | sts =>
    cases hs
    exact ⟨nofun, (Sz.src_ne_hc _).1⟩
  | rst =>
    cases hs
    exact ⟨nofun, (Sz.src_ne_hc _).2⟩
  | atom | atoms | ratom =>
    cases hs
    exact ⟨nofun, ATy.src_ne_hc _ _ _⟩
  | mov | nbr | shflIdx | shflXor | red | scan =>
    cases hs
    split <;> exact ⟨nofun, nofun⟩
  | fclass | cvt | matchLanes | csrw | csrx =>
    cases hs
    refine ⟨?_, nofun⟩
    dsimp only [vs, xs, cs]
    split <;> nofun
  | mma | mmas | mdrainScratch =>
    cases hs
    refine ⟨nofun, ?_⟩
    dsimp only [ks]
    split <;> nofun
  | _ => cases hs <;> exact ⟨nofun, nofun⟩

theorem shape_of_enc {i : Instr} {e : Enc} (he : i.enc = some e) : ∃ sh, i.shape = some sh := by
  cases i <;> cases he <;> exact ⟨_, rfl⟩

end Sys2Proof.Proofs
end

section
/-! What the decoder builds from a SLOT and an OP (R128 to R131): an instruction whose encoding has them. -/

namespace Sys2Proof.Proofs

/-- The common fields of a syllable, without an operand C where that field is HC (R278). -/
def operandsOf (r : Raw) (hook : Bool) : Fields := if hook then { r.fields with c := .none } else r.fields

/-- The instruction `i` has an encoding of this SLOT and OP, and the fields `r` as its own. -/
def ReadAs (slot op : Nat) (r : Raw) (i : Instr) : Prop :=
  ∃ e, i.enc = some e ∧ e.slot = slot ∧ e.op = op ∧ i.fields = some (operandsOf r e.hc.isSome)

theorem ReadAs.ite {slot op : Nat} {r : Raw} {i j : Instr} {c : Prop} [Decidable c] (hi : ReadAs slot op r i) (hj : ReadAs slot op r j) :
    ReadAs slot op r (if c then i else j) := by
  split <;> assumption

/-! An opcode is reserved, names one instruction, or names several that MOD or X tells apart. -/

variable {op : Nat} {r : Raw} {i : Instr}

theorem readAs_of_buildV (h0 : 0 < op) (hop : op < 256) (hm : op ≠ 0x1B) (hb : buildV op r = some i) : ReadAs 0 op r i := by
  rcases Nat.lt_or_gt_of_ne hm with h | h <;> interval_cases op <;> cases hb
  all_goals
    repeat' apply ReadAs.ite
    all_goals exact ⟨_, rfl, rfl, rfl, rfl⟩

theorem readAs_of_buildM (h0 : 0 < op) (hop : op < 256) (hb : buildM op r = some i) : ReadAs 1 op r i := by
  interval_cases op <;> cases hb
  all_goals
    repeat' apply ReadAs.ite
    all_goals exact ⟨_, rfl, rfl, rfl, rfl⟩

theorem readAs_of_buildK (h0 : 0 < op) (hop : op < 256) (hb : buildK op r = some i) : ReadAs 2 op r i := by
  interval_cases op <;> cases hb
  all_goals
    repeat' apply ReadAs.ite
    all_goals exact ⟨_, rfl, rfl, rfl, rfl⟩

theorem readAs_of_buildC (h0 : 0 < op) (hop : op < 256) (hb : buildC op r = some i) : ReadAs 3 op r i := by
  interval_cases op <;> cases hb
  all_goals
    repeat' apply ReadAs.ite
    all_goals exact ⟨_, rfl, rfl, rfl, rfl⟩

end Sys2Proof.Proofs
end

section
/-! A syllable whose fields show no fault is well formed (R110 to R126, R133). -/

namespace Sys2Proof.Proofs

/-! ## Numbers that name an operand (R116, R117) -/

/-- The number `n` names an operand, which has no other number. -/
def Names (n : Nat) : Prop := (opndOf n).ok = true ∧ (opndOf n).num = n

theorem names_reg {n : Nat} (h : n < 768) : Names n := by
  simp [Names, opndOf, Opnd.ofNum, h, Opnd.ok, Opnd.num]

theorem names_ln {n : Nat} (h : 768 ≤ n ∧ n < 776) : Names n := by
  obtain ⟨h1, h2⟩ := h
  interval_cases n <;> exact ⟨rfl, rfl⟩

theorem names_hatch {n : Nat} (h : isHatchNum n = true) : Names n := by
  simp only [isHatchNum, Bool.and_eq_true, decide_eq_true_eq] at h
  obtain ⟨h1, h2⟩ := h
  interval_cases n <;> exact ⟨rfl, rfl⟩

theorem names_none : Names 1023 := ⟨rfl, rfl⟩

theorem names_sys {n : Nat} (h : (sysOfNum n).isSome = true) : Names n := by
  unfold sysOfNum at h
  split at h
  case h_23 => cases h
  all_goals exact ⟨rfl, rfl⟩

theorem names_kon {n : Nat} (h : (konOfNum n).isSome = true) : Names n := by
  unfold konOfNum at h
  split at h
  case h_5 => cases h
  all_goals exact ⟨rfl, rfl⟩

theorem regSpan_lt {n span nreg : Nat} (hs : 0 < span) (h : regSpan n span nreg = true) : n < 768 := by
  simp only [regSpan, Bool.and_eq_true, decide_eq_true_eq] at h
  omega

theorem Names.inj {n m : Nat} (hn : Names n) (hm : Names m) (h : opndOf n = opndOf m) : n = m := by
  rw [← hn.2, ← hm.2, h]

theorem Names.of_dest {k : DK} {n : Nat} (h : k.bad 768 n = none) : Names n := by
  have : n = 1023 ∨ isHatchNum n = true ∨ n < 768 ∨ 768 ≤ n ∧ n < 776 := by
    cases k <;> simp only [DK.bad] at h <;> grind [regSpan]
  rcases this with rfl | h | h | h
  · exact names_none
  · exact names_hatch h
  · exact names_reg h
  · exact names_ln h

theorem Names.of_source {k : SK} {n : Nat} (hk : k ≠ .hc) (h : k.bad 768 n = none) : Names n := by
  have : n = 1023 ∨ isHatchNum n = true ∨ n < 768 ∨ (768 ≤ n ∧ n < 776) ∨ (sysOfNum n).isSome = true ∨ (konOfNum n).isSome = true := by
    cases k <;> simp only [SK.bad] at h <;> grind [regSpan, sysOfNum]
  rcases this with rfl | h | h | h | h | h
  · exact names_none
  · exact names_hatch h
  · exact names_reg h
  · exact names_ln h
  · exact names_sys h
  · exact names_kon h

theorem Names.of_pred {n : Nat} (h : predOk 768 n = true) : Names n := by
  simp only [predOk, Bool.or_eq_true, Bool.and_eq_true, decide_eq_true_eq] at h
  rcases h with ((rfl | h) | h) | h
  · exact names_none
  · exact names_reg (regSpan_lt Nat.one_pos h)
  · exact names_ln h
  · exact names_sys h

/-! ## No fault of a field (R133) -/

theorem need_eq_nil {ok : Bool} {fld : Nat} : need ok fld = [] ↔ ok = true := by
  cases ok <;> simp [need]

theorem opndFault_eq_nil {bad : Option Nat} {hpair u : Bool} {n fld : Nat} :
    opndFault bad hpair u n fld = [] ↔ bad = none ∧ hatchBad hpair u n = false := by
  cases bad <;> simp [opndFault]

theorem popFault_eq_nil {popped : List Nat} {n fld : Nat} : popFault popped n fld = [] ↔ (isHatchNum n = true → n ∉ popped) := by
  simp [popFault]

/-- What the absence of faults says of the fields that every form of a syllable has. -/
structure CommonFit (r : Raw) (i : Instr) (sh : Shape) (e : Enc) : Prop where
  uni : (sh.uni || !r.u) = true
  mod : e.mod = r.mod
  modOk : i.modOk = true
  x : e.x = r.x
  xOk : i.xOk = true
  d : sh.d.bad 768 r.d = none
  dHatch : hatchBad true r.u r.d = false
  a : sh.a.bad 768 r.a = none
  aHatch : hatchBad true r.u r.a = false

/-- And of those that only the form of R110 has. -/
structure OperandsFit (r : Raw) (i : Instr) (sh : Shape) (e : Enc) : Prop where
  b : sh.b.bad 768 r.b = none
  bHatch : hatchBad true r.u r.b = false
  hook : sh.c = .hc → e.hc = some r.c
  c : sh.c ≠ .hc → sh.c.bad 768 r.c = none ∧ hatchBad true r.u r.c = false
  lua : r.lua = true → r.a < 768
  lub : r.lub = true → r.b < 768
  luc : r.luc = true → r.c < 768 ∧ sh.c ≠ .hc
  luMma : i.luMma = true
  noPred : r.p = 1023 → r.pb = 0 ∧ r.pn = false
  pred : r.p ≠ 1023 → sh.pred = true ∧ predOk 768 r.p = true
  popB : isHatchNum r.b = true → r.b ≠ r.a
  popC : sh.c ≠ .hc → isHatchNum r.c = true → r.c ≠ r.a ∧ r.c ≠ r.b

variable {r : Raw} {i : Instr} {sh : Shape} {e : Enc}

theorem xOk_of_jFree {bad : Option Nat} (hj : r.jFree i bad = true) : bad ≠ none := by
  unfold Raw.jFree at hj
  split at hj
  · rintro rfl
    simp at hj
  · cases hj

theorem CommonFit.of_no_faults (hs : i.shape = some sh) (he : i.enc = some e) (h : r.faults i 768 true [] true = []) :
    CommonFit r i sh e := by
  unfold Raw.faults at h
  rw [hs, he] at h
  dsimp only at h
  have h' : (need (true || r.gap == 0) 10 ++ need (sh.uni || !r.u) 9 ++ need (e.mod == r.mod && i.modOk) 11
      ++ need (!(false && i.isChain)) 11 ++ need (e.x == r.x && (i.xOk || r.jFree i (sh.d.bad 768 r.d))) 12
      ++ opndFault (sh.d.bad 768 r.d) true r.u r.d 1 ++ opndFault (sh.a.bad 768 r.a) true r.u r.a 2) = [] := by
    split at h <;> simp only [List.append_eq_nil_iff] at h ⊢ <;> tauto
  simp only [List.append_eq_nil_iff, need_eq_nil, opndFault_eq_nil, Bool.and_eq_true, beq_iff_eq, Bool.or_eq_true (i.xOk)] at h'
  obtain ⟨⟨⟨⟨⟨⟨-, huni⟩, hmod, hmodOk⟩, -⟩, hx, hxOk⟩, hd, hdh⟩, ha, hah⟩ := h'
  exact ⟨huni, hmod, hmodOk, hx, hxOk.resolve_right fun hj => xOk_of_jFree hj hd, hd, hdh, ha, hah⟩

theorem OperandsFit.of_no_faults (hs : i.shape = some sh) (he : i.enc = some e) (hm : r.isMovi = false)
    (h : r.faults i 768 true [] true = []) : OperandsFit r i sh e := by
  unfold Raw.faults at h
  rw [hs, he] at h
  simp only [hm, Bool.false_eq_true, if_false, List.append_eq_nil_iff, need_eq_nil, opndFault_eq_nil, popFault_eq_nil, ite_eq_iff',
    beq_iff_eq, Bool.and_eq_true, Bool.or_eq_true, decide_eq_true_eq, reduceCtorEq, imp_false, not_not,
    List.mem_append, List.mem_cons, List.not_mem_nil, or_false, not_or, Bool.not_eq_eq_eq_not, Bool.not_true] at h
  obtain ⟨⟨⟨⟨⟨⟨⟨-, hb⟩, hc⟩, hlu⟩, hp⟩, hpa⟩, hpb⟩, hpc⟩ := h
  obtain ⟨⟨⟨hla, hlb⟩, hlc⟩, hlm⟩ := hlu
  exact {
    b := hb.1
    bHatch := hb.2
    hook := hc.1
    c := hc.2
    lua := fun h => hla.resolve_left (by simp [h])
    lub := fun h => hlb.resolve_left (by simp [h])
    luc := fun h => by simpa using hlc.resolve_left (by simp [h])
    luMma := hlm
    noPred := hp.1
    pred := fun h => ⟨(hp.2 h).2, ((hp.2 h).1 (hp.2 h).2).2⟩
    popB := fun h => (hpb h).2
    popC := fun hn h => (hpc.2 hn h).2 }

/-! ## From the fields to the syllable -/

theorem CommonFit.names (h : CommonFit r i sh e) (hs : i.shape = some sh) : Names r.d ∧ Names r.a :=
  ⟨.of_dest h.d, .of_source (ab_ne_hc hs).1 h.a⟩

theorem OperandsFit.names (h : OperandsFit r i sh e) (hs : i.shape = some sh) : Names r.b ∧ Names r.p := by
  refine ⟨.of_source (ab_ne_hc hs).2 h.b, ?_⟩
  by_cases hp : r.p = 1023
  · exact hp ▸ names_none
  · exact .of_pred (h.pred hp).2

theorem OperandsFit.names_c (h : OperandsFit r i sh e) (hc : sh.c ≠ .hc) : Names r.c := .of_source hc (h.c hc).1

theorem luOk_of_lt {lu : Bool} {n : Nat} (h : lu = true → n < 768) : luOk lu (opndOf n) = true := by
  cases lu with
  | false => rfl
  | true => simp [luOk, opndOf, Opnd.ofNum, h rfl]

theorem opndOf_eq_none {n : Nat} (h : Names n) : opndOf n = .none ↔ n = 1023 :=
  ⟨fun ho => h.2 ▸ ho ▸ rfl, fun hn => hn ▸ rfl⟩

/-- The predicate of a syllable without one, or with one (R123). -/
theorem OperandsFit.predicate (h : OperandsFit r i sh e) (hs : i.shape = some sh) (hpb : r.pb < 32) :
    predOk 768 (opndOf r.p).num = true ∧ (sh.pred || opndOf r.p == .none) = true
      ∧ (if opndOf r.p = .none then r.pb == 0 && !r.pn else r.pb < 32) = true := by
  have hn := (h.names hs).2
  rw [hn.2, if_congr (opndOf_eq_none hn) rfl rfl]
  by_cases hp : r.p = 1023
  · have := h.noPred hp
    simp [hp, this, predOk, opndOf, Opnd.ofNum]
  · have := h.pred hp
    simp [hp, this, hpb]

theorem no_hatch_of_uni {u : Bool} {n : Nat} (h : hatchBad true u n = false) : u = false ∨ isHatchNum n = false := by
  cases u with
  | false => exact .inl rfl
  | true => simpa [hatchBad] using h

theorem opndOf_ne {n m : Nat} (hn : Names n) (hm : Names m) (h : n ≠ m) : opndOf n ≠ opndOf m := fun he => h (hn.inj hm he)

theorem opndOf_ne_none {n : Nat} (hn : Names n) (h : isHatchNum n = true) : opndOf n ≠ .none := by
  rw [Ne, opndOf_eq_none hn]
  rintro rfl
  cases h

theorem popsTwice_eq_false {f : Fields} (hab : isHatchNum f.a.num = true → f.a ≠ f.b) (hac : isHatchNum f.a.num = true → f.a ≠ f.c)
    (hbc : isHatchNum f.b.num = true → f.b ≠ f.c) : f.popsTwice = false := by
  simp only [Fields.popsTwice, Bool.or_eq_false_iff, Bool.and_eq_false_imp, beq_eq_false_iff_ne]
  exact ⟨fun h => ⟨hab h, hac h⟩, hbc⟩

/-- A hatch that A pops, B does not pop (R120). -/
theorem OperandsFit.a_ne_b (h : OperandsFit r i sh e) (ha : Names r.a) (hb : Names r.b) (hh : isHatchNum (opndOf r.a).num = true) :
    opndOf r.a ≠ opndOf r.b := by
  refine opndOf_ne ha hb fun hab => h.popB ?_ hab.symm
  rwa [← hab, ← ha.2]

/-- Nor does C, where it is an operand. -/
theorem OperandsFit.ne_c (h : OperandsFit r i sh e) (hc : sh.c ≠ .hc) {n : Nat} (hn : Names n) (hab : n = r.a ∨ n = r.b)
    (hh : isHatchNum (opndOf n).num = true) : opndOf n ≠ opndOf r.c := by
  refine opndOf_ne hn (h.names_c hc) fun hnc => ?_
  have hpop := h.popC hc (by rwa [← hnc, ← hn.2])
  grind

/-- Fields without a fault fit the shape of the syllable. -/
theorem fits_of_fit (hc : CommonFit r i sh e) (ho : OperandsFit r i sh e) (hs : i.shape = some sh) (he : i.enc = some e)
    (hpb : r.pb < 32) (hgap : r.gap < 16) : (operandsOf r e.hc.isSome).fits sh 768 = true := by
  obtain ⟨hd, ha⟩ := hc.names hs
  obtain ⟨hb, hp⟩ := ho.names hs
  obtain ⟨hpred, hpsh, hpv⟩ := ho.predicate hs hpb
  have hla := luOk_of_lt ho.lua
  have hlb := luOk_of_lt ho.lub
  have hu : r.u = false ∨ (isHatchNum r.d = false ∧ isHatchNum r.a = false) ∧ isHatchNum r.b = false :=
    or_and_left.mpr ⟨or_and_left.mpr ⟨no_hatch_of_uni hc.dHatch, no_hatch_of_uni hc.aHatch⟩, no_hatch_of_uni ho.bHatch⟩
  by_cases hk : sh.c = .hc
  · have hluc : r.luc = false := Bool.eq_false_iff.mpr fun h => (ho.luc h).2 hk
    have hok : Opnd.none.ok = true := rfl
    have hlc : luOk false .none = true := rfl
    have huc : r.u = false ∨ ((isHatchNum r.d = false ∧ isHatchNum r.a = false) ∧ isHatchNum r.b = false) ∧ isHatchNum Opnd.none.num = false :=
      or_and_left.mpr ⟨hu, .inr rfl⟩
    have hpops : ({ r.fields with c := .none } : Fields).popsTwice = false :=
      popsTwice_eq_false (ho.a_ne_b ha hb) (fun h => opndOf_ne_none ha (ha.2 ▸ h)) (fun h => opndOf_ne_none hb (hb.2 ▸ h))
    simp_all [hc_isSome hs he, operandsOf, Fields.fits, Raw.fields, Names, hc.d, hc.a, ho.b, hc.uni]
  · have hcn := ho.names_c hk
    have hlc := luOk_of_lt fun h => (ho.luc h).1
    have huc : r.u = false ∨ ((isHatchNum r.d = false ∧ isHatchNum r.a = false) ∧ isHatchNum r.b = false) ∧ isHatchNum r.c = false :=
      or_and_left.mpr ⟨hu, no_hatch_of_uni (ho.c hk).2⟩
    have hpops : r.fields.popsTwice = false :=
      popsTwice_eq_false (ho.a_ne_b ha hb) (ho.ne_c hk ha (.inl rfl)) (ho.ne_c hk hb (.inr rfl))
    simp_all [hc_isSome hs he, operandsOf, Fields.fits, Raw.fields, Names, hc.d, hc.a, ho.b, (ho.c hk).1, hc.uni]

end Sys2Proof.Proofs
end

section
/-! A word is the fields that stand in it, laid from bit 0 upwards (R110, R111). -/

namespace Sys2Proof.Proofs

theorem bits_lt (n lo k : Nat) : bits n lo k < 2 ^ k := Nat.mod_lt _ (Nat.two_pow_pos k)

theorem testBit_toNat (n i : Nat) : (n.testBit i).toNat = bits n i 1 := by
  have := bits_lt n i 1
  rw [testBit_eq_bits]
  interval_cases bits n i 1 <;> rfl

theorem packBits_lt {l : List (Nat × Nat)} {n : Nat} (h : (l.map Prod.snd).sum = n) : packBits l < 2 ^ n := by
  subst h
  induction l with
  | nil => simp [packBits]
  | cons f l ih =>
    obtain ⟨v, k⟩ := f
    have hv : v % 2 ^ k < 2 ^ k := Nat.mod_lt _ (Nat.two_pow_pos k)
    simp only [packBits, List.map_cons, List.sum_cons, Nat.pow_add]
    nlinarith [Nat.mul_le_mul_left (2 ^ k) (Nat.succ_le_of_lt ih)]

theorem bits_packBits_low (v k : Nat) (l : List (Nat × Nat)) : bits (packBits ((v, k) :: l)) 0 k = v % 2 ^ k := bits_packed_low v k _

theorem bits_packBits_above {v k lo n : Nat} {l : List (Nat × Nat)} (h : k ≤ lo) :
    bits (packBits ((v, k) :: l)) lo n = bits (packBits l) (lo - k) n := bits_packed_above v k _ lo n h

/-- The next field of a word, before the fields above it. -/
theorem packBits_step {w lo k : Nat} {l : List (Nat × Nat)} (h : packBits l = w / 2 ^ (lo + k)) :
    packBits ((bits w lo k, k) :: l) = w / 2 ^ lo := by
  rw [packBits, h, bits, Nat.mod_mod, Nat.pow_add, ← Nat.div_div_eq_div_mul, Nat.mod_add_div]

/-- The fields of R110, from bit 0 upwards. -/
def fieldsOf (r : Raw) : List (Nat × Nat) :=
  [(r.x, 16), (r.mod, 6), (r.gap, 4), (r.u.toNat, 1), (r.pn.toNat, 1), (r.pb, 5), (r.p, 10), (r.luc.toNat, 1), (r.lub.toNat, 1),
    (r.lua.toNat, 1), (r.c, 10), (r.b, 10), (r.a, 10), (r.d, 10), (r.op, 8), (r.slot, 2)]

/-- The fields of R111, from bit 0 upwards. -/
def moviFieldsOf (r : Raw) : List (Nat × Nat) :=
  [(r.x, 16), (r.mod, 6), (r.gap, 4), (r.u.toNat, 1), (r.irsv, 6), (r.ilua.toNat, 1), (r.imm, 32), (r.a, 10), (r.d, 10), (r.op, 8),
    (r.slot, 2)]

theorem packBits_fieldsOf {w : Nat} (hw : w < 2 ^ 96) : packBits (fieldsOf (.ofWord w)) = w := by
  have h0 : packBits [] = w / 2 ^ 96 := (Nat.div_eq_of_lt hw).symm
  have h : packBits (fieldsOf (.ofWord w)) = w / 2 ^ 0 := by
    simp only [fieldsOf, Raw.ofWord, testBit_toNat]
    iterate 16 apply packBits_step
    exact h0
  simpa using h

theorem packBits_moviFieldsOf {w : Nat} (hw : w < 2 ^ 96) : packBits (moviFieldsOf (.ofWord w)) = w := by
  have h0 : packBits [] = w / 2 ^ 96 := (Nat.div_eq_of_lt hw).symm
  have h : packBits (moviFieldsOf (.ofWord w)) = w / 2 ^ 0 := by
    simp only [moviFieldsOf, Raw.ofWord, testBit_toNat]
    iterate 11 apply packBits_step
    exact h0
  simpa using h

end Sys2Proof.Proofs
end

section
/-! The word that encodes a well-formed syllable decodes to it (R110 to R131). -/

namespace Sys2Proof.Proofs

variable {i : Instr} {sh : Shape} {e : Enc} {f : Fields} {r : Raw}

/-! ## The fields of an encoding build the instruction back -/

/-- The nops (R127). -/
theorem LaidOut.build_nop (h : LaidOut i e f r) (h0 : e.op = 0) : r.build = some i := by
  obtain ⟨he, hf, -, hslot, hop, -, -, hfields, -⟩ := h
  cases i with
  | nopV | nopM | nopK | nopC =>
    cases he; cases hf
    have hg := congrArg Fields.gap (hfields rfl)
    simpa [Raw.build, hslot, hop, buildV, buildM, buildK, buildC, Raw.fields] using hg
  | _ => cases he <;> cases h0

theorem LaidOut.build (h : LaidOut i e f r) (hr : EncRange e f) (hm : ¬ (e.slot = 0 ∧ e.op = 0x1B)) : r.build = some i := by
  have hslot := hr.1
  by_cases h0 : e.op = 0
  · exact h.build_nop h0
  have hpos := Nat.pos_of_ne_zero h0
  by_cases h1 : e.slot = 1
  · by_cases hh : e.hc = none
    · exact h.build_scratch ⟨h1, hpos, hh⟩
    · exact h.build_hooked ⟨h1, hh⟩
  by_cases h2 : e.slot = 2
  · rcases Nat.lt_or_ge e.op 0x20 with hlo | hhi
    · exact h.build_copy ⟨h2, hpos, hlo⟩
    · exact h.build_matrix ⟨h2, hhi⟩
  by_cases h3 : e.slot = 3
  · exact h.build_control ⟨h3, hpos⟩
  have hs0 : e.slot = 0 := by omega
  rcases Nat.lt_or_ge e.op 0x20 with hlo | hhi
  · exact h.build_integer ⟨hs0, hpos, hlo, fun ho => hm ⟨hs0, ho⟩⟩
  rcases Nat.lt_or_ge e.op 0x40 with hlo | hhi
  · exact h.build_address ⟨hs0, by assumption, hlo⟩
  rcases Nat.lt_or_ge e.op 0x60 with hlo | hhi
  · exact h.build_float ⟨hs0, by assumption, hlo⟩
  rcases Nat.lt_or_ge e.op 0x80 with hlo | hhi
  · exact h.build_special ⟨hs0, by assumption, hlo⟩
  · exact h.build_crossLane ⟨hs0, hhi⟩

/-! ## What well-formedness says of the operands -/

theorem fits_of_wf (hs : i.shape = some sh) (hf : i.fields = some f) (hw : i.wf = true) :
    f.fits sh 768 = true ∧ i.modOk = true ∧ i.xOk = true ∧ i.luMma = true := by
  simp only [Instr.wf, hs, hf, Bool.and_eq_true] at hw
  obtain ⟨⟨⟨hfit, hmod⟩, hx⟩, hlu⟩ := hw
  exact ⟨hfit, hmod, hx, hlu⟩

theorem ok_of_fits (h : f.fits sh 768 = true) : f.d.ok ∧ f.a.ok ∧ f.b.ok ∧ f.c.ok ∧ f.p.ok := by
  simp only [Fields.fits, Bool.and_eq_true] at h
  tauto

theorem c_of_fits (h : f.fits sh 768 = true) (hc : sh.c = .hc) : f.c = .none := by
  simp only [Fields.fits, hc, if_true, Bool.and_eq_true, beq_iff_eq] at h
  tauto

theorem laidOut_rawOf (he : i.enc = some e) (hf : i.fields = some f) (hw : i.wf = true) (irsv : Nat) (ilua : Bool) (imm : Nat) :
    LaidOut i e f (rawOf e f irsv ilua imm) := by
  obtain ⟨sh, hs⟩ := shape_of_enc he
  obtain ⟨hfit, -, hx, -⟩ := fits_of_wf hs hf hw
  obtain ⟨hd, ha, hb, hc, hp⟩ := ok_of_fits hfit
  refine ⟨he, hf, hx, rfl, rfl, rfl, rfl, rawOf_fields e f _ _ _ hd ha hb hc hp, fun h hh => ⟨by simp [rawOf, hh], ?_⟩⟩
  have hcn : f.c = .none := c_of_fits hfit (by simpa [hh] using hc_isSome hs he)
  simp [rawOf, Raw.fields, opndOf_num, hd, ha, hb, hp, ← hcn]

/-! ## The word of an encoding -/

theorem encode_eq (he : i.enc = some e) (hf : i.fields = some f) (hm : ¬ (e.slot = 0 ∧ e.op = 0x1B)) :
    encode i = some (packBits (fieldsOf (rawOf e f 0 false 0))) := by
  unfold encode
  split
  · cases he
    exact absurd ⟨rfl, rfl⟩ hm
  · next he' hf' =>
    cases he.symm.trans he'
    cases hf.symm.trans hf'
    rfl
  · next hno => exact absurd hf (hno e f he)

theorem fields_of_enc (he : i.enc = some e) : ∃ f, i.fields = some f := by
  cases i <;> cases he <;> exact ⟨_, rfl⟩

theorem decode_encode (he : i.enc = some e) (hm : ¬ (e.slot = 0 ∧ e.op = 0x1B)) (hw : i.wf = true) : (encode i).bind decode = some i := by
  obtain ⟨sh, hs⟩ := shape_of_enc he
  obtain ⟨f, hf⟩ := fields_of_enc he
  have hr := encRange_of_wf i e f he hf hw
  exact decode_of_build i sh e f hs he hf hw hm (hc_isSome hs he) hr (fun x y z => (laidOut_rawOf he hf hw x y z).build hr hm)
    (encode_eq he hf hm)

/-! ## movi, whose immediate stands where others have B and C (R111) -/

/-- The fields of R111 that an encoded movi has; those of R110 that they overlap are free. -/
def moviRaw (d : Opnd) (imm : Word) (u : Bool) (gap : Nat) (w64 : Bool) (r : Raw) : Raw :=
  { r with
    slot := 0, op := 0x1B, d := d.num, a := 1023, u := u, gap := gap, mod := 4 * w64.toNat, x := 0, imm := imm.toNat, ilua := false,
    irsv := 0 }

theorem encode_movi (d : Opnd) (imm : Word) (u : Bool) (gap : Nat) (w64 : Bool) (r : Raw) :
    encode (.movi d imm u gap w64) = some (packBits (moviFieldsOf (moviRaw d imm u gap w64 r))) := rfl

theorem ofWord_movi {d : Opnd} {imm : Word} {u : Bool} {gap : Nat} {w64 : Bool} (hd : d.ok = true) (hg : gap < 16) (r0 : Raw) :
    ∃ r, Raw.ofWord (packBits (moviFieldsOf (moviRaw d imm u gap w64 r0))) = moviRaw d imm u gap w64 r := by
  refine ⟨.ofWord (packBits (moviFieldsOf (moviRaw d imm u gap w64 r0))), ?_⟩
  have hn := num_lt d hd
  have hi := imm.isLt
  have hm := w64.toNat_lt
  have hu : (u.toNat % 2 ^ 1 == 1) = u := by cases u <;> rfl
  simp (disch := decide) only [moviRaw, Raw.ofWord, moviFieldsOf, testBit_eq_bits, Raw.mk.injEq, bits_packBits_low, bits_packBits_above,
    Nat.reduceSub, hu]
  simp (disch := omega) [Nat.mod_eq_of_lt]

/-- The kinds of the operands of movi: its destination alone. -/
def moviShape (w64 : Bool) : Shape := ⟨if w64 then .w64 else .w32, .none, .none, .none, false, true⟩

variable {d : Opnd} {imm : Word} {u : Bool} {gap : Nat} {w64 : Bool}

theorem fits_moviFields : (Machine.moviFields d u gap).fits (moviShape w64) 768 = true
    ↔ d.ok = true ∧ (moviShape w64).d.bad 768 d.num = none ∧ gap < 16 ∧ hatchBad true u d.num = false := by
  have hsrc : SK.none.bad 768 1023 = none := rfl
  have hpred : predOk 768 1023 = true := rfl
  have hnone : isHatchNum 1023 = false := rfl
  have hok : Opnd.none.ok = true := rfl
  have hnum : Opnd.none.num = 1023 := rfl
  have hlu : luOk false .none = true := rfl
  cases u <;> simp [Machine.moviFields, Fields.fits, moviShape, Fields.popsTwice, hsrc, hpred, hnone, hatchBad, hnum, hlu, hok, and_assoc]
    <;> intros <;> exact decide_eq_true_iff

theorem wf_movi : (Instr.movi d imm u gap w64).wf = (Machine.moviFields d u gap).fits (moviShape w64) 768 := by
  change (_ && true && true && true) = _
  simp only [Bool.and_true]
  rfl

theorem faults_movi (hm : r.isMovi = true) : r.faults (.movi d imm u gap w64) 768 true [] true = []
    ↔ r.mod = 4 * w64.toNat ∧ r.x = 0 ∧ (moviShape w64).d.bad 768 r.d = none ∧ hatchBad true r.u r.d = false ∧ r.a = 1023
      ∧ r.ilua = false ∧ r.irsv = 0 := by
  have hs : (Instr.movi d imm u gap w64).shape = some (moviShape w64) := rfl
  have he : (Instr.movi d imm u gap w64).enc = some ⟨0, 0x1B, 4 * w64.toNat, 0, none⟩ := rfl
  have hmod : (Instr.movi d imm u gap w64).modOk = true := rfl
  have hx : (Instr.movi d imm u gap w64).xOk = true := rfl
  have hu : (moviShape w64).uni = true := rfl
  have ha : (moviShape w64).a.bad 768 r.a = none ∧ hatchBad true r.u r.a = false ↔ r.a = 1023 :=
    ⟨fun h => by simpa [moviShape, SK.bad] using h.1, fun h => by simp [moviShape, SK.bad, h, hatchBad, isHatchNum]⟩
  unfold Raw.faults
  simp [hs, he, hm, hmod, hx, hu, ha, need_eq_nil, opndFault_eq_nil, and_assoc, eq_comm (a := 4 * w64.toNat), eq_comm (a := 0)]

theorem decode_encode_movi (hw : (Instr.movi d imm u gap w64).wf = true) :
    (encode (.movi d imm u gap w64)).bind decode = some (.movi d imm u gap w64) := by
  obtain ⟨hd, hbad, hg, hhatch⟩ := fits_moviFields.mp (wf_movi ▸ hw)
  obtain ⟨r, hr⟩ := ofWord_movi (u := u) (w64 := w64) (imm := imm) hd hg (.ofWord 0)
  have hb : (moviRaw d imm u gap w64 r).build = some (.movi d imm u gap w64) := by
    cases w64 <;> simp [Raw.build, moviRaw, buildV, Raw.fields, opndOf_num d hd, Nat.testBit_eq_decide_div_mod_eq]
  have hf := (faults_movi (d := d) (imm := imm) (u := u) (gap := gap) (w64 := w64) (r := moviRaw d imm u gap w64 r) rfl).mpr
    ⟨rfl, rfl, hbad, hhatch, rfl, rfl, rfl⟩
  rw [encode_movi d imm u gap w64 (.ofWord 0), Option.bind_some, decode, hr, decodeRaw_eq_ok.mpr ⟨hb, hf⟩]

end Sys2Proof.Proofs
end

section
/-! O55 (R102, R110 to R126): a word that decodes is the encoding of what it decodes to, and decoding inverts encoding. -/

namespace Sys2Proof.Proofs

variable {r : Raw} {i : Instr} {sh : Shape} {e : Enc}

/-! ## What the decoder builds has the SLOT, the OP and the operands it was built from -/

theorem build_of_slot (h : r.slot < 4) :
    r.slot = 0 ∧ r.build = buildV r.op r ∨ r.slot = 1 ∧ r.build = buildM r.op r ∨ r.slot = 2 ∧ r.build = buildK r.op r
      ∨ r.slot = 3 ∧ r.build = buildC r.op r := by
  unfold Raw.build
  interval_cases r.slot <;> simp

theorem readAs_of_build (hslot : r.slot < 4) (h0 : 0 < r.op) (hop : r.op < 256) (hm : r.isMovi = false) (hb : r.build = some i) :
    ReadAs r.slot r.op r i := by
  rcases build_of_slot hslot with ⟨hs, hbuild⟩ | ⟨hs, hbuild⟩ | ⟨hs, hbuild⟩ | ⟨hs, hbuild⟩ <;> rw [hs] <;> rw [hbuild] at hb
  · exact readAs_of_buildV h0 hop (by simpa [Raw.isMovi, hs] using hm) hb
  · exact readAs_of_buildM h0 hop hb
  · exact readAs_of_buildK h0 hop hb
  · exact readAs_of_buildC h0 hop hb

/-- The kinds of the operands of a nop: it has none (R127). -/
def nopShape : Shape := ⟨.none, .none, .none, .none, false, false⟩

theorem fields_of_nopShape (hc : CommonFit r i nopShape e) (ho : OperandsFit r i nopShape e) :
    r.fields = ⟨.none, .none, .none, .none, false, false, false, .none, 0, false, false, r.gap⟩ := by
  have hd : r.d = 1023 := by simpa [nopShape, DK.bad] using hc.d
  have ha : r.a = 1023 := by simpa [nopShape, SK.bad] using hc.a
  have hb : r.b = 1023 := by simpa [nopShape, SK.bad] using ho.b
  have hcc : r.c = 1023 := by simpa [nopShape, SK.bad] using (ho.c nofun).1
  have hla : r.lua = false := Bool.eq_false_iff.mpr fun h => by have := ho.lua h; omega
  have hlb : r.lub = false := Bool.eq_false_iff.mpr fun h => by have := ho.lub h; omega
  have hlc : r.luc = false := Bool.eq_false_iff.mpr fun h => by have := (ho.luc h).1; omega
  have hp : r.p = 1023 := by_contra fun h => nomatch (ho.pred h).1
  obtain ⟨hpb, hpn⟩ := ho.noPred hp
  have hu : r.u = false := by simpa [nopShape] using hc.uni
  simp only [Raw.fields, hd, ha, hb, hcc, hla, hlb, hlc, hp, hpb, hpn, hu]
  rfl

theorem readAs_of_nop (hslot : r.slot < 4) (h0 : r.op = 0) (hb : r.build = some i) (hs : i.shape = some sh) (hc : CommonFit r i sh e)
    (ho : OperandsFit r i sh e) : ReadAs r.slot r.op r i := by
  rcases build_of_slot hslot with ⟨hs', hbuild⟩ | ⟨hs', hbuild⟩ | ⟨hs', hbuild⟩ | ⟨hs', hbuild⟩
  all_goals
    rw [h0, hb] at hbuild
    cases hbuild; cases hs
    exact ⟨_, rfl, hs'.symm, h0.symm, congrArg some (fields_of_nopShape hc ho).symm⟩

/-! ## The instruction is well formed, and its encoding lays out the same fields -/

theorem fieldsOf_rawOf (hc : CommonFit r i sh e) (ho : OperandsFit r i sh e) (hs : i.shape = some sh) (he : i.enc = some e)
    (hslot : e.slot = r.slot) (hop : e.op = r.op) : fieldsOf (rawOf e (operandsOf r e.hc.isSome) 0 false 0) = fieldsOf r := by
  obtain ⟨hd, ha⟩ := hc.names hs
  obtain ⟨hb, hp⟩ := ho.names hs
  have hcc : e.hc.getD (operandsOf r e.hc.isSome).c.num = r.c := by
    by_cases hk : sh.c = .hc
    · simp [ho.hook hk]
    · have hno : e.hc = none := by simpa [beq_false_of_ne hk] using hc_isSome hs he
      simpa [hno, operandsOf, Raw.fields] using (ho.names_c hk).2
  simp only [fieldsOf, rawOf, hcc, hslot, hop, hc.mod, hc.x]
  cases e.hc.isSome <;> simp [operandsOf, Raw.fields, hd.2, ha.2, hb.2, hp.2]

theorem encode_of_no_faults (hslot : r.slot < 4) (hop : r.op < 256) (hpb : r.pb < 32) (hgap : r.gap < 16) (hm : r.isMovi = false)
    (hb : r.build = some i) (hf : r.faults i 768 true [] true = []) : i.wf = true ∧ encode i = some (packBits (fieldsOf r)) := by
  obtain ⟨sh, e, hs, he⟩ := encoded_of_no_faults hf
  have hc := CommonFit.of_no_faults hs he hf
  have ho := OperandsFit.of_no_faults hs he hm hf
  have hread : ReadAs r.slot r.op r i := by
    rcases Nat.eq_zero_or_pos r.op with h0 | h0
    · exact readAs_of_nop hslot h0 hb hs hc ho
    · exact readAs_of_build hslot h0 hop hm hb
  obtain ⟨e', he', heslot, heop, hfields⟩ := hread
  cases he.symm.trans he'
  refine ⟨?_, ?_⟩
  · simp [Instr.wf, hs, hfields, fits_of_fit hc ho hs he hpb hgap, hc.modOk, hc.xOk, ho.luMma]
  · have hmov : ¬ (e.slot = 0 ∧ e.op = 0x1B) := by simpa [Raw.isMovi, heslot, heop] using hm
    rw [encode_eq he hfields hmov, fieldsOf_rawOf hc ho hs he heslot heop]

theorem encode_movi_of_no_faults (hgap : r.gap < 16) (himm : r.imm < 2 ^ 32) (hm : r.isMovi = true) (hb : r.build = some i)
    (hf : r.faults i 768 true [] true = []) : i.wf = true ∧ encode i = some (packBits (moviFieldsOf r)) := by
  obtain ⟨hslot, hop⟩ : r.slot = 0 ∧ r.op = 0x1B := by simpa [Raw.isMovi] using hm
  have hi : i = .movi (opndOf r.d) (BitVec.ofNat 32 r.imm) r.u r.gap (r.mod.testBit 2) := by
    simpa [Raw.build, hslot, hop, buildV, Raw.fields, eq_comm] using hb
  subst hi
  obtain ⟨hmod, hx, hd, hdh, ha, hilua, hirsv⟩ := (faults_movi hm).mp hf
  have hn : Names r.d := .of_dest hd
  refine ⟨?_, ?_⟩
  · rw [wf_movi, fits_moviFields, hn.2]
    exact ⟨hn.1, hd, hgap, hdh⟩
  · rw [encode_movi _ _ _ _ _ r]
    have himm' : r.imm % 4294967296 = r.imm := Nat.mod_eq_of_lt himm
    simp [moviFieldsOf, moviRaw, hn.2, hslot, hop, ← hmod, hx, ha, hilua, hirsv, himm']

/-! ## The obligation -/

theorem decode_eq_some {w : Nat} : decode w = some i ↔ decodeRaw (.ofWord w) 768 true [] true = .ok i := by
  unfold decode
  split <;> simp_all

theorem enc_of_encode {w : Nat} (h : encode i = some w) : ∃ e, i.enc = some e := by
  unfold encode at h
  split at h
  · next he => exact ⟨_, he⟩
  · next he _ => exact ⟨_, he⟩
  · cases h

/-- Only movi has SLOT 0 and OP 1B (R188). -/
theorem movi_of_enc (he : i.enc = some e) (hm : e.slot = 0 ∧ e.op = 0x1B) : ∃ d imm u gap w64, i = .movi d imm u gap w64 := by
  cases i with
  | movi => exact ⟨_, _, _, _, _, rfl⟩
  | _ => cases he <;> cases hm.1 <;> cases hm.2

theorem decode_of_encode {w : Nat} (hw : i.wf = true) (h : encode i = some w) : decode w = some i := by
  obtain ⟨e, he⟩ := enc_of_encode h
  have hdec : (encode i).bind decode = some i := by
    by_cases hm : e.slot = 0 ∧ e.op = 0x1B
    · obtain ⟨d, imm, u, gap, w64, rfl⟩ := movi_of_enc he hm
      exact decode_encode_movi hw
    · exact decode_encode he hm hw
  simpa [h] using hdec

theorem encode_lt {w : Nat} (h : encode i = some w) : w < 2 ^ 96 := by
  unfold encode at h
  split at h
  case h_3 => cases h
  all_goals
    rw [← Option.some.inj h]
    exact packBits_lt (by simp)

theorem encode_of_decode {w : Nat} (hw : w < 2 ^ 96) (h : decode w = some i) : i.wf = true ∧ encode i = some w := by
  obtain ⟨hb, hf⟩ := decodeRaw_eq_ok.mp (decode_eq_some.mp h)
  have hslot : (Raw.ofWord w).slot < 4 := bits_lt w 94 2
  have hop : (Raw.ofWord w).op < 256 := bits_lt w 86 8
  have hpb : (Raw.ofWord w).pb < 32 := bits_lt w 28 5
  have hgap : (Raw.ofWord w).gap < 16 := bits_lt w 22 4
  have himm : (Raw.ofWord w).imm < 2 ^ 32 := bits_lt w 34 32
  cases hm : (Raw.ofWord w).isMovi with
  | true => simpa only [packBits_moviFieldsOf hw] using encode_movi_of_no_faults hgap himm hm hb hf
  | false => simpa only [packBits_fieldsOf hw] using encode_of_no_faults hslot hop hpb hgap hm hb hf

/-- Settles O55. Forward, the fields that a well-formed syllable's encoding lays out build it back and show no fault; backward, an instruction
built from the fields of a word has their SLOT, OP and operands, and the absence of faults fixes every other field. -/
theorem decodeInvertsEncode : Obligations.DecodeInvertsEncode := by
  unfold Obligations.DecodeInvertsEncode
  exact ⟨fun i w hw h => ⟨encode_lt h, decode_of_encode hw h⟩, fun i w hlt h => encode_of_decode hlt h⟩

end Sys2Proof.Proofs
end

section
/-! States between which no register of a warp and no byte of memory, cellar or scratchpad has been written. From here on
`Unwritten.f` says of the model's function `f` that it writes none, and its proof has the shape of `f`. -/

namespace Sys2Proof.Proofs
open Sys2Proof.Machine Sys2Proof.Claims

set_option Elab.async false

/-- Every warp has its registers, and the homes, the cellar and every team's scratchpad hold their bytes. -/
structure Unwritten (s t : State) : Prop where
  regs : ∀ k, (t.warp? k).map Warp.regs = (s.warp? k).map Warp.regs
  hbm : t.hbm = s.hbm
  l2 : t.l2 = s.l2
  cellar : t.cellar = s.cellar
  scratch : ∀ k, (t.team? k).map Team.scratch = (s.team? k).map Team.scratch

/-- The registers that a state has under the number of a warp are the warp's. -/
def RegsOf (s : State) (w : Warp) : Prop := (s.warp? w.wid).map Warp.regs = some w.regs

/-- What is left unwritten in the state that a step leads to, where it leads to one. -/
def NextUnwritten (s : State) : Result → Prop
  | .next t => Unwritten s t
  | .fault _ | .refused _ => True

variable {p s t : State}

protected theorem Unwritten.refl (s : State) : Unwritten s s := ⟨fun _ => rfl, rfl, rfl, rfl, fun _ => rfl⟩

/-! ## Changes of a warp that leave its number and its registers

`RegsOf p` holds of a warp whose other fields changed by the same proof. -/

theorem RegsOf.noteWrite {w : Warp} {d : Dst} {lanes : Lanes} {id : Nat} (h : RegsOf s w) : RegsOf s (w.noteWrite d lanes id) := by
  unfold Warp.noteWrite
  split <;> exact h

theorem RegsOf.raise {w : Warp} {k : Nat} {i : HookItem} (h : RegsOf s w) : RegsOf s (w.raise k i) := RegsOf.noteWrite (s := s) h

theorem RegsOf.leaveTrap {w : Warp} {tick gap cycle : Nat} {src : Dword} (h : RegsOf s w) :
    RegsOf s (w.leaveTrap tick gap cycle src) := by
  unfold Warp.leaveTrap
  split <;> exact h

theorem RegsOf.ite {c : Prop} {_ : Decidable c} {v w : Warp} (hv : RegsOf s v) (hw : RegsOf s w) :
    RegsOf s (if c then v else w) := by
  split <;> assumption

@[simp] theorem raise_wid (w : Warp) (k : Nat) (i : HookItem) : (w.raise k i).wid = w.wid := by
  unfold Warp.raise Warp.noteWrite
  split <;> rfl

@[simp] theorem raise_regs (w : Warp) (k : Nat) (i : HookItem) : (w.raise k i).regs = w.regs := by
  unfold Warp.raise Warp.noteWrite
  split <;> rfl

/-! ## The writes of a state -/

/-- An update of other fields. -/
protected theorem Unwritten.same (h : Unwritten p s) (hw : t.warps = s.warps := by rfl) (ht : t.teams = s.teams := by rfl)
    (hb : t.hbm = s.hbm := by rfl) (hl : t.l2 = s.l2 := by rfl) (hc : t.cellar = s.cellar := by rfl) : Unwritten p t where
  regs k := by simpa only [State.warp?, hw] using h.regs k
  hbm := hb.trans h.hbm
  l2 := hl.trans h.l2
  cellar := hc.trans h.cellar
  scratch k := by simpa only [State.team?, ht] using h.scratch k

/-- A warp put back with its number and its registers. -/
protected theorem Unwritten.putWarp (h : Unwritten p s) {w : Warp} (hw : RegsOf p w) : Unwritten p (s.putWarp w) where
  regs k := by
    rw [State.warp?_putWarp]
    split
    · next hk => rw [hk, hw]; rfl
    · exact h.regs k
  hbm := h.hbm
  l2 := h.l2
  cellar := h.cellar
  scratch := h.scratch

theorem map_tget_tmod {α β : Type} {g : α → β} {f : α → α} (hf : ∀ v, g (f v) = g v) (t : Tbl α) (n k : Nat) :
    (tget (tmod t n f) k).map g = (tget t k).map g := by
  by_cases hk : k = n
  · subst hk
    cases hv : tget t k with
    | none => rw [Machine.tmod, hv]; exact congrArg _ hv
    | some v => rw [tget_tmod_same f hv]; exact congrArg some (hf v)
  · rw [tget_tmod_other t f hk]

protected theorem Unwritten.modWarp (h : Unwritten p s) {wid : Nat} {f : Warp → Warp}
    (hf : ∀ w, (f w).regs = w.regs := by exact fun _ => rfl) : Unwritten p (s.modWarp wid f) where
  regs k := (map_tget_tmod hf s.warps wid k).trans (h.regs k)
  hbm := h.hbm
  l2 := h.l2
  cellar := h.cellar
  scratch := h.scratch

protected theorem Unwritten.modTeam (h : Unwritten p s) {tid : Nat} {f : Team → Team}
    (hf : ∀ t, (f t).scratch = t.scratch := by exact fun _ => rfl) : Unwritten p (s.modTeam tid f) where
  regs := h.regs
  hbm := h.hbm
  l2 := h.l2
  cellar := h.cellar
  scratch k := (map_tget_tmod hf s.teams tid k).trans (h.scratch k)

protected theorem Unwritten.ite {c : Prop} {_ : Decidable c} {a b : State} (ha : Unwritten p a) (hb : Unwritten p b) :
    Unwritten p (if c then a else b) := by
  split <;> assumption

protected theorem Unwritten.iteFst {c : Prop} {_ : Decidable c} {β : Type} {a b : State × β} (ha : Unwritten p a.1)
    (hb : Unwritten p b.1) : Unwritten p (if c then a else b).1 := by
  split <;> assumption

protected theorem Unwritten.foldl (h : Unwritten p s) {α : Type} {l : List α} {f : State → α → State}
    (hf : ∀ {s} a, Unwritten p s → Unwritten p (f s a)) : Unwritten p (l.foldl f s) :=
  foldl_keeps (P := Unwritten p) (fun _ a => hf a) l s h

theorem scratch_drainBegin (s : State) (w : Warp) (id : Nat) (t : Team) (m : MatOp) : (drainBegin s w id t m).scratch = t.scratch := by
  unfold drainBegin; dsimp only
  split
  · split <;> rfl
  · rfl

end Sys2Proof.Proofs
end

section
/-! The checks of a syllable, what they lead to, and results put in flight write no register and no byte (R150 to R154). -/

namespace Sys2Proof.Proofs
open Sys2Proof.Machine Sys2Proof.Claims

set_option Elab.async false

variable {p s : State} {core ctx dev id k n va : Nat} {rd : Rd} {l : Leaf} {who : WalkReq} {need : Need} {w : Warp} {i : Instr}
  {dst : Dst} {comp : Rd → Nat → LaneRes} {f : Fields} {lanes : Lanes} {fr : Frame} {r : RemReq}

section
variable (h : Unwritten p s)
include h

protected theorem Unwritten.soon : Unwritten p (s.soon i) := h.same
protected theorem Unwritten.later : Unwritten p (s.later n i) := h.same
protected theorem Unwritten.laterFree : Unwritten p (s.laterFree n i) := h.same
protected theorem Unwritten.bump : Unwritten p s.bump := h.same
protected theorem Unwritten.used : Unwritten p s.used := h.same
protected theorem Unwritten.modCore {c : Core → Core} : Unwritten p (s.modCore core c) := h.same
protected theorem Unwritten.modOp {g : Op → Op} : Unwritten p (s.modOp id g) := h.same
protected theorem Unwritten.charge : Unwritten p (charge s ctx k n) := .ite h.same h.same
protected theorem Unwritten.emit : Unwritten p (s.emit dev fr) := .ite h.same h.same
protected theorem Unwritten.sendReq : Unwritten p (sendReq s ctx r) := .ite h.later.later h.charge.emit.later

protected theorem Unwritten.taken : Unwritten p (rd.taken s) := h.modTeam fun t => popAll_scratch t _ _
protected theorem Unwritten.coreTlbAdd : Unwritten p (coreTlbAdd s core ctx va l) := h.modCore.used
protected theorem Unwritten.joinWalk : Unwritten p (joinWalk s who core ctx va need) := .ite h.same h.same.bump.laterFree

protected theorem Unwritten.askWalks {pages : List (Nat × Need)} : Unwritten p (askWalks s w pages) :=
  h.foldl fun _ hs => .ite hs hs.joinWalk

protected theorem Unwritten.fillPages {pages : List Nat} : Unwritten p (fillPages s core ctx pages) := by
  unfold fillPages
  refine h.foldl fun _ hs => ?_
  split
  · exact hs.coreTlbAdd
  · exact hs

protected theorem Unwritten.fillDie (hw : RegsOf p w) {pages : List Nat} : Unwritten p (fillDie s w pages) := by
  refine .fillPages (h.putWarp ?_)
  exact hw

protected theorem Unwritten.stopFor (hw : RegsOf p w) {c : Pre} {iss : Issue} : Unwritten p (stopFor c s w iss) := by
  unfold stopFor
  split
  · exact h
  · exact h
  · exact h.putWarp hw
  · refine .askWalks (.ite (h.putWarp ?_) (h.fillDie ?_)) <;> exact hw
  · exact h.fillDie hw
  · exact .soon (.bump (h.putWarp hw))

protected theorem Unwritten.launchFlight (hrd : RegsOf p rd.w) {lat : Nat} {rs : List LaneRes} :
    Unwritten p (launchFlight rd dst lanes lat rs s) :=
  .bump (h.putWarp (RegsOf.noteWrite (s := p) hrd))

protected theorem Unwritten.vEff (hrd : RegsOf p rd.w) : Unwritten p (vEff i f dst comp rd s) := (h.launchFlight hrd).modCore

end

@[simp] theorem rdOf_w (i : Instr) (s : State) (w : Warp) (iss : Issue) : (rdOf i s w iss).w = w := by
  unfold rdOf
  split <;> rfl

@[simp] theorem rdOf_iss (i : Instr) (s : State) (w : Warp) (iss : Issue) : (rdOf i s w iss).iss = iss := by
  unfold rdOf
  split <;> rfl

theorem regsOf_of_warp? {s : State} (hk : Keyed s) {wid : Nat} {w : Warp} (h : s.warp? wid = some w) : RegsOf s w := by
  obtain ⟨⟨_, hnum⟩, _⟩ := hk
  rw [RegsOf, show w.wid = wid from hnum _ (mem_of_tget h), h]
  rfl

/-- A syllable writes nothing at its issue when its effect, for a warp as it stands in the state, writes nothing. -/
theorem withIssue_unwritten (hk : Keyed s) {chk : Rd → Pre} {eff : Rd → State → State}
    (heff : ∀ rd t, Unwritten s t → RegsOf s rd.w → Unwritten s (eff rd t)) : NextUnwritten s (withIssue i chk eff s) := by
  have h : Unwritten s s := .refl s
  unfold withIssue; dsimp only
  split
  · exact h
  split
  · exact h.same
  next hw =>
  have hreg := regsOf_of_warp? hk hw
  split
  · exact heff _ _ h.taken ((rdOf_w ..).symm ▸ hreg)
  · exact Unwritten.stopFor (h.same) hreg

protected theorem NextUnwritten.ite {c : Prop} {_ : Decidable c} {a b : Result} (ha : NextUnwritten s a) (hb : NextUnwritten s b) :
    NextUnwritten s (if c then a else b) := by
  split <;> assumption

theorem vIssue_unwritten (hk : Keyed s) : NextUnwritten s (vIssue i f dst comp s) :=
  withIssue_unwritten hk fun _ _ h hrd => h.vEff hrd

theorem execNbr_unwritten (hk : Keyed s) {fill : NbrFill} {dn w64 : Bool} : NextUnwritten s (execNbr f fill dn w64 k s) :=
  withIssue_unwritten hk fun _ _ h hrd => h.vEff hrd

end Sys2Proof.Proofs
end

section
/-! The control, scratchpad and memory syllables write no register and no byte when they issue (R160, R162, R285). -/

namespace Sys2Proof.Proofs
open Sys2Proof.Machine Sys2Proof.Claims

set_option Elab.async false

variable {p s : State} {core ctx hook id k n rc seq wid : Nat} {hold poll w64 : Bool} {rd : Rd} {f : Fields} {w : Warp} {dst : Dst}
  {off : Half} {m : MemOp} {ls : List Nat}
variable (h : Unwritten p s)
include h

protected theorem Unwritten.reserveEntry : Unwritten p (reserveEntry rd f id s) := by
  unfold reserveEntry
  split
  · exact h.modTeam
  · exact h

protected theorem Unwritten.postLines : Unwritten p (postLines s id m) := h.foldl fun _ hs => hs.laterFree

protected theorem Unwritten.wqPut {e : BitVec 128} : Unwritten p (wqPut s n e).1 := by
  unfold wqPut
  split
  · exact h
  · exact .iteFst h (.ite h.same h.same.later)

protected theorem Unwritten.wqPutAll : Unwritten p (wqPutAll rd f ls s).1 := by
  induction ls generalizing s with
  | nil => exact h
  | cons l ls ih => exact ih h.wqPut

protected theorem Unwritten.wqTake : Unwritten p (wqTake rd f poll id ls s).1 := by
  induction ls generalizing s with
  | nil => exact h
  | cons l ls ih =>
    unfold wqTake; dsimp only
    split
    · exact ih h.same
    · exact .iteFst (ih h) (ih h.same)

protected theorem Unwritten.raiseTokens {pc : Dword} : Unwritten p (raiseTokens s wid hook pc n) := by
  induction n generalizing s with
  | zero => exact h
  | succ n ih => exact ih (h.modWarp fun w => raise_regs w _ _).bump

protected theorem Unwritten.hkadjDnEff {whom : Option Nat} : Unwritten p (hkadjDnEff hook n whom rd s) := by
  unfold hkadjDnEff
  split
  · exact h
  · exact (Unwritten.ite h.modWarp h.modWarp.modWarp).bump.soon

protected theorem Unwritten.csrwEff {r : Csr} : Unwritten p (csrwEff f w64 r rd s) := by
  unfold csrwEff
  split
  · exact h
  · exact h.modWarp

variable (hrd : RegsOf p rd.w)
include hrd

protected theorem Unwritten.ctlEff {go : Nat → Slice → Slice} : Unwritten p (ctlEff go rd s) := by
  refine .same (h.putWarp (w := _) ?_)
  exact hrd

protected theorem Unwritten.exitEff : Unwritten p
    (let s' := s.putWarp { rd.w with retired := rd.w.retired ||| enabled rd f }
     if enabled rd f = 0 then s'
     else s'.modTeam rd.w.team fun t => { t with barriers := t.barriers.map fun b => b.touch s t rd.w.core }) :=
  by
  dsimp only
  refine .ite (h.putWarp ?_) (.modTeam (h.putWarp ?_)) <;> exact hrd

omit hrd in
protected theorem Unwritten.queueScr (hw : RegsOf p w) {kind : ScrKind} {lanes : List ScrLane} :
    Unwritten p (queueScr rd f kind lanes w s) :=
  .bump (h.putWarp hw)

protected theorem Unwritten.ldsEff {sz : Sz} {sx : Bool} : Unwritten p (ldsEff f sz sx off rd s) := by
  refine h.queueScr (.noteWrite ?_)
  exact hrd
protected theorem Unwritten.stsEff {sz : Sz} : Unwritten p (stsEff f sz off rd s) := h.queueScr hrd

protected theorem Unwritten.atomsEff {op : AOp} {ty : ATy} : Unwritten p (atomsEff f op ty hook off rd s) :=
  .ite (.bump (h.putWarp hrd.raise)) (.queueScr h hrd.raise)

protected theorem Unwritten.markEff {full : Bool} : Unwritten p (markEff f full hook rd s) :=
  .ite (.bump (h.putWarp hrd.raise)) (.queueScr h hrd.raise)

protected theorem Unwritten.launchMem : Unwritten p (launchMem rd f hook dst m s) :=
  have hb := (h.putWarp hrd.raise).reserveEntry.bump
  .ite hb (.ite hb.same.laterFree hb.same.postLines)

protected theorem Unwritten.ldrEff {sz : Sz} {sx : Bool} {ca : Ca} : Unwritten p (ldrEff f sz sx ca rc hook off rd s) :=
  Unwritten.launchMem h.modCore hrd

omit hrd in
protected theorem Unwritten.prefEff {ca : Ca} : Unwritten p (prefEff f ca off rd s) := .ite h h.same.bump.postLines

protected theorem Unwritten.fenceEff {scope : Nat} : Unwritten p (fenceEff f scope hold hook rd s) :=
  .ite (.bump (h.putWarp hrd.raise)) (.bump (.putWarp h.same (.ite hrd.raise hrd.raise)))

protected theorem Unwritten.icinvEff : Unwritten p (icinvEff f hook rd s) := (h.putWarp hrd.raise).modCore.bump
protected theorem Unwritten.wqenqEff {j : Nat} : Unwritten p (wqenqEff f j hook rd s) := (h.wqPutAll.putWarp hrd.raise).bump

protected theorem Unwritten.wqdeqEff : Unwritten p (wqdeqEff f poll hook rd s) :=
  .ite (.putWarp h.wqTake.bump hrd.raise) (.putWarp h.wqTake.bump.same hrd.raise)

protected theorem Unwritten.holdEff {x : Hold} : Unwritten p (holdEff x rd s) := h.putWarp hrd

protected theorem Unwritten.barEff {drain : Bool} : Unwritten p (barEff f drain hold k rd s) := by
  refine .soon (.bump (.modTeam (h.putWarp (.ite ?_ ?_)))) <;> exact hrd

protected theorem Unwritten.barwEff : Unwritten p (barwEff k rd s) := by
  unfold barwEff
  split
  · exact h
  · exact .ite (h.holdEff hrd) h

protected theorem Unwritten.sleepEff {sleep : Bool} : Unwritten p (sleepEff f sleep rd s) := .ite h (h.holdEff hrd)
protected theorem Unwritten.trapEff {num : Half} : Unwritten p (trapEff f num rd s) := .ite h (.bump (h.putWarp hrd))
protected theorem Unwritten.rteEff : Unwritten p (rteEff rd s) := (h.putWarp hrd.leaveTrap).same
protected theorem Unwritten.icbEff : Unwritten p (icbEff f hook rd s) := (Unwritten.putWarp h.same hrd.raise).bump

protected theorem Unwritten.syscEff : Unwritten p (syscEff f n hook rd s) := by
  unfold syscEff
  split
  · exact (h.putWarp hrd.raise).bump
  · exact (h.putWarp hrd.raise).bump.same

protected theorem Unwritten.csrrEff {r : Csr} : Unwritten p (csrrEff f w64 r rd s) := h.launchFlight hrd

protected theorem Unwritten.knockEff : Unwritten p (knockEff f hook rd s) :=
  have hb := (Unwritten.putWarp h.same hrd.raise).bump
  .ite hb.later (.ite hb.later.later hb.emit.later)

end Sys2Proof.Proofs
end

section
/-! The copy, matrix, remote and bulk syllables write no register and no byte when they issue (R305, R328, R356, R365 to R374). -/

namespace Sys2Proof.Proofs
open Sys2Proof.Machine Sys2Proof.Claims

set_option Elab.async false

variable {p s : State} {ctx hook id rc slot src st msg units wid : Nat} {em rcv stm sx : Bool} {rd : Rd} {f : Fields} {dst : Dst}
  {lanes : Lanes} {kind : OpKind} {c : CopyOp} {i : Instr} {o : Op} {b : SendOp} {r : RecvOp} {m : BulkMsg} {fault : Option TrapDue}
  {q : RemReq}

section
variable (h : Unwritten p s)
include h

protected theorem Unwritten.startCopy : Unwritten p (startCopy rd s id c) := by
  unfold startCopy
  extract_lets c' t
  have ht : Unwritten p t := .ite h.charge h
  split
  extract_lets d u
  have hu : Unwritten p u := .ite ht ht.modTeam
  exact .ite hu.modTeam hu

protected theorem Unwritten.sendGroup : Unwritten p (sendGroup s ctx q) := .ite h.sendReq h.later
protected theorem Unwritten.holdM {d : Nat} : Unwritten p (holdM rd d s) := .ite h h.modWarp.modCore
protected theorem Unwritten.finishItem {res : List LaneRes} : Unwritten p (finishItem s wid hook id res fault) := h.modWarp

protected theorem Unwritten.finishAlso {items : List (Nat × Nat × Nat)} : Unwritten p (finishAlso s items) :=
  h.foldl fun _ hs => hs.finishItem

protected theorem Unwritten.endItem : Unwritten p (endItem s o st units fault) := by
  unfold endItem
  split
  · exact h.finishItem
  · exact h

protected theorem Unwritten.endSend : Unwritten p (endSend s o b st units fault) := h.modOp.endItem.finishAlso.used
protected theorem Unwritten.endRecv : Unwritten p (endRecv s o r st units fault) := h.modOp.endItem.modWarp

protected theorem Unwritten.endOwnSend : Unwritten p (endOwnSend s id st) := by
  unfold endOwnSend
  split
  · split
    · exact .ite h.endSend h
    · exact h
  · exact h

protected theorem Unwritten.endOwnRecv : Unwritten p (endOwnRecv s id st) := by
  unfold endOwnRecv
  split
  · split
    · exact .ite h.endRecv h
    · exact h
  · exact h

protected theorem Unwritten.tellSender {fr : Frame} : Unwritten p (tellSender s m st fr) := .ite h.endOwnSend h.emit

protected theorem Unwritten.tellReceiver : Unwritten p (tellReceiver s id b) := by
  unfold tellReceiver
  extract_lets t
  have ht : Unwritten p t := h.same
  refine .ite ht.emit ?_
  split
  · split
    · exact ht.endOwnRecv
    · exact ht.same
  · exact ht

protected theorem Unwritten.matchMsg {mid : Nat} : Unwritten p (matchMsg s mid m o r) := by
  unfold matchMsg
  extract_lets n pre m' t u tok v
  have hu : Unwritten p u := Unwritten.modOp h.same
  have hv : Unwritten p v := .ite hu (Unwritten.bump hu.same).laterFree
  exact .ite hv hv.laterFree

protected theorem Unwritten.cancelSend {item : Nat × Nat × Nat} : Unwritten p (cancelSend s ctx slot item) := by
  unfold cancelSend
  split
  · exact .ite h (.ite h.modOp.modWarp h.tellReceiver.endSend)
  · exact h

protected theorem Unwritten.cancelRecv : Unwritten p (cancelRecv s ctx slot) := by
  unfold cancelRecv
  split
  · split
    · refine Unwritten.endRecv ?_
      split
      · exact h.tellSender
      · exact h
    · exact h
  · exact h

end

section
variable (h : Unwritten p s) (hrd : RegsOf p rd.w)
include h hrd

protected theorem Unwritten.putWork : Unwritten p (putWork rd f hook dst lanes kind s) :=
  .ite (h.putWarp hrd.raise).bump (h.putWarp hrd.raise).same.bump

protected theorem Unwritten.copyEff {ck : CopyKind} : Unwritten p (copyEff f ck em stm rc hook rd s) := by
  unfold copyEff
  split
  · exact h.putWork hrd
  · exact .ite (h.putWork hrd).startCopy.laterFree (h.putWork hrd).startCopy.laterFree

protected theorem Unwritten.matEff : Unwritten p (matEff i f hook rd s) := by
  unfold matEff
  extract_lets id m e c fresh t u d
  have he : Unwritten p e := .ite h h.modCore
  have ht : Unwritten p t := he.putWork hrd
  have hu : Unwritten p u := by
    unfold u c
    split
    · exact .ite ht.charge ht
    · exact ht
  have hd : Unwritten p d := hu.modTeam fun _ => scratch_drainBegin _ _ _ _ _
  exact .ite ht (Unwritten.ite hd.modWarp hd).later

protected theorem Unwritten.remEff {ak : RemKind} {load : Bool} {bytes : Nat} {off : Half} {data cmp : Rd → Nat → Nat} :
    Unwritten p (remEff f ak dst load bytes sx stm hook off data cmp rd s) :=
  ((h.putWork hrd).foldl fun _ hs => hs.sendGroup).holdM

protected theorem Unwritten.bsendEff : Unwritten p (bsendEff f hook rd s) := by
  unfold bsendEff
  split
  · exact h.putWork hrd
  · exact (h.putWork hrd).laterFree

protected theorem Unwritten.brecvEff : Unwritten p (brecvEff f hook rd s) := by
  unfold brecvEff; dsimp only
  split
  · exact h.putWork hrd
  split
  · exact (h.putWork hrd).matchMsg
  · exact h.putWork hrd

protected theorem Unwritten.probeEff : Unwritten p (probeEff f rcv hook rd s) := (h.putWarp hrd.raise).bump.used

protected theorem Unwritten.cancelEff : Unwritten p (cancelEff f rcv hook rd s) := by
  unfold cancelEff
  extract_lets _ _ t
  have ht : Unwritten p t := (h.putWarp hrd.raise).bump
  split
  · exact ht
  · exact .ite ht.cancelRecv ht.cancelSend

end

end Sys2Proof.Proofs
end

section
/-! O60 (R154, R160, R162, R285): the issue of a syllable writes no register and no byte. -/

namespace Sys2Proof.Proofs
open Sys2Proof.Machine Sys2Proof.Claims

set_option Elab.async false

section
variable {s : State} (hk : Keyed s) {i : Instr} {f : Fields} {hook n : Nat} {w64 : Bool} {csr : Csr} {chk : Rd → Pre}
include hk

theorem ctl_unwritten {go : Rd → Nat → Slice → Slice} : NextUnwritten s (withIssue i chk (fun rd => ctlEff (go rd) rd) s) :=
  withIssue_unwritten hk fun _ _ h hrd => h.ctlEff hrd

theorem execExit_unwritten : NextUnwritten s (execExit f s) := withIssue_unwritten hk fun _ _ h hrd => h.exitEff hrd
theorem execYield_unwritten : NextUnwritten s (execYield f s) := withIssue_unwritten hk fun _ _ h hrd => (h.ctlEff hrd).modWarp
theorem execIcinv_unwritten : NextUnwritten s (execIcinv f hook s) := withIssue_unwritten hk fun _ _ h hrd => h.icinvEff hrd
theorem execSyscIcb_unwritten : NextUnwritten s (execSyscIcb f hook s) := withIssue_unwritten hk fun _ _ h hrd => h.icbEff hrd
theorem execWait_unwritten : NextUnwritten s (execWait f hook s) := withIssue_unwritten hk fun _ _ h hrd => h.holdEff hrd
theorem matIssue_unwritten : NextUnwritten s (matIssue i f hook s) := withIssue_unwritten hk fun _ _ h hrd => h.matEff hrd

theorem execHkadjUp_unwritten : NextUnwritten s (execHkadjUp f hook n s) :=
  withIssue_unwritten hk fun _ _ h hrd => (h.putWarp hrd).raiseTokens

theorem execCsrx_unwritten : NextUnwritten s (execCsrx f w64 csr s) := withIssue_unwritten hk fun _ _ h hrd => (h.csrrEff hrd).csrwEff

end

theorem exec_unwritten {i : Instr} {s : State} (hi : i.enc.isSome = true) (hk : Keyed s) : NextUnwritten s (exec i s) := by
  obtain ⟨e, he⟩ := Option.isSome_iff_exists.mp hi
  cases i with
  | nopV | nopM | nopK | nopC => exact withIssue_unwritten hk fun _ _ h _ => h
  | iadd | isub | imul | imulhi | imad | imadw | imin | imax | iabs | isad | idot4 | icmp | bool3 | shl | shr | sar | rotl | fshl
  | bfx | bfi | popc | clz | brev | sel | mov | movi | prmt | iclamp | lea | add64 | sub64 | cmp64 | shl64 | shr64 | mad64 | fadd
  | fsub | fmul | ffma | fmin | fmax | fcmp | fclass | frint | fscale | fexpnE | fexpnM | dadd | dmul | dfma | dcmp | dmin | dmax
  | hadd2 | hmul2 | hfma2 | hcmp2 | hmin2 | hmax2 | rcp | rsq | sqrt | ex2 | lg2 | sin | cos | tanh | drcp | cvt | cvtscScale
  | cvtsc | pack2 | pack4 | unpack | sigrd | sigwr | sigmin | shflIdx | shflXor | voteBallot | voteAny | voteAll | voteEq
  | red | scan | matchLanes =>
    exact vIssue_unwritten hk
  | iaddc => exact .ite (vIssue_unwritten hk) (vIssue_unwritten hk)
  | nbr => exact execNbr_unwritten hk
  | ld | st | ldt | stt | ldw | atom => exact withIssue_unwritten hk fun _ _ h hrd => h.launchMem hrd
  | ldr => exact withIssue_unwritten hk fun _ _ h hrd => h.ldrEff hrd
  | lds => exact withIssue_unwritten hk fun _ _ h hrd => h.ldsEff hrd
  | sts => exact withIssue_unwritten hk fun _ _ h hrd => h.stsEff hrd
  | atoms => exact withIssue_unwritten hk fun _ _ h hrd => h.atomsEff hrd
  | rld | rst | ratom => exact withIssue_unwritten hk fun _ _ h hrd => h.remEff hrd
  | fenceTeam | fencePair | fenceDev | fenceFab | afence => exact withIssue_unwritten hk fun _ _ h hrd => h.fenceEff hrd
  | icinv => exact execIcinv_unwritten hk
  | pref => exact withIssue_unwritten hk fun _ _ h _ => h.prefEff
  | spmarkFull | spmarkEmpty => exact withIssue_unwritten hk fun _ _ h hrd => h.markEff hrd
  | wqenq => exact withIssue_unwritten hk fun _ _ h hrd => h.wqenqEff hrd
  | wqdeq => exact withIssue_unwritten hk fun _ _ h hrd => h.wqdeqEff hrd
  | cpyIn | cpyOut | cpytIn | cpytOut | cpyg | cpys | cpyfSp | cpyfMem | cpyw | cpyc =>
    exact withIssue_unwritten hk fun _ _ h hrd => h.copyEff hrd
  | bsend => exact withIssue_unwritten hk fun _ _ h hrd => h.bsendEff hrd
  | brecv => exact withIssue_unwritten hk fun _ _ h hrd => h.brecvEff hrd
  | bprobeSnd | bprobeRcv => exact withIssue_unwritten hk fun _ _ h hrd => h.probeEff hrd
  | bcancelSnd | bcancelRcv => exact withIssue_unwritten hk fun _ _ h hrd => h.cancelEff hrd
  | mcfg | mloft | mloftw | mlofth | mma | mmas | mscl | mdrainReg | mdrainScratch | mzero | mfence => exact matIssue_unwritten hk
  | bra f t => exact show NextUnwritten s (execBra f t s) from ctl_unwritten hk
  | brx f => exact show NextUnwritten s (execBrx f s) from ctl_unwritten hk
  | call f t => exact show NextUnwritten s (execCall f t s) from ctl_unwritten hk
  | callx f => exact show NextUnwritten s (execCallx f s) from ctl_unwritten hk
  | ret f => exact show NextUnwritten s (execRet f s) from ctl_unwritten hk
  | brp f t => exact show NextUnwritten s (execBrp f t s) from ctl_unwritten hk
  | brany f t => exact show NextUnwritten s (execBrany f t s) from ctl_unwritten hk
  | brall f t => exact show NextUnwritten s (execBrall f t s) from ctl_unwritten hk
  | brsig f n t => exact show NextUnwritten s (execBrsig f n t s) from ctl_unwritten hk
  | regang f t => exact show NextUnwritten s (execRegang f t s) from ctl_unwritten hk
  | loop f n t => exact show NextUnwritten s (execLoop f n t s) from ctl_unwritten hk
  | exit => exact execExit_unwritten hk
  | yield => exact execYield_unwritten hk
  | trap => exact withIssue_unwritten hk fun _ _ h hrd => h.trapEff hrd
  | rte => exact withIssue_unwritten hk fun _ _ h hrd => h.rteEff hrd
  | syscIcb => exact execSyscIcb_unwritten hk
  | sysc => exact withIssue_unwritten hk fun _ _ h hrd => h.syscEff hrd
  | wait => exact execWait_unwritten hk
  | waitAll => exact withIssue_unwritten hk fun _ _ h hrd => h.holdEff hrd
  | hkadjUp => exact execHkadjUp_unwritten hk
  | hkadjDn => exact withIssue_unwritten hk fun _ _ h _ => h.hkadjDnEff
  | bar | bara => exact withIssue_unwritten hk fun _ _ h hrd => h.barEff hrd
  | barw => exact withIssue_unwritten hk fun _ _ h hrd => h.barwEff hrd
  | sleepns | waitns => exact withIssue_unwritten hk fun _ _ h hrd => h.sleepEff hrd
  | knock => exact withIssue_unwritten hk fun _ _ h hrd => h.knockEff hrd
  | csrr => exact withIssue_unwritten hk fun _ _ h hrd => h.csrrEff hrd
  | csrw => exact withIssue_unwritten hk fun _ _ h _ => h.csrwEff
  | csrx => exact execCsrx_unwritten hk
  | _ => cases he

theorem Unwritten.byteAt_eq {s t : State} (h : Unwritten s t) (a : Nat) : byteAt t a = byteAt s a := by
  simp only [byteAt, l2Data, hbmLine, h.l2, h.hbm]

theorem Unwritten.scratchByte_eq {s t : State} (h : Unwritten s t) (tid a : Nat) : scratchByte t tid a = scratchByte s tid a := by
  have hs := h.scratch tid
  unfold scratchByte
  cases ht : t.team? tid <;> cases hp : s.team? tid <;> simp_all

/-- Settles O60: a syllable's checks and its effect put work and results in flight and change other records of its warp, its team and
the device, whichever syllable it is. -/
theorem issueWritesNoRegister : Obligations.IssueWritesNoRegister := by
  unfold Obligations.IssueWritesNoRegister
  intro i s t hi hk hexec
  have h : Unwritten s t := by
    have := exec_unwritten hi hk
    rwa [hexec] at this
  refine ⟨fun k w hw => ?_, h.byteAt_eq, h.cellar, h.scratchByte_eq⟩
  have hr := h.regs k
  rw [hw] at hr
  exact Option.map_eq_some_iff.mp hr

end Sys2Proof.Proofs
end

section
/-! A hook that drops past its oldest item, and one that takes credit (R163, R164, R395). -/

namespace Sys2Proof.Proofs
open Sys2Proof.Machine Sys2Proof.Claims

set_option Elab.async false

/-! ## What is looked at before a drop: no fence is under way, and no multiplication is spoiled -/

theorem fencesDone_of_no_fence {s : State} (hs : ∀ e ∈ s.ops, ∀ n q, e.2.kind ≠ .fence n q) (wid h : Nat) (is : List HookItem) :
    fencesDone s wid h is = s := by
  induction is with
  | nil => rfl
  | cons i is ih =>
    unfold fencesDone; dsimp only
    split
    · next o w ho hw =>
      split
      · next hk => exact absurd hk (hs _ (mem_of_tget ho) _ _)
      · exact ih
    · exact ih

theorem taintMma_of_clean {s : State} {w : Warp} {m : MatOp} (hm : m.spoiled w = false) (id : Nat) : taintMma s w id m = s := by
  unfold taintMma
  split
  · simp [hm]
  · rfl

theorem taintAll_of_clean {s : State} {w : Warp} (hs : ∀ e ∈ s.ops, ∀ m, e.2.kind = .matrix m → m.spoiled w = false) :
    taintAll s w = s := by
  unfold taintAll
  refine List.foldlRecOn (motive := (· = s)) s.ops _ rfl fun u hu e he => ?_
  subst hu
  split
  · next m hm =>
    split
    · exact taintMma_of_clean (hs e he m hm) e.1
    · rfl
  · rfl

/-! ## An item that its hook drops past -/

theorem writeAll_nil_regs (w : Warp) (fresh : Nat) (d : Dst) : (w.writeAll fresh d []).regs = w.regs := by
  have one (v : Warp) (n : Nat) : (v.killNow 0 n).regs = v.regs := by
    refine foldl_keeps (P := fun u : Warp => u.regs = v.regs) (fun u k hu => ?_) v.kills v rfl
    have hnone : lanesOf (killHit 0 n k) = [] :=
      List.eq_nil_iff_forall_not_mem.mpr fun l hl => by simp [mem_lanesOf, getLsbD_killHit] at hl
    exact (congrArg (fun ls => (ls.foldl (fun v l => v.kill n l) u).regs) hnone).trans hu
  rw [writeAll_eq, lastUsesDone]
  split
  · rfl
  · exact foldl_keeps (P := fun u : Warp => u.regs = w.regs) (fun u n hu => (one u n).trans hu) d.opnds w rfl

theorem cell_writeAll_regs (w : Warp) (fresh : Nat) {n span k : Nat} {rs : List LaneRes} {r : LaneRes} {v : Word} {t : Tag}
    (hl : ∀ r ∈ rs, r.lane < 64) (hd : rs.Pairwise fun r q => r.lane ≠ q.lane) (hr : r ∈ rs) (hk : r.vals[k]? = some (v, t))
    (hn : n + k < 776) : (w.writeAll fresh (.regs n span) rs).cell (n + k) r.lane = ⟨v, 0, storeTag t, false⟩ := by
  obtain ⟨u, _, hlast⟩ := cell_writeResults (lastUsesDone w (.regs n span) rs) fresh (.regs n span) hl hd hr
  rw [writeAll_eq, hlast]
  exact cell_writeVals u (hl r hr) hk hn

/-- The flags that an item adds to MEMST (R253). -/
def memstFlags (i : HookItem) : Word := BitVec.ofNat 32 (i.zr.toNat + 2 * i.zw.toNat)

/-- What dropping past an item does to its warp: registers, last uses and MEMST, and a trap that its fault makes due. -/
theorem passItem_shape (w : Warp) (fresh : Nat) (i : HookItem) : ∃ kills due csr, w.passItem fresh i =
      { w with regs := (w.writeAll fresh i.dst i.res).regs, kills := kills, due := due, csr := csr }
    ∧ csr.memst = w.csr.memst ||| memstFlags i
    ∧ (i.fault = none → due = w.due)
    ∧ ∀ d, i.fault = some d → ∃ e, due = w.due ++ [e] ∧ e.cause = d.cause ∧ e.val = d.val := by
  obtain ⟨regs, kills, hw⟩ := writeAll_onlyRegs w fresh i.dst i.res
  unfold Warp.passItem
  simp only [hw]
  cases i.fault with
  | none => exact ⟨_, _, _, rfl, rfl, fun _ => rfl, fun _ h => absurd h.symm (Option.some_ne_none _)⟩
  | some d =>
    refine ⟨_, _, _, rfl, ?_, fun h => absurd h (Option.some_ne_none d), ?_⟩
    · simp only [Csrs.pend]
      split <;> rfl
    · rintro _ ⟨⟩
      exact ⟨_, rfl, rfl, rfl⟩

/-! ## The oldest item of a hook -/

/-- An item whose results, if they are written at its finish, have been written (R164). -/
def writtenItem (base : Nat) (i : HookItem) : HookItem := if HookItem.writesNow base i then { i with res := [] } else i

/-- The warp after the results of a hook's item that are written at its finish (R164). -/
def finishWritten (w : Warp) (fresh base : Nat) (i : HookItem) : Warp :=
  if HookItem.writesNow base i then w.writeAll fresh i.dst i.res else w

/-- The warp when a hook, left with the items in `hooks`, has dropped past an item that finishes in this clock cycle: its results are
written now, whether at its finish or at the drop. -/
def dropPast (w : Warp) (hooks : List HookSt) (fresh base : Nat) (i : HookItem) : Warp :=
  Warp.passItem { finishWritten w fresh base i with hooks := hooks } fresh (writtenItem base i)

theorem finishWritten_onlyRegs (w : Warp) (fresh base : Nat) (i : HookItem) : OnlyRegs w (finishWritten w fresh base i) := by
  unfold finishWritten
  split
  · exact writeAll_onlyRegs ..
  · exact .refl w

theorem getElem?_lmod {α : Type} (l : List α) (n m : Nat) (f : α → α) : (lmod l n f)[m]? = if m = n then l[m]?.map f else l[m]? := by
  split
  · next h => exact h ▸ getElem?_lmod_same l m f
  · next h => exact getElem?_lmod_other l f h

theorem lmod_lmod_const {α : Type} (l : List α) (n : Nat) (f : α → α) (a : α) :
    lmod (lmod l n f) n (fun _ => a) = lmod l n fun _ => a := by
  refine List.ext_getElem? fun m => ?_
  simp only [getElem?_lmod]
  split
  · exact Option.map_map ..
  · rfl

section
variable {w : Warp} {h base fresh : Nat} {k : HookSt} {it : HookItem} {rest : List HookItem} (hk : w.hooks[h]? = some k)
  (hitems : k.items = it :: rest) (hrest : ∀ x ∈ rest, x.early = true → ∀ n, x.fin = some n → base < n)
include hk hitems hrest

/-- Of the items of a hook only the oldest has results that are written at its finish. -/
theorem writeFinished_oldest : w.writeFinished h fresh base = { finishWritten w fresh base it with
    hooks := lmod w.hooks h fun _ => { k with items := writtenItem base it :: rest } } := by
  have hnot : ∀ x ∈ rest, HookItem.writesNow base x = false := fun x hx => by
    unfold HookItem.writesNow
    cases he : x.early with
    | false => rfl
    | true =>
      cases hf : x.fin with
      | none => simp
      | some n => simp [Nat.not_le.mpr (hrest x hx he n hf)]
  have hfilter : (w.hook h).items.filter (HookItem.writesNow base) = if HookItem.writesNow base it then [it] else [] := by
    have hnone : rest.filter (HookItem.writesNow base) = [] := List.filter_eq_nil_iff.mpr fun x hx => by simp [hnot x hx]
    simp only [Warp.hook, List.getD_eq_getElem?_getD, hk, Option.getD_some, hitems, List.filter_cons, hnone]
  have hmap : rest.map (writtenItem base) = rest := by
    refine (List.map_congr_left fun x hx => ?_).trans (List.map_id rest)
    simp [writtenItem, hnot x hx]
  have hfold : ((w.hook h).items.filter (HookItem.writesNow base)).foldl (fun w i => w.writeAll fresh i.dst i.res) w =
      finishWritten w fresh base it := by
    rw [hfilter, finishWritten]
    split <;> rfl
  obtain ⟨regs, kills, hw⟩ := finishWritten_onlyRegs w fresh base it
  unfold Warp.writeFinished
  rw [hfold, hw]
  refine congrArg (fun hooks => ({ w with regs := regs, kills := kills, hooks := hooks } : Warp)) (List.ext_getElem? fun m => ?_)
  simp only [getElem?_lmod]
  split
  · subst_vars
    rw [hk, Option.map_some, Option.map_some, hitems]
    exact congrArg (fun is => some ({ k with items := _ :: is } : HookSt)) hmap
  · rfl

variable (hcredit : k.credit = 0) (hfin : it.fin = some base) (hhead : ∀ x, rest.head? = some x → ∀ n, x.fin = some n → base < n)
include hcredit hfin hhead

/-- A hook without credit, of which only the oldest item has finished, drops past that one. -/
theorem dropHook_oldest : w.dropHook h fresh base =
    (dropPast w (lmod w.hooks h fun _ => { k with items := rest }) fresh base it, [writtenItem base it]) := by
  have hlen : h < w.hooks.length := (List.getElem?_eq_some_iff.mp hk).1
  have hhook (v : Warp) (k' : HookSt) : ({ v with hooks := lmod w.hooks h fun _ => k' } : Warp).hook h = k' := by
    simp [Warp.hook, getElem?_lmod, hk]
  have hdone : (writtenItem base it).fin = some base := by
    unfold writtenItem
    split <;> exact hfin
  have hsplit : splitDone base (writtenItem base it :: rest) = ([writtenItem base it], rest) := by
    have hstop : splitDone base rest = ([], rest) := by
      cases rest with
      | nil => rfl
      | cons x xs =>
        rw [splitDone, if_neg]
        cases hx : x.fin with
        | none => simp
        | some n => simpa using hhead x rfl n hx
    rw [splitDone, hdone, hstop]
    simp
  unfold Warp.dropHook
  rw [writeFinished_oldest hk hitems hrest]
  dsimp only
  rw [hhook, hcredit, settleTokens, if_pos rfl, hsplit, lmod_lmod_const]
  rw [← hcredit]
  rfl

end

end Sys2Proof.Proofs
end

section
/-! O34 (R163, R164, R395): a hook drops past its oldest finished item; a hook takes credit. -/

namespace Sys2Proof.Proofs
open Sys2Proof.Machine Sys2Proof.Claims

set_option Elab.async false

/-! ## The step of a drop -/

theorem retireOp_warps (s : State) (id : Nat) : (retireOp s id).warps = s.warps := by
  unfold retireOp
  split
  · split
    · dsimp only
      split <;> rfl
    · rfl
  · rfl

theorem execHookDrop_eq {s : State} {w : Warp} {wid h : Nat} (hw : s.warp? wid = some w)
    (hfence : ∀ e ∈ s.ops, ∀ n q, e.2.kind ≠ .fence n q) (hclean : ∀ e ∈ s.ops, ∀ m, e.2.kind = .matrix m → m.spoiled w = false) :
    exec (.hookDrop wid h) s = .next
      ((w.dropHook h s.fresh s.base).2.foldl (fun s i => retireOp s i.id) (s.putWarp (w.dropHook h s.fresh s.base).1)).used := by
  change execHookDrop wid h s = _
  simp only [execHookDrop, hw, fencesDone_of_no_fence hfence, taintAll_of_clean hclean]

/-- What dropping past an item whose results may have been written at its finish does to its warp. -/
theorem dropPast_shape (w : Warp) (hooks : List HookSt) (fresh base : Nat) (it : HookItem) : ∃ regs kills due csr,
    dropPast w hooks fresh base it =
      { w with regs := regs, kills := kills, hooks := hooks, due := due, csr := csr }
    ∧ csr.memst = w.csr.memst ||| memstFlags it
    ∧ (it.fault = none → due = w.due)
    ∧ ∀ d, it.fault = some d → ∃ e, due = w.due ++ [e] ∧ e.cause = d.cause ∧ e.val = d.val := by
  obtain ⟨regs, kills, hw⟩ := finishWritten_onlyRegs w fresh base it
  obtain ⟨_, _, _, hp, hfacts⟩ := passItem_shape { finishWritten w fresh base it with hooks := hooks } fresh (writtenItem base it)
  have hsame : memstFlags (writtenItem base it) = memstFlags it ∧ (writtenItem base it).fault = it.fault := by
    unfold writtenItem
    split <;> exact ⟨rfl, rfl⟩
  rw [hsame.1, hsame.2, hw] at hfacts
  rw [dropPast, hp, hw]
  exact ⟨_, _, _, _, rfl, hfacts⟩

/-- The cells that the results of an item leave, written at its finish or at the drop. -/
theorem cell_dropPast (w : Warp) (hooks : List HookSt) (fresh base : Nat) {it : HookItem} {n span k : Nat} {r : LaneRes}
    {v : Word} {t : Tag} (hl : ∀ r ∈ it.res, r.lane < 64) (hd : it.res.Pairwise fun r q => r.lane ≠ q.lane) (hr : r ∈ it.res)
    (hdst : it.dst = .regs n span) (hk : r.vals[k]? = some (v, t)) (hn : n + k < 776) :
    (dropPast w hooks fresh base it).cell (n + k) r.lane =
      ⟨v, 0, storeTag t, false⟩ := by
  obtain ⟨_, _, _, hp, _⟩ := passItem_shape { finishWritten w fresh base it with hooks := hooks } fresh (writtenItem base it)
  rw [dropPast, hp]
  unfold finishWritten writtenItem
  split
  · refine Eq.trans ?_ (cell_writeAll_regs w fresh (span := span) hl hd hr hk hn)
    rw [← hdst, Warp.cell, Warp.cell]
    dsimp only
    rw [writeAll_nil_regs]
  · rw [hdst]
    exact cell_writeAll_regs _ fresh hl hd hr hk hn

/-- An item without results writes no register. -/
theorem dropPast_regs (w : Warp) (hooks : List HookSt) (fresh base : Nat) {it : HookItem} (h : it.res = []) :
    (dropPast w hooks fresh base it).regs = w.regs := by
  have hnot : HookItem.writesNow base it = false := by simp [HookItem.writesNow, h]
  obtain ⟨_, _, _, hp, _⟩ := passItem_shape { finishWritten w fresh base it with hooks := hooks } fresh (writtenItem base it)
  rw [dropPast, hp, finishWritten, writtenItem, if_neg (by simp [hnot]), if_neg (by simp [hnot])]
  dsimp only
  rw [h, writeAll_nil_regs]

/-! ## The step of credit -/

theorem length_eraseOne {c n : Nat} {l : List (Nat × Nat)} (h : l.any (fun p => p.1 ≤ c && p.2 = n) = true) :
    (eraseOne c n l).length + 1 = l.length := by
  induction l with
  | nil => simp at h
  | cons p ps ih =>
    unfold eraseOne
    split
    · rfl
    · next hp =>
      rw [List.any_cons, Bool.or_eq_true] at h
      rw [List.length_cons, List.length_cons, ih (h.resolve_left hp)]

theorem dropSoon_shape (s : State) (wid : Nat) : ∃ agenda, dropSoon s wid = { s with agenda := agenda } := by
  unfold dropSoon
  split <;> exact ⟨_, rfl⟩

theorem execHookCreditCommit_shape {s : State} {w : Warp} {wid h n : Nat} (hw : s.warp? wid = some w) (hlive : w.ended = false) :
    ∃ agenda, exec (.hookCreditCommit wid h n) s = .next { s.putWarp { w with
      hooks := lmod w.hooks h fun k => k.commit (coreCycle s w.core) n } with agenda := agenda } := by
  obtain ⟨agenda, ha⟩ := dropSoon_shape (s.putWarp { w with hooks := lmod w.hooks h fun k => k.commit (coreCycle s w.core) n }) wid
  refine ⟨agenda, ?_⟩
  change execHookCreditCommit wid h n s = _
  simp only [execHookCreditCommit, hw]
  exact (if_neg (by simp [hlive])).trans (congrArg _ ha)

/-- Settles O34: the oldest item is dropped past with all that it writes, and credit is added. -/
theorem hooksDropAndTakeCredit : Obligations.HooksDropAndTakeCredit := by
  unfold Obligations.HooksDropAndTakeCredit
  refine ⟨fun s w h k it rest hw hk hitems hcredit hfin _ hhead hrest hfence hclean hl hd => ?_,
    fun s w h k c n hw hk hlive hcoming hc => ?_⟩
  · have hexec := execHookDrop_eq (h := h) hw hfence hclean
    rw [dropHook_oldest hk hitems hrest hcredit hfin hhead] at hexec
    obtain ⟨regs, kills, due, csr, hshape, hmemst, hsound, hfault⟩ :=
      dropPast_shape w (lmod w.hooks h fun _ => { k with items := rest }) s.fresh s.base it
    refine ⟨_, dropPast w (lmod w.hooks h fun _ => { k with items := rest }) s.fresh s.base it, hexec, ?_, ?_,
      fun j hj => ?_, fun n span hdst r hr i v tg hv hn => ?_, fun hres => ?_, ?_, ?_, ?_, fun j hj => ?_⟩
    · refine (congrArg (tget · w.wid) (retireOp_warps ..)).trans ((State.warp?_putWarp ..).trans (if_pos ?_))
      rw [hshape]
    · rw [hshape, getElem?_lmod_same, hk]
      rfl
    · rw [hshape]
      exact getElem?_lmod_other _ _ hj
    · rw [cell_dropPast w _ s.fresh s.base hl hd hr hdst hv hn]
      simp [storeTag]
    · exact dropPast_regs w _ s.fresh s.base hres
    · rw [hshape]
      exact hmemst
    · rw [hshape]
      exact hsound
    · rw [hshape]
      exact hfault
    · refine (congrArg (tget · j) (retireOp_warps ..)).trans ((State.warp?_putWarp ..).trans (if_neg ?_))
      rwa [hshape]
  · obtain ⟨agenda, hexec⟩ := execHookCreditCommit_shape (h := h) (n := n) hw hlive
    have hany : (k.coming.any fun p => p.1 ≤ coreCycle s w.core && p.2 = n) = true :=
      List.any_eq_true.mpr ⟨_, hcoming, by simpa using hc⟩
    have hcommit : k.commit (coreCycle s w.core) n =
        { k with coming := eraseOne (coreCycle s w.core) n k.coming, credit := k.credit + n, promised := k.promised - n } := if_pos hany
    refine ⟨_, _, k.commit (coreCycle s w.core) n, hexec, (State.warp?_putWarp ..).trans (if_pos rfl), ?_, ?_⟩
    · exact (getElem?_lmod_same ..).trans (congrArg _ hk)
    · rw [hcommit]
      exact ⟨rfl, rfl, rfl, length_eraseOne hany, rfl, fun j hj => (State.warp?_putWarp ..).trans (if_neg hj),
        memKept_of_eq rfl rfl rfl rfl rfl rfl rfl⟩

end Sys2Proof.Proofs
end

section
/-! O16 (R162, R283 to R288, R291): loads, stores and atomics that issue. -/

namespace Sys2Proof.Proofs
open Sys2Proof.Machine Sys2Proof.Claims

set_option Elab.async false

/-! ## What a syllable reads is its warp and its bundle -/

theorem rdOf_s (i : Instr) (s : State) (w : Warp) (iss : Issue) :
    (rdOf i s w iss).s = { s with fresh := iss.fresh0 + iss.syl } := by
  unfold rdOf
  split <;> rfl

theorem idxVal_eq_index (rd : Rd) (o : Opnd) (l : Nat) : idxVal rd o l = index rd o l := by
  cases o <;> rfl

/-- Which translation an access has does not depend on the counter of free values. -/
theorem leafAt_rdOf (i : Instr) (s : State) (w : Warp) (iss : Issue) (va : Nat) :
    leafAt (rdOf i s w iss).s (rdOf i s w iss).w va = leafAt s w va := by
  rw [rdOf_s, rdOf_w]
  rfl

/-! ## A hook raised -/

theorem raise_eq (w : Warp) (h : Nat) (it : HookItem) :
    w.raise h it = { w with hooks := raised w.hooks h it, lastWr := (w.raise h it).lastWr } := by
  unfold Warp.raise Warp.noteWrite
  split <;> rfl

theorem hookItem_eq_workItem {rd : Rd} {iss : Issue} (h : rd.iss = iss) (s : State) (f : Fields) (dst : Dst) :
    hookItem rd s dst (enabled rd f) (doneIfNone rd f s) = workItem s iss dst (enabled rd f) := by
  subst h
  rfl

/-! ## An access sent out -/

theorem memKept_modTeam {s : State} {tid : Nat} {g : Team → Team} (hg : ∀ t, (g t).scratch = t.scratch) :
    MemKept s (s.modTeam tid g) where
  bytes _ := rfl
  undefined := rfl
  poison := rfl
  cellar _ := rfl
  scratch k a := by
    have hk := map_tget_tmod hg s.teams tid k
    unfold scratchByte State.modTeam State.team?
    cases ht : tget (tmod s.teams tid g) k <;> cases hs : tget s.teams k <;> simp_all
  engines _ := rfl

theorem reserveEntry_shape (rd : Rd) (f : Fields) (id : Nat) (s : State) :
    ∃ teams, reserveEntry rd f id s = { s with teams := teams } := by
  unfold reserveEntry
  split <;> exact ⟨_, rfl⟩

theorem reserveEntry_memKept (rd : Rd) (f : Fields) (id : Nat) (s : State) : MemKept s (reserveEntry rd f id s) := by
  unfold reserveEntry
  split
  · exact memKept_modTeam fun _ => rfl
  · exact memKept_of_eq rfl rfl rfl rfl rfl rfl rfl

/-- The lines of an access are sent to their homes, and nothing else is changed but the counter of free values. -/
theorem postLines_shape (s : State) (id : Nat) (m : MemOp) : ∃ pending fresh,
    postLines s id m = { s with pending := pending, fresh := fresh }
    ∧ ∀ line ∈ m.todo, ∃ p ∈ pending, p.ev = .homeAccessPerform id (2 * (line / 2)) ∧ s.base + 1 ≤ p.due := by
  have general (ls : List Nat) (u : State) : ∃ pending fresh,
      ls.foldl (fun s line => s.laterFree 1 (.homeAccessPerform id line)) u = { u with pending := pending, fresh := fresh }
      ∧ (∀ p ∈ u.pending, p ∈ pending)
      ∧ ∀ line ∈ ls, ∃ p ∈ pending, p.ev = .homeAccessPerform id line ∧ u.base + 1 ≤ p.due := by
    induction ls generalizing u with
    | nil => exact ⟨_, _, rfl, fun _ hp => hp, fun _ hl => absurd hl List.not_mem_nil⟩
    | cons line ls ih =>
      obtain ⟨pending, fresh, hu, hold, hnew⟩ := ih (u.laterFree 1 (.homeAccessPerform id line))
      refine ⟨pending, fresh, hu, fun p hp => hold p (List.mem_append_left _ hp), List.forall_mem_cons.mpr ⟨?_, hnew⟩⟩
      exact ⟨_, hold _ (List.mem_append_right _ List.mem_cons_self), rfl, Nat.le_add_right _ _⟩
  obtain ⟨pending, fresh, hs, _, hnew⟩ := general ((m.todo.map fun c => 2 * (c / 2)).eraseDups) s
  refine ⟨pending, fresh, hs, fun line hl => hnew _ ?_⟩
  exact List.mem_eraseDups.mpr (List.mem_map_of_mem hl)

/-- The work of an access under way: its record, and every line that it is to reach sent to its home. -/
structure UnderWay (s t : State) (wid hook : Nat) (m : MemOp) : Prop where
  work : ∃ op, tget t.ops s.nextId = some op ∧ op.wid = wid ∧ op.hook = hook ∧ op.kind = .mem m
  lines : ∀ line ∈ m.todo, ∃ p ∈ t.pending, p.ev = .homeAccessPerform s.nextId (2 * (line / 2)) ∧ s.base + 1 ≤ p.due

/-- An access sent out raises its hook, is under way where a lane is enabled, and changes nothing else of the warps and memories. -/
theorem launchMem_shape (rd : Rd) (f : Fields) (hook : Nat) (dst : Dst) (m : MemOp) (s : State) :
    (∀ k, (launchMem rd f hook dst m s).warp? k =
      if k = rd.w.wid then some (rd.w.raise hook (workItem s rd.iss dst (enabled rd f))) else s.warp? k)
    ∧ (enabled rd f ≠ 0 → UnderWay s (launchMem rd f hook dst m s) rd.w.wid hook m)
    ∧ MemKept s (launchMem rd f hook dst m s) := by
  have hraised (k : Nat) : (s.putWarp (rd.w.raise hook (workItem s rd.iss dst (enabled rd f)))).warp? k =
      if k = rd.w.wid then some (rd.w.raise hook (workItem s rd.iss dst (enabled rd f))) else s.warp? k := by
    rw [State.warp?_putWarp, raise_wid]
  have hput : MemKept s (s.putWarp (rd.w.raise hook (workItem s rd.iss dst (enabled rd f)))) := memKept_of_eq rfl rfl rfl rfl rfl rfl rfl
  have hmem := hput.trans (reserveEntry_memKept rd f s.nextId _)
  unfold launchMem
  rw [hookItem_eq_workItem rfl]
  dsimp only
  obtain ⟨teams, hr⟩ := reserveEntry_shape rd f s.nextId (s.putWarp (rd.w.raise hook (workItem s rd.iss dst (enabled rd f))))
  rw [hr] at hmem ⊢
  split
  · next hen => exact ⟨hraised, fun h => absurd hen h, hmem.trans (memKept_of_eq rfl rfl rfl rfl rfl rfl rfl)⟩
  split
  · next htodo =>
    refine ⟨hraised, fun _ => ⟨⟨_, tget_tset_same .., rfl, rfl, rfl⟩, fun line hl => ?_⟩,
      hmem.trans (memKept_of_eq rfl rfl rfl rfl rfl rfl rfl)⟩
    rw [List.isEmpty_iff.mp htodo] at hl
    exact absurd hl List.not_mem_nil
  · obtain ⟨pending, fresh, hp, hlines⟩ := postLines_shape _ s.nextId m
    rw [hp]
    exact ⟨hraised, fun _ => ⟨⟨_, tget_tset_same .., rfl, rfl, rfl⟩, hlines⟩,
      hmem.trans (memKept_of_eq rfl rfl rfl rfl rfl rfl rfl)⟩

/-! ## The lanes and lines of an access -/

/-- The record of an access holds its kind, its width, its lanes with address and data, and the lines that it is to reach. -/
structure RecordOf (a : Access) (s : State) (w : Warp) (rd : Rd) (m : MemOp) : Prop where
  kind : m.kind = a.kind
  bytes : m.bytes = a.bytes
  enabled : m.enabled = Machine.enabled rd a.f
  lanes : m.lanes.map (fun k => (k.lane, k.va, k.pa, k.data)) = (evalLanes rd a.f).map (fun l =>
    (l, (a.va rd l).toNat, (leafAt s w (a.va rd l).toNat).phys (a.va rd l).toNat, BitVec.ofNat 128 (a.data rd l)))
  lines : ∀ k ∈ m.lanes, 2 * (k.pa / 128) ∈ m.todo ∨ a.kind = .loadL1 ∧ ∃ r ∈ m.results, r.lane = k.lane

theorem mem_linesOf {ls : List MemLane} {k : MemLane} (h : k ∈ ls) : 2 * (k.pa / 128) ∈ linesOf ls :=
  List.mem_eraseDups.mpr (List.mem_flatMap.mpr ⟨k, h, List.mem_cons_self⟩)

theorem memLanes_fields (i : Instr) (s : State) (w : Warp) (iss : Issue) (a : Access) (shadow : Bool) (cmp : Nat → Nat)
    (tags : Nat → List Tag) :
    (memLanes (rdOf i s w iss) a.f a.idx a.off shadow (a.data (rdOf i s w iss)) cmp tags).map (fun k => (k.lane, k.va, k.pa, k.data)) =
      (evalLanes (rdOf i s w iss) a.f).map fun l => (l, (a.va (rdOf i s w iss) l).toNat,
        (leafAt s w (a.va (rdOf i s w iss) l).toNat).phys (a.va (rdOf i s w iss) l).toNat,
        BitVec.ofNat 128 (a.data (rdOf i s w iss) l)) := by
  have hva (l : Nat) : vaOf (rdOf i s w iss) a.f a.idx a.off l = a.va (rdOf i s w iss) l := by
    rw [vaOf, idxVal_eq_index, Access.va]
  simp only [memLanes, List.map_map, Function.comp_def, leafAt_rdOf, hva]

/-- The record of an access all of whose lines are to be performed at their homes. -/
theorem recordOf_memOpOf (i : Instr) (s : State) (w : Warp) (iss : Issue) (a : Access) (shadow sx stm : Bool) (rc : Nat)
    (cmp : Nat → Nat) (tags : Nat → List Tag) : RecordOf a s w (rdOf i s w iss)
      (memOpOf (rdOf i s w iss) a.f a.kind a.bytes sx stm rc
        (memLanes (rdOf i s w iss) a.f a.idx a.off shadow (a.data (rdOf i s w iss)) cmp tags)) where
  kind := rfl
  bytes := rfl
  enabled := rfl
  lanes := memLanes_fields i s w iss a shadow cmp tags
  lines _ hk := .inl (mem_linesOf hk)

/-- The record of an ldr: the lines of the lanes that its L1 does not answer, and results for those that it does (R246). -/
theorem RecordOf.answered {a : Access} {s : State} {w : Warp} {rd : Rd} {m : MemOp} (h : RecordOf a s w rd m) (hkind : a.kind = .loadL1)
    (hit : MemLane → Option L1Line) (res : MemLane → L1Line → LaneRes) (hres : ∀ k l, (res k l).lane = k.lane) (fill : Bool) :
    RecordOf a s w rd { m with
      todo := linesOf (m.lanes.filter fun k => (hit k).isNone)
      results := m.lanes.filterMap fun k => (hit k).map (res k)
      fillL1 := fill } where
  kind := h.kind
  bytes := h.bytes
  enabled := h.enabled
  lanes := h.lanes
  lines k hk := by
    cases hh : hit k with
    | none => exact .inl (mem_linesOf (List.mem_filter.mpr ⟨hk, by simp [hh]⟩))
    | some l => exact .inr ⟨hkind, res k l, List.mem_filterMap.mpr ⟨k, hk, by simp [hh]⟩, hres k l⟩

theorem l1Count_memKept (s : State) (core ctx : Nat) (vas : List Nat) : MemKept s (l1Count s core ctx vas) where
  bytes _ := rfl
  undefined := rfl
  poison := rfl
  cellar _ := rfl
  scratch _ _ := rfl
  engines _ := getD_lmod _ _ _ _ fun _ => rfl

/-! ## Every access that passes its checks is sent out -/

/-- A syllable's step sends out the record of its access, from a state with the warps and the memories of the one it issues in. -/
def SendsOut (i : Instr) (a : Access) (s : State) (iss : Issue) (w : Warp) : Prop :=
  ∃ m u, exec i s = .next (launchMem (rdOf i s w iss) a.f a.hook a.dst m u) ∧ RecordOf a s w (rdOf i s w iss) m
    ∧ u.warps = s.warps ∧ u.nextId = s.nextId ∧ u.base = s.base ∧ MemKept s u

section
variable {i : Instr} {a : Access} {s : State} {iss : Issue} {w : Warp} (r : Ready i s iss w)
include r

theorem sendsOut_of_effect {chk : Rd → Pre} {eff : Rd → State → State} (hexec : exec i s = withIssue i chk eff s)
    (hchk : chk (rdOf i s w iss) = .ok) {m : MemOp}
    (heff : eff (rdOf i s w iss) ((rdOf i s w iss).taken s) = launchMem (rdOf i s w iss) a.f a.hook a.dst m ((rdOf i s w iss).taken s))
    (hm : RecordOf a s w (rdOf i s w iss) m) : SendsOut i a s iss w :=
  ⟨m, (rdOf i s w iss).taken s, by rw [hexec, withIssue_ready r hchk, heff], hm, rfl, rfl, rfl, taken_memKept ..⟩

theorem exec_sendsOut (ha : accessOf i = some a) (hmem : memChk a.f a.idx a.off a.bytes a.right a.shadow (rdOf i s w iss) = .ok)
    (hwarp : hatchWarpChk a.f (rdOf i s w iss) = .ok) (hroom : hatchRoomChk a.f (rdOf i s w iss) = .ok) : SendsOut i a s iss w := by
  have hload (x : Pre) (hx : x = .ok) :
      ((hatchWarpChk a.f (rdOf i s w iss)).andThen x).andThen (hatchRoomChk a.f (rdOf i s w iss)) = .ok := by
    rw [hwarp, hx, hroom]
    rfl
  cases i with
  | ld f sz sx stm hook off =>
    cases ha
    exact sendsOut_of_effect r rfl (hload _ hmem) rfl (recordOf_memOpOf (sx := sx) (stm := stm) ..)
  | st f sz stm rc hook off =>
    cases ha
    exact sendsOut_of_effect r rfl hmem rfl (recordOf_memOpOf ..)
  | ldt f sz stm hook off =>
    cases ha
    exact sendsOut_of_effect r rfl (hload _ hmem) rfl (recordOf_memOpOf ..)
  | stt f sz stm hook off =>
    cases ha
    exact sendsOut_of_effect r rfl hmem rfl (recordOf_memOpOf ..)
  | atom f op ty hook off =>
    cases ha
    exact sendsOut_of_effect r rfl hmem rfl (recordOf_memOpOf ..)
  | ldr f sz sx ca rc hook off =>
    cases ha
    refine ⟨_, _, withIssue_ready r (hload _ hmem), ?_, rfl, rfl, rfl, (taken_memKept ..).trans (l1Count_memKept ..)⟩
    exact (recordOf_memOpOf ..).answered rfl _ _ (fun _ _ => rfl) _
  | _ => cases ha

end

/-- Settles O16: the access is sent out, which raises its hook and puts its record and the accesses of its lines under way. -/
theorem memoryAccessIssues : Obligations.MemoryAccessIssues := by
  unfold Obligations.MemoryAccessIssues
  intro i a ha s iss w r rd hmem hwarpChk hroom
  obtain ⟨m, u, hexec, hm, hwarps, hid, hbase, hu⟩ := exec_sendsOut r ha hmem hwarpChk hroom
  obtain ⟨hwarp, hway, hkept⟩ := launchMem_shape rd a.f a.hook a.dst m u
  have hitem : workItem u iss a.dst (enabled rd a.f) = workItem s iss a.dst (enabled rd a.f) := by
    simp only [workItem, hid, hbase]
  simp only [rd, rdOf_w, rdOf_iss] at hwarp hway
  rw [hitem] at hwarp
  refine ⟨_, _, hexec, (hwarp _).trans (if_pos rfl), raise_eq .., fun hen => ?_, fun k hk => ?_, hu.trans hkept⟩
  · obtain ⟨⟨op, hop, hwid, hhook, hkind⟩, hlines⟩ := hway hen
    rw [hid] at hop
    rw [hid, hbase] at hlines
    refine ⟨op, m, hop, hwid, hhook, hkind, hm.kind, hm.bytes, hm.enabled, hm.lanes, fun hne k hk => ?_, fun _ k hk => ?_, hlines⟩
    · exact (hm.lines k hk).resolve_right fun h => hne h.1
    · exact (hm.lines k hk).imp_right And.right
  · rw [hwarp, if_neg hk]
    exact congrArg (tget · k) hwarps

end Sys2Proof.Proofs
end

section
/-! O18, at issue (R160, R283, R287, R288, R292, R299): scratchpad accesses are queued for their access tick. -/

namespace Sys2Proof.Proofs
open Sys2Proof.Machine Sys2Proof.Claims

set_option Elab.async false

theorem noteWrite_eq (w : Warp) (d : Dst) (lanes : Lanes) (id : Nat) :
    w.noteWrite d lanes id = { w with lastWr := (w.noteWrite d lanes id).lastWr } := by
  unfold Warp.noteWrite
  split <;> rfl

theorem scrLanes_scrOffs (rd : Rd) (f : Fields) (idx : Opnd) (x : Int) (data cmp : Nat → Nat) :
    scrLanes (scrOffs rd f idx x) data cmp =
      (evalLanes rd f).map fun l => ⟨l, (offOf rd f idx x l).toNat, BitVec.ofNat 128 (data l), BitVec.ofNat 64 (cmp l)⟩ := by
  simp only [scrLanes, scrOffs, List.map_map, Function.comp_def, idxVal_eq_index, offOf]

theorem offOf_none_zero (rd : Rd) (f : Fields) (l : Nat) : (offOf rd f .none 0 l).toNat = (val32 rd f.a l).toNat := by
  simp [offOf, index]

/-- A warp put into a state that has the warps and the memories of another. -/
theorem putWarp_outcome {s u : State} {v : Warp} (hwarps : u.warps = s.warps) (hmem : MemKept s u) :
    (u.putWarp v).warp? v.wid = some v ∧ OthersKept s (u.putWarp v) v.wid ∧ MemKept s (u.putWarp v) := by
  refine ⟨(State.warp?_putWarp ..).trans (if_pos rfl), fun k hk => ?_, hmem.trans (memKept_of_eq rfl rfl rfl rfl rfl rfl rfl)⟩
  rw [State.warp?_putWarp, if_neg hk]
  exact congrArg (tget · k) hwarps

/-- A hook raised and, with a lane enabled, a scratchpad access queued. -/
def raiseThenQueue (f : Fields) (hook : Nat) (dst : Dst) (kind : ScrKind) (lanes : List ScrLane) (rd : Rd) (s : State) : State :=
  let v := rd.w.raise hook (hookItem rd s dst (enabled rd f) (doneIfNone rd f s))
  if enabled rd f = 0 then (s.putWarp v).bump else queueScr rd f kind lanes v s

section
variable {i : Instr} {f : Fields} {s : State} {iss : Issue} {w v : Warp} {hook : Nat} {dst : Dst} {kind : ScrKind} {lanes : List ScrLane}
  {chk : Rd → Pre} {eff : Rd → State → State} (r : Ready i s iss w) (hexec : exec i s = withIssue i chk eff s)
  (hchk : chk (rdOf i s w iss) = .ok)
include r hexec hchk

/-- A syllable whose effect is to put a warp back, with records of its own changed, changes neither other warps nor memories. -/
theorem exec_putsWarp (heff : eff (rdOf i s w iss) ((rdOf i s w iss).taken s) = (((rdOf i s w iss).taken s).putWarp v).bump)
    (hv : v.wid = w.wid) : ∃ t, exec i s = .next t ∧ t.warp? w.wid = some v ∧ OthersKept s t w.wid ∧ MemKept s t := by
  obtain ⟨hput, hothers, hmem⟩ := putWarp_outcome (s := s) (u := (rdOf i s w iss).taken s) (v := v) rfl
    (taken_memKept (rdOf i s w iss) s)
  rw [hv] at hput hothers
  exact ⟨_, (hexec.trans (withIssue_ready r hchk)).trans (congrArg _ heff), hput, hothers,
    hmem.trans (memKept_of_eq (s := ((rdOf i s w iss).taken s).putWarp v) rfl rfl rfl rfl rfl rfl rfl)⟩

theorem exec_raisesThenQueues (heff : eff (rdOf i s w iss) ((rdOf i s w iss).taken s) =
      raiseThenQueue f hook dst kind lanes (rdOf i s w iss) ((rdOf i s w iss).taken s)) :
    ∃ t w', exec i s = .next t ∧ t.warp? w.wid = some w'
      ∧ w' = { w with
          hooks := raised w.hooks hook (workItem s iss dst (enabled (rdOf i s w iss) f))
          scr := if enabled (rdOf i s w iss) f = 0 then w.scr
            else w.scr ++ [⟨s.nextId, iss.tick + 11, kind, lanes, enabled (rdOf i s w iss) f, 0⟩]
          lastWr := w'.lastWr }
      ∧ OthersKept s t w.wid ∧ MemKept s t := by
  simp only [raiseThenQueue] at heff
  rw [hookItem_eq_workItem (rdOf_iss ..), rdOf_w, raise_eq] at heff
  split at heff
  · next hen =>
    obtain ⟨t, ht, hput, hkept⟩ := exec_putsWarp r hexec hchk (v := _) heff rfl
    exact ⟨t, _, ht, hput, by rw [if_pos hen]; rfl, hkept⟩
  · next hen =>
    obtain ⟨t, ht, hput, hkept⟩ := exec_putsWarp r hexec hchk (v := _) heff rfl
    exact ⟨t, _, ht, hput, by rw [if_neg hen, rdOf_iss]; rfl, hkept⟩

end

end Sys2Proof.Proofs
end

section
/-! O18, at the banks (R160, R242, R291, R292, R299): what a scratchpad access does in its last bank cycle. -/

namespace Sys2Proof.Proofs
open Sys2Proof.Machine Sys2Proof.Claims

set_option Elab.async false

/-! ## The bytes of a scratchpad -/

theorem scratchByte_of_team? {s : State} {tid : Nat} {tm : Team} (h : s.team? tid = some tm) (x : Nat) :
    scratchByte s tid x = cget tm.scratch x := by
  rw [scratchByte, h]

theorem scratchByte_putTeam (s : State) (tm : Team) (tid x : Nat) :
    scratchByte (s.putTeam tm) tid x = if tid = tm.tid then cget tm.scratch x else scratchByte s tid x := by
  by_cases h : tid = tm.tid <;> simp [scratchByte, team?_putTeam, h]

/-- No copy in flight writes into the scratchpad: what is read of it is its bytes. -/
theorem scrRead_eq_scrNat {s : State} {tid : Nat} {tm : Team} (h : s.team? tid = some tm) (hd : tm.dests = []) (u : State) (off n : Nat) :
    scrRead u tm off n = scrNat s tid off n := by
  induction n generalizing off with
  | zero => rfl
  | succ n ih => rw [scrRead, scrNat, ih, scrByte, hd, scratchByte_of_team? h]; rfl

/-- The bytes of a number read from a scratchpad are those of the scratchpad. -/
theorem byte_scrNat (s : State) (tid off : Nat) {n k : Nat} (h : k < n) :
    BitVec.ofNat 8 (scrNat s tid off n / 256 ^ k) = scratchByte s tid (off + k) := by
  induction n generalizing off k with
  | zero => exact absurd h (Nat.not_lt_zero k)
  | succ n ih =>
    have hlow := (scratchByte s tid off).isLt
    cases k with
    | zero =>
      refine BitVec.eq_of_toNat_eq ?_
      simp only [scrNat, BitVec.toNat_ofNat, Nat.pow_zero, Nat.div_one, Nat.add_zero]
      omega
    | succ k =>
      have hdiv : scrNat s tid off (n + 1) / 256 = scrNat s tid (off + 1) n := by
        rw [scrNat]
        omega
      rw [Nat.pow_succ', ← Nat.div_div_eq_div_mul, hdiv, ih (off + 1) (Nat.lt_of_succ_lt_succ h), Nat.add_assoc, Nat.add_comm 1 k]

/-- The bytes that the lanes of a store leave: one lane's where no other lane writes them too, and the old ones outside all lanes. -/
theorem cget_storeLanes (n : Nat) (ls : List ScrLane) {m : List Host.Cell} (hm : cwf m = true) :
    (∀ l ∈ ls, (∀ k ∈ ls, k = l ∨ k.off + n ≤ l.off ∨ l.off + n ≤ k.off) → ∀ i < n,
      cget (ls.foldl (fun m l => csetN m l.off n l.data.toNat) m) (l.off + i) = BitVec.ofNat 8 (l.data.toNat / 256 ^ i))
    ∧ ∀ x, (∀ l ∈ ls, x < l.off ∨ l.off + n ≤ x) → cget (ls.foldl (fun m l => csetN m l.off n l.data.toNat) m) x = cget m x := by
  induction ls generalizing m with
  | nil => exact ⟨fun l hl => absurd hl List.not_mem_nil, fun _ _ => rfl⟩
  | cons a ls ih =>
    obtain ⟨hin, hout⟩ := ih (cwf_csetN a.off n a.data.toNat hm)
    refine ⟨fun l hl hsep i hi => ?_, fun x hx => ?_⟩
    · by_cases hlater : l ∈ ls
      · exact hin l hlater (fun k hk => hsep k (List.mem_cons_of_mem _ hk)) i hi
      · obtain rfl : l = a := (List.mem_cons.mp hl).resolve_right hlater
        refine (hout _ fun k hk => ?_).trans (cget_csetN hm hi)
        have hapart := (hsep k (List.mem_cons_of_mem _ hk)).resolve_left fun h => hlater (h ▸ hk)
        omega
    · refine (hout x fun l hl => hx l (List.mem_cons_of_mem _ hl)).trans (cget_csetN_other hm (hx a List.mem_cons_self))

/-! ## Results and items -/

theorem lookup_lane {α : Type} {ls : List ScrLane} (hnd : (ls.map ScrLane.lane).Nodup) (g : ScrLane → α) {l : ScrLane} (h : l ∈ ls) :
    (ls.map fun k => (k.lane, g k)).lookup l.lane = some (g l) := by
  induction ls with
  | nil => exact absurd h List.not_mem_nil
  | cons a ls ih =>
    obtain ⟨hna, hnd⟩ := List.nodup_cons.mp hnd
    rw [List.map_cons, List.lookup_cons]
    rcases List.mem_cons.mp h with rfl | h
    · simp
    · have hne : l.lane ≠ a.lane := fun he => hna (he ▸ List.mem_map_of_mem h)
      rw [beq_false_of_ne hne]
      exact ih hnd h

theorem nodup_lanesOf (en : Lanes) : (lanesOf en).Nodup := List.nodup_range.filter _

/-- The results of an access whose evaluated lanes are those enabled are one for each of its lanes. -/
theorem spread_lanes {en : Lanes} {ls : List ScrLane} (h : ls.map ScrLane.lane = lanesOf en) (g : ScrLane → List (Word × Tag)) :
    spread en (ls.map fun l => (l.lane, g l)) = ls.map fun l => { lane := l.lane, vals := g l } := by
  rw [spread, ← h, List.filterMap_map]
  refine (List.filterMap_congr fun l hl => ?_).trans (congrFun List.filterMap_eq_map ls)
  rw [Function.comp_apply, laneOr, lookup_lane (h ▸ nodup_lanesOf en) g hl]
  rfl

theorem lanesOf_lane1 {l : Nat} (h : l < 64) : lanesOf (lane1 l) = [l] := by
  have hfilter : lanesOf (lane1 l) = (List.range 64).filter (· == l) :=
    List.filter_congr fun k hk =>
      (getLsbD_lane1 l (List.mem_range.mp hk)).trans (decide_eq_decide.mpr eq_comm)
  rw [hfilter, List.filter_beq, List.count_eq_one_of_mem List.nodup_range (List.mem_range.mpr h)]
  rfl

theorem spread_lane1 {lane : Nat} (h : lane < 64) (vals : List (Word × Tag)) :
    spread (lane1 lane) [(lane, vals)] = [{ lane := lane, vals := vals }] := by
  rw [spread, lanesOf_lane1 h]
  simp [laneOr]

/-- One lane's registers written, of a warp with no last use to come. -/
theorem writeAll_lane {w : Warp} (hk : w.kills = []) (fresh d span lane : Nat) (vals : List (Word × Tag)) :
    w.writeAll fresh (.regs d span) [{ lane := lane, vals := vals }] = w.writeVals d lane vals := by
  rw [Warp.writeAll, hk]
  rfl

/-- The hooks of a warp with one item finished. -/
def finishedItem (hs : List HookSt) (id fin : Nat) : List HookSt :=
  hs.map fun h => { h with items := h.items.map fun i => if i.id = id then { i with fin := some fin } else i }

theorem find?_finishedItem {hs : List HookSt} {id : Nat} {it : HookItem} (h : (hs.flatMap HookSt.items).find? (fun x => x.id = id) = some it)
    (fin : Nat) : ((finishedItem hs id fin).flatMap HookSt.items).find? (fun x => x.id = id) = some { it with fin := some fin } := by
  have hid : it.id = id := by simpa using List.find?_some h
  have hkeep : (fun x : HookItem => decide (x.id = id)) ∘ (fun i => if i.id = id then { i with fin := some fin } else i) =
      fun x => decide (x.id = id) := by
    funext x
    rw [Function.comp_apply]
    split <;> rfl
  rw [finishedItem, List.flatMap_map, ← List.map_flatMap, List.find?_map, hkeep, h, Option.map_some, if_pos hid]

/-! ## The values of atomics -/

theorem sextN_eq_toInt {w : Nat} (hw : 0 < w) (x : Nat) : sextN w x = (BitVec.ofNat w x).toInt := by
  have hhalf : 2 ^ w = 2 * 2 ^ (w - 1) := (mul_pow_sub_one hw.ne' 2).symm
  have hiff : x % 2 ^ w < 2 ^ (w - 1) ↔ 2 * (x % 2 ^ w) < 2 ^ w := by omega
  simp only [BitVec.toInt_eq_toNat_cond, BitVec.toNat_ofNat, sextN, hiff, Nat.cast_pow, Nat.cast_ofNat]

/-- Of two floats a minimum or maximum without NUM selects neither where one is a NaN, and else by their order (R211). -/
theorem minMaxPick_fst (isMax : Bool) (a b : Fv) : (minMaxPick isMax false a b).1 =
    if a.isNan || b.isNan then none else some (if isMax then a.below b else b.below a) := by
  unfold minMaxPick
  cases a.isNan <;> cases b.isNan <;> rfl

theorem atomNew_eq_atomicValue (op : AOp) (ty : ATy) (old b expected : Nat) :
    atomNew op ty old b expected = atomicValue op ty old b expected := by
  have hkey32 (x : Nat) : sextN 32 x = (BitVec.ofNat 32 x).toInt := sextN_eq_toInt (by decide) x
  have hkey64 (x : Nat) : sextN 64 x = (BitVec.ofNat 64 x).toInt := sextN_eq_toInt (by decide) x
  cases op with
  | and | or | xor | exch | cas => rfl
  | add => cases ty <;> rfl
  | min | max =>
    cases ty with
    | z32 | z64 => rfl
    | s32 | s64 => simp [atomNew, atomicValue, atyFmt, atySigned, atyBytes, ATy.wide, hkey32, hkey64]
    | f32 | f64 =>
      simp only [atomNew, atomicValue, atyFmt, minMaxPick_fst]
      cases hnan : (Fv.isNan _ || Fv.isNan _) <;> simp [fmtD, hnan]

end Sys2Proof.Proofs
end

section
/-! O18, the step of an access in its last bank cycle. -/

namespace Sys2Proof.Proofs
open Sys2Proof.Machine Sys2Proof.Claims

set_option Elab.async false

/-! ## The banks taken -/

/-- A state that differs from another in its cores alone, and there not in their matrix engines. -/
structure OnlyCores (s u : State) : Prop where
  shape : ∃ cores, u = { s with cores := cores }
  engines : ∀ c, (u.core c).engine = (s.core c).engine

section
variable {s u : State} (h : OnlyCores s u)
include h

theorem OnlyCores.modCore {c : Nat} {f : Core → Core} (hf : ∀ k, (f k).engine = k.engine) : OnlyCores s (u.modCore c f) := by
  obtain ⟨⟨cores, rfl⟩, he⟩ := h
  exact ⟨⟨_, rfl⟩, fun k => (getD_lmod _ _ _ _ hf).trans (he k)⟩

theorem OnlyCores.takeBanks (bs : List (Nat × Nat)) : OnlyCores s (takeBanks u bs) := by
  refine foldl_keeps (P := OnlyCores s) (fun _ _ hs => ?_) bs u h
  exact hs.modCore fun _ => rfl

theorem OnlyCores.warps : u.warps = s.warps := by
  obtain ⟨⟨_, rfl⟩, _⟩ := h
  rfl

theorem OnlyCores.base : u.base = s.base := by
  obtain ⟨⟨_, rfl⟩, _⟩ := h
  rfl

theorem OnlyCores.memKept : MemKept s u := by
  obtain ⟨⟨_, rfl⟩, he⟩ := h
  exact ⟨fun _ => rfl, rfl, rfl, fun _ => rfl, fun _ _ => rfl, he⟩

end

/-- A warp with other freezes, as an access at the partner core's banks gives it. -/
def withFreezes (w : Warp) (freezes : List Freeze) (frozen : Bool) : Warp := { w with freezes := freezes, frozen := frozen }

/-- A scratchpad access in its last bank cycle takes its banks and is performed, its warp frozen where a bank is the partner core's. -/
theorem scratch_performs {s : State} {w : Warp} {tm : Team} {a : ScrAcc} (h : LastBankCycle s w tm a) : ∃ u freezes frozen,
    OnlyCores s u ∧ exec (.scratchAccessPerform w.wid a.seq) s =
      .next (performScr u (withFreezes w freezes frozen) tm a) := by
  have hu : OnlyCores s ((takeBanks s (banksOf tm a)).modCore w.core fun c =>
      { c with rooms := lmod c.rooms w.room fun r => { r with scrAt := some (coreCycle s w.core) } }) :=
    (OnlyCores.takeBanks ⟨⟨_, rfl⟩, fun _ => rfl⟩ _).modCore fun _ => rfl
  have hstep : exec (.scratchAccessPerform w.wid a.seq) s = .next (scrStep s w tm a) := by
    change execScratchAccessPerform w.wid a.seq s = _
    simp only [execScratchAccessPerform, h.warp, teamOf, h.team, h.access]
  rw [hstep, scrStep, if_neg (by simp [h.due]), if_neg (by simpa [h.oldest] using h.once), if_neg (by simp [h.full]),
    if_neg (by simp [h.banks]), if_neg (Nat.not_lt.mpr h.last)]
  dsimp only
  split <;> exact ⟨_, _, _, hu, rfl⟩

/-! ## A warp and its team's scratchpad changed -/

/-- A state with a warp and a team's scratchpad in the place of those of another, whose other warps and bytes it has. -/
structure WarpAndScratch (s t : State) (v : Warp) (tid : Nat) (m : List Host.Cell) : Prop where
  warp : t.warp? v.wid = some v
  others : OthersKept s t v.wid
  own : ∀ x, scratchByte t tid x = cget m x
  apart : ∀ k x, k ≠ tid → scratchByte t k x = scratchByte s k x
  bytes : ∀ x, byteAt t x = byteAt s x
  cellar : ∀ x, cget t.cellar x = cget s.cellar x

theorem OnlyCores.putBoth {s u : State} (h : OnlyCores s u) (v : Warp) (tm : Team) :
    WarpAndScratch s ((u.putWarp v).putTeam tm) v tm.tid tm.scratch := by
  obtain ⟨hput, hothers, hmem⟩ := putWarp_outcome (s := s) (u := u) (v := v) h.warps h.memKept
  refine ⟨hput, hothers, fun x => ?_, fun k x hk => ?_, hmem.bytes, hmem.cellar⟩
  · rw [scratchByte_putTeam, if_pos rfl]
  · rw [scratchByte_putTeam, if_neg hk, hmem.scratch]

theorem WarpAndScratch.used {s t : State} {v : Warp} {tid : Nat} {m : List Host.Cell} (h : WarpAndScratch s t v tid m) :
    WarpAndScratch s t.used v tid m := ⟨h.warp, h.others, h.own, h.apart, h.bytes, h.cellar⟩

theorem memKept_putTeam {s t : State} (h : MemKept s t) {tm new : Team} (hteam : s.team? new.tid = some tm)
    (hsame : new.scratch = tm.scratch) : MemKept s (t.putTeam new) := by
  refine ⟨h.bytes, h.undefined, h.poison, h.cellar, fun k x => ?_, h.engines⟩
  rw [scratchByte_putTeam]
  split
  · next hk => rw [hk, scratchByte_of_team? hteam, hsame]
  · exact h.scratch k x

theorem overwrite_warps (s : State) (t : Team) (ws : List (Nat × Nat)) : (overwrite s t ws).warps = s.warps := by
  unfold overwrite
  split
  · rfl
  · refine foldl_keeps (P := fun u => u.warps = s.warps) (fun _ _ hs => ?_) _ s rfl
    exact hs

theorem overwrite_unwritten (s : State) (t : Team) (ws : List (Nat × Nat)) : Unwritten s (overwrite s t ws) := by
  have h := Unwritten.refl s
  unfold overwrite
  split
  · exact h.modTeam
  · exact h.foldl fun _ hs => hs.modCore

theorem WarpAndScratch.overwrite {s t : State} {v : Warp} {tid : Nat} {m : List Host.Cell} (h : WarpAndScratch s t v tid m) (tm : Team)
    (ws : List (Nat × Nat)) : WarpAndScratch s (overwrite t tm ws) v tid m := by
  have hu := overwrite_unwritten t tm ws
  have hw (k : Nat) : (Machine.overwrite t tm ws).warp? k = t.warp? k := congrArg (tget · k) (overwrite_warps t tm ws)
  refine ⟨(hw _).trans h.warp, fun k hk => (hw k).trans (h.others k hk), fun x => (hu.scratchByte_eq tid x).trans (h.own x),
    fun k x hk => (hu.scratchByte_eq k x).trans (h.apart k x hk), fun x => (hu.byteAt_eq x).trans (h.bytes x), fun x => ?_⟩
  rw [hu.cellar, h.cellar]

/-! ## An atomic of one lane -/

theorem atomScr_lane (op : AOp) (ty : ATy) (get : Nat → Nat) (l : ScrLane) (m : List Host.Cell) :
    atomScr op ty get [l] m [] =
      (if atomWrites op (get l.off) (atomNew op ty (get l.off) l.data.toNat l.cmp.toNat)
        then csetN m l.off (atyBytes ty) (atomNew op ty (get l.off) l.data.toNat l.cmp.toNat) else m,
        [(l.lane, get l.off)]) := rfl

/-- The bytes that an atomic leaves, whether or not it writes (R292). -/
theorem cget_atomWrites {op : AOp} {old new off n k : Nat} {m : List Host.Cell} (hm : cwf m = true) (hk : k < n)
    (hold : BitVec.ofNat 8 (old / 256 ^ k) = cget m (off + k)) :
    cget (if atomWrites op old new then csetN m off n new else m) (off + k) = BitVec.ofNat 8 (new / 256 ^ k) := by
  split
  · exact cget_csetN hm hk
  · next h =>
    have hsame : op = .cas ∧ new = old := by simpa [atomWrites] using h
    rw [hsame.2, hold]

theorem cget_atomWrites_outside {op : AOp} {old new off n x : Nat} {m : List Host.Cell} (hm : cwf m = true) (hx : x < off ∨ off + n ≤ x) :
    cget (if atomWrites op old new then csetN m off n new else m) x = cget m x := by
  split
  · exact cget_csetN_other hm hx
  · rfl

theorem length_loadVals_atyBytes (ty : ATy) (sx : Bool) (n : Nat) : (loadVals (atyBytes ty) sx n).length = atyBytes ty / 4 := by
  cases ty <;> simp [loadVals, loadTags, atyBytes, ATy.wide]

theorem storeTag_of_loadVals {ty : ATy} {sx : Bool} {n k : Nat} {v : Word} {tg : Tag} (h : (loadVals (atyBytes ty) sx n)[k]? = some (v, tg)) :
    storeTag tg = tg := by
  have hmem : tg ∈ loadTags (atyBytes ty) := by
    have hv := List.mem_of_getElem? h
    rw [loadVals, if_neg (by cases ty <;> decide)] at hv
    exact (List.of_mem_zip hv).2
  have hall : ∀ x ∈ loadTags (atyBytes ty), storeTag x = x := by cases ty <;> decide
  exact hall tg hmem

/-! ## What each kind of access does -/

/-- The warp of an access after its last bank cycle. -/
def leftBanks (s : State) (w : Warp) (a : ScrAcc) : Warp :=
  { w with scr := w.scr.filter (fun b => b.seq ≠ a.seq), scrDone := some (a.seq, coreCycle s w.core) }

section
variable {s : State} {w : Warp} {tm : Team} {a : ScrAcc} {n item d span : Nat} {full : Bool} {op : AOp} {ty : ATy} {l : ScrLane} {it : HookItem}

theorem performScr_store (hkind : a.kind = .store n) : performScr s w tm a =
    overwrite ((s.putWarp (leftBanks s w a)).putTeam
      { tm with scratch := a.lanes.foldl (fun m l => csetN m l.off n l.data.toNat) tm.scratch }) tm (a.lanes.map fun l => (l.off, n)) := by
  rw [performScr, hkind]
  rfl

theorem performScr_mark (hkind : a.kind = .mark full item) : performScr s w tm a =
    (s.putWarp { leftBanks s w a with hooks := finishedItem w.hooks item s.base }).putTeam
      { tm with marks := tm.marks ++ a.lanes.map fun l => (l.off / 128, 2, full) } := by
  rw [performScr, hkind]
  rfl

/-- The warp of an atomic whose lanes' old values are put into its destination, and whose item is to finish in the next clock cycle. -/
def atomicDone (s : State) (w : Warp) (a : ScrAcc) (item : Nat) (dst : Dst) (rs : List LaneRes) : Warp :=
  { (leftBanks s w a).writeAll s.fresh dst rs with
    hooks := finishedItem ((leftBanks s w a).writeAll s.fresh dst rs).hooks item (s.base + 1) }

theorem atomicDone_shape (s : State) (w : Warp) (a : ScrAcc) (item : Nat) (dst : Dst) (rs : List LaneRes) : ∃ regs kills,
    atomicDone s w a item dst rs =
      { leftBanks s w a with regs := regs, kills := kills, hooks := finishedItem w.hooks item (s.base + 1) } := by
  obtain ⟨regs, kills, h⟩ := writeAll_onlyRegs (leftBanks s w a) s.fresh dst rs
  exact ⟨regs, kills, by rw [atomicDone, h]; rfl⟩

/-- The old value of an atomic of one lane is in that lane's registers, of a warp with no last use to come. -/
theorem cell_atomicDone (s : State) {w : Warp} (a : ScrAcc) (item d span old : Nat) (ty : ATy) (hkills : w.kills = []) {lane : Nat}
    (hl : lane < 64) {k : Nat} {v : Word} {tg : Tag} (hv : (loadVals (atyBytes ty) false old)[k]? = some (v, tg)) (hk : d + k < 776) :
    (atomicDone s w a item (.regs d span) [{ lane := lane, vals := loadVals (atyBytes ty) false old }]).cell (d + k) lane =
      ⟨v, 0, tg, false⟩ := by
  have hcell := cell_writeVals (leftBanks s w a) hl hv hk
  rwa [← writeAll_lane (w := leftBanks s w a) hkills s.fresh d span, storeTag_of_loadVals hv] at hcell

theorem cell_atomicDone_outside (s : State) {w : Warp} (a : ScrAcc) (item d span old : Nat) (ty : ATy) (hkills : w.kills = [])
    {lane x j : Nat} (hl : lane < 64) (hj : j < 64) (hx : x < d ∨ d + atyBytes ty / 4 ≤ x ∨ j ≠ lane) :
    (atomicDone s w a item (.regs d span) [{ lane := lane, vals := loadVals (atyBytes ty) false old }]).cell x j = w.cell x j := by
  rw [← length_loadVals_atyBytes ty false old] at hx
  have hcell := cell_writeVals_outside (leftBanks s w a) hl hj hx
  rwa [← writeAll_lane (w := leftBanks s w a) hkills s.fresh d span] at hcell

theorem performScr_atomic (hkind : a.kind = .atomic op ty item)
    (hit : (w.hooks.flatMap HookSt.items).find? (fun x => x.id = item) = some it) {m : List Host.Cell} {vs : List (Nat × Nat)}
    (hscr : atomScr op ty (fun off => scrRead s tm off (atyBytes ty)) a.lanes tm.scratch [] = (m, vs)) {rs : List LaneRes}
    (hrs : spread a.enabled (vs.map fun p => (p.1, loadVals (atyBytes ty) false p.2)) = rs) :
    WarpAndScratch s (performScr s w tm a) (atomicDone s w a item it.dst rs) tm.tid m := by
  have h := (OnlyCores.putBoth ⟨⟨s.cores, rfl⟩, fun _ => rfl⟩ (atomicDone s w a item it.dst rs) { tm with scratch := m }).used
  have heq : performScr s w tm a =
      let t := ((s.putWarp (atomicDone s w a item it.dst rs)).putTeam { tm with scratch := m }).used
      if op = .exch then overwrite t tm (a.lanes.map fun l => (l.off, atyBytes ty)) else t := by
    subst hrs
    rw [performScr, hkind]
    simp only [hscr, hit]
    rfl
  rw [heq]
  dsimp only
  split
  · exact h.overwrite ..
  · exact h

end

end Sys2Proof.Proofs
end

section
/-! O18, put together. -/

namespace Sys2Proof.Proofs
open Sys2Proof.Machine Sys2Proof.Claims

set_option Elab.async false

/-- Settles O18: at issue by what is put into the warp, at the banks by what the last bank cycle performs. -/
theorem scratchAccessesIssueAndStore : Obligations.ScratchAccessesIssueAndStore := by
  unfold Obligations.ScratchAccessesIssueAndStore
  refine ⟨⟨fun f sz sx off s iss w r hchk => ?lds, fun f sz off s iss w r hchk => ?sts⟩,
    ⟨fun f op ty hook off s iss w r hchk => ?atoms, fun i f full hook s iss w hi r hchk => ?spmark⟩,
    fun s w tm a n sx h hkind hd hlanes => ?load,
    fun s w tm a op ty item it l d span h hkind hd hlane hl hen _ hkills hit hdst => ?atomic,
    fun s w tm a full item it h hkind hit => ?mark, fun s w tm a n h hkind => ?store⟩
  case lds =>
    obtain ⟨t, ht, hput, hkept⟩ := exec_putsWarp (v := _) r rfl hchk rfl (by rw [noteWrite_eq, rdOf_w])
    refine ⟨t, _, ht, hput, ?_, hkept⟩
    rw [scrLanes_scrOffs, noteWrite_eq, rdOf_w, rdOf_iss]
    rfl
  case sts =>
    obtain ⟨t, ht, hput, hkept⟩ := exec_putsWarp (v := _) r rfl hchk rfl (by rw [rdOf_w])
    refine ⟨t, _, ht, hput, ?_, hkept⟩
    rw [scrLanes_scrOffs, rdOf_w, rdOf_iss]
    rfl
  case atoms =>
    have h := exec_raisesThenQueues r rfl hchk (kind := .atomic op ty s.nextId) rfl
    simp only [scrLanes_scrOffs] at h
    exact h
  case spmark =>
    have hexec : exec i s = withIssue i (markChk f) (markEff f full hook) s := by
      obtain ⟨rfl, rfl⟩ | ⟨rfl, rfl⟩ := hi <;> rfl
    have h := exec_raisesThenQueues r hexec hchk (kind := .mark full s.nextId) rfl
    simp only [scrLanes_scrOffs, offOf_none_zero] at h
    exact h
  case load =>
    obtain ⟨u, freezes, frozen, hu, hexec⟩ := scratch_performs h
    simp only [performScr, hkind, scrRead_eq_scrNat h.team hd, spread_lanes hlanes] at hexec
    obtain ⟨hput, hothers, hmem⟩ := putWarp_outcome (s := s) (u := u) (v := _) hu.warps hu.memKept
    exact ⟨_, _, hexec, hput, rfl, rfl, rfl, hothers, hmem.trans (memKept_of_eq rfl rfl rfl rfl rfl rfl rfl)⟩
  case atomic =>
    intro n old new
    obtain ⟨u, freezes, frozen, hu, hexec⟩ := scratch_performs h
    have hscr : atomScr op ty (fun off => scrRead u tm off (atyBytes ty)) a.lanes tm.scratch [] =
        (if atomWrites op old new then csetN tm.scratch l.off n new else tm.scratch, [(l.lane, old)]) := by
      rw [hlane, atomScr_lane, scrRead_eq_scrNat h.team hd, atomNew_eq_atomicValue]
      rfl
    have hrs : spread a.enabled ([(l.lane, old)].map fun p => (p.1, loadVals (atyBytes ty) false p.2)) =
        [{ lane := l.lane, vals := loadVals (atyBytes ty) false old }] := by
      rw [hen]
      exact spread_lane1 hl _
    have ht := performScr_atomic (w := withFreezes w freezes frozen) hkind hit hscr hrs
    obtain ⟨regs, kills, hshape⟩ := atomicDone_shape u (withFreezes w freezes frozen) a item it.dst
      [{ lane := l.lane, vals := loadVals (atyBytes ty) false old }]
    have hbyte (k : Nat) (hk : k < n) : BitVec.ofNat 8 (old / 256 ^ k) = cget tm.scratch (l.off + k) :=
      (byte_scrNat s w.team l.off hk).trans (scratchByte_of_team? h.team _)
    have hwid := congrArg Warp.wid hshape
    have hhooks := congrArg Warp.hooks hshape
    rw [h.tid] at ht
    refine ⟨_, _, { it with fin := some (u.base + 1) }, hexec, hwid ▸ ht.warp,
      fun k hk => (ht.own _).trans (cget_atomWrites h.canonical hk (hbyte k hk)), fun x hx => ?_,
      fun tid x htid => (ht.apart tid x htid).trans (hu.memKept.scratch tid x), ?_, ?_, ?_, by rw [hu.base],
      fun x => (ht.bytes x).trans (hu.memKept.bytes x), fun x => (ht.cellar x).trans (hu.memKept.cellar x), fun k hk => ?_⟩
    · rw [ht.own, scratchByte_of_team? h.team]
      exact cget_atomWrites_outside h.canonical hx
    · rw [hdst]
      intro k v tg hv hk
      refine cell_atomicDone u a item d span old ty ?_ hl hv hk
      exact hkills
    · rw [hdst]
      intro x j hj hx
      refine (cell_atomicDone_outside u a item d span old ty ?_ hl hj hx).trans ?_
      · exact hkills
      · rfl
    · rw [hhooks]
      exact find?_finishedItem hit _
    · rw [ht.others k fun he => hk (he.trans hwid)]
      exact congrArg (tget · k) hu.warps
  case mark =>
    obtain ⟨u, freezes, frozen, hu, hexec⟩ := scratch_performs h
    rw [performScr_mark hkind] at hexec
    obtain ⟨hput, hothers, hmem⟩ := putWarp_outcome (v := { leftBanks u (withFreezes w freezes frozen) a with
      hooks := finishedItem w.hooks item u.base }) hu.warps hu.memKept
    refine ⟨_, _, _, hexec, hput, rfl, ?_, find?_finishedItem hit _, ?_, hothers, ?_⟩
    · rw [team?_putTeam, if_pos h.tid.symm]
    · rw [hu.base]
    · exact memKept_putTeam hmem ((congrArg s.team? h.tid).trans h.team) rfl
  case store =>
    obtain ⟨u, freezes, frozen, hu, hexec⟩ := scratch_performs h
    obtain ⟨hin, hout⟩ := cget_storeLanes n a.lanes h.canonical
    have ht := (hu.putBoth (leftBanks u (withFreezes w freezes frozen) a)
      { tm with scratch := a.lanes.foldl (fun m l => csetN m l.off n l.data.toNat) tm.scratch }).overwrite tm
      (a.lanes.map fun l => (l.off, n))
    rw [← performScr_store hkind, h.tid] at ht
    refine ⟨_, hexec, fun l hl hsep k hk => ?_, fun x hx => ?_, ht.apart, ht.bytes, ht.cellar, ht.others⟩
    · rw [ht.own]
      exact hin l hl hsep k hk
    · rw [ht.own, scratchByte_of_team? h.team]
      exact hout x hx

end Sys2Proof.Proofs
end
